-- ==== Sys2Proof/Word.lean ====
section
/-! DEFINITION. The widths the spec uses, by name, and the plainest arithmetic on them. -/

namespace Sys2Proof

/-- A byte of memory (R4). -/
abbrev Byte := BitVec 8
/-- A parcel of code, or a 16-bit field (R52). -/
abbrev Parcel := BitVec 16
/-- A 32-bit lane or matrix element (R28). -/
abbrev Lane := BitVec 32
/-- A 64-bit general register (R26). -/
abbrev Word := BitVec 64
/-- A 5-bit register field of C16, S32 and L48. -/
abbrev Reg := BitVec 5

/-- `n` bits of the number `w` from bit `lo` up: the bit range `lo+n-1:lo` of R4. -/
def bits (w lo n : Nat) : BitVec n := BitVec.ofNat n (w / 2 ^ lo)

/-- Bit `k` of the number `w`. -/
def bitAt (w k : Nat) : Bool := w / 2 ^ k % 2 == 1

/-- The bits `lo+n-1:lo` of `w` as a number. -/
def field (w lo n : Nat) : Nat := w / 2 ^ lo % 2 ^ n

end Sys2Proof
end

