-- ==== Sys2Proof/Config.lean ====
section
/-! DEFINITION. What the module fixes (its shared figures, R15) and the values the spec leaves open, which are
constants without a body. -/

namespace Sys2Proof

/-- Cores of the module (R15). -/
def Config.cores : Nat := 256
/-- Cores of a group (R15). -/
def Config.groupCores : Nat := 8
/-- Bytes of one scratchpad, 1.5 MiB (R40). -/
def Config.scratchBytes : Nat := 0x180000
/-- Device-memory bytes a physical line address can name: the counter value of R186 gives the line address 36 bits. -/
def Config.physBytes : Nat := 2 ^ 42
/-- Lines of device memory that tenants, shared domains and leases can hold in a tier: 760 GiB of the main tier, 2 TiB of the second
(R15), without the 1/28 that counter blocks and tree nodes take (R186). -/
def Config.tierLines (second : Bool) : Nat := (if second then 2048 else 760) * 2 ^ 24 / 28 * 27
/-- Lines of 4 KiB in one way of the memory-side cache: 8,192 MiB in 16 ways (R15). -/
def Config.wayLines : Nat := 2 ^ 17
/-- Bytes of a device-memory line (R11). -/
def Config.lineBytes : Nat := 64
/-- Hardware queue slots (R15). -/
def Config.queueSlots : Nat := 256
/-- Host work queues (R15). -/
def Config.queues : Nat := 4096
/-- Virtual functions (R178). -/
def Config.functions : Nat := 1024
/-- Partitions the hypervisor may define (R177). -/
def Config.partitions : Nat := 64
/-- Avdex ports (R15). -/
def Config.ports : Nat := 18

/-- How many nanoseconds of the device timer (R19) the machine's `n`-th step takes. The spec gives steps no length. -/
opaque Config.stepNs : Nat → Nat
/-- How many cycles of the arithmetic clock (R18) the machine's `n`-th step takes. -/
opaque Config.stepCycles : Nat → Nat
/-- The body length of a loop entry that `RTE` restores with a header offset where no header can be read. The spec
says nothing of it. -/
opaque Config.lostLength : BitVec 32 → BitVec 14
/-- How many rows and how many columns of the array fail the self-test of `MCHECK` at the machine's `n`-th step (R299): the spec
does not say when a cell fails. -/
opaque Config.checkRows : Nat → Nat
/-- The columns. -/
opaque Config.checkCols : Nat → Nat
/-- The host-backing index that firmware gives the PAGED entry of a page that has never been written, by function and address
(R156): the spec does not number the host's backing. -/
opaque Config.backing : Nat → Nat → Nat
/-- The HBM channel that holds a main-tier line (R202): the spec does not say how lines lie on channels. -/
opaque Config.channelOf : Nat → Nat
/-- The HBM channel that holds a line of the memory-side cache, by its way and its 4 KiB-aligned address (R202). -/
opaque Config.cacheChannel : Nat → Nat → Nat
/-- Main-tier lines that an HBM channel holds (R202). -/
opaque Config.channelLines : Nat → Nat
/-- Main-tier lines that firmware takes off a tenant's allotment for a fenced channel, by channel and function (R202): the spec does not
say how the loss is shared among tenants. -/
opaque Config.channelLoss : Nat → Nat → Nat
/-- Whether a range that is lent lies in the second tier, by its first 4 KiB block: a lease-table entry (R162) names no tier. -/
opaque Config.lentSecond : Nat → Bool
/-- The compute die whose stack holds an HBM channel. -/
opaque Config.channelDie : Nat → Nat
/-- The digest a measurement holds of the boot ROM or a firmware image, by its index and the image's security version (R184). -/
opaque Config.measure : Nat → Nat → Nat
/-- A die's signature of a measurement, by die and content (R184): its key never leaves the die. -/
opaque Config.sign : Nat → List Nat → Nat
/-- The 56-bit integrity tag of a counter block or a tree node, by the key version, its own counters and its parent counter (R186): no
software can read the keys. -/
opaque Config.tag : Nat → List Nat → Nat → BitVec 56

end Sys2Proof
end

