-- ==== Sys2Proof/Machine/Store.lean ====
section
/-! DEFINITION. Total maps as plain data: a table whose unlisted keys hold a default, and memory in its one canonical
form. -/

namespace Sys2Proof.Machine

/-- A table: the first entry of a key is its value. -/
abbrev Tab (α : Type) := List (Nat × α)

/-- The value at key `x`, or `d` where none is listed. -/
def Tab.get {α : Type} (d : α) : Tab α → Nat → α
  | [], _ => d
  | (k, v) :: r, x => if x = k then v else Tab.get d r x

/-- The table with `v` at key `k`, kept in rising order of key. -/
def Tab.set {α : Type} : Tab α → Nat → α → Tab α
  | [], k, v => [(k, v)]
  | (k', v') :: r, k, v =>
    if k < k' then (k, v) :: (k', v') :: r
    else if k = k' then (k, v) :: r
    else (k', v') :: Tab.set r k v

/-- The table without key `k`. -/
def Tab.erase {α : Type} (m : Tab α) (k : Nat) : Tab α := m.filter (fun e => e.1 != k)

/-- The table with every pair of a list set, in the order of the list. -/
def Tab.setAll {α : Type} (m : Tab α) : List (Nat × α) → Tab α
  | [] => m
  | (k, v) :: r => Tab.setAll (Tab.set m k v) r

/-- Memory: the listed bytes, addresses strictly rising, none of them zero. -/
abbrev Memory := List Host.Cell

/-- What a byte that is not listed reads as: zero, as bring-up stage 4 writes all memory and every scratchpad (R20). -/
def Memory.unlisted : Byte := 0

/-- The byte at an address. -/
def Memory.read : Memory → Nat → Byte
  | [], _ => Memory.unlisted
  | (k, v) :: r, a => if a = k then v else Memory.read r a

/-- Put a byte at an address, in order. -/
def Memory.insert : Memory → Nat → Byte → Memory
  | [], a, b => [(a, b)]
  | (k, v) :: r, a, b =>
    if a < k then (a, b) :: (k, v) :: r
    else if a = k then (a, b) :: r
    else (k, v) :: Memory.insert r a b

/-- Write a byte. Writing what an unlisted byte reads as removes the entry. -/
def Memory.write (m : Memory) (a : Nat) (b : Byte) : Memory :=
  if b = Memory.unlisted then m.filter (fun e => e.1 != a) else Memory.insert m a b

/-- Write a list of cells, in order. -/
def Memory.writeAll (m : Memory) : List Host.Cell → Memory
  | [] => m
  | (a, b) :: r => Memory.writeAll (Memory.write m a b) r

/-- Read `n` bytes from an address up. -/
def Memory.readBytes (m : Memory) (a : Nat) : Nat → List Byte
  | 0 => []
  | n + 1 => Memory.read m a :: Memory.readBytes m (a + 1) n

/-- Addresses rise strictly. -/
def Memory.rising : Memory → Bool
  | [] => true
  | (k, _) :: r => (match r with | [] => true | (k', _) :: _ => k < k') && Memory.rising r

/-- The canonical form. -/
def Memory.wf (m : Memory) : Bool := Memory.rising m && m.all (fun e => e.2 != Memory.unlisted)

/-- Cells of consecutive bytes. -/
def cellsFrom (a : Nat) : List Byte → List Host.Cell
  | [] => []
  | b :: bs => (a, b) :: cellsFrom (a + 1) bs

/-- The number bytes hold, little-endian (R4). -/
def leNat : List Byte → Nat
  | [] => 0
  | b :: bs => b.toNat + 256 * leNat bs

/-- The `n` low bytes of a number, little-endian. -/
def leBytes : Nat → Nat → List Byte
  | 0, _ => []
  | n + 1, v => BitVec.ofNat 8 v :: leBytes n (v / 256)

end Sys2Proof.Machine
end

