-- ==== Sys2Proof/Machine/Fp.lean ====
section
/-! DEFINITION. Floating values exactly, and the one rounding (R85 to R87, R91 to R97). -/

namespace Sys2Proof.Machine

/-- An exact floating value: NaN, an infinity, or (-1)^neg * m * 2^e. A zero has m = 0 and keeps its sign. -/
inductive FVal where
  | nan
  | inf (neg : Bool)
  | fin (neg : Bool) (m : Nat) (e : Int)
  deriving DecidableEq, Repr

/-- A floating format (R85): exponent bits, fraction bits, bias, and whether it has infinities. -/
structure FpFmt where
  eb   : Nat
  fb   : Nat
  bias : Nat
  inf  : Bool
  deriving DecidableEq, Repr

/-- The format of a format code (R59, R85). Codes above 4 are not floating. -/
def fpFmt : Nat → FpFmt
  | 1 => ⟨5, 10, 15, true⟩
  | 2 => ⟨8, 7, 127, true⟩
  | 3 => ⟨4, 3, 7, false⟩
  | 4 => ⟨5, 2, 15, true⟩
  | _ => ⟨8, 23, 127, true⟩

/-- Exponent of the smallest normal. -/
def FpFmt.emin (f : FpFmt) : Int := 1 - f.bias
/-- The exponent of the weight of the last fraction bit of the smallest normal. -/
def FpFmt.low (f : FpFmt) : Int := f.emin - f.fb
/-- Largest exponent field of a finite value. -/
def FpFmt.emaxField (f : FpFmt) : Nat := if f.inf then 2 ^ f.eb - 2 else 2 ^ f.eb - 1
/-- Fraction field of the largest finite value: E4M3 keeps fraction 111 of the top exponent for NaN. -/
def FpFmt.maxFrac (f : FpFmt) : Nat := if f.inf then 2 ^ f.fb - 1 else 2 ^ f.fb - 2
/-- Encoding of the largest finite value, sign 0. -/
def FpFmt.maxBits (f : FpFmt) : Nat := f.emaxField * 2 ^ f.fb + f.maxFrac
/-- The canonical NaN (R85). -/
def FpFmt.nanBits (f : FpFmt) : Nat :=
  if f.inf then (2 ^ f.eb - 1) * 2 ^ f.fb + 2 ^ (f.fb - 1) else 2 ^ (f.eb + f.fb) - 1
/-- The encoding with a sign. -/
def FpFmt.signed (f : FpFmt) (neg : Bool) (b : Nat) : Nat := b + neg.toNat * 2 ^ (f.eb + f.fb)

/-- The value of an encoding (R86). -/
def FpFmt.decode (f : FpFmt) (b : Nat) : FVal :=
  let neg := bitAt b (f.eb + f.fb)
  let e := field b f.fb f.eb
  let fr := field b 0 f.fb
  if e = 2 ^ f.eb - 1 ∧ f.inf then (if fr = 0 then .inf neg else .nan)
  else if e = 2 ^ f.eb - 1 ∧ fr = 2 ^ f.fb - 1 ∧ !f.inf then .nan
  else if e = 0 then .fin neg fr f.low
  else .fin neg (2 ^ f.fb + fr) ((e : Int) - f.bias - f.fb)

/-- A value is subnormal in a format: non-zero and below its smallest normal. -/
def FpFmt.subnormal (f : FpFmt) : FVal → Bool
  | .fin _ m e => m != 0 && decide ((Nat.log2 m : Int) + e < f.emin)
  | _ => false

/-- Input flush (R92): in exposed mode a subnormal operand reads as zero of its sign. -/
def FpFmt.flushIn (f : FpFmt) (exposed : Bool) (v : FVal) : FVal :=
  if exposed && f.subnormal v then
    match v with
    | .fin n _ _ => .fin n 0 0
    | v => v
  else v

/-- The rounding modes (R93): nearest even, toward zero, saturating nearest even, stochastic with a draw and the exponent of
the source's last bit position. -/
inductive Rounding where
  | rne
  | rz
  | sat
  | sr (draw : Nat) (lsb : Int)
  deriving DecidableEq, Repr

/-- A rounded result: its encoding, whether it overflowed, and whether Flush replaced it by zero. -/
structure Rounded where
  bits  : Nat
  ovf   : Bool := false
  flush : Bool := false
  deriving DecidableEq, Repr

/-- The result of an overflow (R95, first three rows). -/
def FpFmt.overflow (f : FpFmt) (mode : Rounding) (neg : Bool) : Nat :=
  let big := f.signed neg f.maxBits
  let infb := f.signed neg ((2 ^ f.eb - 1) * 2 ^ f.fb)
  match mode with
  | .rne => if f.inf then infb else f.nanBits
  | .rz => big
  | .sat => big
  | .sr _ _ => if f.eb + f.fb = 7 then big else infb

/-- The result of an infinite value (R95, last three rows). An infinite result of an operation is as an infinite source under
nearest even, so E4M3 gives its NaN (log 24). -/
def FpFmt.infinite (f : FpFmt) (mode : Rounding) (neg : Bool) : Nat :=
  let big := f.signed neg f.maxBits
  if f.inf then
    (match mode with
      | .sat => big
      | _ => f.signed neg ((2 ^ f.eb - 1) * 2 ^ f.fb))
  else
    match mode with
    | .sat => big
    | .sr _ _ => big
    | _ => f.nanBits

/-- Whether the magnitude rounds up from `n`, with remainder `rem` of 2^sh below the last place, and something further below
when `more` (R93, R94). -/
def roundsUp (mode : Rounding) (ulp : Int) (n rem sh : Nat) (more : Bool) : Bool :=
  match mode with
  | .rz => false
  | .sr draw lsb =>
    let d := min 32 (ulp - lsb).toNat
    let t := rem * 2 ^ d / 2 ^ sh
    decide (2 ^ d ≤ t + draw % 2 ^ d)
  | _ =>
    if sh = 0 then false
    else if rem = 2 ^ (sh - 1) then more || n % 2 == 1
    else decide (2 ^ (sh - 1) < rem)

/-- Round the magnitude m * 2^e, a little more when `more`, to a format (R93), with Flush in exposed mode (R92) and the
overflow rule (R95). -/
def FpFmt.roundMag (f : FpFmt) (mode : Rounding) (exposed : Bool) (neg : Bool) (m : Nat) (e : Int) (more : Bool) :
    Rounded :=
  if m = 0 ∧ !more then ⟨f.signed neg 0, false, false⟩
  else
    let l : Int := (Nat.log2 m : Int) + e
    let ulp : Int := max l f.emin - f.fb
    let sh := (ulp - e).toNat
    let base := m * 2 ^ (e - ulp).toNat
    let n := base / 2 ^ sh
    let rem := base % 2 ^ sh
    let n := if roundsUp mode ulp n rem sh more then n + 1 else n
    let top := n = 2 ^ (f.fb + 1)
    let n' := if top then 2 ^ f.fb else n
    let ulp' := if top then ulp + 1 else ulp
    if n' < 2 ^ f.fb then
      if exposed ∧ n' ≠ 0 then ⟨f.signed neg 0, false, true⟩ else ⟨f.signed neg n', false, false⟩
    else
      let ef := (ulp' + f.fb + f.bias).toNat
      let b := ef * 2 ^ f.fb + (n' - 2 ^ f.fb)
      if f.maxBits < b then ⟨f.overflow mode neg, true, false⟩ else ⟨f.signed neg b, false, false⟩

/-- Round an exact value to a format. -/
def FpFmt.round (f : FpFmt) (mode : Rounding) (exposed : Bool) : FVal → Rounded
  | .nan => ⟨f.nanBits, false, false⟩
  | .inf n => ⟨f.infinite mode n, false, false⟩
  | .fin n m e => f.roundMag mode exposed n m e false

/-! ### Exact operations (R91) -/

/-- A value negated. -/
def FVal.neg : FVal → FVal
  | .nan => .nan
  | .inf n => .inf (!n)
  | .fin n m e => .fin (!n) m e

/-- A signed magnitude over a common exponent. -/
def signedAt (n : Bool) (m : Nat) (e e0 : Int) : Int :=
  let v : Int := (m * 2 ^ (e - e0).toNat : Nat)
  if n then -v else v

/-- The exact sum, with the signs of zero of R91. -/
def FVal.add : FVal → FVal → FVal
  | .nan, _ => .nan
  | _, .nan => .nan
  | .inf a, .inf b => if a = b then .inf a else .nan
  | .inf a, .fin _ _ _ => .inf a
  | .fin _ _ _, .inf b => .inf b
  | .fin na ma ea, .fin nb mb eb =>
    if ma = 0 ∧ mb = 0 then .fin (na && nb) 0 0
    else
      let e0 := min ea eb
      let v := signedAt na ma ea e0 + signedAt nb mb eb e0
      if v = 0 then .fin false 0 0 else .fin (decide (v < 0)) v.natAbs e0

/-- The exact product. -/
def FVal.mul : FVal → FVal → FVal
  | .nan, _ => .nan
  | _, .nan => .nan
  | .inf a, .inf b => .inf (a != b)
  | .inf a, .fin n m _ => if m = 0 then .nan else .inf (a != n)
  | .fin n m _, .inf b => if m = 0 then .nan else .inf (n != b)
  | .fin na ma ea, .fin nb mb eb => .fin (na != nb) (ma * mb) (ea + eb)

/-- The order of finite and infinite values as exact reals; -0 equals +0. -/
def FVal.cmpVal : FVal → FVal → Ordering
  | .inf a, .inf b => if a = b then .eq else if a then .lt else .gt
  | .inf a, _ => if a then .lt else .gt
  | _, .inf b => if b then .gt else .lt
  | .fin na ma ea, .fin nb mb eb =>
    let e0 := min ea eb
    compare (signedAt na ma ea e0) (signedAt nb mb eb e0)
  | _, _ => .eq

/-- The sign bit. -/
def FVal.isNeg : FVal → Bool
  | .nan => false
  | .inf n => n
  | .fin n _ _ => n

/-- The value is a zero. -/
def FVal.isZero : FVal → Bool
  | .fin _ 0 _ => true
  | _ => false

/-- The lesser of two values, -0 below +0; the other one where one is NaN (R91). -/
def FVal.min (a b : FVal) : FVal :=
  match a, b with
  | .nan, b => b
  | a, .nan => a
  | a, b =>
    match a.cmpVal b with
    | .lt => a
    | .gt => b
    | .eq => if a.isNeg then a else b

/-- The greater of two values, as `FVal.min`. -/
def FVal.max (a b : FVal) : FVal :=
  match a, b with
  | .nan, b => b
  | a, .nan => a
  | a, b =>
    match a.cmpVal b with
    | .gt => a
    | .lt => b
    | .eq => if a.isNeg then b else a

/-- The quotient, rounded once (R91). -/
def FpFmt.div (f : FpFmt) (exposed : Bool) (a b : FVal) : Rounded :=
  match a, b with
  | .nan, _ => ⟨f.nanBits, false, false⟩
  | _, .nan => ⟨f.nanBits, false, false⟩
  | .inf _, .inf _ => ⟨f.nanBits, false, false⟩
  | .inf n, .fin n' _ _ => f.round .rne exposed (.inf (n != n'))
  | .fin n _ _, .inf n' => f.round .rne exposed (.fin (n != n') 0 0)
  | .fin n m e, .fin n' m' e' =>
    if m' = 0 then (if m = 0 then ⟨f.nanBits, false, false⟩ else f.round .rne exposed (.inf (n != n')))
    else
      let k := Nat.log2 m' + 40
      let q := m * 2 ^ k / m'
      f.roundMag .rne exposed (n != n') q (e - e' - k) (m * 2 ^ k % m' != 0)

/-- The integer square root, by bits from bit `n - 1` down. -/
def isqrt (x : Nat) : Nat → Nat → Nat
  | 0, r => r
  | n + 1, r => if (r + 2 ^ n) * (r + 2 ^ n) ≤ x then isqrt x n (r + 2 ^ n) else isqrt x n r

/-- The integer square root of a number. -/
def natSqrt (x : Nat) : Nat := isqrt x (Nat.log2 x / 2 + 1) 0

/-- An even power of two above `-e`, so that m * 2^e is (m * 2^k) * 2^(e - k) with e - k even. -/
def evenShift (e : Int) (k : Nat) : Nat := if (e - k) % 2 = 0 then k else k + 1

/-- The square root, rounded once (R91). -/
def FpFmt.sqrt (f : FpFmt) (exposed : Bool) : FVal → Rounded
  | .nan => ⟨f.nanBits, false, false⟩
  | .inf n => if n then ⟨f.nanBits, false, false⟩ else f.round .rne exposed (.inf false)
  | .fin n m e =>
    if m = 0 then f.round .rne exposed (.fin n 0 0)
    else if n then ⟨f.nanBits, false, false⟩
    else
      let k := evenShift e 80
      let x := m * 2 ^ k
      let r := natSqrt x
      f.roundMag .rne exposed false r ((e - k) / 2) (r * r != x)

/-- The reciprocal square root, rounded once (R91). -/
def FpFmt.rsqrt (f : FpFmt) (exposed : Bool) : FVal → Rounded
  | .nan => ⟨f.nanBits, false, false⟩
  | .inf n => if n then ⟨f.nanBits, false, false⟩ else f.round .rne exposed (.fin false 0 0)
  | .fin n m e =>
    if m = 0 then f.round .rne exposed (.inf n)
    else if n then ⟨f.nanBits, false, false⟩
    else
      -- 1 / sqrt(m * 2^e) = sqrt(2^(2p) / (m * 2^k)) * 2^(-p) * 2^((k - e) / 2), with e - k even
      let k := evenShift e 0
      let d := m * 2 ^ k
      let p := 60 + Nat.log2 d
      let r := natSqrt (2 ^ (2 * p) / d)
      f.roundMag .rne exposed false r (-(p : Int) + (k - e) / 2) (r * r * d != 2 ^ (2 * p))

/-! ### Conversions -/

/-- The exact value of an integer. -/
def intVal (v : Int) : FVal := .fin (decide (v < 0)) v.natAbs 0

/-- Round a finite value to an integer: nearest even, or toward zero (R97). -/
def roundInt (rz : Bool) (neg : Bool) (m : Nat) (e : Int) : Int :=
  let sh := (-e).toNat
  let base := m * 2 ^ e.toNat
  let n := base / 2 ^ sh
  let n := if roundsUp (if rz then .rz else .rne) 0 n (base % 2 ^ sh) sh false then n + 1 else n
  if neg then -(n : Int) else n

/-- Saturate to a range. -/
def clamp (lo hi v : Int) : Int := max lo (min hi v)

/-- Least and greatest value of an integer format (R84). -/
def intRange : Nat → Int × Int
  | 5 => (-2147483648, 2147483647)
  | 6 => (0, 4294967295)
  | 7 => (-9223372036854775808, 9223372036854775807)
  | 8 => (0, 18446744073709551615)
  | 9 => (-128, 127)
  | _ => (0, 255)

/-- Bits of a format (R84, R85, R87). -/
def fmtBits : Nat → Nat
  | 0 => 32
  | 1 => 16
  | 2 => 16
  | 3 => 8
  | 4 => 8
  | 5 => 32
  | 6 => 32
  | 7 => 64
  | 8 => 64
  | 9 => 8
  | 10 => 8
  | 11 => 8
  | _ => 32

/-- A signed integer format. -/
def fmtSigned (f : Nat) : Bool := f == 5 || f == 7 || f == 9

/-- The value of the low bits of a word in an integer format. -/
def intOf (f b : Nat) : Int :=
  let w := fmtBits f
  let u := b % 2 ^ w
  if fmtSigned f ∧ 2 ^ (w - 1) ≤ u then (u : Int) - 2 ^ w else u

/-- The encoding of an integer in `w` bits. -/
def intBits (w : Nat) (v : Int) : Nat := (v % (2 ^ w : Nat)).toNat

/-- Conversion to an integer format (R97). -/
def toIntFmt (dst : Nat) (rz : Bool) (v : FVal) : Nat :=
  let r := intRange dst
  match v with
  | .nan => 0
  | .inf n => intBits (fmtBits dst) (if n then r.1 else r.2)
  | .fin n m e => intBits (fmtBits dst) (clamp r.1 r.2 (roundInt rz n m e))

/-- Conversion to E8M0 (R96): the sign is ignored. -/
def toE8M0 (rz : Bool) : FVal → Nat
  | .nan => 0xFF
  | .inf _ => 0xFF
  | .fin _ m e =>
    if m = 0 then 0
    else
      let l : Int := (Nat.log2 m : Int) + e
      let up := !rz && decide (3 * 2 ^ Nat.log2 m ≤ 2 * m)
      let x := l + 127 + (if up then 1 else 0)
      if x < 0 then 0 else if 254 < x then 0xFE else x.toNat

/-- The value of an E8M0 scale (R87). -/
def e8m0Val (x : Nat) : FVal := if x = 255 then .nan else .fin false 1 ((x : Int) - 127)

/-- The value of the low bits of a word in a format that is not BX. -/
def fmtVal (f b : Nat) : FVal :=
  if f ≤ 4 then (fpFmt f).decode (b % 2 ^ fmtBits f)
  else if f = 11 then e8m0Val (b % 256)
  else intVal (intOf f b)

/-- The exponent of a value's last bit position in its source format (R94): 2^(exponent - fraction width) for a floating
source, 1 for an integer, the value itself for E8M0. -/
def lsbOf (f : Nat) (v : FVal) : Int :=
  match v with
  | .fin _ m e =>
    if f ≤ 4 then max ((Nat.log2 m : Int) + e) (fpFmt f).emin - (fpFmt f).fb
    else if f = 11 then e
    else 0
  | _ => 0

/-- One conversion by `VCVT` (R92 to R97). `mode` is the code of R93 and `draw` the lane's draw. -/
def convert (dst src mode draw : Nat) (exposed : Bool) (b : Nat) : Nat :=
  let v := fmtVal src b
  let v := if src ≤ 4 then (fpFmt src).flushIn exposed v else v
  if dst ≤ 4 then
    let md : Rounding :=
      match mode with
      | 1 => .rz
      | 2 => .sat
      | 3 => .sr draw (lsbOf src v)
      | _ => .rne
    ((fpFmt dst).round md exposed v).bits
  else if dst = 11 then toE8M0 (mode == 1) v
  else toIntFmt dst (mode == 1) v

end Sys2Proof.Machine
end

