-- ==== Sys2Proof/Machine/FpFun.lean ====
section
/-! DEFINITION. The correctly rounded exp2 and log2 (R91), by bounds in fixed point that are refined until both bounds round
to one result. Neither function takes a value at a rounding boundary except where it is exact. -/

namespace Sys2Proof.Machine

/-- One step of a product of square roots of two in fixed point with `p` fraction bits: `up` rounds up. -/
def mulFix (p : Nat) (up : Bool) (a b : Nat) : Nat := (a * b + (if up then 2 ^ p - 1 else 0)) / 2 ^ p

/-- The square root in fixed point with `p` fraction bits. -/
def sqrtFix (p : Nat) (up : Bool) (a : Nat) : Nat :=
  let x := a * 2 ^ p
  let r := natSqrt x
  if up ∧ r * r ≠ x then r + 1 else r

/-- 2^(f / 2^n) in fixed point with `p` fraction bits, bit by bit of f from the top: `c` is 2^(2^-k) so far. -/
def exp2Bits (p : Nat) (up : Bool) (f : Nat) : Nat → Nat → Nat → Nat
  | 0, _, acc => acc
  | n + 1, c, acc =>
    let c' := sqrtFix p up c
    exp2Bits p up f n c' (if bitAt f n then mulFix p up acc c' else acc)

/-- A bound of 2^x, x = f / 2^p in 0 to 1, in fixed point with `p + 16` fraction bits. -/
def exp2Bound (p : Nat) (up : Bool) (f : Nat) : Nat :=
  exp2Bits (p + 16) up f p (2 * 2 ^ (p + 16)) (2 ^ (p + 16))

/-- Round 2^(i + frac), frac = fm / 2^fs in 0 to 1 and not 0, with bounds of `p` bits, more bits while the bounds differ. -/
def exp2Round (f : FpFmt) (exposed : Bool) (i : Int) (fm fs : Nat) : Nat → Nat → Rounded
  | 0, p => f.roundMag .rne exposed false (exp2Bound p false (fm * 2 ^ p / 2 ^ fs)) (i - p - 16) true
  | n + 1, p =>
    let g := fm * 2 ^ p / 2 ^ fs
    let lo := exp2Bound p false g
    let hi := if g + 1 = 2 ^ p then 2 * 2 ^ (p + 16) else exp2Bound p true (g + 1)
    let a := f.roundMag .rne exposed false lo (i - p - 16) true
    let b := f.roundMag .rne exposed false (hi - 1) (i - p - 16) true
    if a = b then a else exp2Round f exposed i fm fs n (2 * p)

/-- exp2, rounded once (R91). -/
def FpFmt.exp2 (f : FpFmt) (exposed : Bool) : FVal → Rounded
  | .nan => ⟨f.nanBits, false, false⟩
  | .inf n => if n then f.round .rne exposed (.fin false 0 0) else f.round .rne exposed (.inf false)
  | .fin n m e =>
    let fs := (-e).toNat
    let a : Int := signedAt n m e (min e 0)
    let i := a / (2 ^ fs : Nat)
    let fm := (a % (2 ^ fs : Nat)).toNat
    -- far outside every format's range, the exact value only has to lie beyond it
    let i' : Int := max (-400) (min 400 i)
    if m = 0 then f.round .rne exposed (.fin false 1 0)
    else if fm = 0 then f.roundMag .rne exposed false 1 i' false
    else if i' ≠ i then f.roundMag .rne exposed false 1 i' true
    else exp2Round f exposed i fm fs 3 64

/-- The fraction bits of log2 of y / 2^q, y / 2^q in 1 to 2, by repeated squaring: a lower bound, or an upper bound without
its last place, in the bits taken. -/
def log2Bits (q : Nat) (up : Bool) : Nat → Nat → Nat → Nat
  | 0, _, acc => acc
  | n + 1, y, acc =>
    let z := (y * y + (if up then 2 ^ q - 1 else 0)) / 2 ^ q
    if 2 * 2 ^ q ≤ z then log2Bits q up n (if up then (z + 1) / 2 else z / 2) (2 * acc + 1)
    else log2Bits q up n z (2 * acc)

/-- Round the non-zero value v / 2^p, a little more of magnitude. -/
def roundFix (f : FpFmt) (exposed : Bool) (v : Int) (p : Nat) : Rounded :=
  f.roundMag .rne exposed (decide (v < 0)) (if v < 0 then v.natAbs - 1 else v.natAbs) (-(p : Int)) true

/-- Round log2 of 2^i * (m / 2^k), m / 2^k in 1 to 2 and not 1, with `p` bits, more while the bounds differ. -/
def log2Round (f : FpFmt) (exposed : Bool) (i : Int) (m k : Nat) : Nat → Nat → Rounded
  | 0, p => roundFix f exposed (i * (2 ^ p : Nat) + log2Bits (2 * p + 32) false p (m * 2 ^ (2 * p + 32) / 2 ^ k) 0) p
  | n + 1, p =>
    let q := 2 * p + 32
    let y := m * 2 ^ q / 2 ^ k
    let y' := (m * 2 ^ q + 2 ^ k - 1) / 2 ^ k
    let lo : Int := i * (2 ^ p : Nat) + log2Bits q false p y 0
    let hi : Int := i * (2 ^ p : Nat) + log2Bits q true p y' 0
    let a := roundFix f exposed lo p
    let b := roundFix f exposed hi p
    if a = b then a else log2Round f exposed i m k n (2 * p)

/-- log2, rounded once (R91). -/
def FpFmt.log2 (f : FpFmt) (exposed : Bool) : FVal → Rounded
  | .nan => ⟨f.nanBits, false, false⟩
  | .inf n => if n then ⟨f.nanBits, false, false⟩ else f.round .rne exposed (.inf false)
  | .fin n m e =>
    if m = 0 then f.round .rne exposed (.inf true)
    else if n then ⟨f.nanBits, false, false⟩
    else
      let k := Nat.log2 m
      let i : Int := (k : Int) + e
      if m = 2 ^ k then f.round .rne exposed (intVal i)
      else log2Round f exposed i m k 3 96

end Sys2Proof.Machine
end

