-- ==== Sys2Proof/Machine/Bx.lean ====
section
/-! DEFINITION. BX blocks: element values and packing (R88, R89, R100). -/

namespace Sys2Proof.Machine

/-- Mantissa width w of a BX format code, 12 to 14 (R88). -/
def bxW (fmt : Nat) : Nat := if fmt = 12 then 2 else if fmt = 13 then 4 else 7
/-- Bytes of a block of a BX format code. -/
def bxLen (fmt : Nat) : Nat := if fmt = 12 then 10 else if fmt = 13 then 18 else 30

/-- The value of an element field with its group's shift and its block's E (R88). -/
def bxVal (w elem sig e : Nat) : FVal :=
  if e = 255 then .nan
  else
    let m := elem % 2 ^ (w - 1)
    if m = 0 then .fin false 0 0 else .fin (bitAt elem (w - 1)) m ((e : Int) - 127 - sig - (w - 2 : Nat))

/-- Element `i` of a block held as a number: its field, shift and E. -/
def bxElem (w block i : Nat) : Nat × Nat × Nat :=
  (field block (16 + w * i) w, field block (8 + 2 * (i / 8)) 2, field block 0 8)

/-- `Lay` of a BX element: the field in w-1:0, the shift in 9:8, E in 23:16 (R254). -/
def bxLay (w block i : Nat) : Nat :=
  let p := bxElem w block i
  p.1 + p.2.1 * 2 ^ 8 + p.2.2 * 2 ^ 16

/-- The value of a BX element laid out by `Lay` (R100). -/
def bxLaidVal (w lay : Nat) : FVal := bxVal w (field lay 0 w) (field lay 8 2) (field lay 16 8)

/-- floor(log2 |v|) of a non-zero finite value. -/
def logOf : FVal → Option Int
  | .fin _ m e => if m = 0 then none else some ((Nat.log2 m : Int) + e)
  | _ => none

/-- The greatest of some. -/
def maxLog : List (Option Int) → Option Int
  | [] => none
  | none :: r => maxLog r
  | some a :: r =>
    match maxLog r with
    | some b => some (max a b)
    | none => some a

/-- The shift of a group whose largest magnitude has the given floor(log2), rising from `sig` while it lies below
2^(E - 128 - sig) (R89). -/
def groupShift (e : Int) (g : Option Int) : Nat → Nat → Nat
  | 0, sig => sig
  | n + 1, sig =>
    if decide (sig < 3) && (match g with | none => true | some l => decide (l < e - 128 - sig)) then groupShift e g n (sig + 1)
    else sig

/-- One packed element: sign and magnitude in w bits (R89). -/
def packElem (w : Nat) (scale : Int) : FVal → Nat
  | .fin n m e =>
    let q := (roundInt false false m (e - scale)).toNat
    let mag := min q (2 ^ (w - 1) - 1)
    if n ∧ mag ≠ 0 then mag + 2 ^ (w - 1) else mag
  | _ => 0

/-- Pack 32 values into a block (R89). -/
def packBx (w : Nat) (xs : List FVal) : Nat :=
  if xs.any (fun v => match v with | .fin _ _ _ => false | _ => true) then 255
  else
    let e : Int := match maxLog (xs.map logOf) with
      | none => 0
      | some l => max 0 (l + 127)
    let sig (g : Nat) : Nat := groupShift e (maxLog ((xs.drop (8 * g)).take 8 |>.map logOf)) 4 0
    let gsh := sig 0 + 4 * sig 1 + 16 * sig 2 + 64 * sig 3
    (xs.mapIdx (fun i x => packElem w (e - 127 - sig (i / 8) - (w - 2 : Nat)) x * 2 ^ (16 + w * i))).foldl (· + ·)
      (e.toNat + gsh * 2 ^ 8)

end Sys2Proof.Machine
end

