-- ==== Sys2Proof/Machine/Flags.lean ====
section
/-! DEFINITION. The machine has no flag register (R214). Its condition words: the tile status bits a result sets (R30, R109),
the summary word of `VSUM` (R278), the self-test word of `MCHECK` (R299), and the branch conditions (R234). -/

namespace Sys2Proof.Machine

/-- WRAP. -/
def tWRAP : Nat := 1
/-- NAN. -/
def tNAN : Nat := 2
/-- INF. -/
def tINF : Nat := 4
/-- OVF. -/
def tOVF : Nat := 8
/-- FLUSH. -/
def tFLUSH : Nat := 16
/-- CKRERUN. -/
def tCKRERUN : Nat := 32
/-- CKFAIL. -/
def tCKFAIL : Nat := 64
/-- NFSUP. -/
def tNFSUP : Nat := 128

/-- The status bits of one written FP32 element: NAN and INF from its value, OVF and FLUSH as its formation met them (R109). -/
def elemStatus (b : Nat) (ovf flush : Bool) : Nat :=
  (match (fpFmt 0).decode b with
    | .nan => tNAN
    | .inf _ => tINF
    | .fin _ _ _ => 0)
  + (if ovf then tOVF else 0) + (if flush then tFLUSH else 0)

/-- The summary word: the count in 14:8, NONE, ALL against the enabled lanes, ANY (R278). -/
def summaryWord (n enabled : Nat) : Lane :=
  BitVec.ofNat 32 (n * 256 + (if n = 0 then 4 else 0) + (if n = enabled then 2 else 0) + (if 0 < n then 1 else 0))

/-- The self-test word: COLFAIL in 24:16, ROWFAIL in 15:8, FAIL (R299). -/
def checkWord (rows cols : Nat) : Lane :=
  BitVec.ofNat 32 (cols * 65536 + rows * 256 + (if rows + cols = 0 then 0 else 1))

/-- The conditions of the branches (R234). -/
inductive Cond where
  | eq | ne | lt | ge | ltu | geu
  deriving DecidableEq, Repr

/-- `Cond(a, b)` (R234). -/
def Cond.holds (c : Cond) (a b : Word) : Bool :=
  match c with
  | .eq => a == b
  | .ne => a != b
  | .lt => decide (a.toInt < b.toInt)
  | .ge => decide (b.toInt ≤ a.toInt)
  | .ltu => decide (a.toNat < b.toNat)
  | .geu => decide (b.toNat ≤ a.toNat)

/-- 1 or 0. -/
def flag (b : Bool) : Word := if b then 1 else 0

end Sys2Proof.Machine
end

