-- ==== Sys2Proof/Syntax.lean ====
section
/-! DEFINITION. The instructions and machine steps of the opcode table, one constructor a row, with
their operands. Nothing here says what an instruction does. -/

namespace Sys2Proof

/-- The five contexts of a core (R26). -/
inductive CtxId where
  | ctl | ld | cmp | st | biv
  deriving DecidableEq, Repr, Inhabited

/-- The ordering tail of an L48 word, W[15:0] (R60). -/
structure Tail where
  stream : BitVec 3 := 0
  mask   : BitVec 8 := 0
  scope  : BitVec 2 := 0
  acq    : Bool := false
  rel    : Bool := false
  hint   : Bool := false
  deriving DecidableEq, Repr, Inhabited

/-- The fields of an L48 word below its opcode (R60): W[35:31], W[30:26], W[25:16] and the tail. -/
structure LF where
  x : Reg := 0
  y : Reg := 0
  z : BitVec 10 := 0
  t : Tail := {}
  deriving DecidableEq, Repr, Inhabited

/-- The fields of a V48 word below its opcode (R57). -/
structure VF where
  d    : BitVec 7 := 0
  a    : BitVec 7 := 0
  b    : BitVec 8 := 0
  pred : BitVec 5 := 0
  inv  : Bool := false
  fmt  : BitVec 4 := 0
  mod  : BitVec 4 := 0
  deriving DecidableEq, Repr, Inhabited

/-- The fields of an X64 word below its opcode (R62). -/
structure XF where
  c    : BitVec 4 := 0
  cg   : BitVec 2 := 0
  a    : BitVec 4 := 0
  ag   : BitVec 2 := 0
  tr   : Bool := false
  slot : Bool := false
  m    : BitVec 6 := 0
  k    : BitVec 8 := 0
  n    : BitVec 8 := 0
  fmt  : BitVec 4 := 0
  neg  : Bool := false
  nacc : Bool := false
  deriving DecidableEq, Repr, Inhabited

/-- The fields of a code block header (R66). -/
structure Header where
  rot   : Bool := false
  inter : Bool := false
  csrc  : BitVec 2 := 0
  count : BitVec 9 := 0
  len   : BitVec 14 := 0
  deriving DecidableEq, Repr, Inhabited

/-! ### What a machine step is told

A machine step is not an instruction word. Its operands carry what the spec leaves to the machine, to
the firmware, to a host or to another device: which order, which frame, which answer. -/

/-- What a remote device answers to a request of this one (R163, R190, R209). -/
inductive Answer where
  /-- No answer yet. -/
  | none
  /-- The bytes a read or an atomic returns. -/
  | data (b : List Byte)
  /-- A write performed. -/
  | ok
  /-- A write refused in FROZEN. -/
  | refused
  /-- Refused as read only. -/
  | readOnly
  /-- Lease lost. -/
  | lost
  /-- The line fails its check for good at its home (R203). -/
  | poison
  /-- The barrier object at its home is malformed (R150). -/
  | malformed
  /-- Refused by partition tag or FTID. -/
  | partition
  deriving DecidableEq, Repr, Inhabited

/-- The choices the machine makes in one step: for each read part, how many of the latest writes it may
leave unseen (R122); the answers of remote devices in order; the cache way a line is filled into. An access to plane data that
names one, be it a way of the tenant or none, is counted in ACC (R50). With a `part` named, an access that R129 splits makes only
its part in that aligned 8 bytes, counted in eights from location 0. -/
structure Choice where
  cuts : List Nat := []
  ans  : List Answer := []
  way  : Option Nat := Option.none
  part : Option Nat := Option.none
  deriving DecidableEq, Repr, Inhabited

/-- What an engine does next to a started command (R123): check the next element in nest order, read the index or the source
element that element `k` of an index command needs for its check, or make the read or the write of element `k`. -/
inductive EngineAct where
  | check
  | index (k : Nat)
  | read (k : Nat)
  | write (k : Nat)
  deriving DecidableEq, Repr, Inhabited

/-- A frame chosen by Fylen firmware: its byte address and whether it lies in the second tier (R157). -/
structure FrameGrant where
  addr   : Nat
  second : Bool
  deriving DecidableEq, Repr, Inhabited

/-- One move of the eviction handshake (R164): the page, the frame it goes to (none where no tier has
one, or the lease was revoked first) and the bytes copied from the lender. -/
structure EvictMove where
  vf    : Nat
  va    : Word
  frame : Option FrameGrant
  data  : List Byte
  deriving DecidableEq, Repr, Inhabited

/-- The range that a lease lends, in blocks of 4 KiB, under the lease's number (R162, R163), and the FTID of the tenant whose frames it
lends in place, 0 for none (R324, log 101). -/
structure Lent where
  lease : Nat
  base  : Nat
  len   : Nat
  ftid  : Nat := 0
  deriving DecidableEq, Repr, Inhabited

/-- The port at which a fabric request arrives, and the partition tag that it carries (R190). -/
structure Ingress where
  port : Nat
  tag  : Nat
  deriving DecidableEq, Repr, Inhabited

/-- How an error of a line was met (R197, R203, R208): by an access of a tenant or of none, by the patrol, or in the tag of a way of
the memory-side cache. -/
inductive MetBy where
  | access (vf : Option Nat)
  | patrol
  | way (n : Nat)
  deriving DecidableEq, Repr, Inhabited

/-- What a fabric request that arrives at this device asks for (R190, R334). -/
inductive FabricRequest where
  /-- A forwarded access to the 64-byte line at an address under a lease, a write as a bit mask and bits for each byte (R160). -/
  | line (borrower lease addr : Nat) (wr : Option (List (Byte × Byte)))
  /-- A read of a whole barrier object in one step (R312), for a device that asks on behalf of a borrower (R309). -/
  | object (asker borrower lease addr : Nat)
  /-- An atomic of `code` under a lease (R128, R160). -/
  | atomic (borrower lease addr code size : Nat) (unsigned : Bool) (x z : Word)
  /-- The addition of an `XSCAT` with ADD to an element of a format (R318). -/
  | scatter (borrower lease addr fmt : Nat) (v : Nat)
  /-- The increment of an `XHOT` (R320). -/
  | count (borrower lease addr : Nat)
  /-- A `STEAL` of a record of this device (R309). Its barrier object lies at an address of a device under a lease. -/
  | steal (borrower lease record barDev barLease barrier expected : Nat)
  /-- What the owner's dispatcher tells a device of the launch that holds the record at an address of a device (R309). -/
  | fields (asker dev addr : Nat)
  /-- A `BJOIN` of a barrier of this device (R312, R313). -/
  | join (borrower lease addr member : Nat)
  /-- A remote `EVSIG` or a stolen task's signal (R307, R153). -/
  | event (name : Nat) (fail : Bool)
  /-- A `MSEND` that reaches the thief (R316): the record's address as the sender names it, and the device and address it lies at. -/
  | message (record : Word) (dev addr rank handler : Nat) (payload : Word)
  /-- A request for another device, passed on through a port (R190). -/
  | transit (out : Nat)
  deriving DecidableEq, Repr, Inhabited

/-- A partition descriptor (R177). -/
structure PartDesc where
  cores    : BitVec 256 := 0
  ports    : BitVec 32 := 0
  tag      : BitVec 16 := 0
  flags    : BitVec 16 := 0
  reserved : BitVec 192 := 0
  deriving DecidableEq, Repr, Inhabited

/-- What puts an interface into ERROR (R182). -/
inductive TdispCause where
  | frozenField | ideIntegrity
  deriving DecidableEq, Repr, Inhabited

/-- An IDE key-management request (R181). -/
inductive IdeReq where
  | query | keyProg (sub : Nat) | keySetGo | keySetStop
  deriving DecidableEq, Repr, Inhabited

/-- A request to a die's SPDM responder (R184). -/
inductive SpdmReq where
  | version | capabilities | algorithms | digests | certificate (slot : Nat) | challenge (slot : Nat)
  | measurement (index : Nat) | keyExchange | finish | endSession
  deriving DecidableEq, Repr, Inhabited

/-- A firmware image as the boot ROM sees it (R21). -/
structure FwImage where
  security : Nat
  signed   : Bool
  deriving DecidableEq, Repr, Inhabited

/-- A message to the management processor over MCTP (R14, R20). -/
inductive MgmtMessage where
  | firmwareUpdate (image : FwImage) | diagnostics | readDevstat
  deriving DecidableEq, Repr, Inhabited

/-- The management settings a driver writes that have no behaviour of their own. -/
inductive Setting where
  /-- The quantum in ns (R145). -/
  | quantum
  /-- A tenant's fill age in ns (R142). -/
  | fillAge (vf : Nat)
  /-- The fabric requester timeout in ns (R209). -/
  | fabricTimeout
  /-- The bound of a patrol pass in hours (R205). -/
  | patrolBound
  /-- A queue's function, class and enable (R145). -/
  | queueOwner (q : Nat) | queueClass (q : Nat) | queueEnable (q : Nat)
  /-- A tenant's allotments in lines, main tier and second tier (R157). -/
  | mainAllot (vf : Nat) | secondAllot (vf : Nat)
  /-- The waiters that a tenant's event overflow area has room for (R148). -/
  | chainRoom (vf : Nat)
  /-- The bound of bring-up stage 6 in ns (R20). -/
  | stageBound
  /-- Whether the hypervisor runs a function under TDISP (R181). -/
  | tdisp (vf : Nat)
  /-- This device's id in its fabric domain. -/
  | deviceId
  /-- A further port by which requests to a device may leave (R20, R210). -/
  | route (dev : Nat)
  /-- `DEVSTAT` (R23), the error counters and the ring index (R197, R198): read only. -/
  | readOnly (offset : Nat)
  deriving DecidableEq, Repr, Inhabited

/-- What Fylen firmware does to a tenant's tables at the hypervisor's request (R44, R175, R187, R258). -/
inductive TableChange where
  /-- The place of the function's descriptor table. -/
  | base (frame : FrameGrant)
  /-- The descriptor of a constellation, 256 bytes. -/
  | descriptor (index : Nat) (bytes : List Byte)
  /-- A frame for a translation table, or for a PFR, not linked yet. -/
  | grant (frame : FrameGrant) (pfr : Bool)
  /-- A translation table entry on the walk of an address, some levels above the lowest. -/
  | table (va : Word) (level : Nat) (e : Word)
  /-- The plane entry of the page that holds an address. -/
  | entry (va : Word) (pe : Word)
  /-- A frame of a shared domain, with its bytes. -/
  | share (frame : FrameGrant) (domain : Nat) (bytes : List Byte)
  /-- The function's fault area: its plane address, and where it lies. -/
  | faultArea (va : Word) (base : Nat)
  deriving DecidableEq, Repr, Inhabited

/-- The instructions and machine steps of the opcode table, one constructor a row. -/
inductive Instr where
  /- C16 (R53, R220 to R225). -/
  /-- R222. C16 instruction that has no effect and takes one issue slot in exposed mode. -/
  | nop
  /-- R220. C16 copy of general register gs into gd. -/
  | mov (d s : Reg)
  /-- R220. C16 two-register add, gd := gd + gs. -/
  | addC (d s : Reg)
  /-- R220. C16 two-register subtract, gd := gd - gs. -/
  | subC (d s : Reg)
  /-- R220. C16 two-register AND, gd := gd AND gs. -/
  | andC (d s : Reg)
  /-- R220. C16 two-register OR, gd := gd OR gs. -/
  | orC (d s : Reg)
  /-- R220. C16 two-register XOR, gd := gd XOR gs. -/
  | xorC (d s : Reg)
  /-- R221. C16 write of a sign-extended short constant from -16 to 15 to gd. -/
  | movk (d k : Reg)
  /-- R221. C16 add of a sign-extended short constant to gd. -/
  | addk (d k : Reg)
  /-- R221. C16 left shift of gd by a constant from 0 to 15; a negative constant traps as illegal operand. -/
  | shlk (d k : Reg)
  /-- R221. C16 logical right shift of gd by a constant from 0 to 15. -/
  | shrk (d k : Reg)
  /-- R223. Pops the innermost loop entry and continues at its body end without that entry's body-end event. -/
  | leave
  /-- R224. Branches through g15 under the return rule; a target of 0 ends the context. -/
  | ret
  /-- R225. Pops the reply queue yq into gd, waiting while the queue is empty. -/
  | ypop (d : Reg)
  /-- R225. Pops the summary queue zq into gd, zero-extended, waiting while the queue is empty. -/
  | zpop (d : Reg)
  /-- R225. Pushes gs to the parameter queue cq0, waiting while the queue is full. -/
  | cput (s : Reg)
  /-- R225. Compute-sequencer pop of cq0 into gd. -/
  | cget (d : Reg)
  /- S32 (R55, R56, R226 to R246). -/
  /-- R226. S32 three-register add. -/
  | add (d a b : Reg)
  /-- R226. S32 three-register subtract. -/
  | sub (d a b : Reg)
  /-- R226. Low 64 bits of the signed product. -/
  | mul (d a b : Reg)
  /-- R226. High 64 bits of the 128-bit signed product. -/
  | mulhs (d a b : Reg)
  /-- R226. High 64 bits of the 128-bit unsigned product. -/
  | mulhu (d a b : Reg)
  /-- R227. Signed division truncating toward zero; division by zero gives all ones. -/
  | divs (d a b : Reg)
  /-- R227. Unsigned division truncating toward zero; division by zero gives all ones. -/
  | divu (d a b : Reg)
  /-- R227. Signed remainder with the sign of ga; remainder by zero gives ga. -/
  | rems (d a b : Reg)
  /-- R227. Unsigned remainder; remainder by zero gives ga. -/
  | remu (d a b : Reg)
  /-- R226. S32 three-register AND. -/
  | and (d a b : Reg)
  /-- R226. S32 three-register OR. -/
  | or (d a b : Reg)
  /-- R226. S32 three-register XOR. -/
  | xor (d a b : Reg)
  /-- R226. Computes a AND NOT b. -/
  | andn (d a b : Reg)
  /-- R226. Shifts left by b[5:0]. -/
  | shl (d a b : Reg)
  /-- R226. Logical right shift by b[5:0]. -/
  | shr (d a b : Reg)
  /-- R226. Arithmetic right shift by b[5:0]. -/
  | sar (d a b : Reg)
  /-- R226. Rotates right by b[5:0]. -/
  | rot (d a b : Reg)
  /-- R226. Signed minimum. -/
  | min (d a b : Reg)
  /-- R226. Signed maximum. -/
  | max (d a b : Reg)
  /-- R226. Unsigned minimum. -/
  | minu (d a b : Reg)
  /-- R226. Unsigned maximum. -/
  | maxu (d a b : Reg)
  /-- R226. Writes 1 if a < b as signed values, else 0. -/
  | slt (d a b : Reg)
  /-- R226. Writes 1 if a < b as unsigned values, else 0. -/
  | sltu (d a b : Reg)
  /-- R226. Writes 1 if a = b, else 0. -/
  | seq (d a b : Reg)
  /-- R228. Writes ga to gd if gd is non-zero, else gb. -/
  | sel (d a b : Reg)
  /-- R229. Counts the leading zero bits of ga. -/
  | clz (d a : Reg)
  /-- R229. Counts the trailing zero bits of ga. -/
  | ctz (d a : Reg)
  /-- R229. Counts the one bits of ga. -/
  | popc (d a : Reg)
  /-- R229. Reverses the bit order of ga. -/
  | brev (d a : Reg)
  /-- R230. Extracts a bit field of ga with zero extension. -/
  | extu (d a : Reg) (width lsb : BitVec 6)
  /-- R230. Extracts a bit field of ga with sign extension. -/
  | exts (d a : Reg) (width lsb : BitVec 6)
  /-- R230. Inserts the low bits of ga into a bit field of gd. -/
  | ins (d a : Reg) (width lsb : BitVec 6)
  /-- R231. Computes ga + (gb << sh). -/
  | lea (d a b : Reg) (sh : BitVec 3)
  /-- R232. Adds a sign-extended 12-bit immediate. -/
  | addi (d a : Reg) (imm : BitVec 12)
  /-- R232. ANDs with a sign-extended immediate. -/
  | andi (d a : Reg) (imm : BitVec 12)
  /-- R232. ORs with a sign-extended immediate. -/
  | ori (d a : Reg) (imm : BitVec 12)
  /-- R232. XORs with a sign-extended immediate. -/
  | xori (d a : Reg) (imm : BitVec 12)
  /-- R232. Shifts left by an immediate from 0 to 63. -/
  | shli (d a : Reg) (sh : BitVec 6)
  /-- R232. Logical right shift by an immediate. -/
  | shri (d a : Reg) (sh : BitVec 6)
  /-- R232. Arithmetic right shift by an immediate. -/
  | sari (d a : Reg) (sh : BitVec 6)
  /-- R65. Writes a sign-extended 11-bit immediate to gd. -/
  | movi (d : Reg) (imm : BitVec 11)
  /-- R65. Writes an inline constant as a 64-bit integer to gd, trapping if it is not an integer. -/
  | moviIc (d : Reg) (n : BitVec 6)
  /-- R233. Computes gd := (ga << 12) OR imm12. -/
  | movhi (d a : Reg) (imm : BitVec 12)
  /-- R232. Signed compare with a sign-extended immediate. -/
  | slti (d a : Reg) (imm : BitVec 12)
  /-- R234. Branches to a block header if a = b. -/
  | beq (a b : Reg) (off : BitVec 12)
  /-- R234. Branches if a differs from b. -/
  | bne (a b : Reg) (off : BitVec 12)
  /-- R234. Branches if a < b as signed values. -/
  | blt (a b : Reg) (off : BitVec 12)
  /-- R234. Branches if a >= b as signed values. -/
  | bge (a b : Reg) (off : BitVec 12)
  /-- R234. Branches if a < b as unsigned values. -/
  | bltu (a b : Reg) (off : BitVec 12)
  /-- R234. Branches if a >= b as unsigned values. -/
  | bgeu (a b : Reg) (off : BitVec 12)
  /-- R235. Unconditional branch to a block header. -/
  | br (off : BitVec 12)
  /-- R235. Call: writes g15 := NextPC and branches. -/
  | brl (off : BitVec 12)
  /-- R236. Branches to the parcel offset in a register, with the return rule when the register is g15. -/
  | brx (a : Reg)
  /-- R237. Skips forward n parcels when register a is zero. -/
  | skipz (a : Reg) (n : BitVec 12)
  /-- R237. Skips forward n parcels when register a is non-zero. -/
  | skipnz (a : Reg) (n : BitVec 12)
  /-- R238. Enters the bivouac context with cause 0x09, or ends the task when issued in the bivouac context. -/
  | trap (code : BitVec 17)
  /-- R239. Waits for the bivouac operations, restores the trap frame, resumes the suspended contexts and takes the oldest pending cause. -/
  | rte
  /-- R241. Reads a system register into gd. -/
  | mfs (d : Reg) (n : BitVec 17)
  /-- R241. Writes a system register, such as the STATUS hold bits or trap-frame registers, from gs. -/
  | mts (s : Reg) (n : BitVec 17)
  /-- R242. Returns a work identifier field, the team rank or the team size. -/
  | id (d : Reg) (n : BitVec 17)
  /-- R243. Reads the device nanosecond timer at issue. -/
  | time (d : Reg)
  /-- R244. Ends the primary control context. -/
  | endtask
  /-- R245. Reads one 64-bit word of a copy fault record from the core's record buffer. -/
  | cfread (d : Reg) (n : BitVec 17)
  /- Block headers, the body end and the fetch (R66 to R70, R217). -/
  /-- R67. Entering a code header checks it and pushes a loop entry, or skips the body when the count is 0. -/
  | blockHeader (h : Header)
  /-- R70. Sequential fetch steps over a data block, or a branch to it traps as data-block execution. -/
  | dataHeader (len : BitVec 14)
  /-- R67. Fetch reaching an innermost body end decrements REMAIN, advances rb, and loops or pops the entry. -/
  | bodyEnd
  /-- R217. A parked instruction fetch performs and the stalled context resumes issue. -/
  | instructionFetch (c : Nat) (x : CtxId) (ch : Choice)
  /- V48 (R57, R58, R268 to R287). -/
  /-- R274. Lane-wise floating add, rounded once. -/
  | vadd (f : VF)
  /-- R274. Lane-wise floating subtract. -/
  | vsub (f : VF)
  /-- R274. Lane-wise floating multiply. -/
  | vmul (f : VF)
  /-- R274. Lane-wise fused a*b+c. -/
  | vfma (f : VF)
  /-- R274. Lane-wise fused a*b-c. -/
  | vfms (f : VF)
  /-- R274. Lane-wise fused -(a*b)+c. -/
  | vfnma (f : VF)
  /-- R274. Lane-wise floating minimum. -/
  | vmin (f : VF)
  /-- R274. Lane-wise floating maximum. -/
  | vmax (f : VF)
  /-- R274. Clears the sign of each lane. -/
  | vabs (f : VF)
  /-- R274. Inverts the sign of each lane. -/
  | vneg (f : VF)
  /-- R274. Lane-wise divide, correctly rounded. -/
  | vdiv (f : VF)
  /-- R274. Lane-wise square root. -/
  | vsqrt (f : VF)
  /-- R274. Lane-wise reciprocal square root. -/
  | vrsqrt (f : VF)
  /-- R274. Lane-wise reciprocal. -/
  | vrcp (f : VF)
  /-- R274. Lane-wise 2^a. -/
  | vexp2 (f : VF)
  /-- R274. Lane-wise log2 a. -/
  | vlog2 (f : VF)
  /-- R275. Lane-wise integer add, wrapping. -/
  | viadd (f : VF)
  /-- R275. Lane-wise integer subtract. -/
  | visub (f : VF)
  /-- R275. Low half of the lane-wise integer product. -/
  | vimul (f : VF)
  /-- R275. High half of the lane-wise integer product. -/
  | vimulh (f : VF)
  /-- R275. Lane-wise AND. -/
  | vand (f : VF)
  /-- R275. Lane-wise OR. -/
  | vor (f : VF)
  /-- R275. Lane-wise XOR. -/
  | vxor (f : VF)
  /-- R275. Lane-wise left shift. -/
  | vshl (f : VF)
  /-- R275. Lane-wise logical right shift. -/
  | vshr (f : VF)
  /-- R275. Lane-wise arithmetic right shift. -/
  | vsar (f : VF)
  /-- R275. Lane-wise integer minimum. -/
  | vimin (f : VF)
  /-- R275. Lane-wise integer maximum. -/
  | vimax (f : VF)
  /-- R276. Floating compare writing predicate bits. -/
  | vcmp (f : VF)
  /-- R276. Integer compare writing predicate bits. -/
  | vicmp (f : VF)
  /-- R277. Predicate AND. -/
  | pand (f : VF)
  /-- R277. Predicate OR. -/
  | por (f : VF)
  /-- R277. Predicate XOR. -/
  | pxor (f : VF)
  /-- R277. Predicate AND NOT. -/
  | pandn (f : VF)
  /-- R277. Predicate NOT. -/
  | pnot (f : VF)
  /-- R277. Sets predicate bits below or at or above n. -/
  | pset (f : VF)
  /-- R278. Counts the enabled predicate bits and pushes a summary word to zq. -/
  | vsum (f : VF)
  /-- R279. Copies lane bits from the source. -/
  | vmov (f : VF)
  /-- R279. Selects a or b per lane by the predicate. -/
  | vsel (f : VF)
  /-- R279. Broadcasts lane n of a. -/
  | vbcast (f : VF)
  /-- R279. Writes b_i + i to each lane. -/
  | viota (f : VF)
  /-- R280. Permutes lanes by an index vector. -/
  | vperm (f : VF)
  /-- R280. Slides or rotates lanes by n. -/
  | vslide (f : VF)
  /-- R281. Reads a row, column or diagonal of a matrix register into a vector. -/
  | vline (f : VF)
  /-- R281. Writes vector lanes into a row, column or diagonal of a matrix register. -/
  | vputl (f : VF)
  /-- R283. Pairwise-tree sum of the enabled lanes, written to every lane. -/
  | vreduce (f : VF)
  /-- R284. Converts lanes between formats under a rounding mode, taking a stochastic draw for .SR. -/
  | vcvt (f : VF)
  /-- R286. Packs two blocks of 32 values into BX blocks. -/
  | vpackbx (f : VF)
  /-- R287. Unpacks two BX blocks into lanes. -/
  | vunpkbx (f : VF)
  /-- R285. Sets the stochastic state of each enabled lane. -/
  | vseed (f : VF)
  /- L48 (R60, R61, R247 to R320). -/
  /-- R249. Issues a zero-extended scratchpad byte load. -/
  | ldB (f : LF)
  /-- R249. Issues a zero-extended scratchpad 2-byte load. -/
  | ldH (f : LF)
  /-- R249. Issues a zero-extended scratchpad 4-byte load. -/
  | ldW (f : LF)
  /-- R249. Issues a scratchpad 8-byte load. -/
  | ldD (f : LF)
  /-- R249. Issues a sign-extended scratchpad byte load. -/
  | ldsB (f : LF)
  /-- R249. Issues a sign-extended scratchpad 2-byte load. -/
  | ldsH (f : LF)
  /-- R249. Issues a sign-extended scratchpad 4-byte load. -/
  | ldsW (f : LF)
  /-- R249. Issues a scratchpad byte store. -/
  | stB (f : LF)
  /-- R249. Issues a scratchpad 2-byte store. -/
  | stH (f : LF)
  /-- R249. Issues a scratchpad 4-byte store. -/
  | stW (f : LF)
  /-- R249. Issues a scratchpad 8-byte store. -/
  | stD (f : LF)
  /-- R250. Reserves a load-queue entry and reads 256 contiguous scratchpad bytes into it. -/
  | ldq (f : LF)
  /-- R250. Reserves a load-queue entry and reads eight strided 32-byte chunks into it. -/
  | ldqs (f : LF)
  /-- R250. Takes a store-queue entry and writes it to 256 contiguous scratchpad bytes. -/
  | stq (f : LF)
  /-- R250. Takes a store-queue entry and writes it as eight strided chunks. -/
  | stqs (f : LF)
  /-- R251. Expands 64 three-bit codes through the expander table into a load-queue entry. -/
  | ldx (f : LF)
  /-- R251. Loads the eight-entry BF16 expander table. -/
  | ldtab (f : LF)
  /-- R254. Loads a matrix register group through a shape record. -/
  | ldm (f : LF)
  /-- R255. Stores a matrix register group through a shape record, suppressing NaN registers with .NF. -/
  | stm (f : LF)
  /-- R256. Loads a weight slot through a shape record after readers of the slot have drained. -/
  | ldb (f : LF)
  /-- R257. Issues a copy-engine command that runs a copy pattern record. -/
  | xcopy (f : LF)
  /-- R260. Prefetch hint that performs at issue and may be dropped. -/
  | pref (f : LF)
  /-- R262. Looks up a probe slot at issue, pinning on a hit or starting a fill and branching on a miss. -/
  | probe (f : LF)
  /-- R263. Clears the PIN bit of a probe slot. -/
  | prels (f : LF)
  /-- R264. Sets the number of probe slots as an engine command. -/
  | pconv (f : LF)
  /-- R265. Recreates a plane with a new descriptor and makes its entries ABSENT. -/
  | plnew (f : LF)
  /-- R265. Sets a plane's current R and W within RMAX and WMAX. -/
  | plprot (f : LF)
  /-- R265. Drops a plane, returning its frames. -/
  | pldrop (f : LF)
  /-- R267. Adds n tokens to a token queue when room and predecessors allow. -/
  | ksig (f : LF)
  /-- R267. Removes n tokens from a token queue once they are present. -/
  | ktake (f : LF)
  /-- R267. Removes n tokens within a timeout and writes a status. -/
  | ktaket (f : LF)
  /-- R302. Atomic integer add. -/
  | aadd (f : LF)
  /-- R304. Atomic FP32 add. -/
  | afadd (f : LF)
  /-- R302. Atomic minimum. -/
  | amin (f : LF)
  /-- R302. Atomic maximum. -/
  | amax (f : LF)
  /-- R302. Atomic AND. -/
  | aand (f : LF)
  /-- R302. Atomic OR. -/
  | aor (f : LF)
  /-- R302. Atomic XOR. -/
  | axor (f : LF)
  /-- R302. Atomic exchange. -/
  | axchg (f : LF)
  /-- R302. Atomic compare-and-swap. -/
  | acas (f : LF)
  /-- R302. Atomic read. -/
  | ald (f : LF)
  /-- R302. Atomic write. -/
  | ast (f : LF)
  /-- R305. Sets an async barrier's target and runs its completion test. -/
  | abarm (f : LF)
  /-- R306. Waits with a timeout for an async barrier's phase to differ from par. -/
  | abwait (f : LF)
  /-- R307. Signals a named event, locally or on a remote device, optionally with failure. -/
  | evsig (f : LF)
  /-- R307. Waits until a named event is satisfied or failed. -/
  | evwait (f : LF)
  /-- R307. Resets an event's count and failed bit and sets a new target. -/
  | evreset (f : LF)
  /-- R308. Hands a child launch header to the dispatcher. -/
  | launch (f : LF)
  /-- R309. System-scope compare-and-swap that takes a straggler's READY task. -/
  | steal (f : LF)
  /-- R311. Reads a task record's state word or failure cause at system scope. -/
  | tstate (f : LF)
  /-- R313. Joins a system barrier episode and returns the episode number. -/
  | bjoin (f : LF)
  /-- R314. Waits until a named barrier episode has ended. -/
  | bwait (f : LF)
  /-- R315. Reads one summit-log value of a barrier. -/
  | blog (f : LF)
  /-- R316. Sends a message cause to a rank of a running task. -/
  | msend (f : LF)
  /-- R318. Index-engine gather of table rows named by an index list. -/
  | xgath (f : LF)
  /-- R318. Index-engine scatter or scatter-add to table rows. -/
  | xscat (f : LF)
  /-- R319. Index-engine scan that compacts non-zero elements and pushes their count to yq. -/
  | xnzs (f : LF)
  /-- R320. Index-engine counter increments that raise a hot-expert cause at a threshold. -/
  | xhot (f : LF)
  /- X64 (R62, R288 to R300). -/
  /-- R292. Matrix multiply-accumulate of an A group and a weight slot into an accumulator group. -/
  | mma (f : XF)
  /-- R295. Folds a partial product, scaled by E8M0 row and column scales, into an accumulator. -/
  | mscale (f : XF)
  /-- R296. Zeroes a matrix register group and its tile status words. -/
  | mzero (f : XF)
  /-- R297. Copies or transposes matrix registers. -/
  | mmov (f : XF)
  /-- R298. Pushes tile status words to zq. -/
  | mstat (f : XF)
  /-- R299. Runs the array checksum self-test against a weight slot and pushes a result word. -/
  | mcheck (f : XF)
  /- Machine events: steps of the machine outside any instruction word. -/
  /-- R73. An exposed-mode result lands in its destination at issue slot t + L. -/
  | resultLanding (c : Nat)
  /-- R109. An MMA or MSCALE writes its accumulator elements and sets the tile status bits. -/
  | mmaDrain (c fails : Nat)
  /-- R120. An issued ordering operation performs once its predecessors, acquire, release and own condition allow. -/
  | operationPerform (c : Nat) (x : CtxId) (op : Nat) (ch : Choice)
  /-- R120. A write performed in one scope instance becomes performed in the next wider instance. -/
  | writePropagate (seq : Nat)
  /-- R123. An engine command starts once step 2 lets it, reading its record. -/
  | engineCommandStart (c : Nat) (x : CtxId) (op : Nat) (ch : Choice)
  /-- R123. An engine makes an element read or write of a started command, checked page by page. -/
  | engineElementAccess (c : Nat) (x : CtxId) (op : Nat) (act : EngineAct) (ch : Choice)
  /-- R123. An engine command's last element write performs, its stream entry retires and its signal is delivered. -/
  | engineCommandComplete (c : Nat) (x : CtxId) (op : Nat) (ch : Choice)
  /-- R33. A waiting KSIG or a held engine signal is delivered, in order, as room frees in its token queue. -/
  | heldSignalDelivery (c k : Nat)
  /-- R161. A KTAKET or ABWAIT whose timeout expires writes status 1 and counts as performed. -/
  | waitTimeout (c : Nat) (x : CtxId) (op : Nat)
  /-- R35. Once a cause can be taken, the trap frame is written and the bivouac context starts at the handler. -/
  | bivouacEntry (c : Nat)
  /-- R13. The mailbox engine applies an aligned host write of up to one line through the function's tables. -/
  | hostWrite (vf : Nat) (va : Word) (data : List Byte) (ide : Bool) (ch : Choice)
  /-- R126. The mailbox engine performs a host read after the function's earlier accesses. -/
  | hostRead (vf : Nat) (va : Word) (n : Nat) (ide : Bool) (ch : Choice)
  /-- R17. A host rings a work-queue doorbell, which is discarded and counted if the queue is not enabled. -/
  | doorbellWrite (vf q : Nat) (header : Word) (ide : Bool)
  /-- R145. The dispatcher maps a pending work queue to a free hardware queue slot. -/
  | queueSlotMap (q : Nat)
  /-- R145. At each quantum the dispatcher rotates mapped queues out and rereads ignored records. -/
  | quantumBoundary (ch : Choice)
  /-- R134. The dispatcher reads a launch header and its state words and accepts or rejects the launch. -/
  | launchAccept (q : Nat) (ch : Choice)
  /-- R16. A group scheduler swaps a READY record to DISPATCHED and starts the team's sequencers. -/
  | taskDispatch (launch idx : Nat) (cores : List Nat) (ch : Choice)
  /-- R142. A fill task READY for the aging time is scheduled as normal from then on. -/
  | fillTaskAging (launch idx : Nat)
  /-- R139. When every context has ended and R125 holds, the record becomes DONE and its events are signalled. -/
  | taskComplete (team : Nat) (ch : Choice)
  /-- R144. A task past its maximum duration is ended at the context rung with cause 0x02. -/
  | taskWatchdog (team : Nat) (ch : Choice)
  /-- R149. A tenant's slice on a partition ends, and its groups dispatch none of its tasks. -/
  | sliceEnd (vf : Nat)
  /-- R139. The Fylen driver cancels a launch, making its WAITING and READY records CANCELLED. -/
  | launchCancel (launch : Nat) (ch : Choice)
  /-- R145. The Fylen driver disables a queue, emptying it and cancelling its undispatched tasks. -/
  | queueDisable (q : Nat)
  /-- R153. A record still STOLEN after the maximum duration plus the fabric timeout is swapped to FAILED with cause 0x08. -/
  | stealLost (launch idx : Nat) (ch : Choice)
  /-- R153. The thief performs the task's operations at system scope, swaps the record to DONE or FAILED and signals its events. -/
  | stolenTaskEnd (team : Nat) (ch : Choice)
  /-- R180. Before a core runs another tenant, its old engine commands end, the scratchpad is zeroed and the tag table cleared. -/
  | scratchpadZeroing (c : Nat)
  /-- R157. Fylen firmware allocates a zeroed frame for a parked write to an ABSENT entry, or faults it as out of frames. -/
  | frameAllocate (vf : Nat) (va : Word) (frame : Option FrameGrant)
  /-- R156. Fylen firmware pages in a PAGED frame and rewrites the entry. -/
  | pageIn (vf : Nat) (va : Word) (frame : Option FrameGrant) (data : List Byte)
  /-- R48. Fylen firmware builds missing translation tables for a parked write under a KIND 00 entry. -/
  | tableBuild (vf : Nat) (va : Word) (tables : Option (List FrameGrant))
  /-- R159. Fylen firmware moves a frame between tiers in five steps. -/
  | frameMove (vf : Nat) (va : Word) (fin : Option FrameGrant) (data : List Byte)
  /-- R163. Lender firmware offers a well-formed lease entry to a borrower. -/
  | leaseOffer (lease borrower deadline : Nat) (rdonly : Bool) (base len : Nat) (reserved : Bool)
  /-- R163. The borrower accepts an offer, and the lease becomes ACTIVE. -/
  | leaseAccept (lender : Nat) (lent : Lent)
  /-- R163. The borrower declines an offer, and the lease returns to FREE. -/
  | leaseDecline (lender lease : Nat)
  /-- R163. An offer unanswered for 10 ms returns to FREE. -/
  | leaseOfferTimeout (lease : Nat)
  /-- R163. The borrower releases an ACTIVE lease, returning the range. -/
  | leaseRelease (lender lease : Nat)
  /-- R163. The lender reclaims a lease, which becomes RECLAIMING and sends a reclaim notice. -/
  | leaseReclaim (lender lease : Nat)
  /-- R164. On a reclaim notice the borrower moves the frames, posts tier demotion events and acknowledges. -/
  | evictionHandshake (lender lease : Nat) (moves : List EvictMove)
  /-- R163. The borrower's acknowledgement frees a RECLAIMING or FROZEN lease and destroys its key. -/
  | leaseAcknowledge (lender lease : Nat)
  /-- R163. A RECLAIMING lease whose first deadline window ends becomes FROZEN. -/
  | firstWindowEnd (lease : Nat)
  /-- R163. A FROZEN lease whose second window ends becomes REVOKED and sends a lease-lost notice. -/
  | secondWindowEnd (lender lease : Nat)
  /-- R163. A REVOKED lease becomes FREE after its range is scrubbed and one fabric timeout has elapsed. -/
  | revokedLeaseFree (lease : Nat)
  /-- R160. The home device checks a forwarded line access against its lease table and answers. -/
  | forwardedAccess (at_ : Ingress) (borrower lease addr : Nat) (wr : Option (List (Byte × Byte)))
  /-- R190. A fabric request arrives at a port and is checked against the partition table and FTID. -/
  | avdexRequest (port tag ftid : Nat) (req : FabricRequest) (ch : Choice)
  /-- R209. An unanswered fabric request ends its context at the context rung with cause 0x06. -/
  | fabricRequesterTimeout (c : Nat) (x : CtxId) (op : Nat)
  /-- R210. A flit that fails CRC or authentication is replayed, and the link retrains after 16 failures. -/
  | flitReplay (port fails : Nat)
  /-- R210. Retraining of an Avdex link ends, or the port is fenced and its routes reloaded. -/
  | avdexLinkRetrain (port : Nat) (ok : Bool) (routes : List (Nat × Nat))
  /-- R191. An Avdex link is rekeyed before its key's counter space is spent. -/
  | linkRekey (port : Nat)
  /-- R177. The hypervisor writes a partition descriptor, which is refused, held or applied. -/
  | partitionDescriptorWrite (n : Nat) (d : PartDesc)
  /-- R177. A held descriptor write takes effect once none of the partition's tasks is DISPATCHED. -/
  | partitionWriteEffect (n : Nat)
  /-- R178. The hypervisor writes a tenant control word, which is refused or applied. -/
  | tenantControlWordWrite (vf : Nat) (w : Word)
  /-- R188. The hypervisor writes a memory-side cache way register, with write-back and drop before it takes effect. -/
  | wayRegisterWrite (way : Nat) (w : Lane)
  /-- R190. The fabric manager writes a port's partition table. -/
  | portPartitionTableWrite (port tag : Nat) (permit : Bool)
  /-- R181. TDISP request for the supported version. -/
  | getTdispVersion (vf : Nat)
  /-- R181. TDISP request for capabilities. -/
  | getTdispCapabilities (vf : Nat)
  /-- R182. Moves a function to CONFIG_LOCKED and freezes its PART, SHMASK, WAYS and FTID. -/
  | lockInterface (vf : Nat)
  /-- R182. Returns the interface report of tenant word, partition, ways and shared domains. -/
  | getDeviceInterfaceReport (vf : Nat)
  /-- R181. Returns the function's TDISP state. -/
  | getDeviceInterfaceState (vf : Nat)
  /-- R182. Moves a locked function to RUN and sets EN. -/
  | startInterface (vf : Nat)
  /-- R183. Returns a function to CONFIG_UNLOCKED after its tasks, leases, keys and frames are ended. -/
  | stopInterface (vf : Nat)
  /-- R182. A change to frozen fields or an IDE integrity failure puts the function into ERROR. -/
  | tdispError (vf : Nat) (cause : TdispCause)
  /-- R181. IDE key-management message over the SPDM session. -/
  | ideKm (stream : Nat) (vf : Nat) (req : IdeReq)
  /-- R184. A logic die's SPDM responder answers a request such as a certificate, challenge, measurement or key exchange. -/
  | spdmRequest (die : Nat) (req : SpdmReq)
  /-- R183. The hypervisor removes a tenant by other means, completing after its tasks, leases, keys and frames are ended. -/
  | tenantRemoval (vf : Nat)
  /-- R14. An MCTP management message such as firmware update or diagnostics. -/
  | managementMessage (m : MgmtMessage)
  /-- R21. A firmware image written at run time, taking effect at the next device reset. -/
  | firmwareUpdateWrite (image : FwImage)
  /-- R24. The Fylen driver sets the module power limit. -/
  | powerLimitWrite (watts : Nat)
  /-- R6. A write to a management setting with no behaviour of its own, such as the quantum, fill age or timeout. -/
  | registerWrite (r : Setting) (v : Nat)
  /-- R20. Power-on starts bring-up from stage 0. -/
  | powerOn
  /-- R20. A device reset restarts bring-up from stage 0. -/
  | deviceReset
  /-- R20. A bring-up stage finishes and the next begins, or it fails and the module enters stage 15. -/
  | bringUpStageComplete (ok : Bool) (errcode : BitVec 16)
  /-- R20. A stage exceeding its bound sends the module to stage 15. -/
  | bringUpStageTimeout (errcode : BitVec 16)
  /-- R18. A group's supply sensor sees droop and its clock is stretched. -/
  | supplyDroop (group : Nat)
  /-- R25. A die above 105 °C lowers the clock and sets THROT. -/
  | dieOverTemperature (die : Nat)
  /-- R25. Above 115 °C, or on coolant flow failure, the module stops all work and enters stage 0. -/
  | thermalTrip (errcode : BitVec 16)
  /-- R202. An HBM transfer CRC error is replayed up to 8 times before the channel retrains. -/
  | hbmLinkError (channel fails : Nat)
  /-- R202. Retraining of an HBM channel ends, or the channel is fenced and its frames poisoned. -/
  | hbmChannelRetrain (channel : Nat) (ok : Bool)
  /-- R203. The re-read of a line that failed ECC or its tag ends, passing or poisoning the frame. -/
  | memoryErrorReread (cls line die : Nat) (met : MetBy) (pass : Bool)
  /-- R207. The refetch of a dropped clean cache line ends, passing or leading to R203. -/
  | cacheLineRefetch (line die : Nat) (who : Option Nat) (refetch reread : Bool)
  /-- R205. The patrol reads, checks and may re-encrypt one counter block in an indivisible step. -/
  | patrolStep (block : Nat)
  /-- R206. A patrol pass starts and makes a new newest key version. -/
  | patrolPassStart
  /-- R199. Reset ladder rung that disables a work queue. -/
  | queueRung (q : Nat)
  /-- R199. Reset ladder rung that stops every context of a task and writes it FAILED. -/
  | contextRung (team : Nat) (cause : Lane) (ch : Choice)
  /-- R211. Reset ladder rung that resets and self-tests engines, lifting fences or withdrawing the core. -/
  | engineRung (cores : List (Nat × Bool))
  /-- R199. Reset ladder rung that ends every task of a partition and zeroes its scratchpads. -/
  | partitionRung (n : Nat)
  /-- R199. Reset ladder rung that resets the module. -/
  | deviceRung
  /-- R200. A rung's action has taken effect, and it is recorded. -/
  | rungComplete (rung : Nat)
  /-- R200. A rung past its timeout escalates to the next rung. -/
  | rungTimeout (rung : Nat)
  /-- R149. A tenant's next slice on its partition begins, and its READY records are scheduled afresh on the partition's groups. -/
  | sliceStart (vf : Nat)
  /-- R175. Fylen firmware, at the hypervisor's request, writes a tenant's constellation descriptors, translation tables or plane entries
  (new constellations, shared SK frames, REMOTE entries, a POISONED entry set ABSENT) and invalidates the affected PFR cache entries. -/
  | tenantTableChange (vf : Nat) (ch : TableChange)
  /-- R24. The management firmware finds the module's 10 ms average draw at the power limit, lowers the clock (or restores it when the draw
  falls) and sets or clears DEVSTAT.THROT. -/
  | powerLimitHold (atLimit : Bool)
  /-- R25. Die temperature falls back to 105 °C or below, so the thermal clock lowering ends and DEVSTAT.THROT clears unless a power limit
  still holds. -/
  | dieTemperatureRecovery (die : Nat)
  deriving DecidableEq, Repr, Inhabited

end Sys2Proof
end

