-- ==== Sys2Proof/WellFormed.lean ====
section
/-! DEFINITION. Which instructions are well formed: the must-be-zero fields, formats and modifiers of
each entry. What a context, an allocation or a register value forbids is checked when it issues. -/

namespace Sys2Proof

/-- The floating formats F32, F16, BF16, E4M3 and E5M2 (R59, R274). -/
def floatFmt (f : BitVec 4) : Bool := f.toNat ≤ 4
/-- The integer formats I32, U32, I64, U64, I8 and U8 (R275). -/
def intFmt (f : BitVec 4) : Bool := 5 ≤ f.toNat && f.toNat ≤ 10
/-- The pair formats I64 and U64 (R271). -/
def pairFmt (f : BitVec 4) : Bool := f == 7 || f == 8
/-- The BX formats. -/
def bxFmt (n : Nat) : Bool := 12 ≤ n && n ≤ 14
/-- The formats `VREDUCE` accepts (R283). -/
def reduceFmt (f : BitVec 4) : Bool := f.toNat ≤ 2 || f == 5 || f == 6
/-- The formats `MMA` and `MCHECK` accept (R291). -/
def matFmt (f : BitVec 4) : Bool := (1 ≤ f.toNat && f.toNat ≤ 4) || f == 9 || bxFmt f.toNat

/-- The pairings and rounding modes `VCVT` accepts (R93, R96, R284): no BX format, no pairing of an
integer format or E8M0 with E8M0 that R96 forbids, `.SAT` only to E4M3 and E5M2, `.SR` only to a
floating format. -/
def cvtOk (dst src mode : Nat) : Bool :=
  dst ≤ 11 && src ≤ 11 && mode ≤ 3
    && !(dst == 11 && 5 ≤ src) && !(src == 11 && 5 ≤ dst)
    && !(mode == 2 && !(dst == 3 || dst == 4))
    && !(mode == 3 && 5 ≤ dst)

/-- The predicate, invert and format fields of a predicate instruction are zero (R277). -/
def predWhole (f : VF) : Bool := f.pred == 0 && !f.inv && f.fmt == 0

/-- M, K, N, negate and accumulate-disable are unused. -/
def noShape (f : XF) : Bool := f.m == 0 && f.k == 0 && f.n == 0 && !f.neg && !f.nacc

/-- The rules of R66 on a code header's own fields. -/
def Header.wf (h : Header) : Bool :=
  h.csrc != 3 && h.len != 0
    && !(h.csrc == 1 && field h.count.toNat 5 4 != 0)
    && !(h.csrc == 2 && h.count != 0)

/-- An instruction is well formed: each must-be-zero field is zero, and its format and modifier are ones its
entry accepts (R53, R55, R66, R247, R268, R288). A machine step has no word, and nothing to check. -/
def Instr.wf : Instr → Bool
  | .nop => true
  | .mov _ _ => true
  | .addC _ _ => true
  | .subC _ _ => true
  | .andC _ _ => true
  | .orC _ _ => true
  | .xorC _ _ => true
  | .movk _ _ => true
  | .addk _ _ => true
  | .shlk _ _ => true
  | .shrk _ _ => true
  | .leave => true
  | .ret => true
  | .ypop _ => true
  | .zpop _ => true
  | .cput _ => true
  | .cget _ => true
  | .add _ _ _ => true
  | .sub _ _ _ => true
  | .mul _ _ _ => true
  | .mulhs _ _ _ => true
  | .mulhu _ _ _ => true
  | .divs _ _ _ => true
  | .divu _ _ _ => true
  | .rems _ _ _ => true
  | .remu _ _ _ => true
  | .and _ _ _ => true
  | .or _ _ _ => true
  | .xor _ _ _ => true
  | .andn _ _ _ => true
  | .shl _ _ _ => true
  | .shr _ _ _ => true
  | .sar _ _ _ => true
  | .rot _ _ _ => true
  | .min _ _ _ => true
  | .max _ _ _ => true
  | .minu _ _ _ => true
  | .maxu _ _ _ => true
  | .slt _ _ _ => true
  | .sltu _ _ _ => true
  | .seq _ _ _ => true
  | .sel _ _ _ => true
  | .clz _ _ => true
  | .ctz _ _ => true
  | .popc _ _ => true
  | .brev _ _ => true
  | .extu _ _ _ _ => true
  | .exts _ _ _ _ => true
  | .ins _ _ _ _ => true
  | .lea _ _ _ _ => true
  | .addi _ _ _ => true
  | .andi _ _ _ => true
  | .ori _ _ _ => true
  | .xori _ _ _ => true
  | .shli _ _ _ => true
  | .shri _ _ _ => true
  | .sari _ _ _ => true
  | .movi _ _ => true
  | .moviIc _ _ => true
  | .movhi _ _ _ => true
  | .slti _ _ _ => true
  | .beq _ _ _ => true
  | .bne _ _ _ => true
  | .blt _ _ _ => true
  | .bge _ _ _ => true
  | .bltu _ _ _ => true
  | .bgeu _ _ _ => true
  | .br _ => true
  | .brl _ => true
  | .brx _ => true
  | .skipz _ _ => true
  | .skipnz _ _ => true
  | .trap _ => true
  | .rte => true
  | .mfs _ _ => true
  | .mts _ _ => true
  | .id _ _ => true
  | .time _ => true
  | .endtask => true
  | .cfread _ _ => true
  | .blockHeader h => h.wf
  | .dataHeader len => len != 0
  | .bodyEnd => true
  | .instructionFetch _ _ _ => true
  | .vadd f => f.mod == 0 && floatFmt f.fmt
  | .vsub f => f.mod == 0 && floatFmt f.fmt
  | .vmul f => f.mod == 0 && floatFmt f.fmt
  | .vfma f => f.mod == 0 && floatFmt f.fmt
  | .vfms f => f.mod == 0 && floatFmt f.fmt
  | .vfnma f => f.mod == 0 && floatFmt f.fmt
  | .vmin f => f.mod == 0 && floatFmt f.fmt
  | .vmax f => f.mod == 0 && floatFmt f.fmt
  | .vabs f => f.b == 0 && f.mod == 0 && floatFmt f.fmt
  | .vneg f => f.b == 0 && f.mod == 0 && floatFmt f.fmt
  | .vdiv f => f.mod == 0 && floatFmt f.fmt
  | .vsqrt f => f.b == 0 && f.mod == 0 && floatFmt f.fmt
  | .vrsqrt f => f.b == 0 && f.mod == 0 && floatFmt f.fmt
  | .vrcp f => f.b == 0 && f.mod == 0 && floatFmt f.fmt
  | .vexp2 f => f.b == 0 && f.mod == 0 && floatFmt f.fmt
  | .vlog2 f => f.b == 0 && f.mod == 0 && floatFmt f.fmt
  | .viadd f => f.mod == 0 && intFmt f.fmt
  | .visub f => f.mod == 0 && intFmt f.fmt
  | .vimul f => f.mod == 0 && intFmt f.fmt
  | .vimulh f => f.mod == 0 && intFmt f.fmt
  | .vand f => f.mod == 0 && intFmt f.fmt
  | .vor f => f.mod == 0 && intFmt f.fmt
  | .vxor f => f.mod == 0 && intFmt f.fmt
  | .vshl f => f.mod == 0 && intFmt f.fmt
  | .vshr f => f.mod == 0 && intFmt f.fmt
  | .vsar f => f.mod == 0 && intFmt f.fmt
  | .vimin f => f.mod == 0 && intFmt f.fmt
  | .vimax f => f.mod == 0 && intFmt f.fmt
  | .vcmp f => f.mod.toNat ≤ 7 && floatFmt f.fmt
  | .vicmp f => f.mod.toNat ≤ 5 && intFmt f.fmt
  | .pand f => predWhole f && f.mod == 0
  | .por f => predWhole f && f.mod == 0
  | .pxor f => predWhole f && f.mod == 0
  | .pandn f => predWhole f && f.mod == 0
  | .pnot f => predWhole f && f.b == 0 && f.mod == 0
  | .pset f => predWhole f && f.a == 0 && f.mod.toNat ≤ 1
  | .vsum f => f.d == 0 && f.b == 0 && f.fmt == 0 && f.mod == 0
  | .vmov f => f.a == 0 && f.mod == 0 && f.fmt.toNat ≤ 10
  | .vsel f => f.mod == 0 && (f.fmt == 0 || pairFmt f.fmt)
  | .vbcast f => f.mod == 0 && f.fmt == 0
  | .viota f => f.a == 0 && f.mod == 0 && (f.fmt == 5 || f.fmt == 6)
  | .vperm f => f.mod == 0 && f.fmt == 0
  | .vslide f => f.mod.toNat ≤ 1 && f.fmt == 0
  | .vline f => f.mod.toNat ≤ 2 && f.fmt == 0
  | .vputl f => f.mod.toNat ≤ 2 && f.fmt == 0
  | .vreduce f => f.b == 0 && f.mod == 0 && reduceFmt f.fmt
  | .vcvt f => cvtOk f.fmt.toNat f.b.toNat f.mod.toNat
  | .vpackbx f => f.mod == 0 && bxFmt f.fmt.toNat && f.b.toNat ≤ 2
  | .vunpkbx f => f.mod == 0 && f.fmt.toNat ≤ 2 && bxFmt f.b.toNat
  | .vseed f => f.d == 0 && f.a == 0 && f.fmt == 0 && f.mod == 0
  | .ldB _ => true
  | .ldH _ => true
  | .ldW _ => true
  | .ldD _ => true
  | .ldsB _ => true
  | .ldsH _ => true
  | .ldsW _ => true
  | .stB _ => true
  | .stH _ => true
  | .stW _ => true
  | .stD _ => true
  | .ldq _ => true
  | .ldqs f => field f.z.toNat 0 5 == 0
  | .stq _ => true
  | .stqs f => field f.z.toNat 0 5 == 0
  | .ldx f => field f.z.toNat 0 5 == 0
  | .ldtab f => f.x == 0
  | .ldm f => !bitAt f.x.toNat 0 && field f.z.toNat 2 2 != 3 && field f.z.toNat 0 2 == 0
  | .stm f => !bitAt f.x.toNat 0 && field f.z.toNat 2 2 != 3 && !bitAt f.z.toNat 0
  | .ldb f => field f.x.toNat 2 3 == 0 && !bitAt f.x.toNat 0 && field f.z.toNat 0 4 == 0
  | .xcopy f => field f.z.toNat 0 9 == 0
  | .pref _ => true
  | .probe _ => true
  | .prels f => f.y == 0 && f.z == 0
  | .pconv f => f.z == 0
  | .plnew f => f.z == 0
  | .plprot f => field f.x.toNat 2 3 == 0 && f.z == 0
  | .pldrop f => f.x == 0 && f.z == 0
  | .ksig f => f.y == 0 && field f.z.toNat 6 4 == 0
  | .ktake f => f.y == 0 && field f.z.toNat 6 4 == 0
  | .ktaket f => !bitAt f.z.toNat 0
  | .aadd f => field f.z.toNat 0 3 == 0
  | .afadd f => field f.z.toNat 0 3 == 0 && !bitAt f.z.toNat 8
  | .amin f => field f.z.toNat 0 2 == 0
  | .amax f => field f.z.toNat 0 2 == 0
  | .aand f => field f.z.toNat 0 3 == 0
  | .aor f => field f.z.toNat 0 3 == 0
  | .axor f => field f.z.toNat 0 3 == 0
  | .axchg f => field f.z.toNat 0 3 == 0
  | .acas f => field f.z.toNat 0 3 == 0
  | .ald f => field f.z.toNat 0 8 == 0
  | .ast f => field f.z.toNat 0 8 == 0
  | .abarm f => f.z == 0
  | .abwait f => field f.z.toNat 0 7 == 0
  | .evsig f => field f.z.toNat 2 8 == 0 && (bitAt f.z.toNat 1 || f.x == 0)
  | .evwait f => f.z == 0
  | .evreset f => f.z == 0
  | .launch f => f.x == 0 && f.z == 0
  | .steal f => field f.z.toNat 0 5 == 0
  | .tstate f => field f.z.toNat 1 9 == 0
  | .bjoin f => field f.z.toNat 0 5 == 0
  | .bwait f => f.z == 0
  | .blog _ => true
  | .msend f => field f.z.toNat 0 5 == 0
  | .xgath f => field f.z.toNat 0 9 == 0
  | .xscat f => field f.z.toNat 0 9 == 0
  | .xnzs f => field f.z.toNat 0 9 == 0
  | .xhot f => field f.z.toNat 0 9 == 0
  | .mma f => f.cg != 3 && f.ag != 3 && matFmt f.fmt
  | .mscale f => f.cg != 3 && f.ag != 3 && !f.tr && !f.slot && field f.k.toNat 6 2 == 0 && f.fmt == 0 && !f.neg && !f.nacc
  | .mzero f => f.cg != 3 && f.a == 0 && f.ag == 0 && !f.tr && !f.slot && noShape f && f.fmt == 0
  | .mmov f => f.cg != 3 && f.ag != 3 && !f.slot && noShape f && f.fmt == 0
  | .mstat f => f.cg != 3 && f.a == 0 && f.ag == 0 && !f.tr && !f.slot && noShape f && f.fmt == 0
  | .mcheck f => f.c == 0 && f.cg == 0 && f.a == 0 && f.ag == 0 && !f.tr && noShape f && matFmt f.fmt
  | .resultLanding _ => true
  | .mmaDrain _ _ => true
  | .operationPerform _ _ _ _ => true
  | .writePropagate _ => true
  | .engineCommandStart _ _ _ _ => true
  | .engineElementAccess _ _ _ _ _ => true
  | .engineCommandComplete _ _ _ _ => true
  | .heldSignalDelivery _ _ => true
  | .waitTimeout _ _ _ => true
  | .bivouacEntry _ => true
  | .hostWrite _ _ _ _ _ => true
  | .hostRead _ _ _ _ _ => true
  | .doorbellWrite _ _ _ _ => true
  | .queueSlotMap _ => true
  | .quantumBoundary _ => true
  | .launchAccept _ _ => true
  | .taskDispatch _ _ _ _ => true
  | .fillTaskAging _ _ => true
  | .taskComplete _ _ => true
  | .taskWatchdog _ _ => true
  | .sliceEnd _ => true
  | .launchCancel _ _ => true
  | .queueDisable _ => true
  | .stealLost _ _ _ => true
  | .stolenTaskEnd _ _ => true
  | .scratchpadZeroing _ => true
  | .frameAllocate _ _ _ => true
  | .pageIn _ _ _ _ => true
  | .tableBuild _ _ _ => true
  | .frameMove _ _ _ _ => true
  | .leaseOffer _ _ _ _ _ _ _ => true
  | .leaseAccept _ _ => true
  | .leaseDecline _ _ => true
  | .leaseOfferTimeout _ => true
  | .leaseRelease _ _ => true
  | .leaseReclaim _ _ => true
  | .evictionHandshake _ _ _ => true
  | .leaseAcknowledge _ _ => true
  | .firstWindowEnd _ => true
  | .secondWindowEnd _ _ => true
  | .revokedLeaseFree _ => true
  | .forwardedAccess _ _ _ _ _ => true
  | .avdexRequest _ _ _ _ _ => true
  | .fabricRequesterTimeout _ _ _ => true
  | .flitReplay _ _ => true
  | .avdexLinkRetrain _ _ _ => true
  | .linkRekey _ => true
  | .partitionDescriptorWrite _ _ => true
  | .partitionWriteEffect _ => true
  | .tenantControlWordWrite _ _ => true
  | .wayRegisterWrite _ _ => true
  | .portPartitionTableWrite _ _ _ => true
  | .getTdispVersion _ => true
  | .getTdispCapabilities _ => true
  | .lockInterface _ => true
  | .getDeviceInterfaceReport _ => true
  | .getDeviceInterfaceState _ => true
  | .startInterface _ => true
  | .stopInterface _ => true
  | .tdispError _ _ => true
  | .ideKm _ _ _ => true
  | .spdmRequest _ _ => true
  | .tenantRemoval _ => true
  | .managementMessage _ => true
  | .firmwareUpdateWrite _ => true
  | .powerLimitWrite _ => true
  | .registerWrite _ _ => true
  | .powerOn => true
  | .deviceReset => true
  | .bringUpStageComplete _ _ => true
  | .bringUpStageTimeout _ => true
  | .supplyDroop _ => true
  | .dieOverTemperature _ => true
  | .thermalTrip _ => true
  | .hbmLinkError _ _ => true
  | .hbmChannelRetrain _ _ => true
  | .memoryErrorReread _ _ _ _ _ => true
  | .cacheLineRefetch _ _ _ _ _ => true
  | .patrolStep _ => true
  | .patrolPassStart => true
  | .queueRung _ => true
  | .contextRung _ _ _ => true
  | .engineRung _ => true
  | .partitionRung _ => true
  | .deviceRung => true
  | .rungComplete _ => true
  | .rungTimeout _ => true
  | .sliceStart _ => true
  | .tenantTableChange _ _ => true
  | .powerLimitHold _ => true
  | .dieTemperatureRecovery _ => true

/-- The instruction has a word: it is not a machine step. -/
def Instr.hasWord : Instr → Bool
  | .nop => true
  | .mov _ _ => true
  | .addC _ _ => true
  | .subC _ _ => true
  | .andC _ _ => true
  | .orC _ _ => true
  | .xorC _ _ => true
  | .movk _ _ => true
  | .addk _ _ => true
  | .shlk _ _ => true
  | .shrk _ _ => true
  | .leave => true
  | .ret => true
  | .ypop _ => true
  | .zpop _ => true
  | .cput _ => true
  | .cget _ => true
  | .add _ _ _ => true
  | .sub _ _ _ => true
  | .mul _ _ _ => true
  | .mulhs _ _ _ => true
  | .mulhu _ _ _ => true
  | .divs _ _ _ => true
  | .divu _ _ _ => true
  | .rems _ _ _ => true
  | .remu _ _ _ => true
  | .and _ _ _ => true
  | .or _ _ _ => true
  | .xor _ _ _ => true
  | .andn _ _ _ => true
  | .shl _ _ _ => true
  | .shr _ _ _ => true
  | .sar _ _ _ => true
  | .rot _ _ _ => true
  | .min _ _ _ => true
  | .max _ _ _ => true
  | .minu _ _ _ => true
  | .maxu _ _ _ => true
  | .slt _ _ _ => true
  | .sltu _ _ _ => true
  | .seq _ _ _ => true
  | .sel _ _ _ => true
  | .clz _ _ => true
  | .ctz _ _ => true
  | .popc _ _ => true
  | .brev _ _ => true
  | .extu _ _ _ _ => true
  | .exts _ _ _ _ => true
  | .ins _ _ _ _ => true
  | .lea _ _ _ _ => true
  | .addi _ _ _ => true
  | .andi _ _ _ => true
  | .ori _ _ _ => true
  | .xori _ _ _ => true
  | .shli _ _ _ => true
  | .shri _ _ _ => true
  | .sari _ _ _ => true
  | .movi _ _ => true
  | .moviIc _ _ => true
  | .movhi _ _ _ => true
  | .slti _ _ _ => true
  | .beq _ _ _ => true
  | .bne _ _ _ => true
  | .blt _ _ _ => true
  | .bge _ _ _ => true
  | .bltu _ _ _ => true
  | .bgeu _ _ _ => true
  | .br _ => true
  | .brl _ => true
  | .brx _ => true
  | .skipz _ _ => true
  | .skipnz _ _ => true
  | .trap _ => true
  | .rte => true
  | .mfs _ _ => true
  | .mts _ _ => true
  | .id _ _ => true
  | .time _ => true
  | .endtask => true
  | .cfread _ _ => true
  | .blockHeader _ => true
  | .dataHeader _ => true
  | .bodyEnd => false
  | .instructionFetch _ _ _ => false
  | .vadd _ => true
  | .vsub _ => true
  | .vmul _ => true
  | .vfma _ => true
  | .vfms _ => true
  | .vfnma _ => true
  | .vmin _ => true
  | .vmax _ => true
  | .vabs _ => true
  | .vneg _ => true
  | .vdiv _ => true
  | .vsqrt _ => true
  | .vrsqrt _ => true
  | .vrcp _ => true
  | .vexp2 _ => true
  | .vlog2 _ => true
  | .viadd _ => true
  | .visub _ => true
  | .vimul _ => true
  | .vimulh _ => true
  | .vand _ => true
  | .vor _ => true
  | .vxor _ => true
  | .vshl _ => true
  | .vshr _ => true
  | .vsar _ => true
  | .vimin _ => true
  | .vimax _ => true
  | .vcmp _ => true
  | .vicmp _ => true
  | .pand _ => true
  | .por _ => true
  | .pxor _ => true
  | .pandn _ => true
  | .pnot _ => true
  | .pset _ => true
  | .vsum _ => true
  | .vmov _ => true
  | .vsel _ => true
  | .vbcast _ => true
  | .viota _ => true
  | .vperm _ => true
  | .vslide _ => true
  | .vline _ => true
  | .vputl _ => true
  | .vreduce _ => true
  | .vcvt _ => true
  | .vpackbx _ => true
  | .vunpkbx _ => true
  | .vseed _ => true
  | .ldB _ => true
  | .ldH _ => true
  | .ldW _ => true
  | .ldD _ => true
  | .ldsB _ => true
  | .ldsH _ => true
  | .ldsW _ => true
  | .stB _ => true
  | .stH _ => true
  | .stW _ => true
  | .stD _ => true
  | .ldq _ => true
  | .ldqs _ => true
  | .stq _ => true
  | .stqs _ => true
  | .ldx _ => true
  | .ldtab _ => true
  | .ldm _ => true
  | .stm _ => true
  | .ldb _ => true
  | .xcopy _ => true
  | .pref _ => true
  | .probe _ => true
  | .prels _ => true
  | .pconv _ => true
  | .plnew _ => true
  | .plprot _ => true
  | .pldrop _ => true
  | .ksig _ => true
  | .ktake _ => true
  | .ktaket _ => true
  | .aadd _ => true
  | .afadd _ => true
  | .amin _ => true
  | .amax _ => true
  | .aand _ => true
  | .aor _ => true
  | .axor _ => true
  | .axchg _ => true
  | .acas _ => true
  | .ald _ => true
  | .ast _ => true
  | .abarm _ => true
  | .abwait _ => true
  | .evsig _ => true
  | .evwait _ => true
  | .evreset _ => true
  | .launch _ => true
  | .steal _ => true
  | .tstate _ => true
  | .bjoin _ => true
  | .bwait _ => true
  | .blog _ => true
  | .msend _ => true
  | .xgath _ => true
  | .xscat _ => true
  | .xnzs _ => true
  | .xhot _ => true
  | .mma _ => true
  | .mscale _ => true
  | .mzero _ => true
  | .mmov _ => true
  | .mstat _ => true
  | .mcheck _ => true
  | .resultLanding _ => false
  | .mmaDrain _ _ => false
  | .operationPerform _ _ _ _ => false
  | .writePropagate _ => false
  | .engineCommandStart _ _ _ _ => false
  | .engineElementAccess _ _ _ _ _ => false
  | .engineCommandComplete _ _ _ _ => false
  | .heldSignalDelivery _ _ => false
  | .waitTimeout _ _ _ => false
  | .bivouacEntry _ => false
  | .hostWrite _ _ _ _ _ => false
  | .hostRead _ _ _ _ _ => false
  | .doorbellWrite _ _ _ _ => false
  | .queueSlotMap _ => false
  | .quantumBoundary _ => false
  | .launchAccept _ _ => false
  | .taskDispatch _ _ _ _ => false
  | .fillTaskAging _ _ => false
  | .taskComplete _ _ => false
  | .taskWatchdog _ _ => false
  | .sliceEnd _ => false
  | .launchCancel _ _ => false
  | .queueDisable _ => false
  | .stealLost _ _ _ => false
  | .stolenTaskEnd _ _ => false
  | .scratchpadZeroing _ => false
  | .frameAllocate _ _ _ => false
  | .pageIn _ _ _ _ => false
  | .tableBuild _ _ _ => false
  | .frameMove _ _ _ _ => false
  | .leaseOffer _ _ _ _ _ _ _ => false
  | .leaseAccept _ _ => false
  | .leaseDecline _ _ => false
  | .leaseOfferTimeout _ => false
  | .leaseRelease _ _ => false
  | .leaseReclaim _ _ => false
  | .evictionHandshake _ _ _ => false
  | .leaseAcknowledge _ _ => false
  | .firstWindowEnd _ => false
  | .secondWindowEnd _ _ => false
  | .revokedLeaseFree _ => false
  | .forwardedAccess _ _ _ _ _ => false
  | .avdexRequest _ _ _ _ _ => false
  | .fabricRequesterTimeout _ _ _ => false
  | .flitReplay _ _ => false
  | .avdexLinkRetrain _ _ _ => false
  | .linkRekey _ => false
  | .partitionDescriptorWrite _ _ => false
  | .partitionWriteEffect _ => false
  | .tenantControlWordWrite _ _ => false
  | .wayRegisterWrite _ _ => false
  | .portPartitionTableWrite _ _ _ => false
  | .getTdispVersion _ => false
  | .getTdispCapabilities _ => false
  | .lockInterface _ => false
  | .getDeviceInterfaceReport _ => false
  | .getDeviceInterfaceState _ => false
  | .startInterface _ => false
  | .stopInterface _ => false
  | .tdispError _ _ => false
  | .ideKm _ _ _ => false
  | .spdmRequest _ _ => false
  | .tenantRemoval _ => false
  | .managementMessage _ => false
  | .firmwareUpdateWrite _ => false
  | .powerLimitWrite _ => false
  | .registerWrite _ _ => false
  | .powerOn => false
  | .deviceReset => false
  | .bringUpStageComplete _ _ => false
  | .bringUpStageTimeout _ => false
  | .supplyDroop _ => false
  | .dieOverTemperature _ => false
  | .thermalTrip _ => false
  | .hbmLinkError _ _ => false
  | .hbmChannelRetrain _ _ => false
  | .memoryErrorReread _ _ _ _ _ => false
  | .cacheLineRefetch _ _ _ _ _ => false
  | .patrolStep _ => false
  | .patrolPassStart => false
  | .queueRung _ => false
  | .contextRung _ _ _ => false
  | .engineRung _ => false
  | .partitionRung _ => false
  | .deviceRung => false
  | .rungComplete _ => false
  | .rungTimeout _ => false
  | .sliceStart _ => false
  | .tenantTableChange _ _ => false
  | .powerLimitHold _ => false
  | .dieTemperatureRecovery _ => false

end Sys2Proof
end

