-- ==== Sys2Proof/Decode.lean ====
section
/-! DEFINITION. Decoding: from the bytes of the code image to an instruction or a named refusal. After it, the
encoder, and decoding of the words the opcode table numbers. -/

namespace Sys2Proof

/-- Why bytes are not an instruction. The machine turns each into the illegal-instruction trap (R53 to R62). -/
inductive Reject where
  /-- Fewer bytes than the first parcel announces. -/
  | truncated
  /-- An opcode value that R53, R56, R58, R61 or R62 does not list. -/
  | opcode
  /-- A must-be-zero field that is not zero, or a format, modifier or group code the entry does not accept. -/
  | field
  deriving DecidableEq, Repr

/-- How many parcels an instruction has, from its first parcel (R52). -/
def parcelCount (p : Nat) : Nat :=
  if p < 0x8000 then 1
  else if p < 0xC000 then 2
  else if p < 0xE000 then 3
  else if p < 0xF000 then 4
  else 2

/-- C16 (R53): opcode in 14:10, D in 9:5, S in 4:0. -/
def decodeC16 (w : Nat) : Except Reject Instr :=
  match field w 10 5 with
  | 0 => if field w 0 10 = 0 then .ok .nop else .error .field
  | 1 => .ok (.mov (bits w 5 5) (bits w 0 5))
  | 2 => .ok (.addC (bits w 5 5) (bits w 0 5))
  | 3 => .ok (.subC (bits w 5 5) (bits w 0 5))
  | 4 => .ok (.andC (bits w 5 5) (bits w 0 5))
  | 5 => .ok (.orC (bits w 5 5) (bits w 0 5))
  | 6 => .ok (.xorC (bits w 5 5) (bits w 0 5))
  | 7 => .ok (.movk (bits w 5 5) (bits w 0 5))
  | 8 => .ok (.addk (bits w 5 5) (bits w 0 5))
  | 9 => .ok (.shlk (bits w 5 5) (bits w 0 5))
  | 10 => .ok (.shrk (bits w 5 5) (bits w 0 5))
  | 11 => if field w 0 10 = 0 then .ok .leave else .error .field
  | 12 => if field w 0 10 = 0 then .ok .ret else .error .field
  | 13 => if field w 0 5 = 0 then .ok (.ypop (bits w 5 5)) else .error .field
  | 14 => if field w 0 5 = 0 then .ok (.zpop (bits w 5 5)) else .error .field
  | 15 => if field w 5 5 = 0 then .ok (.cput (bits w 0 5)) else .error .field
  | 16 => if field w 0 5 = 0 then .ok (.cget (bits w 5 5)) else .error .field
  | _ => .error .opcode

/-- S32 R form with a zero function field (R55). -/
def formR (i : Reg → Reg → Reg → Instr) (w : Nat) : Except Reject Instr :=
  if field w 0 7 = 0 then .ok (i (bits w 17 5) (bits w 12 5) (bits w 7 5)) else .error .field

/-- R form of a one-source operation: b and the function field are zero (R229). -/
def formR2 (i : Reg → Reg → Instr) (w : Nat) : Except Reject Instr :=
  if field w 0 12 = 0 then .ok (i (bits w 17 5) (bits w 12 5)) else .error .field

/-- W[11:6] is width - 1 and W[5:0] is lsb (R230). -/
def formX (i : Reg → Reg → BitVec 6 → BitVec 6 → Instr) (w : Nat) : Except Reject Instr :=
  .ok (i (bits w 17 5) (bits w 12 5) (bits w 6 6) (bits w 0 6))

/-- S32 I form and B form: two register fields and 12 low bits (R55). -/
def formI (i : Reg → Reg → BitVec 12 → Instr) (w : Nat) : Except Reject Instr :=
  .ok (i (bits w 17 5) (bits w 12 5) (bits w 0 12))

/-- I form of a shift by an immediate: W[11:6] is zero (R232). -/
def formSh (i : Reg → Reg → BitVec 6 → Instr) (w : Nat) : Except Reject Instr :=
  if field w 6 6 = 0 then .ok (i (bits w 17 5) (bits w 12 5) (bits w 0 6)) else .error .field

/-- S form: d and a 17-bit number (R55). -/
def formS (i : Reg → BitVec 17 → Instr) (w : Nat) : Except Reject Instr :=
  .ok (i (bits w 17 5) (bits w 0 17))

/-- `MOVI` in its two forms (R65). -/
def formMovi (w : Nat) : Except Reject Instr :=
  if field w 12 5 = 0 then
    if bitAt w 11 then
      if field w 6 5 = 0 then .ok (.moviIc (bits w 17 5) (bits w 0 6)) else .error .field
    else .ok (.movi (bits w 17 5) (bits w 0 11))
  else .error .field

/-- S32 (R56): opcode in 29:22. -/
def decodeS32 (w : Nat) : Except Reject Instr :=
  match field w 22 8 with
  | 0x00 => formR .add w
  | 0x01 => formR .sub w
  | 0x02 => formR .mul w
  | 0x03 => formR .mulhs w
  | 0x04 => formR .mulhu w
  | 0x05 => formR .divs w
  | 0x06 => formR .divu w
  | 0x07 => formR .rems w
  | 0x08 => formR .remu w
  | 0x09 => formR .and w
  | 0x0A => formR .or w
  | 0x0B => formR .xor w
  | 0x0C => formR .andn w
  | 0x0D => formR .shl w
  | 0x0E => formR .shr w
  | 0x0F => formR .sar w
  | 0x10 => formR .rot w
  | 0x11 => formR .min w
  | 0x12 => formR .max w
  | 0x13 => formR .minu w
  | 0x14 => formR .maxu w
  | 0x15 => formR .slt w
  | 0x16 => formR .sltu w
  | 0x17 => formR .seq w
  | 0x18 => formR .sel w
  | 0x19 => formR2 .clz w
  | 0x1A => formR2 .ctz w
  | 0x1B => formR2 .popc w
  | 0x1C => formR2 .brev w
  | 0x1D => formX .extu w
  | 0x1E => formX .exts w
  | 0x1F => formX .ins w
  | 0x20 => if field w 3 4 = 0 then .ok (.lea (bits w 17 5) (bits w 12 5) (bits w 7 5) (bits w 0 3)) else .error .field
  | 0x21 => formI .addi w
  | 0x22 => formI .andi w
  | 0x23 => formI .ori w
  | 0x24 => formI .xori w
  | 0x25 => formSh .shli w
  | 0x26 => formSh .shri w
  | 0x27 => formSh .sari w
  | 0x28 => formMovi w
  | 0x29 => formI .movhi w
  | 0x2A => formI .slti w
  | 0x40 => formI .beq w
  | 0x41 => formI .bne w
  | 0x42 => formI .blt w
  | 0x43 => formI .bge w
  | 0x44 => formI .bltu w
  | 0x45 => formI .bgeu w
  | 0x46 => if field w 12 10 = 0 then .ok (.br (bits w 0 12)) else .error .field
  | 0x47 => if field w 12 10 = 0 then .ok (.brl (bits w 0 12)) else .error .field
  | 0x48 => if field w 17 5 = 0 ∧ field w 0 12 = 0 then .ok (.brx (bits w 12 5)) else .error .field
  | 0x49 => if field w 12 5 = 0 then .ok (.skipz (bits w 17 5) (bits w 0 12)) else .error .field
  | 0x4A => if field w 12 5 = 0 then .ok (.skipnz (bits w 17 5) (bits w 0 12)) else .error .field
  | 0x60 => if field w 17 5 = 0 then .ok (.trap (bits w 0 17)) else .error .field
  | 0x61 => if field w 0 22 = 0 then .ok .rte else .error .field
  | 0x62 => formS .mfs w
  | 0x63 => formS .mts w
  | 0x64 => formS .id w
  | 0x65 => if field w 0 17 = 0 then .ok (.time (bits w 17 5)) else .error .field
  | 0x66 => if field w 0 22 = 0 then .ok .endtask else .error .field
  | 0x67 => formS .cfread w
  | _ => .error .opcode

/-- A block header (R66, R70). KIND 11 is not a header. The rules of R67 on the fields of a code header are
made when it is entered. -/
def decodeHeader (w : Nat) : Except Reject Instr :=
  if bitAt w 27 then
    if bitAt w 26 = false ∧ field w 14 12 = 0 then .ok (.dataHeader (bits w 0 14)) else .error .field
  else .ok (.blockHeader ⟨bitAt w 26, bitAt w 25, bits w 23 2, bits w 14 9, bits w 0 14⟩)

/-- The V48 opcodes (R58). -/
def vecRow (op : Nat) (f : VF) : Option Instr :=
  match op with
  | 0x00 => some (.vadd f)
  | 0x01 => some (.vsub f)
  | 0x02 => some (.vmul f)
  | 0x03 => some (.vfma f)
  | 0x04 => some (.vfms f)
  | 0x05 => some (.vfnma f)
  | 0x06 => some (.vmin f)
  | 0x07 => some (.vmax f)
  | 0x08 => some (.vabs f)
  | 0x09 => some (.vneg f)
  | 0x0A => some (.vdiv f)
  | 0x0B => some (.vsqrt f)
  | 0x0C => some (.vrsqrt f)
  | 0x0D => some (.vrcp f)
  | 0x0E => some (.vexp2 f)
  | 0x0F => some (.vlog2 f)
  | 0x10 => some (.viadd f)
  | 0x11 => some (.visub f)
  | 0x12 => some (.vimul f)
  | 0x13 => some (.vimulh f)
  | 0x14 => some (.vand f)
  | 0x15 => some (.vor f)
  | 0x16 => some (.vxor f)
  | 0x17 => some (.vshl f)
  | 0x18 => some (.vshr f)
  | 0x19 => some (.vsar f)
  | 0x1A => some (.vimin f)
  | 0x1B => some (.vimax f)
  | 0x20 => some (.vcmp f)
  | 0x21 => some (.vicmp f)
  | 0x22 => some (.pand f)
  | 0x23 => some (.por f)
  | 0x24 => some (.pxor f)
  | 0x25 => some (.pandn f)
  | 0x26 => some (.pnot f)
  | 0x27 => some (.pset f)
  | 0x28 => some (.vsum f)
  | 0x30 => some (.vmov f)
  | 0x31 => some (.vsel f)
  | 0x32 => some (.vbcast f)
  | 0x33 => some (.viota f)
  | 0x34 => some (.vperm f)
  | 0x35 => some (.vslide f)
  | 0x36 => some (.vline f)
  | 0x37 => some (.vputl f)
  | 0x38 => some (.vreduce f)
  | 0x40 => some (.vcvt f)
  | 0x41 => some (.vpackbx f)
  | 0x42 => some (.vunpkbx f)
  | 0x43 => some (.vseed f)
  | _ => none

/-- The L48 opcodes (R61). -/
def accessRow (op : Nat) (f : LF) : Option Instr :=
  match op with
  | 0x00 => some (.ldB f)
  | 0x01 => some (.ldH f)
  | 0x02 => some (.ldW f)
  | 0x03 => some (.ldD f)
  | 0x04 => some (.ldsB f)
  | 0x05 => some (.ldsH f)
  | 0x06 => some (.ldsW f)
  | 0x08 => some (.stB f)
  | 0x09 => some (.stH f)
  | 0x0A => some (.stW f)
  | 0x0B => some (.stD f)
  | 0x10 => some (.ldq f)
  | 0x11 => some (.ldqs f)
  | 0x12 => some (.stq f)
  | 0x13 => some (.stqs f)
  | 0x14 => some (.ldx f)
  | 0x15 => some (.ldtab f)
  | 0x16 => some (.ldm f)
  | 0x17 => some (.stm f)
  | 0x18 => some (.ldb f)
  | 0x20 => some (.xcopy f)
  | 0x21 => some (.pref f)
  | 0x22 => some (.probe f)
  | 0x23 => some (.prels f)
  | 0x24 => some (.pconv f)
  | 0x25 => some (.plnew f)
  | 0x26 => some (.plprot f)
  | 0x27 => some (.pldrop f)
  | 0x28 => some (.ksig f)
  | 0x29 => some (.ktake f)
  | 0x2A => some (.ktaket f)
  | 0x40 => some (.aadd f)
  | 0x41 => some (.afadd f)
  | 0x42 => some (.amin f)
  | 0x43 => some (.amax f)
  | 0x44 => some (.aand f)
  | 0x45 => some (.aor f)
  | 0x46 => some (.axor f)
  | 0x47 => some (.axchg f)
  | 0x48 => some (.acas f)
  | 0x49 => some (.ald f)
  | 0x4A => some (.ast f)
  | 0x50 => some (.abarm f)
  | 0x51 => some (.abwait f)
  | 0x52 => some (.evsig f)
  | 0x53 => some (.evwait f)
  | 0x54 => some (.evreset f)
  | 0x55 => some (.launch f)
  | 0x56 => some (.steal f)
  | 0x57 => some (.tstate f)
  | 0x58 => some (.bjoin f)
  | 0x59 => some (.bwait f)
  | 0x5A => some (.blog f)
  | 0x5B => some (.msend f)
  | 0x60 => some (.xgath f)
  | 0x61 => some (.xscat f)
  | 0x62 => some (.xnzs f)
  | 0x63 => some (.xhot f)
  | _ => none

/-- The X64 opcodes (R62). -/
def matRow (op : Nat) (f : XF) : Option Instr :=
  match op with
  | 0x00 => some (.mma f)
  | 0x01 => some (.mscale f)
  | 0x02 => some (.mzero f)
  | 0x03 => some (.mmov f)
  | 0x04 => some (.mstat f)
  | 0x05 => some (.mcheck f)
  | _ => none

/-- Take an instruction only if its fields are well formed. -/
def checked (i : Instr) : Except Reject Instr := if i.wf then .ok i else .error .field

/-- The fields of a V48 word (R57). -/
def vecFields (w : Nat) : VF :=
  ⟨bits w 29 7, bits w 22 7, bits w 14 8, bits w 9 5, bitAt w 8, bits w 4 4, bits w 0 4⟩

/-- The tail of an L48 word (R60). -/
def tailFields (w : Nat) : Tail :=
  ⟨bits w 13 3, bits w 5 8, bits w 3 2, bitAt w 2, bitAt w 1, bitAt w 0⟩

/-- The fields of an L48 word (R60). -/
def accessFields (w : Nat) : LF := ⟨bits w 31 5, bits w 26 5, bits w 16 10, tailFields w⟩

/-- The fields of an X64 word (R62). -/
def matFields (w : Nat) : XF :=
  ⟨bits w 48 4, bits w 46 2, bits w 42 4, bits w 40 2, bitAt w 39, bitAt w 38, bits w 32 6, bits w 24 8,
    bits w 16 8, bits w 12 4, bitAt w 11, bitAt w 10⟩

/-- V48: opcode in 43:36. -/
def decodeV48 (w : Nat) : Except Reject Instr :=
  match vecRow (field w 36 8) (vecFields w) with
  | some i => checked i
  | none => .error .opcode

/-- L48: opcode in 43:36. -/
def decodeL48 (w : Nat) : Except Reject Instr :=
  match accessRow (field w 36 8) (accessFields w) with
  | some i => checked i
  | none => .error .opcode

/-- X64: opcode in 59:52, bits 9:0 zero. -/
def decodeX64 (w : Nat) : Except Reject Instr :=
  match matRow (field w 52 8) (matFields w) with
  | some i => if field w 0 10 = 0 then checked i else .error .field
  | none => .error .opcode

/-- Decode the instruction word W of an instruction of `n` parcels, by the class its top bits give (R52). -/
def decodeWord (n w : Nat) : Except Reject Instr :=
  match n with
  | 1 => decodeC16 w
  | 2 => if field w 28 4 = 15 then decodeHeader w else decodeS32 w
  | 3 => if field w 44 4 = 12 then decodeV48 w else decodeL48 w
  | _ => decodeX64 w

/-- W from parcels: the first parcel highest (R52). -/
def wordOf : List Parcel → Nat
  | [] => 0
  | p :: ps => p.toNat * 2 ^ (16 * ps.length) + wordOf ps

/-- Decode the first instruction of a list of parcels. -/
def decodeParcels (ps : List Parcel) : Except Reject Instr :=
  match ps with
  | [] => .error .truncated
  | p :: _ =>
    let n := parcelCount p.toNat
    if ps.length < n then .error .truncated else decodeWord n (wordOf (ps.take n))

/-- The parcels of a byte image: each little-endian, at even offsets (R52). An odd last byte is no parcel. -/
def parcels : List Byte → List Parcel
  | lo :: hi :: bs => BitVec.ofNat 16 (hi.toNat * 256 + lo.toNat) :: parcels bs
  | _ => []

/-- Decode the first instruction of a code image. -/
def decode (bs : List Byte) : Except Reject Instr := decodeParcels (parcels bs)

/-! ### The encoder -/

/-- A C16 word (R53). -/
def encC (op : Nat) (d s : Reg) : Nat := op * 1024 + d.toNat * 32 + s.toNat
/-- An S32 R-form word (R55). -/
def encR (op : Nat) (d a b : Reg) (fn : Nat) : Nat :=
  0x80000000 + op * 2 ^ 22 + d.toNat * 2 ^ 17 + a.toNat * 2 ^ 12 + b.toNat * 2 ^ 7 + fn
/-- An S32 word of two register fields and 12 low bits (R55). -/
def encI (op : Nat) (d a : Reg) (imm : Nat) : Nat :=
  0x80000000 + op * 2 ^ 22 + d.toNat * 2 ^ 17 + a.toNat * 2 ^ 12 + imm
/-- An S32 S-form word (R55). -/
def encS (op : Nat) (d : Reg) (n : BitVec 17) : Nat := 0x80000000 + op * 2 ^ 22 + d.toNat * 2 ^ 17 + n.toNat
/-- A code header (R66). -/
def encH (h : Header) : Nat :=
  0xF0000000 + h.rot.toNat * 2 ^ 26 + h.inter.toNat * 2 ^ 25 + h.csrc.toNat * 2 ^ 23 + h.count.toNat * 2 ^ 14
    + h.len.toNat
/-- A V48 word (R57). -/
def encV (op : Nat) (f : VF) : Nat :=
  12 * 2 ^ 44 + op * 2 ^ 36 + f.d.toNat * 2 ^ 29 + f.a.toNat * 2 ^ 22 + f.b.toNat * 2 ^ 14 + f.pred.toNat * 2 ^ 9
    + f.inv.toNat * 2 ^ 8 + f.fmt.toNat * 2 ^ 4 + f.mod.toNat
/-- An ordering tail (R60). -/
def encTail (t : Tail) : Nat :=
  t.stream.toNat * 2 ^ 13 + t.mask.toNat * 2 ^ 5 + t.scope.toNat * 2 ^ 3 + t.acq.toNat * 4 + t.rel.toNat * 2
    + t.hint.toNat
/-- An L48 word (R60). -/
def encL (op : Nat) (f : LF) : Nat :=
  13 * 2 ^ 44 + op * 2 ^ 36 + f.x.toNat * 2 ^ 31 + f.y.toNat * 2 ^ 26 + f.z.toNat * 2 ^ 16 + encTail f.t
/-- An X64 word (R62). -/
def encX (op : Nat) (f : XF) : Nat :=
  14 * 2 ^ 60 + op * 2 ^ 52 + f.c.toNat * 2 ^ 48 + f.cg.toNat * 2 ^ 46 + f.a.toNat * 2 ^ 42 + f.ag.toNat * 2 ^ 40
    + f.tr.toNat * 2 ^ 39 + f.slot.toNat * 2 ^ 38 + f.m.toNat * 2 ^ 32 + f.k.toNat * 2 ^ 24 + f.n.toNat * 2 ^ 16
    + f.fmt.toNat * 2 ^ 12 + f.neg.toNat * 2 ^ 11 + f.nacc.toNat * 2 ^ 10

/-- The word of an instruction: its parcels and W (R52). A machine step has none. -/
def encodeWord : Instr → Option (Nat × Nat)
  | .nop => some (1, encC 0 0 0)
  | .mov d s => some (1, encC 1 d s)
  | .addC d s => some (1, encC 2 d s)
  | .subC d s => some (1, encC 3 d s)
  | .andC d s => some (1, encC 4 d s)
  | .orC d s => some (1, encC 5 d s)
  | .xorC d s => some (1, encC 6 d s)
  | .movk d s => some (1, encC 7 d s)
  | .addk d s => some (1, encC 8 d s)
  | .shlk d s => some (1, encC 9 d s)
  | .shrk d s => some (1, encC 10 d s)
  | .leave => some (1, encC 11 0 0)
  | .ret => some (1, encC 12 0 0)
  | .ypop d => some (1, encC 13 d 0)
  | .zpop d => some (1, encC 14 d 0)
  | .cput s => some (1, encC 15 0 s)
  | .cget d => some (1, encC 16 d 0)
  | .add d a b => some (2, encR 0x00 d a b 0)
  | .sub d a b => some (2, encR 0x01 d a b 0)
  | .mul d a b => some (2, encR 0x02 d a b 0)
  | .mulhs d a b => some (2, encR 0x03 d a b 0)
  | .mulhu d a b => some (2, encR 0x04 d a b 0)
  | .divs d a b => some (2, encR 0x05 d a b 0)
  | .divu d a b => some (2, encR 0x06 d a b 0)
  | .rems d a b => some (2, encR 0x07 d a b 0)
  | .remu d a b => some (2, encR 0x08 d a b 0)
  | .and d a b => some (2, encR 0x09 d a b 0)
  | .or d a b => some (2, encR 0x0A d a b 0)
  | .xor d a b => some (2, encR 0x0B d a b 0)
  | .andn d a b => some (2, encR 0x0C d a b 0)
  | .shl d a b => some (2, encR 0x0D d a b 0)
  | .shr d a b => some (2, encR 0x0E d a b 0)
  | .sar d a b => some (2, encR 0x0F d a b 0)
  | .rot d a b => some (2, encR 0x10 d a b 0)
  | .min d a b => some (2, encR 0x11 d a b 0)
  | .max d a b => some (2, encR 0x12 d a b 0)
  | .minu d a b => some (2, encR 0x13 d a b 0)
  | .maxu d a b => some (2, encR 0x14 d a b 0)
  | .slt d a b => some (2, encR 0x15 d a b 0)
  | .sltu d a b => some (2, encR 0x16 d a b 0)
  | .seq d a b => some (2, encR 0x17 d a b 0)
  | .sel d a b => some (2, encR 0x18 d a b 0)
  | .clz d a => some (2, encR 0x19 d a 0 0)
  | .ctz d a => some (2, encR 0x1A d a 0 0)
  | .popc d a => some (2, encR 0x1B d a 0 0)
  | .brev d a => some (2, encR 0x1C d a 0 0)
  | .extu d a wd lsb => some (2, encI 0x1D d a (wd.toNat * 64 + lsb.toNat))
  | .exts d a wd lsb => some (2, encI 0x1E d a (wd.toNat * 64 + lsb.toNat))
  | .ins d a wd lsb => some (2, encI 0x1F d a (wd.toNat * 64 + lsb.toNat))
  | .lea d a b sh => some (2, encR 0x20 d a b sh.toNat)
  | .addi d a n => some (2, encI 0x21 d a n.toNat)
  | .andi d a n => some (2, encI 0x22 d a n.toNat)
  | .ori d a n => some (2, encI 0x23 d a n.toNat)
  | .xori d a n => some (2, encI 0x24 d a n.toNat)
  | .shli d a n => some (2, encI 0x25 d a n.toNat)
  | .shri d a n => some (2, encI 0x26 d a n.toNat)
  | .sari d a n => some (2, encI 0x27 d a n.toNat)
  | .movi d n => some (2, encI 0x28 d 0 n.toNat)
  | .moviIc d n => some (2, encI 0x28 d 0 (2048 + n.toNat))
  | .movhi d a n => some (2, encI 0x29 d a n.toNat)
  | .slti d a n => some (2, encI 0x2A d a n.toNat)
  | .beq d a n => some (2, encI 0x40 d a n.toNat)
  | .bne d a n => some (2, encI 0x41 d a n.toNat)
  | .blt d a n => some (2, encI 0x42 d a n.toNat)
  | .bge d a n => some (2, encI 0x43 d a n.toNat)
  | .bltu d a n => some (2, encI 0x44 d a n.toNat)
  | .bgeu d a n => some (2, encI 0x45 d a n.toNat)
  | .br n => some (2, encI 0x46 0 0 n.toNat)
  | .brl n => some (2, encI 0x47 0 0 n.toNat)
  | .brx a => some (2, encI 0x48 0 a 0)
  | .skipz a n => some (2, encI 0x49 a 0 n.toNat)
  | .skipnz a n => some (2, encI 0x4A a 0 n.toNat)
  | .trap n => some (2, encS 0x60 0 n)
  | .rte => some (2, encS 0x61 0 0)
  | .mfs d n => some (2, encS 0x62 d n)
  | .mts d n => some (2, encS 0x63 d n)
  | .id d n => some (2, encS 0x64 d n)
  | .time d => some (2, encS 0x65 d 0)
  | .endtask => some (2, encS 0x66 0 0)
  | .cfread d n => some (2, encS 0x67 d n)
  | .blockHeader h => some (2, encH h)
  | .dataHeader n => some (2, 0xF8000000 + n.toNat)
  | .bodyEnd => none
  | .instructionFetch _ _ _ => none
  | .vadd f => some (3, encV 0x00 f)
  | .vsub f => some (3, encV 0x01 f)
  | .vmul f => some (3, encV 0x02 f)
  | .vfma f => some (3, encV 0x03 f)
  | .vfms f => some (3, encV 0x04 f)
  | .vfnma f => some (3, encV 0x05 f)
  | .vmin f => some (3, encV 0x06 f)
  | .vmax f => some (3, encV 0x07 f)
  | .vabs f => some (3, encV 0x08 f)
  | .vneg f => some (3, encV 0x09 f)
  | .vdiv f => some (3, encV 0x0A f)
  | .vsqrt f => some (3, encV 0x0B f)
  | .vrsqrt f => some (3, encV 0x0C f)
  | .vrcp f => some (3, encV 0x0D f)
  | .vexp2 f => some (3, encV 0x0E f)
  | .vlog2 f => some (3, encV 0x0F f)
  | .viadd f => some (3, encV 0x10 f)
  | .visub f => some (3, encV 0x11 f)
  | .vimul f => some (3, encV 0x12 f)
  | .vimulh f => some (3, encV 0x13 f)
  | .vand f => some (3, encV 0x14 f)
  | .vor f => some (3, encV 0x15 f)
  | .vxor f => some (3, encV 0x16 f)
  | .vshl f => some (3, encV 0x17 f)
  | .vshr f => some (3, encV 0x18 f)
  | .vsar f => some (3, encV 0x19 f)
  | .vimin f => some (3, encV 0x1A f)
  | .vimax f => some (3, encV 0x1B f)
  | .vcmp f => some (3, encV 0x20 f)
  | .vicmp f => some (3, encV 0x21 f)
  | .pand f => some (3, encV 0x22 f)
  | .por f => some (3, encV 0x23 f)
  | .pxor f => some (3, encV 0x24 f)
  | .pandn f => some (3, encV 0x25 f)
  | .pnot f => some (3, encV 0x26 f)
  | .pset f => some (3, encV 0x27 f)
  | .vsum f => some (3, encV 0x28 f)
  | .vmov f => some (3, encV 0x30 f)
  | .vsel f => some (3, encV 0x31 f)
  | .vbcast f => some (3, encV 0x32 f)
  | .viota f => some (3, encV 0x33 f)
  | .vperm f => some (3, encV 0x34 f)
  | .vslide f => some (3, encV 0x35 f)
  | .vline f => some (3, encV 0x36 f)
  | .vputl f => some (3, encV 0x37 f)
  | .vreduce f => some (3, encV 0x38 f)
  | .vcvt f => some (3, encV 0x40 f)
  | .vpackbx f => some (3, encV 0x41 f)
  | .vunpkbx f => some (3, encV 0x42 f)
  | .vseed f => some (3, encV 0x43 f)
  | .ldB f => some (3, encL 0x00 f)
  | .ldH f => some (3, encL 0x01 f)
  | .ldW f => some (3, encL 0x02 f)
  | .ldD f => some (3, encL 0x03 f)
  | .ldsB f => some (3, encL 0x04 f)
  | .ldsH f => some (3, encL 0x05 f)
  | .ldsW f => some (3, encL 0x06 f)
  | .stB f => some (3, encL 0x08 f)
  | .stH f => some (3, encL 0x09 f)
  | .stW f => some (3, encL 0x0A f)
  | .stD f => some (3, encL 0x0B f)
  | .ldq f => some (3, encL 0x10 f)
  | .ldqs f => some (3, encL 0x11 f)
  | .stq f => some (3, encL 0x12 f)
  | .stqs f => some (3, encL 0x13 f)
  | .ldx f => some (3, encL 0x14 f)
  | .ldtab f => some (3, encL 0x15 f)
  | .ldm f => some (3, encL 0x16 f)
  | .stm f => some (3, encL 0x17 f)
  | .ldb f => some (3, encL 0x18 f)
  | .xcopy f => some (3, encL 0x20 f)
  | .pref f => some (3, encL 0x21 f)
  | .probe f => some (3, encL 0x22 f)
  | .prels f => some (3, encL 0x23 f)
  | .pconv f => some (3, encL 0x24 f)
  | .plnew f => some (3, encL 0x25 f)
  | .plprot f => some (3, encL 0x26 f)
  | .pldrop f => some (3, encL 0x27 f)
  | .ksig f => some (3, encL 0x28 f)
  | .ktake f => some (3, encL 0x29 f)
  | .ktaket f => some (3, encL 0x2A f)
  | .aadd f => some (3, encL 0x40 f)
  | .afadd f => some (3, encL 0x41 f)
  | .amin f => some (3, encL 0x42 f)
  | .amax f => some (3, encL 0x43 f)
  | .aand f => some (3, encL 0x44 f)
  | .aor f => some (3, encL 0x45 f)
  | .axor f => some (3, encL 0x46 f)
  | .axchg f => some (3, encL 0x47 f)
  | .acas f => some (3, encL 0x48 f)
  | .ald f => some (3, encL 0x49 f)
  | .ast f => some (3, encL 0x4A f)
  | .abarm f => some (3, encL 0x50 f)
  | .abwait f => some (3, encL 0x51 f)
  | .evsig f => some (3, encL 0x52 f)
  | .evwait f => some (3, encL 0x53 f)
  | .evreset f => some (3, encL 0x54 f)
  | .launch f => some (3, encL 0x55 f)
  | .steal f => some (3, encL 0x56 f)
  | .tstate f => some (3, encL 0x57 f)
  | .bjoin f => some (3, encL 0x58 f)
  | .bwait f => some (3, encL 0x59 f)
  | .blog f => some (3, encL 0x5A f)
  | .msend f => some (3, encL 0x5B f)
  | .xgath f => some (3, encL 0x60 f)
  | .xscat f => some (3, encL 0x61 f)
  | .xnzs f => some (3, encL 0x62 f)
  | .xhot f => some (3, encL 0x63 f)
  | .mma f => some (4, encX 0x00 f)
  | .mscale f => some (4, encX 0x01 f)
  | .mzero f => some (4, encX 0x02 f)
  | .mmov f => some (4, encX 0x03 f)
  | .mstat f => some (4, encX 0x04 f)
  | .mcheck f => some (4, encX 0x05 f)
  | .resultLanding _ => none
  | .mmaDrain _ _ => none
  | .operationPerform _ _ _ _ => none
  | .writePropagate _ => none
  | .engineCommandStart _ _ _ _ => none
  | .engineElementAccess _ _ _ _ _ => none
  | .engineCommandComplete _ _ _ _ => none
  | .heldSignalDelivery _ _ => none
  | .waitTimeout _ _ _ => none
  | .bivouacEntry _ => none
  | .hostWrite _ _ _ _ _ => none
  | .hostRead _ _ _ _ _ => none
  | .doorbellWrite _ _ _ _ => none
  | .queueSlotMap _ => none
  | .quantumBoundary _ => none
  | .launchAccept _ _ => none
  | .taskDispatch _ _ _ _ => none
  | .fillTaskAging _ _ => none
  | .taskComplete _ _ => none
  | .taskWatchdog _ _ => none
  | .sliceEnd _ => none
  | .launchCancel _ _ => none
  | .queueDisable _ => none
  | .stealLost _ _ _ => none
  | .stolenTaskEnd _ _ => none
  | .scratchpadZeroing _ => none
  | .frameAllocate _ _ _ => none
  | .pageIn _ _ _ _ => none
  | .tableBuild _ _ _ => none
  | .frameMove _ _ _ _ => none
  | .leaseOffer _ _ _ _ _ _ _ => none
  | .leaseAccept _ _ => none
  | .leaseDecline _ _ => none
  | .leaseOfferTimeout _ => none
  | .leaseRelease _ _ => none
  | .leaseReclaim _ _ => none
  | .evictionHandshake _ _ _ => none
  | .leaseAcknowledge _ _ => none
  | .firstWindowEnd _ => none
  | .secondWindowEnd _ _ => none
  | .revokedLeaseFree _ => none
  | .forwardedAccess _ _ _ _ _ => none
  | .avdexRequest _ _ _ _ _ => none
  | .fabricRequesterTimeout _ _ _ => none
  | .flitReplay _ _ => none
  | .avdexLinkRetrain _ _ _ => none
  | .linkRekey _ => none
  | .partitionDescriptorWrite _ _ => none
  | .partitionWriteEffect _ => none
  | .tenantControlWordWrite _ _ => none
  | .wayRegisterWrite _ _ => none
  | .portPartitionTableWrite _ _ _ => none
  | .getTdispVersion _ => none
  | .getTdispCapabilities _ => none
  | .lockInterface _ => none
  | .getDeviceInterfaceReport _ => none
  | .getDeviceInterfaceState _ => none
  | .startInterface _ => none
  | .stopInterface _ => none
  | .tdispError _ _ => none
  | .ideKm _ _ _ => none
  | .spdmRequest _ _ => none
  | .tenantRemoval _ => none
  | .managementMessage _ => none
  | .firmwareUpdateWrite _ => none
  | .powerLimitWrite _ => none
  | .registerWrite _ _ => none
  | .powerOn => none
  | .deviceReset => none
  | .bringUpStageComplete _ _ => none
  | .bringUpStageTimeout _ => none
  | .supplyDroop _ => none
  | .dieOverTemperature _ => none
  | .thermalTrip _ => none
  | .hbmLinkError _ _ => none
  | .hbmChannelRetrain _ _ => none
  | .memoryErrorReread _ _ _ _ _ => none
  | .cacheLineRefetch _ _ _ _ _ => none
  | .patrolStep _ => none
  | .patrolPassStart => none
  | .queueRung _ => none
  | .contextRung _ _ _ => none
  | .engineRung _ => none
  | .partitionRung _ => none
  | .deviceRung => none
  | .rungComplete _ => none
  | .rungTimeout _ => none
  | .sliceStart _ => none
  | .tenantTableChange _ _ => none
  | .powerLimitHold _ => none
  | .dieTemperatureRecovery _ => none

/-- The `n` parcels of a word, first parcel first. -/
def splitWord : Nat → Nat → List Parcel
  | 0, _ => []
  | n + 1, w => bits w (16 * n) 16 :: splitWord n w

/-- The parcels of an instruction, first to last; none for a machine step. -/
def encode (i : Instr) : List Parcel :=
  match encodeWord i with
  | some (n, w) => splitWord n w
  | none => []

/-- Parcels as the code image stores them (R52). -/
def codeBytes (ps : List Parcel) : List Byte := ps.flatMap (fun p => [bits p.toNat 0 8, bits p.toNat 8 8])

/-- The parcels of a table row's word: the opcode table numbers W with the first parcel highest (R52). Parcels the
row gives no bits read as zero. -/
def tableParcels (nbits w : Nat) : List Parcel := splitWord ((nbits + 15) / 16) w ++ [0, 0, 0]

/-- The instruction the decoder reads from a word numbered as the opcode table numbers it. -/
def decodeTableWord (nbits w : Nat) : Option Instr := (decode (codeBytes (tableParcels nbits w))).toOption

end Sys2Proof
end

