-- ==== Sys2Proof/Machine/State.lean ====
section
/-! DEFINITION. The state of the machine as plain data, and the state after reset. -/

namespace Sys2Proof.Machine

/-! ### Contexts -/

/-- Whether a context issues: not started, running, stopped at a trap, or ended (R36, R219). -/
inductive Run where
  | idle | running | trapped | ended
  deriving DecidableEq, Repr, Inhabited

/-- One loop stack entry (R38, R67). `len` is the LENGTH of the header it came from. -/
structure LoopEntry where
  header : BitVec 32 := 0
  remain : BitVec 24 := 0
  rot    : Bool := false
  inter  : Bool := false
  leave  : Bool := false
  len    : BitVec 14 := 0
  deriving DecidableEq, Repr, Inhabited

/-- An element of an engine command's nest (R123): not checked yet; not checked, with the index or source element it needs read;
checked, with the place its index names; read, its bytes held in the engine; moved. -/
inductive Elem where
  | todo
  | index (n : Nat)
  | at (p : Nat)
  | got (p : Nat) (b : List Byte)
  | done
  deriving DecidableEq, Repr, Inhabited

/-- A copy fault on its way to its record (R258): the cause, the side, the faulting address, the level indices and the
plane entry the walk reached. -/
structure FaultInfo where
  cause : Nat := 0
  side  : Nat := 0
  addr  : Word := 0
  idx   : List Nat := []
  entry : Word := 0
  deriving DecidableEq, Repr, Inhabited

/-- Where one byte of an access lies: at a location, nowhere (a zero of R156), or at an address of another device under a lease,
with the plane entry that names it. -/
inductive Byte1 where
  | at (loc : Nat)
  | zero
  | remote (dev lease addr entry : Nat)
  deriving DecidableEq, Repr, Inhabited

/-- A request that has been sent to another device (R160): the elements it is for, the device, lease and address it names, whether it
is an access to a line and whether it writes, the time it was sent (R209), and its answer. -/
structure Fwd where
  keys  : List Nat := [0]
  dev   : Nat
  lease : Nat
  addr  : Nat
  line  : Bool := true
  wr    : Bool := false
  sent  : Nat
  ans   : Answer := .none
  deriving DecidableEq, Repr, Inhabited

/-- What an engine holds of one started command (R123, R257, R317). -/
structure Eng where
  /-- The record as read at the start. -/
  record  : List Byte := []
  /-- Elements of the nest. -/
  total   : Nat := 0
  /-- How many elements have passed their page checks, in nest order. -/
  checked : Nat := 0
  elems   : Tab Elem := []
  /-- Live elements found by `XNZS` (R319). -/
  live    : Nat := 0
  /-- Whether `XNZS` has pushed its count. -/
  pushed  : Bool := false
  /-- Hot-expert causes of `XHOT` not yet placed (R320). -/
  hot     : List Word := []
  /-- A fault held before its record is written (R258). -/
  fault   : Option FaultInfo := none
  deriving DecidableEq, Repr, Inhabited

/-- How far an ordering operation is: issued, started (an engine command), or performed (R120, R123). -/
inductive OpSt where
  | issued | started | done
  deriving DecidableEq, Repr, Inhabited

/-- An issued ordering operation (R116, R120). -/
structure Op where
  id    : Nat := 0
  /-- The opcode W[43:36]. -/
  code  : Nat := 0
  f     : LF := {}
  /-- Parcel offset of the instruction. -/
  pc    : Word := 0
  /-- G(W[35:31]), G(W[30:26]) and the entry's third register, as read at issue. -/
  x     : Word := 0
  y     : Word := 0
  z     : Word := 0
  /-- The general register its performance writes. -/
  dst   : Option Nat := none
  st    : OpSt := .issued
  /-- It has left its stream (R120 step 4). -/
  retired : Bool := false
  /-- The scope it acts at: that of its tail, or the wider one its entry gives. -/
  scope : Nat := 0
  /-- The writes it took its value from and the writes it made, by number in the coherence log. -/
  took  : List Nat := []
  wrote : List Nat := []
  /-- The outcome of a wait that a signal has woken, or of a join that was counted (R148, R313). -/
  woken : Option Word := none
  /-- An engine command that waits for one of the 64 parked pages to be released (R158). -/
  pageWait : Bool := false
  /-- The time from which its timeout runs, and whether its condition has been met by the end of it (R161). -/
  since : Option Nat := none
  met   : Bool := false
  /-- Of an access that is made in parts (R129), by element: each byte read, its location and the write it was taken from; and what
  is still to be written, each cell with its unit. -/
  got   : List (Nat × Nat × Nat × Byte) := []
  left  : List (Nat × List (Host.Cell × Nat)) := []
  /-- The lines for which its accesses have advanced ACC, by the first byte's line (R50). -/
  counted : List Nat := []
  /-- The places of accesses that have gone to other devices, by element, and the requests (R160). -/
  away  : List (Nat × List Byte1) := []
  lines : List Fwd := []
  /-- The load-queue entry it reserved (R250). -/
  tag   : Nat := 0
  /-- The store-queue entry it took, or the expander table it copied (R250, R251). -/
  data  : List Byte := []
  eng   : Eng := {}
  deriving DecidableEq, Repr, Inhabited

/-- One sequencer context (R26, R34). -/
structure Ctx where
  run      : Run := .idle
  /-- The next fetch is at an entry offset, which must hold a block header (R68). -/
  atEntry  : Bool := false
  pc       : Word := 0
  /-- General registers; `g0` is never listed as anything but zero. -/
  g        : Tab Word := []
  /-- Loop stack, innermost first, at most four (R67). -/
  loops    : List LoopEntry := []
  /-- Rotation base rb (R71). -/
  rb       : BitVec 5 := 0
  /-- Issued operations in program order, kept until they are performed in every instance. -/
  ops      : List Op := []
  nextOp   : Nat := 0
  /-- For a location, the latest write the context has read from it or performed to it (R122). -/
  seen     : Tab Nat := []
  /-- HINTDROP (R37). -/
  hintDrop : Word := 0
  /-- The operation that holds the context's issue: a check step (R248), or a `KTAKE` of the compute sequencer (R121). -/
  hold     : Option Nat := none
  /-- A parked fetch that has performed: its parcel offset and parcels (R217). -/
  fetched  : Option (Word × List Parcel) := none
  /-- A branch target whose header has to be fetched apart, and that header once it is (R68, R217). -/
  want     : Option Word := none
  ahead    : Option (Word × List Parcel) := none
  /-- The fetch's requests to another device (R160, R217). -/
  lines    : List Fwd := []
  deriving DecidableEq, Repr, Inhabited

/-! ### Cores -/

/-- A write that a result makes when it lands (R73). -/
inductive LWrite where
  /-- The lanes of a vector register that the result writes. -/
  | vec (r : Nat) (lanes : List (Nat × Lane))
  /-- A predicate register, in the bits of the mask. -/
  | pred (r : Nat) (mask val : Word)
  /-- A reserved store-queue entry. -/
  | store (q tag : Nat) (data : List Byte)
  /-- A reserved `zq` entry. -/
  | sum (tag : Nat) (val : Lane)
  /-- Matrix elements, by element key. -/
  | elems (cells : List (Nat × Lane))
  /-- Tile status bits set in a matrix register (R30, R109). -/
  | status (r : Nat) (bits : Lane)
  /-- A matrix register and its status word cleared (R296). -/
  | clear (r : Nat)
  deriving DecidableEq, Repr, Inhabited

/-- A result in flight (R73): the slot it lands in, the weight slot its instruction reads, whether it is an `MMA` or
`MSCALE` drain, the checksum failures it has met (R111), and what it writes. -/
structure Landing where
  due    : Nat := 0
  slot   : Option Nat := none
  drain  : Bool := false
  /-- Some group of an `MMA` is checked: every element of A and B in it is finite (R111). -/
  checked : Bool := false
  /-- First register and number of the accumulator group of a drain. -/
  acc    : Nat := 0
  group  : Nat := 0
  fails  : Nat := 0
  writes : List LWrite := []
  deriving DecidableEq, Repr, Inhabited

/-- The last `MMA`, if an `MMA` on the same accumulator would chain to it, and the elements of the group as it leaves them (R105,
R292). -/
structure Chain where
  acc   : Nat := 0
  group : Nat := 0
  cells : Tab Lane := []
  deriving DecidableEq, Repr, Inhabited

/-- A queue entry: its reservation number, and its bytes once filled (R31, R250). -/
structure QEntry where
  tag  : Nat := 0
  data : Option (List Byte) := none
  deriving DecidableEq, Repr, Inhabited

/-- A summary-queue entry (R278). -/
structure ZEntry where
  tag : Nat := 0
  val : Option Lane := none
  deriving DecidableEq, Repr, Inhabited

/-- A push that waits for room in a token queue (R33). -/
inductive TokenWait where
  | ksig (x : CtxId) (op : Nat)
  /-- A completion signal held by the index engine, or by the copy engine. -/
  | engine (index : Bool)
  deriving DecidableEq, Repr, Inhabited

/-- A token queue: its count, and the waiting pushes, oldest first (R33). -/
structure TokenQ where
  count   : Nat := 0
  waiting : List TokenWait := []
  deriving DecidableEq, Repr, Inhabited

/-- An async barrier (R305). -/
structure ABar where
  target : Nat := 0
  arr    : Nat := 0
  ph     : Bool := false
  deriving DecidableEq, Repr, Inhabited

/-- A probe tag table entry (R42). -/
structure ProbeSlot where
  valid : Bool := false
  pin   : Bool := false
  fill  : Bool := false
  tag   : BitVec 59 := 0
  deriving DecidableEq, Repr, Inhabited

/-- A bivouac cause in the pending queue (R36): the cause code, the sequencer, TRAPINFO, the TRAPPC of a trap, the handler
offset that a message names (R316), and the fault number of a copy fault's record (R258). -/
structure Pending where
  cause   : Nat := 0
  seq     : Nat := 0
  info    : Word := 0
  pc      : Word := 0
  handler : Option Word := none
  record  : Nat := 0
  deriving DecidableEq, Repr, Inhabited

/-- The trap frame (R35, R37). -/
structure Frame where
  cause   : Nat := 0
  seq     : Nat := 0
  pc      : Word := 0
  info    : Word := 0
  /-- LOOPSTATE0 to LOOPSTATE3, outermost first. -/
  loops   : Tab Word := []
  rotbase : Word := 0
  streams : Word := 0
  /-- The fault number of the record of a copy fault that is handled (R258). -/
  record  : Nat := 0
  deriving DecidableEq, Repr, Inhabited

/-- One core. -/
structure Core where
  /-- The dispatch the core belongs to, 0 when idle, and the core's team rank (R27, R141). -/
  team   : Nat := 0
  rank   : Nat := 0
  /-- The tenant whose task the core last ran, and whether the scratchpad has been zeroed since (R180). -/
  lastVf : Option Nat := none
  clean  : Bool := true
  ctl    : Ctx := {}
  ld     : Ctx := {}
  cmp    : Ctx := {}
  st     : Ctx := {}
  biv    : Ctx := {}
  /-- Lanes of `v0` to `v63`: key 64 * register + lane (R28). -/
  v      : Tab Lane := []
  /-- `p1` to `p31` (R28). -/
  p      : Tab Word := []
  /-- Elements of `m0` to `m15`: key 4096 * register + 64 * row + column (R28). -/
  m      : Tab Lane := []
  /-- Tile status words (R30). -/
  tstat  : Tab Lane := []
  /-- Weight slots: key 65536 * slot + 256 * k + n (R28). -/
  w      : Tab Lane := []
  /-- Token queues, load, store, parameter, reply and summary queues, async barriers (R31). -/
  k      : Tab TokenQ := []
  lq     : Tab (List QEntry) := []
  sq     : Tab (List QEntry) := []
  cq     : List Word := []
  yq     : List Word := []
  zq     : List ZEntry := []
  nextTag : Nat := 0
  ab     : Tab ABar := []
  /-- The codebook expander table (R251). -/
  table  : List Byte := []
  /-- Stochastic state of each lane (R94). -/
  sr     : Tab Lane := []
  frame  : Frame := {}
  /-- The pending queue, oldest first (R36), and the HOLD bits of STATUS (R37). -/
  pend   : List Pending := []
  hotHold : Bool := false
  demHold : Bool := false
  msgHold : Bool := false
  /-- Demotion events posted that found the pending queue full, oldest first (R164, R36). -/
  demWait : List Word := []
  /-- FAULTLOG, the fault sequence number, and the record buffer: fault number and bytes (R258). -/
  faultLog : Word := 0
  faultSeq : Nat := 0
  records  : List (Nat × List Byte) := []
  logRecord : Option (List Byte) := none
  /-- Probe slots: P, the tag table, and the slots by recency, least recent first (R166, R167). -/
  probeP : Nat := 0
  probe  : Tab ProbeSlot := []
  recent : List Nat := []
  /-- The next issue slot, the results in flight in issue order, the first slot free of matrix occupancy, the chain, the
  fence of R112, and the core withdrawn by R211. -/
  slot   : Nat := 0
  flight : List Landing := []
  occEnd : Nat := 0
  chain  : Option Chain := none
  fenced : Bool := false
  /-- The compute sequencer's pipeline is frozen by a stall (R73); an X64 instruction waits for the matrix occupancy to end, slot by
  slot (R105). -/
  frozen : Bool := false
  waits  : Bool := false
  withdrawn : Bool := false
  /-- The arithmetic-clock cycle of the dispatch (R37). -/
  start  : Nat := 0
  deriving DecidableEq, Repr, Inhabited

/-! ### Memory -/

/-- A write in the coherence log that is not yet performed in every instance (R118): its number, its bytes, the core that
issued it, and the widest instance it is performed in: 0 the core, 1 the group, 2 the device and so the system (R127). -/
structure WEntry where
  seq   : Nat
  cells : List Host.Cell
  core  : Nat
  level : Nat
  deriving DecidableEq, Repr, Inhabited

/-- An access parked on a plane entry: who waits, where, whether it writes, and whether firmware found no frame for it, so
that it becomes a copy fault when it is next treated (R156 to R158). `refused` is the device and the lease of a write that the
home device has refused (R163). -/
structure Park where
  core  : Option Nat
  vf    : Nat
  va    : Word
  write : Bool
  out   : Bool := false
  refused : Option (Nat × Nat) := none
  deriving DecidableEq, Repr, Inhabited

/-- A frame taken from a tenant's allotment: its first byte, its lines, its tenant, its tier, and whether it holds a translation table
or a PFR (R157). -/
structure FrameRec where
  addr   : Nat
  len    : Nat
  vf     : Nat
  second : Bool
  table  : Bool := false
  deriving DecidableEq, Repr, Inhabited

/-- A counter block (R186): the domain it is held under and its key version, in the order versions were made; MAJOR and the MINORs; its
reserved bits; and in what the TAG held differs from the one that what it covers has. -/
structure Counters where
  dom   : Nat := 0
  ver   : Nat := 0
  major : Nat := 0
  minor : Tab Nat := []
  reserved : Nat := 0
  tagDiff  : BitVec 56 := 0
  deriving DecidableEq, Repr, Inhabited

/-- A key domain's versions (R206): the number of the newest, and of the oldest that is held. `held` is false once the keys
have been destroyed. -/
structure Domain where
  newest : Nat := 0
  oldest : Nat := 0
  held   : Bool := true
  deriving DecidableEq, Repr, Inhabited

/-- A line of the memory-side cache (R11, R189): its way, its 4 KiB-aligned address, its key domain, the 64-byte sectors that are
filled, and those of them that are dirty. -/
structure CacheLine where
  way    : Nat
  addr   : Nat
  dom    : Nat
  filled : List Nat
  dirty  : List Nat
  deriving DecidableEq, Repr, Inhabited

/-- A move of R159 that has set its entry PAGED: the page and the frame it leaves. -/
structure Move where
  vf   : Nat
  va   : Word
  old  : Word
  deriving DecidableEq, Repr, Inhabited

/-! ### Work -/

/-- A task taken from another device (R309, R310): the owner, and the record bytes and launch fields read in the
swap, the state word and its generation among them. -/
structure Stolen where
  owner  : Nat
  bytes  : List Byte
  widths : List Nat
  cls    : Nat
  urgent : Bool
  deriving DecidableEq, Repr, Inhabited

/-- A launch waiting in a work queue to be read: its header's address, the header bytes where a `LAUNCH` has read them, or
a stolen task. -/
structure QItem where
  va     : Word := 0
  bytes  : Option (List Byte) := none
  stolen : Option Stolen := none
  deriving DecidableEq, Repr, Inhabited

/-- A work queue's state (R145). -/
inductive QueueSt where
  | empty | pending | mapped
  deriving DecidableEq, Repr, Inhabited

/-- One work queue (R145): its function, class and enable, its state, the unread launches, the place in its rotation, and
the first full quantum it is mapped in. -/
structure WorkQueue where
  vf      : Option Nat := none
  cls     : Nat := 2
  enabled : Bool := false
  st      : QueueSt := .empty
  unread  : List QItem := []
  /-- Launches that were unread when the queue was disabled: their tasks are cancelled when they have been read (R139, R145). -/
  doomed  : List QItem := []
  turn    : Nat := 0
  mapped  : Nat := 0
  deriving DecidableEq, Repr, Inhabited

/-- A launch in flight (R134, R135). -/
structure Launch where
  id      : Nat := 0
  vf      : Nat := 0
  queue   : Nat := 0
  table   : Word := 0
  count   : Nat := 0
  widths  : List Nat := []
  cls     : Nat := 2
  urgent  : Bool := false
  event   : Nat := 0
  stolen  : Option Stolen := none
  deriving DecidableEq, Repr, Inhabited

/-- What the dispatcher knows of a record (R138, R139). -/
inductive TaskSt where
  | waiting | ready | running | away | ignored
  /-- The machine still owes the record a change from STATE `old` to FAILED or CANCELLED: its page has not been reached. -/
  | owed (old new cause : Nat)
  | counted (ok : Bool)
  deriving DecidableEq, Repr, Inhabited

/-- A task of a launch in flight. -/
structure Tk where
  launch  : Nat := 0
  idx     : Nat := 0
  addr    : Word := 0
  st      : TaskSt := .waiting
  /-- When it became READY, and whether it is an aged fill task (R142). -/
  readyAt : Nat := 0
  aged    : Bool := false
  /-- The group scheduler the dispatcher has handed it to (R142). -/
  group   : Option Nat := none
  /-- For a stolen record: when it was seen stolen (R153). -/
  since   : Nat := 0
  /-- Class (R135, R136) and team size, as read when it became READY. -/
  cls     : Nat := 2
  size    : Nat := 1
  /-- The signal events its record named when it was last read. -/
  sigs    : List Nat := []
  deriving DecidableEq, Repr, Inhabited

/-- A team that runs a task (R141): the record bytes as read, the launch's widths, the cores by rank, and the start. -/
structure Team where
  vf     : Nat := 0
  queue  : Nat := 0
  launch : Nat := 0
  idx    : Nat := 0
  addr   : Word := 0
  bytes  : List Byte := []
  widths : List Nat := []
  cores  : List Nat := []
  start  : Nat := 0
  stolen : Option Stolen := none
  /-- The cause of a stolen task that has ended or may not start, whose record is not yet FAILED (R153, R310). -/
  failed : Option Nat := none
  deriving DecidableEq, Repr, Inhabited

/-- Who waits on an event (R147). -/
inductive Waiter where
  | op (c : Nat) (x : CtxId) (id : Nat)
  | task (launch idx : Nat)
  deriving DecidableEq, Repr, Inhabited

/-- A named event (R147). -/
structure Event where
  target : Nat := 1
  count  : Nat := 0
  failed : Bool := false
  slots  : List Waiter := []
  chain  : List Waiter := []
  deriving DecidableEq, Repr, Inhabited

/-- Who joins a barrier of this device: an operation of a core, or another device (R312, R313). -/
inductive Joiner where
  | op (c : Nat) (x : CtxId) (id : Nat)
  | away (dev : Nat)
  deriving DecidableEq, Repr, Inhabited

/-- A join held at this device until the current episode ends (R313). -/
structure HeldJoin where
  who  : Joiner
  base : Nat
  m  : Nat
  deriving DecidableEq, Repr, Inhabited

/-! ### Tenants, partitions, leases -/

/-- TDISP interface states (R182). -/
inductive TdispSt where
  | unlocked | locked | run | error
  deriving DecidableEq, Repr, Inhabited

/-- A host access in its function's link order (R13, R176): a write, or what is left of one from a byte of the element at its address
on; a read, or a doorbell with the header it names. -/
inductive HostAcc where
  | write (va : Word) (off : Nat) (b : List Byte)
  | read (va : Word) (n : Nat)
  | bell (q : Nat) (header : Word)
  deriving DecidableEq, Repr, Inhabited

/-- One virtual function and its tenant. -/
structure Tenant where
  /-- The tenant control word (R178). -/
  word      : Word := 0
  /-- Whether the hypervisor runs the function under TDISP, its state, and its IDE stream (R181, R182). -/
  tdispOn   : Bool := false
  tdisp     : TdispSt := .unlocked
  stopping  : Bool := false
  ide       : Nat := 0
  /-- Where its descriptor table lies, once firmware has given it one (R44), and whether in the second tier; its fault area as a plane
  address and in device memory, and the area's next slot (R258). -/
  tableBase : Option Nat := none
  tableSecond : Bool := false
  faultArea : Word := 0
  faultBase : Option Nat := none
  faultSlot : Nat := 0
  /-- Waiters its event overflow area has room for (R148). -/
  chainRoom : Nat := 0
  /-- Lines of its allotments (R157). -/
  mainAllot   : Nat := 0
  secondAllot : Nat := 0
  /-- Whether its slice runs (R149), and its fill age in ns (R142). -/
  slice     : Bool := false
  fillAge   : Nat := 20000000
  /-- Discarded doorbells and writes (R17, R176), the held host accesses in link order, the error counters by class (R197). -/
  lostBells  : Nat := 0
  lostWrites : Nat := 0
  held       : List HostAcc := []
  /-- The places and the requests to other devices of the first of them (R160). -/
  away       : List Byte1 := []
  lines      : List Fwd := []
  errs       : Tab Nat := []
  deriving DecidableEq, Repr, Inhabited

/-- A partition descriptor and a write held until no task runs (R177). -/
structure Partition where
  desc : PartDesc := {}
  held : Option PartDesc := none
  deriving DecidableEq, Repr, Inhabited

/-- The states of a lease (R162, R163). -/
inductive LeaseSt where
  | free | offered | active | reclaiming | frozen | revoked
  deriving DecidableEq, Repr, Inhabited

/-- A lease-table entry (R162). `peer` is the function whose data frames it lends in place, if it does (R324, log 101). -/
structure Lease where
  st       : LeaseSt := .free
  borrower : Nat := 0
  deadline : Nat := 0
  rdonly   : Bool := false
  base     : Nat := 0
  len      : Nat := 0
  since    : Nat := 0
  peer     : Option Nat := none
  deriving DecidableEq, Repr, Inhabited

/-- A borrow-table entry (R162): the lease, its state, the lent range at the lender, and the FTID whose tenant's frames it holds, 0 for
a range that is no tenant's (log 101). -/
structure Borrow where
  lender : Nat
  lease  : Nat
  st     : LeaseSt
  base   : Nat := 0
  len    : Nat := 0
  ftid   : Nat := 0
  /-- Constellations of which a page has been moved since the reclaim notice: function and index (R164). -/
  moved  : List (Nat × Nat) := []
  deriving DecidableEq, Repr, Inhabited

/-! ### Recovery and the module -/

/-- An error record (R198). -/
structure ErrRec where
  cls      : Nat := 0
  outcome  : Nat := 0
  rung     : Nat := 0
  die      : Nat := 0
  vf       : Nat := 0
  resource : Nat := 0
  time     : Nat := 0
  count    : Nat := 0
  deriving DecidableEq, Repr, Inhabited

/-- A rung of the reset ladder in action (R199, R200): 1 queue, 2 context, 3 engine, 4 partition, 5 device; the queue,
partition or team it acts on; the cores; its start; the class (0 for none), die, tenant, resource, time and count of the error that
started it; the outcome its record gives (R198); the tasks it ends; and whether the engines' self-tests have run. -/
structure Rung where
  kind   : Nat := 0
  target : Nat := 0
  cores  : List Nat := []
  start  : Nat := 0
  cls    : Nat := 0
  die    : Nat := 0
  vf     : Option Nat := none
  res    : Nat := 0
  at_    : Nat := 0
  count  : Nat := 0
  outcome : Nat := 1
  tasks  : List (Nat × Nat) := []
  tested : Bool := false
  deriving DecidableEq, Repr, Inhabited

/-- An Avdex port (R190, R191, R210): the tags its table permits, its failed replays of one flit, retraining, fence, and how
often its link has been rekeyed. -/
structure Port where
  permit  : List Nat := []
  fails   : Nat := 0
  retrain : Bool := false
  fenced  : Bool := false
  rekeys  : Nat := 0
  deriving DecidableEq, Repr, Inhabited

/-- An HBM channel (R202). -/
structure Channel where
  fails   : Nat := 0
  retrain : Bool := false
  fenced  : Bool := false
  deriving DecidableEq, Repr, Inhabited

/-- What the SPDM responders work with (R184): the signature and the key exchange over the brainpool 384-bit random-prime curve, the
hash, and the cipher. -/
inductive SpdmAlg where
  | ecdsaBrainpool384 | sha384 | dheBrainpool384 | aes256Gcm
  deriving DecidableEq, Repr, Inhabited

/-- The SPDM responders' capabilities (R184). -/
inductive SpdmCap where
  | cert | chal | measSigned | keyExchange | encrypt | authenticate
  deriving DecidableEq, Repr, Inhabited

/-- The messages of the lease protocol (R162 to R164). -/
inductive LeaseMsg where
  /-- An offer: the deadline, whether it is read-only, the range in blocks of 4 KiB, and the FTID of the tenant whose frames it lends in
  place, 0 for none. -/
  | offer (deadline : Nat) (rdonly : Bool) (base len ftid : Nat)
  | answer (accept : Bool)
  | released
  | reclaim
  | ack
  | lost
  deriving DecidableEq, Repr, Inhabited

/-- What the machine has sent out: completions to hosts, answers and notices to other devices, replies of the responders. -/
inductive Msg where
  | hostData (vf : Nat) (b : List Byte)
  | hostUnsupported (vf : Nat)
  | hostAbort (vf : Nat)
  | answer (dev : Nat) (a : Answer)
  | refusedAt (port tag : Nat)
  | accepted (port tag : Nat)
  | transit (port tag : Nat)
  /-- A request to another device: the port it leaves by, the device, the partition tag and FTID it carries (R190, R334). -/
  | request (port dev tag ftid : Nat) (r : FabricRequest)
  /-- A message of the lease protocol to another device, by a port (R163): it carries tag 0 (log 102). -/
  | lease (port dev lease : Nat) (m : LeaseMsg)
  | tdispVersion (vf : Nat)
  | tdispCapabilities (vf : Nat)
  | tdispState (vf : Nat) (st : TdispSt)
  | tdispReport (vf : Nat) (word : Word) (part : PartDesc) (ways : List (Nat × Lane)) (shared : List Nat)
  | tdispDone (vf : Nat) (accepted : Bool)
  | ide (stream : Nat) (req : IdeReq)
  | spdmVersions (die : Nat) (v : List Nat)
  | spdmCapabilities (die : Nat) (c : List SpdmCap)
  | spdmAlgorithms (die : Nat) (a : List SpdmAlg)
  | spdmCertificate (die slot : Nat)
  | spdmChallenge (die slot : Nat)
  /-- A measurement and its signature under the die's identity key. -/
  | spdmMeasurement (die index : Nat) (content : List Nat) (signature : Nat)
  | spdmSession (die : Nat) (isOpen : Bool)
  | spdmError (die : Nat)
  | devstat (w : Lane)
  | report (cause : BitVec 16)
  /-- A notice to the hypervisor: a frame has been retired (R203), or a core withdrawn (R211). -/
  | frameRetired (addr : Nat)
  | coreWithdrawn (core : Nat)
  deriving DecidableEq, Repr, Inhabited

/-- The module outside its cores and work: bring-up, power and cooling, firmware (R20 to R25), timers and settings. -/
structure Module where
  stage     : Nat := 0
  errcode   : BitVec 16 := 0
  stageAt   : Nat := 0
  /-- The host link has come up (stage 1), and the Avdex links have been trained (stage 5) since the last restart (R20). -/
  hostLink  : Bool := false
  avdexLink : Bool := false
  /-- A power limit holds the clock down; the dies over 105 °C; groups whose clock is stretched (R18, R24, R25). -/
  powerHold : Bool := false
  hotDies   : List Nat := []
  stretched : List Nat := []
  powerLimit : Nat := 3200
  /-- The image that runs, its security version, an update waiting for the next reset, the fused minimum (R21). -/
  image     : FwImage := ⟨0, true⟩
  update    : Option FwImage := none
  fuseMin   : Nat := 0
  /-- Identity keys derived (R20 stage 2); dies whose key exchange awaits its finish, and open SPDM sessions (R184). -/
  identity  : Bool := false
  exchanged : List Nat := []
  sessions  : List Nat := []
  /-- Quantum, fabric requester timeout in ns, and patrol bound in hours (R145, R209, R205). -/
  quantum   : Nat := 100000
  fabricTimeout : Nat := 50000000
  patrolBound : Nat := 8
  /-- The bound of bring-up stage 6 in ns, if the driver has set one (R20). -/
  stageBound : Option Nat := none
  /-- The device's id in the fabric domain. -/
  devId     : Nat := 0
  /-- The management processor's non-volatile log (R200). -/
  nvLog     : List ErrRec := []
  deriving DecidableEq, Repr, Inhabited

/-- The patrol (R205, R206): whether a pass runs, its next counter block, the newest version of each domain when it
started, and the corrected errors of each frame in the pass. -/
structure Patrol where
  running : Bool := false
  next    : Nat := 0
  target  : Tab Nat := []
  correct : Tab Nat := []
  deriving DecidableEq, Repr, Inhabited

/-! ### The machine -/

/-- One choice of what the machine does next (R115): a context issues, or a machine step happens. -/
inductive Turn where
  | issue (c : Nat) (x : CtxId)
  /-- An issue slot of a core's compute sequencer elapses in which nothing issues (R73). -/
  | idle (c : Nat)
  /-- A performed operation leaves its stream (R120 step 4). -/
  | retire (c : Nat) (x : CtxId) (id : Nat)
  /-- The dispatcher hands a READY task to a group scheduler (R142). -/
  | hand (launch idx group : Nat)
  | event (i : Instr)
  deriving DecidableEq, Repr, Inhabited

/-- The state of the machine. -/
structure State where
  /-- The model's own: the turns the machine takes next, and the context that issues when none is listed. -/
  agenda  : List Turn := []
  core    : Nat := 0
  ctx     : CtxId := .ctl
  /-- The model's own: how many steps the machine has taken, and how many of them with no turn listed. -/
  steps   : Nat := 0
  idle    : Nat := 0
  /-- The device timer in ns (R19), and the arithmetic clock (R18). -/
  time    : Nat := 0
  cycles  : Nat := 0
  /-- Device memory and scratchpads as performed in every instance, and the writes that are not yet (R118). -/
  mem     : Memory := []
  log     : List WEntry := []
  nextSeq : Nat := 1
  cores   : Tab Core := []
  parks   : List Park := []
  frames  : List FrameRec := []
  /-- Frames of shared key domains: first byte, bytes, and the shared domain that firmware recorded (R185). -/
  shared  : List (Nat × Nat × Nat) := []
  /-- Retired frames: first byte and bytes (R203). -/
  retired : List (Nat × Nat) := []
  /-- The first bytes of the shared and retired frames that lie in the second tier (R15). -/
  second  : List Nat := []
  moves   : List Move := []
  counters : Tab Counters := []
  /-- The counters of the tree over the counter blocks (R186): key 2^40 * level + child; level 0 counts the blocks, level 6 the topmost
  nodes, on die. -/
  nodes   : Tab Nat := []
  /-- Reserved bits of a node, and in what the TAG held differs from the one that what it covers has: key 2^40 * level + node (R186). -/
  nodeMarks : Tab (Nat × BitVec 56) := []
  domains : Tab Domain := []
  cache   : List CacheLine := []
  /-- Lines whose newest copy is lost or fails its check for good (R203, R204). -/
  badLines : List Nat := []
  patrol  : Patrol := {}
  queues  : Tab WorkQueue := []
  /-- The rotation: the next place to give out, the quantum's number and the time it began, and the tenant each class's rotation
  served last (R145). -/
  nextTurn : Nat := 0
  quantumNo : Nat := 0
  quantumAt : Nat := 0
  lastVf  : Tab Nat := []
  launches : List Launch := []
  nextLaunch : Nat := 0
  tasks   : List Tk := []
  /-- The tasks for which a group reserves cores, each with the time it became READY: key 32 * partition + group (R142). -/
  reserved : Tab (List (Nat × Nat × Nat)) := []
  teams   : Tab Team := []
  nextTeam : Nat := 1
  events  : Tab Event := []
  joins   : List HeldJoin := []
  /-- Join times of the current episode of a barrier: key base address + member (R313). -/
  tjoin   : Tab Nat := []
  tenants : Tab Tenant := []
  parts   : Tab Partition := []
  /-- The sixteen way registers (R188). -/
  ways    : Tab Lane := []
  leases  : Tab Lease := []
  borrows : List Borrow := []
  ports   : Tab Port := []
  /-- The ports by which requests to a device leave: the first that is not fenced (R190, R210). -/
  routes  : Tab (List Nat) := []
  channels : Tab Channel := []
  /-- Error counters: key 16 * die + class (R197); the ring and its next index (R198). -/
  errs    : Tab Nat := []
  ring    : Tab ErrRec := []
  ringNext : Nat := 0
  rungs   : List Rung := []
  module  : Module := {}
  out     : List Msg := []
  deriving DecidableEq, Repr, Inhabited

/-- The machine right after power-on: bring-up stage 0, no tenant, no partition, no work, memory with nothing listed. -/
def State.reset : State := {}

/-! ### How a step stops -/

/-- Why the machine stops. Both stops are safe: the hardware has no state there for a claim to be about. -/
inductive Fault where
  /-- A plane entry or a table names a device-memory line beyond the 36-bit line addresses of R186: no memory is there.
  Raised by any access through such an entry. Safe. -/
  | noSuchFrame
  deriving DecidableEq, Repr, Inhabited

/-- Why an instruction is refused. -/
inductive Refusal where
  /-- The instruction has no meaning in the model yet. Raised by Dispatch alone. Safe. -/
  | notModelled (mnemonic : String)
  deriving DecidableEq, Repr, Inhabited

end Sys2Proof.Machine
end

