-- ==== Sys2Proof/Machine/Regs.lean ====
section
/-! DEFINITION. The one home of each piece of state: how it is read and written. Hard-wired registers act here. -/

namespace Sys2Proof.Machine

/-- Core `c`. -/
def State.coreAt (s : State) (c : Nat) : Core := s.cores.get {} c
/-- Put core `c`. -/
def State.setCore (s : State) (c : Nat) (k : Core) : State := { s with cores := s.cores.set c k }

/-- A context of a core. -/
def Core.ctxOf (k : Core) : CtxId → Ctx
  | .ctl => k.ctl
  | .ld => k.ld
  | .cmp => k.cmp
  | .st => k.st
  | .biv => k.biv

/-- Put a context of a core. -/
def Core.setCtx (k : Core) (x : CtxId) (v : Ctx) : Core :=
  match x with
  | .ctl => { k with ctl := v }
  | .ld => { k with ld := v }
  | .cmp => { k with cmp := v }
  | .st => { k with st := v }
  | .biv => { k with biv := v }

/-- Context `x` of core `c`. -/
def State.ctxAt (s : State) (c : Nat) (x : CtxId) : Ctx := (s.coreAt c).ctxOf x
/-- Put context `x` of core `c`. -/
def State.setCtx (s : State) (c : Nat) (x : CtxId) (v : Ctx) : State :=
  s.setCore c ((s.coreAt c).setCtx x v)

/-- The core whose context issues. -/
def State.curCore (s : State) : Core := s.coreAt s.core
/-- Put the core whose context issues. -/
def State.setCurCore (s : State) (k : Core) : State := s.setCore s.core k
/-- The context that issues. -/
def State.cur (s : State) : Ctx := s.ctxAt s.core s.ctx
/-- Put the context that issues. -/
def State.setCur (s : State) (v : Ctx) : State := s.setCtx s.core s.ctx v

/-- General register `n`; `g0` reads zero (R26). -/
def Ctx.reg (k : Ctx) (n : Nat) : Word := if n = 0 then 0 else k.g.get 0 n
/-- Write general register `n`; a write to `g0` is ignored (R26). -/
def Ctx.setReg (k : Ctx) (n : Nat) (v : Word) : Ctx := if n = 0 then k else { k with g := k.g.set n v }

/-- `G(n)` of the context that issues (R214). -/
def State.G (s : State) (n : Reg) : Word := s.cur.reg n.toNat
/-- `G(n) := v` in the context that issues (R214). -/
def State.setG (s : State) (n : Reg) (v : Word) : State := s.setCur (s.cur.setReg n.toNat v)

/-- Predicate register `n`; `p0` reads all ones (R28). -/
def Core.pred (k : Core) (n : Nat) : Word := if n = 0 then BitVec.allOnes 64 else k.p.get 0 n
/-- Write the masked bits of predicate register `n`; a write to `p0` is discarded (R28). -/
def Core.setPred (k : Core) (n : Nat) (mask v : Word) : Core :=
  if n = 0 then k else { k with p := k.p.set n ((k.p.get 0 n &&& ~~~mask) ||| (v &&& mask)) }

/-- Lane `i` of vector register `r`. -/
def Core.lane (k : Core) (r i : Nat) : Lane := k.v.get 0 (64 * r + i)
/-- The 64 lanes of vector register `r`. -/
def Core.lanes (k : Core) (r : Nat) : List Lane := (List.range 64).map (k.lane r)
/-- Write lanes of vector register `r`. -/
def Core.setLanes (k : Core) (r : Nat) (ls : List (Nat × Lane)) : Core :=
  { k with v := k.v.setAll (ls.map (fun e => (64 * r + e.1, e.2))) }

/-- The key of element m[i][j] of matrix register `r`. -/
def elemKey (r i j : Nat) : Nat := 4096 * r + 64 * i + j
/-- Element m[i][j] of matrix register `r`. -/
def Core.elem (k : Core) (r i j : Nat) : Lane := k.m.get 0 (elemKey r i j)
/-- The key of B(k, n) of a weight slot. -/
def slotKey (slot k n : Nat) : Nat := 65536 * slot + 256 * k + n

/-- Token queue `n` (R33). -/
def Core.tokens (k : Core) (n : Nat) : TokenQ := k.k.get {} n
/-- Put token queue `n`. -/
def Core.setTokens (k : Core) (n : Nat) (q : TokenQ) : Core := { k with k := k.k.set n q }
/-- Load queue `n` (R31). -/
def Core.loadQ (k : Core) (n : Nat) : List QEntry := k.lq.get [] n
/-- Put load queue `n`. -/
def Core.setLoadQ (k : Core) (n : Nat) (q : List QEntry) : Core := { k with lq := k.lq.set n q }
/-- Store queue `n` (R31). -/
def Core.storeQ (k : Core) (n : Nat) : List QEntry := k.sq.get [] n
/-- Put store queue `n`. -/
def Core.setStoreQ (k : Core) (n : Nat) (q : List QEntry) : Core := { k with sq := k.sq.set n q }
/-- Async barrier `n` (R305). -/
def Core.abar (k : Core) (n : Nat) : ABar := k.ab.get {} n
/-- Put async barrier `n`. -/
def Core.setAbar (k : Core) (n : Nat) (b : ABar) : Core := { k with ab := k.ab.set n b }
/-- Probe tag table entry `n` (R42). -/
def Core.slotAt (k : Core) (n : Nat) : ProbeSlot := k.probe.get {} n
/-- Put probe tag table entry `n`. -/
def Core.setSlot (k : Core) (n : Nat) (v : ProbeSlot) : Core := { k with probe := k.probe.set n v }

/-- Tenant `v`. -/
def State.tenant (s : State) (v : Nat) : Tenant := s.tenants.get {} v
/-- Put tenant `v`. -/
def State.setTenant (s : State) (v : Nat) (t : Tenant) : State := { s with tenants := s.tenants.set v t }
/-- EN of the tenant control word (R178). -/
def Tenant.en (t : Tenant) : Bool := bitAt t.word.toNat 16
/-- PART of the tenant control word (R178). -/
def Tenant.part (t : Tenant) : Nat := field t.word.toNat 42 6
/-- FTID of the tenant control word (R178, R334). -/
def Tenant.ftid (t : Tenant) : Nat := field t.word.toNat 26 16
/-- WAYS of the tenant control word (R178). -/
def Tenant.ways (t : Tenant) : Nat := field t.word.toNat 0 16
/-- SHMASK of the tenant control word (R178). -/
def Tenant.shmask (t : Tenant) : Nat := field t.word.toNat 48 16

/-- Partition `n` (R177). -/
def State.part (s : State) (n : Nat) : Partition := s.parts.get {} n
/-- Put partition `n`. -/
def State.setPart (s : State) (n : Nat) (p : Partition) : State := { s with parts := s.parts.set n p }
/-- The descriptor is valid. -/
def PartDesc.valid (d : PartDesc) : Bool := bitAt d.flags.toNat 0
/-- The partition holds core `c`. -/
def PartDesc.has (d : PartDesc) (c : Nat) : Bool := bitAt d.cores.toNat c

/-- Work queue `q` (R145). -/
def State.queue (s : State) (q : Nat) : WorkQueue := s.queues.get {} q
/-- Put work queue `q`. -/
def State.setQueue (s : State) (q : Nat) (w : WorkQueue) : State := { s with queues := s.queues.set q w }
/-- The team of dispatch `t`. -/
def State.teamAt (s : State) (t : Nat) : Team := s.teams.get {} t
/-- The address a host access names; none for a doorbell. -/
def HostAcc.va : HostAcc → Option Word
  | .write va _ _ => some va
  | .read va _ => some va
  | .bell _ _ => none
/-- The team core `c` belongs to. -/
def State.teamOf (s : State) (c : Nat) : Team := s.teamAt (s.coreAt c).team
/-- Event `name` of tenant `v` (R147). -/
def State.event (s : State) (v name : Nat) : Event := s.events.get {} (65536 * v + name)
/-- Put event `name` of tenant `v`. -/
def State.setEvent (s : State) (v name : Nat) (e : Event) : State :=
  { s with events := s.events.set (65536 * v + name) e }
/-- Lease `l` of this device's lease table (R162). -/
def State.lease (s : State) (l : Nat) : Lease := s.leases.get {} l
/-- Put lease `l`. A change of state records its time (R162). -/
def State.setLease (s : State) (l : Nat) (e : Lease) : State := { s with leases := s.leases.set l e }
/-- Port `n`. -/
def State.port (s : State) (n : Nat) : Port := s.ports.get {} n
/-- Put port `n`. -/
def State.setPort (s : State) (n : Nat) (p : Port) : State := { s with ports := s.ports.set n p }
/-- Way register `w` (R188). -/
def State.way (s : State) (w : Nat) : Lane := s.ways.get 0 w
/-- A way register's EXCL. -/
def wayExcl (r : Lane) : Bool := bitAt r.toNat 10
/-- A way register's OWNER. -/
def wayOwner (r : Lane) : Nat := field r.toNat 0 10
/-- Send a message out. -/
def State.send (s : State) (m : Msg) : State := { s with out := s.out ++ [m] }

/-! ### Task record fields (R136) -/

/-- The `n` bytes at offset `o` of a list, as a number. -/
def leAt (bs : List Byte) (o n : Nat) : Nat := leNat ((bs.drop o).take n)

/-- Code constellation address. -/
def Team.code (t : Team) : Word := BitVec.ofNat 64 (leAt t.bytes 8 8)
/-- The plane address of the code image: plane 0 of the code constellation (R79, R217). -/
def Team.image (t : Team) : Word := BitVec.ofNat 64 (t.code.toNat % 2 ^ 60)
/-- Entry offset `i`: 0 control, 1 load, 2 compute, 3 store. -/
def Team.entry (t : Team) (i : Nat) : Word := BitVec.ofNat 64 (leAt t.bytes (16 + 4 * i) 4)
/-- Parameter block address. -/
def Team.param (t : Team) : Word := BitVec.ofNat 64 (leAt t.bytes 32 8)
/-- Vector allocation code (R29). -/
def Team.valloc (t : Team) : Nat := leAt t.bytes 54 1
/-- Matrix allocation code (R29). -/
def Team.malloc (t : Team) : Nat := leAt t.bytes 55 1
/-- Work identifier (R140). -/
def Team.work (t : Team) : Word := BitVec.ofNat 64 (leAt t.bytes 56 8)
/-- Fault handler offset. -/
def Team.handler (t : Team) : Word := BitVec.ofNat 64 (leAt t.bytes 64 4)
/-- Maximum duration in ns (R144). -/
def Team.maxNs (t : Team) : Nat := 1000 * leAt t.bytes 68 4
/-- Team size (R141). -/
def Team.size (t : Team) : Nat := t.cores.length
/-- The two signal-event names. -/
def signalNames (bytes : List Byte) : List Nat := [leAt bytes 48 2, leAt bytes 50 2]
/-- The four wait-event names. -/
def waitNames (bytes : List Byte) : List Nat :=
  [leAt bytes 40 2, leAt bytes 42 2, leAt bytes 44 2, leAt bytes 46 2]

end Sys2Proof.Machine
end

