-- ==== Sys2Proof/Machine/Memory.lean ====
section
/-! DEFINITION. Locations, the scratchpad windows, and the coherence order: which write a read takes, and how a write
performs and propagates (R40, R118 to R122, R126 to R129). -/

namespace Sys2Proof.Machine

/-! ### Locations: device memory by physical byte address, scratchpads above it. -/

/-- The location of byte `a` of core `c`'s scratchpad. -/
def scratchLoc (c a : Nat) : Nat := 2 ^ 56 + c * 2 ^ 21 + a

/-- Whether a scratchpad address names the peer window (R40). -/
def isPeer (a : Nat) : Bool := 0x10000000 ≤ a

/-- The location of the first of `n` bytes at scratchpad address `a`, as core `c` names it, if all lie in one window of
R40. -/
def State.scratch (s : State) (c a n : Nat) : Option Nat :=
  if a < 0x10000000 then
    if a + n ≤ Config.scratchBytes then some (scratchLoc c a) else none
  else
    let rank := (a - 0x10000000) / 0x200000
    let off := (a - 0x10000000) % 0x200000
    match (s.teamOf c).cores[rank]? with
    | some c' => if off + n ≤ Config.scratchBytes then some (scratchLoc c' off) else none
    | none => none

/-- The scope a scratchpad access has: a peer access at core scope acts at group scope (R40). -/
def scratchScope (a scope : Nat) : Nat := if isPeer a ∧ scope = 0 then 1 else scope

/-! ### The coherence order (R118) -/

/-- The byte a logged write gives to a location. -/
def WEntry.byteAt (e : WEntry) (a : Nat) : Option Byte := e.cells.lookup a

/-- Whether the write is performed in the `scope`-instance of core `c` (R117, R118). -/
def WEntry.performedIn (e : WEntry) (c scope : Nat) : Bool :=
  2 ≤ e.level || (scope ≤ 1 && e.level == 1 && e.core / Config.groupCores == c / Config.groupCores)
    || (scope == 0 && e.core == c)

/-- Whether the write is visible to core `c`'s contexts (R118). -/
def WEntry.visible (e : WEntry) (c : Nat) : Bool := e.performedIn c 0

/-- The latest write to location `a` in a list of logged writes that a test accepts: its number and its byte. -/
def latest (test : WEntry → Bool) (a : Nat) : List WEntry → Option (Nat × Byte)
  | [] => none
  | e :: r =>
    match latest test a r with
    | some p => some p
    | none => if test e then (e.byteAt a).map (fun b => (e.seq, b)) else none

/-- Image(device, a), which is the system image of a location of this device (R118, R127). -/
def State.image (s : State) (a : Nat) : Byte :=
  match latest (fun e => 2 ≤ e.level) a s.log with
  | some (_, b) => b
  | none => s.mem.read a

/-- `n` bytes of the device image. -/
def State.imageBytes (s : State) (a : Nat) : Nat → List Byte
  | 0 => []
  | n + 1 => s.image a :: State.imageBytes s (a + 1) n

/-- Image of a location in the `scope`-instance of core `c`: its number in the log, 0 if none there, and its byte. -/
def State.imageIn (s : State) (c scope a : Nat) : Nat × Byte :=
  match latest (fun e => e.performedIn c scope) a s.log with
  | some p => p
  | none => (0, s.mem.read a)

/-- The number of the earliest write to a location that a read may take (R122): not before the image of its scope's instance, nor
before what its context has read or performed there. -/
def State.readFloor (s : State) (c : Nat) (x : CtxId) (scope a : Nat) : Nat :=
  max (s.imageIn c scope a).1 ((s.ctxAt c x).seen.get 0 a)

/-- A location as it stands after the writes numbered up to `n`, of those visible to core `c`: the write, and its byte. -/
def State.byteUpTo (s : State) (c n a : Nat) : Nat × Byte :=
  match latest (fun e => e.visible c && decide (e.seq ≤ n)) a s.log with
  | some p => p
  | none => (0, s.mem.read a)

/-- What a read takes of locations that are one single-copy atomic unit (R122, R129): all of them as they stand at one point of the
coherence order, which is not before the floor of any. `cut` says how many of the newest writes the point leaves out, where the
floors let it. -/
def State.readUnit (s : State) (c : Nat) (x : CtxId) (scope cut : Nat) (ls : List Nat) : List (Nat × Byte) :=
  let n := ls.foldl (fun n a => max n (s.readFloor c x scope a)) (s.nextSeq - 1 - cut)
  ls.map (s.byteUpTo c n)

/-- Whether a location is device memory. -/
def isDevice (a : Nat) : Bool := a < 2 ^ 56

/-- The place from which no access of one unit goes on: the bank row of a scratchpad location, the line of one in device memory
(R129). -/
def rowOf (a : Nat) : Nat := if isDevice a then a / 64 else a / 32

/-- The units of an access of at most 8 bytes (R129): one for its bytes in a row, whatever its alignment, named by the aligned 8 bytes,
counted from location 0, that hold the first of them. -/
def smallUnits : Option (Nat × Nat) → List Nat → List Nat
  | _, [] => []
  | p, a :: r =>
    let u := match p with
      | some (b, u) => if a = b + 1 ∧ rowOf a = rowOf b then u else a / 8
      | none => a / 8
    u :: smallUnits (some (a, u)) r

/-- The unit that each location of an access lies in (R129, log 10): a wider access is atomic per aligned 8 bytes. -/
def unitKeys (ls : List Nat) : List Nat := if ls.length ≤ 8 then smallUnits none ls else ls.map (· / 8)

/-- The locations of an access, each with its unit. -/
def withUnits (ls : List Nat) : List (Nat × Nat) := ls.zip (unitKeys ls)

/-- Runs of locations in one unit each. -/
def unitRuns : List (Nat × Nat) → List (List Nat)
  | [] => []
  | [a] => [[a.1]]
  | a :: b :: r =>
    match unitRuns (b :: r) with
    | p :: ps => if a.2 = b.2 then (a.1 :: p) :: ps else [a.1] :: p :: ps
    | [] => [[a.1]]

/-- Runs are read one after another, each with a cut of its own. -/
def State.readRuns (s : State) (c : Nat) (x : CtxId) (scope : Nat) : List Nat → List (List Nat) → List (Nat × Byte)
  | _, [] => []
  | cuts, l :: r => s.readUnit c x scope (cuts.headD 0) l ++ State.readRuns s c x scope cuts.tail r

/-- The bytes that a read of context `x` of core `c` takes from locations in units, each with the number of its write. -/
def State.readUnits (s : State) (c : Nat) (x : CtxId) (scope : Nat) (cuts : List Nat) (us : List (Nat × Nat)) : List (Nat × Byte) :=
  if s.log.isEmpty then us.map (fun a => (0, s.mem.read a.1)) else s.readRuns c x scope cuts (unitRuns us)

/-- What one access takes from its locations. -/
def State.readLocs (s : State) (c : Nat) (x : CtxId) (scope : Nat) (cuts ls : List Nat) : List (Nat × Byte) :=
  s.readUnits c x scope cuts (withUnits ls)

/-- The latest write to a location in its coherence order, whatever it has reached (R118, R129): its number, 0 if none is in the log, and
its byte. -/
def State.newestAt (s : State) (a : Nat) : Nat × Byte := (latest (fun _ => true) a s.log).getD (0, s.mem.read a)
/-- Its byte. -/
def State.newest (s : State) (a : Nat) : Byte := (s.newestAt a).2

/-- Consecutive numbers from `a`. -/
def span (a n : Nat) : List Nat := (List.range n).map (a + ·)

/-- A floor rises to a write, and never falls (R122). -/
def raiseFloors (t : Tab Nat) : List (Nat × Nat) → Tab Nat
  | [] => t
  | (a, n) :: r => raiseFloors (if t.get 0 a < n then t.set a n else t) r

/-- Keep as the context's floor the writes it has read or performed (R122). A settled write needs no floor. -/
def State.note (s : State) (c : Nat) (x : CtxId) (es : List (Nat × Nat)) : State :=
  if s.log.isEmpty then s
  else
    let k := s.ctxAt c x
    s.setCtx c x { k with seen := raiseFloors k.seen es }

/-- The numbers of the writes that a read took, without those of memory as it stands. -/
def tookOf (r : List (Nat × Byte)) : List Nat := ((r.map (·.1)).filter (· != 0)).dedup

/-- Note a read of locations. -/
def State.noteRead (s : State) (c : Nat) (x : CtxId) (ls : List Nat) (r : List (Nat × Byte)) : State :=
  s.note c x (ls.zip (r.map (·.1)))

/-- Fold the writes at the head of the log that are performed in every instance into memory. -/
def settleLog : List WEntry → Memory → List WEntry × Memory
  | [], m => ([], m)
  | e :: r, m => if 2 ≤ e.level then settleLog r (m.writeAll e.cells) else (e :: r, m)

/-- Settle the log. -/
def State.settle (s : State) : State :=
  let p := settleLog s.log s.mem
  { s with log := p.1, mem := p.2 }

/-- Cut cells, each with its unit, into the parts that are single-copy atomic (R129): none goes beyond a bank row or a line. -/
def cutParts : List (Host.Cell × Nat) → List (List Host.Cell)
  | [] => []
  | [c] => [[c.1]]
  | c :: d :: r =>
    match cutParts (d :: r) with
    | p :: ps => if c.2 = d.2 ∧ c.1.1 < d.1.1 ∧ rowOf c.1.1 = rowOf d.1.1 then (c.1 :: p) :: ps else [c.1] :: p :: ps
    | [] => [[c.1]]

/-- The cells of an access, each with its unit. -/
def cellUnits (cells : List Host.Cell) : List (Host.Cell × Nat) := cells.zip (unitKeys (cells.map (·.1)))

/-- The single-copy atomic parts of the write of one access. -/
def atomicParts (cells : List Host.Cell) : List (List Host.Cell) := cutParts (cellUnits cells)

/-! ### Counter blocks (R186, R206) -/

/-- The key domain that a device-memory location has been given (R185): the shared domain recorded for its frame, the lease it is
lent under, or the tenant whose frame it is in. A frame lent in place stays in its tenant's domain (log 101). -/
def State.heldDomain (s : State) (a : Nat) : Option Nat :=
  match s.shared.find? (fun e => decide (e.1 ≤ a) && decide (a < e.1 + e.2.1)) with
  | some e => some (1025 + e.2.2)
  | none =>
    match s.leases.find? (fun e => e.2.st != .free && e.2.peer.isNone && decide (4096 * e.2.base ≤ a)
        && decide (a < 4096 * (e.2.base + e.2.len))) with
    | some e => some (1041 + e.1)
    | none => (s.frames.find? (fun f => decide (f.addr ≤ a) && decide (a < f.addr + 64 * f.len))).map (fun f => f.vf + 1)

/-- The key domain of a device-memory location: that it has been given, or firmware's own. -/
def State.domainOf (s : State) (a : Nat) : Nat := (s.heldDomain a).getD 0

/-- An access that presents key domain `p` passes the tag check of a location: the location is held under that domain (R185, R186). -/
def State.keyFits (s : State) (a p : Nat) : Bool := s.domainOf a == p

/-- A block's VER: its version modulo 4 (R206). -/
def Counters.verField (b : Counters) : Nat := b.ver % 4

/-- The counter of a child of a tree node (R186). -/
def State.node (s : State) (level child : Nat) : Nat := s.nodes.get 0 (2 ^ 40 * level + child)

/-- TAG of a counter block under its parent counter (R186): its reset value while nothing has written the block, then what the machine
writes with what it covers, where `tagDiff` leaves it so. -/
def State.blockTag (s : State) (k : Nat) : BitVec 56 :=
  match s.counters.lookup k with
  | none => 0
  | some b => Config.tag b.ver (b.major :: (List.range 32).map (b.minor.get 0)) (s.node 0 k) ^^^ b.tagDiff
/-- The reserved bits and the TAG difference of the node that holds the counters of eight children of a level. -/
def State.nodeMark (s : State) (level n : Nat) : Nat × BitVec 56 := s.nodeMarks.get (0, 0) (2 ^ 40 * level + n)
/-- TAG of a node. -/
def State.nodeTag (s : State) (level n : Nat) : BitVec 56 :=
  Config.tag 0 ((List.range 8).map (fun j => s.node level (8 * n + j))) (s.node (level + 1) n) ^^^ (s.nodeMark level n).2

/-- A block's own check fails, or that of a node over it, up to the counters on die: reserved bits are set, or the TAG does not match
(R186). -/
def State.blockFails (s : State) (k : Nat) : Bool :=
  let b : Counters := s.counters.get {} k
  b.reserved != 0 || b.tagDiff != 0 || (!s.nodeMarks.isEmpty && (List.range 6).any (fun l => s.nodeMark l (k / 8 ^ (l + 1)) != (0, 0)))

/-- A read of a location under domain `p` fails for good: its newest copy is lost or fails its check, the domain is another, or its
counters fail theirs (R186, R203, R204). -/
def State.lineFails (s : State) (a p : Nat) : Bool := s.badLines.contains (a / 64) || !s.keyFits a p || s.blockFails (a / 2048)

/-- Every node from a counter block up to the counters on die counts one more change of what it covers (R186). -/
def State.bumpPath (s : State) (k : Nat) : State :=
  { s with nodes := (List.range 7).foldl (fun t l => t.set (2 ^ 40 * l + k / 8 ^ l) (t.get 0 (2 ^ 40 * l + k / 8 ^ l) + 1)) s.nodes }

/-- The block moves, its counters zero, to the newest version of its domain, or to a new one where it holds that (R206). -/
def State.rekeyBlock (s : State) (k : Nat) : State :=
  let b : Counters := s.counters.get {} k
  let n : Domain := s.domains.get {} b.dom
  let v := if b.ver < n.newest then n.newest else n.newest + 1
  { s with counters := s.counters.set k { b with ver := v, major := 0, minor := [] },
           domains := s.domains.set b.dom { n with newest := v } }

/-- The highest level at which the counter over a block is at its maximum (R206). -/
def State.fullNode (s : State) (k : Nat) : Option Nat :=
  if s.nodes.isEmpty then none
  else (List.range 7).reverse.find? (fun l => decide (2 ^ 56 - 1 ≤ s.node l (k / 8 ^ l)))

/-- Every block below the node that holds a full counter is rekeyed, and the counters of the node and below start again (R206). -/
def State.rekeyUnder (s : State) (k level : Nat) : State :=
  let n := 8 ^ (level + 1)
  let first := k / n * n
  let s1 := (List.range n).foldl (fun u i => u.rekeyBlock (first + i)) s
  { s1 with nodes := s1.nodes.filter (fun e => decide (level < e.1 / 2 ^ 40) || e.1 % 2 ^ 40 / 8 ^ (level - e.1 / 2 ^ 40 + 1) != k / n) }

/-- A block that is rekeyed would need a fifth version (R206): it holds the newest of its domain, of which four are held. -/
def State.noVersion (s : State) (k : Nat) : Bool :=
  let b : Counters := s.counters.get {} k
  let n : Domain := s.domains.get {} b.dom
  decide (n.newest ≤ b.ver) && decide (3 ≤ n.newest - n.oldest)

/-- The block's own counters of line `i` are spent: MINOR and MAJOR are at their maximum (R206). -/
def State.blockSpent (s : State) (k i : Nat) : Bool :=
  let b : Counters := s.counters.get {} k
  b.minor.get 0 i == 4095 && b.major + 1 == 2 ^ 48

/-- A node over a block is full, and a block below the highest such node would need a fifth version. -/
def State.nodeWaits (s : State) (k : Nat) : Bool :=
  match s.fullNode k with
  | some l => (List.range (8 ^ (l + 1))).any (fun i => s.noVersion (k / 8 ^ (l + 1) * 8 ^ (l + 1) + i))
  | none => false

/-- A write of the line under a domain must wait (R206): its block, or one below the highest full node over it, has to be rekeyed and
would need a fifth version. A block that another domain has been given starts under a version of that. -/
def State.waitsUnder (s : State) (d a : Nat) : Bool :=
  let k := a / 2048
  !s.counters.isEmpty && (s.nodeWaits k
    || ((s.fullNode k).isNone && d == (s.counters.get {} k).dom && s.blockSpent k (a / 64 % 32) && s.noVersion k))

/-- A write of the line under the domain it is held under must wait. -/
def State.mustWait (s : State) (a : Nat) : Bool := s.waitsUnder (s.domainOf a) a

/-- A write of a range must wait. -/
def State.rangeWaits (s : State) (a n : Nat) : Bool :=
  !s.counters.isEmpty && (List.range ((a + n + 63) / 64 - a / 64)).any (fun i => s.mustWait (64 * (a / 64 + i)))

/-- The next count of line `i` of a block: its MINOR advances, and at 4,095 MAJOR, with the MINORs cleared (R186). -/
def Counters.bump (b : Counters) (i : Nat) : Counters :=
  if b.minor.get 0 i < 4095 then { b with minor := b.minor.set i (b.minor.get 0 i + 1) }
  else { b with major := b.major + 1, minor := [(i, 1)] }

/-- With a node over the block full, everything below the node is rekeyed (R206). -/
def State.freshNodes (s : State) (k : Nat) : State :=
  match s.fullNode k with
  | some l => s.rekeyUnder k l
  | none => s

/-- What a write of line `i` of a block, under domain `d`, does first. Where the block's frame has been given to the domain since, the
block is written anew under the domain's newest version (R185, R206); at the last count of the last MAJOR it is rekeyed (R206). -/
def State.freshBlock (s : State) (k i d : Nat) : State :=
  let t := s.freshNodes k
  if (t.counters.get {} k).dom ≠ d then
    { t with counters := t.counters.set k { ver := (t.domains.get {} d).newest, dom := d } }
  else if t.blockSpent k i then t.rekeyBlock k else t

/-- The line of a device-memory location is written once more: its count advances, and that of every node over its block (R186). -/
def State.bumpLine (s : State) (a : Nat) : State :=
  if isDevice a then
    let k := a / 2048
    let t := s.freshBlock k (a / 64 % 32) (s.domainOf a)
    ({ t with counters := t.counters.set k ((t.counters.get {} k).bump (a / 64 % 32)) } : State).bumpPath k
  else s

/-- The first locations of the device-memory lines that cells lie in, each once. -/
def linesOf (cells : List Host.Cell) : List Nat := (cells.map (fun e => e.1 / 64 * 64)).dedup

/-- Each line of a list is written once. -/
def State.bumpLines (s : State) : List Nat → State
  | [] => s
  | a :: r => State.bumpLines (s.bumpLine a) r

/-- One write joins the coherence order, performed at a level (R118): 0 the core, 1 the group, 2 the device. -/
def State.putWrite (s : State) (c level : Nat) (cells : List Host.Cell) : State :=
  { s with log := s.log ++ [⟨s.nextSeq, cells, c, level⟩], nextSeq := s.nextSeq + 1 }

/-- Several writes, in order. -/
def State.putWrites (s : State) (c level : Nat) : List (List Host.Cell) → State
  | [] => s
  | p :: ps => State.putWrites (s.putWrite c level p) c level ps

/-- Context `x` of core `c` performs a write of cells in units at a scope: the parts join the order in one step. The numbers of
the parts are `s.nextSeq` and up. -/
def State.writeUnits (s : State) (c : Nat) (x : CtxId) (scope : Nat) (us : List (Host.Cell × Nat)) : State :=
  let cells := us.map (·.1)
  let parts := cutParts us
  let s' := ((s.bumpLines (linesOf cells)).putWrites c (min scope 2) parts).settle
  s'.note c x (cells.map (fun e => (e.1, s.nextSeq + parts.length - 1)))

/-- The numbers the parts of a write take. -/
def State.unitSeqs (s : State) (us : List (Host.Cell × Nat)) : List Nat := (List.range (cutParts us).length).map (s.nextSeq + ·)

/-- The write of one access. -/
def State.writeCells (s : State) (c : Nat) (x : CtxId) (scope : Nat) (cells : List Host.Cell) : State :=
  s.writeUnits c x scope (cellUnits cells)

/-- The numbers the parts of the write of one access take. -/
def State.writeSeqs (s : State) (cells : List Host.Cell) : List Nat := s.unitSeqs (cellUnits cells)

/-- A write performed in the device instance by an agent outside the cores: the mailbox engine, the dispatcher, firmware, a
remote device (R126, R127). -/
def State.writeDevice (s : State) (cells : List Host.Cell) : State :=
  ((s.bumpLines (linesOf cells)).putWrites 0 2 (atomicParts cells)).settle

/-- A frame of the tenant holds a range, as a table or as data (R157, R175). -/
def State.ownRange (s : State) (vf a n : Nat) (table : Bool) : Bool :=
  s.frames.any (fun f => f.vf == vf && f.table == table && decide (f.addr ≤ a) && decide (a + n ≤ f.addr + 64 * f.len))

/-- Whether a numbered write of core `c0` is performed in the `scope`-instance of core `c`. A settled write is. -/
def State.seqPerformed (s : State) (c scope seq : Nat) : Bool :=
  match s.log.find? (fun e => e.seq == seq) with
  | some e => e.performedIn c scope
  | none => true

end Sys2Proof.Machine
end

