-- ==== Sys2Proof/Machine/Translate.lean ====
section
/-! DEFINITION. Plane addresses: descriptors, the walk, plane entries, the checks of R46, and where an element lies
(R43 to R51, R156). -/

namespace Sys2Proof.Machine

/-- Plane of a device virtual address (R43). -/
def vaPlane (va : Word) : Nat := field va.toNat 60 4
/-- Constellation index. -/
def vaConst (va : Word) : Nat := field va.toNat 48 12
/-- Position within the constellation. -/
def vaPos (va : Word) : Nat := field va.toNat 0 48
/-- The address of a position of the plane and constellation of `va`. -/
def vaAt (va : Word) (pos : Nat) : Word :=
  BitVec.ofNat 64 (vaPlane va * 2 ^ 60 + vaConst va * 2 ^ 48 + pos % 2 ^ 48)

/-- `n` bytes of the device image, as a number. -/
def State.imageNat (s : State) (a n : Nat) : Nat := leNat (s.imageBytes a n)

/-- A plane descriptor's fields (R45). -/
structure PlaneDesc where
  raw   : Nat
  deriving DecidableEq, Repr

/-- WIDTH. -/
def PlaneDesc.width (d : PlaneDesc) : Nat := field d.raw 0 4
/-- GRAN. -/
def PlaneDesc.gran (d : PlaneDesc) : Bool := bitAt d.raw 4
/-- R. -/
def PlaneDesc.r (d : PlaneDesc) : Bool := bitAt d.raw 5
/-- W. -/
def PlaneDesc.w (d : PlaneDesc) : Bool := bitAt d.raw 6
/-- RMAX. -/
def PlaneDesc.rmax (d : PlaneDesc) : Bool := bitAt d.raw 7
/-- WMAX. -/
def PlaneDesc.wmax (d : PlaneDesc) : Bool := bitAt d.raw 8
/-- PLACE. -/
def PlaneDesc.place (d : PlaneDesc) : Nat := field d.raw 9 2
/-- BACK. -/
def PlaneDesc.back (d : PlaneDesc) : Bool := bitAt d.raw 11
/-- A BX width. -/
def PlaneDesc.bx (d : PlaneDesc) : Bool := 7 ≤ d.width && d.width ≤ 9
/-- A reserved bit is set, the width is above 9, or a BX width has GRAN = 1 (R45). -/
def PlaneDesc.malformed (d : PlaneDesc) : Bool :=
  field d.raw 12 52 != 0 || 10 ≤ d.width || (d.bx && d.gran)
/-- Bits of one element of a plane that is not BX. -/
def PlaneDesc.bits (d : PlaneDesc) : Nat := 2 ^ d.width
/-- Bytes of a BX block (R88). -/
def bxBytes (width : Nat) : Nat := if width = 7 then 10 else if width = 8 then 18 else 30

/-- Where the descriptor of a constellation lies (R44). The table's base is the model's own field (log 8). -/
def State.descAddr (s : State) (v : Nat) (va : Word) : Nat := (s.tenant v).tableBase.getD 0 + 256 * vaConst va
/-- The function has a descriptor table, and the descriptor's valid flag is set (R44, R175). -/
def State.descValid (s : State) (v : Nat) (va : Word) : Bool :=
  (s.tenant v).tableBase.isSome && bitAt (s.imageNat (s.descAddr v va + 10) 2) 0
/-- The plane-enable bit. -/
def State.planeOn (s : State) (v : Nat) (va : Word) : Bool :=
  bitAt (s.imageNat (s.descAddr v va + 8) 2) (vaPlane va)
/-- The limit. -/
def State.descLimit (s : State) (v : Nat) (va : Word) : Nat := s.imageNat (s.descAddr v va) 8
/-- The plane descriptor. -/
def State.planeDesc (s : State) (v : Nat) (va : Word) : PlaneDesc :=
  ⟨s.imageNat (s.descAddr v va + 32 + 8 * vaPlane va) 8⟩
/-- The top-level table's address. -/
def State.descRoot (s : State) (v : Nat) (va : Word) : Nat := s.imageNat (s.descAddr v va + 16) 8 * 4096

/-- Where a walk ends (R47, R48): no table, a leaf's PFR and page size 2^s, or a malformed entry. -/
inductive Walk where
  | missing
  | leaf (pfr s : Nat)
  | malformed
  deriving DecidableEq, Repr

/-- The walk from a table at `table`, `levels` levels above the lowest (R47). A next-table entry at the lowest level is
malformed. KIND 00 is tested first: with reserved bits set it still reads as no table (log 15). -/
def State.walkFrom (s : State) (pos : Nat) : Nat → Nat → Walk
  | levels, table =>
    let e := s.imageNat (table + 8 * field pos (12 + 9 * levels) 9) 8
    let kind := field e 62 2
    let size := field e 59 3
    if kind = 0 then .missing
    else if kind = 3 ∨ field e 48 11 ≠ 0 then .malformed
    else if kind = 2 then
      if (levels = 0 ∧ size < 5) ∨ (levels = 1 ∧ 5 ≤ size) then .leaf (field e 0 48 * 128) (12 + 2 * size)
      else .malformed
    else
      match levels with
      | 0 => .malformed
      | l + 1 => State.walkFrom s pos l (field e 0 48 * 4096)

/-- The walk of an address, from the tenant's root (R47, R175). A function with no descriptor table has none. -/
def State.walk (s : State) (v : Nat) (va : Word) : Walk :=
  if (s.tenant v).tableBase.isNone then .missing else s.walkFrom (vaPos va) 3 (s.descRoot v va)

/-- Where the plane entry of an address lies, if the walk reaches a leaf. -/
def State.entryAddr (s : State) (v : Nat) (va : Word) : Option Nat :=
  match s.walk v va with
  | .leaf pfr _ => some (pfr + 8 * vaPlane va)
  | _ => none

/-- The plane entry that the walk of an address reaches, 0 if none (R258). -/
def State.entryAtVa (s : State) (v : Nat) (va : Word) : Word :=
  match s.entryAddr v va with
  | some a => BitVec.ofNat 64 (s.imageNat a 8)
  | none => 0

/-- STATE of a plane entry (R49). -/
def peState (e : Nat) : Nat := field e 61 3
/-- WR. -/
def peWr (e : Nat) : Bool := bitAt e 60
/-- SK. -/
def peSk (e : Nat) : Bool := bitAt e 59
/-- FRAME. -/
def peFrame (e : Nat) : Nat := field e 0 53
/-- A plane entry of fields. -/
def mkEntry (st : Nat) (wr sk : Bool) (acc frame : Nat) : Nat :=
  st * 2 ^ 61 + wr.toNat * 2 ^ 60 + sk.toNat * 2 ^ 59 + acc % 64 * 2 ^ 53 + frame % 2 ^ 53
/-- A plane entry with another state and frame; WR, SK and ACC are kept. -/
def reState (e st frame : Nat) : Nat := mkEntry st (peWr e) (peSk e) (field e 53 6) frame

/-- What an access needs: read, write, or both (R46, R303). -/
structure Need where
  r : Bool
  w : Bool
  deriving DecidableEq, Repr
/-- A read. -/
def Need.read : Need := ⟨true, false⟩
/-- A write. -/
def Need.write : Need := ⟨false, true⟩
/-- A read and a write. -/
def Need.both : Need := ⟨true, true⟩

/-- What the checks of R46 and the entry's state (R156) make of one position. -/
inductive Place where
  /-- A copy fault: its cause (R259) and the entry the walk reached. -/
  | fault (cause entry : Nat)
  /-- Zeros: an ABSENT entry, or no table, for a read. -/
  | zero
  /-- Parks: PAGED, or a write that needs a frame or tables. -/
  | park (entry : Nat)
  /-- A frame of this device: its first byte, the page size and the entry. -/
  | frame (base s entry : Nat)
  /-- A frame of another device. -/
  | remote (dev lease base s entry : Nat)
  /-- A line that R186 has no address for. -/
  | nowhere
  deriving DecidableEq, Repr

/-- The steps 1 and 2 of R46, and then a malformed descriptor (log 15). -/
def State.checkPlane (s : State) (v : Nat) (va : Word) : Option Nat :=
  if !s.descValid v va then some 1
  else if !s.planeOn v va then some 2
  else if (s.planeDesc v va).malformed then some 8
  else none

/-- The checks of R46 on one position, in order, and the state of its entry. FRAME bits 52:48 of a RESIDENT entry mean nothing (DESIGN
CHOICE, log 105). -/
def State.place (s : State) (v : Nat) (va : Word) (need : Need) : Place :=
  match s.checkPlane v va with
  | some c => .fault c 0
  | none =>
    let d := s.planeDesc v va
    if s.descLimit v va ≤ vaPos va then .fault 3 0
    else if need.r && !d.r then .fault 4 0
    else if need.w && !d.w then .fault 5 0
    else
      match s.walk v va with
      | .malformed => .fault 9 0
      | .missing => if need.w then .park 0 else .zero
      | .leaf pfr sz =>
        let e := s.imageNat (pfr + 8 * vaPlane va) 8
        if need.w && !peWr e then .fault 5 e
        else
          match peState e with
          | 0 => if need.w then .park e else .zero
          | 1 | 2 =>
            let base := field e 0 48 * 64
            if Config.physBytes ≤ base then .nowhere else .frame base sz e
          | 3 => .remote (field e 42 11) (field e 34 8) (field e 0 34 * 256) sz e
          | 4 => .park e
          | 5 => .fault 6 e
          | _ => .fault 9 e

/-! ### Plane data as bytes (R51) -/

/-- Bytes of a page's data in one plane, for pages of 2^s positions. -/
def PlaneDesc.pageBytes (d : PlaneDesc) (s : Nat) : Nat :=
  if d.bx then 2 ^ (s - 5) * bxBytes d.width
  else if d.gran then 2 ^ (s - 6) * d.bits / 8
  else 2 ^ s * d.bits / 8

/-- Bytes of a frame: whole lines (R51). -/
def PlaneDesc.frameBytes (d : PlaneDesc) (s : Nat) : Nat := (d.pageBytes s + 63) / 64 * 64

/-- The first byte of plane data that holds the element at a position, counted from position 0. -/
def PlaneDesc.byteOf (d : PlaneDesc) (pos : Nat) : Nat :=
  if d.bx then pos / 32 * bxBytes d.width
  else if d.gran then pos / 64 * d.bits / 8
  else pos * d.bits / 8

/-- A position whose element holds a byte of plane data. -/
def PlaneDesc.posOf (d : PlaneDesc) (b : Nat) : Nat :=
  if d.bx then b / bxBytes d.width * 32
  else if d.gran then b * 8 / d.bits * 64
  else b * 8 / d.bits

/-- Where an access's bytes lie, or what stops it at its first byte that is stopped. -/
inductive Found where
  | bytes (bs : List Byte1)
  | fault (cause entry : Nat) (va : Word)
  | park (entry : Nat) (va : Word)
  /-- Its line cannot be accessed for now. -/
  | wait
  | nowhere
  deriving DecidableEq, Repr

/-- The key domain that an access through a plane entry presents (R185): 1297, which no line is held under, where firmware has recorded
no shared domain for the frame. -/
def State.presents (s : State) (v e : Nat) : Nat :=
  if peSk e then ((s.shared.find? (fun x => x.1 == field e 0 48 * 64)).map (fun x => 1025 + x.2.2)).getD 1297 else v + 1

/-- The HBM channel of a main-tier line retrains: accesses wait for it (R202). -/
def State.channelWaits (s : State) (a : Nat) : Bool := s.channels.any (fun c => c.2.retrain && Config.channelOf (a / 64) == c.1)

/-- A line that an entry leads to waits: it fails its check for good, or under the domain presented, until the second read poisons the
frame (R186, R203, R204); its channel retrains (R202); or a write finds the counters spent (R206). -/
def State.lineWaits (s : State) (v e a : Nat) (need : Need) : Bool :=
  s.lineFails a (s.presents v e) || (peState e == 1 && s.channelWaits a) || (need.w && s.mustWait a)

/-- A byte at a location that an entry leads to. -/
def State.lineFound (s : State) (v e a : Nat) (need : Need) : Found :=
  if Config.physBytes ≤ a then .nowhere
  else if s.lineWaits v e a need then .wait
  else .bytes [.at a]

/-- One byte of plane data, by the checks of the position it belongs to. -/
def State.findByte (s : State) (v : Nat) (va : Word) (need : Need) (b : Nat) : Found :=
  let d := s.planeDesc v va
  let pos := d.posOf b
  let pa := vaAt va pos
  if 2 ^ 48 ≤ pos then .fault 3 0 pa
  else
    match s.place v pa need with
    | .fault c e => .fault c e pa
    | .zero => .bytes [.zero]
    | .park e => .park e pa
    | .nowhere => .nowhere
    | .frame base sz e => s.lineFound v e (base + (b - d.byteOf (pos / 2 ^ sz * 2 ^ sz))) need
    | .remote dev l base sz e => .bytes [.remote dev l (base + (b - d.byteOf (pos / 2 ^ sz * 2 ^ sz))) e]

/-- `n` bytes of plane data from byte `b`: all of them, or the first that is stopped (R129). -/
def State.findBytes (s : State) (v : Nat) (va : Word) (need : Need) (b : Nat) : Nat → Found
  | 0 => .bytes []
  | n + 1 =>
    match s.findByte v va need b with
    | .bytes x =>
      match State.findBytes s v va need (b + 1) n with
      | .bytes y => .bytes (x ++ y)
      | f => f
    | f => f

/-- `n` bytes of plane data from some bytes beyond the element at an address, whose own position is tested too (R46). -/
def State.findFrom (s : State) (v : Nat) (va : Word) (need : Need) (off n : Nat) : Found :=
  match s.checkPlane v va with
  | some c => .fault c 0 va
  | none =>
    if s.descLimit v va ≤ vaPos va then .fault 3 0 va
    else s.findBytes v va need ((s.planeDesc v va).byteOf (vaPos va) + off) n

/-- `n` bytes of plane data from the element at an address. -/
def State.findAt (s : State) (v : Nat) (va : Word) (need : Need) (n : Nat) : Found := s.findFrom v va need 0 n

/-- Whether some byte lies on another device: its device, lease and address, and the plane entry. -/
def remoteOf : List Byte1 → Option (Nat × Nat × Nat × Nat)
  | [] => none
  | .remote d l a e :: _ => some (d, l, a, e)
  | _ :: r => remoteOf r

/-- The locations of the bytes that lie here. -/
def hereLocs : List Byte1 → List Nat
  | [] => []
  | .at a :: r => a :: hereLocs r
  | _ :: r => hereLocs r

/-- The locations of bytes that all lie here; none where one lies elsewhere or nowhere. -/
def localLocs : List Byte1 → Option (List Nat)
  | [] => some []
  | .at a :: r => (localLocs r).map (a :: ·)
  | _ :: _ => none

/-- The cells of bytes written at their places. -/
def cellsAt : List Byte1 → List Byte → List Host.Cell
  | .at a :: r, b :: bs => (a, b) :: cellsAt r bs
  | _ :: r, _ :: bs => cellsAt r bs
  | _, _ => []

/-- The device image of bytes at their places; zeros of an ABSENT entry. -/
def State.imageOf (s : State) (bs : List Byte1) : List Byte :=
  bs.map (fun | .at a => s.image a | _ => 0)

/-- What is read of the bytes that lie here, put back among the others, which are zero. -/
def putBack : List Byte1 → List (Nat × Byte) → List (Nat × Byte)
  | [], _ => []
  | .at _ :: r, vs => vs.headD (0, 0) :: putBack r vs.tail
  | _ :: r, vs => (0, 0) :: putBack r vs

/-- Bytes as a context reads them at their places, with the numbers of the writes taken. -/
def State.readOf (s : State) (c : Nat) (x : CtxId) (scope : Nat) (cuts : List Nat) (bs : List Byte1) :
    List (Nat × Byte) :=
  putBack bs (s.readLocs c x scope cuts (hereLocs bs))

end Sys2Proof.Machine
end

