-- ==== Sys2Proof/Machine/Fabric.lean ====
section
/-! DEFINITION. Requests to other devices: the lines an access asks for, the way a request leaves, and what the answers give (R127,
R160, R190, R334). -/

namespace Sys2Proof.Machine

/-! ### Lines and their answers -/

/-- The first address of the 64-byte line that holds an address (R11). -/
def lineBase (a : Nat) : Nat := a / 64 * 64

/-- The request for a line among some. -/
def lineOf (fs : List Fwd) (dev lease addr : Nat) : Option Fwd :=
  fs.find? (fun f => f.dev == dev && f.lease == lease && f.line && f.addr == lineBase addr)

/-- How the home device has answered for a line; none where it has not been asked. -/
def lineAnswer (fs : List Fwd) (dev lease addr : Nat) : Option Answer :=
  (lineOf fs dev lease addr).map (fun f => f.ans)

/-- A byte of a line that has been answered. -/
def awayByte (fs : List Fwd) (dev lease addr : Nat) : Byte :=
  match lineAnswer fs dev lease addr with
  | some (.data b) => b.getD (addr % 64) 0
  | _ => 0

/-- The first line of some bytes that has not come from its home device with data, and how it was answered (none where no answer
has come, or none was asked for). -/
def lineMissing (fs : List Fwd) : List Byte1 → Option (Nat × Nat × Nat × Answer)
  | [] => none
  | .remote d l a _ :: r =>
    match lineAnswer fs d l a with
    | some (.data _) => lineMissing fs r
    | some x => some (d, l, a, x)
    | none => some (d, l, a, .none)
  | _ :: r => lineMissing fs r

/-- Bytes at their places as a context reads them here, and as the home devices of the others have given them. -/
def State.readBack (s : State) (c : Nat) (x : CtxId) (scope : Nat) (cuts : List Nat) (bs : List Byte1) (fs : List Fwd) :
    List (Nat × Byte) :=
  List.zipWith (fun p v => match p with | .remote d l a _ => (0, awayByte fs d l a) | _ => v) bs (s.readOf c x scope cuts bs)

/-- Answers reach the requests of element `k` that have none, in order. -/
def giveAnswers (k : Nat) : List Fwd → List Answer → List Fwd
  | [], _ => []
  | f :: r, as =>
    if f.keys.contains k && f.ans == .none then { f with ans := as.headD .none } :: giveAnswers k r as.tail
    else f :: giveAnswers k r as

/-! ### Sending -/

/-- The port by which requests to a device leave: the first next port of its route table entry that is not fenced (R210); no port of the
device where the table has none (R20). -/
def State.routeTo (s : State) (dev : Nat) : Nat :=
  let ps := s.routes.get [] dev
  (ps.find? (fun p => !(s.port p).fenced)).getD (ps.headD Config.ports)

/-- A port's link is up: the links have been trained, and it neither retrains nor is fenced (R20, R210). -/
def State.portUp (s : State) (p : Nat) : Bool :=
  decide (p < Config.ports) && s.module.avdexLink && !(s.port p).fenced && !(s.port p).retrain

/-- A request of tenant `v` to a device can leave now: its port is in the partition's port mask, and its link is up (R190, R210). A
request that may not leave waits (log 95). -/
def State.canSend (s : State) (v dev : Nat) : Bool :=
  let p := s.routeTo dev
  bitAt (s.part (s.tenant v).part).desc.ports.toNat p && s.portUp p

/-- Tenant `v` sends a request to a device, with its partition tag and its FTID (R190, R334). -/
def State.request (s : State) (v dev : Nat) (r : FabricRequest) : State :=
  s.send (.request (s.routeTo dev) dev (s.part (s.tenant v).part).desc.tag.toNat (s.tenant v).ftid r)

/-- A bit mask and bits laid over others of the same byte. -/
def overlay (p q : Byte × Byte) : Byte × Byte := (p.1 ||| q.1, (p.2 &&& ~~~q.1) ||| (q.2 &&& q.1))

/-- What elements' accesses write of the byte at an address of another device: bit mask and bits, later elements prevailing (R160).
Each access is its element, its places, and a mask and bits for each. -/
def maskAt (dev lease a : Nat) (acc : List (Nat × List Byte1 × List (Byte × Byte))) : Byte × Byte :=
  acc.foldl (fun m e => (e.2.1.zip e.2.2).foldl (fun m p =>
    match p.1 with
    | .remote d l b _ => if d = dev ∧ l = lease ∧ b = a then overlay m p.2 else m
    | _ => m) m) (0, 0)

/-- The lines of other devices that bytes lie in, each once: device, lease, address. -/
def awayLines (bs : List Byte1) : List (Nat × Nat × Nat) :=
  (bs.filterMap (fun b => match b with | .remote d l a _ => some (d, l, lineBase a) | _ => none)).dedup

/-- The line accesses of some elements of one operation, those of one line combined (R160). -/
def linePlan (this time : Nat) (wr : Bool) (acc : List (Nat × List Byte1 × List (Byte × Byte))) : List (Fwd × FabricRequest) :=
  (awayLines (acc.flatMap (·.2.1))).map (fun l =>
    ({ keys := (acc.filter (fun e => (awayLines e.2.1).contains l)).map (·.1), dev := l.1, lease := l.2.1, addr := l.2.2,
       wr := wr, sent := time },
     .line this l.2.1 l.2.2 (if wr then some ((List.range 64).map (fun i => maskAt l.1 l.2.1 (l.2.2 + i) acc)) else none)))

end Sys2Proof.Machine
end

