-- ==== Sys2Proof/Machine/Land.lean ====
section
/-! DEFINITION. Results in flight and their landing (R73, R109, R111, R112). -/

namespace Sys2Proof.Machine

/-- The capacity of a load or store queue (R31). -/
def queueDepth : Nat := 8

/-- Fill the reserved entry of number `tag`. -/
def fillEntry (tag : Nat) (data : List Byte) (q : List QEntry) : List QEntry :=
  q.map (fun e => if e.tag = tag then { e with data := some data } else e)

/-- One write of a landing result. -/
def Core.applyWrite (k : Core) : LWrite → Core
  | .vec r ls => k.setLanes r ls
  | .pred r mask v => k.setPred r mask v
  | .store q tag data => k.setStoreQ q (fillEntry tag data (k.storeQ q))
  | .sum tag val => { k with zq := k.zq.map (fun e => if e.tag = tag then { e with val := some val } else e) }
  | .elems cells => { k with m := k.m.setAll cells }
  | .status r b => { k with tstat := k.tstat.set r (k.tstat.get 0 r ||| b) }
  | .clear r => { k with m := k.m.filter (fun e => e.1 / 4096 != r), tstat := k.tstat.set r 0 }

/-- The writes of a landing, in order. -/
def Core.applyWrites (k : Core) : List LWrite → Core
  | [] => k
  | w :: r => Core.applyWrites (k.applyWrite w) r

/-- The status bits CKRERUN and CKFAIL that failed checks give each register of a drain's group (R111, R112). -/
def ckWrites (l : Landing) : List LWrite :=
  if l.drain ∧ l.fails ≠ 0 then
    (List.range l.group).map (fun i =>
      .status (l.acc + i) (if l.fails = 1 then 0x20 else 0x40))
  else []

/-- A result lands. A drain whose second check failed writes no element, and fences the matrix engine (R112). -/
def Core.land (k : Core) (l : Landing) : Core :=
  if l.drain ∧ 2 ≤ l.fails then { k.applyWrites (ckWrites l) with fenced := true }
  else k.applyWrites (l.writes ++ ckWrites l)

/-- Land several results, in order. -/
def Core.landList (k : Core) : List Landing → Core
  | [] => k
  | l :: r => Core.landList (k.land l) r

/-- Put a result among others by landing slot, after those of the same slot (R73: issue order). -/
def byDue (l : Landing) : List Landing → List Landing
  | [] => [l]
  | h :: r => if l.due < h.due then l :: h :: r else h :: byDue l r

/-- Results in the order they land: by slot, in one slot by issue. -/
def dueOrder (ls : List Landing) : List Landing := ls.foldl (fun acc l => byDue l acc) []

/-- The next issue slot comes: every result due in it or before it lands. -/
def Core.landDue (k : Core) : Core :=
  { k with flight := k.flight.filter (fun l => k.slot < l.due) }.landList
    (dueOrder (k.flight.filter (fun l => decide (l.due ≤ k.slot))))

/-- The slot in which the last result in flight lands. -/
def lastDue (n : Nat) : List Landing → Nat
  | [] => n
  | l :: r => lastDue (max n l.due) r

/-- Every result in flight lands (R72, R73): the slots it takes elapse. -/
def Core.landAll (k : Core) : Core :=
  { k with flight := [], slot := lastDue k.slot k.flight }.landList (dueOrder k.flight)

/-- `n` issue slots elapse (R73): in each, the results due in it land. A slot in which the sequencer stalls has not come. -/
def Core.tick (k : Core) : Nat → Core
  | 0 => k
  | n + 1 => Core.tick { k.landDue with slot := k.landDue.slot + 1 } n

/-- The compute context runs in exposed mode: the innermost entry has INTER 0 (R72). -/
def Ctx.exposed (k : Ctx) : Bool :=
  match k.loops with
  | [] => false
  | e :: _ => !e.inter

end Sys2Proof.Machine
end

