-- ==== Sys2Proof/Machine/Work.lean ====
section
/-! DEFINITION. Named operations on task records, events, launches and teams, on error records, and the end of a task at
the context rung (R134 to R139, R147, R148, R196 to R201). -/

namespace Sys2Proof.Machine

/-! ### Parking (R156 to R158) -/

/-- The page of an address in its plane is 2^n positions (R47): that of the leaf, or the smallest where no table leads to one. -/
def State.pageBits (s : State) (vf : Nat) (va : Word) : Nat :=
  match s.walk vf va with
  | .leaf _ sz => sz
  | _ => 12

/-- An access is parked on the page that holds an address (R158). -/
def State.samePark (s : State) (vf : Nat) (va : Word) (p : Park) : Bool :=
  p.vf == vf && p.va.toNat / 2 ^ s.pageBits vf va == va.toNat / 2 ^ s.pageBits vf va

/-- The parked pages of a core (R158). -/
def State.parksOf (s : State) (c : Nat) : List Park := s.parks.filter (fun p => p.core == some c)

/-- A core's engines park an access, while fewer than 64 pages are parked (R158). A write parks beside a read of its page: only a
write makes firmware allocate a frame (R156). -/
def State.addPark (s : State) (c : Nat) (va : Word) (wr : Bool) : State :=
  let vf := (s.teamOf c).vf
  if (s.parksOf c).any (s.samePark vf va) then
    { s with parks := s.parks.map (fun (p : Park) =>
        if p.core == some c && s.samePark vf va p then { p with write := p.write || wr } else p) }
  else if 64 ≤ (s.parksOf c).length then s
  else { s with parks := s.parks ++ [{ core := some c, vf := vf, va := va, write := wr }] }

/-- A write that its home device has refused parks on its entry (R163). -/
def State.addRefused (s : State) (c : Nat) (va : Word) (dev lease : Nat) : State :=
  let s := s.addPark c va true
  { s with parks := s.parks.map (fun (p : Park) =>
      if p.core == some c && s.samePark (s.teamOf c).vf va p then { p with refused := some (dev, lease) } else p) }

/-- A refused write is parked on the page of an address, whose entry still names the lease (R163). -/
def State.refusedOn (s : State) (c : Nat) (va : Word) (dev lease : Nat) : Bool :=
  (s.parksOf c).any (fun p => s.samePark (s.teamOf c).vf va p && p.refused == some (dev, lease))

/-- Firmware found no frame for this core's parked access (R157). -/
def State.parkDenied (s : State) (c : Nat) (va : Word) : Bool :=
  (s.parksOf c).any (fun p => s.samePark (s.teamOf c).vf va p && p.out)

/-- The access no longer waits. -/
def State.unpark (s : State) (c : Nat) (va : Word) : State :=
  { s with parks := s.parks.filter (fun p => !(p.core == some c && s.samePark (s.teamOf c).vf va p)) }

/-! ### Record accesses of the dispatcher and the schedulers -/

/-- What a record read gives: bytes, a failed check's cause, or nothing yet (parked or unanswered). -/
inductive Got where
  | data (bs : List Byte)
  | bad (cause : Nat)
  | pend
  deriving DecidableEq, Repr

/-- Firmware found no frame for a parked access of an agent outside the cores (R157). -/
def State.deniedOut (s : State) (v : Nat) (a : Word) : Bool :=
  s.parks.any (fun p => p.core == none && s.samePark v a p && p.out)

/-- An access of the dispatcher or the mailbox engine is parked on the page of an address (R156). -/
def State.parkAt (s : State) (v : Nat) (a : Word) (wr : Bool) : State :=
  if s.parks.any (fun p => p.core == none && s.samePark v a p) then
    { s with parks := s.parks.map (fun (p : Park) =>
        if p.core == none && s.samePark v a p then { p with write := p.write || wr } else p) }
  else { s with parks := s.parks ++ [{ core := none, vf := v, va := a, write := wr }] }

/-- A write of an agent outside the cores that its home device has refused parks on its entry (R163). -/
def State.parkRefused (s : State) (v : Nat) (a : Word) (dev lease : Nat) : State :=
  let s := s.parkAt v a true
  { s with parks := s.parks.map (fun (p : Park) =>
      if p.core == none && s.samePark v a p then { p with refused := some (dev, lease) } else p) }

/-- Such a write is parked on the page of an address, whose entry still names the lease (R163). -/
def State.refusedOut (s : State) (v : Nat) (a : Word) (dev lease : Nat) : Bool :=
  s.parks.any (fun p => p.core == none && s.samePark v a p && p.refused == some (dev, lease))

/-- A cause that is no copy fault's: the lease of the line is lost (R163). -/
def causeLost : Nat := 0x20

/-- The cause that a home device's answer gives an agent outside the cores, where it fails the access (R134, R163). -/
def answerCause : Answer → Option Nat
  | .partition => some 0x0C
  | .lost => some causeLost
  | .readOnly => some 5
  | .poison | .malformed => some 6
  | .none | .data _ | .ok | .refused => none

/-- The requests by which an agent outside the cores reads bytes that lie on other devices, or writes them (R160, R190). -/
def State.sendLines (s : State) (v : Nat) (ls : List Byte1) (wr : Option (List Byte)) : State :=
  (linePlan s.module.devId s.time wr.isSome [(0, ls, (wr.getD []).map (fun b => ((0xFF : Byte), b)))]).foldl
    (fun u q => u.request v q.1.dev q.2) s

/-- A read of tenant `v`'s plane data at device scope, or at its home device: its request leaves in the step that takes the answer
(R127, R134, log 86). A read whose page's entry makes it parks (R156). -/
def State.recTake (s : State) (v : Nat) (va : Word) (n : Nat) (ans : Answer) : State × Got :=
  match s.findAt v va .read n with
  | .fault c _ _ => (s, .bad c)
  | .park _ a => if s.deniedOut v a then (s, .bad 7) else (s.parkAt v a false, .pend)
  | .wait | .nowhere => (s, .pend)
  | .bytes bs =>
    match remoteOf bs with
    | none => (s, .data (s.imageOf bs))
    | some (dev, _, _, _) =>
      if !s.canSend v dev then (s, .pend)
      else
        match ans, answerCause ans with
        | .data b, _ => (s.sendLines v bs none, .data b)
        | _, some c => (s.sendLines v bs none, .bad c)
        | _, none => (s, .pend)

/-- How a write of a record, or a compare-and-swap of its state word, ends (R139): made, finding another value, failed with a cause, or
not made yet. -/
inductive Swap where
  | swapped | unexpected | failed (cause : Nat) | pend
  deriving DecidableEq, Repr

/-- A write of tenant `v`'s plane data at device scope, or at its home device by the answer given. -/
def State.recPut (s : State) (v : Nat) (va : Word) (bs : List Byte) (ans : Answer) : State × Swap :=
  match s.findAt v va .write bs.length with
  | .fault c _ _ => (s, .failed c)
  | .park _ a => if s.deniedOut v a then (s, .failed 7) else (s.parkAt v a true, .pend)
  | .wait | .nowhere => (s, .pend)
  | .bytes ls =>
    match remoteOf ls with
    | none => (s.writeDevice (cellsAt ls bs), .swapped)
    | some (dev, _, _, _) =>
      if !s.canSend v dev then (s, .pend)
      else
        match ans, answerCause ans with
        | .ok, _ => (s.sendLines v ls (some bs), .swapped)
        | _, some c => (s.sendLines v ls (some bs), .failed c)
        | _, none => (s, .pend)

/-- A compare-and-swap of the word at `va` from `old` to `new`, made on the device image (R128, R139). For a record on another
device the answer says what its home device did. -/
def State.swapWord (s : State) (v : Nat) (va : Word) (old new : Nat) (ans : Answer) : State × Swap :=
  match s.findAt v va .both 8 with
  | .fault c _ _ => (s, .failed c)
  | .park _ a => if s.deniedOut v a then (s, .failed 7) else (s.parkAt v a true, .pend)
  | .wait | .nowhere => (s, .pend)
  | .bytes ls =>
    match remoteOf ls with
    | none =>
      if leNat (s.imageOf ls) = old then (s.writeDevice (cellsAt ls (leBytes 8 new)), .swapped) else (s, .unexpected)
    | some (dev, l, a, _) =>
      let s1 := s.request v dev (.atomic s.module.devId l a 0x48 8 false (BitVec.ofNat 64 old) (BitVec.ofNat 64 new))
      if !s.canSend v dev then (s, .pend)
      else
        match ans, answerCause ans with
        | .ok, _ => (s1, .swapped)
        | .data b, _ => (s1, if leNat b = old then .swapped else .unexpected)
        | _, some c => (s1, .failed c)
        | _, none => (s, .pend)

/-! ### State words (R137) -/

/-- STATE. -/
def swState (w : Nat) : Nat := field w 0 4
/-- OWNER. -/
def swOwner (w : Nat) : Nat := field w 4 11
/-- STEAL. -/
def swSteal (w : Nat) : Bool := bitAt w 15
/-- GEN. -/
def swGen (w : Nat) : Nat := field w 16 16
/-- THIEF. -/
def swThief (w : Nat) : Nat := field w 32 11
/-- The reserved bits. -/
def swReserved (w : Nat) : Nat := field w 43 21
/-- The word with another STATE. -/
def swSetState (w st : Nat) : Nat := w / 16 * 16 + st
/-- The word with GEN advanced (R137). -/
def swNextGen (w : Nat) : Nat := w - swGen w * 65536 + (swGen w + 1) % 65536 * 65536
/-- The word with OWNER, and with bit 15 cleared where the launch is not stealable (R135, R137). -/
def swAccept (w owner : Nat) (stealable : Bool) : Nat :=
  let w := w - swOwner w * 16 + owner % 2048 * 16
  if stealable then w else w - (if swSteal w then 32768 else 0)

/-- The address `o` bytes on from a record's first byte, in a plane whose elements are bytes wide or wider (R136, R51). -/
def State.recAt (s : State) (v : Nat) (va : Word) (o : Nat) : Word :=
  let d := s.planeDesc v va
  vaAt va (d.posOf (d.byteOf (vaPos va) + o))

/-- Whether a record breaks a check of R136: class, team size, allocation codes, maximum duration, the scheduler-private area,
the state word's reserved bits. -/
def recordMalformed (bs : List Byte) : Bool :=
  3 < leAt bs 52 1 || leAt bs 53 1 == 0 || 8 < leAt bs 53 1 || 7 < leAt bs 54 1 || 16 < leAt bs 55 1
    || leAt bs 68 4 == 0 || 500 < leAt bs 68 4 || ((bs.drop 76).take 52).any (· != 0) || swReserved (leAt bs 0 8) != 0

/-! ### Errors (R196 to R198) -/

/-- An error is counted on its die and its tenant, each counter saturating (R197): the die's counter after it. `v` is none where no
tenant is known. -/
def State.countOnly (s : State) (cls die : Nat) (v : Option Nat) : State × Nat :=
  let n := min (2 ^ 64 - 1) (s.errs.get 0 (16 * die + cls) + 1)
  let s := { s with errs := s.errs.set (16 * die + cls) n }
  (match v with
    | some f =>
      let t := s.tenant f
      s.setTenant f { t with errs := t.errs.set cls (min (2 ^ 64 - 1) (t.errs.get 0 cls + 1)) }
    | none => s, n)

/-- An error record is written to the ring (R198). -/
def State.writeRecord (s : State) (e : ErrRec) : State :=
  { s with ring := s.ring.set s.ringNext e, ringNext := (s.ringNext + 1) % 4096 }

/-- Count an error and write its record (R197, R198). -/
def State.countError (s : State) (cls outcome rung die : Nat) (v : Option Nat) (resource : Nat) : State :=
  let p := s.countOnly cls die v
  p.1.writeRecord ⟨cls, outcome, rung, die, v.getD 0xFFFF, resource, s.time, p.2⟩

/-- The die of a core (R197). -/
def dieOf (c : Nat) : Nat := c / 64

/-- An error met on a record of tenant `v` after acceptance is counted and recorded, where R196 has a class for it (R134): a POISONED
entry, whose resource is the line it names, or a lost lease, whose resource is the record. -/
def State.countMet (s : State) (v : Nat) (va : Word) (cause : Nat) : State :=
  if cause = 6 then s.countError 3 1 0 4 (some v) (field (s.entryAtVa v va).toNat 0 48 * 64)
  else if cause = causeLost then s.countError 0x0A 1 0 4 (some v) va.toNat
  else s

/-! ### Tasks and launches -/

/-- A task of a launch. -/
def State.findTk (s : State) (launch idx : Nat) : Option Tk :=
  s.tasks.find? (fun t => t.launch == launch && t.idx == idx)
/-- Put a task. -/
def State.setTk (s : State) (t : Tk) : State :=
  { s with tasks := s.tasks.map (fun u => if u.launch = t.launch ∧ u.idx = t.idx then t else u) }
/-- A launch in flight. -/
def State.launch (s : State) (id : Nat) : Option Launch := s.launches.find? (fun l => l.id == id)

/-- A signal to an event. -/
structure Sig where
  vf   : Nat
  name : Nat
  fail : Bool
  deriving DecidableEq, Repr

/-- The signals a record's signal-event names give. -/
def sigsOf (v : Nat) (bytes : List Byte) (fail : Bool) : List Sig :=
  ((signalNames bytes).filter (· != 0)).map (fun n => ⟨v, n, fail⟩)

/-- Count a task as finished; when it is the last of its launch, the completion event is due and the launch is over (R135). -/
def State.countTask (s : State) (t : Tk) (ok : Bool) : State × List Sig :=
  let s := s.setTk { t with st := .counted ok }
  match s.launch t.launch with
  | none => (s, [])
  | some l =>
    let mine := s.tasks.filter (fun u => u.launch == l.id)
    if mine.all (fun u => match u.st with | .counted _ => true | _ => false) then
      let bad := mine.any (fun u => u.st != .counted true)
      ({ s with launches := s.launches.filter (fun m => m.id != l.id),
                tasks := s.tasks.filter (fun u => u.launch != l.id) },
        if l.event = 0 then [] else [⟨l.vf, l.event, bad⟩])
    else (s, [])

/-- The state word of a record goes from `w` to `w'` with the cause of a failure, if there is one, written first (R139): a cause whose
write is not made yet holds the swap back; one that cannot be written leaves the swap alone to be made. The answers are those of the
record's home device to the two. -/
def State.causeThenSwap (s : State) (v : Nat) (addr : Word) (cause : Option Nat) (w w' : Nat) (ans : List Answer) : State × Swap :=
  match cause with
  | none => s.swapWord v addr w w' (ans.getD 1 .none)
  | some c =>
    match s.recPut v (s.recAt v addr 72) (leBytes 4 c) (ans.getD 0 .none) with
    | (s1, .pend) => (s1, .pend)
    | (s1, _) => s1.swapWord v addr w w' (ans.getD 1 .none)

/-- A task counts as FAILED whose record no longer says so, or cannot be read: an error met on it is counted (R134), and events are
signalled with failure. -/
def State.lostTk (s : State) (v : Nat) (t : Tk) (cause : Nat) (names : List Nat) : State × List Sig :=
  let r := (s.countMet v t.addr cause).countTask t false
  (r.1, (names.filter (· != 0)).map (fun n => ⟨v, n, true⟩) ++ r.2)

/-- A task whose record cannot be read or written any more (R134): it counts as FAILED, the signal events its record named when it was last
read are signalled with failure (log 30), the error is counted, and where the state word can still be written it goes from STATE `old`, 16
where the record was ignored, to FAILED with cause 0x01; while that has not been made, it is owed. The answers are those of the record's
home device to the read of the word, the write of the cause and the swap. -/
def State.loseTk (s : State) (v : Nat) (t : Tk) (old cause : Nat) (ans : List Answer) : State × List Sig :=
  if old = 16 then s.lostTk v t cause t.sigs
  else
  match s.recTake v t.addr 8 (ans.getD 0 .none) with
  | (s1, .bad _) => s1.lostTk v t cause t.sigs
  | (s1, .pend) => (s1.setTk { t with st := .owed old 5 1 }, [])
  | (s1, .data w) =>
    if swState (leNat w) ≠ old then s1.lostTk v t cause t.sigs
    else
      match s1.causeThenSwap v t.addr (some 1) (leNat w) (swSetState (leNat w) 5) ans.tail with
      | (s2, .pend) => (s2.setTk { t with st := .owed old 5 1 }, [])
      | (s2, _) => s2.lostTk v t cause t.sigs

/-- The record of a task goes from a STATE to FAILED (5) or CANCELLED (6), with the cause of a failure written first (R139). A
swap that finds another value leaves the record ignored; one whose access is not made yet is owed the change (R156, R201). The answers
are those of the record's home device to the read, the write of the cause, and the swap. -/
def State.endTk (s : State) (v : Nat) (t : Tk) (old new cause : Nat) (ans : List Answer) : State × List Sig :=
  match s.recTake v t.addr 128 (ans.headD .none) with
  | (s1, .bad c) => s1.loseTk v t old c ans.tail
  | (s1, .pend) => (s1.setTk { t with st := .owed old new cause }, [])
  | (s1, .data bs) =>
    let w := leAt bs 0 8
    match s1.causeThenSwap v t.addr (if new = 5 then some cause else none) (swSetState w old)
        (if new = 6 then swNextGen (swSetState w 6) else swSetState w 5) ans.tail with
    | (s2, .unexpected) => (s2.setTk { t with st := .ignored }, [])
    | (s2, .pend) => (s2.setTk { t with st := .owed old new cause }, [])
    | (s2, .failed c) => s2.lostTk v t c (signalNames bs)
    | (s2, .swapped) => s2.lostTk v t 0 (signalNames bs)

/-- The record of a task becomes FAILED with a cause, from a STATE. -/
def State.failTk (s : State) (v : Nat) (t : Tk) (old cause : Nat) (ans : List Answer) : State × List Sig :=
  s.endTk v t old 5 cause ans

/-- An event is failed. -/
def Event.isFailed (e : Event) : Bool := e.failed
/-- An event is satisfied (R147). -/
def Event.satisfied (e : Event) : Bool := decide (e.target ≤ e.count) && !e.failed

/-- Put a waiter into an event's store: a wait slot, or else the overflow chain while its area has room (R148). -/
def State.addWaiter (s : State) (v name : Nat) (w : Waiter) : Option State :=
  let e := s.event v name
  if w ∈ e.slots ∨ w ∈ e.chain then some s
  else if e.slots.length < 4 then some (s.setEvent v name { e with slots := e.slots ++ [w] })
  else if 0 < (s.tenant v).chainRoom then
    some ((s.setEvent v name { e with chain := e.chain ++ [w] }).setTenant v
      { s.tenant v with chainRoom := (s.tenant v).chainRoom - 1 })
  else none

/-- The class a task is scheduled in: the urgent flag, else its class byte, else the launch's default (R135, R136, R310). -/
def taskClass (urgent : Bool) (dflt : Nat) (bs : List Byte) : Nat :=
  if urgent then 1 else if leAt bs 52 1 = 0 then dflt else leAt bs 52 1

/-- A task is READY from now on, from the moment of the reading that finds it so (log 80), no group's yet, with the class and team size its
record gives. -/
def State.readyTk (s : State) (t : Tk) (bs : List Byte) : Tk :=
  let l := (s.launch t.launch).getD {}
  { t with st := .ready, readyAt := s.time, aged := false, group := none, cls := taskClass l.urgent l.cls bs, size := leAt bs 53 1,
           sigs := signalNames bs }

/-- A WAITING task is looked at again: it fails on a failed event, becomes READY when every named event is satisfied and is
then checked by R136, or waits on (R139). The answers are those of its record's home device, in order. -/
def State.recheck (s : State) (t : Tk) (v : Nat) (ans : List Answer) : State × List Sig :=
  if t.st ≠ .waiting then (s, [])
  else
    match s.recTake v t.addr 128 (ans.headD .none) with
    | (s, .bad c) => s.loseTk v t 0 c ans.tail
    | (s, .pend) => (s, [])
    | (s, .data bs) =>
      let names := (waitNames bs).filter (· != 0)
      if names.any (fun n => (s.event v n).isFailed) then s.failTk v t 0 7 ans
      else if names.all (fun n => (s.event v n).satisfied) then
        let w := leAt bs 0 8
        if swState w ≠ 0 then (s.setTk { t with st := .ignored }, [])
        else
          match s.swapWord v t.addr w (swSetState w 1) (ans.getD 1 .none) with
          | (s1, .swapped) =>
            let t1 := s1.readyTk t bs
            let s2 := s1.setTk t1
            if recordMalformed bs then s2.failTk v t1 1 1 (ans.drop 2) else (s2, [])
          | (s1, .unexpected) => (s1.setTk { t with st := .ignored }, [])
          | (s1, .failed c) => s1.lostTk v t c (signalNames bs)
          | (s1, .pend) => (s1, [])
      else
        (names.foldl (fun s n => if (s.event v n).satisfied then s else (s.addWaiter v n (.task t.launch t.idx)).getD s) s, [])

/-- A wait operation learns its outcome. -/
def State.wakeOp (s : State) (c : Nat) (x : CtxId) (id : Nat) (v : Word) : State :=
  let k := s.ctxAt c x
  s.setCtx c x { k with ops := k.ops.map (fun o => if o.id = id ∧ o.woken = none then { o with woken := some v } else o) }

/-- Wake waiters in order (R148). -/
def State.wakeAll (s : State) (v : Nat) (status : Word) : List Waiter → State × List Sig
  | [] => (s, [])
  | .op c x id :: r => State.wakeAll (s.wakeOp c x id status) v status r
  | .task l i :: r =>
    let p := match s.findTk l i with
      | some t => s.recheck t v []
      | none => (s, [])
    let q := State.wakeAll p.1 v status r
    (q.1, p.2 ++ q.2)

/-- One signal: the count rises, a failure is kept, and when the event is satisfied or failed every waiter wakes, slots
first, then the chain in order (R147, R148). -/
def State.signalOne (s : State) (g : Sig) : State × List Sig :=
  if g.name = 0 then (s, [])
  else
    let e := s.event g.vf g.name
    let e' := { e with count := min 65535 (e.count + 1), failed := e.failed || g.fail }
    if e'.satisfied || e'.isFailed then
      let s := (s.setEvent g.vf g.name { e' with slots := [], chain := [] }).setTenant g.vf
        { s.tenant g.vf with chainRoom := (s.tenant g.vf).chainRoom + e.chain.length }
      s.wakeAll g.vf (if e'.isFailed then 1 else 0) (e.slots ++ e.chain)
    else (s.setEvent g.vf g.name e', [])

/-- Signals, and those that the tasks they end give in turn. Each task ends once, so the count of tasks bounds them. -/
def State.signalRun : Nat → List Sig → State → State
  | 0, _, s => s
  | _ + 1, [], s => s
  | n + 1, g :: r, s =>
    let p := s.signalOne g
    State.signalRun n (r ++ p.2) p.1

/-- Deliver signals. -/
def State.signals (s : State) (gs : List Sig) : State :=
  s.signalRun (gs.length + 3 * s.tasks.length + s.launches.length + 1) gs

/-! ### The end of a team -/

/-- A context that has ended, with nothing of it left to perform. -/
def Ctx.stopped (k : Ctx) : Ctx :=
  { k with run := .ended, ops := [], hold := none, fetched := none, want := none, ahead := none, lines := [] }

/-- A core whose contexts are stopped at a rung, with its engine commands, held signals and results discarded, and free
again (R199, R201). -/
def Core.released (k : Core) : Core :=
  { k with team := 0, rank := 0, ctl := k.ctl.stopped, ld := k.ld.stopped, cmp := k.cmp.stopped, st := k.st.stopped,
           biv := k.biv.stopped, pend := [], demWait := [], records := [], logRecord := none, flight := [], chain := none,
           k := k.k.map (fun e => (e.1, { e.2 with waiting := [] })) }

/-- Release cores. -/
def State.releaseCores (s : State) : List Nat → State
  | [] => s
  | c :: r => State.releaseCores (s.setCore c (s.coreAt c).released) r

/-- A waiter is an operation of one of these cores. -/
def Waiter.ofCores (cs : List Nat) : Waiter → Bool
  | .op c _ _ => cs.contains c
  | .task _ _ => false

/-- The room that waiters of released cores took in their tenants' overflow areas is free again (R148). -/
def State.freeChains (s : State) (cs : List Nat) : State :=
  s.events.foldl (fun u e =>
    let n := (e.2.chain.filter (Waiter.ofCores cs)).length
    if n = 0 then u
    else u.setTenant (e.1 / 65536) { u.tenant (e.1 / 65536) with chainRoom := (u.tenant (e.1 / 65536)).chainRoom + n }) s

/-- Drop what waits for the operations of released cores. -/
def State.dropWaiters (s : State) (cs : List Nat) : State :=
  { s.freeChains cs with
    events := s.events.map (fun e => (e.1, { e.2 with slots := e.2.slots.filter (fun w => !w.ofCores cs),
                                                      chain := e.2.chain.filter (fun w => !w.ofCores cs) })),
    joins := s.joins.filter (fun j => match j.who with | .op c _ _ => !cs.contains c | .away _ => true),
    parks := s.parks.filter (fun p => match p.core with | some c => !cs.contains c | none => true) }

/-- The context rung's action on a team (R199, R201): its contexts stop, what they have not performed is discarded, and its
record becomes FAILED with the cause. A stolen task's record waits for `STOLEN_TASK_END`, cause 0x09 standing for 0x0A
(R153). -/
def State.failTeam (s : State) (t : Nat) (cause : Nat) (ans : List Answer) : State :=
  let tm := s.teamAt t
  if tm.cores = [] then s
  else
    let s := (s.releaseCores tm.cores).dropWaiters tm.cores
    match tm.stolen, s.findTk tm.launch tm.idx with
    | none, some tk =>
      let r := ({ s with teams := s.teams.erase t } : State).failTk tm.vf tk 2 cause ans
      r.1.signals r.2
    | some _, some _ =>
      { s with teams := s.teams.set t { tm with cores := [], failed := some (if cause = 0x0A then 9 else cause) } }
    | _, none => { s with teams := s.teams.erase t }

/-- A rung is in action on a team, or, engine or partition rung, on one of its cores (R200). -/
def State.rungOn (s : State) (t : Nat) (cores : List Nat) : Bool :=
  s.rungs.any (fun r => (r.kind == 2 && r.target == t) || (decide (3 ≤ r.kind) && r.cores.any cores.contains))

/-- The context rung acts on a team, with the error that starts it. -/
def State.startContext (s : State) (t cause : Nat) (ans : List Answer) (r : Rung) : State :=
  let tm := s.teamAt t
  let s1 := s.failTeam t cause ans
  { s1 with rungs := s1.rungs ++ [{ r with kind := 2, target := t, cores := tm.cores, start := s.time, at_ := s.time,
                                           tasks := [(tm.launch, tm.idx)] }] }

/-- End a team at the context rung for a class of error, 0 for none, and the resource its record names (R196, R198, R200): the error
is counted at once, and recorded with the rung when that is over. Where a rung already acts, the error is recorded and starts none. -/
def State.contextRung (s : State) (t : Nat) (cause cls res : Nat) (ans : List Answer) : State :=
  let tm := s.teamAt t
  if tm.cores = [] then s
  else
    let die := dieOf (tm.cores.headD 0)
    if s.rungOn t tm.cores then if cls = 0 then s else s.countError cls 1 0 die (some tm.vf) res
    else
      let p := if cls = 0 then (s, 0) else s.countOnly cls die (some tm.vf)
      p.1.startContext t cause ans { cls := cls, die := die, vf := some tm.vf, res := res, count := p.2 }

/-- A matrix engine that has failed its checks for good (R112, R196): it is fenced already; its task ends with cause 0x03, and the engine
rung is to lift the fence. The error is counted at once and recorded as fenced, with that rung. -/
def State.fenceRung (s : State) (c : Nat) : State :=
  let k := s.coreAt c
  let tm := s.teamAt k.team
  if s.rungOn k.team [c] then s.countError 6 2 0 (dieOf c) (some tm.vf) c
  else
    let p := s.countOnly 6 (dieOf c) (some tm.vf)
    let s1 := p.1.failTeam k.team 3 []
    { s1 with rungs := s1.rungs ++ [{ kind := 3, target := c, cores := [c], start := s.time, cls := 6, die := dieOf c,
                                      vf := some tm.vf, res := c, at_ := s.time, count := p.2, outcome := 2, tasks := [(tm.launch, tm.idx)] }] }

end Sys2Proof.Machine
end

