-- ==== Sys2Proof/Machine/Ops.lean ====
section
/-! DEFINITION. The operations every meaning is made of: how an instruction ends, the pc and the loop stack, fetching,
taking an exception and returning from one, the checks every instruction shares. -/

namespace Sys2Proof.Machine

/-! ### How an instruction ends -/

/-- What an instruction does: its effect, with fetch going on after it; its effect, with the pc placed; a trap (R35); a wait
without effect (R31), or with an access parked (R156); a stop of the model. -/
inductive Act where
  | ok (s : State)
  | go (s : State)
  | trap (cause : Nat) (info : Word)
  | wait
  | stay (s : State)
  | stop (f : Fault)

/-- Parcel offset of the instruction's first parcel, `PC` of R214. -/
def State.pc (s : State) : Word := s.cur.pc

/-! ### The loop stack (R67) -/

/-- The parcel at which an entry's body ends. -/
def LoopEntry.bodyEnd (e : LoopEntry) : Nat := e.header.toNat + 2 + e.len.toNat

/-- Whether an entry's body contains a parcel. -/
def LoopEntry.contains (e : LoopEntry) (t : Nat) : Bool := decide (e.header.toNat + 2 ≤ t) && decide (t < e.bodyEnd)

/-- The body-end events of one parcel, innermost first (R67): the stack, the pc and rb they leave. -/
def endBodies : List LoopEntry → Word → BitVec 5 → List LoopEntry × Word × BitVec 5
  | [], pc, rb => ([], pc, rb)
  | e :: r, pc, rb =>
    if pc.toNat ≠ e.bodyEnd then (e :: r, pc, rb)
    else
      let left := if e.leave then e.remain else e.remain - 1
      let rb' := if e.rot then rb + 1 else rb
      if e.leave ∨ left ≠ 0 then ({ e with remain := left } :: r, BitVec.ofNat 64 (e.header.toNat + 2), rb')
      else endBodies r pc rb'

/-- Fetch has reached the context's pc: the body-end events there take place (R67). -/
def Ctx.arrive (k : Ctx) : Ctx :=
  let r := endBodies k.loops k.pc k.rb
  { k with loops := r.1, pc := r.2.1, rb := r.2.2, want := none, ahead := none, lines := [] }

/-- The compute sequencer's issue slot elapses, and a change of mode lands every result in flight (R72, R73). The mode before the
instruction is compared with the mode at the next one: one that changes and changes back between them lands nothing (log 77). -/
def Core.afterIssue (k : Core) (was : Bool) (slots : Nat) : Core :=
  let k := { k.tick slots with frozen := false, waits := false }
  if k.cmp.exposed = was then k else k.landAll

/-- Fetch goes on at the pc the issuing context holds. `was` says whether its instruction issued in exposed mode. -/
def State.arrive (s : State) (was : Bool) (slots : Nat) : State :=
  let s := s.setCur s.cur.arrive
  match s.ctx with
  | .cmp => s.setCurCore (s.curCore.afterIssue was slots)
  | _ => s

/-- Fetch goes on after an instruction of `len` parcels. -/
def State.advance (s : State) (was : Bool) (len slots : Nat) : State :=
  (s.setCur { s.cur with pc := s.cur.pc + BitVec.ofNat 64 len }).arrive was slots

/-! ### Taking an exception -/

/-- The code of a sequencer in TRAPCAUSE (R35). -/
def seqCode : CtxId → Nat
  | .ctl => 0
  | .ld => 1
  | .cmp => 2
  | .st => 3
  | .biv => 0

/-- The sequencer of a code. -/
def seqOf : Nat → CtxId
  | 1 => .ld
  | 2 => .cmp
  | 3 => .st
  | _ => .ctl

/-- Opcodes of engine commands (R116): a fill of a `PROBE` and `PCONV` among them. -/
def isEngine (code : Nat) : Bool := code == 0x20 || code == 0x22 || code == 0x24 || (0x60 ≤ code && code ≤ 0x63)

/-- The engine that runs a command: the index engine, or the copy engine. -/
def isIndex (code : Nat) : Bool := 0x60 ≤ code && code ≤ 0x63

/-- Every element of an engine command has been read and written, and what comes after its last element is done (R123). -/
def Op.allMade (o : Op) : Bool :=
  isEngine o.code && o.st == .started && o.eng.fault.isNone && decide (o.eng.total ≤ o.eng.checked) && decide (0 < o.eng.total)
    && o.eng.elems.all (fun e => e.2 == .done) && o.eng.hot.isEmpty && (o.code != 0x62 || o.eng.pushed)

/-- An operation is performed at a scope (R119): done, or an engine command with every element made; and each write it made or took
performed in the issuer's instance of that scope. -/
def State.performedAt (s : State) (c : Nat) (o : Op) (scope : Nat) : Bool :=
  (o.st == .done || o.allMade) && (o.took ++ o.wrote).all (fun n => s.seqPerformed c scope n)

/-- An operation is performed at its own scope. -/
def State.performedOwn (s : State) (c : Nat) (o : Op) : Bool := s.performedAt c o o.scope

/-- The drain of R130 is complete for a context: every operation that is no engine command is performed at its own scope. -/
def State.drained (s : State) (c : Nat) (x : CtxId) : Bool :=
  (s.ctxAt c x).ops.all (fun o => isEngine o.code || s.performedOwn c o)

/-- LOOPSTATE of one entry (R38). -/
def LoopEntry.save (e : LoopEntry) : Word :=
  BitVec.ofNat 64 (2 ^ 63 + e.rot.toNat * 2 ^ 62 + e.inter.toNat * 2 ^ 61 + e.leave.toNat * 2 ^ 60
    + e.remain.toNat * 2 ^ 32 + e.header.toNat)

/-- LOOPSTATE0 to LOOPSTATE3 of a stack, outermost first (R37). -/
def saveLoops (ls : List LoopEntry) : Tab Word := (ls.reverse.mapIdx (fun i e => (i, e.save)))

/-- How many operations of a context that pass a test are in stream `n`: those that have not left it (R120 step 4). -/
def State.streamCount (s : State) (c : Nat) (x : CtxId) (test : Op → Bool) (n : Nat) : Nat :=
  ((s.ctxAt c x).ops.filter (fun o => test o && o.f.t.stream.toNat == n && !o.retired)).length

/-- Counts of the eight streams, stream n in bits 6n+5:6n (R37). -/
def State.streamCounts (s : State) (c : Nat) (x : CtxId) (test : Op → Bool) : Word :=
  BitVec.ofNat 64 ((List.range 8).foldl (fun acc n => acc + s.streamCount c x test n * 2 ^ (6 * n)) 0)

/-- TRAPSTREAMS: the engine commands in flight in each stream (R37, R130). -/
def State.engineCounts (s : State) (c : Nat) (x : CtxId) : Word := s.streamCounts c x (fun o => isEngine o.code)

/-- Whether a pending cause is held by a HOLD bit (R37). -/
def Core.holds (k : Core) (p : Pending) : Bool :=
  (p.cause == 0x11 && k.msgHold) || (p.cause == 0x12 && k.demHold) || (p.cause == 0x13 && k.hotHold)

/-- A cause can be taken (R34 to R36): the bivouac context is not running; a trap has drained; an event is not held and the
primary control context stands at an instruction boundary. -/
def State.takeable (s : State) (c : Nat) (p : Pending) : Bool :=
  let k := s.coreAt c
  k.biv.run != .running &&
    (if p.cause ≤ 9 then s.drained c (seqOf p.seq)
     else !k.holds p && k.ctl.run != .trapped)

/-- The primary control context is suspended: a plane atomic that waits for its check has not taken effect and is abandoned, to issue
again (R35). -/
def Ctx.suspend (k : Ctx) : Ctx := { k with hold := none, ops := k.ops.filter (fun o => k.hold != some o.id) }

/-- A stall of the compute sequencer in exposed mode freezes its pipeline until it issues again (R73). -/
def State.freeze (s : State) : State :=
  match s.ctx with
  | .cmp => if s.cur.exposed then s.setCurCore { s.curCore with frozen := true } else s
  | _ => s

/-- The bivouac context starts with a cause: the frame is written from the trapping sequencer, or from the suspended primary
control context for an event (R35, R37, R240), and fetch starts at the handler (R36, R316). A trap of another sequencer suspends the
primary control context as an event does (log 100). An event that enters after the primary control context has ended finds the offset of
the instruction that ended it (log 79). -/
def State.enterWith (s : State) (c : Nat) (p : Pending) : State :=
  let k := s.coreAt c
  let x := if p.cause ≤ 9 then seqOf p.seq else .ctl
  let from_ := k.ctxOf x
  let frame : Frame :=
    { cause := p.cause, seq := if p.cause ≤ 9 then p.seq else 0,
      pc := if p.cause ≤ 9 then p.pc else from_.pc, info := p.info,
      loops := saveLoops from_.loops, rotbase := from_.rb.zeroExtend 64, streams := s.engineCounts c x,
      record := p.record }
  s.setCore c { k with
    frame := frame, pend := k.pend.erase p, ctl := k.ctl.suspend,
    biv := { k.biv with run := .running, atEntry := true, loops := [], hold := none, fetched := none,
                        want := none, ahead := none, lines := [], pc := p.handler.getD (s.teamOf c).handler } }

/-- The oldest cause that can be taken enters the bivouac context, if there is one (R36). -/
def State.enter (s : State) (c : Nat) : State :=
  match (s.coreAt c).pend.find? (s.takeable c) with
  | some p => s.enterWith c p
  | none => s

/-- Taking an exception: the one operation every trap goes through (R35, R36, R130, R240). In the bivouac context it ends the
task with cause 0x04. Otherwise the context stops at the instruction, a compute trap first landing every earlier result
and breaking the chain (R73, R105), the cause is queued with the offset `RTE` resumes at, and the bivouac context starts as
soon as the cause can be taken. -/
def State.takeTrapAt (s : State) (cause : Nat) (info pc : Word) : State :=
  match s.ctx with
  | .biv => s.contextRung (s.curCore).team 4 0 0 []
  | x =>
    let k := s.curCore
    let k := if x = .cmp then { k.landAll with chain := none, frozen := false, waits := false } else k
    let v := k.ctxOf x
    let k := k.setCtx x { v with run := .trapped, hold := none, fetched := none, want := none, ahead := none, lines := [] }
    (s.setCurCore { k with pend := k.pend ++ [{ cause := cause, seq := seqCode x, info := info, pc := pc }] }).enter s.core

/-- A trap of the instruction at the pc. -/
def State.takeTrap (s : State) (cause : Nat) (info : Word) : State := s.takeTrapAt cause info s.pc

/-- Raise an event cause on a core (R36): placed in the pending queue if its event entries have room, and entered at once when
it can be taken. -/
def State.raise (s : State) (c : Nat) (p : Pending) : Option State :=
  let k := s.coreAt c
  if (k.pend.filter (fun q => 9 < q.cause)).length < 5 ∧ k.pend.length < 8 then
    some ((s.setCore c { k with pend := k.pend ++ [p] }).enter c)
  else none

/-! ### Fetching (R217) -/

/-- The issuing context's fetch asks another device for a line, once (R160, R217). -/
def State.askFetch (s : State) (dev lease addr : Nat) : State :=
  let v := (s.teamOf s.core).vf
  if (lineOf s.cur.lines dev lease addr).isSome || !s.canSend v dev then s
  else
    (s.setCur { s.cur with lines := s.cur.lines ++ [{ dev := dev, lease := lease, addr := lineBase addr, sent := s.time }] }).request
      v dev (.line s.module.devId lease (lineBase addr) none)

/-- What a fetch gives: parcels, a wait on the entry of an address, a line of another device that has to come first, a lease that is
lost, a bad branch target, or no memory there. -/
inductive Fetch where
  | parcels (ps : List Parcel)
  | park (va : Word)
  | away (dev lease addr : Nat)
  | lost
  | bad
  | wait
  | nowhere
  deriving DecidableEq, Repr

/-- One parcel of the code image of core `c`'s task, at a parcel offset (R217): a read of plane 0 of the code constellation, at
core scope. A parcel on another device comes with the line its home device answers. One whose page firmware finds no frame for, or whose
home device refuses it or answers poison, is a bad branch target (log 107). -/
def State.fetchParcel (s : State) (c : Nat) (x : CtxId) (cut : Nat) (o : Nat) : Fetch :=
  let tm := s.teamOf c
  let va := vaAt (BitVec.ofNat 64 (tm.code.toNat % 2 ^ 60)) (vaPos tm.code)
  match s.checkPlane tm.vf va with
  | some _ => .bad
  | none =>
    match s.findBytes tm.vf va .read ((s.planeDesc tm.vf va).byteOf (vaPos va) + 2 * o) 2 with
    | .fault _ _ _ => .bad
    | .park _ a => if s.parkDenied c a then .bad else .park a
    | .wait => .wait
    | .nowhere => .nowhere
    | .bytes bs =>
      let fs := (s.ctxAt c x).lines
      match lineMissing fs bs with
      | none => .parcels [BitVec.ofNat 16 (leNat ((s.readBack c x 0 [cut] bs fs).map (·.2)))]
      | some (d, l, a, .none) => .away d l a
      | some (_, _, _, .lost) => .lost
      | some _ => .bad

/-- `n` further parcels from a parcel offset. -/
def State.fetchMore (s : State) (c : Nat) (x : CtxId) (cut : Nat) (o : Nat) : Nat → Fetch
  | 0 => .parcels []
  | n + 1 =>
    match s.fetchParcel c x cut o with
    | .parcels p =>
      match State.fetchMore s c x cut (o + 1) n with
      | .parcels q => .parcels (p ++ q)
      | f => f
    | f => f

/-- The parcels of the instruction at a parcel offset. -/
def State.fetchAt (s : State) (c : Nat) (x : CtxId) (cut : Nat) (o : Nat) : Fetch :=
  match s.fetchParcel c x cut o with
  | .parcels (p :: _) =>
    match s.fetchMore c x cut (o + 1) (parcelCount p.toNat - 1) with
    | .parcels q => .parcels (p :: q)
    | f => f
  | f => f

/-- The two parcels at a branch target, as the header's word, read by the issuing context, or read ahead. -/
def State.headerAt (s : State) (t : Word) : Fetch :=
  match s.cur.ahead with
  | some (o, ps) => if o = t then .parcels ps else s.fetchMore s.core s.ctx 0 t.toNat 2
  | none => s.fetchMore s.core s.ctx 0 t.toNat 2

/-! ### Entering a header (R66 to R68, R70) -/

/-- What entering a code header gives: a trap, or the loop stack, pc and rb it leaves. -/
inductive Entered where
  | trap (cause : Nat) (info : Word)
  | run (loops : List LoopEntry) (pc : Word) (rb : BitVec 5)
  deriving DecidableEq, Repr

/-- A register field that R26 forbids on the context. -/
def badReg (x : CtxId) (r : Reg) : Bool := (x != .ctl && x != .biv) && 16 ≤ r.toNat

/-- Entering the code header `h` at parcel offset `o` with loop stack `ls` and register values `g` (R67): the checks in order,
the count, the push. `word` is the header's word, for TRAPINFO. A rotating header whose count is 0 makes no entry and leaves rb as
it is (log 78). -/
def enterHeader (x : CtxId) (h : Header) (o : Word) (ls : List LoopEntry) (rb : BitVec 5) (g : Nat → Word) (word : Word) :
    Entered :=
  let rot := h.rot && x == .cmp
  let after := o + 2 + (h.len.zeroExtend 64)
  if !h.wf then .trap 1 word
  else if h.csrc = 1 ∧ badReg x (h.count.truncate 5) then .trap 2 2
  else if rot && ls.any (·.rot) then .trap 1 word
  else
    let count : Nat :=
      if h.csrc = 1 then (g (h.count.toNat % 32)).toNat
      else if h.csrc = 2 then 1
      else if h.count = 0 then 512 else h.count.toNat
    if 16777215 < count then .trap 2 2
    else if count = 0 then .run ls after rb
    else if 4 ≤ ls.length then .trap 6 o
    else
      .run (⟨o.truncate 32, BitVec.ofNat 24 (if h.csrc = 2 then 0 else count), rot, h.inter, h.csrc == 2, h.len⟩ :: ls)
        (o + 2) (if rot then 0 else rb)

/-- The operation is not yet performed in the sense of R121: it still owes its register. -/
def Op.owes (o : Op) (r : Nat) : Bool := o.st != .done && o.dst == some r && r != 0

/-- A register that an unperformed ordering operation writes (R121). -/
def Ctx.pendingReg (k : Ctx) (r : Nat) : Bool := k.ops.any (·.owes r)

/-- The register that a header takes its count from. -/
def countReg (h : Header) : Reg := bits h.count.toNat 0 5

/-- A header's count register is still owed by an unperformed operation (R121). -/
def countOwed (h : Header) (k : Ctx) : Bool := h.csrc == 1 && k.pendingReg (countReg h).toNat

/-- `n` parcels at a parcel offset would cross the innermost body end (R67). -/
def crosses (ls : List LoopEntry) (pc n : Nat) : Bool :=
  match ls with
  | e :: _ => decide (pc < e.bodyEnd) && decide (e.bodyEnd < pc + n)
  | [] => false

/-- Branch to parcel offset `t` (R68): the target must hold a block header; every entry whose body does not contain it is popped,
and the header is entered, unless it crosses the body end that is then innermost. `link` is what the branch writes to `g15`, before
the header reads its count (R235). A count register that an unperformed operation owes is waited for (R121). A branch whose header
traps has no effect. -/
def State.branch (s : State) (t : Word) (link : Option Word) : Act :=
  match s.headerAt t with
  | .bad => .trap 4 t
  | .nowhere => .stop .noSuchFrame
  | .wait => .wait
  | .lost => .stay (s.contextRung (s.curCore).team 5 0x0A (s.teamOf s.core).addr.toNat [])
  | .away d l a => .stay ((s.setCur { s.cur with want := some t }).askFetch d l a).freeze
  | .park va => .stay ((s.setCur { s.cur with want := some t }).addPark s.core va false).freeze
  | .parcels ps =>
    let w := wordOf ps
    if field w 28 4 ≠ 15 ∨ field w 26 2 = 3 then .trap 4 t
    else if field w 26 2 = 2 then .trap 5 t
    else
      let h : Header := ⟨bitAt w 26, bitAt w 25, bits w 23 2, bits w 14 9, bits w 0 14⟩
      let k := s.cur
      let ls := k.loops.filter (·.contains t.toNat)
      let k' := match link with
        | some v => k.setReg 15 v
        | none => k
      if crosses ls t.toNat 2 then .trap 1 (BitVec.ofNat 64 w)
      else if countOwed h k then .wait
      else
        match enterHeader s.ctx h t ls k.rb k'.reg (BitVec.ofNat 64 w) with
        | .trap c i => .trap c i
        | .run ls pc rb => .go (s.setCur { k' with loops := ls, pc := pc, rb := rb })

/-- Return to parcel offset `t` (R68, R219): target 0 ends a primary context, whose loop stack is then empty (log 79); otherwise
every entry that does not contain the target is popped, and one that does must remain. In the bivouac context target 0 is an
ordinary branch. -/
def State.returnTo (s : State) (t : Word) : Act :=
  if t = 0 ∧ s.ctx ≠ .biv then .go (s.setCur { s.cur with run := .ended, loops := [] })
  else
    let ls := s.cur.loops.filter (·.contains t.toNat)
    if ls = [] then .trap 4 t else .go (s.setCur { s.cur with loops := ls, pc := t })

/-! ### Shared checks -/

/-- Instructions that the control contexts alone run (R63). -/
def onControl (x : CtxId) : Bool := x == .ctl || x == .biv

/-- An instruction on a context that may not run it traps as illegal instruction, TRAPINFO its word (R35, R63). -/
def guardCtx (allowed : Bool) (word : Nat) (a : Act) : Act := if allowed then a else .trap 1 (BitVec.ofNat 64 word)

/-- The first failing operand field of a list of (field, fails). -/
def firstField : List (Nat × Bool) → Option Nat
  | [] => none
  | (n, b) :: r => if b then some n else firstField r

/-- Trap on the first failing operand field (R216, R247, R289). Where the rule orders no fields, as R289 does not, the list does, the
lower number first (DESIGN CHOICE, log 108). -/
def guardFields (fs : List (Nat × Bool)) (a : Act) : Act :=
  match firstField fs with
  | some n => .trap 2 (BitVec.ofNat 64 n)
  | none => a

/-- The first of a list of register fields that R26 forbids on the context, with its field number (R216, R247). -/
def firstBad (x : CtxId) : List (Reg × Nat) → Option Nat
  | [] => none
  | (r, n) :: l => if badReg x r then some n else firstBad x l

/-- Trap on a register field above 15 on the load, compute or store sequencer (R26). -/
def guardRegs (s : State) (rs : List (Reg × Nat)) (a : Act) : Act :=
  match firstBad s.ctx rs with
  | some n => .trap 2 (BitVec.ofNat 64 n)
  | none => a

/-- Wait while an operation that has not performed writes a register the instruction names (R121). -/
def guardHazard (s : State) (rs : List Reg) (a : Act) : Act :=
  if rs.any (fun r => s.cur.pendingReg r.toNat) then .wait else a

/-- The last thing done with what an instruction does: fetch goes on, a trap is taken, or the context waits (R130, R214).
`slots` is how many issue slots it takes on the compute sequencer (R73). -/
def finish (len slots : Nat) (s : State) : Act → Host.Outcome State Fault Refusal
  | .ok s' => .next (s'.advance s.cur.exposed len slots)
  | .go s' => .next (s'.arrive s.cur.exposed slots)
  | .trap cause info => .next (s.takeTrap cause info)
  | .wait => .next s.freeze
  | .stay s' => .next s'
  | .stop f => .fault f

end Sys2Proof.Machine
end

