-- ==== Sys2Proof/Machine/Operands.lean ====
section
/-! DEFINITION. Every operand form: the inline constants (R64), the V48 operand codes and their checks (R57, R269 to R272), the
lane values they supply, and the addresses of L48 forms (R60). -/

namespace Sys2Proof.Machine

/-! ### Inline constants (R64) -/

/-- An inline constant as sign, numerator and denominator, a little more than the quotient where it is irrational. -/
def icRatio (n : Nat) : Bool × Nat × Nat × Bool :=
  if n ≤ 16 then (false, n, 1, false)
  else if n ≤ 24 then (true, n - 16, 1, false)
  else if n ≤ 36 then (false, 2 ^ (n - 20), 1, false)
  else if n ≤ 44 then (false, 1, 2 ^ (n - 36), false)
  else
    match n with
    | 45 => (false, 1, 3, false)
    | 46 => (false, 1, 5, false)
    | 47 => (false, 1, 6, false)
    | 48 => (false, 1, 7, false)
    | 49 => (false, 1, 9, false)
    | 50 => (false, 1, 10, false)
    | 51 => (false, 1, 12, false)
    | 52 => (false, 1, 100, false)
    | 53 => (false, 1, 255, false)
    | 54 => (false, 1, 127, false)
    | 55 => (false, 1, 448, false)
    | 56 => (false, 1, 57344, false)
    | 57 => (false, 114302077158074026402637675936, 2 ^ 96, true)
    | 58 => (false, 54916777467707473351141471128, 2 ^ 96, true)
    | 59 => (false, 56022770974786139918731938227, 2 ^ 96, true)
    | 60 => (true, 1, 2, false)
    | 61 => (false, 3, 2, false)
    | 62 => (false, 1, 10, false)
    | _ => (false, 1, 65536, false)

/-- An inline constant rounded to a floating format, nearest even (R64). -/
def icFloat (fmt n : Nat) : Nat :=
  let r := icRatio n
  let f := fpFmt fmt
  if r.2.2.2 then (f.roundMag .rne false r.1 r.2.1 (-96) true).bits
  else (f.roundMag .rne false r.1 (r.2.1 * 2 ^ 80 / r.2.2.1) (-80) (r.2.1 * 2 ^ 80 % r.2.2.1 != 0)).bits

/-- An inline constant as an integer in a range, if it is one (R64). -/
def icInt (lo hi : Int) (n : Nat) : Option Int :=
  let r := icRatio n
  let v : Int := if r.1 then -(r.2.1 : Int) else r.2.1
  if r.2.2.1 = 1 ∧ lo ≤ v ∧ v ≤ hi then some v else none

/-! ### V48 operand codes (R57, R32, R274) -/

/-- What a source field accepts: nothing; the codes of a (R274); every code of R57; a register or a load queue; a predicate
register; a matrix register; a general register or an inline constant. -/
inductive SrcKind where
  | unused | a | b | regQ | pred | mat | scalar
  deriving DecidableEq, Repr

/-- What the d field names: nothing, a vector destination, a predicate register, a matrix register. -/
inductive DstKind where
  | unused | vec | pred | mat
  deriving DecidableEq, Repr

/-- How an entry uses its operands: the kind and pair-ness of each field, the format an inline constant of b is rounded to, and
the range where b is taken as an integer (R270). -/
structure VSpec where
  d     : DstKind := .vec
  a     : SrcKind := .a
  b     : SrcKind := .b
  dPair : Bool := false
  aPair : Bool := false
  bPair : Bool := false
  bFmt  : Nat := 0
  bInt  : Option (Int × Int) := none
  deriving DecidableEq, Repr

/-- Whether a source field accepts a code (R32, R57, R271). -/
def SrcKind.accepts (k : SrcKind) (pair : Bool) (n : Nat) : Bool :=
  match k with
  | .unused => true
  | .a => n ≤ 63 || (!pair && 64 ≤ n && n ≤ 67) || n == 70 || n == 71
  | .b => n ≤ 63 || (!pair && 64 ≤ n && n ≤ 67) || n == 70 || n == 71 || (128 ≤ n && n ≤ 207)
  | .regQ => n ≤ 67
  | .pred => n ≤ 31
  | .mat => n ≤ 15
  | .scalar => 128 ≤ n && n ≤ 207

/-- Whether the d field accepts a code (R32, R57, R271). -/
def DstKind.accepts (k : DstKind) (pair : Bool) (n : Nat) : Bool :=
  match k with
  | .unused => true
  | .vec => n ≤ 63 || (!pair && (n == 68 || n == 69)) || n == 71
  | .pred => n ≤ 31
  | .mat => n ≤ 15

/-- The physical register of a vector name (R71): names from 32 up rotate while a rotating entry is on the stack. -/
def physReg (k : Ctx) (n : Nat) : Nat :=
  if 32 ≤ n ∧ k.loops.any (·.rot) then 32 + (n - 32 + k.rb.toNat) % 32 else n

/-- The first register a vector name, or a pair, names outside the allocation, or an odd pair name (R29, R271). -/
def vecRange (k : Ctx) (top : Nat) (pair : Bool) (n : Nat) : Option Nat :=
  if 64 ≤ n then none
  else if pair ∧ n % 2 = 1 then some (physReg k n)
  else if top < physReg k n then some (physReg k n)
  else if pair ∧ top < physReg k (n + 1) then some (physReg k (n + 1))
  else none

/-- A source field's register outside the allocation. -/
def SrcKind.range (kd : SrcKind) (k : Ctx) (tm : Team) (pair : Bool) (n : Nat) : Option Nat :=
  match kd with
  | .a | .b | .regQ => vecRange k (8 * tm.valloc + 7) pair n
  | .mat => if tm.malloc ≤ n then some n else none
  | _ => none

/-- The d field's register outside the allocation. -/
def DstKind.range (kd : DstKind) (k : Ctx) (tm : Team) (pair : Bool) (n : Nat) : Option Nat :=
  match kd with
  | .vec => vecRange k (8 * tm.valloc + 7) pair n
  | .mat => if tm.malloc ≤ n then some n else none
  | _ => none

/-- The 32-bit lane at lane `i` of a 256-byte entry (R270). -/
def entryLane (bs : List Byte) (i : Nat) : Nat := leAt bs (4 * i) 4

/-- The bytes of 64 lanes. -/
def laneBytes (ls : List Nat) : List Byte := ls.flatMap (leBytes 4)

/-- An operand's inline constant: as an integer where the entry or an integer format takes one, or rounded (R64, R270). -/
def icOperand (spec : VSpec) (n : Nat) : Option Nat :=
  match spec.bInt with
  | some r => (icInt r.1 r.2 n).map (intBits 32)
  | none =>
    if spec.bFmt ≤ 4 then some (icFloat spec.bFmt n)
    else (icInt (intRange spec.bFmt).1 (intRange spec.bFmt).2 n).map (intBits (fmtBits spec.bFmt))

/-- Whether a source queue a field names has an entry to pop: a filled head of a load queue, an entry of `cq0` (R31, R32). -/
def srcReady (k : Core) (kd : SrcKind) (n : Nat) : Bool :=
  match kd with
  | .a | .b | .regQ =>
    if 64 ≤ n ∧ n ≤ 67 then
      (match k.loadQ (n - 64) with
        | e :: _ => e.data.isSome
        | [] => false)
    else if n = 70 then !k.cq.isEmpty
    else true
  | _ => true

/-- The lanes a source field supplies, as numbers (R270, R271). -/
def srcLanes (k : Core) (spec : VSpec) (kd : SrcKind) (pair : Bool) (n : Nat) : List Nat :=
  match kd with
  | .unused => List.replicate 64 0
  | .pred => (List.range 64).map (fun i => (bitAt (k.pred n).toNat i).toNat)
  | .mat => List.replicate 64 0
  | _ =>
    if n ≤ 63 then
      (List.range 64).map (fun i =>
        (k.lane (physReg k.cmp n) i).toNat
          + (if pair then (k.lane (physReg k.cmp (n + 1)) i).toNat * 2 ^ 32 else 0))
    else if n ≤ 67 then
      (match k.loadQ (n - 64) with
        | e :: _ => (List.range 64).map (entryLane (e.data.getD []))
        | [] => List.replicate 64 0)
    else if n = 70 then
      List.replicate 64 ((k.cq.headD 0).toNat % (if pair then 2 ^ 64 else 2 ^ 32))
    else if n = 71 then List.replicate 64 0
    else if n < 192 then List.replicate 64 ((icOperand spec (n - 128)).getD 0)
    else List.replicate 64 ((k.cmp.reg (n - 192)).toNat % (if pair then 2 ^ 64 else 2 ^ 32))

/-- Pop the queue of a source code. -/
def popCode (k : Core) (n : Nat) : Core :=
  if 64 ≤ n ∧ n ≤ 67 then k.setLoadQ (n - 64) (k.loadQ (n - 64)).tail
  else if n = 70 then { k with cq := k.cq.tail }
  else k

/-- The queue codes the two source fields name, each once (R32). -/
def sourceCodes (spec : VSpec) (a b : Nat) : List Nat :=
  let q (kd : SrcKind) (n : Nat) : List Nat :=
    match kd with
    | .a | .b | .regQ => if 64 ≤ n ∧ n ≤ 70 then [n] else []
    | _ => []
  (q spec.a a ++ q spec.b b).dedup

/-- What the body of a V48 entry is given: the operand lanes, the destination's lanes as read at issue, the enabled lanes, and
whether the mode is exposed. -/
structure VIn where
  a  : List Nat
  b  : List Nat
  c  : List Nat
  en : List Bool
  ex : Bool

/-- Lane `i` of a list. -/
def at64 (l : List Nat) (i : Nat) : Nat := l.getD i 0

/-- Lane values for the enabled lanes (R272). -/
def VIn.enabled (v : VIn) (f : Nat → Nat) : List (Nat × Nat) :=
  ((List.range 64).filter (fun i => v.en.getD i false)).map (fun i => (i, f i))

/-- Lane values for every lane. -/
def everyLane (f : Nat → Nat) : List (Nat × Nat) := (List.range 64).map (fun i => (i, f i))

/-- The writes of lane values to a vector register or a pair. -/
def vecWrites (k : Ctx) (pair : Bool) (n : Nat) (ls : List (Nat × Nat)) : List LWrite :=
  if pair then
    [.vec (physReg k n) (ls.map (fun e => (e.1, BitVec.ofNat 32 e.2))),
     .vec (physReg k (n + 1)) (ls.map (fun e => (e.1, BitVec.ofNat 32 (e.2 / 2 ^ 32))))]
  else [.vec (physReg k n) (ls.map (fun e => (e.1, BitVec.ofNat 32 e.2)))]

/-- Bits of a list of lanes, as a mask. -/
def laneMask (ls : List (Nat × Nat)) : Word := BitVec.ofNat 64 ((ls.map (fun e => 2 ^ e.1)).foldl (· + ·) 0)

/-- The bits of lane values. -/
def laneBits (ls : List (Nat × Nat)) : Word :=
  BitVec.ofNat 64 ((ls.map (fun e => if e.2 % 2 = 1 then 2 ^ e.1 else 0)).foldl (· + ·) 0)

/-- The first illegal operand field (R269 step 2): among several of one word the rule names none, and the model takes d, a, b in turn
(DESIGN CHOICE, log 108). -/
def vecOperand (spec : VSpec) (f : VF) : Option Nat :=
  if !spec.d.accepts spec.dPair f.d.toNat then some 0
  else if !spec.a.accepts spec.aPair f.a.toNat then some 1
  else if !spec.b.accepts spec.bPair f.b.toNat then some 2
  else none

/-- The first register out of range (R269 step 3): of d, a, b in turn, the first of a pair first (DESIGN CHOICE, log 108). -/
def vecRangeAll (spec : VSpec) (k : Ctx) (tm : Team) (f : VF) : Option Nat :=
  match spec.d.range k tm spec.dPair f.d.toNat with
  | some r => some r
  | none =>
    match spec.a.range k tm spec.aPair f.a.toNat with
    | some r => some r
    | none => spec.b.range k tm spec.bPair f.b.toNat

/-- An inline constant that the operand cannot take (R269 step 4). -/
def vecConst (spec : VSpec) (f : VF) : Bool :=
  match spec.b with
  | .b | .scalar => 128 ≤ f.b.toNat && f.b.toNat < 192 && (icOperand spec (f.b.toNat - 128)).isNone
  | _ => false

/-- The lanes a predicate enables (R272). -/
def enabledLanes (k : Core) (f : VF) : List Bool :=
  (List.range 64).map (fun i => bitAt (k.pred f.pred.toNat).toNat i != f.inv)

/-- The core as an instruction reads it at its issue slot (R73): the results due in that slot have landed, and in interlocked mode
every earlier result has (R75). -/
def readCore (k : Core) : Core := if k.cmp.exposed then k.landDue else k.landAll

/-- Put a result in flight, or nothing. -/
def Core.launch (k : Core) (latency : Nat) (ws : List LWrite) : Core :=
  { k with flight := k.flight ++ [{ due := k.slot + latency, writes := ws }] }

/-- The checks, waits, pops and reservation of a V48 instruction, and its result put in flight (R269 to R273). `body` gives the
lanes it writes and the core with its draws taken. -/
def vecRun (spec : VSpec) (latency word : Nat) (f : VF) (body : VIn → Core → List (Nat × Nat) × Core) (s : State) : Act :=
  guardCtx (s.ctx == .cmp) word <|
    match vecOperand spec f with
    | some n => .trap 2 (BitVec.ofNat 64 n)
    | none =>
      match vecRangeAll spec s.cur (s.teamOf s.core) f with
      | some r => .trap 3 (BitVec.ofNat 64 r)
      | none =>
        if vecConst spec f then .trap 2 2
        else
          let k := readCore s.curCore
          let toQ := spec.d == .vec && (f.d == 68 || f.d == 69)
          let q := f.d.toNat - 68
          if !(srcReady k spec.a f.a.toNat && srcReady k spec.b f.b.toNat) then .wait
          else if toQ && queueDepth ≤ (k.storeQ q).length then .wait
          else
            let c := if f.d.toNat ≤ 63 ∧ spec.d = .vec then
                srcLanes k spec .a spec.dPair f.d.toNat
              else List.replicate 64 (2 ^ (fmtBits f.fmt.toNat - 1))
            let vin : VIn := ⟨srcLanes k spec spec.a spec.aPair f.a.toNat, srcLanes k spec spec.b spec.bPair f.b.toNat, c,
              enabledLanes k f, k.cmp.exposed⟩
            let k1 := (sourceCodes spec f.a.toNat f.b.toNat).foldl popCode k
            let r := body vin k1
            let k2 := r.2
            let ws : List LWrite :=
              match spec.d with
              | .unused => []
              | .mat => [.elems (r.1.map (fun e => (4096 * f.d.toNat + e.1, BitVec.ofNat 32 e.2)))]
              | .pred => [.pred f.d.toNat (laneMask r.1) (laneBits r.1)]
              | .vec =>
                if f.d.toNat ≤ 63 then vecWrites k.cmp spec.dPair f.d.toNat r.1
                else if toQ then
                  [.store q k.nextTag (laneBytes ((List.range 64).map (fun i => (r.1.lookup i).getD 0)))]
                else []
            let k3 := if toQ then
                { k2.setStoreQ q (k2.storeQ q ++ [⟨k.nextTag, none⟩]) with nextTag := k.nextTag + 1 }
              else k2
            .ok (s.setCurCore (k3.launch latency ws))

/-! ### L48 operands (R60) -/

/-- The effective address of a scaled-offset form: g(base) + Sext(offset) * size. -/
def scaledAddr (base : Word) (off : BitVec 10) (size : Nat) : Word :=
  base + off.signExtend 64 * BitVec.ofNat 64 size

/-- A sub-field of W[25:16]: bits `lo+n-1:lo` counted from bit 16, as a register. -/
def zReg (f : LF) (lo : Nat) : Reg := bits f.z.toNat lo 5

/-- A signal code names k0 to k7, ab0 to ab3 or nothing (R61). -/
def signalOk (n : Nat) : Bool := n ≤ 11 || n == 31

end Sys2Proof.Machine
end

