-- ==== Sys2Proof/Machine/Scalar.lean ====
section
/-! DEFINITION. C16 moves, arithmetic and queue moves, and S32 arithmetic (R220 to R233). -/

namespace Sys2Proof.Machine

/-- Outcome of a step. -/
abbrev Out := Host.Outcome State Fault Refusal

/-! ### Bit operations (R229, R230) -/

/-- Zero bits of `w` above its highest one among bits `n - 1` to 0. -/
def leadingZeros (w : Nat) : Nat → Nat
  | 0 => 0
  | n + 1 => if bitAt w n then 0 else 1 + leadingZeros w n

/-- Zero bits from bit `i` up, of `n` bits. -/
def trailingZeros (w i : Nat) : Nat → Nat
  | 0 => 0
  | n + 1 => if bitAt w i then 0 else 1 + trailingZeros w (i + 1) n

/-- One bits among bits `n - 1` to 0. -/
def oneBits (w : Nat) : Nat → Nat
  | 0 => 0
  | n + 1 => (bitAt w n).toNat + oneBits w n

/-- Bits `n - 1` to 0 of `w`, each bit i moved to bit 63 - i. -/
def mirrored (w : Nat) : Nat → Nat
  | 0 => 0
  | n + 1 => (bitAt w n).toNat * 2 ^ (63 - n) + mirrored w n

/-- `CLZ`. -/
def clzWord (a : Word) : Word := BitVec.ofNat 64 (leadingZeros a.toNat 64)
/-- `CTZ`. -/
def ctzWord (a : Word) : Word := BitVec.ofNat 64 (trailingZeros a.toNat 0 64)
/-- `POPC`. -/
def popcWord (a : Word) : Word := BitVec.ofNat 64 (oneBits a.toNat 64)
/-- `BREV`. -/
def brevWord (a : Word) : Word := BitVec.ofNat 64 (mirrored a.toNat 64)

/-- The field of `width` bits at `lsb`, zero-extended. -/
def extractU (a : Word) (lsb width : Nat) : Word := BitVec.ofNat 64 (field a.toNat lsb width)
/-- The field of `width` bits at `lsb`, sign-extended. -/
def extractS (a : Word) (lsb width : Nat) : Word :=
  BitVec.ofNat 64 (field a.toNat lsb width + if bitAt a.toNat (lsb + width - 1) then 2 ^ 64 - 2 ^ width else 0)
/-- `d` with its field of `width` bits at `lsb` replaced by the low bits of `a`. -/
def insertField (d a : Word) (lsb width : Nat) : Word :=
  BitVec.ofNat 64 (d.toNat - field d.toNat lsb width * 2 ^ lsb + field a.toNat 0 width * 2 ^ lsb)

/-! ### Arithmetic (R226, R227) -/

/-- `MULHS`: bits 127:64 of the signed product. -/
def mulHighS (a b : Word) : Word := BitVec.ofInt 64 (a.toInt * b.toInt / 2 ^ 64)
/-- `MULHU`: bits 127:64 of the unsigned product. -/
def mulHighU (a b : Word) : Word := BitVec.ofNat 64 (a.toNat * b.toNat / 2 ^ 64)
/-- `DIVS`: truncated toward zero; all ones by zero. -/
def divS (a b : Word) : Word := if b = 0 then BitVec.allOnes 64 else BitVec.ofInt 64 (Int.tdiv a.toInt b.toInt)
/-- `DIVU`: all ones by zero. -/
def divU (a b : Word) : Word := if b = 0 then BitVec.allOnes 64 else BitVec.ofNat 64 (a.toNat / b.toNat)
/-- `REMS`: the sign of a; a by zero. -/
def remS (a b : Word) : Word := if b = 0 then a else BitVec.ofInt 64 (Int.tmod a.toInt b.toInt)
/-- `REMU`: a by zero. -/
def remU (a b : Word) : Word := if b = 0 then a else BitVec.ofNat 64 (a.toNat % b.toNat)
/-- The low six bits of a shift amount. -/
def amount (b : Word) : Nat := b.toNat % 64

/-! ### The forms -/

/-- A result written to `d`, after the checks and waits its register fields need. `rs` gives each register field and its number
in TRAPINFO (R216). -/
def scalar (len : Nat) (rs : List (Reg × Nat)) (d : Reg) (v : Word) (s : State) : Out :=
  finish len 1 s (guardRegs s rs (guardHazard s (rs.map (·.1)) (.ok (s.setG d v))))

/-- C16 two-register form (R220): the destination is the first source. -/
def c16Op (d r : Reg) (f : Word → Word → Word) (s : State) : Out :=
  scalar 1 [(d, 0), (r, 1)] d (f (s.G d) (s.G r)) s

/-- C16 constant form (R221). -/
def c16K (d : Reg) (v : Word) (s : State) : Out := scalar 1 [(d, 0)] d v s

/-- S32 R form (R226). -/
def aluR (d a b : Reg) (f : Word → Word → Word) (s : State) : Out :=
  scalar 2 [(d, 0), (a, 1), (b, 2)] d (f (s.G a) (s.G b)) s

/-- S32 form of one source register and an immediate (R229, R232). -/
def aluI (d a : Reg) (f : Word → Word) (s : State) : Out := scalar 2 [(d, 0), (a, 1)] d (f (s.G a)) s

/-- K of a C16 word (R221). -/
def kConst (k : Reg) : Word := k.signExtend 64
/-- Sext(imm12). -/
def sext12 (i : BitVec 12) : Word := i.signExtend 64

/-! ### C16 -/

/-- `NOP` (R222). -/
def execNop  (s : State) : Out :=
  finish 1 1 s (.ok s)

/-- `MOV` (R220). -/
def execMov (d r : Reg) (s : State) : Out :=
  c16Op d r (fun _ b => b) s

/-- `ADD` (R220). -/
def execAddC (d r : Reg) (s : State) : Out :=
  c16Op d r (fun a b => a + b) s

/-- `SUB` (R220). -/
def execSubC (d r : Reg) (s : State) : Out :=
  c16Op d r (fun a b => a - b) s

/-- `AND` (R220). -/
def execAndC (d r : Reg) (s : State) : Out :=
  c16Op d r (fun a b => a &&& b) s

/-- `OR` (R220). -/
def execOrC (d r : Reg) (s : State) : Out :=
  c16Op d r (fun a b => a ||| b) s

/-- `XOR` (R220). -/
def execXorC (d r : Reg) (s : State) : Out :=
  c16Op d r (fun a b => a ^^^ b) s

/-- `MOVK` (R221). -/
def execMovk (d k : Reg) (s : State) : Out :=
  c16K d (kConst k) s

/-- `ADDK` (R221). -/
def execAddk (d k : Reg) (s : State) : Out :=
  c16K d (s.G d + kConst k) s

/-- The shift by a constant of `SHLK` and `SHRK`: a negative K traps as illegal operand, field 1 (R53, R216). -/
def c16Shift (d k : Reg) (v : Word) (s : State) : Out :=
  finish 1 1 s (guardRegs s [(d, 0)] (if 16 ≤ k.toNat then .trap 2 1 else guardHazard s [d] (.ok (s.setG d v))))

/-- `SHLK` (R221). -/
def execShlk (d k : Reg) (s : State) : Out :=
  c16Shift d k (s.G d <<< k.toNat) s

/-- `SHRK` (R221). -/
def execShrk (d k : Reg) (s : State) : Out :=
  c16Shift d k (s.G d >>> k.toNat) s

/-! ### Queue moves (R225) -/

/-- `YPOP` (R225): pops `yq`, waiting while it is empty. -/
def execYpop (d : Reg) (s : State) : Out :=
  finish 1 1 s <| guardCtx (onControl s.ctx) (encC 13 d 0) <| guardHazard s [d] <|
    match s.curCore.yq with
    | [] => .wait
    | v :: r => .ok ((s.setCurCore { s.curCore with yq := r }).setG d v)

/-- `ZPOP` (R225): pops `zq`, waiting while it is empty or its head has not landed (R73). -/
def execZpop (d : Reg) (s : State) : Out :=
  finish 1 1 s <| guardCtx (onControl s.ctx) (encC 14 d 0) <| guardHazard s [d] <|
    match s.curCore.zq with
    | [] => .wait
    | e :: r =>
      match e.val with
      | some v => .ok ((s.setCurCore { s.curCore with zq := r }).setG d (v.zeroExtend 64))
      | none => .wait

/-- `CPUT` (R225): pushes `cq0`, waiting while it holds 16 entries. -/
def execCput (r : Reg) (s : State) : Out :=
  finish 1 1 s <| guardCtx (onControl s.ctx) (encC 15 0 r) <| guardHazard s [r] <|
    if 16 ≤ s.curCore.cq.length then .wait
    else .ok (s.setCurCore { s.curCore with cq := s.curCore.cq ++ [s.G r] })

/-- `CGET` (R225): pops `cq0` on the compute sequencer. -/
def execCget (d : Reg) (s : State) : Out :=
  finish 1 1 s <| guardCtx (s.ctx == .cmp) (encC 16 d 0) <| guardRegs s [(d, 0)] <| guardHazard s [d] <|
    match s.curCore.cq with
    | [] => .wait
    | v :: r => .ok ((s.setCurCore { s.curCore with cq := r }).setG d v)

/-! ### S32 three-register operations -/

/-- `ADD` (R226). -/
def execAdd (d a b : Reg) (s : State) : Out :=
  aluR d a b (fun a b => a + b) s

/-- `SUB` (R226). -/
def execSub (d a b : Reg) (s : State) : Out :=
  aluR d a b (fun a b => a - b) s

/-- `MUL` (R226). -/
def execMul (d a b : Reg) (s : State) : Out :=
  aluR d a b (fun a b => a * b) s

/-- `MULHS` (R226). -/
def execMulhs (d a b : Reg) (s : State) : Out :=
  aluR d a b (fun a b => mulHighS a b) s

/-- `MULHU` (R226). -/
def execMulhu (d a b : Reg) (s : State) : Out :=
  aluR d a b (fun a b => mulHighU a b) s

/-- `DIVS` (R227). -/
def execDivs (d a b : Reg) (s : State) : Out :=
  aluR d a b (fun a b => divS a b) s

/-- `DIVU` (R227). -/
def execDivu (d a b : Reg) (s : State) : Out :=
  aluR d a b (fun a b => divU a b) s

/-- `REMS` (R227). -/
def execRems (d a b : Reg) (s : State) : Out :=
  aluR d a b (fun a b => remS a b) s

/-- `REMU` (R227). -/
def execRemu (d a b : Reg) (s : State) : Out :=
  aluR d a b (fun a b => remU a b) s

/-- `AND` (R226). -/
def execAnd (d a b : Reg) (s : State) : Out :=
  aluR d a b (fun a b => a &&& b) s

/-- `OR` (R226). -/
def execOr (d a b : Reg) (s : State) : Out :=
  aluR d a b (fun a b => a ||| b) s

/-- `XOR` (R226). -/
def execXor (d a b : Reg) (s : State) : Out :=
  aluR d a b (fun a b => a ^^^ b) s

/-- `ANDN` (R226). -/
def execAndn (d a b : Reg) (s : State) : Out :=
  aluR d a b (fun a b => a &&& ~~~b) s

/-- `SHL` (R226). -/
def execShl (d a b : Reg) (s : State) : Out :=
  aluR d a b (fun a b => a <<< amount b) s

/-- `SHR` (R226). -/
def execShr (d a b : Reg) (s : State) : Out :=
  aluR d a b (fun a b => a >>> amount b) s

/-- `SAR` (R226). -/
def execSar (d a b : Reg) (s : State) : Out :=
  aluR d a b (fun a b => a.sshiftRight (amount b)) s

/-- `ROT` (R226). -/
def execRot (d a b : Reg) (s : State) : Out :=
  aluR d a b (fun a b => a.rotateRight (amount b)) s

/-- `MIN` (R226). -/
def execMin (d a b : Reg) (s : State) : Out :=
  aluR d a b (fun a b => if a.toInt ≤ b.toInt then a else b) s

/-- `MAX` (R226). -/
def execMax (d a b : Reg) (s : State) : Out :=
  aluR d a b (fun a b => if a.toInt ≤ b.toInt then b else a) s

/-- `MINU` (R226). -/
def execMinu (d a b : Reg) (s : State) : Out :=
  aluR d a b (fun a b => if a.toNat ≤ b.toNat then a else b) s

/-- `MAXU` (R226). -/
def execMaxu (d a b : Reg) (s : State) : Out :=
  aluR d a b (fun a b => if a.toNat ≤ b.toNat then b else a) s

/-- `SLT` (R226). -/
def execSlt (d a b : Reg) (s : State) : Out :=
  aluR d a b (fun a b => flag (decide (a.toInt < b.toInt))) s

/-- `SLTU` (R226). -/
def execSltu (d a b : Reg) (s : State) : Out :=
  aluR d a b (fun a b => flag (decide (a.toNat < b.toNat))) s

/-- `SEQ` (R226). -/
def execSeq (d a b : Reg) (s : State) : Out :=
  aluR d a b (fun a b => flag (a == b)) s

/-- `SEL` (R228). -/
def execSel (d a b : Reg) (s : State) : Out :=
  aluR d a b (fun a b => if s.G d ≠ 0 then a else b) s

/-- `CLZ` (R229). -/
def execClz (d a : Reg) (s : State) : Out :=
  aluI d a clzWord s

/-- `CTZ` (R229). -/
def execCtz (d a : Reg) (s : State) : Out :=
  aluI d a ctzWord s

/-- `POPC` (R229). -/
def execPopc (d a : Reg) (s : State) : Out :=
  aluI d a popcWord s

/-- `BREV` (R229). -/
def execBrev (d a : Reg) (s : State) : Out :=
  aluI d a brevWord s

/-- A bit field of `width` bits at `lsb`: one that runs past bit 63 traps as illegal operand, field 2 (R230). -/
def fieldOp (d a : Reg) (width lsb : BitVec 6) (f : Nat → Nat → Word) (s : State) : Out :=
  finish 2 1 s (guardRegs s [(d, 0), (a, 1)]
    (if 64 < lsb.toNat + (width.toNat + 1) then .trap 2 2
     else guardHazard s [d, a] (.ok (s.setG d (f lsb.toNat (width.toNat + 1))))))

/-- `EXTU` (R230). -/
def execExtu (d a : Reg) (width lsb : BitVec 6) (s : State) : Out :=
  fieldOp d a width lsb (extractU (s.G a)) s

/-- `EXTS` (R230). -/
def execExts (d a : Reg) (width lsb : BitVec 6) (s : State) : Out :=
  fieldOp d a width lsb (extractS (s.G a)) s

/-- `INS` (R230). -/
def execIns (d a : Reg) (width lsb : BitVec 6) (s : State) : Out :=
  fieldOp d a width lsb (insertField (s.G d) (s.G a)) s

/-- `LEA` (R231). -/
def execLea (d a b : Reg) (sh : BitVec 3) (s : State) : Out :=
  aluR d a b (fun a b => a + (b <<< sh.toNat)) s

/-- `ADDI` (R232). -/
def execAddi (d a : Reg) (imm : BitVec 12) (s : State) : Out :=
  aluI d a (fun a => a + sext12 imm) s

/-- `ANDI` (R232). -/
def execAndi (d a : Reg) (imm : BitVec 12) (s : State) : Out :=
  aluI d a (fun a => a &&& sext12 imm) s

/-- `ORI` (R232). -/
def execOri (d a : Reg) (imm : BitVec 12) (s : State) : Out :=
  aluI d a (fun a => a ||| sext12 imm) s

/-- `XORI` (R232). -/
def execXori (d a : Reg) (imm : BitVec 12) (s : State) : Out :=
  aluI d a (fun a => a ^^^ sext12 imm) s

/-- `SHLI` (R232). -/
def execShli (d a : Reg) (sh : BitVec 6) (s : State) : Out :=
  aluI d a (fun a => a <<< sh.toNat) s

/-- `SHRI` (R232). -/
def execShri (d a : Reg) (sh : BitVec 6) (s : State) : Out :=
  aluI d a (fun a => a >>> sh.toNat) s

/-- `SARI` (R232). -/
def execSari (d a : Reg) (sh : BitVec 6) (s : State) : Out :=
  aluI d a (fun a => a.sshiftRight sh.toNat) s

/-- `MOVI gd, imm` (R65, R233). -/
def execMovi (d : Reg) (imm : BitVec 11) (s : State) : Out :=
  scalar 2 [(d, 0)] d (imm.signExtend 64) s

/-- `MOVI gd, icN` (R65): an inline constant that is not a 64-bit integer traps as illegal operand, field 2 (R64, R216). -/
def execMoviIc (d : Reg) (n : BitVec 6) (s : State) : Out :=
  finish 2 1 s <| guardRegs s [(d, 0)] <|
    match icInt (-9223372036854775808) 9223372036854775807 n.toNat with
    | some v => guardHazard s [d] (.ok (s.setG d (BitVec.ofInt 64 v)))
    | none => .trap 2 2

/-- `MOVHI` (R233). -/
def execMovhi (d a : Reg) (imm : BitVec 12) (s : State) : Out :=
  aluI d a (fun a => (a <<< 12) ||| imm.zeroExtend 64) s

/-- `SLTI` (R232). -/
def execSlti (d a : Reg) (imm : BitVec 12) (s : State) : Out :=
  aluI d a (fun a => flag (decide (a.toInt < (sext12 imm).toInt))) s

end Sys2Proof.Machine
end

