-- ==== Sys2Proof/Machine/VecFloat.lean ====
section
/-! DEFINITION. The V48 floating instructions (R274). -/

namespace Sys2Proof.Machine

/-- The operands of a floating entry (R274). -/
def floatSpec (f : VF) (unary : Bool) : VSpec := { b := if unary then .unused else .b, bFmt := f.fmt.toNat }

/-- A lane's operand value, after the input flush of the mode (R86, R92). -/
def floatLane (f : VF) (ex : Bool) (n : Nat) : FVal := (fpFmt f.fmt.toNat).flushIn ex ((fpFmt f.fmt.toNat).decode n)

/-- A floating entry: `g` gives a lane's result from its three operand values (R272, R274). -/
def floatOp (op latency : Nat) (unary : Bool) (f : VF) (g : FpFmt → Bool → FVal → FVal → FVal → Rounded) (s : State) : Out :=
  finish 3 1 s <| vecRun (floatSpec f unary) latency (encV op f) f
    (fun v k => (v.enabled (fun i =>
      (g (fpFmt f.fmt.toNat) v.ex (floatLane f v.ex (at64 v.a i)) (floatLane f v.ex (at64 v.b i))
        (floatLane f v.ex (at64 v.c i))).bits), k)) s

/-- An exact result rounded once, nearest even, in the mode's treatment of subnormals (R91, R92). -/
def rounded (x : FpFmt) (ex : Bool) (v : FVal) : Rounded := x.round .rne ex v

/-- The value with sign 0 (R274). -/
def FVal.abs : FVal → FVal
  | .nan => .nan
  | .inf _ => .inf false
  | .fin _ m e => .fin false m e

/-- `VADD`: the sum (R91, R274). -/
def execVadd (f : VF) (s : State) : Out :=
  floatOp 0x0 4 false f (fun x ex a b _ => rounded x ex (a.add b)) s
/-- `VSUB`: the difference (R91, R274). -/
def execVsub (f : VF) (s : State) : Out :=
  floatOp 0x1 4 false f (fun x ex a b _ => rounded x ex (a.add b.neg)) s
/-- `VMUL`: the product (R91, R274). -/
def execVmul (f : VF) (s : State) : Out :=
  floatOp 0x2 4 false f (fun x ex a b _ => rounded x ex (a.mul b)) s
/-- `VFMA`: a * b + c, rounded once (R91, R274). -/
def execVfma (f : VF) (s : State) : Out :=
  floatOp 0x3 4 false f (fun x ex a b c => rounded x ex ((a.mul b).add c)) s
/-- `VFMS`: a * b - c, rounded once (R91, R274). -/
def execVfms (f : VF) (s : State) : Out :=
  floatOp 0x4 4 false f (fun x ex a b c => rounded x ex ((a.mul b).add c.neg)) s
/-- `VFNMA`: -(a * b) + c, rounded once (R91, R274). -/
def execVfnma (f : VF) (s : State) : Out :=
  floatOp 0x5 4 false f (fun x ex a b c => rounded x ex ((a.mul b).neg.add c)) s
/-- `VMIN`: the minimum (R91, R274). -/
def execVmin (f : VF) (s : State) : Out :=
  floatOp 0x6 4 false f (fun x ex a b _ => rounded x ex (a.min b)) s
/-- `VMAX`: the maximum (R91, R274). -/
def execVmax (f : VF) (s : State) : Out :=
  floatOp 0x7 4 false f (fun x ex a b _ => rounded x ex (a.max b)) s
/-- `VABS`: the sign cleared (R91, R274). -/
def execVabs (f : VF) (s : State) : Out :=
  floatOp 0x8 4 true f (fun x ex a _ _ => rounded x ex a.abs) s
/-- `VNEG`: the sign inverted (R91, R274). -/
def execVneg (f : VF) (s : State) : Out :=
  floatOp 0x9 4 true f (fun x ex a _ _ => rounded x ex a.neg) s
/-- `VDIV`: the quotient (R91, R274). -/
def execVdiv (f : VF) (s : State) : Out :=
  floatOp 0xa 16 false f (fun x ex a b _ => x.div ex a b) s
/-- `VSQRT`: the square root (R91, R274). -/
def execVsqrt (f : VF) (s : State) : Out :=
  floatOp 0xb 16 true f (fun x ex a _ _ => x.sqrt ex a) s
/-- `VRSQRT`: the reciprocal square root (R91, R274). -/
def execVrsqrt (f : VF) (s : State) : Out :=
  floatOp 0xc 16 true f (fun x ex a _ _ => x.rsqrt ex a) s
/-- `VRCP`: the reciprocal (R91, R274). -/
def execVrcp (f : VF) (s : State) : Out :=
  floatOp 0xd 16 true f (fun x ex a _ _ => x.div ex (.fin false 1 0) a) s
/-- `VEXP2`: 2^a (R91, R274). -/
def execVexp2 (f : VF) (s : State) : Out :=
  floatOp 0xe 16 true f (fun x ex a _ _ => x.exp2 ex a) s
/-- `VLOG2`: log2 a (R91, R274). -/
def execVlog2 (f : VF) (s : State) : Out :=
  floatOp 0xf 16 true f (fun x ex a _ _ => x.log2 ex a) s

end Sys2Proof.Machine
end

