-- ==== Sys2Proof/Machine/VecInt.lean ====
section
/-! DEFINITION. The V48 integer and logic instructions (R275), the compares, the predicate instructions and `VSUM` (R276 to
R278). -/

namespace Sys2Proof.Machine

/-- The operands of an integer entry; in the pair formats all are pairs (R271, R275). -/
def intSpec (f : VF) : VSpec :=
  { dPair := pairFmt f.fmt, aPair := pairFmt f.fmt, bPair := pairFmt f.fmt, bFmt := f.fmt.toNat }

/-- An integer entry: `g` gives a lane's result, modulo 2^w, from the width and the operands' low w bits (R275). -/
def intOp (op : Nat) (f : VF) (g : Nat → Nat → Nat → Int) (s : State) : Out :=
  let w := fmtBits f.fmt.toNat
  finish 3 1 s <| vecRun (intSpec f) 2 (encV op f) f
    (fun v k => (v.enabled (fun i => intBits w (g w (at64 v.a i % 2 ^ w) (at64 v.b i % 2 ^ w))), k)) s

/-- The value of w bits in the entry's format: signed in the I formats (R84). -/
def laneInt (f : VF) (n : Nat) : Int := intOf f.fmt.toNat n

/-- The bits of a w-bit lane taken as signed. -/
def laneSigned (w n : Nat) : Int := if bitAt n (w - 1) then (n : Int) - (2 ^ w : Nat) else n

/-- `VIADD`: a + b (R275). -/
def execViadd (f : VF) (s : State) : Out := intOp 0x10 f (fun _ a b => (a + b : Nat)) s
/-- `VISUB`: a - b (R275). -/
def execVisub (f : VF) (s : State) : Out := intOp 0x11 f (fun _ a b => (a : Int) - b) s
/-- `VIMUL`: the low half of the product (R275). -/
def execVimul (f : VF) (s : State) : Out := intOp 0x12 f (fun _ a b => (a * b : Nat)) s
/-- `VIMULH`: the high half of the product (R275). -/
def execVimulh (f : VF) (s : State) : Out := intOp 0x13 f (fun w a b => laneInt f a * laneInt f b / (2 ^ w : Nat)) s
/-- `VAND`: AND (R275). -/
def execVand (f : VF) (s : State) : Out := intOp 0x14 f (fun _ a b => (a &&& b : Nat)) s
/-- `VOR`: OR (R275). -/
def execVor (f : VF) (s : State) : Out := intOp 0x15 f (fun _ a b => (a ||| b : Nat)) s
/-- `VXOR`: XOR (R275). -/
def execVxor (f : VF) (s : State) : Out := intOp 0x16 f (fun _ a b => (a ^^^ b : Nat)) s
/-- `VSHL`: left shift by b mod w (R275). -/
def execVshl (f : VF) (s : State) : Out := intOp 0x17 f (fun w a b => (a * 2 ^ (b % w) : Nat)) s
/-- `VSHR`: right shift with zeros by b mod w (R275). -/
def execVshr (f : VF) (s : State) : Out := intOp 0x18 f (fun w a b => (a / 2 ^ (b % w) : Nat)) s
/-- `VSAR`: right shift with copies of the sign bit by b mod w (R275). -/
def execVsar (f : VF) (s : State) : Out := intOp 0x19 f (fun w a b => laneSigned w a / (2 ^ (b % w) : Nat)) s
/-- `VIMIN`: the lesser (R275). -/
def execVimin (f : VF) (s : State) : Out := intOp 0x1a f (fun _ a b => Min.min (laneInt f a) (laneInt f b)) s
/-- `VIMAX`: the greater (R275). -/
def execVimax (f : VF) (s : State) : Out := intOp 0x1b f (fun _ a b => Max.max (laneInt f a) (laneInt f b)) s

/-! ### Compares (R276) -/

/-- The condition of a modifier on an order, for operands that are ordered. -/
def orderCond (m : Nat) (o : Ordering) : Bool :=
  match m with
  | 0 => o == .eq
  | 1 => o != .eq
  | 2 => o == .lt
  | 3 => o != .gt
  | 4 => o == .gt
  | _ => o != .lt

/-- `VCMP`'s condition on two values: a NaN makes every condition false but `.NE` and `.UN`. -/
def floatCond (m : Nat) (a b : FVal) : Bool :=
  let un := a == .nan || b == .nan
  if m = 6 then un
  else if m = 7 then !un
  else if un then m == 1
  else orderCond m (a.cmpVal b)

/-- `VCMP` (R276). -/
def execVcmp (f : VF) (s : State) : Out :=
  finish 3 1 s <| vecRun { d := .pred, bFmt := f.fmt.toNat } 2 (encV 0x20 f) f
    (fun v k => (v.enabled (fun i =>
      (floatCond f.mod.toNat (floatLane f v.ex (at64 v.a i)) (floatLane f v.ex (at64 v.b i))).toNat), k)) s

/-- `VICMP` (R276). -/
def execVicmp (f : VF) (s : State) : Out :=
  finish 3 1 s <| vecRun { intSpec f with d := .pred, dPair := false } 2 (encV 0x21 f) f
    (fun v k => (v.enabled (fun i =>
      (orderCond f.mod.toNat (compare (laneInt f (at64 v.a i)) (laneInt f (at64 v.b i)))).toNat), k)) s

/-! ### Predicates (R277) -/

/-- A predicate instruction of two sources, bit by bit; it writes all 64 bits. -/
def predOp (op : Nat) (unary : Bool) (f : VF) (g : Bool → Bool → Bool) (s : State) : Out :=
  finish 3 1 s <| vecRun { d := .pred, a := .pred, b := if unary then .unused else .pred } 2 (encV op f) f
    (fun v k => (everyLane (fun i => (g (at64 v.a i == 1) (at64 v.b i == 1)).toNat), k)) s

/-- `PAND` (R277). -/
def execPand (f : VF) (s : State) : Out := predOp 0x22 false f (fun a b => a && b) s
/-- `POR` (R277). -/
def execPor (f : VF) (s : State) : Out := predOp 0x23 false f (fun a b => a || b) s
/-- `PXOR` (R277). -/
def execPxor (f : VF) (s : State) : Out := predOp 0x24 false f (fun a b => a != b) s
/-- `PANDN` (R277). -/
def execPandn (f : VF) (s : State) : Out := predOp 0x25 false f (fun a b => a && !b) s
/-- `PNOT` (R277). -/
def execPnot (f : VF) (s : State) : Out := predOp 0x26 true f (fun a _ => !a) s

/-- The range of U32 and of I32 where b is taken as an integer (R270). -/
def u32Range : Int × Int := intRange 6

/-- `PSET` (R277): the bits below n, or those at or above it. -/
def execPset (f : VF) (s : State) : Out :=
  finish 3 1 s <| vecRun { d := .pred, a := .unused, b := .scalar, bInt := some u32Range } 2 (encV 0x27 f) f
    (fun v k => (everyLane (fun i => ((i < min 64 (at64 v.b 0)) != (f.mod == 1) : Bool).toNat), k)) s

/-! ### The summary queue (R278) -/

/-- Capacity of `zq` (R31). -/
def summaryDepth : Nat := 8

/-- Reserve the next `zq` entry (R73) and put in flight the word it takes. -/
def Core.pushSum (k : Core) (latency : Nat) (v : Lane) : Core :=
  Core.launch { k with zq := k.zq ++ [⟨k.nextTag, none⟩], nextTag := k.nextTag + 1 } latency [.sum k.nextTag v]

/-- `VSUM` (R278): counts the bits of a predicate register in the enabled lanes. -/
def execVsum (f : VF) (s : State) : Out :=
  finish 3 1 s <| guardCtx (s.ctx == .cmp) (encV 0x28 f) <|
    if 31 < f.a.toNat then .trap 2 1
    else
      let k := readCore s.curCore
      if summaryDepth ≤ k.zq.length then .wait
      else
        let en := (List.range 64).filter (fun i => (enabledLanes k f).getD i false)
        let n := (en.filter (fun i => bitAt (k.pred f.a.toNat).toNat i)).length
        .ok (s.setCurCore (k.pushSum 6 (summaryWord n en.length)))

end Sys2Proof.Machine
end

