-- ==== Sys2Proof/Machine/VecMove.lean ====
section
/-! DEFINITION. The V48 moves, permutations, matrix lines, reduction, conversion, the stochastic state and BX packing (R279 to
R287). -/

namespace Sys2Proof.Machine

/-! ### Moves (R279) -/

/-- `VMOV` (R279): the low bits of the format. -/
def execVmov (f : VF) (s : State) : Out :=
  finish 3 1 s <| vecRun { intSpec f with a := .unused, aPair := false } 2 (encV 0x30 f) f
    (fun v k => (v.enabled (fun i => at64 v.b i % 2 ^ fmtBits f.fmt.toNat), k)) s

/-- `VSEL` (R279): every lane is written, from a where enabled and from b elsewhere. -/
def execVsel (f : VF) (s : State) : Out :=
  finish 3 1 s <| vecRun (intSpec f) 2 (encV 0x31 f) f
    (fun v k => (everyLane (fun i => if v.en.getD i false then at64 v.a i else at64 v.b i), k)) s

/-- `VBCAST` (R279). -/
def execVbcast (f : VF) (s : State) : Out :=
  finish 3 1 s <| vecRun { bInt := some u32Range } 2 (encV 0x32 f) f
    (fun v k => (v.enabled (fun _ => at64 v.a (at64 v.b 0 % 64)), k)) s

/-- `VIOTA` (R279). -/
def execViota (f : VF) (s : State) : Out :=
  finish 3 1 s <| vecRun { a := .unused, bFmt := f.fmt.toNat } 2 (encV 0x33 f) f
    (fun v k => (v.enabled (fun i => (at64 v.b i + i) % 2 ^ 32), k)) s

/-! ### Permutations (R280) -/

/-- `VPERM` (R280). -/
def execVperm (f : VF) (s : State) : Out :=
  finish 3 1 s <| vecRun {} 3 (encV 0x34 f) f
    (fun v k => (v.enabled (fun i => at64 v.a (at64 v.b i % 64)), k)) s

/-- `VSLIDE` (R280). -/
def execVslide (f : VF) (s : State) : Out :=
  finish 3 1 s <| vecRun { bInt := some (intRange 5) } 3 (encV 0x35 f) f
    (fun v k =>
      let n := intOf 5 (at64 v.b 0)
      (v.enabled (fun i =>
        let j : Int := i + n
        if f.mod = 1 then at64 v.a (j % 64).toNat
        else if 0 ≤ j ∧ j ≤ 63 then at64 v.a j.toNat else 0), k)) s

/-! ### Lines of matrix registers (R281) -/

/-- Row and column of the element of lane `i` of line `n`. -/
def lineElem (m n i : Nat) : Nat × Nat :=
  match m with
  | 0 => (n, i)
  | 1 => (i, n)
  | _ => (i, (i + n) % 64)

/-- `VLINE` (R281): reads the register in one step at issue (R282). -/
def execVline (f : VF) (s : State) : Out :=
  finish 3 1 s <| vecRun { a := .mat, bInt := some u32Range } 3 (encV 0x36 f) f
    (fun v k =>
      (v.enabled (fun i =>
        let e := lineElem f.mod.toNat (at64 v.b 0 % 64) i
        (k.elem f.a.toNat e.1 e.2).toNat), k)) s

/-- `VPUTL` (R281): writes the elements of the enabled lanes in one step when it lands (R282). -/
def execVputl (f : VF) (s : State) : Out :=
  finish 3 1 s <| vecRun { d := .mat, bInt := some u32Range } 3 (encV 0x37 f) f
    (fun v k =>
      ((v.enabled (at64 v.a)).map (fun p =>
        let e := lineElem f.mod.toNat (at64 v.b 0 % 64) p.1
        (64 * e.1 + e.2, p.2)), k)) s

/-! ### Reduction (R113, R283) -/

/-- One level of the tree: adjacent pairs added, the lower-numbered first. -/
def pairUp (g : Nat → Nat → Nat) : List Nat → List Nat
  | a :: b :: r => g a b :: pairUp g r
  | l => l

/-- The sum of 64 lanes in a tree of six levels. -/
def treeSum (g : Nat → Nat → Nat) (l : List Nat) : Nat :=
  (pairUp g (pairUp g (pairUp g (pairUp g (pairUp g (pairUp g l)))))).headD 0

/-- The addition of a reduction: R91 in a floating format, with the mode's treatment of subnormals, or wrapping. -/
def reduceAdd (f : VF) (ex : Bool) (a b : Nat) : Nat :=
  if f.fmt.toNat ≤ 4 then (rounded (fpFmt f.fmt.toNat) ex ((floatLane f ex a).add (floatLane f ex b))).bits
  else (a + b) % 2 ^ 32

/-- What a disabled lane contributes: -0, or 0. -/
def reduceIdle (f : VF) : Nat := if f.fmt.toNat ≤ 4 then 2 ^ (fmtBits f.fmt.toNat - 1) else 0

/-- `VREDUCE` (R283): the sum is written to every lane. -/
def execVreduce (f : VF) (s : State) : Out :=
  finish 3 1 s <| vecRun { b := .unused } 10 (encV 0x38 f) f
    (fun v k =>
      let r := treeSum (reduceAdd f v.ex)
        ((List.range 64).map (fun i =>
          if v.en.getD i false then at64 v.a i % 2 ^ fmtBits f.fmt.toNat else reduceIdle f))
      (everyLane (fun _ => r), k)) s

/-! ### Conversion and the stochastic state (R94, R284, R285) -/

/-- One draw: the next state (R94). -/
def nextDraw (x : Lane) : Lane :=
  let x := if x = 0 then 1 else x
  let x := x ^^^ (x <<< 13)
  let x := x ^^^ (x >>> 17)
  x ^^^ (x <<< 5)

/-- A draw in each enabled lane. -/
def Core.draw (k : Core) (en : List Bool) : Core :=
  let ds := ((List.range 64).filter (fun i => en.getD i false)).map (fun i => (i, nextDraw (k.sr.get 0 i)))
  { k with sr := k.sr.setAll ds }

/-- `VCVT` (R284). A `.SR` conversion draws in every enabled lane at issue. -/
def execVcvt (f : VF) (s : State) : Out :=
  finish 3 1 s <| vecRun
    { b := .unused, dPair := pairFmt f.fmt, aPair := pairFmt (bits f.b.toNat 0 4) } 4 (encV 0x40 f) f
    (fun v k =>
      let k' := if f.mod.toNat = 3 then k.draw v.en else k
      (v.enabled (fun i =>
        convert f.fmt.toNat f.b.toNat f.mod.toNat (k'.sr.get 0 i).toNat v.ex (at64 v.a i)), k')) s

/-- `VSEED` (R285): the state of each enabled lane, at issue. -/
def execVseed (f : VF) (s : State) : Out :=
  finish 3 1 s <| vecRun { d := .unused, a := .unused, bInt := some u32Range } 2 (encV 0x43 f) f
    (fun v k =>
      ([], { k with sr := k.sr.setAll ((v.enabled (at64 v.b)).map (fun e => (e.1, BitVec.ofNat 32 e.2))) })) s

/-! ### BX packing (R286, R287) -/

/-- `VPACKBX` (R286): disabled lanes enter as +0; the destination is written whole. -/
def execVpackbx (f : VF) (s : State) : Out :=
  finish 3 1 s <| vecRun { b := .unused } 4 (encV 0x41 f) f
    (fun v k =>
      let x := fpFmt f.b.toNat
      let vals := (List.range 64).map (fun i =>
        if v.en.getD i false then x.flushIn v.ex (x.decode (at64 v.a i)) else .fin false 0 0)
      let w := bxW f.fmt.toNat
      let n := packBx w (vals.take 32) + packBx w (vals.drop 32) * 2 ^ (8 * bxLen f.fmt.toNat)
      (everyLane (fun i => field n (32 * i) 32), k)) s

/-- `VUNPKBX` (R287). -/
def execVunpkbx (f : VF) (s : State) : Out :=
  finish 3 1 s <| vecRun { a := .regQ, b := .unused } 4 (encV 0x42 f) f
    (fun v k =>
      let all := leNat (laneBytes v.a)
      let n := 8 * bxLen f.b.toNat
      let w := bxW f.b.toNat
      (v.enabled (fun i =>
        let e := bxElem w (field all (n * (i / 32)) n) (i % 32)
        (rounded (fpFmt f.fmt.toNat) v.ex (bxVal w e.1 e.2.1 e.2.2)).bits), k)) s

end Sys2Proof.Machine
end

