-- ==== Sys2Proof/Machine/Matrix.lean ====
section
/-! DEFINITION. The X64 instructions (R288 to R300), the products they form (R100 to R108), and their drains (R109, R111,
R112). -/

namespace Sys2Proof.Machine

/-! ### Elements (R100) -/

/-- The value of an A or B element in a format, and whether the input flush changed it (R92, R100). -/
def matVal (fmt : Nat) (ex : Bool) (b : Nat) : FVal × Bool :=
  if 12 ≤ fmt then (bxLaidVal (bxW fmt) b, false)
  else
    let x := fpFmt fmt
    (x.flushIn ex (x.decode b), ex && x.subnormal (x.decode b))

/-- A(i, k) of an A group, as stored (R100). -/
def Core.aElem (k : Core) (a : Nat) (tr : Bool) (i kk : Nat) : Nat :=
  (if tr then k.elem (a + kk / 64) (kk % 64) i else k.elem (a + kk / 64) i (kk % 64)).toNat

/-- B(k, n) of a weight slot, as stored. -/
def Core.bElem (k : Core) (slot kk n : Nat) : Nat := (k.w.get 0 (slotKey slot kk n)).toNat

/-- The key of C(i, n) of a group (R100). -/
def accKey (acc i n : Nat) : Nat := elemKey (acc + n / 64) i (n % 64)

/-! ### Group sums and accumulation (R101 to R104) -/

/-- The exact sum of products (R102). -/
def groupSum : List FVal → FVal
  | [] => .fin false 0 0
  | p :: r => r.foldl FVal.add p

/-- Cut a list into groups of 16. -/
def groups16 {α : Type} : Nat → List α → List (List α)
  | 0, _ => []
  | n + 1, l => l.take 16 :: groups16 n (l.drop 16)

/-- An accumulator on its way: its bits and the status bits met. -/
structure Acc where
  val : Nat
  st  : Nat := 0
  deriving DecidableEq, Repr

/-- The status bits of a rounding. -/
def roundStatus (r : Rounded) : Nat := (if r.ovf then tOVF else 0) ||| (if r.flush then tFLUSH else 0)

/-- One floating group added (R101): the group sum rounded, then the addition rounded. With no accumulator yet the group sum is
the accumulator (R104). -/
def addGroup (ex : Bool) (acc : Option Acc) (st : Nat) (ps : List FVal) : Acc :=
  let f32 := fpFmt 0
  let gs := f32.round .rne ex (groupSum ps)
  match acc with
  | none => ⟨gs.bits, st ||| roundStatus gs⟩
  | some a =>
    let r := f32.round .rne ex ((f32.decode a.val).add (f32.decode gs.bits))
    ⟨r.bits, a.st ||| roundStatus gs ||| roundStatus r⟩

/-- Groups added in ascending order. -/
def addGroups (ex : Bool) (st : Nat) : Option Acc → List (List FVal) → Option Acc
  | acc, [] => acc
  | acc, g :: r => addGroups ex st (some (addGroup ex acc st g)) r

/-- One INT8 group added modulo 2^32 (R103). -/
def addGroupInt (acc : Option Acc) (ps : List Int) : Acc :=
  let g := ps.foldl (· + ·) 0
  match acc with
  | none => ⟨intBits 32 g, 0⟩
  | some a =>
    let v := intOf 5 a.val + g
    ⟨intBits 32 v, a.st ||| (if v < -2147483648 ∨ 2147483647 < v then tWRAP else 0)⟩

/-- INT8 groups added in ascending order. -/
def addGroupsInt : Option Acc → List (List Int) → Option Acc
  | acc, [] => acc
  | acc, g :: r => addGroupsInt (some (addGroupInt acc g)) r

/-- The accumulator element as it is read: flushed in exposed mode (R101). -/
def accIn (ex : Bool) (c : Nat) : Acc :=
  let f32 := fpFmt 0
  if ex && f32.subnormal (f32.decode c) then ⟨f32.signed (bitAt c 31) 0, tFLUSH⟩ else ⟨c, 0⟩

/-- C(i, n) of an `MMA` and its status bits (R101 to R104, R109), from a row of A, a column of B and the accumulator element. -/
def mmaElem (f : XF) (ex : Bool) (as bs : List Nat) (c : Nat) : Nat × Nat :=
  let n := as.length / 16 + 1
  if f.fmt = 9 then
    let ps := List.zipWith (fun a b => (if f.neg then -(intOf 9 a * intOf 9 b) else intOf 9 a * intOf 9 b)) as bs
    match addGroupsInt (if f.nacc then none else some ⟨c, 0⟩) ((groups16 n ps).filter (· != [])) with
    | some a => (a.val, a.st)
    | none => (c, 0)
  else
    let av := as.map (matVal f.fmt.toNat ex)
    let bv := bs.map (matVal f.fmt.toNat ex)
    let st := if av.any (·.2) || bv.any (·.2) then tFLUSH else 0
    let ps := List.zipWith (fun a b => (if f.neg then (a.1.mul b.1).neg else a.1.mul b.1)) av bv
    let acc := if f.nacc then none else some { accIn ex c with st := (accIn ex c).st ||| st }
    match addGroups ex st acc ((groups16 n ps).filter (· != [])) with
    | some a => (a.val, a.st ||| elemStatus a.val false false)
    | none => (c, 0)

/-! ### Checks and issue (R289, R290) -/

/-- Registers of a group (R62). -/
def groupSize (code : BitVec 2) : Nat := 2 ^ code.toNat

/-- The lowest register of a group that fails: misaligned, past `m15`, or outside the allocation (R29, R289). -/
def groupFail (malloc first size : Nat) : Option Nat :=
  if first % size ≠ 0 then some first
  else if min malloc 16 < first + size then some (max first (min malloc 16))
  else none

/-- The lowest of some numbers. -/
def lowest : List (Option Nat) → Option Nat
  | [] => none
  | none :: r => lowest r
  | some a :: r =>
    match lowest r with
    | some b => some (min a b)
    | none => some a

/-- Two groups share a register. -/
def overlap (a sa b sb : Nat) : Bool := decide (a < b + sb) && decide (b < a + sa)

/-- Passes of a format (R15, R99). -/
def passes : Nat → Nat
  | 12 => 1
  | 13 => 3
  | 4 => 3
  | 3 => 4
  | 14 => 6
  | 2 => 8
  | 9 => 8
  | _ => 11

/-- The checks and waits of an X64 instruction, and its effect (R289, R290): `fails` are the operand checks, `ranges` the
register checks, `occ` the occupancy if it waits for one, `zq` how many summary entries it needs. While it waits for occupancy,
slots elapse one after another, and nothing else issues in them; the room in `zq` is asked for in the slot it issues in. An X64
instruction breaks the chain unless its body says otherwise (R105). -/
def matrixRun (word : Nat) (fails : List (Nat × Bool)) (ranges : List (Option Nat)) (occ : Option Nat) (zq : Nat)
    (body : Core → Core) (s : State) : Act :=
  guardCtx (s.ctx == .cmp) word <|
    if s.curCore.fenced then .trap 1 (BitVec.ofNat 64 word)
    else
      guardFields fails <|
        match lowest ranges with
        | some r => .trap 3 (BitVec.ofNat 64 r)
        | none =>
          let k := readCore s.curCore
          if occ.isSome && decide (k.slot < k.occEnd) then .stay (s.setCurCore { k.tick 1 with frozen := false, waits := true })
          else if summaryDepth < k.zq.length + zq then .wait
          else .ok (s.setCurCore (body (match occ with
            | some n => { k with occEnd := k.slot + n }
            | none => k)))

/-- Put a result of the matrix engine in flight. -/
def Core.launchMat (k : Core) (latency : Nat) (slot : Option Nat) (drain checked : Bool) (acc group : Nat)
    (ws : List LWrite) : Core :=
  { k with flight := k.flight ++ [{ due := k.slot + latency, slot := slot, drain := drain, checked := checked, acc := acc,
                                    group := group, writes := ws }] }

/-- The status writes of a drain: for each register of the group, the bits of the elements that lie in it (R109). -/
def statusWrites (acc group : Nat) (es : List (Nat × Nat × Nat)) : List LWrite :=
  (List.range group).map (fun j =>
    .status (acc + j) (BitVec.ofNat 32 ((es.filter (fun e => e.1 / 4096 == acc + j)).foldl (fun b e => b ||| e.2.2) 0)))

/-- The element writes of a drain. -/
def elemCells (es : List (Nat × Nat × Nat)) : List (Nat × Lane) := es.map (fun e => (e.1, BitVec.ofNat 32 e.2.1))

/-- The pairs (i, n) of a shape. -/
def shape (m n : Nat) : List (Nat × Nat) := (List.range m).flatMap (fun i => (List.range n).map (fun j => (i, j)))

/-! ### `MMA` (R291 to R293) -/

/-- M, K and N of a word. -/
def matM (f : XF) : Nat := f.m.toNat + 1
/-- K. -/
def matK (f : XF) : Nat := f.k.toNat + 1
/-- N. -/
def matN (f : XF) : Nat := f.n.toNat + 1

/-- Some K group of an `MMA` is checked (R111): every element of A and B in it is finite. -/
def groupChecked (f : XF) (ex : Bool) (rows cols : List (List Nat)) : Bool :=
  let fin (b : Nat) : Bool :=
    match (matVal f.fmt.toNat ex b).1 with
    | .fin _ _ _ => true
    | _ => false
  (List.range ((matK f + 15) / 16)).any (fun g =>
    (rows ++ cols).all (fun l => ((l.drop (16 * g)).take 16).all (fun b => f.fmt == 9 || fin b)))

/-- The elements of a group as an `MMA` leaves them (R105, R292): those of every earlier result once it has landed, and its own
over them. -/
def Core.leaves (k : Core) (acc group : Nat) (cells : List (Nat × Lane)) : Tab Lane :=
  (k.landAll.m.setAll cells).filter (fun e => acc ≤ e.1 / 4096 && e.1 / 4096 < acc + group)

/-- An `MMA` as issued (R292): its elements from the A group and the slot, and from the accumulator as the `MMA` it chains to
leaves it, or as read at issue. -/
def mmaIssue (f : XF) (k : Core) : Core :=
  let ex := k.cmp.exposed
  let c := f.c.toNat
  let cin : Tab Lane :=
    match k.chain with
    | some h => if h.acc = c ∧ h.group = groupSize f.cg then h.cells else k.m
    | none => k.m
  let rows := (List.range (matM f)).map (fun i => (List.range (matK f)).map (k.aElem f.a.toNat f.tr i))
  let cols := (List.range (matN f)).map (fun n => (List.range (matK f)).map (fun kk => k.bElem f.slot.toNat kk n))
  let es := (shape (matM f) (matN f)).map (fun p =>
    let key := accKey c p.1 p.2
    (key, mmaElem f ex (rows.getD p.1 []) (cols.getD p.2 []) (cin.get 0 key).toNat))
  let cells := elemCells es
  { k.launchMat (16 + matM f * passes f.fmt.toNat) (some f.slot.toNat) true (groupChecked f ex rows cols) c (groupSize f.cg)
      (.elems cells :: statusWrites c (groupSize f.cg) es) with
    chain := some ⟨c, groupSize f.cg, k.leaves c (groupSize f.cg) cells⟩ }

/-- `MMA` (R291, R292). -/
def execMma (f : XF) (s : State) : Out :=
  let ga := groupSize f.ag
  let gc := groupSize f.cg
  let malloc := (s.teamOf s.core).malloc
  finish 4 1 s <| matrixRun (encX 0x00 f)
    [(1, overlap f.a.toNat ga f.c.toNat gc), (2, 64 * ga < matK f || 64 * gc < matN f)]
    [groupFail malloc f.c.toNat gc, groupFail malloc f.a.toNat ga] (some (matM f * passes f.fmt.toNat)) 0 (mmaIssue f) s

/-! ### `MSCALE` (R294, R295) -/

/-- Byte `i` of a vector register (R108). -/
def Core.vecByte (k : Core) (r i : Nat) : Nat := field (k.lane r (i / 4)).toNat (8 * (i % 4)) 8

/-- One element of `MSCALE` and its status bits (R108, R109). -/
def scaleElem (ex : Bool) (c p ea eb : Nat) : Nat × Nat :=
  let f32 := fpFmt 0
  let a := f32.flushIn ex (f32.decode c)
  let q := f32.flushIn ex (f32.decode p)
  let st := if ex && (f32.subnormal (f32.decode c) || f32.subnormal (f32.decode p)) then tFLUSH else 0
  let r : Rounded :=
    if ea = 255 ∨ eb = 255 then ⟨f32.nanBits, false, false⟩
    else f32.round .rne ex (a.add (q.mul (.fin false 1 ((ea : Int) - 127 + ((eb : Int) - 127)))))
  (r.bits, st ||| roundStatus r ||| elemStatus r.bits false false)

/-- `MSCALE` as issued. -/
def mscaleIssue (f : XF) (k : Core) : Core :=
  let c := f.c.toNat
  let e := field f.k.toNat 0 6
  let es := (shape (matM f) (matN f)).map (fun p =>
    (accKey c p.1 p.2, scaleElem k.cmp.exposed (k.m.get 0 (accKey c p.1 p.2)).toNat
      (k.m.get 0 (accKey f.a.toNat p.1 p.2)).toNat (k.vecByte e p.1) (k.vecByte (e + 1) p.2)))
  { k.launchMat 6 none true false c (groupSize f.cg) (.elems (elemCells es) :: statusWrites c (groupSize f.cg) es) with
    chain := none }

/-- `MSCALE` (R294, R295). -/
def execMscale (f : XF) (s : State) : Out :=
  let g := groupSize f.cg
  let tm := s.teamOf s.core
  let e := field f.k.toNat 0 6
  let top := 8 * tm.valloc + 7
  finish 4 1 s <| matrixRun (encX 0x01 f)
    [(1, f.ag != f.cg || overlap f.a.toNat g f.c.toNat g), (2, 64 * g < matN f)]
    [groupFail tm.malloc f.c.toNat g, groupFail tm.malloc f.a.toNat g,
      if e % 2 = 1 ∨ top < e then some e else if top < e + 1 then some (e + 1) else none]
    (some 4) 0 (mscaleIssue f) s

/-! ### `MZERO`, `MMOV`, `MSTAT`, `MCHECK` (R296 to R300) -/

/-- `MZERO` (R296). -/
def execMzero (f : XF) (s : State) : Out :=
  let g := groupSize f.cg
  finish 4 1 s <| matrixRun (encX 0x02 f) [] [groupFail (s.teamOf s.core).malloc f.c.toNat g] (some 1) 0
    (fun k => { k.launchMat 2 none false false f.c.toNat g ((List.range g).map (fun j => .clear (f.c.toNat + j))) with
                chain := none }) s

/-- The elements `MMOV` writes (R297). -/
def movedCells (f : XF) (k : Core) : List (Nat × Lane) :=
  (List.range (groupSize f.cg)).flatMap (fun j => (shape 64 64).map (fun p =>
    (elemKey (f.c.toNat + j) p.1 p.2,
      if f.tr then k.elem f.a.toNat p.2 p.1 else k.elem (f.a.toNat + j) p.1 p.2)))

/-- `MMOV` (R297). -/
def execMmov (f : XF) (s : State) : Out :=
  let g := groupSize f.cg
  let malloc := (s.teamOf s.core).malloc
  finish 4 1 s <| matrixRun (encX 0x03 f) [(1, f.ag != f.cg || (f.tr && f.cg != 0))]
    [groupFail malloc f.c.toNat g, groupFail malloc f.a.toNat g] (some 1) 0
    (fun k => { k.launchMat 4 none false false f.c.toNat g [.elems (movedCells f k)] with chain := none }) s

/-- Push the status words of a group, as of every landing so far (R298). -/
def pushStatus (first : Nat) : Nat → Nat → Core → Core
  | _, 0, k => k
  | j, n + 1, k => pushStatus first (j + 1) n (k.pushSum 2 (k.tstat.get 0 (first + j)))

/-- `MSTAT` (R298). -/
def execMstat (f : XF) (s : State) : Out :=
  let g := groupSize f.cg
  finish 4 1 s <| matrixRun (encX 0x04 f) [] [groupFail (s.teamOf s.core).malloc f.c.toNat g] none g
    (fun k => { pushStatus f.c.toNat 0 g k with chain := none }) s

/-- The word of the self-test at a step of the machine (R299): how many rows and columns fail says whether the array is sound,
which is no state of the machine, so both counts are free values within their bounds. -/
def selfTest (n : Nat) : Lane := checkWord (Config.checkRows n % 65) (Config.checkCols n % 257)

/-- `MCHECK` (R299): it changes no register, slot or status word. -/
def execMcheck (f : XF) (s : State) : Out :=
  let lat := 64 * passes f.fmt.toNat
  finish 4 1 s <| matrixRun (encX 0x05 f) [] [] (some lat) 1
    (fun k =>
      let tag := k.nextTag
      { Core.launchMat { k with zq := k.zq ++ [⟨tag, none⟩], nextTag := tag + 1 } (16 + lat) (some f.slot.toNat) false false 0 0
          [.sum tag (selfTest s.steps)] with chain := none }) s

/-! ### Landing and draining (R73, R75, R109, R111, R112) -/

/-- Results land without an issue slot of the compute sequencer: it is in interlocked mode, or it has stopped. In exposed mode
they land as slots elapse. -/
def Core.landsAlone (k : Core) : Bool := k.cmp.run != .running || !k.cmp.exposed

/-- The earliest result in flight lands, where it may. -/
def State.landFirst (s : State) (c : Nat) (test : Landing → Bool) : State :=
  let k := s.coreAt c
  match dueOrder k.flight with
  | [] => s
  | l :: _ =>
    if k.landsAlone && test l then
      s.setCore c ({ k with flight := k.flight.erase l, slot := max k.slot l.due }.land l)
    else s

/-- `RESULT_LANDING` (R73). -/
def execResultLanding (c : Nat) (s : State) : Out := .next (s.landFirst c (fun _ => true))

/-- `MMA_DRAIN` (R109, R111, R112). `fails` says how many of the checks of the oldest checked `MMA` in flight failed: after one the
rerun gives the same result and CKRERUN, and the error is counted as transient; after two nothing drains, CKFAIL is set, the
engine is fenced and the task fails. -/
def execMmaDrain (c fails : Nat) (s : State) : Out :=
  let k := s.coreAt c
  if fails = 0 then .next (s.landFirst c (·.drain))
  else
    match k.flight.find? (fun l => l.checked && l.fails == 0) with
    | none => .next s
    | some l =>
      if fails = 1 then
        let s1 := s.setCore c { k with flight := k.flight.map (fun m => if m = l then { m with fails := 1 } else m) }
        .next (s1.countError 6 0 0 (dieOf c) (some (s.teamOf c).vf) c)
      else
        let s1 := s.setCore c (Core.land { k with flight := k.flight.erase l } { l with fails := 2 })
        .next (s1.fenceRung c)

end Sys2Proof.Machine
end

