-- ==== Sys2Proof/Machine/Control.lean ====
section
/-! DEFINITION. Branches, skips, loops, headers, the body end and the parked fetch (R66 to R70, R217, R223, R224, R234 to
R237). -/

namespace Sys2Proof.Machine

/-- Sext(offset) of a B form, as a parcel offset from the branch (R234). -/
def target (s : State) (off : BitVec 12) : Word := s.pc + off.signExtend 64

/-- A conditional branch (R234). -/
def condBranch (c : Cond) (a b : Reg) (off : BitVec 12) (s : State) : Out :=
  finish 2 1 s <| guardRegs s [(a, 0), (b, 1)] <| guardHazard s [a, b] <|
    if c.holds (s.G a) (s.G b) then s.branch (target s off) none else .ok s

/-- `BEQ` (R234). -/
def execBeq (a b : Reg) (off : BitVec 12) (s : State) : Out := condBranch .eq a b off s
/-- `BNE` (R234). -/
def execBne (a b : Reg) (off : BitVec 12) (s : State) : Out := condBranch .ne a b off s
/-- `BLT` (R234). -/
def execBlt (a b : Reg) (off : BitVec 12) (s : State) : Out := condBranch .lt a b off s
/-- `BGE` (R234). -/
def execBge (a b : Reg) (off : BitVec 12) (s : State) : Out := condBranch .ge a b off s
/-- `BLTU` (R234). -/
def execBltu (a b : Reg) (off : BitVec 12) (s : State) : Out := condBranch .ltu a b off s
/-- `BGEU` (R234). -/
def execBgeu (a b : Reg) (off : BitVec 12) (s : State) : Out := condBranch .geu a b off s

/-- `BR` (R235). -/
def execBr (off : BitVec 12) (s : State) : Out := finish 2 1 s (s.branch (target s off) none)

/-- `BRL` (R235): `g15` takes the offset after the branch, unless the branch traps. -/
def execBrl (off : BitVec 12) (s : State) : Out :=
  finish 2 1 s (guardHazard s [15] (s.branch (target s off) (some (s.pc + 2))))

/-- `BRX` (R236): through `g15` it is a return (R68, R219). -/
def execBrx (a : Reg) (s : State) : Out :=
  finish 2 1 s <| guardRegs s [(a, 1)] <| guardHazard s [a] <|
    if a = 15 then s.returnTo (s.G a) else s.branch (s.G a) none

/-- `RET` (R224). -/
def execRet (s : State) : Out := finish 1 1 s (guardHazard s [15] (s.returnTo (s.G 15)))

/-- `LEAVE` (R223): pops the innermost entry and goes on at its body end, without that entry's event. -/
def execLeave (s : State) : Out :=
  finish 1 1 s <|
    match s.cur.loops with
    | [] => .trap 1 (BitVec.ofNat 64 (encC 11 0 0))
    | e :: r => .go (s.setCur { s.cur with loops := r, pc := BitVec.ofNat 64 e.bodyEnd })

/-- A skip (R69, R237): a target beyond the innermost body end traps as bad branch target. -/
def skip (zero : Bool) (a : Reg) (n : BitVec 12) (s : State) : Out :=
  finish 2 1 s <| guardRegs s [(a, 0)] <| guardHazard s [a] <|
    if (s.G a == 0) = zero then
      let t := s.pc + 2 + n.zeroExtend 64
      match s.cur.loops with
      | e :: _ => if e.bodyEnd < t.toNat then .trap 4 t else .go (s.setCur { s.cur with pc := t })
      | [] => .go (s.setCur { s.cur with pc := t })
    else .ok s

/-- `SKIPZ` (R237). -/
def execSkipz (a : Reg) (n : BitVec 12) (s : State) : Out := skip true a n s
/-- `SKIPNZ` (R237). -/
def execSkipnz (a : Reg) (n : BitVec 12) (s : State) : Out := skip false a n s

/-- A code header reached by fetch (R66, R67). It takes no issue slot (log 11). -/
def execBlockHeader (h : Header) (s : State) : Out :=
  finish 2 0 s <| guardHazard s (if h.csrc = 1 then [countReg h] else []) <|
    match enterHeader s.ctx h s.pc s.cur.loops s.cur.rb s.cur.reg (BitVec.ofNat 64 (encH h)) with
    | .trap c i => .trap c i
    | .run ls pc rb => .go (s.setCur { s.cur with loops := ls, pc := pc, rb := rb })

/-- A data header reached by fetch is stepped over (R70). -/
def execDataHeader (len : BitVec 14) (s : State) : Out :=
  finish 2 0 s <|
    if len = 0 then .trap 1 0xF8000000
    else .go (s.setCur { s.cur with pc := s.pc + 2 + len.zeroExtend 64 })

/-- Fetch reaching an innermost body end (R67): its events take place; elsewhere nothing happens. -/
def execBodyEnd (s : State) : Out := .next (s.arrive s.cur.exposed 0)

/-- The state with another context as the one that issues. -/
def State.asCtx (s : State) (c : Nat) (x : CtxId) (f : State → State) : State :=
  { f { s with core := c, ctx := x } with core := s.core, ctx := s.ctx }

/-- What a fetch that does not give parcels does: it asks another device, parks or waits, which stalls the context (R73, R217); it ends
its context, traps, or stops. The trap names the offset of the first parcel of what is fetched, whichever parcel fails (log 107). -/
def State.fetchStops (s : State) (c : Nat) (x : CtxId) (t : Word) : Fetch → Host.Outcome State Fault Refusal
  | .parcels _ => .next s
  | .wait => .next (s.asCtx c x (fun s => s.freeze))
  | .park va => .next (s.asCtx c x (fun s => (s.addPark c va false).freeze))
  | .away d l a => .next (s.asCtx c x (fun s => (s.askFetch d l a).freeze))
  | .lost => .next (s.contextRung (s.coreAt c).team 5 0x0A (s.teamOf c).addr.toNat [])
  | .bad => .next (s.asCtx c x (fun s => s.takeTrap 4 t))
  | .nowhere => .fault .noSuchFrame

/-- A parked fetch performs (R217): the context holds the parcels and issues them next, or the header of the branch target it
waits for. A fetch that fails a check traps as bad branch target; one whose entry still parks, or whose home device has not
answered, stays parked. The answers are those of its lines' home devices. -/
def execInstructionFetch (c : Nat) (x : CtxId) (ch : Choice) (s : State) : Out :=
  let k := s.ctxAt c x
  if k.run != .running then .next s
  else
    let s := s.setCtx c x { k with lines := giveAnswers 0 k.lines ch.ans }
    let k := s.ctxAt c x
    match k.want with
    | some t =>
      match s.fetchMore c x (ch.cuts.headD 0) t.toNat 2 with
      | .parcels ps => .next (s.setCtx c x { k with want := none, ahead := some (t, ps), lines := [] })
      | f => s.fetchStops c x t f
    | none =>
      if k.fetched.isSome then .next s
      else
        match s.fetchAt c x (ch.cuts.headD 0) k.pc.toNat with
        | .parcels ps => .next (s.setCtx c x { k with fetched := some (k.pc, ps), lines := [] })
        | f => s.fetchStops c x k.pc f

end Sys2Proof.Machine
end

