-- ==== Sys2Proof/Machine/System.lean ====
section
/-! DEFINITION. The S32 system instructions and the special registers (R37, R38, R238 to R246). -/

namespace Sys2Proof.Machine

/-- STATUS as the issuing context reads it (R37, R241). -/
def statusWord (x : CtxId) (k : Core) : Word :=
  BitVec.ofNat 64 ((x == .biv).toNat + k.msgHold.toNat * 2 + k.demHold.toNat * 4 + k.hotHold.toNat * 8
    + k.pend.length * 16)

/-- A system register read, by number (R37): none where the number is not in the table, or names the trap frame from the
primary control context. -/
def sysRead (s : State) (n : Nat) : Option Word :=
  let k := s.curCore
  let f := k.frame
  let tm := s.teamOf s.core
  let framed (v : Word) : Option Word := if s.ctx = .biv then some v else none
  match n with
  | 0x0 => some (statusWord s.ctx k)
  | 0x1 => framed (BitVec.ofNat 64 (f.cause + f.seq * 256))
  | 0x2 => framed f.pc
  | 0x3 => framed f.info
  | 0x4 => framed (f.loops.get 0 0)
  | 0x5 => framed (f.loops.get 0 1)
  | 0x6 => framed (f.loops.get 0 2)
  | 0x7 => framed (f.loops.get 0 3)
  | 0x8 => framed f.rotbase
  | 0x9 => framed f.streams
  | 0xA => some (s.streamCounts s.core s.ctx (fun _ => true))
  | 0xB => some s.cur.hintDrop
  | 0xC => some (BitVec.ofNat 64 (s.cycles - k.start))
  | 0xD => some tm.addr
  | 0xE => some tm.param
  | 0xF => some k.faultLog
  | 0x10 => some (BitVec.ofNat 64 tm.vf)
  | _ => none

/-- A system register write, by number (R37, R38): none where it is not allowed. -/
def sysWrite (s : State) (n : Nat) (v : Word) : Option State :=
  let k := s.curCore
  let framed (g : Frame → Frame) : Option State :=
    if s.ctx = .biv then some (s.setCurCore { k with frame := g k.frame }) else none
  match n with
  | 0x0 =>
    some (s.setCurCore { k with msgHold := bitAt v.toNat 1, demHold := bitAt v.toNat 2, hotHold := bitAt v.toNat 3 })
  | 0x2 => framed (fun f => { f with pc := v })
  | 0x4 => framed (fun f => { f with loops := f.loops.set 0 v })
  | 0x5 => framed (fun f => { f with loops := f.loops.set 1 v })
  | 0x6 => framed (fun f => { f with loops := f.loops.set 2 v })
  | 0x7 => framed (fun f => { f with loops := f.loops.set 3 v })
  | 0x8 => framed (fun f => { f with rotbase := v &&& 31 })
  | 0xB => some (s.setCur { s.cur with hintDrop := v })
  | _ => none

/-- `TRAP` (R238): TRAPPC is the offset after it. In the bivouac context it ends the task with cause 0x04. -/
def execTrap (code : BitVec 17) (s : State) : Out :=
  if onControl s.ctx then .next (s.takeTrapAt 9 (code.zeroExtend 64) (s.pc + 2))
  else finish 2 1 s (.trap 1 (BitVec.ofNat 64 (encS 0x60 0 code)))

/-! ### The return (R239) -/

/-- The LOOPSTATE values keep R38: reserved bits zero, no valid entry above an invalid one. -/
def loopsLegal (f : Frame) : Bool :=
  let l (i : Nat) : Nat := (f.loops.get 0 i).toNat
  let valid (i : Nat) : Bool := bitAt (l i) 63
  (List.range 4).all (fun i => field (l i) 56 4 == 0)
    && !(!valid 0 && valid 1) && !(!valid 1 && valid 2) && !(!valid 2 && valid 3)

/-- The loop entry a LOOPSTATE value restores. Its LENGTH is that of the entry it was saved from where that is unchanged, or
that of the header word in the code image (log 9). -/
def restoreLoop (s : State) (c : Nat) (x : CtxId) (old : List LoopEntry) (i : Nat) (v : Word) : LoopEntry :=
  match old[i]? with
  | some e => if e.save = v then e else fresh
  | none => fresh
where
  fresh : LoopEntry :=
    let h : BitVec 32 := bits v.toNat 0 32
    let len : BitVec 14 :=
      match s.fetchMore c x 0 h.toNat 2 with
      | .parcels ps => bits (wordOf ps) 0 14
      | _ => Config.lostLength h
    ⟨h, bits v.toNat 32 24, bitAt v.toNat 62, bitAt v.toNat 61, bitAt v.toNat 60, len⟩

/-- The loop stack, innermost first, that the frame restores in context `x`. -/
def restoreLoops (s : State) (c : Nat) (x : CtxId) (f : Frame) : List LoopEntry :=
  let vs := (List.range 4).filterMap (fun i =>
    let v := f.loops.get 0 i
    if bitAt v.toNat 63 then some (i, v) else none)
  (vs.map (fun e => restoreLoop s c x (s.ctxAt c x).loops.reverse e.1 e.2)).reverse

/-- The return from the bivouac context (R239, R36): the loop stack, rb and pc of the sequencer that trapped, or of the primary control
context, are restored; it resumes, at an entry offset only where TRAPPC still names the one it stands at; the record of a handled copy fault
leaves the buffer (R258); the oldest pending cause that can be taken is taken. -/
def State.returnFromBivouac (s : State) : State :=
  let c := s.core
  let k := s.curCore
  let f := k.frame
  let x := if f.cause ≤ 9 then seqOf f.seq else .ctl
  let v := k.ctxOf x
  let v' : Ctx := { v with loops := restoreLoops s c x f, rb := f.rotbase.truncate 5, pc := f.pc,
                           run := if v.run = .trapped then .running else v.run, fetched := none,
                           atEntry := v.atEntry && v.pc == f.pc }
  let k := k.setCtx x v'.arrive
  let k := { k with biv := { k.biv with run := .idle },
                    records := if f.cause = 0x10 then k.records.filter (fun r => r.1 != f.record) else k.records }
  (s.setCurCore k).enter c

/-- `RTE` (R239): it waits until every operation of the bivouac context has performed; loop state that breaks R38 ends the task
as a trap in the bivouac context does. -/
def execRte (s : State) : Out :=
  if s.ctx ≠ .biv then finish 2 1 s (.trap 1 (BitVec.ofNat 64 (encS 0x61 0 0)))
  else if !s.cur.ops.all (s.performedOwn s.core) then .next s
  else if !loopsLegal s.curCore.frame then .next (s.takeTrap 2 0)
  else .next s.returnFromBivouac

/-- `MFS` (R241). -/
def execMfs (d : Reg) (n : BitVec 17) (s : State) : Out :=
  finish 2 1 s <| guardCtx (onControl s.ctx) (encS 0x62 d n) <|
    match sysRead s n.toNat with
    | some v => guardHazard s [d] (.ok (s.setG d v))
    | none => .trap 2 2

/-- `MTS` (R241): a cause that a cleared HOLD bit no longer holds enters at the next instruction boundary. -/
def execMts (r : Reg) (n : BitVec 17) (s : State) : Out :=
  let out := finish 2 1 s <| guardCtx (onControl s.ctx) (encS 0x63 r n) <|
    match sysWrite s n.toNat (s.G r) with
    | some s' => guardHazard s [r] (.ok s')
    | none => .trap 2 2
  match out with
  | .next s' => .next (s'.enter s.core)
  | o => o

/-- Field `n` of a work identifier cut by widths, n from 0 to 5 (R140). -/
def workField (widths : List Nat) (work : Word) (n : Nat) : Word :=
  BitVec.ofNat 64 (field work.toNat ((widths.take n).foldl (· + ·) 0) (widths.getD n 0))

/-- `ID` (R140, R242). -/
def execId (d : Reg) (n : BitVec 17) (s : State) : Out :=
  finish 2 1 s <| guardCtx (onControl s.ctx) (encS 0x64 d n) <|
    let tm := s.teamOf s.core
    if 7 < n.toNat then .trap 2 2
    else
      let v : Word :=
        if n = 6 then BitVec.ofNat 64 s.curCore.rank
        else if n = 7 then BitVec.ofNat 64 tm.size
        else workField tm.widths tm.work n.toNat
      guardHazard s [d] (.ok (s.setG d v))

/-- `TIME` (R243). -/
def execTime (d : Reg) (s : State) : Out :=
  finish 2 1 s <| guardCtx (onControl s.ctx) (encS 0x65 d 0) <| guardHazard s [d] <|
    .ok (s.setG d (BitVec.ofNat 64 s.time))

/-- `ENDTASK` (R244): ends the primary control context; in the bivouac context it traps, which ends the task. -/
def execEndtask (s : State) : Out :=
  finish 2 1 s <| guardCtx (s.ctx == .ctl) (encS 0x66 0 0) (.go (s.setCur { s.cur with run := .ended, loops := [] }))

/-- The bytes of the copy fault record `CFREAD` reads (R245): of the fault being handled, or of the one FAULTLOG names. -/
def faultRecord (s : State) : Option (List Byte) :=
  let k := s.curCore
  if s.ctx = .biv ∧ k.frame.cause = 0x10 then (k.records.find? (fun r => r.1 == k.frame.record)).map (·.2)
  else k.logRecord

/-- `CFREAD` (R245). -/
def execCfread (d : Reg) (n : BitVec 17) (s : State) : Out :=
  finish 2 1 s <| guardCtx (onControl s.ctx) (encS 0x67 d n) <|
    if 7 < n.toNat then .trap 2 2
    else
      let v : Word := match faultRecord s with
        | some bs => BitVec.ofNat 64 (leAt bs (8 * n.toNat) 8)
        | none => 0
      guardHazard s [d] (.ok (s.setG d v))

end Sys2Proof.Machine
end

