-- ==== Sys2Proof/Machine/Issue.lean ====
section
/-! DEFINITION. What every ordering operation shares: entering a stream, the conditions of performing, what a performance does,
and copy faults (R34, R116 to R131, R156, R158, R258). -/

namespace Sys2Proof.Machine

/-! ### Issue (R120 step 1, R34) -/

/-- Drop from a context's list the operations that have left their streams and are performed in every instance: no rule asks about
them again. -/
def State.sweep (s : State) (c : Nat) (x : CtxId) : State :=
  let k := s.ctxAt c x
  s.setCtx c x { k with ops := k.ops.filter (fun o => !(o.retired && o.st == .done && s.performedAt c o 3)) }

/-- The issuing context's stream is full (R34). -/
def State.streamFull (s : State) (n : BitVec 3) : Bool := decide (32 ≤ s.streamCount s.core s.ctx (fun _ => true) n.toNat)

/-- An operation joins the issuing context's operations (R120 step 1). -/
def State.enqueue (s : State) (o : Op) : State :=
  let s := s.sweep s.core s.ctx
  let k := s.cur
  s.setCur { k with ops := k.ops ++ [{ o with id := k.nextOp, pc := k.pc }], nextOp := k.nextOp + 1 }

/-- Issue an operation, or stall on a full stream. -/
def State.issueOp (s : State) (o : Op) : Act :=
  if s.streamFull o.f.t.stream then .wait else .ok (s.enqueue o)

/-- Issue an operation that holds its context's issue: until its check step (R248), or until it performs (R121). -/
def State.issueHold (s : State) (o : Op) (stay : Bool) : Act :=
  if s.streamFull o.f.t.stream then .wait
  else
    let s := s.enqueue o
    let s := s.setCur { s.cur with hold := some (s.cur.nextOp - 1) }
    if stay then .go s else .ok s

/-- The checks of an L48 instruction that every entry makes: the context (R63), its fields (R26, R247), those that name no register
first (log 93), and the registers it waits for (R121). `rs` are its register fields with their field numbers, `fs` its other fields. -/
def ordering (allowed : Bool) (code : Nat) (f : LF) (rs : List (Reg × Nat)) (fs : List (Nat × Bool)) (body : Act) (s : State) :
    Out :=
  finish 3 1 s <| guardCtx allowed (encL code f) <| guardFields fs <| guardRegs s rs <| guardHazard s (rs.map (·.1)) body

/-! ### Performing (R120 step 2) -/

/-- Operation `y` must be performed at the scope before `o` (R120): its stream is in the mask, or `o` has release, or `y` has
acquire. -/
def mustPrecede (y o : Op) : Bool := o.f.t.mask.getLsbD y.f.t.stream.toNat || o.f.t.rel || y.f.t.acq

/-- The predecessors of an operation are performed at a scope (R120 step 2). -/
def State.mayPerform (s : State) (c : Nat) (x : CtxId) (o : Op) (scope : Nat) : Bool :=
  ((s.ctxAt c x).ops.filter (fun y => decide (y.id < o.id))).all (fun y => !mustPrecede y o || s.performedAt c y scope)

/-- An operation of a context, by id. -/
def State.opAt (s : State) (c : Nat) (x : CtxId) (id : Nat) : Option Op := (s.ctxAt c x).ops.find? (fun o => o.id == id)

/-- Put an operation of a context. -/
def State.setOp (s : State) (c : Nat) (x : CtxId) (o : Op) : State :=
  let k := s.ctxAt c x
  s.setCtx c x { k with ops := k.ops.map (fun p => if p.id = o.id then o else p) }

/-- What comes of letting an operation perform. -/
inductive Perf where
  /-- It is performed: the register value, and the writes it took its value from and made. -/
  | done (s : State) (val : Option Word) (took wrote : List Nat)
  /-- It goes on waiting. -/
  | held (s : State)
  /-- It is parked on a plane entry (R158). -/
  | park (va : Word) (wr : Bool)
  /-- Another device has refused the write of some elements: it parks on its entry (R163). -/
  | refused (va : Word) (keys : List Nat) (dev lease : Nat)
  /-- A copy fault (R258). -/
  | fault (i : FaultInfo)
  /-- A trap at its check step (R248), and the address at which its record is parked, if firmware found no frame for it. -/
  | trap (cause : Nat) (info : Word) (va : Option Word := none)
  /-- Its check step has passed with this record, taken from these writes (R248). -/
  | checked (s : State) (bs : List Byte) (took : List Nat)
  /-- It ends its context at the context rung, with a cause and an error class. -/
  | rung (cause cls : Nat)
  | stop (f : Fault)

/-- The operation is performed (R119): its register is written, and it no longer holds issue. -/
def State.finishOp (s : State) (c : Nat) (x : CtxId) (id : Nat) (val : Option Word) (took wrote : List Nat) : State :=
  match s.opAt c x id with
  | none => s
  | some o =>
    let s := s.setOp c x { o with st := .done, took := o.took ++ took, wrote := o.wrote ++ wrote,
                                  away := [], lines := [], got := [], left := [] }
    let k := s.ctxAt c x
    let k := match o.dst, val with
      | some d, some v => k.setReg d v
      | _, _ => k
    s.setCtx c x { k with hold := if k.hold = some id then none else k.hold }

/-! ### Copy faults (R258) -/

/-- The context code of a record. -/
def ctxByte : CtxId → Nat
  | .ctl => 0
  | .ld => 1
  | .cmp => 2
  | .st => 3
  | .biv => 4

/-- The signal code an operation's instruction named; 31 where its entry has none (R61). -/
def signalOf (o : Op) : Nat :=
  if o.code = 0x20 ∨ o.code = 0x24 ∨ 0x60 ≤ o.code then o.f.x.toNat
  else if o.code = 0x22 then field o.f.z.toNat 7 3
  else 31

/-- A copy fault record (R258). -/
def faultBytes (x : CtxId) (o : Op) (seq : Nat) (i : FaultInfo) : List Byte :=
  let l (n : Nat) : Nat := i.idx.getD n 0
  [BitVec.ofNat 8 i.cause, BitVec.ofNat 8 (ctxByte x), BitVec.ofNat 8 o.code, BitVec.ofNat 8 o.f.t.stream.toNat,
   BitVec.ofNat 8 i.side, BitVec.ofNat 8 (signalOf o), 0, 0]
    ++ leBytes 8 i.addr.toNat ++ leBytes 8 o.y.toNat
    ++ leBytes 4 (l 0) ++ leBytes 4 (l 1) ++ leBytes 4 (l 2) ++ leBytes 4 (l 3) ++ leBytes 4 (l 4) ++ leBytes 4 (l 5)
    ++ leBytes 4 o.pc.toNat ++ leBytes 4 seq ++ leBytes 8 i.entry.toNat

/-- Whether a core accepts a copy fault now: room among the five event entries, and in the record buffer (R36, R258). -/
def Core.faultRoom (k : Core) : Bool :=
  decide ((k.pend.filter (fun q => decide (9 < q.cause))).length < 5) && decide (k.pend.length < 8)
    && decide (k.records.length < 16)

/-- A copy fault is recorded and its cause raised, in the four steps of R258. The slot lies in memory that firmware has allotted, so
that writing it never fails; where the tenant has dropped the area's frame, nothing is there to write. -/
def State.recordFault (s : State) (c : Nat) (x : CtxId) (o : Op) (i : FaultInfo) : State :=
  let k := s.coreAt c
  let vf := (s.teamOf c).vf
  let t := s.tenant vf
  let seq := k.faultSeq + 1
  let bs := faultBytes x o seq i
  let addr := s.recAt vf t.faultArea (64 * t.faultSlot)
  let s1 := s.setCore c { k with faultSeq := seq, records := k.records ++ [(seq, bs)] }
  let s2 := match t.faultBase with
    | some b =>
      if s.ownRange vf (b + 64 * t.faultSlot) 64 false then s1.writeDevice (cellsFrom (b + 64 * t.faultSlot) bs) else s1
    | none => s1
  let s3 := s2.setTenant vf { s2.tenant vf with faultSlot := (t.faultSlot + 1) % 1024 }
  let s4 := s3.setCore c { s3.coreAt c with faultLog := addr, logRecord := some bs }
  (s4.raise c { cause := 0x10, info := addr, record := seq }).getD s4

/-- The fill of a probe ends without filling: its slot is free (R168). -/
def State.dropFill (s : State) (c : Nat) (o : Op) : State :=
  if o.code = 0x22 then
    let k := s.coreAt c
    s.setCore c (k.setSlot o.z.toNat { k.slotAt o.z.toNat with valid := false, pin := false, fill := false })
  else s

/-- An operation takes a copy fault (R123, R258): it is performed at the fault, with the writes it made, and gives no signal; while the
fault cannot be accepted, or causes of an `XHOT` are still to be placed (R320), it is held. -/
def State.copyFault (s : State) (c : Nat) (x : CtxId) (id : Nat) (i : FaultInfo) : State :=
  match s.opAt c x id with
  | none => s
  | some o =>
    if (s.coreAt c).faultRoom && o.eng.hot.isEmpty then
      let s := s.unpark c i.addr
      let s := s.setOp c x { o with took := [], eng := { o.eng with fault := none } }
      ((s.finishOp c x id none [] []).dropFill c o).recordFault c x o i
    else s.setOp c x { o with eng := { o.eng with fault := some i } }

/-! ### The memory-side cache and the access counter (R50, R189) -/

/-- A number of `n` bytes is written in a table or descriptor. -/
def State.writeTable (s : State) (a n v : Nat) : State := s.writeDevice (cellsFrom a (leBytes n v))

/-- ACC of the plane entry of an address advances by one, saturating at 63 (R50). An increment is lost where the entry's line finds its
counters spent (R206). -/
def State.countAccess (s : State) (v : Nat) (va : Word) : State :=
  match s.entryAddr v va with
  | none => s
  | some a =>
    let e := s.imageNat a 8
    let n := field e 53 6
    if n = 63 ∨ s.mustWait a then s else s.writeTable a 8 (mkEntry (peState e) (peWr e) (peSk e) (n + 1) (peFrame e))

/-- The memory-side cache with a new line in a way. A way that is full gives up its oldest line, whose dirty sectors are written back
(R15, log 89). -/
def roomInWay (cache : List CacheLine) (w : Nat) : List CacheLine :=
  if Config.wayLines ≤ (cache.filter (fun l => l.way == w)).length then cache.eraseP (fun l => l.way == w) else cache

/-- An access of a tenant to a second-tier line goes through the memory-side cache, a sector at a time: a hit in one of its ways, or a
fill of way `w`, the machine's choice among them. A written sector is dirty only in a way exclusive to the tenant; otherwise the write
goes through (R11, R189). -/
def State.fillWay (s : State) (v : Nat) (va : Word) (w : Nat) (wr : Bool) : State :=
  match s.place v va .read with
  | .frame base sz e =>
    let d := s.planeDesc v va
    let a := base + (d.byteOf (vaPos va) - d.byteOf (vaPos va / 2 ^ sz * 2 ^ sz))
    let sector := a % 4096 / 64
    let mine (n : Nat) : Bool := bitAt (s.tenant v).ways n
    let own (n : Nat) : Bool := wayExcl (s.way n) && wayOwner (s.way n) == v
    let hit (l : CacheLine) : Bool := mine l.way && l.addr == a / 4096 * 4096 && l.dom == s.domainOf a
    if peState e ≠ 2 ∨ 16 ≤ w ∨ !mine w ∨ (wayExcl (s.way w) && !own w) then s
    else if s.cache.any hit then
      { s with cache := s.cache.map (fun (l : CacheLine) =>
          if hit l then
            { l with filled := (l.filled ++ [sector]).dedup,
                     dirty := if wr && own l.way then (l.dirty ++ [sector]).dedup else l.dirty }
          else l) }
    else { s with cache := roomInWay s.cache w ++ [⟨w, a / 4096 * 4096, s.domainOf a, [sector], if wr && own w then [sector] else []⟩] }
  | _ => s

/-- What an access to plane data leaves beside its data. With a way named it goes through the memory-side cache, where that is a way of
the tenant, and is counted in ACC, where its line has not been counted yet; with none it is neither cached nor counted, since an
increment may be lost (R50). -/
def State.touchCache (s : State) (v : Nat) (va : Word) (way : Option Nat) (wr fresh : Bool) : State :=
  match way with
  | some w => if fresh then (s.fillWay v va w wr).countAccess v va else s.fillWay v va w wr
  | none => s

/-- The 64-byte line, here or on another device, of the first byte that lies anywhere. -/
def placeLine : List Byte1 → Option Nat
  | [] => none
  | .at a :: _ => some (a / 64)
  | .remote d l a _ :: _ => some (2 ^ 60 + (256 * d + l) * 2 ^ 42 + a / 64)
  | .zero :: r => placeLine r

/-- An operation has not counted the line of an access yet (R50). -/
def Op.fresh (o : Op) (bs : List Byte1) : Bool := (placeLine bs).all (fun l => !o.counted.contains l)

/-- The operation with the line of an access counted, where a way is named. -/
def Op.counting (o : Op) (way : Option Nat) (bs : List Byte1) : Op :=
  match way, placeLine bs with
  | some _, some l => if o.counted.contains l then o else { o with counted := l :: o.counted }
  | _, _ => o

/-! ### Accesses to plane data for one operation -/

/-- What an answer of a home device makes of an access, if it ends or stops it (R163, R190, R203, R258). `entry` is the plane entry
that led there. -/
def badAnswer (a : Answer) (va : Word) (side : Nat) (idx : List Nat) (entry : Nat) (keys : List Nat) (dev lease : Nat) : Option Perf :=
  let f (cause : Nat) : Option Perf := some (.fault ⟨cause, side, va, idx, BitVec.ofNat 64 entry⟩)
  match a with
  | .none | .data _ | .ok => none
  | .refused => some (.refused va keys dev lease)
  | .readOnly => f 5
  | .lost => some (.rung 5 0x0A)
  | .partition => f 0x0C
  | .poison => f 6
  | .malformed => f 0x0D

/-- Where an access has got to: all its bytes lie here; its home devices have answered; or it does not go on. -/
inductive Reach where
  | here (bs : List Byte1)
  | back (bs : List Byte1) (fs : List Fwd)
  | no (p : Perf)

/-- The requests of an operation that are not answered. -/
def Op.unanswered (o : Op) : List Fwd := o.lines.filter (fun f => f.ans == .none)

/-- Every operation of a core's contexts. -/
def Core.allOps (k : Core) : List Op := k.ctl.ops ++ k.ld.ops ++ k.cmp.ops ++ k.st.ops ++ k.biv.ops

/-- `n` more line accesses keep within the 256 that an engine may have outstanding (R160). -/
def State.mayForward (s : State) (c n : Nat) : Bool :=
  decide ((((s.coreAt c).allOps.flatMap Op.unanswered).filter (fun f => f.line)).length + n ≤ 256)

/-- The accesses of some elements are over: nothing of them is kept. -/
def Op.settled (o : Op) (keys : List Nat) : Op :=
  { o with
    away := o.away.filter (fun e => !keys.contains e.1),
    got := o.got.filter (fun e => !keys.contains e.1),
    left := o.left.filter (fun e => !keys.contains e.1),
    lines := (o.lines.map (fun (f : Fwd) => { f with keys := f.keys.filter (fun k => !keys.contains k) })).filter
      (fun f => !f.keys.isEmpty) }

/-- What an access of element `k` sends: the elements that go with it, with their places, and the requests. -/
abbrev Plan := List Byte1 → List (Nat × List Byte1) × List (Fwd × FabricRequest)

/-- The requests of an access leave, its operation being in order at system scope (R127). It keeps the places it has found, whatever
becomes of their entries (R159, log 98). -/
def sendPlan (s : State) (c : Nat) (x : CtxId) (o : Op) (p : List (Nat × List Byte1) × List (Fwd × FabricRequest)) : State :=
  let v := (s.teamOf c).vf
  if s.mayPerform c x o 3 && s.mayForward c (p.2.filter (fun q => q.1.line)).length && p.2.all (fun q => s.canSend v q.1.dev) then
    (p.2.foldl (fun u q => u.request v q.1.dev q.2) s).setOp c x
      { o with away := o.away ++ p.1, lines := o.lines ++ p.2.map (·.1) }
  else s

/-- What is found at an address, or how it stops an access (R156, R258). -/
def foundOr (s : State) (c : Nat) (f : Found) (wr : Bool) (side : Nat) (idx : List Nat) : Perf ⊕ List Byte1 :=
  match f with
  | .fault cause e a => .inl (.fault ⟨cause, side, a, idx, BitVec.ofNat 64 e⟩)
  | .park e a => .inl (if s.parkDenied c a then .fault ⟨7, side, a, idx, BitVec.ofNat 64 e⟩ else .park a wr)
  | .wait => .inl (.held s)
  | .nowhere => .inl (.stop .noSuchFrame)
  | .bytes bs => .inr bs

/-- The access of an operation to what is found at an address, where it has begun nowhere yet (R156, R160): it ends as its checks or
its entry say, parks, goes to the home devices by a plan, or has everything here. -/
def reachNew (s : State) (c : Nat) (x : CtxId) (o : Op) (va : Word) (f : Found) (wr : Bool) (side : Nat) (idx : List Nat) (plan : Plan) :
    Reach :=
  match foundOr s c f wr side idx with
  | .inl p => .no p
  | .inr bs =>
    match remoteOf bs with
    | none => .here bs
    | some (d, l, _, _) =>
      if wr && s.refusedOn c va d l then .no (.park va true) else .no (.held (sendPlan s c x o (plan bs)))

/-- The access of element `k` of an operation to what is found at an address. One that has begun goes on at the places it has found,
whatever becomes of their entries (R159): here, unless a line there is lost since (R203), or with what its home devices answer. -/
def reach (s : State) (c : Nat) (x : CtxId) (o : Op) (k : Nat) (va : Word) (f : Found) (wr : Bool) (side : Nat) (idx : List Nat)
    (ch : Choice) (plan : Plan) : Reach :=
  match o.away.find? (fun e => e.1 == k) with
  | some (_, bs) =>
    if (remoteOf bs).isNone then
      if (hereLocs bs).any (fun a => s.badLines.contains (a / 64)) then reachNew s c x o va f wr side idx plan else .here bs
    else
      let fs := giveAnswers k o.lines ch.ans
      let mine := fs.filter (fun f => f.keys.contains k)
      let entry := ((remoteOf bs).getD (0, 0, 0, 0)).2.2.2
      match mine.findSome? (fun f => badAnswer f.ans va side idx entry f.keys f.dev f.lease) with
      | some p => .no p
      | none => if mine.any (fun f => f.ans == .none) then .no (.held (s.setOp c x { o with lines := fs })) else .back bs mine
  | none => reachNew s c x o va f wr side idx plan

/-- The plan of a read of lines for an operation with one access. -/
def readPlan (s : State) (bs : List Byte1) : List (Nat × List Byte1) × List (Fwd × FabricRequest) :=
  ([(0, bs)], linePlan s.module.devId s.time false [(0, bs, [])])

/-- The plan of a request for something as a whole, at the device of the first byte that lies elsewhere. -/
def wholePlan (s : State) (k : Nat) (wr : Bool) (r : Nat → Nat → FabricRequest) (bs : List Byte1) :
    List (Nat × List Byte1) × List (Fwd × FabricRequest) :=
  match remoteOf bs with
  | some (d, l, a, _) =>
    ([(k, bs)], [({ keys := [k], dev := d, lease := l, addr := a, line := false, wr := wr, sent := s.time }, r l a)])
  | none => ([], [])

/-- The bytes that a whole request's answer holds. -/
def answerData (fs : List Fwd) : List Byte :=
  match fs with
  | f :: _ =>
    match f.ans with
    | .data b => b
    | _ => []
  | [] => []

/-- Request `k` of an operation, which names no place of memory: it is sent once, and its answer, which the operation keeps, ends it
(R190). -/
def askAway (s : State) (c : Nat) (x : CtxId) (o : Op) (k dev : Nat) (r : FabricRequest) (va : Word) (ch : Choice)
    (body : State → Op → List Fwd → Perf) : Perf :=
  let fs := giveAnswers k o.lines ch.ans
  match fs.filter (fun f => f.keys.contains k) with
  | [] => .held (sendPlan s c x o ([], [({ keys := [k], dev := dev, lease := 0, addr := 0, line := false, sent := s.time }, r)]))
  | f :: l =>
    match badAnswer f.ans va 3 [] 0 f.keys f.dev f.lease with
    | some p => p
    | none =>
      let o' := { o with lines := fs }
      if f.ans == .none then .held (s.setOp c x o') else body (s.setOp c x o') o' (f :: l)

/-- A read of an operation with one access: its bytes, with the writes taken, and the locations here that were read; or why not. The
operation keeps the answers of home devices. -/
def readFound (s : State) (c : Nat) (x : CtxId) (o : Op) (scope : Nat) (va : Word) (f : Found) (side : Nat) (ch : Choice)
    (body : State → List (Nat × Byte) → Perf) : Perf :=
  match reach s c x o 0 va f false side [] ch (readPlan s) with
  | .no p => p
  | .here bs =>
    let r := s.readOf c x scope ch.cuts bs
    body (s.noteRead c x (hereLocs bs) (s.readLocs c x scope ch.cuts (hereLocs bs))) r
  | .back bs fs =>
    let s := s.setOp c x { o with lines := giveAnswers 0 o.lines ch.ans }
    body (s.noteRead c x (hereLocs bs) (s.readLocs c x scope ch.cuts (hereLocs bs))) (s.readBack c x scope ch.cuts bs fs)

/-! ### Accesses made in parts (R129) -/

/-- The places of an operation's accesses with those of element `k`, whose access has begun (R159). -/
def Op.keeping (o : Op) (k : Nat) (bs : List Byte1) : List (Nat × List Byte1) :=
  if bs.isEmpty || o.away.any (fun e => e.1 == k) then o.away else o.away ++ [(k, bs)]

/-- Bytes of element `k` that an operation has read already. -/
def Op.gotAt (o : Op) (k a : Nat) : Option (Nat × Byte) := (o.got.find? (fun e => e.1 == k && e.2.1 == a)).map (fun e => e.2.2)

/-- A read of locations in units for element `k` of an operation, at places `bs`: of one unit of it, or of all that is left, and then
what it gives. -/
def readParts (s : State) (c : Nat) (x : CtxId) (o : Op) (k scope : Nat) (ch : Choice) (bs : List Byte1) (us : List (Nat × Nat)) :
    State × Option (List (Nat × Byte)) :=
  let rest := us.filter (fun a => (o.gotAt k a.1).isNone)
  match ch.part with
  | some u =>
    let now := rest.filter (fun a => a.2 == u)
    let r := s.readUnits c x scope ch.cuts now
    if now.isEmpty then (s, none)
    else
      ((s.noteRead c x (now.map (·.1)) r).setOp c x
        { o with away := o.keeping k bs, got := o.got ++ ((now.map (·.1)).zip r).map (fun e => (k, e.1, e.2)),
                 took := o.took ++ tookOf r }, none)
  | none =>
    let r := s.readUnits c x scope ch.cuts rest
    let all : List (Nat × Nat × Byte) := (rest.map (·.1)).zip r
    (s.noteRead c x (rest.map (·.1)) r, some (if o.got.isEmpty then r
      else us.map (fun a => ((o.gotAt k a.1).orElse (fun _ => (all.find? (fun e => e.1 == a.1)).map (·.2))).getD (0, 0))))

/-- A write of cells in units for element `k` of an operation, at places `bs`: of one unit of it, or of all that is left: the machine,
and where it is over the numbers of the last writes. A cell that is still to be written has the byte that `cells` gives it now: the
other bits of a byte are those of its latest write in the step in which it is written (R129). -/
def writeParts (s : State) (c : Nat) (x : CtxId) (o : Op) (k scope : Nat) (part : Option Nat) (bs : List Byte1)
    (cells : List (Host.Cell × Nat)) : State × Option (List Nat) :=
  let rest := match o.left.find? (fun e => e.1 == k) with
    | some (_, l) => l.map (fun e => (cells.find? (fun d => d.1.1 == e.1.1)).getD e)
    | none => cells
  match part with
  | some u =>
    let now := rest.filter (fun e => e.2 == u)
    if now.isEmpty then (s, none)
    else
      ((s.writeUnits c x scope now).setOp c x
        { o with away := o.keeping k bs,
                 left := (k, rest.filter (fun e => e.2 != u)) :: o.left.filter (fun e => e.1 != k),
                 wrote := o.wrote ++ s.unitSeqs now }, none)
  | none => (s.writeUnits c x scope rest, some (s.unitSeqs rest))

end Sys2Proof.Machine
end

