-- ==== Sys2Proof/Machine/Access.lean ====
section
/-! DEFINITION. Scratchpad accesses, queue transfers, the codebook expander, and matrix loads and stores (R247 to R256): their
issue and their performance. -/

namespace Sys2Proof.Machine

/-! ### Reads and writes of scratchpad bytes -/

/-- Cells in rising order of address, the later of two for one address prevailing. -/
def sortCells (cells : List Host.Cell) : List Host.Cell := Tab.setAll [] cells

/-- A read of scratchpad locations in units by an operation with one access, of one unit of them or of all that is left, after which
`body` says what it does with the bytes. -/
def State.opRead (s : State) (c : Nat) (x : CtxId) (o : Op) (ch : Choice) (us : List (Nat × Nat))
    (body : State → List Byte → State × Option Word) : Perf :=
  match readParts s c x o 0 o.scope ch [] us with
  | (s1, none) => .held s1
  | (s1, some r) =>
    let p := body s1 (r.map (·.2))
    .done p.1 p.2 (tookOf r) []

/-- A write of scratchpad cells in units by an operation with one access, of one unit of them or of all that is left. -/
def State.opWrite (s : State) (c : Nat) (x : CtxId) (o : Op) (ch : Choice) (cells : List (Host.Cell × Nat)) : Perf :=
  match writeParts s c x o 0 o.scope ch.part [] cells with
  | (s1, none) => .held s1
  | (s1, some w) => .done s1 none [] w

/-! ### `LD`, `LDS`, `ST` (R249) -/

/-- Issue of a scalar scratchpad access of `size` bytes (R249). -/
def scalarAccess (store : Bool) (code size : Nat) (f : LF) (s : State) : Out :=
  ordering (s.ctx == if store then .st else .ld) code f [(f.x, 0), (f.y, 1)] [] (
    let a := scaledAddr (s.G f.y) f.z size
    match s.scratch s.core a.toNat size with
    | none => .trap 7 a
    | some _ =>
      s.issueOp { code := code, f := f, x := if store then s.G f.x else 0, y := a,
                  dst := if store then none else some f.x.toNat, scope := scratchScope a.toNat f.t.scope.toNat }) s

/-- `LD.B` (R249). -/
def execLdB (f : LF) (s : State) : Out := scalarAccess false 0x00 1 f s
/-- `LD.H` (R249). -/
def execLdH (f : LF) (s : State) : Out := scalarAccess false 0x01 2 f s
/-- `LD.W` (R249). -/
def execLdW (f : LF) (s : State) : Out := scalarAccess false 0x02 4 f s
/-- `LD.D` (R249). -/
def execLdD (f : LF) (s : State) : Out := scalarAccess false 0x03 8 f s
/-- `LDS.B` (R249). -/
def execLdsB (f : LF) (s : State) : Out := scalarAccess false 0x04 1 f s
/-- `LDS.H` (R249). -/
def execLdsH (f : LF) (s : State) : Out := scalarAccess false 0x05 2 f s
/-- `LDS.W` (R249). -/
def execLdsW (f : LF) (s : State) : Out := scalarAccess false 0x06 4 f s
/-- `ST.B` (R249). -/
def execStB (f : LF) (s : State) : Out := scalarAccess true 0x08 1 f s
/-- `ST.H` (R249). -/
def execStH (f : LF) (s : State) : Out := scalarAccess true 0x09 2 f s
/-- `ST.W` (R249). -/
def execStW (f : LF) (s : State) : Out := scalarAccess true 0x0A 4 f s
/-- `ST.D` (R249). -/
def execStD (f : LF) (s : State) : Out := scalarAccess true 0x0B 8 f s

/-- Sext of the low `n` bytes. -/
def sextBytes (n v : Nat) : Word :=
  BitVec.ofNat 64 (if bitAt v (8 * n - 1) then v + (2 ^ 64 - 2 ^ (8 * n)) else v)

/-- A scalar load performs. -/
def performLoad (size : Nat) (signed : Bool) (s : State) (c : Nat) (x : CtxId) (o : Op) (ch : Choice) : Perf :=
  match s.scratch c o.y.toNat size with
  | none => .held s
  | some a =>
    s.opRead c x o ch (withUnits (span a size))
      (fun s bs => (s, some (if signed then sextBytes size (leNat bs) else BitVec.ofNat 64 (leNat bs))))

/-- A scalar store performs. -/
def performStore (size : Nat) (s : State) (c : Nat) (x : CtxId) (o : Op) (ch : Choice) : Perf :=
  match s.scratch c o.y.toNat size with
  | none => .held s
  | some a => s.opWrite c x o ch (cellUnits (cellsFrom a (leBytes size o.x.toNat)))

/-! ### `LDQ`, `LDQS`, `STQ`, `STQS` (R250) -/

/-- The addresses of the eight chunks: from a base, a stride apart modulo 2^64. -/
def chunkAddrs (base stride : Word) : List Nat := (List.range 8).map (fun j => (base + stride * BitVec.ofNat 64 j).toNat)

/-- The first chunk that is misaligned or lies in no window. -/
def badChunk (s : State) (c : Nat) (as : List Nat) : Option Nat :=
  as.find? (fun a => a % 32 != 0 || (s.scratch c a 32).isNone)

/-- The locations of the bytes of the chunks. -/
def chunkLocs (s : State) (c : Nat) (as : List Nat) : List Nat :=
  as.flatMap (fun a => match s.scratch c a 32 with
    | some l => span l 32
    | none => [])

/-- Reserve the tail entry of a load queue (R250). -/
def Core.reserveLoad (k : Core) (q : Nat) : Core :=
  { k.setLoadQ q (k.loadQ q ++ [⟨k.nextTag, none⟩]) with nextTag := k.nextTag + 1 }

/-- The scope of a transfer of chunks (R40). -/
def chunkScope (as : List Nat) (scope : Nat) : Nat := if as.any isPeer ∧ scope = 0 then 1 else scope

/-- Issue of a queue transfer, once its chunk addresses are known (R250). -/
def queueIssue (store : Bool) (code : Nat) (f : LF) (base stride : Word) (s : State) : Act :=
  let as := chunkAddrs base stride
  match badChunk s s.core as with
  | some a => .trap 7 (BitVec.ofNat 64 a)
  | none =>
    let k := s.curCore
    let q := f.x.toNat
    let o : Op := { code := code, f := f, y := base, z := stride, scope := chunkScope as f.t.scope.toNat }
    if s.streamFull f.t.stream then .wait
    else if store then
      match k.storeQ q with
      | e :: r =>
        match e.data with
        | some bs => (s.setCurCore (k.setStoreQ q r)).issueOp { o with data := bs }
        | none => .wait
      | [] => .wait
    else if queueDepth ≤ (k.loadQ q).length then .wait
    else (s.setCurCore (k.reserveLoad q)).issueOp { o with tag := k.nextTag }

/-- `LDQ` (R250). -/
def execLdq (f : LF) (s : State) : Out :=
  ordering (s.ctx == .ld) 0x10 f [(f.y, 1)] [(0, 3 < f.x.toNat)]
    (queueIssue false 0x10 f (scaledAddr (s.G f.y) f.z 256) 32 s) s

/-- `LDQS` (R250). -/
def execLdqs (f : LF) (s : State) : Out :=
  ordering (s.ctx == .ld) 0x11 f [(f.y, 1), (zReg f 5, 2)] [(0, 3 < f.x.toNat)]
    (queueIssue false 0x11 f (s.G f.y) (s.G (zReg f 5)) s) s

/-- `STQ` (R250). -/
def execStq (f : LF) (s : State) : Out :=
  ordering (s.ctx == .st) 0x12 f [(f.y, 1)] [(0, 1 < f.x.toNat)]
    (queueIssue true 0x12 f (scaledAddr (s.G f.y) f.z 256) 32 s) s

/-- `STQS` (R250). -/
def execStqs (f : LF) (s : State) : Out :=
  ordering (s.ctx == .st) 0x13 f [(f.y, 1), (zReg f 5, 2)] [(0, 1 < f.x.toNat)]
    (queueIssue true 0x13 f (s.G f.y) (s.G (zReg f 5)) s) s

/-- The load-queue entry that an operation reserved is filled. -/
def State.fillLoad (s : State) (c : Nat) (o : Op) (bs : List Byte) : State :=
  let k := s.coreAt c
  let q := o.f.x.toNat
  s.setCore c (k.setLoadQ q (fillEntry o.tag bs (k.loadQ q)))

/-- A load form performs: it fills the entry it reserved. -/
def performQueueLoad (s : State) (c : Nat) (x : CtxId) (o : Op) (ch : Choice) : Perf :=
  s.opRead c x o ch (withUnits (chunkLocs s c (chunkAddrs o.y o.z))) (fun s bs => (s.fillLoad c o bs, none))

/-- A store form performs: where chunks overlap, the higher-numbered one prevails. -/
def performQueueStore (s : State) (c : Nat) (x : CtxId) (o : Op) (ch : Choice) : Perf :=
  s.opWrite c x o ch (cellUnits (sortCells ((chunkLocs s c (chunkAddrs o.y o.z)).zip o.data)))

/-! ### `LDTAB`, `LDX` (R251) -/

/-- `LDTAB` (R251): a scratchpad read of 16 bytes at any alignment. -/
def execLdtab (f : LF) (s : State) : Out :=
  ordering (s.ctx == .ld) 0x15 f [(f.y, 1)] [] (
    let a := scaledAddr (s.G f.y) f.z 16
    match s.scratch s.core a.toNat 16 with
    | none => .trap 7 a
    | some _ => s.issueOp { code := 0x15, f := f, y := a, scope := scratchScope a.toNat f.t.scope.toNat }) s

/-- `LDTAB` performs: the table is written. -/
def performLdtab (s : State) (c : Nat) (x : CtxId) (o : Op) (ch : Choice) : Perf :=
  match s.scratch c o.y.toNat 16 with
  | none => .held s
  | some a =>
    s.opRead c x o ch (withUnits (span a 16)) (fun s bs => (s.setCore c { s.coreAt c with table := bs }, none))

/-- First byte, a sum modulo 2^64 (R214), and number of bytes `LDX` reads. -/
def ldxSpan (a i : Nat) : Nat × Nat := ((a + 3 * i / 8) % 2 ^ 64, (3 * i + 191) / 8 - 3 * i / 8 + 1)

/-- The first of `n` bytes from `a` that does not lie in the window of the first. -/
def firstOutside (s : State) (c a n : Nat) : Nat :=
  a + ((List.range n).find? (fun t => (s.scratch c a (t + 1)).isNone)).getD 0

/-- `LDX` (R251): it waits for the latest earlier `LDTAB`, and copies the table at issue. -/
def execLdx (f : LF) (s : State) : Out :=
  ordering (s.ctx == .ld) 0x14 f [(f.y, 1), (zReg f 5, 2)] [(0, 3 < f.x.toNat)] (
    let k := s.curCore
    let p := ldxSpan (s.G f.y).toNat (s.G (zReg f 5)).toNat
    match s.scratch s.core p.1 p.2 with
    | none => .trap 7 (BitVec.ofNat 64 (firstOutside s s.core p.1 p.2))
    | some _ =>
      if s.cur.ops.any (fun o => o.code == 0x15 && o.st != .done) then .wait
      else if s.streamFull f.t.stream || decide (queueDepth ≤ (k.loadQ f.x.toNat).length) then .wait
      else
        (s.setCurCore (k.reserveLoad f.x.toNat)).issueOp
          { code := 0x14, f := f, y := s.G f.y, z := s.G (zReg f 5), tag := k.nextTag, data := k.table,
            scope := scratchScope p.1 f.t.scope.toNat }) s

/-- Lane `j` of an `LDX`: the table entry its three stream bits name. `n` holds the bytes read, `i` the first code's index. -/
def ldxLane (table : List Byte) (n i j : Nat) : Nat := leAt table (2 * field n (3 * i % 8 + 3 * j) 3) 2

/-- `LDX` performs. -/
def performLdx (s : State) (c : Nat) (x : CtxId) (o : Op) (ch : Choice) : Perf :=
  let p := ldxSpan o.y.toNat o.z.toNat
  match s.scratch c p.1 p.2 with
  | none => .held s
  | some a =>
    s.opRead c x o ch (withUnits (span a p.2))
      (fun s bs => (s.fillLoad c o (laneBytes ((List.range 64).map (ldxLane o.data (leNat bs) o.z.toNat))), none))

/-! ### Shape records (R82, R253) -/

/-- A shape record. -/
structure Shape where
  base    : Nat
  fmt     : Nat
  flags   : Nat
  rows    : Nat
  cols    : Nat
  rstride : Int
  cstride : Int
  offset  : Nat
  zeros   : Bool
  deriving DecidableEq, Repr

/-- The shape record bytes hold. -/
def shapeOf (bs : List Byte) : Shape :=
  { base := leAt bs 0 4, fmt := leAt bs 4 1, flags := leAt bs 5 1, rows := leAt bs 6 2, cols := leAt bs 8 2,
    rstride := intOf 5 (leAt bs 12 4), cstride := intOf 5 (leAt bs 16 4), offset := leAt bs 20 4,
    zeros := leAt bs 10 2 == 0 && leAt bs 24 8 == 0 }

/-- The element index of register-side element (i, j) (R253). -/
def Shape.index (r : Shape) (i j : Nat) : Int :=
  let u := if bitAt r.flags 0 then j else i
  let v := if bitAt r.flags 0 then i else j
  if bitAt r.flags 1 then
    r.offset + (u / 16 : Nat) * r.rstride + (v / 16 : Nat) * r.cstride + (16 * (u % 16) + v % 16 : Nat)
  else r.offset + u * r.rstride + v * r.cstride

/-- Bytes of an element, or of its block. -/
def Shape.bytes (r : Shape) : Nat := if bxFmt r.fmt then bxLen r.fmt else fmtBits r.fmt / 8

/-- The address of the bytes that hold element (i, j), with displacement `x` (R253). -/
def Shape.addr (r : Shape) (x : Word) (i j : Nat) : Int :=
  let b : Nat := (r.base + x.toNat) % 2 ^ 64
  if bxFmt r.fmt then b + r.index i j / 32 * (bxLen r.fmt : Nat) else b + r.index i j * (r.bytes : Nat)

/-- The location of `n` bytes at an exact address. -/
def scratchInt (s : State) (c : Nat) (a : Int) (n : Nat) : Option Nat := if a < 0 then none else s.scratch c a.toNat n

/-- The register-side elements in row-major order. -/
def Shape.elems (r : Shape) : List (Nat × Nat) := shape r.rows r.cols

/-- The window of R40 that a scratchpad address lies in: 0 the local one, n + 1 that of rank n. -/
def windowOf (s : State) (c : Nat) (a : Int) : Option Nat :=
  if (scratchInt s c a 1).isNone then none
  else if isPeer a.toNat then some ((a.toNat - 0x10000000) / 0x200000 + 1)
  else some 0

/-- The first address outside the window of the first byte touched, in row-major order (R253). -/
def Shape.outside (s : State) (c : Nat) (r : Shape) (x : Word) : Option Word :=
  let w := windowOf s c (r.addr x 0 0)
  let bad (a : Int) : Bool := w.isNone || windowOf s c a != w
  match r.elems.find? (fun p => bad (r.addr x p.1 p.2) || bad (r.addr x p.1 p.2 + (r.bytes - 1 : Nat))) with
  | none => none
  | some p =>
    let a := r.addr x p.1 p.2
    some (BitVec.ofInt 64 (a + (((List.range r.bytes).find? (fun t : Nat => bad (a + t))).getD 0 : Nat)))

/-- The formats and shapes an entry accepts (R254 to R256). -/
def Shape.okFor (r : Shape) (code group : Nat) : Bool :=
  r.zeros && decide (r.flags ≤ 3) && decide (1 ≤ r.rows) && decide (1 ≤ r.cols) &&
    (if code = 0x16 then decide (r.fmt ≤ 14) && r.fmt != 7 && r.fmt != 8 && decide (r.rows ≤ 64) && decide (r.cols ≤ 64 * group)
     else if code = 0x17 then
       (decide (r.fmt ≤ 6) || (decide (9 ≤ r.fmt) && decide (r.fmt ≤ 11))) && decide (r.rows ≤ 64)
         && decide (r.cols ≤ 64 * group)
     else matFmt (BitVec.ofNat 4 r.fmt) && decide (r.fmt ≤ 14) && decide (r.rows ≤ 256) && decide (r.cols ≤ 256))

/-! ### `LDM`, `STM`, `LDB` (R252 to R256) -/

/-- The matrix register an `LDM` or `STM` names. -/
def matReg (f : LF) : Nat := field f.x.toNat 1 4
/-- Its group size. -/
def matGroup (f : LF) : Nat := 2 ^ field f.z.toNat 2 2
/-- The weight slot an `LDB` names. -/
def ldbSlot (f : LF) : Nat := field f.x.toNat 1 1
/-- The record lies in scratchpad. -/
def recordInScratch (f : LF) : Bool := bitAt f.z.toNat 9

/-- Issue of a matrix load or store (R252 steps 1 to 3): it holds the issue of its context until its check step (R248). The
record's address and the displacement are read at issue. -/
def shapeIssue (code : Nat) (ctx : CtxId) (f : LF) (s : State) : Out :=
  ordering (s.ctx == ctx) code f [(f.y, 1), (zReg f 4, 2)] [] (
    let o : Op := { code := code, f := f, x := s.G (zReg f 4), y := s.G f.y, scope := f.t.scope.toNat }
    if code = 0x18 then s.issueHold o true
    else
      match groupFail (s.teamOf s.core).malloc (matReg f) (matGroup f) with
      | some r => .trap 3 (BitVec.ofNat 64 r)
      | none => s.issueHold o true) s

/-- `LDM` (R254). -/
def execLdm (f : LF) (s : State) : Out := shapeIssue 0x16 .ld f s
/-- `STM` (R255). -/
def execStm (f : LF) (s : State) : Out := shapeIssue 0x17 .st f s
/-- `LDB` (R256). -/
def execLdb (f : LF) (s : State) : Out := shapeIssue 0x18 .ld f s

/-- A record read from the code image at a byte offset: plane 0 of the code constellation (R79, R248). -/
def findImage (s : State) (c off n : Nat) : Found :=
  let tm := s.teamOf c
  let va := vaAt (BitVec.ofNat 64 (tm.code.toNat % 2 ^ 60)) (vaPos tm.code)
  match s.checkPlane tm.vf va with
  | some k => .fault k 0 va
  | none => s.findBytes tm.vf va .read ((s.planeDesc tm.vf va).byteOf (vaPos va) + off) n

/-- What a check step makes of a record's bytes and the writes they were taken from (R252 steps 5 and 6). -/
def judgeShape (s : State) (c : Nat) (o : Op) (bs : List Byte) (took : List Nat) : Perf :=
  let r := shapeOf bs
  if !r.okFor o.code (matGroup o.f) then .trap 2 3
  else
    match Shape.outside s c r o.x with
    | some a => .trap 7 a
    | none => .checked s bs took

/-- The check step of a matrix load or store (R248, R252 steps 4 to 6). A record in the code image whose page firmware finds no frame
for is one that cannot be read. A scratchpad address is held to its window before its alignment (log 108). -/
def checkShape (s : State) (c : Nat) (x : CtxId) (o : Op) (ch : Choice) : Perf :=
  let take (s : State) (r : List (Nat × Byte)) : Perf := judgeShape s c o (r.map (·.2)) (tookOf r)
  if recordInScratch o.f then
    match s.scratch c o.y.toNat 32 with
    | none => .trap 7 o.y
    | some a =>
      if o.y.toNat % 8 ≠ 0 then .trap 2 3
      else readFound s c x o (scratchScope o.y.toNat o.scope) o.y (.bytes ((span a 32).map .at)) 2 ch take
  else if o.y.toNat % 8 ≠ 0 then .trap 2 3
  else
    match readFound s c x o o.scope o.y (findImage s c o.y.toNat 32) 2 ch take with
    | .fault i => .trap 2 3 (some i.addr)
    | p => p

/-- The locations of every element's bytes, each with its unit: that of an element (R129, log 10). -/
def Shape.locs (s : State) (c : Nat) (r : Shape) (x : Word) : List (Nat × Nat) :=
  r.elems.flatMap (fun p => match scratchInt s c (r.addr x p.1 p.2) r.bytes with
    | some a => withUnits (span a r.bytes)
    | none => [])

/-- `Lay` of element (i, j) from its bytes (R254). -/
def Shape.lay (r : Shape) (i j : Nat) (bs : List Byte) : Lane :=
  if bxFmt r.fmt then BitVec.ofNat 32 (bxLay (bxW r.fmt) (leNat bs) (r.index i j % 32).toNat) else BitVec.ofNat 32 (leNat bs)

/-- Cut a list into runs of `n`, at most `k` of them. -/
def runs {α : Type} (n : Nat) : Nat → List α → List (List α)
  | 0, _ => []
  | k + 1, l => l.take n :: runs n k (l.drop n)

/-- The laid-out elements a shape reads: (i, j) and its lane. -/
def Shape.laid (r : Shape) (bs : List Byte) : List ((Nat × Nat) × Lane) :=
  List.zipWith (fun p b => (p, r.lay p.1 p.2 b)) r.elems (runs r.bytes r.elems.length bs)

/-- `LDM` performs (R254): elements beyond the shape are zero. -/
def performLdm (s : State) (c : Nat) (x : CtxId) (o : Op) (ch : Choice) : Perf :=
  let r := shapeOf o.data
  let d := matReg o.f
  let g := matGroup o.f
  s.opRead c x o ch (Shape.locs s c r o.x) (fun s bs =>
    let k := s.coreAt c
    let kept : Tab Lane := k.m.filter (fun e => e.1 / 4096 < d || d + g ≤ e.1 / 4096)
    let cells := (r.laid bs).map (fun e => (elemKey (d + e.1.2 / 64) e.1.1 (e.1.2 % 64), e.2))
    (s.setCore c { k with m := kept.setAll cells }, none))

/-- `LDB` performs once every `MMA` and `MCHECK` that reads the slot has drained (R106, R256). -/
def performLdb (s : State) (c : Nat) (x : CtxId) (o : Op) (ch : Choice) : Perf :=
  let k := s.coreAt c
  let slot := ldbSlot o.f
  if k.flight.any (fun l => l.slot == some slot) then .held s
  else
    let r := shapeOf o.data
    s.opRead c x o ch (Shape.locs s c r o.x) (fun s bs =>
      let k := s.coreAt c
      let kept : Tab Lane := k.w.filter (fun e => e.1 / 65536 != slot)
      let cells := (r.laid bs).map (fun e => (slotKey slot e.1.1 e.1.2, e.2))
      (s.setCore c { k with w := kept.setAll cells }, none))

/-- Registers of a group that `STM.NF` suppresses (R110). -/
def suppressed (k : Core) (f : LF) : List Nat :=
  if bitAt f.z.toNat 1 then
    ((List.range (matGroup f)).map (matReg f + ·)).filter (fun r => bitAt (k.tstat.get 0 r).toNat 1)
  else []

/-- Cells with their units, in rising order of address, the later of two for one address prevailing. -/
def sortUnits (us : List (Host.Cell × Nat)) : List (Host.Cell × Nat) :=
  (Tab.setAll [] (us.map (fun e => (e.1.1, (e.1.2, e.2))))).map (fun e => ((e.1, e.2.1), e.2.2))

/-- The cells an `STM` stores: the elements of the registers that are not suppressed, each with the unit of its element (R129). -/
def stmCells (s : State) (c : Nat) (o : Op) : List (Host.Cell × Nat) :=
  let r := shapeOf o.data
  let k := s.coreAt c
  let d := matReg o.f
  let no := suppressed k o.f
  sortUnits (r.elems.flatMap (fun p =>
    if no.contains (d + p.2 / 64) then []
    else
      match scratchInt s c (r.addr o.x p.1 p.2) r.bytes with
      | some a => cellUnits (cellsFrom a (leBytes r.bytes (k.elem (d + p.2 / 64) p.1 (p.2 % 64)).toNat))
      | none => []))

/-- `STM` performs (R255, R110): the registers are read in the step of its first part, which holds what is still to be stored. -/
def performStm (s : State) (c : Nat) (x : CtxId) (o : Op) (ch : Choice) : Perf :=
  if o.left.isEmpty then
    let k := s.coreAt c
    let no := suppressed k o.f
    let k' := { k with tstat := k.tstat.setAll (no.map (fun n => (n, k.tstat.get 0 n ||| BitVec.ofNat 32 tNFSUP))) }
    (s.setCore c k').opWrite c x o ch (stmCells s c o)
  else s.opWrite c x o ch []

end Sys2Proof.Machine
end

