-- ==== Sys2Proof/Machine/Token.lean ====
section
/-! DEFINITION. Tokens, async barriers and the signals of engine commands (R31, R33, R161, R267, R305, R306). -/

namespace Sys2Proof.Machine

/-- Tokens a queue holds at most (R31). -/
def tokenDepth : Nat := 63

/-! ### Issue -/

/-- `KSIG` (R267). -/
def execKsig (f : LF) (s : State) : Out :=
  ordering true 0x28 f [] [(0, 7 < f.x.toNat), (2, field f.z.toNat 0 6 == 0)]
    (s.issueOp { code := 0x28, f := f, scope := f.t.scope.toNat }) s

/-- A `KTAKE` or `KTAKET` issues; on the compute sequencer it holds issue until it performs (R121). -/
def takeIssue (s : State) (o : Op) : Act := if s.ctx = .cmp then s.issueHold o false else s.issueOp o

/-- `KTAKE` (R267). -/
def execKtake (f : LF) (s : State) : Out :=
  ordering true 0x29 f [] [(0, 7 < f.x.toNat), (2, field f.z.toNat 0 6 == 0)]
    (takeIssue s { code := 0x29, f := f, scope := f.t.scope.toNat }) s

/-- `KTAKET` (R267). The timeout is read at issue. -/
def execKtaket (f : LF) (s : State) : Out :=
  ordering true 0x2A f [(f.x, 0), (f.y, 1)] [(2, field f.z.toNat 1 6 == 0)]
    (takeIssue s { code := 0x2A, f := f, y := s.G f.y, dst := some f.x.toNat, scope := f.t.scope.toNat }) s

/-- Queue and count of a token operation. -/
def tokenArgs (o : Op) : Nat × Nat :=
  if o.code = 0x2A then (field o.f.z.toNat 7 3, field o.f.z.toNat 1 6) else (o.f.x.toNat, field o.f.z.toNat 0 6)

/-- `ABARM` (R305), of control contexts, as R63 has it; the table of R31 lets any sequencer run it (DEDUCED, log 103). -/
def execAbarm (f : LF) (s : State) : Out :=
  ordering (onControl s.ctx) 0x50 f [(f.y, 1)] [(0, 3 < f.x.toNat)] (
    let t := s.G f.y
    if t = 0 ∨ 65535 < t.toNat then .trap 2 1
    else s.issueOp { code := 0x50, f := f, y := t, scope := f.t.scope.toNat }) s

/-- `ABWAIT` (R306), of control contexts, as R63 has it (DEDUCED, log 103). -/
def execAbwait (f : LF) (s : State) : Out :=
  ordering (onControl s.ctx) 0x51 f [(f.x, 0), (f.y, 1)] []
    (s.issueOp { code := 0x51, f := f, y := s.G f.y, dst := some f.x.toNat, scope := f.t.scope.toNat }) s

/-! ### Pushes and pops (R33) -/

/-- `KSIG` performs when its tokens fit and no push waits before it; otherwise it joins the waiting pushes (R33). -/
def performKsig (s : State) (c : Nat) (x : CtxId) (o : Op) : Perf :=
  let k := s.coreAt c
  let q := k.tokens (tokenArgs o).1
  let n := (tokenArgs o).2
  let mine := TokenWait.ksig x o.id
  let first := q.waiting.head? == some mine
  if (q.waiting.isEmpty || first) && decide (q.count + n ≤ tokenDepth) then
    .done (s.setCore c (k.setTokens (tokenArgs o).1 ⟨q.count + n, if first then q.waiting.tail else q.waiting⟩)) none [] []
  else if q.waiting.contains mine then .held s
  else .held (s.setCore c (k.setTokens (tokenArgs o).1 { q with waiting := q.waiting ++ [mine] }))

/-- `KTAKE` performs when its tokens are present. -/
def performKtake (s : State) (c : Nat) (o : Op) : Perf :=
  let k := s.coreAt c
  let q := k.tokens (tokenArgs o).1
  let n := (tokenArgs o).2
  if n ≤ q.count then .done (s.setCore c (k.setTokens (tokenArgs o).1 { q with count := q.count - n })) (some 0) [] []
  else .held s

/-- The end of a wait's timeout, which runs from `since`, or from now (R161). -/
def Op.limit (o : Op) (now : Nat) : Nat := o.since.getD now + 1000 * o.y.toNat

/-- A wait with a timeout (R161): a timeout of 0 tests once; a wait whose condition was not met by the end of its timeout times
out, and what comes after that stays; otherwise it is satisfied or goes on waiting. -/
def timedWait (s : State) (c : Nat) (x : CtxId) (o : Op) (p : Perf) : Perf :=
  match p with
  | .held s' =>
    if o.y = 0 ∨ o.limit s.time < s.time then .done s' (some 1) [] []
    else .held (s'.setOp c x { o with since := some (o.since.getD s.time) })
  | p => if o.y ≠ 0 ∧ o.limit s.time < s.time ∧ !o.met then .done s (some 1) [] [] else p

/-- One completion test of an async barrier (R305). -/
def ABar.test (b : ABar) : ABar :=
  if b.target ≠ 0 ∧ b.target ≤ b.arr then { b with arr := b.arr - b.target, ph := !b.ph } else b

/-- One arrival (R305). -/
def ABar.arrive (b : ABar) : ABar := { b with arr := min (b.arr + 1) 65535 }.test

/-- `ABARM` performs. -/
def performAbarm (s : State) (c : Nat) (o : Op) : Perf :=
  let k := s.coreAt c
  let n := o.f.x.toNat
  .done (s.setCore c (k.setAbar n { k.abar n with target := o.y.toNat }.test)) none [] []

/-- `ABWAIT` is satisfied when the phase differs from par. -/
def performAbwait (s : State) (c : Nat) (o : Op) : Perf :=
  if ((s.coreAt c).abar (field o.f.z.toNat 8 2)).ph != bitAt o.f.z.toNat 7 then .done s (some 0) [] [] else .held s

/-! ### Engine signals (R33, R61) -/

/-- An engine command gives its completion signal: a token, which waits where it does not fit, an arrival, or nothing. -/
def Core.engineSignal (k : Core) (index : Bool) (code : Nat) : Core :=
  if code ≤ 7 then
    let q := k.tokens code
    if q.waiting.isEmpty && decide (q.count < tokenDepth) then k.setTokens code { q with count := q.count + 1 }
    else k.setTokens code { q with waiting := q.waiting ++ [.engine index] }
  else if code ≤ 11 then k.setAbar (code - 8) (k.abar (code - 8)).arrive
  else k

/-- Whether an engine takes a command that names a token queue: it holds fewer than 255 signals to it (R33). -/
def Core.takesSignal (k : Core) (index : Bool) (code : Nat) : Bool :=
  7 < code || decide (((k.tokens code).waiting.filter (· == .engine index)).length < 255)

/-- `HELD_SIGNAL_DELIVERY` (R33): the oldest waiting push of a token queue is delivered, where it fits. -/
def execHeldSignalDelivery (c q : Nat) (s : State) : Out :=
  let k := s.coreAt c
  let t := k.tokens q
  match t.waiting with
  | [] => .next s
  | .engine _ :: r =>
    if t.count < tokenDepth then .next (s.setCore c (k.setTokens q ⟨t.count + 1, r⟩)) else .next s
  | .ksig x id :: r =>
    match s.opAt c x id with
    | none => .next (s.setCore c (k.setTokens q { t with waiting := r }))
    | some o =>
      if t.count + (tokenArgs o).2 ≤ tokenDepth then
        .next ((s.setCore c (k.setTokens q ⟨t.count + (tokenArgs o).2, r⟩)).finishOp c x id none [] [])
      else .next s

/-! ### Time running out (R161) -/

/-- Whether a timed wait is satisfied now. -/
def waitSatisfied (s : State) (c : Nat) (o : Op) : Bool :=
  match if o.code = 0x2A then performKtake s c o else performAbwait s c o with
  | .done _ _ _ _ => true
  | _ => false

/-- A wait that carries a timeout, not performed yet, whose predecessors are performed (R161). -/
def State.waits (s : State) (c : Nat) (x : CtxId) (o : Op) : Bool :=
  (o.code == 0x2A || o.code == 0x51) && o.st != .done && s.mayPerform c x o o.scope

/-- `WAIT_TIMEOUT` (R161): a `KTAKET` or `ABWAIT` whose condition was not met when its time was up writes 1 and counts as
performed. -/
def execWaitTimeout (c : Nat) (x : CtxId) (op : Nat) (s : State) : Out :=
  match s.opAt c x op with
  | none => .next s
  | some o =>
    if !s.waits c x o || (waitSatisfied s c o && (o.met || decide (s.time ≤ o.limit s.time))) then .next s
    else
      match o.since with
      | none => .next (s.setOp c x { o with since := some s.time })
      | some t => if t + 1000 * o.y.toNat ≤ s.time then .next (s.finishOp c x op (some 1) [] []) else .next s

/-- What the device timer does to one wait after a step (R161): its timeout starts to run, it is seen to be met in time, and 1 µs
after its end it times out. -/
def State.watchOp (s : State) (c : Nat) (x : CtxId) (o : Op) : State :=
  if !s.waits c x o then s
  else
    let met := o.met || (waitSatisfied s c o && decide (s.time ≤ o.limit s.time))
    if o.limit s.time + 1000 < s.time && !(met && waitSatisfied s c o) then s.finishOp c x o.id (some 1) [] []
    else s.setOp c x { o with since := some (o.since.getD s.time), met := met }

/-- The waits of one context. -/
def State.watchOps (s : State) (c : Nat) (x : CtxId) : List Op → State
  | [] => s
  | o :: r => State.watchOps (s.watchOp c x o) c x r

/-- The waits of some cores: of each, those of every context. -/
def State.watchCores (s : State) : List Nat → State
  | [] => s
  | c :: r =>
    State.watchCores ([CtxId.ctl, .ld, .cmp, .st, .biv].foldl (fun u x => u.watchOps c x (u.ctxAt c x).ops) s) r

/-- The device timer looks at every wait with a timeout after each step (R161). -/
def State.watch (s : State) : State := s.watchCores (s.cores.map (·.1))

end Sys2Proof.Machine
end

