-- ==== Sys2Proof/Machine/Atomic.lean ====
section
/-! DEFINITION. The atomics (R128, R301 to R304). -/

namespace Sys2Proof.Machine

/-- The address names a scratchpad byte (R301). -/
def atomicScratch (f : LF) : Bool := bitAt f.z.toNat 9
/-- Bytes of an atomic. -/
def atomicSize (f : LF) : Nat := if bitAt f.z.toNat 8 then 8 else 4
/-- The operand register. -/
def atomicA (f : LF) : Reg := zReg f 3
/-- An unsigned compare. -/
def atomicU (f : LF) : Bool := bitAt f.z.toNat 2

/-- The plane's width and the address's alignment do not suit the atomic (R303). -/
def atomicMisfit (s : State) (v : Nat) (va : Word) (size : Nat) : Bool :=
  let d := s.planeDesc v va
  d.bx || d.gran || decide (d.width < 3) || d.byteOf (vaPos va) % size != 0

/-- Issue of an atomic (R301, R303): the traps of the scratchpad form. The plane form holds its context's issue until the checks of its
address have passed. -/
def atomicIssue (code : Nat) (f : LF) (s : State) : Out :=
  ordering (s.ctx != .cmp) code f
    (if code = 0x49 ∨ code = 0x4A then [(f.x, 0), (f.y, 1)] else [(f.x, 0), (f.y, 1), (atomicA f, 2)]) [] (
    let a := s.G f.y
    let size := atomicSize f
    let o : Op := { code := code, f := f, x := s.G f.x, y := a, z := s.G (atomicA f),
                    dst := if code = 0x4A then none else some f.x.toNat, scope := f.t.scope.toNat }
    if atomicScratch f then
      match s.scratch s.core a.toNat size with
      | none => .trap 7 a
      | some _ =>
        if a.toNat % size ≠ 0 then .trap 8 a
        else s.issueOp { o with scope := scratchScope a.toNat f.t.scope.toNat }
    else s.issueHold o true) s

/-- `AADD` (R302). -/
def execAadd (f : LF) (s : State) : Out := atomicIssue 0x40 f s
/-- `AFADD` (R304). -/
def execAfadd (f : LF) (s : State) : Out := atomicIssue 0x41 f s
/-- `AMIN` (R302). -/
def execAmin (f : LF) (s : State) : Out := atomicIssue 0x42 f s
/-- `AMAX` (R302). -/
def execAmax (f : LF) (s : State) : Out := atomicIssue 0x43 f s
/-- `AAND` (R302). -/
def execAand (f : LF) (s : State) : Out := atomicIssue 0x44 f s
/-- `AOR` (R302). -/
def execAor (f : LF) (s : State) : Out := atomicIssue 0x45 f s
/-- `AXOR` (R302). -/
def execAxor (f : LF) (s : State) : Out := atomicIssue 0x46 f s
/-- `AXCHG` (R302). -/
def execAxchg (f : LF) (s : State) : Out := atomicIssue 0x47 f s
/-- `ACAS` (R302). -/
def execAcas (f : LF) (s : State) : Out := atomicIssue 0x48 f s
/-- `ALD` (R302). -/
def execAld (f : LF) (s : State) : Out := atomicIssue 0x49 f s
/-- `AST` (R302). -/
def execAst (f : LF) (s : State) : Out := atomicIssue 0x4A f s

/-- What an atomic writes, from the old value and its operands; none where it writes nothing (R302, R304). -/
def atomicNew (code size : Nat) (u : Bool) (old d a : Nat) : Option Nat :=
  let w := 8 * size
  let m := 2 ^ w
  let a := a % m
  let iv (n : Nat) : Int := if u then n else laneSigned w n
  match code with
  | 0x40 => some ((old + a) % m)
  | 0x41 => some ((fpFmt 0).round .rne false (((fpFmt 0).decode old).add ((fpFmt 0).decode a))).bits
  | 0x42 => some (if iv a < iv old then a else old)
  | 0x43 => some (if iv old < iv a then a else old)
  | 0x44 => some (old &&& a)
  | 0x45 => some (old ||| a)
  | 0x46 => some (old ^^^ a)
  | 0x47 => some a
  | 0x48 => if old = d % m then some a else none
  | 0x4A => some (d % m)
  | _ => none

/-- The permissions an atomic needs (R303). -/
def atomicNeed (code : Nat) : Need := if code = 0x49 then .read else if code = 0x4A then .write else .both

/-- The atomic step on locations of this device (R128): it reads the image of its scope's instance and its write, if any,
performs there, in the one step. -/
def atomicStep (s : State) (c : Nat) (x : CtxId) (o : Op) (ls : List Nat) : Perf :=
  let size := atomicSize o.f
  let r := ls.map (fun a => s.imageIn c o.scope a)
  let old := leNat (r.map (·.2))
  let s1 := s.noteRead c x ls r
  match atomicNew o.code size (atomicU o.f) old o.x.toNat o.z.toNat with
  | none => .done s1 (some (BitVec.ofNat 64 old)) (tookOf r) []
  | some v =>
    let cells := ls.zip (leBytes size v)
    .done (s1.writeCells c x o.scope cells) (some (BitVec.ofNat 64 old)) (tookOf r) (s1.writeSeqs cells)

/-- An atomic that reads zero of an ABSENT entry and writes nothing. -/
def absentRead (o : Op) : Bool := (atomicNew o.code (atomicSize o.f) (atomicU o.f) 0 o.x.toNat o.z.toNat).isNone

/-- An entry, or a missing table, that holds no data yet. -/
def absentEntry (s : State) (v : Nat) (va : Word) (e : Nat) : Bool := peState e == 0 || (s.entryAddr v va).isNone

/-- A plane atomic on ABSENT that writes nothing reads zero; another parks (R156, R303). -/
def atomicFound (s : State) (v : Nat) (o : Op) : Found :=
  match s.findAt v o.y (atomicNeed o.code) (atomicSize o.f) with
  | .park e va => if absentEntry s v va e && absentRead o then .bytes [] else .park e va
  | f => f

/-- The checks of a plane atomic (R303): steps 1 and 2 of R46, then the plane's width and the alignment, then the bounds of every
position it covers, then permissions and the entry. None where all pass. -/
def atomicCheck (s : State) (v : Nat) (o : Op) : Option Perf :=
  let size := atomicSize o.f
  let d := s.planeDesc v o.y
  let last := vaPos o.y + (8 * size / d.bits - 1)
  match s.checkPlane v o.y with
  | some k => some (.fault ⟨k, 3, o.y, [], 0⟩)
  | none =>
    if atomicMisfit s v o.y size then some (.trap 8 o.y)
    else if s.descLimit v o.y ≤ last then some (.fault ⟨3, 3, vaAt o.y (max (vaPos o.y) (s.descLimit v o.y)), [], 0⟩)
    else
      match atomicFound s v o with
      | .fault cause e a => some (.fault ⟨cause, 3, a, [], BitVec.ofNat 64 e⟩)
      | .nowhere => some (.stop .noSuchFrame)
      | _ => none

/-- The check step of a plane atomic (R303): it goes on as an operation that no longer holds its context. -/
def checkAtomic (s : State) (c : Nat) (o : Op) : Perf :=
  match atomicCheck s (s.teamOf c).vf o with
  | some p => p
  | none => .checked s [] []

/-- An atomic performs (R128, R303). The checks hold at its performance too: a plane instruction may have come between (log 16). -/
def performAtomic (s : State) (c : Nat) (x : CtxId) (o : Op) (ch : Choice) : Perf :=
  let size := atomicSize o.f
  if atomicScratch o.f then
    match s.scratch c o.y.toNat size with
    | none => .held s
    | some a => atomicStep s c x o (span a size)
  else
    let v := (s.teamOf c).vf
    let this := s.module.devId
    match if o.away.isEmpty then atomicCheck s v o else none with
    | some p => p
    | none =>
      match reach s c x o 0 o.y (atomicFound s v o) true 3 [] ch
          (wholePlan s 0 (atomicNeed o.code).w (fun l a => .atomic this l a o.code size (atomicU o.f) o.x o.z)) with
      | .no p => p
      | .back _ fs => .done (s.touchCache v o.y ch.way (atomicNeed o.code).w true) (some (BitVec.ofNat 64 (leAt (answerData fs) 0 size))) [] []
      | .here bs =>
        match localLocs bs with
        | some (a :: ls) => atomicStep (s.touchCache v o.y ch.way (atomicNeed o.code).w true) c x o (a :: ls)
        | _ => .done s (some 0) [] []

end Sys2Proof.Machine
end

