-- ==== Sys2Proof/Machine/Sync.lean ====
section
/-! DEFINITION. Named events, `LAUNCH`, `STEAL`, `TSTATE`, system barriers and `MSEND` (R147 to R153, R307 to R316). -/

namespace Sys2Proof.Machine

/-- The tenant of a core's task. -/
def State.vfOf (s : State) (c : Nat) : Nat := (s.teamOf c).vf

/-- A register value whose byte offset in its plane is not a multiple of `n`, where the plane can be read. -/
def misaligned (s : State) (va : Word) (n : Nat) : Bool :=
  let v := s.vfOf s.core
  (s.checkPlane v va).isNone && (s.planeDesc v va).byteOf (vaPos va) % n != 0

/-! ### Issue -/

/-- The name an event instruction gives (R307). -/
def eventName (w : Word) : Nat := field w.toNat 0 16
/-- A remote `EVSIG`. -/
def evRemote (f : LF) : Bool := bitAt f.z.toNat 1

/-- `EVSIG` (R307). -/
def execEvsig (f : LF) (s : State) : Out :=
  ordering (onControl s.ctx) 0x52 f (if evRemote f then [(f.x, 0), (f.y, 1)] else [(f.y, 1)]) [] (
    if evRemote f ∧ 2048 ≤ (s.G f.x).toNat then .trap 2 0
    else if eventName (s.G f.y) = 0 then .trap 2 1
    else
      s.issueOp { code := 0x52, f := f, x := if evRemote f then s.G f.x else 0, y := s.G f.y,
                  scope := if evRemote f then 3 else max 2 f.t.scope.toNat }) s

/-- `EVWAIT` (R307). -/
def execEvwait (f : LF) (s : State) : Out :=
  ordering (onControl s.ctx) 0x53 f [(f.x, 0), (f.y, 1)] [] (
    if eventName (s.G f.y) = 0 then .trap 2 1
    else s.issueOp { code := 0x53, f := f, y := s.G f.y, dst := some f.x.toNat, scope := max 2 f.t.scope.toNat }) s

/-- `EVRESET` (R307). -/
def execEvreset (f : LF) (s : State) : Out :=
  ordering (onControl s.ctx) 0x54 f [(f.x, 0), (f.y, 1)] [] (
    if s.G f.x = 0 ∨ 65535 < (s.G f.x).toNat then .trap 2 0
    else if eventName (s.G f.y) = 0 then .trap 2 1
    else s.issueOp { code := 0x54, f := f, x := s.G f.x, y := s.G f.y, scope := max 2 f.t.scope.toNat }) s

/-- `LAUNCH` (R308, R125). -/
def execLaunch (f : LF) (s : State) : Out :=
  ordering (onControl s.ctx) 0x55 f [(f.y, 1)] []
    (s.issueOp { code := 0x55, f := f, y := s.G f.y, scope := max 2 f.t.scope.toNat }) s

/-- `STEAL` (R309). -/
def execSteal (f : LF) (s : State) : Out :=
  ordering (onControl s.ctx) 0x56 f [(f.x, 0), (f.y, 1), (zReg f 5, 2)] [] (
    if misaligned s (s.G f.y) 8 then .trap 8 (s.G f.y)
    else if misaligned s (s.G (zReg f 5)) 8 then .trap 8 (s.G (zReg f 5))
    else
      s.issueOp { code := 0x56, f := f, x := s.G f.x, y := s.G f.y, z := s.G (zReg f 5), dst := some f.x.toNat,
                  scope := 3 }) s

/-- `TSTATE` (R311). -/
def execTstate (f : LF) (s : State) : Out :=
  ordering (onControl s.ctx) 0x57 f [(f.x, 0), (f.y, 1)] [] (
    if misaligned s (s.G f.y) 8 then .trap 8 (s.G f.y)
    else s.issueOp { code := 0x57, f := f, y := s.G f.y, dst := some f.x.toNat, scope := 3 }) s

/-- `BJOIN` (R313). -/
def execBjoin (f : LF) (s : State) : Out :=
  ordering (onControl s.ctx) 0x58 f [(f.x, 0), (f.y, 1), (zReg f 5, 2)] []
    (s.issueOp { code := 0x58, f := f, y := s.G f.y, z := s.G (zReg f 5), dst := some f.x.toNat, scope := f.t.scope.toNat }) s

/-- `BWAIT` (R314). -/
def execBwait (f : LF) (s : State) : Out :=
  ordering (onControl s.ctx) 0x59 f [(f.x, 0), (f.y, 1)] []
    (s.issueOp { code := 0x59, f := f, x := s.G f.x, y := s.G f.y, scope := f.t.scope.toNat }) s

/-- What a `BLOG` reads. -/
def blogItem (f : LF) : Nat := field f.z.toNat 0 5

/-- `BLOG` (R315). -/
def execBlog (f : LF) (s : State) : Out :=
  ordering (onControl s.ctx) 0x5A f [(f.x, 0), (f.y, 1), (zReg f 5, 2)] [] (
    if 20 ≤ blogItem f ∨ 64 ≤ (s.G (zReg f 5)).toNat then .trap 2 2
    else
      s.issueOp { code := 0x5A, f := f, y := s.G f.y, z := s.G (zReg f 5), dst := some f.x.toNat,
                  scope := f.t.scope.toNat }) s

/-- `MSEND` (R316). -/
def execMsend (f : LF) (s : State) : Out :=
  ordering (onControl s.ctx) 0x5B f [(f.x, 0), (f.y, 1), (zReg f 5, 2)] [] (
    if 2 ^ 35 ≤ (s.G (zReg f 5)).toNat then .trap 2 2
    else if misaligned s (s.G f.y) 8 then .trap 8 (s.G f.y)
    else
      s.issueOp { code := 0x5B, f := f, x := s.G f.x, y := s.G f.y, z := s.G (zReg f 5),
                  scope := max 2 f.t.scope.toNat }) s

/-! ### Events perform (R147, R148, R307, R334) -/

/-- `EVSIG` is delivered. A remote one goes to the function that bears the tenant's FTID on the device it names. -/
def performEvsig (s : State) (c : Nat) (x : CtxId) (o : Op) (ch : Choice) : Perf :=
  let v := s.vfOf c
  let name := eventName o.y
  let fail := bitAt o.f.z.toNat 0
  let dev := field o.x.toNat 0 11
  if !evRemote o.f then .done (s.signals [⟨v, name, fail⟩]) none [] []
  else if dev = s.module.devId then
    if (s.tenant v).ftid = 0 then .fault ⟨0x0C, 3, o.y, [], 0⟩ else .done (s.signals [⟨v, name, fail⟩]) none [] []
  else
    askAway s c x o 0 dev (.event name fail) o.y ch (fun s _ _ => .done s none [] [])

/-- `EVWAIT` performs when its event is satisfied or failed, or when a signal has woken it; else it waits in the event's store,
or at its source while the store is full (R148). -/
def performEvwait (s : State) (c : Nat) (x : CtxId) (o : Op) : Perf :=
  let v := s.vfOf c
  let e := s.event v (eventName o.y)
  match o.woken with
  | some w => .done s (some w) [] []
  | none =>
    if e.isFailed then .done s (some 1) [] []
    else if e.satisfied then .done s (some 0) [] []
    else .held ((s.addWaiter v (eventName o.y) (.op c x o.id)).getD s)

/-- `EVRESET` performs; the waiters stay. -/
def performEvreset (s : State) (c : Nat) (o : Op) : Perf :=
  let v := s.vfOf c
  let name := eventName o.y
  .done (s.setEvent v name { s.event v name with target := o.x.toNat, count := 0, failed := false }) none [] []

/-! ### `LAUNCH`, `STEAL`, `TSTATE` -/

/-- New work reaches a queue (R145, R146): a child of a task whose queue has been disabled too (log 83). -/
def State.pushWork (s : State) (q : Nat) (i : QItem) : State :=
  let w := s.queue q
  s.setQueue q { w with unread := w.unread ++ [i], st := if w.st = .empty then .pending else w.st,
                        turn := if w.st = .empty then s.nextTurn else w.turn }
    |> fun t => if w.st = .empty then { t with nextTurn := s.nextTurn + 1 } else t

/-- `LAUNCH` performs when the header has been read, in one read at its scope (R308). It is delivered then (R119). -/
def performLaunch (s : State) (c : Nat) (x : CtxId) (o : Op) (ch : Choice) : Perf :=
  let tm := s.teamOf c
  readFound s c x o o.scope o.y (s.findAt tm.vf o.y .read 64) 3 ch
    (fun s r => .done (s.pushWork tm.queue { va := o.y, bytes := some (r.map (·.2)) }) none [] [])

/-- The status word of a member in a barrier object's bytes (R150). -/
def memberStatus (b : List Byte) (m : Nat) : Nat := leAt b (64 + 40 * m + 32) 8

/-- Some member has joined once, has DEV `dev`, and has the given STRAG (R309). -/
def someMember (b : List Byte) (dev : Nat) (strag : Bool) : Bool :=
  (List.range (leAt b 0 1)).any (fun m =>
    let w := memberStatus b m
    (bitAt w 4 || field w 0 4 != 0) && bitAt w 10 == strag && field w 16 11 == dev)

/-- The header of a barrier object is malformed (R150): a field outside its range, or a reserved field that is not zero. -/
def barrierMalformed (b : List Byte) : Bool :=
  let n := leAt b 0 1
  let w := leAt b 1 1
  let k := leAt b 2 1
  n == 0 || decide (64 < n) || w == 0 || decide (16 < w) || k == 0 || decide (w < k) || decide (3 < leAt b 3 1)
    || leAt b 4 2 == 0 || leAt b 6 2 != 0 || leAt b 13 3 != 0 || (List.range 24).any (fun i => leAt b (40 + i) 1 != 0)
    || (List.range n).any (fun m => field (memberStatus b m) 27 37 != 0 || field (memberStatus b m) 11 5 != 0)

/-- Whether the swap of a `STEAL` succeeds on a word (R309). -/
def stealOk (w expected this : Nat) (barrier : List Byte) : Bool :=
  swState w == 1 && swSteal w && swGen w == expected && swReserved w == 0
    && someMember barrier (swOwner w) true && someMember barrier this false

/-- The word a successful `STEAL` writes. -/
def stolenWord (w this : Nat) : Nat :=
  let w := swSetState w 4
  let w := w - swThief w * 2 ^ 32 + this % 2048 * 2 ^ 32
  swNextGen w

/-- The word `STEAL` returns. -/
def stealResult (w : Nat) (ok : Bool) : Word := BitVec.ofNat 64 (w % 2 ^ 63 + if ok then 0 else 2 ^ 63)

/-- The task of this device's launches whose record lies at a location. -/
def State.taskAt (s : State) (loc : Nat) : Option (Tk × Launch) :=
  s.tasks.findSome? (fun t => match s.launch t.launch with
    | some l =>
      (match s.findAt l.vf t.addr .read 1 with
        | .bytes [.at a] => if l.stolen.isNone && a == loc then some (t, l) else none
        | _ => none)
    | none => none)

/-- What the owner's dispatcher tells the thief: six widths, the default class and the urgent flag, as eight bytes. -/
def Launch.info (l : Launch) : List Byte :=
  l.widths.map (BitVec.ofNat 8 ·) ++ [BitVec.ofNat 8 l.cls, BitVec.ofNat 8 l.urgent.toNat]

/-- A `STEAL` by a device on the record and the barrier object at locations of this device (R309): the word it finds, and, where
it succeeds, the state after the swap. The owner's dispatcher has seen its record stolen. -/
def State.stealHere (s : State) (thief expected : Nat) (record : List Nat) (barrier : List Byte) : Nat × Option State :=
  let w := leNat (record.take 8 |>.map s.image)
  if !stealOk w expected thief barrier then (w, none)
  else
    let s1 := s.writeDevice (record.zip (leBytes 8 (stolenWord w thief)))
    (w, some (match s.taskAt (record.headD 0) with
      | some (t, _) => s1.setTk { t with st := .away, since := s.time }
      | none => s1))

/-- The stolen task joins the stealing task's queue (R310). `rec_` is the record's 128 bytes as the swap left them. -/
def State.takeStolen (s : State) (q : Nat) (va : Word) (owner : Nat) (rec_ info : List Byte) : State :=
  s.pushWork q { va := va, stolen := some ⟨owner, rec_, (List.range 6).map (fun i => leAt info i 1), leAt info 6 1,
                                          leAt info 7 1 != 0⟩ }

/-- What the answer of a record's home device makes of a `STEAL`: the word before the swap; and, where that succeeded, record bytes
+8 to +127 and the launch's fields. -/
def stealAnswered (s : State) (c : Nat) (o : Op) (b : List Byte) : Perf :=
  let w := leAt b 0 8
  if b.length < 136 then .done s (some (stealResult w false)) [] []
  else
    .done (s.takeStolen (s.teamOf c).queue o.y (swOwner w) (leBytes 8 (stolenWord w s.module.devId) ++ (b.drop 8).take 120)
      (b.drop 128)) (some (stealResult w true)) [] []

/-- The swap of a `STEAL` on a record of this device, with the barrier object's bytes in that step, and what another owner's
dispatcher has told of the record's launch. -/
def stealSwap (s : State) (c : Nat) (o : Op) (rb : List Byte1) (barrier : List Byte) (told : List Byte) : Perf :=
  let this := s.module.devId
  let locs := (localLocs rb).getD []
  let old := s.imageOf rb
  if barrierMalformed barrier then .fault ⟨0x0D, 3, o.z, [], s.entryAtVa (s.vfOf c) o.z⟩
  else
    match s.stealHere this (field o.x.toNat 0 16) locs barrier with
    | (w, none) => .done s (some (stealResult w false)) [] []
    | (w, some s1) =>
      let info := if swOwner w = this then ((s.taskAt (locs.headD 0)).map (·.2.info)).getD (List.replicate 8 0) else told
      .done (s1.takeStolen (s.teamOf c).queue o.y (swOwner w) (leBytes 8 (stolenWord w this) ++ old.drop 8) info)
        (some (stealResult w true)) [] []

/-- The words's own conditions for a `STEAL`, of a record whose owner is another device: its dispatcher is asked for the launch's
fields before the swap. -/
def stealAsks (s : State) (o : Op) (w : Nat) : Bool :=
  swState w == 1 && swSteal w && swGen w == field o.x.toNat 0 16 && swOwner w != s.module.devId

/-- `STEAL` performs (R309), in one step at the record's home device. A record here needs what another owner tells (request 2), and
then the barrier object, which another device gives in the step of the swap (request 1). A record elsewhere is swapped there
(request 0), and a malformed barrier header that its home device finds is a fault of the barrier's address. -/
def performSteal (s : State) (c : Nat) (x : CtxId) (o : Op) (ch : Choice) : Perf :=
  let v := s.vfOf c
  let this := s.module.devId
  let record := s.findAt v o.y .both 128
  let barrier := s.findAt v o.z .read 2624
  if o.away.any (fun e => e.1 == 0) then
    match reach s c x o 0 o.y record true 3 [] ch (fun _ => ([], [])) with
    | .no (.fault i) => .fault (if i.cause = 0x0D then { i with addr := o.z, entry := s.entryAtVa v o.z } else i)
    | .no p => p
    | .back _ fs => stealAnswered s c o (answerData fs)
    | .here _ => .held s
  else
    match foundOr s c barrier false 3 [], foundOr s c record true 3 [] with
    | .inl p, _ | _, .inl p => p
    | .inr bb, .inr rb =>
      if (remoteOf rb).isSome then
        let at_ := (remoteOf bb).getD (this, 0, (hereLocs bb).headD 0, 0)
        match reach s c x o 0 o.y record true 3 [] ch
            (wholePlan s 0 true (fun l a => .steal this l a at_.1 at_.2.1 at_.2.2.1 (field o.x.toNat 0 16))) with
        | .no p => p
        | _ => .held s
      else
        let w := leNat ((s.imageOf rb).take 8)
        let told := o.lines.filter (fun f => f.keys.contains 2)
        if stealAsks s o w && !(told.any (fun f => f.dev == swOwner w && f.ans != .none)) then
          askAway s c x o 2 (swOwner w) (.fields this this ((hereLocs rb).headD 0)) o.y ch
            (fun s _ _ => .held s)
        else
          match reach s c x o 1 o.z barrier false 3 [] ch (wholePlan s 1 false (fun l a => .object this this l a)) with
          | .no p => p
          | .here bb => stealSwap s c o rb (s.imageOf bb) (answerData told)
          | .back _ fs => stealSwap s c o rb (answerData fs) (answerData told)

/-- `TSTATE` performs: one read at system scope (R311). It is performed with it (R119). -/
def performTstate (s : State) (c : Nat) (x : CtxId) (o : Op) (ch : Choice) : Perf :=
  let v := s.vfOf c
  let cause := bitAt o.f.z.toNat 0
  let va := if cause then s.recAt v o.y 72 else o.y
  readFound s c x o 3 va (s.findAt v va .read (if cause then 4 else 8)) 3 ch
    (fun s r => .done s (some (BitVec.ofNat 64 (leNat (r.map (·.2))))) [] [])

/-! ### System barriers (R150, R151, R312 to R315) -/

/-- The bytes of a barrier object with some replaced. -/
def patch (b : List Byte) (o : Nat) (new : List Byte) : List Byte := b.take o ++ new ++ b.drop (o + new.length)

/-- The lags of a member that count: W of them, or as many as the ring has held (R151). -/
def validLags (b : List Byte) (m : Nat) : List Nat :=
  let w := memberStatus b m
  let n := if bitAt w 4 then leAt b 1 1 else field w 0 4
  (List.range n).map (fun i => leAt b (64 + 40 * m + 2 * i) 2)

/-- The update of one member at the end of an episode (R151). -/
def updateMember (b : List Byte) (m lag : Nat) : List Byte :=
  let width := leAt b 1 1
  let kk := leAt b 2 1
  let limit := leAt b 4 2
  let w := memberStatus b m
  let next := field w 0 4
  let b := patch b (64 + 40 * m + 2 * next) (leBytes 2 lag)
  let full := bitAt w 4 || next + 1 == width
  let next' := (next + 1) % width
  let head (strag : Bool) (streak : Nat) : Nat :=
    field w 16 11 * 2 ^ 16 + strag.toNat * 2 ^ 10 + streak * 2 ^ 5 + full.toNat * 2 ^ 4 + next'
  let b1 := patch b (64 + 40 * m + 32) (leBytes 8 (head (bitAt w 10) (field w 5 5)))
  let late := decide (limit < lag)
  let n := ((validLags b1 m).filter (fun l => decide (limit < l))).length
  let st : Bool × Nat :=
    if !bitAt w 10 then (if late && decide (kk ≤ n) then (true, 0) else (false, field w 5 5))
    else
      let streak := if late then 0 else field w 5 5 + 1
      if streak = kk then (false, 0) else (true, streak)
  patch b1 (64 + 40 * m + 32) (leBytes 8 (head st.1 st.2))

/-- The update of members `m` up (R151). `t` gives each join time. -/
def updateMembers (t : Nat → Nat) (tfirst : Nat) : Nat → Nat → List Byte → List Byte
  | _, 0, b => b
  | m, n + 1, b => updateMembers t tfirst (m + 1) n (updateMember b m (min 65535 ((t m - tfirst) / 1000)))

/-- The straggler mask of the members. -/
def stragMask (b : List Byte) : Nat :=
  ((List.range (leAt b 0 1)).map (fun m => if bitAt (memberStatus b m) 10 then 2 ^ m else 0)).foldl (· + ·) 0

/-- One join of member `m`, counted (R313): the object's bytes and the episode it was counted in, and whether it ends. -/
def countJoin (s : State) (base : Nat) (b : List Byte) (m dev : Nat) : State × List Byte × Nat × Bool :=
  let joins := leAt b 12 1
  let b := if joins = 0 then patch b 24 (leBytes 8 s.time) else b
  let s := { s with tjoin := s.tjoin.set (base + m) s.time }
  let w := memberStatus b m
  let b := patch b (64 + 40 * m + 32) (leBytes 8 (w - field w 16 11 * 2 ^ 16 + dev % 2048 * 2 ^ 16))
  let b := patch b 32 (leBytes 8 (leAt b 32 8 + 2 ^ m))
  let e := leAt b 8 4
  if joins + 1 = leAt b 0 1 then
    let b := updateMembers (fun i => s.tjoin.get 0 (base + i)) (leAt b 24 8) 0 (leAt b 0 1) b
    let b := patch b 8 (leBytes 4 ((e + 1) % 2 ^ 32))
    let b := patch b 12 (leBytes 1 0)
    let b := patch b 16 (leBytes 8 (stragMask b))
    (s, patch b 32 (leBytes 8 0), e, true)
  else (s, patch b 12 (leBytes 1 (joins + 1)), e, false)

/-- The joins held at an object are counted in the order they arrived, once an episode has ended (R313). One whose member has
joined the current episode stays held. Each is counted once, so their number bounds the count. -/
def countHeld (base : Nat) : Nat → State → List Byte → State × List Byte
  | 0, s, b => (s, b)
  | n + 1, s, b =>
    match s.joins.find? (fun h => h.base == base && !bitAt (leAt b 32 8) h.m) with
    | none => (s, b)
    | some h =>
      let s := { s with joins := s.joins.erase h }
      let dev := match h.who with
        | .op _ _ _ => s.module.devId
        | .away d => d
      let p := countJoin s base b h.m dev
      let e : Word := BitVec.ofNat 64 p.2.2.1
      countHeld base n (match h.who with
        | .op c x id => p.1.finishOp c x id (some e) [] []
        | .away d => p.1.send (.answer d (.data (leBytes 4 e.toNat)))) p.2.1

/-- A join of member `m` at the object at a location of this device, whose bytes are `b` (R313): counted, with the episode it
counts in and the object's new bytes; or held. -/
def State.joinHere (s : State) (who : Joiner) (base : Nat) (b : List Byte) (m : Nat) : State × Option (Nat × List Byte) :=
  if bitAt (leAt b 32 8) m then ({ s with joins := s.joins ++ [⟨who, base, m⟩] }, none)
  else
    let dev := match who with
      | .op _ _ _ => s.module.devId
      | .away d => d
    let p := countJoin s base b m dev
    let q := if p.2.2.2 then countHeld base s.joins.length p.1 p.2.1 else (p.1, p.2.1)
    (q.1, some (p.2.2.1, q.2))

/-- Bytes at their places in the image of a scope's instance of core `c`, each with its write (R119, R312). -/
def State.imageAt (s : State) (c scope : Nat) (bs : List Byte1) : List (Nat × Byte) :=
  bs.map (fun b => match b with | .at a => s.imageIn c scope a | _ => (0, 0))

/-- The cells at which new bytes differ from old ones. -/
def changedCells (bs : List Byte1) (old new : List Byte) : List Host.Cell :=
  ((cellsAt bs old).zip (cellsAt bs new)).filterMap (fun p => if p.1.2 = p.2.2 then none else some p.2)

/-- Bytes at their places as the latest writes to them leave them, each with its write: what a step of a barrier instruction that is
indivisible against every other goes on from, whatever the scope at which that has been performed (R312). -/
def State.newestOf (s : State) (bs : List Byte1) : List (Nat × Byte) :=
  bs.map (fun b => match b with | .at a => s.newestAt a | _ => (0, 0))

/-- `BJOIN` is delivered (R313): counted, or held until the episode ends where its member has joined already. It goes on from the object
as the join before it has left it, and writes it at the scope it acts at (R312). -/
def performBjoin (s : State) (c : Nat) (x : CtxId) (o : Op) (ch : Choice) : Perf :=
  let v := s.vfOf c
  let m := o.z.toNat
  if s.joins.any (fun h => h.who == .op c x o.id) then .held s
  else if misaligned { s with core := c } o.y 64 then .fault ⟨0x0D, 3, o.y, [], 0⟩
  else
    match reach s c x o 0 o.y (s.findAt v o.y .both 2624) true 3 [] ch
        (wholePlan s 0 true (fun l a => .join s.module.devId l a m)) with
    | .no p => p
    | .back _ fs => .done s (some (BitVec.ofNat 64 (leAt (answerData fs) 0 4))) [] []
    | .here bs =>
      let r := s.newestOf bs
      let b := r.map (·.2)
      let base := (hereLocs bs).headD 0
      if barrierMalformed b ∨ leAt b 0 1 ≤ m then .fault ⟨0x0D, 3, o.y, [], s.entryAtVa v o.y⟩
      else
        match (s.noteRead c x (hereLocs bs) r).joinHere (.op c x o.id) base b m with
        | (s1, none) => .held s1
        | (s1, some (e, nb)) => .done (s1.writeCells c x o.scope (changedCells bs b nb)) (some (BitVec.ofNat 64 e)) [] []

/-- A read of a barrier object in one step at its home device, at the scope it acts at (R312). -/
def barrierRead (s : State) (c : Nat) (x : CtxId) (o : Op) (ch : Choice) (body : State → List Byte → Perf) : Perf :=
  if misaligned { s with core := c } o.y 64 then .fault ⟨0x0D, 3, o.y, [], 0⟩
  else
    match reach s c x o 0 o.y (s.findAt (s.vfOf c) o.y .read 2624) false 3 [] ch
        (wholePlan s 0 false (fun l a => .object s.module.devId s.module.devId l a)) with
    | .no p => p
    | .back _ fs => body s (answerData fs)
    | .here bs =>
      let r := s.imageAt c o.scope bs
      body (s.noteRead c x (hereLocs bs) r) (r.map (·.2))

/-- `BWAIT` is satisfied when the episode it names has ended (R314). Where another device has answered that it has not, the object is
read again. -/
def performBwait (s : State) (c : Nat) (x : CtxId) (o : Op) (ch : Choice) : Perf :=
  barrierRead s c x o ch (fun s b =>
    let d := (leAt b 8 4 + 2 ^ 32 - field o.x.toNat 0 32) % 2 ^ 32
    if 1 ≤ d ∧ d < 2 ^ 31 then .done s none [] [] else .held (s.setOp c x (o.settled [0])))

/-- The value a `BLOG` reads (R315). -/
def blogValue (b : List Byte) (n m : Nat) : Nat :=
  if n < 16 then leAt b (64 + 40 * m + 2 * n) 2
  else if n = 16 then memberStatus b m
  else if n = 17 then leAt b 16 8
  else if n = 18 then leAt b 8 4
  else leAt b 12 1

/-- `BLOG` performs (R315). -/
def performBlog (s : State) (c : Nat) (x : CtxId) (o : Op) (ch : Choice) : Perf :=
  barrierRead s c x o ch (fun s b => .done s (some (BitVec.ofNat 64 (blogValue b (blogItem o.f) o.z.toNat))) [] [])

/-- The scope a barrier instruction acts at (R312): the wider of its own and the object's, which it reads at its own; system where
the object lies on another device. -/
def barrierScope (s : State) (c : Nat) (o : Op) : Nat :=
  if !o.away.isEmpty then 3
  else
    match s.findAt (s.vfOf c) o.y .read 64 with
    | .bytes bs => if (remoteOf bs).isSome then 3 else max o.f.t.scope.toNat (leAt ((s.imageAt c o.f.t.scope.toNat bs).map (·.2)) 3 1)
    | _ => o.f.t.scope.toNat

/-! ### `MSEND` (R316) -/

/-- The device and the address at which the byte of an address lies, where its checks and entry say. -/
def State.placeOf (s : State) (v : Nat) (va : Word) : Option (Nat × Nat) :=
  match s.findAt v va .read 1 with
  | .bytes [.at a] => some (s.module.devId, a)
  | .bytes [.remote d _ a _] => some (d, a)
  | _ => none

/-- The team that runs a tenant's record on this device, at home or stolen: the one whose record lies at the place, under whatever
address it knows it; by the address itself where a place cannot be told. -/
def State.teamRunning (s : State) (v : Nat) (va : Word) (place : Option (Nat × Nat)) : Option Team :=
  (s.teams.find? (fun e => e.2.vf == v && (match s.placeOf v e.2.addr, place with
    | some p, some q => p == q
    | _, _ => e.2.addr == va))).map (·.2)

/-- A message reaches a running task (R316): placed as a cause, discarded, or none while there is no room. -/
def State.deliver (s : State) (v : Nat) (va : Word) (place : Option (Nat × Nat)) (rank : Nat) (handler payload : Word) :
    Option State :=
  match s.teamRunning v va place with
  | none => some s
  | some tm =>
    match tm.cores[rank]? with
    | none => some s
    | some c => s.raise c { cause := 0x11, info := payload, handler := some handler }

/-- The place of the record that an `MSEND` names: that at which it has read it, on another device, or that of its entry. -/
def msendPlace (s : State) (c : Nat) (o : Op) : Option (Nat × Nat) :=
  match o.away with
  | (_, .remote d _ a _ :: _) :: _ => some (d, a)
  | _ => s.placeOf (s.vfOf c) o.y

/-- The message of an `MSEND` to another device. -/
def msendRequest (s : State) (c : Nat) (o : Op) : FabricRequest :=
  let p := (msendPlace s c o).getD (s.module.devId, 0)
  .message o.y p.1 p.2 (field o.z.toNat 32 3) (field o.z.toNat 0 32) o.x

/-- Where the message of an `MSEND` goes, once the record's state word is known (R316). -/
def sendMessage (s : State) (c : Nat) (x : CtxId) (o : Op) (ch : Choice) (w : Nat) : Perf :=
  let dev := if swState w = 2 then swOwner w else swThief w
  if swState w ≠ 2 ∧ swState w ≠ 4 then .done s none [] []
  else if dev = s.module.devId then
    match s.deliver (s.vfOf c) o.y (msendPlace s c o) (field o.z.toNat 32 3) (BitVec.ofNat 64 (field o.z.toNat 0 32)) o.x with
    | some s' => .done s' none [] []
    | none => .held s
  else askAway s c x o 1 dev (msendRequest s c o) o.y ch (fun s _ _ => .done s none [] [])

/-- `MSEND` performs when the cause has been placed at its target (R316). A message on its way to another device waits for that
device alone; one that waits for room here keeps what it has read of a record elsewhere. -/
def performMsend (s : State) (c : Nat) (x : CtxId) (o : Op) (ch : Choice) : Perf :=
  match o.lines.find? (fun f => f.keys.contains 1) with
  | some f =>
    askAway s c x o 1 f.dev (msendRequest s c o) o.y ch (fun s _ _ => .done s none [] [])
  | none =>
    readFound s c x o o.scope o.y (s.findAt (s.vfOf c) o.y .read 8) 3 ch
      (fun s r => sendMessage s c x ((s.opAt c x o.id).getD o) ch (leNat (r.map (·.2))))

end Sys2Proof.Machine
end

