-- ==== Sys2Proof/Machine/Plane.lean ====
section
/-! DEFINITION. Prefetch hints, probe slots, and the plane instructions (R131, R166 to R168, R260 to R266). -/

namespace Sys2Proof.Machine

/-! ### `PREF` (R260, R131) -/

/-- A hint whose first line fails a check of R46 or meets POISONED is dropped (R260). -/
def hintDropped (s : State) (va : Word) : Bool :=
  match s.place (s.vfOf s.core) va .read with
  | .fault _ _ => true
  | _ => false

/-- `PREF` (R260): it performs at issue, enters no stream, and only a dropped hint leaves a trace. -/
def execPref (f : LF) (s : State) : Out :=
  ordering (s.ctx != .cmp) 0x21 f [(f.y, 1)] [] (
    if hintDropped s (scaledAddr (s.G f.y) f.z 64) then
      .ok (s.setCur { s.cur with hintDrop := if s.cur.hintDrop = BitVec.allOnes 64 then s.cur.hintDrop
                                             else s.cur.hintDrop + 1 })
    else .ok s) s

/-! ### Probe slots -/

/-- The slots a `PROBE` considers: below P, and below the P that each issued `PCONV` will set (R264). -/
def Core.probeLimit (k : Core) : Nat :=
  ((k.ctl.ops ++ k.biv.ops).filter (fun o => o.code == 0x24 && o.st != .done)).foldl (fun n o => min n o.y.toNat) k.probeP

/-- The tag of the block that holds the element at an address (R42, R167). -/
def probeTag (s : State) (va : Word) : BitVec 59 :=
  BitVec.ofNat 59 (vaPlane va * 2 ^ 55 + vaConst va * 2 ^ 43
    + (s.planeDesc (s.vfOf s.core) va).byteOf (vaPos va) / 4096 % 2 ^ 43)

/-- Slot `n` becomes the most recent. -/
def Core.touch (k : Core) (n : Nat) : Core := { k with recent := k.recent.erase n ++ [n] }

/-- The slot a miss takes: the invalid one of lowest number, else the least recent (R167). -/
def victim (k : Core) (cand : List Nat) : Option Nat :=
  match cand.find? (fun n => !(k.slotAt n).valid) with
  | some n => some n
  | none => k.recent.find? cand.contains

/-- What a lookup gives: the core afterwards, the value of gd, whether the miss branch is taken, and the slot to fill. -/
structure Lookup where
  k    : Core
  val  : Word
  miss : Bool
  fill : Option Nat

/-- The lookup of R167. -/
def lookup (k : Core) (tag : BitVec 59) : Lookup :=
  let slots := List.range k.probeLimit
  match slots.find? (fun n => (k.slotAt n).valid && (k.slotAt n).tag == tag) with
  | some n =>
    let e := k.slotAt n
    ⟨(k.setSlot n { e with pin := true }).touch n, BitVec.ofNat 64 (n + if e.fill then 2 ^ 9 else 0), e.fill, none⟩
  | none =>
    match victim k (slots.filter (fun n => !(k.slotAt n).pin && !(k.slotAt n).fill)) with
    | none => ⟨k, 2 ^ 10, true, none⟩
    | some n => ⟨(k.setSlot n ⟨true, true, true, tag⟩).touch n, BitVec.ofNat 64 (n + 2 ^ 8), true, some n⟩

/-- `PROBE` (R262): the lookup at issue, gd written, the fill started as an engine command with this tail, and the branch on a
miss. A branch that traps leaves everything as it was. -/
def execProbe (f : LF) (s : State) : Out :=
  ordering (s.ctx != .cmp) 0x22 f [(f.x, 0), (f.y, 1)] [] (
    let va := s.G f.y
    let l := lookup s.curCore (probeTag s va)
    let off : BitVec 7 := bits f.z.toNat 0 7
    let o : Op := { code := 0x22, f := f, y := va, z := BitVec.ofNat 64 (l.fill.getD 0), scope := f.t.scope.toNat }
    if l.fill.isSome && s.streamFull f.t.stream then .wait
    else
      let s1 := (s.setCurCore l.k).setG f.x l.val
      let s2 := if l.fill.isSome then s1.enqueue o else s1
      if l.miss then
        match s2.branch (s.pc + off.signExtend 64) none with
        | .stay s3 => .stay (({ s with parks := s3.parks } : State).setCur { s.cur with want := s3.cur.want })
        | a => a
      else .ok s2) s

/-- `PRELS` (R263). -/
def execPrels (f : LF) (s : State) : Out :=
  ordering (onControl s.ctx) 0x23 f [(f.x, 0)] [] (
    if 256 ≤ (s.G f.x).toNat then .trap 2 0
    else s.issueOp { code := 0x23, f := f, x := s.G f.x, scope := f.t.scope.toNat }) s

/-- `PRELS` takes effect: the slot is unpinned, if it is below P and pinned. -/
def performPrels (s : State) (c : Nat) (o : Op) : Perf :=
  let k := s.coreAt c
  let n := o.x.toNat
  .done (if n < k.probeP ∧ (k.slotAt n).pin then s.setCore c (k.setSlot n { k.slotAt n with pin := false }) else s) none [] []

/-- `PCONV` (R264). -/
def execPconv (f : LF) (s : State) : Out :=
  ordering (onControl s.ctx) 0x24 f [(f.y, 1)] [(0, !signalOk f.x.toNat)] (
    if 256 < (s.G f.y).toNat then .trap 2 1
    else s.issueOp { code := 0x24, f := f, y := s.G f.y, scope := f.t.scope.toNat }) s

/-! ### Plane instructions (R265, R266) -/

/-- A plane instruction names a constellation that is not valid, or a plane that is not enabled (R265). -/
def planeAbsent (s : State) (va : Word) : Bool :=
  !s.descValid (s.vfOf s.core) va || !s.planeOn (s.vfOf s.core) va

/-- The value of `PLNEW` breaks a rule of R265: another bit, a width, GRAN with a BX width, a permission beyond the maximum. -/
def planeValueBad (d : PlaneDesc) (v : Nat) : Bool :=
  let n : PlaneDesc := ⟨v⟩
  v / 2 ^ 11 != 0 || field v 7 2 != 0 || decide (10 ≤ n.width) || (n.gran && n.bx) || (n.r && !d.rmax) || (n.w && !d.wmax)

/-- `PLNEW` (R265): the plane is checked before the value (log 108). -/
def execPlnew (f : LF) (s : State) : Out :=
  ordering (onControl s.ctx) 0x25 f [(f.x, 0), (f.y, 1)] [] (
    let va := s.G f.y
    if planeAbsent s va then .trap 2 1
    else if planeValueBad (s.planeDesc (s.vfOf s.core) va) (s.G f.x).toNat then .trap 2 0
    else s.issueOp { code := 0x25, f := f, x := s.G f.x, y := va, scope := f.t.scope.toNat }) s

/-- `PLPROT` (R265): R in W[32], W in W[31]. The plane is checked before them (log 108). -/
def execPlprot (f : LF) (s : State) : Out :=
  ordering (onControl s.ctx) 0x26 f [(f.y, 1)] [] (
    let va := s.G f.y
    let d := s.planeDesc (s.vfOf s.core) va
    if planeAbsent s va then .trap 2 1
    else if (bitAt f.x.toNat 1 && !d.rmax) || (bitAt f.x.toNat 0 && !d.wmax) then .trap 2 0
    else s.issueOp { code := 0x26, f := f, y := va, scope := f.t.scope.toNat }) s

/-- `PLDROP` (R265). -/
def execPldrop (f : LF) (s : State) : Out :=
  ordering (onControl s.ctx) 0x27 f [(f.y, 1)] [] (
    if planeAbsent s (s.G f.y) then .trap 2 1
    else s.issueOp { code := 0x27, f := f, y := s.G f.y, scope := f.t.scope.toNat }) s

/-- The PFRs below a table, `levels` levels above the lowest (R47). -/
def State.pfrsUnder (s : State) : Nat → Nat → List Nat
  | levels, table =>
    (List.range 512).flatMap (fun i =>
      let e := s.imageNat (table + 8 * i) 8
      if field e 62 2 = 2 then [field e 0 48 * 128]
      else if field e 62 2 = 1 then
        (match levels with
          | 0 => []
          | l + 1 => State.pfrsUnder s l (field e 0 48 * 4096))
      else [])

/-- The PFRs of a constellation, each once. -/
def State.pfrs (s : State) (v : Nat) (va : Word) : List Nat := (s.pfrsUnder 3 (s.descRoot v va)).dedup

/-- Where the plane descriptor of an address lies. -/
def State.planeDescAddr (s : State) (v : Nat) (va : Word) : Nat := s.descAddr v va + 32 + 8 * vaPlane va

/-- The frame a plane entry of tenant `v` holds goes back to its allotment, a POISONED entry's included, unless it is shared (R157,
R265). -/
def State.returnFrame (s : State) (v e : Nat) : State :=
  if (peState e = 1 ∨ peState e = 2 ∨ peState e = 5) ∧ !peSk e then
    { s with frames := s.frames.filter (fun r => r.vf != v || r.table || r.addr != field e 0 48 * 64) }
  else s

/-- Every entry of a plane becomes ABSENT (R265). -/
def State.clearEntries (s : State) (v plane : Nat) (entry : Nat → Nat) : List Nat → State
  | [] => s
  | p :: r =>
    let e := s.imageNat (p + 8 * plane) 8
    State.clearEntries ((s.returnFrame v e).writeTable (p + 8 * plane) 8 (entry e)) v plane entry r

/-- An address lies in the same plane of the same constellation. -/
def samePlane (a b : Word) : Bool := vaPlane a == vaPlane b && vaConst a == vaConst b

/-- An operation has an access under way: parts of it are made, or it has gone to another device. -/
def Op.underWay (o : Op) : Bool := !o.lines.isEmpty || !o.got.isEmpty || !o.left.isEmpty

/-- An operation reads its record from the code image, and the read is under way (R248). -/
def Op.readsImage (o : Op) : Bool :=
  (o.code == 0x16 || o.code == 0x17 || o.code == 0x18) && o.st == .issued && !recordInScratch o.f

/-- The requests of a core's fetches to other devices (R217). -/
def Core.fetchLines (k : Core) : List Fwd := k.ctl.lines ++ k.ld.lines ++ k.cmp.lines ++ k.st.lines ++ k.biv.lines

/-- Every access of the tenant to the plane has performed (R266). One that is made in one step is checked in that step; those under
way use the old descriptor and entries: operations', fetches' and reads of the code image, and the host's. -/
def State.quietPlane (s : State) (v : Nat) (va : Word) : Bool :=
  s.cores.all (fun e => (s.teamOf e.1).vf != v
    || (e.2.allOps.all (fun o =>
        !(o.underWay && (isEngine o.code || samePlane o.y va || (o.code == 0x56 && samePlane o.z va)
          || (o.readsImage && samePlane (s.teamOf e.1).image va))))
        && (e.2.fetchLines.isEmpty || !samePlane (s.teamOf e.1).image va)))
    && ((s.tenant v).lines.isEmpty || !((s.tenant v).held.head?.any (fun a => a.va.any (samePlane · va))))

/-- A move of a page of the plane that has begun (R159) ends with the page: its old frame is returned. -/
def State.endMoves (s : State) (v : Nat) (va : Word) : State :=
  let mine (m : Move) : Bool := m.vf == v && samePlane m.va va
  { (s.moves.filter mine).foldl (fun u m => u.returnFrame v m.old.toNat) s with moves := s.moves.filter (fun m => !mine m) }

/-- What is parked on a plane is treated afresh when it is next tried (R266). -/
def State.freePlane (s : State) (v : Nat) (va : Word) : State :=
  { s with parks := s.parks.filter (fun p => !(p.vf == v && samePlane p.va va)) }

/-- The entries of a plane become ABSENT, and what stood in them is returned (R265). -/
def State.clearPlane (s : State) (v : Nat) (va : Word) (entry : Nat → Nat) : State :=
  ((s.endMoves v va).clearEntries v (vaPlane va) entry (s.pfrs v va)).freePlane v va

/-- A plane instruction performs (R265, R266) once no access that uses the old descriptor or entries is on its way. -/
def performPlane (s : State) (c : Nat) (o : Op) : Perf :=
  let v := s.vfOf c
  let va := o.y
  let d := (s.planeDesc v va).raw
  let a := s.planeDescAddr v va
  let n := o.x.toNat
  if !s.quietPlane v va then .held s
  else if o.code = 0x25 then
    let d' := field n 0 7 + field d 7 2 * 2 ^ 7 + field n 9 2 * 2 ^ 9 + d / 2 ^ 12 * 2 ^ 12
    .done ((s.writeTable a 8 d').clearPlane v va (fun _ => mkEntry 0 true false 0 0)) none [] []
  else if o.code = 0x26 then
    let rw := (bitAt o.f.x.toNat 1).toNat * 2 ^ 5 + (bitAt o.f.x.toNat 0).toNat * 2 ^ 6
    .done ((s.writeTable a 8 (d - field d 5 2 * 2 ^ 5 + rw)).freePlane v va) none [] []
  else
    .done ((s.writeTable a 8 (d - field d 5 2 * 2 ^ 5)).clearPlane v va
      (fun e => mkEntry 0 false (peSk e) (field e 53 6) 0)) none [] []

end Sys2Proof.Machine
end

