-- ==== Sys2Proof/Machine/Engine.lean ====
section
/-! DEFINITION. Engine commands: the copy engine and the index engine (R81, R123, R156 to R170, R257, R317 to R320). -/

namespace Sys2Proof.Machine

/-! ### Issue (R257, R317) -/

/-- Issue of an engine command that names a signal and a record. -/
def commandIssue (allowed : Bool) (code : Nat) (f : LF) (s : State) : Out :=
  ordering allowed code f [(f.y, 1)] [(0, !signalOk f.x.toNat)]
    (s.issueOp { code := code, f := f, y := s.G f.y, scope := f.t.scope.toNat }) s

/-- `XCOPY` (R257). -/
def execXcopy (f : LF) (s : State) : Out := commandIssue (s.ctx != .cmp) 0x20 f s
/-- `XGATH` (R318). -/
def execXgath (f : LF) (s : State) : Out := commandIssue (onControl s.ctx) 0x60 f s
/-- `XSCAT` (R318). -/
def execXscat (f : LF) (s : State) : Out := commandIssue (onControl s.ctx) 0x61 f s
/-- `XNZS` (R319). -/
def execXnzs (f : LF) (s : State) : Out := commandIssue (onControl s.ctx) 0x62 f s
/-- `XHOT` (R320). -/
def execXhot (f : LF) (s : State) : Out := commandIssue (onControl s.ctx) 0x63 f s

/-! ### Where elements lie -/

/-- Where one element lies: in scratchpad, of kind 1 local, 2 peer, 0 either; in plane data; or eight bytes of a probe block,
zero beyond the limit (R168). Places are exact bit offsets. -/
inductive Piece where
  | scr (kind : Nat) (bit : Int) (n : Nat)
  | plane (va : Word) (bit : Int) (n : Nat)
  | block (va : Word) (byte : Nat)
  deriving DecidableEq, Repr

/-- The bit of plane data where the element at a position begins (R51). -/
def PlaneDesc.bitOf (d : PlaneDesc) (pos : Nat) : Nat :=
  if d.bx then pos / 32 * (8 * bxBytes d.width)
  else if d.gran then pos / 64 * d.bits
  else pos * d.bits

/-- The position whose element holds a bit of plane data. -/
def PlaneDesc.posOfBit (d : PlaneDesc) (bit : Nat) : Nat :=
  if d.bx then bit / (8 * bxBytes d.width) * 32
  else if d.gran then bit / d.bits * 64
  else bit / d.bits

/-- Bits of a plane's native element, or of its BX block. -/
def PlaneDesc.native (d : PlaneDesc) : Nat := if d.bx then 8 * bxBytes d.width else d.bits

/-- A fault's address is the element's own. -/
def Found.forElem (f : Found) (va : Word) : Found :=
  match f with
  | .fault c e _ => .fault c e va
  | f => f

/-- `n` bits of plane data from a bit offset: the bytes that hold them (R46, R51). -/
def State.findBits (s : State) (v : Nat) (va : Word) (need : Need) (bit : Int) (n : Nat) : Found :=
  match s.checkPlane v va with
  | some c => .fault c 0 va
  | none =>
    let d := s.planeDesc v va
    if bit < 0 then .fault 3 0 (vaAt va ((Int.fdiv bit d.bits) % (2 ^ 48 : Nat)).toNat)
    else
      let b := bit.toNat
      let pos := d.posOfBit b
      let ea := vaAt va pos
      if 2 ^ 48 ≤ pos then .fault 3 0 ea
      else if b % 8 = 0 ∧ n % 8 = 0 then (s.findBytes v va need (b / 8) (n / 8)).forElem ea
      else
        match s.place v ea need with
        | .fault c e => .fault c e ea
        | .zero => .bytes [.zero]
        | .park e => .park e ea
        | .nowhere => .nowhere
        | .frame base sz e => s.lineFound v e (base + (b / 8 - d.byteOf (pos / 2 ^ sz * 2 ^ sz))) need
        | .remote dev l base sz e => .bytes [.remote dev l (base + (b / 8 - d.byteOf (pos / 2 ^ sz * 2 ^ sz))) e]

/-- Bytes of a probe block: zero at and beyond the limit (R168). -/
def State.findBlock (s : State) (v : Nat) (va : Word) (b : Nat) : Nat → Found
  | 0 => .bytes []
  | n + 1 =>
    let d := s.planeDesc v va
    let here : Found := if s.descLimit v va ≤ d.posOf b then .bytes [.zero] else s.findByte v va .read b
    match here with
    | .bytes x =>
      match State.findBlock s v va (b + 1) n with
      | .bytes y => .bytes (x ++ y)
      | f => f
    | f => f

/-- An element's bytes, or what stops it. -/
def State.findPiece (s : State) (c v : Nat) (need : Need) : Piece → Found
  | .scr kind bit n =>
    let a := Int.fdiv bit 8
    let len := ((bit % 8).toNat + n + 7) / 8
    if a < 0 ∨ (kind = 1 ∧ isPeer a.toNat) ∨ (kind = 2 ∧ !isPeer a.toNat) then .fault 0x0B 0 (BitVec.ofInt 64 a)
    else
      match s.scratch c a.toNat len with
      | some l => .bytes ((span l len).map .at)
      | none => .fault 0x0B 0 (BitVec.ofInt 64 a)
  | .plane va bit n => s.findBits v va need bit n
  | .block va b =>
    match s.checkPlane v va with
    | some k => .fault k 0 va
    | none => s.findBlock v va b 8

/-- Bit offset of an element in its first byte, and its bits. -/
def Piece.shape : Piece → Nat × Nat
  | .scr _ bit n => ((bit % 8).toNat, n)
  | .plane _ bit n => ((bit % 8).toNat, n)
  | .block _ _ => (0, 64)

/-- The scope an element access has: group at least for a peer (R40). -/
def Piece.scope (p : Piece) (scope : Nat) : Nat :=
  match p with
  | .scr _ bit _ => if isPeer (Int.fdiv bit 8).toNat ∧ scope = 0 then 1 else scope
  | _ => scope

/-! ### Reading and writing an element -/

/-- What an engine's access gives: data, or why not. -/
inductive Got1 (α : Type) where
  | ok (v : α)
  | no (p : Perf)

/-- An element's own address: in plane data that of the position that holds its first bit. -/
def State.pieceVa (s : State) (v : Nat) : Piece → Word
  | .scr _ bit _ => BitVec.ofInt 64 (Int.fdiv bit 8)
  | .plane va bit _ => vaAt va ((s.planeDesc v va).posOfBit bit.toNat)
  | .block va b => vaAt va ((s.planeDesc v va).posOf b)

/-- An access of an operation to plane data goes through the memory-side cache and its plane entry's counter, which it advances once for
a line (R50). -/
def Piece.touch (p : Piece) (s : State) (v : Nat) (o : Op) (bs : List Byte1) (way : Option Nat) (wr : Bool) : State :=
  match p with
  | .scr _ _ _ => s
  | .plane _ _ _ | .block _ _ => s.touchCache v (s.pieceVa v p) way wr (o.fresh bs)

/-- The operation after it: the line of plane data is counted. -/
def Piece.counted (p : Piece) (o : Op) (bs : List Byte1) (way : Option Nat) : Op :=
  match p with
  | .scr _ _ _ => o
  | .plane _ _ _ | .block _ _ => o.counting way bs

/-- Who accesses what: the element of a command and its place, the side and level indices that a fault of it records, and the
scope. -/
structure ElemAcc where
  k     : Nat
  piece : Piece
  side  : Nat
  idx   : List Nat
  scope : Nat

/-- The elements that are read or written with element `k` where they lie in the same lines of another device (R160): each with its
places. -/
abbrev Mates := List (Nat × List Byte1)

/-- Those that share a line with some bytes. -/
def sharing (bs : List Byte1) (ms : Mates) : Mates :=
  ms.filter (fun e => (localLocs e.2).isNone && (awayLines e.2).any (awayLines bs).contains)

/-- Read an element: the machine with the read noted, the operation with what it keeps, the element's bits as a number, and the numbers of
the writes it took. -/
def readPiece (s : State) (c : Nat) (x : CtxId) (o : Op) (a : ElemAcc) (mates : Mates) (ch : Choice) :
    Got1 (State × Op × Nat × List Nat) :=
  let v := s.vfOf c
  let sh := a.piece.shape
  let scope := a.piece.scope a.scope
  let plan : Plan := fun bs =>
    let all := (a.k, bs) :: sharing bs mates
    (all, linePlan s.module.devId s.time false (all.map (fun e => (e.1, e.2, []))))
  match reach s c x o a.k (s.pieceVa v a.piece) (s.findPiece c v .read a.piece) false a.side a.idx ch plan with
  | .no q => .no q
  | .back bs fs =>
    let r := s.readBack c x scope ch.cuts bs fs
    .ok (a.piece.touch (s.noteRead c x (hereLocs bs) (s.readLocs c x scope ch.cuts (hereLocs bs))) v o bs ch.way false,
         a.piece.counted { o with lines := giveAnswers a.k o.lines ch.ans } bs ch.way,
         field (leNat (r.map (·.2))) sh.1 sh.2, tookOf r)
  | .here bs =>
    match readParts s c x o a.k scope ch bs (withUnits (hereLocs bs)) with
    | (s1, none) => .no (.held s1)
    | (s1, some r) => .ok (a.piece.touch s1 v o bs ch.way false, a.piece.counted o bs ch.way,
                           field (leNat ((putBack bs r).map (·.2))) sh.1 sh.2, tookOf r)

/-- The cells that write `n` bits of value `v` at a bit offset of bytes at locations: the other bits of a byte are those of its
latest write (R129). -/
def bitCells (s : State) (ls : List Nat) (sh n v : Nat) : List Host.Cell :=
  if sh = 0 ∧ n % 8 = 0 then ls.zip (leBytes (n / 8) v)
  else
    let old := leNat (ls.map s.newest)
    ls.zip (leBytes ls.length (old - field old sh n * 2 ^ sh + v % 2 ^ n * 2 ^ sh))

/-- A bit mask and bits for each byte of an element of shape (sh, n) and value `v` (R160). -/
def bitMasks (sh n v : Nat) : List (Byte × Byte) :=
  let len := (sh + n + 7) / 8
  (leBytes len ((2 ^ n - 1) * 2 ^ sh)).zip (leBytes len (v % 2 ^ n * 2 ^ sh))

/-- Write an element: the machine, the operation with what it keeps, and the numbers of the writes. `vals` gives the value of each element
that may go with it. An element that lies in part here writes its bytes here when the others have been written (R129). -/
def writePiece (s : State) (c : Nat) (x : CtxId) (o : Op) (a : ElemAcc) (mates : Mates) (vals : Nat → Nat) (ch : Choice) :
    Got1 (State × Op × List Nat) :=
  let v := s.vfOf c
  let sh := a.piece.shape
  let scope := a.piece.scope a.scope
  let plan : Plan := fun bs =>
    let all := (a.k, bs) :: sharing bs mates
    (all, linePlan s.module.devId s.time true (all.map (fun e => (e.1, e.2, bitMasks sh.1 sh.2 (vals e.1)))))
  match reach s c x o a.k (s.pieceVa v a.piece) (s.findPiece c v .write a.piece) true a.side a.idx ch plan with
  | .no q => .no q
  | .back bs _ =>
    let cells := cellsAt bs (leBytes bs.length (vals a.k * 2 ^ sh.1))
    .ok (a.piece.touch (s.writeCells c x scope cells) v o bs ch.way true,
         a.piece.counted { o with lines := giveAnswers a.k o.lines ch.ans } bs ch.way, s.writeSeqs cells)
  | .here bs =>
    match writeParts s c x o a.k scope ch.part bs (cellUnits (bitCells s ((localLocs bs).getD []) sh.1 sh.2 (vals a.k))) with
    | (s1, none) => .no (.held s1)
    | (s1, some w) => .ok (a.piece.touch s1 v o bs ch.way true, a.piece.counted o bs ch.way, w)

/-- Read and write an element in one step at a scope (R128, R318, R320): the operation with what it keeps, the old value, and the writes. On
another device its home makes the update that `req` asks for. -/
def updatePiece (s : State) (c : Nat) (x : CtxId) (o : Op) (a : ElemAcc) (ch : Choice) (req : Nat → Nat → FabricRequest)
    (g : Nat → Nat) : Got1 (State × Op × Nat × List Nat × List Nat) :=
  let v := s.vfOf c
  let sh := a.piece.shape
  match reach s c x o a.k (s.pieceVa v a.piece) (s.findPiece c v .both a.piece) true a.side a.idx ch (wholePlan s a.k true req) with
  | .no q => .no q
  | .back bs fs => .ok (a.piece.touch s v o bs ch.way true, a.piece.counted o bs ch.way, leNat (answerData fs), [], [])
  | .here bs =>
    let ls := (localLocs bs).getD []
    let r := ls.map (fun l => s.imageIn c a.scope l)
    let old := field (leNat (r.map (·.2))) sh.1 sh.2
    let cells := bitCells s ls sh.1 sh.2 (g old)
    let s1 := s.noteRead c x ls r
    .ok (a.piece.touch (s1.writeCells c x a.scope cells) v o bs ch.way true, a.piece.counted o bs ch.way, old, tookOf r,
         s1.writeSeqs cells)

/-! ### Copy patterns (R81, R169, R170) -/

/-- A level of a loop nest: count, source stride, destination stride. -/
structure Level where
  count : Nat
  ss    : Int
  ds    : Int
  deriving DecidableEq, Repr

/-- LEVELS. -/
def patLevels (r : List Byte) : Nat := field (leAt r 16 4) 8 3
/-- ESIZE. -/
def patEsize (r : List Byte) : Nat := field (leAt r 16 4) 4 4
/-- SKIND. -/
def patSkind (r : List Byte) : Nat := field (leAt r 16 4) 0 2
/-- DKIND. -/
def patDkind (r : List Byte) : Nat := field (leAt r 16 4) 2 2
/-- The source address. -/
def patSrc (r : List Byte) : Word := BitVec.ofNat 64 (leAt r 0 8)
/-- The destination address. -/
def patDst (r : List Byte) : Word := BitVec.ofNat 64 (leAt r 8 8)

/-- The levels used, innermost first. -/
def patNest (r : List Byte) : List Level :=
  (List.range (patLevels r)).map (fun i =>
    ⟨leAt r (24 + 12 * i) 4, intOf 5 (leAt r (28 + 12 * i) 4), intOf 5 (leAt r (32 + 12 * i) 4)⟩)

/-- A plane side breaks a rule of R169. A plane that cannot be read is left to the checks of R46. -/
def planeSideBad (s : State) (v : Nat) (va : Word) (esize : Nat) : Bool :=
  if (s.checkPlane v va).isSome then false
  else
    let d := s.planeDesc v va
    let p := vaPos va
    (d.gran && p % 64 != 0) ||
      (if esize = 15 then d.bx && p % 32 != 0
       else d.bx || decide (d.bits < 8) || (8 * 2 ^ esize) % d.bits != 0)

/-- A copy pattern record breaks R81 or R169. -/
def patMalformed (s : State) (v : Nat) (r : List Byte) : Bool :=
  let es := patEsize r
  let sp := patSkind r == 0
  let dp := patDkind r == 0
  field (leAt r 16 4) 11 21 != 0 || leAt r 20 4 != 0 || patLevels r == 0 || patLevels r == 7
    || (decide (5 < es) && es != 15) || patSkind r == 3 || patDkind r == 3
    || (patNest r).any (fun l => l.count == 0 || decide (16777216 < l.count))
    || (sp && planeSideBad s v (patSrc r) es) || (dp && planeSideBad s v (patDst r) es)
    || (es == 15 && !sp && !dp)
    || (es == 15 && sp && dp && (s.checkPlane v (patSrc r)).isNone && (s.checkPlane v (patDst r)).isNone &&
        ((s.planeDesc v (patSrc r)).width != (s.planeDesc v (patDst r)).width
          || (s.planeDesc v (patSrc r)).gran != (s.planeDesc v (patDst r)).gran))

/-- Level indices of element `k`, innermost first. -/
def nestIdx : List Level → Nat → List Nat
  | [], _ => []
  | l :: r, k => k % l.count :: nestIdx r (k / l.count)

/-- Elements of a nest. -/
def nestTotal : List Level → Nat
  | [] => 1
  | l :: r => l.count * nestTotal r

/-- An element index: the sum of indices times strides. -/
def nestSum (stride : Level → Int) : List Level → List Nat → Int
  | l :: r, i :: is => (i : Int) * stride l + nestSum stride r is
  | _, _ => 0

/-- Bits of an element of a pattern: ESIZE bytes, or the plane side's own (R169). -/
def patBits (s : State) (v : Nat) (r : List Byte) : Nat :=
  if patEsize r ≤ 5 then 8 * 2 ^ patEsize r
  else (s.planeDesc v (if patSkind r = 0 then patSrc r else patDst r)).native

/-- Element `j` of a side (R169). -/
def sidePiece (s : State) (v : Nat) (r : List Byte) (kind : Nat) (addr : Word) (j : Int) : Piece :=
  let n := patBits s v r
  if kind = 0 then .plane addr ((s.planeDesc v addr).bitOf (vaPos addr) + j * n) n
  else .scr kind (8 * addr.toNat + j * n) n

/-- Source and destination of element `k` of a pattern (R170). -/
def copyPieces (s : State) (v : Nat) (r : List Byte) (k : Nat) : Piece × Piece :=
  let is := nestIdx (patNest r) k
  (sidePiece s v r (patSkind r) (patSrc r) (nestSum Level.ss (patNest r) is),
   sidePiece s v r (patDkind r) (patDst r) (nestSum Level.ds (patNest r) is))

/-! ### Index records (R317) -/

/-- The table's address. -/
def ixTable (r : List Byte) : Word := BitVec.ofNat 64 (leAt r 0 8)
/-- The index list, or the source of `XNZS`. -/
def ixList (r : List Byte) : Nat := leAt r 8 4
/-- The data, or the value output of `XNZS`. -/
def ixData (r : List Byte) : Nat := leAt r 12 4
/-- n. -/
def ixN (r : List Byte) : Nat := leAt r 16 4
/-- Row length, or the counters of `XHOT`. -/
def ixL (r : List Byte) : Nat := leAt r 20 4
/-- Row stride, or the threshold of `XHOT`. -/
def ixStride (r : List Byte) : Nat := leAt r 24 4
/-- The format. -/
def ixFmt (r : List Byte) : Nat := field (leAt r 28 4) 0 4
/-- ADD. -/
def ixAdd (r : List Byte) : Bool := bitAt (leAt r 28 4) 4

/-- An index record breaks R317 to R320. -/
def ixMalformed (s : State) (v : Nat) (code : Nat) (r : List Byte) : Bool :=
  let t := ixTable r
  let known := (s.checkPlane v t).isNone
  let d := s.planeDesc v t
  let n := ixN r
  let nBad := n == 0 || decide (65536 < n)
  match code with
  | 0x60 | 0x61 =>
    nBad || ixL r == 0 || decide (65536 < ixL r) || leAt r 28 4 / 32 != 0
      || (ixAdd r && code == 0x60) || (!ixAdd r && ixFmt r != 0)
      || (known && (d.bx || d.gran || decide (d.bits < 8)))
      || (ixAdd r && !((ixFmt r ≤ 2 || ixFmt r == 5 || ixFmt r == 6) && (!known || d.bits == fmtBits (ixFmt r))))
  | 0x62 =>
    nBad || leAt r 4 4 != 0 || ixL r != 0 || ixStride r != 0 || leAt r 28 4 / 16 != 0
      || !(ixFmt r ≤ 5 || ixFmt r == 9)
  | _ =>
    nBad || leAt r 12 4 != 0 || ixL r == 0 || decide (16777216 < ixL r) || ixStride r == 0 || leAt r 28 4 != 0
      || (known && (d.bx || d.bits != 32))

/-- The index an element of an index command reads. -/
def ixPiece (r : List Byte) (i : Nat) : Piece := .scr 0 (8 * (ixList r + 4 * i : Nat)) 32

/-- Row and column of element `k` of `XGATH` or `XSCAT`. -/
def ixRow (r : List Byte) (k : Nat) : Nat × Nat := (k / ixL r, k % ixL r)

/-- The table element at position `p`. -/
def tablePiece (s : State) (v : Nat) (r : List Byte) (p : Nat) : Piece :=
  let d := s.planeDesc v (ixTable r)
  .plane (ixTable r) (d.bitOf p) d.bits

/-- The data element `k` of `XGATH` or `XSCAT`, laid out as in a frame. -/
def dataPiece (s : State) (v : Nat) (r : List Byte) (k : Nat) : Piece :=
  let d := s.planeDesc v (ixTable r)
  .scr 0 (8 * ixData r + k * d.bits : Nat) d.bits

/-- How many positions on the next counter of `XHOT` is: one, or 64 in a plane of GRAN 1 (R320, R51, log 94). -/
def ixGran (s : State) (v : Nat) (r : List Byte) : Nat := if (s.planeDesc v (ixTable r)).gran then 64 else 1

/-- Element `k` of the source of `XNZS`. -/
def nzPiece (r : List Byte) (k : Nat) : Piece := .scr 0 (8 * ixList r + k * fmtBits (ixFmt r) : Nat) (fmtBits (ixFmt r))

/-- An element of `XNZS` is live when it is not a zero (R319). -/
def nzLive (fmt v : Nat) : Bool := if fmt ≤ 4 then !((fpFmt fmt).decode v).isZero else v != 0

/-- The addition of `XSCAT` (R318). -/
def scatterAdd (fmt a b : Nat) : Nat :=
  if fmt ≤ 2 then ((fpFmt fmt).round .rne false (((fpFmt fmt).decode a).add ((fpFmt fmt).decode b))).bits
  else (a + b) % 2 ^ 32

/-! ### Element accesses (R123) -/

/-- Where the position of the live element of `XNZS` that is the `p`-th found goes (R319). -/
def nzPos (r : List Byte) (p : Nat) : Piece := .scr 0 (8 * (leAt r 0 4 + 4 * p : Nat)) 32
/-- Where its value goes. -/
def nzVal (r : List Byte) (p : Nat) : Piece := .scr 0 (8 * ixData r + p * fmtBits (ixFmt r) : Nat) (fmtBits (ixFmt r))

/-- Source and destination of element `k` of a started command; `p` is the position its index names. The elements of `XNZS` from its
total on are the positions of its live elements. -/
def pieces (s : State) (v : Nat) (o : Op) (k p : Nat) : Piece × Piece :=
  let r := o.eng.record
  match o.code with
  | 0x20 => copyPieces s v r k
  | 0x22 =>
    let b := (s.planeDesc v o.y).byteOf (vaPos o.y) / 4096 * 4096 + 8 * k
    (.block o.y b, .scr 1 (8 * (0x17F000 - o.z.toNat * 0x1000 + 8 * k : Int)) 64)
  | 0x60 => (tablePiece s v r p, dataPiece s v r k)
  | 0x61 => (dataPiece s v r k, tablePiece s v r p)
  | 0x62 => (nzPiece r k, if k < o.eng.total then nzVal r p else nzPos r p)
  | _ => (ixPiece r k, tablePiece s v r p)

/-- The level indices a fault of element `k` records: those of the copy's nest. -/
def faultIdx (o : Op) (k : Nat) : List Nat := if o.code = 0x20 then nestIdx (patNest o.eng.record) k else []

/-- The side a fault of the source or the destination records: a fill is a single access (R262). -/
def faultSide (o : Op) (dst : Bool) : Nat := if o.code = 0x22 then 3 else if dst then 1 else 0

/-- Only a fault stops a check: what parks or is forwarded waits at its own access (R123, R156). -/
def checkOnly (f : Found) (side : Nat) (idx : List Nat) (ok : Got1 Unit) : Got1 Unit :=
  match f with
  | .fault cause e a => .no (.fault ⟨cause, side, a, idx, BitVec.ofNat 64 e⟩)
  | .nowhere => .no (.stop .noSuchFrame)
  | _ => ok

/-- What the destination of a command needs. -/
def destNeed (o : Op) : Need := if o.code = 0x63 ∨ (o.code = 0x61 ∧ ixAdd o.eng.record) then .both else .write

/-- The checks of both sides of element `k` (R46, R123). -/
def checkSides (s : State) (c : Nat) (o : Op) (k p : Nat) : Got1 Unit :=
  let v := s.vfOf c
  let q := pieces s v o k p
  let src := if o.code = 0x63 then .ok () else checkOnly (s.findPiece c v .read q.1) (faultSide o false) (faultIdx o k) (.ok ())
  match src with
  | .no e => .no e
  | .ok _ => checkOnly (s.findPiece c v (destNeed o) q.2) (faultSide o true) (faultIdx o k) (.ok ())

/-- A command with one more element checked. -/
def Op.checkedElem (o : Op) (e : Elem) (live : Nat) : Op :=
  { o with pageWait := false,
           eng := { o.eng with checked := o.eng.checked + 1, elems := o.eng.elems.set o.eng.checked e,
                               live := o.eng.live + live } }

/-- The access that gives element `k` of an index command its index, or its value for `XNZS`. -/
def indexAcc (o : Op) (k : Nat) : ElemAcc :=
  let r := o.eng.record
  let p := if o.code = 0x62 then nzPiece r k else if o.code = 0x63 then ixPiece r k else ixPiece r (ixRow r k).1
  ⟨k, p, 0, faultIdx o k, o.scope⟩

/-- A command with an element's state replaced, and the writes it took and made. Nothing of its access is kept. -/
def Op.putElem (o : Op) (k : Nat) (e : Elem) (took wrote : List Nat) : Op :=
  { o.settled [k] with
    took := o.took ++ took, wrote := o.wrote ++ wrote, pageWait := false, eng := { o.eng with elems := o.eng.elems.set k e } }

/-- The index or source element that element `k` needs is read, in any order (R123). One that cannot be is left to its check, which
comes in nest order. -/
def engineIndex (s : State) (c : Nat) (x : CtxId) (o : Op) (k : Nat) (ch : Choice) : Got1 State :=
  if o.code < 0x60 ∨ o.eng.total ≤ k ∨ k < o.eng.checked ∨ o.eng.elems.get .todo k ≠ .todo then .ok s
  else
    match readPiece s c x o (indexAcc o k) [] ch with
    | .ok (s', o', n, took) => .ok (s'.setOp c x (o'.putElem k (.index n) took []))
    | .no (.held s') => .no (.held s')
    | .no _ => .ok s

/-- The check of element `k` of an index command, whose index or value is `n`. -/
def indexCheck (s : State) (c : Nat) (x : CtxId) (o : Op) (k n : Nat) : Got1 State :=
  let r := o.eng.record
  let v := s.vfOf c
  let idx := faultIdx o k
  if o.code = 0x62 then
    if nzLive (ixFmt r) n then
      let p := o.eng.live
      match checkOnly (s.findPiece c v .write (nzPos r p)) 1 idx (checkOnly (s.findPiece c v .write (nzVal r p)) 1 idx (.ok ())) with
      | .no e => .no e
      | .ok _ =>
        let o1 := o.checkedElem (.got p (leBytes 8 n)) 1
        .ok (s.setOp c x { o1 with eng := { o1.eng with elems := o1.eng.elems.set (o.eng.total + k) (.got p (leBytes 8 k)) } })
    else .ok (s.setOp c x (o.checkedElem .done 0))
  else if o.code = 0x63 ∧ ixL r ≤ n then .ok (s.setOp c x (o.checkedElem .done 0))
  else
    let p := if o.code = 0x63 then vaPos (ixTable r) + ixGran s v r * n
             else vaPos (ixTable r) + n * ixStride r + (ixRow r k).2
    match checkSides s c o k p with
    | .no e => .no e
    | .ok _ => .ok (s.setOp c x (o.checkedElem (.at p) 0))

/-- The next element in nest order is checked; an index command first reads the index or source element it needs, where that has not
been read yet (R123, R317 to R320). -/
def engineCheck (s : State) (c : Nat) (x : CtxId) (o : Op) (ch : Choice) : Got1 State :=
  let k := o.eng.checked
  if o.eng.total ≤ k then .ok s
  else if o.code = 0x20 ∨ o.code = 0x22 then
    match checkSides s c o k 0 with
    | .no e => .no e
    | .ok _ => .ok (s.setOp c x (o.checkedElem (.at 0) 0))
  else
    match o.eng.elems.get .todo k with
    | .index n => indexCheck s c x o k n
    | _ =>
      match readPiece s c x o (indexAcc o k) [] ch with
      | .no e => .no e
      | .ok (s', o', n, took) => indexCheck (s'.setOp c x (o'.putElem k (.index n) took [])) c x (o'.putElem k (.index n) took []) k n

/-- The position an element's index names, while the element has not been moved. -/
def Elem.pending (e : Elem) (p : Nat) : Bool :=
  match e with
  | .at q => q == p
  | .got q _ => q == p
  | _ => false

/-- Elements before `k` that are still to be written where `k` writes: `XSCAT` and `XHOT` take their elements in ascending order
there (R318, R320). -/
def earlierWrite (o : Op) (k p : Nat) : Bool :=
  (o.code == 0x61 && o.eng.elems.any (fun e => decide (e.1 < k) && e.2.pending p))
    || (o.code == 0x63 && o.eng.elems.any (fun e => decide (e.1 < k) && e.2 != .done))

/-- What can be found at a piece, where all or some of it lies on another device. -/
def awayPlaces (s : State) (c : Nat) (need : Need) (p : Piece) : Option (List Byte1) :=
  match s.findPiece c (s.vfOf c) need p with
  | .bytes bs => if (remoteOf bs).isSome then some bs else none
  | _ => none

/-- The other elements of a command that are ready to be read, or to be written, on another device: they may share a line with one
that goes there (R160). -/
def mates (s : State) (c : Nat) (o : Op) (k : Nat) (wr : Bool) : Mates :=
  o.eng.elems.filterMap (fun e =>
    if e.1 == k || o.away.any (fun a => a.1 == e.1) then none
    else
      match e.2, wr with
      | .at p, false => (awayPlaces s c .read (pieces s (s.vfOf c) o e.1 p).1).map (fun bs => (e.1, bs))
      | .got p _, true =>
        if earlierWrite o e.1 p then none
        else (awayPlaces s c .write (pieces s (s.vfOf c) o e.1 p).2).map (fun bs => (e.1, bs))
      | _, _ => none)

/-- The value an element holds in the engine. -/
def heldValue (o : Op) (k : Nat) : Nat :=
  match o.eng.elems.get .todo k with
  | .got _ b => leNat b
  | _ => 0

/-- The places of element `k` lie on another device, so that others may go with it. -/
def matesOf (s : State) (c : Nat) (o : Op) (k : Nat) (wr : Bool) (p : Piece) : Mates :=
  if (awayPlaces s c (if wr then .write else .read) p).isSome then mates s c o k wr else []

/-- The read of element `k`. -/
def engineRead (s : State) (c : Nat) (x : CtxId) (o : Op) (k : Nat) (ch : Choice) : Got1 State :=
  match o.eng.elems.get .todo k with
  | .at p =>
    if o.code = 0x63 then .ok s
    else
      let q := (pieces s (s.vfOf c) o k p).1
      match readPiece s c x o ⟨k, q, faultSide o false, faultIdx o k, o.scope⟩ (matesOf s c o k false q) ch with
      | .no e => .no e
      | .ok (s', o', n, took) => .ok (s'.setOp c x (o'.putElem k (.got p (leBytes 32 n)) took []))
  | _ => .ok s

/-- The write of element `k`. -/
def engineWrite (s : State) (c : Nat) (x : CtxId) (o : Op) (k : Nat) (ch : Choice) : Got1 State :=
  let r := o.eng.record
  let v := s.vfOf c
  let this := s.module.devId
  match o.eng.elems.get .todo k with
  | .got p b =>
    let q := (pieces s v o k p).2
    let a : ElemAcc := ⟨k, q, faultSide o true, faultIdx o k, o.scope⟩
    if earlierWrite o k p then .ok s
    else if o.code = 0x61 ∧ ixAdd r then
      match updatePiece s c x o a ch (fun l d => .scatter this l d (ixFmt r) (leNat b)) (fun old => scatterAdd (ixFmt r) old (leNat b)) with
      | .no e => .no e
      | .ok (s1, o', _, t, w) => .ok (s1.setOp c x (o'.putElem k .done t w))
    else
      match writePiece s c x o a (matesOf s c o k true q) (heldValue o) ch with
      | .no e => .no e
      | .ok (s1, o', w) => .ok (s1.setOp c x (o'.putElem k .done [] w))
  | .at p =>
    if o.code ≠ 0x63 ∨ earlierWrite o k p then .ok s
    else
      match updatePiece s c x o ⟨k, tablePiece s v r p, 1, faultIdx o k, o.scope⟩ ch (fun l d => .count this l d)
          (fun old => min (old + 1) (2 ^ 32 - 1)) with
      | .no e => .no e
      | .ok (s1, o', old, t, w) =>
        let o1 := o'.putElem k .done t w
        let crossed := old + 1 == ixStride r && old != 2 ^ 32 - 1
        let hot := if crossed then o1.eng.hot ++ [BitVec.ofNat 64 ((p - vaPos (ixTable r)) / ixGran s v r)] else o1.eng.hot
        .ok (s1.setOp c x { o1 with eng := { o1.eng with hot := hot } })
  | _ => .ok s

/-- All 64 places of a core's parked pages are taken (R158). -/
def State.parksFull (s : State) (c : Nat) : Bool := decide (64 ≤ (s.parksOf c).length)

/-- An engine command parks an access, or waits for one of the 64 parked pages (R158). -/
def State.parkOp (s : State) (c : Nat) (x : CtxId) (o : Op) (va : Word) (wr : Bool) : State :=
  let s1 := s.addPark c va wr
  if isEngine o.code then s1.setOp c x { o with pageWait := !(s1.parksOf c).any (s1.samePark (s.teamOf c).vf va) } else s1

/-- What becomes of an operation that could not go on. -/
def State.settlePerf (s : State) (c : Nat) (x : CtxId) (o : Op) : Perf → Out
  | .held s' => .next s'
  | .park va wr => .next (s.parkOp c x o va wr)
  | .refused va keys dev lease =>
    let o' := o.settled keys
    let s1 := (s.setOp c x o').parkOp c x o' va true
    .next (s1.addRefused c va dev lease)
  | .fault i => .next (s.copyFault c x o.id i)
  | .trap cause info va =>
    let s := match va with
      | some a => s.unpark c a
      | none => s
    let k := s.ctxAt c x
    let s1 := s.setCtx c x { k with ops := k.ops.filter (fun p => p.id != o.id), hold := none }
    .next ({ { s1 with core := c, ctx := x }.takeTrapAt cause info o.pc with core := s.core, ctx := s.ctx })
  | .rung cause cls => .next (s.contextRung (s.coreAt c).team cause cls (s.teamOf c).addr.toNat [])
  | .stop f => .fault f
  | .done s' val took wrote => .next ((s'.finishOp c x o.id val took wrote).sweep c x)
  | .checked _ _ _ => .next s

/-- `ENGINE_ELEMENT_ACCESS` (R123): the read of an index, a check in nest order, or the read or the write of a checked element. A
command that waits for a parked page to be released makes none (R158). -/
def execEngineElementAccess (c : Nat) (x : CtxId) (op : Nat) (act : EngineAct) (ch : Choice) (s : State) : Out :=
  match s.opAt c x op with
  | none => .next s
  | some o =>
    if !isEngine o.code || o.st != .started || o.eng.fault.isSome || (o.pageWait && s.parksFull c) then .next s
    else
      let r := match act with
        | .check => engineCheck s c x o ch
        | .index k => engineIndex s c x o k ch
        | .read k => engineRead s c x o k ch
        | .write k => engineWrite s c x o k ch
      match r with
      | .ok s' => .next s'
      | .no p => s.settlePerf c x o p

/-! ### Start and completion -/

/-- Whether the engine takes a command now (R33, R257, R258, R317): no fault is held, be it of one of its commands or, for the copy engine,
of an access to plane data by an atomic or a join (log 109). -/
def Core.engineTakes (k : Core) (o : Op) : Bool :=
  let mine := k.allOps.filter (fun p => isEngine p.code && isIndex p.code == isIndex o.code && p.st != .done)
  decide ((mine.filter (fun p => p.st == .started)).length < if isIndex o.code then 8 else 16)
    && mine.all (fun p => p.eng.fault.isNone)
    && (isIndex o.code || k.allOps.all (fun p => isEngine p.code || p.st == .done || p.eng.fault.isNone))
    && k.takesSignal (isIndex o.code) (signalOf o)

/-- Another command waits in this engine for one of the 64 parked pages, none of which has been released: the engine takes no
command (R158). -/
def State.parkWaits (s : State) (c : Nat) (o : Op) : Bool :=
  s.parksFull c && (s.coreAt c).allOps.any (fun p => isEngine p.code && isIndex p.code == isIndex o.code && p.pageWait && p != o)

/-- Elements of a command's nest. -/
def commandTotal (o : Op) (r : List Byte) : Nat :=
  match o.code with
  | 0x20 => nestTotal (patNest r)
  | 0x22 => 512
  | 0x60 | 0x61 => ixN r * ixL r
  | 0x62 | 0x63 => ixN r
  | _ => 0

/-- The record of a command, by the space it lies in (R248). -/
def findRecord (s : State) (c : Nat) (o : Op) (n : Nat) : Found :=
  if recordInScratch o.f then
    match s.scratch c o.y.toNat n with
    | some a => .bytes ((span a n).map .at)
    | none => .fault 0x0B 0 o.y
  else findImage s c o.y.toNat n

/-- A started command. Its performance asks about its element accesses alone, not about the read of its record (R119). -/
def startWith (s : State) (c : Nat) (x : CtxId) (o : Op) (r : List Byte) : State :=
  s.setOp c x { o.settled [0] with st := .started, pageWait := false, eng := { record := r, total := commandTotal o r } }

/-- The record of a command is checked whole: it starts, or is malformed (R123, R257, R317). -/
def judgeRecord (s : State) (c : Nat) (x : CtxId) (o : Op) (r : List Byte) : Perf :=
  if (if o.code = 0x20 then patMalformed s (s.vfOf c) r else ixMalformed s (s.vfOf c) o.code r) then
    .fault ⟨0x0A, 2, o.y, [], 0⟩
  else .held (startWith s c x o r)

/-- The scope of the read of a command's record: a record in a peer window is read at group scope (R40). -/
def recordScope (o : Op) : Nat := if recordInScratch o.f then scratchScope o.y.toNat o.scope else o.scope

/-- The scope at which a command's predecessors are awaited: that of its first access. -/
def startScope (o : Op) : Nat := if o.code = 0x22 ∨ o.code = 0x24 then o.scope else recordScope o

/-- `ENGINE_COMMAND_START` (R123): once step 2 lets it, the command reads its record and is checked whole. -/
def execEngineCommandStart (c : Nat) (x : CtxId) (op : Nat) (ch : Choice) (s : State) : Out :=
  match s.opAt c x op with
  | none => .next s
  | some o =>
    if !isEngine o.code || o.st != .issued || !s.mayPerform c x o (startScope o) then .next s
    else if o.eng.fault.isSome then .next (s.copyFault c x op (o.eng.fault.getD {}))
    else if !(s.coreAt c).engineTakes o || s.parkWaits c o then .next s
    else if o.code = 0x24 ∧ (s.ctxAt c x).ops.any (fun p => p.code == 0x24 && decide (p.id < o.id) && p.st != .done) then
      .next s
    else if o.code = 0x22 ∨ o.code = 0x24 then .next (startWith s c x o [])
    else if o.y.toNat % 8 ≠ 0 then .next (s.copyFault c x op ⟨0x0A, 2, o.y, [], 0⟩)
    else
      s.settlePerf c x o (readFound s c x o (recordScope o) o.y
        (findRecord s c o (if o.code = 0x20 then 96 else 32)) 2 ch
        (fun s r => judgeRecord s c x o (r.map (·.2))))

/-- The command is performed: it leaves its stream, and its signal is delivered after that (R123). A fill clears FILL (R168). -/
def endCommand (s : State) (c : Nat) (x : CtxId) (o : Op) : State :=
  let s := (s.setOp c x { o with retired := true }).finishOp c x o.id none [] []
  let k := s.coreAt c
  let k := if o.code = 0x22 then k.setSlot o.z.toNat { k.slotAt o.z.toNat with fill := false } else k
  (s.setCore c (k.engineSignal (isIndex o.code) (signalOf o))).sweep c x

/-- `PCONV` is performed (R166, R264): once no fill into a slot at or above the new P is outstanding, the slots that go are
cleared and P takes its value. -/
def endPconv (s : State) (c : Nat) (x : CtxId) (o : Op) : State :=
  let k := s.coreAt c
  let p := o.y.toNat
  if k.allOps.any (fun q => q.code == 0x22 && q.st != .done && decide (p ≤ q.z.toNat)) then s
  else
    let keep := min p k.probeP
    let k' := { k with probeP := p, probe := k.probe.filter (fun e => decide (e.1 < keep)),
                       recent := k.recent.filter (fun n => decide (n < keep)) }
    endCommand (s.setCore c k') c x o

/-- What comes after the last element of a command (R123, R319): `XNZS` pushes its count, and a command whose every element access has
performed at its scope is performed. -/
def lastSteps (s : State) (c : Nat) (x : CtxId) (o : Op) : State :=
  let k := s.coreAt c
  if o.eng.checked < o.eng.total ∨ !(o.eng.elems.all (fun e => e.2 == .done)) then s
  else if !(o.took ++ o.wrote).all (fun n => s.seqPerformed c o.scope n) then s
  else if o.code = 0x62 ∧ !o.eng.pushed then
    if k.yq.length < 16 then
      (s.setCore c { k with yq := k.yq ++ [BitVec.ofNat 64 o.eng.live] }).setOp c x { o with eng := { o.eng with pushed := true } }
    else s
  else endCommand s c x o

/-- `ENGINE_COMMAND_COMPLETE` (R123): `XHOT` places its causes in order (R320); then a held fault is recorded when it can be; then come
the command's last steps. -/
def execEngineCommandComplete (c : Nat) (x : CtxId) (op : Nat) (_ch : Choice) (s : State) : Out :=
  match s.opAt c x op with
  | none => .next s
  | some o =>
    if !isEngine o.code || o.st != .started then .next s
    else
      match o.eng.hot, o.eng.fault with
      | h :: rest, _ =>
        if (s.coreAt c).hotHold then .next s
        else
          .next (((s.setOp c x { o with eng := { o.eng with hot := rest } }).raise c { cause := 0x13, info := h }).getD s)
      | [], some i => .next (s.copyFault c x op i)
      | [], none => .next (if o.code = 0x24 then endPconv s c x o else lastSteps s c x o)

end Sys2Proof.Machine
end

