-- ==== Sys2Proof/Machine/Perform.lean ====
section
/-! DEFINITION. The performance of an issued ordering operation, and the propagation of writes (R119, R120, R161). -/

namespace Sys2Proof.Machine

/-- What an operation does when its predecessors let it (R120 step 2): each entry's own condition and effect. -/
def performOp (s : State) (c : Nat) (x : CtxId) (o : Op) (ch : Choice) : Perf :=
  match o.code with
  | 0x00 => performLoad 1 false s c x o ch
  | 0x01 => performLoad 2 false s c x o ch
  | 0x02 => performLoad 4 false s c x o ch
  | 0x03 => performLoad 8 false s c x o ch
  | 0x04 => performLoad 1 true s c x o ch
  | 0x05 => performLoad 2 true s c x o ch
  | 0x06 => performLoad 4 true s c x o ch
  | 0x08 => performStore 1 s c x o ch
  | 0x09 => performStore 2 s c x o ch
  | 0x0A => performStore 4 s c x o ch
  | 0x0B => performStore 8 s c x o ch
  | 0x10 | 0x11 => performQueueLoad s c x o ch
  | 0x12 | 0x13 => performQueueStore s c x o ch
  | 0x14 => performLdx s c x o ch
  | 0x15 => performLdtab s c x o ch
  | 0x16 => if o.st = .issued then checkShape s c x o ch else performLdm s c x o ch
  | 0x17 => if o.st = .issued then checkShape s c x o ch else performStm s c x o ch
  | 0x18 => if o.st = .issued then checkShape s c x o ch else performLdb s c x o ch
  | 0x23 => performPrels s c o
  | 0x25 | 0x26 | 0x27 => performPlane s c o
  | 0x28 => performKsig s c x o
  | 0x29 => performKtake s c o
  | 0x2A => timedWait s c x o (performKtake s c o)
  | 0x50 => performAbarm s c o
  | 0x51 => timedWait s c x o (performAbwait s c o)
  | 0x52 => performEvsig s c x o ch
  | 0x53 => performEvwait s c x o
  | 0x54 => performEvreset s c o
  | 0x55 => performLaunch s c x o ch
  | 0x56 => performSteal s c x o ch
  | 0x57 => performTstate s c x o ch
  | 0x58 => performBjoin s c x o ch
  | 0x59 => performBwait s c x o ch
  | 0x5A => performBlog s c x o ch
  | 0x5B => performMsend s c x o ch
  | _ => if o.st = .issued ∧ !atomicScratch o.f then checkAtomic s c o else performAtomic s c x o ch

/-- A check step holds the operation's context (R248, R303). -/
def Op.checks (o : Op) : Bool :=
  o.st == .issued && (o.code == 0x16 || o.code == 0x17 || o.code == 0x18
    || (decide (0x40 ≤ o.code) && decide (o.code ≤ 0x4A) && !atomicScratch o.f))

/-- A plane instruction. -/
def isPlane (code : Nat) : Bool := 0x25 ≤ code && code ≤ 0x27

/-- The predecessors of an operation that its next step waits for are performed (R120), at group scope at least where a check step reads
a peer record (R40). The check step of a plane atomic waits for plane instructions alone: its address is checked against what they
leave (R266, R303). -/
def State.inOrder (s : State) (c : Nat) (x : CtxId) (o : Op) : Bool :=
  if o.checks && decide (0x40 ≤ o.code) then
    ((s.ctxAt c x).ops.filter (fun y => decide (y.id < o.id) && isPlane y.code)).all
      (fun y => !mustPrecede y o || s.performedAt c y o.scope)
  else s.mayPerform c x o (if o.checks then recordScope o else o.scope)

/-- The scope an operation performs at, where its place decides it: system for an atomic on another device's frame (R128), the
wider of its own and the object's for a barrier instruction (R312). -/
def performScope (s : State) (c : Nat) (o : Op) : Nat :=
  if 0x58 ≤ o.code ∧ o.code ≤ 0x5A then barrierScope s c o
  else if 0x40 ≤ o.code ∧ o.code ≤ 0x4A ∧ !atomicScratch o.f then
    if !o.away.isEmpty then 3
    else
    match s.place (s.vfOf c) o.y (atomicNeed o.code) with
    | .remote _ _ _ _ _ => 3
    | _ => o.scope
  else o.scope

/-- A peer access at core scope acts at group scope (R40): an element of the shape lies in a peer window. -/
def shapeScope (o : Op) (bs : List Byte) : Nat :=
  let r := shapeOf bs
  if r.elems.any (fun p => isPeer (r.addr o.x p.1 p.2).toNat) ∧ o.scope = 0 then 1 else o.scope

/-- The context of a check step goes on after its instruction. -/
def State.releaseCheck (s : State) (c : Nat) (x : CtxId) : State :=
  (s.setCtx c x { s.ctxAt c x with hold := none }).asCtx c x (fun s => s.advance s.cur.exposed 3 1)

/-- An operation whose check step has passed: a record stays with it (R248). A load has taken the record's bytes among what it reads; a
store is a write, and performed when that is (R119). -/
def Op.afterCheck (o : Op) (bs : List Byte) (took : List Nat) : Op :=
  if 0x40 ≤ o.code then { o with st := .started }
  else { o.settled [0] with st := .started, data := bs, scope := shapeScope o bs, took := if o.code = 0x17 then [] else o.took ++ took }

/-- What a check step leaves: a passed one lets its context go on, and so does a copy fault, with which the operation performs; a trap
stands at its instruction (R248, R303). -/
def State.settleCheck (s : State) (c : Nat) (x : CtxId) (o : Op) : Perf → Out
  | .checked s' bs took => .next ((s'.setOp c x (o.afterCheck bs took)).releaseCheck c x)
  | .fault i => .next ((s.releaseCheck c x).copyFault c x o.id i)
  | p => s.settlePerf c x o p

/-- `OPERATION_PERFORM` (R120 step 2). An operation whose predecessors are not performed, or whose own condition does not hold,
goes on waiting. -/
def execOperationPerform (c : Nat) (x : CtxId) (op : Nat) (ch : Choice) (s : State) : Out :=
  match s.opAt c x op with
  | none => .next s
  | some o =>
    if o.st == .done || isEngine o.code then .next s
    else
      match o.eng.fault with
      | some i => .next (s.copyFault c x op i)
      | none =>
        let o := { o with scope := performScope s c o }
        if !s.inOrder c x o then .next s
        else
          let s1 := s.setOp c x o
          if o.checks then s1.settleCheck c x o (performOp s1 c x o ch) else s1.settlePerf c x o (performOp s1 c x o ch)

/-- A performed operation leaves its stream (R120 step 4). -/
def State.retireOp (s : State) (c : Nat) (x : CtxId) (id : Nat) : State :=
  match s.opAt c x id with
  | none => s
  | some o => if s.performedOwn c o then (s.setOp c x { o with retired := true }).sweep c x else s

/-- `WRITE_PROPAGATE` (R120 step 3): a write becomes performed in the next wider instance. -/
def execWritePropagate (seq : Nat) (s : State) : Out :=
  let log := s.log.map (fun (e : WEntry) => if e.seq = seq then { e with level := e.level + 1 } else e)
  .next (State.settle { s with log := log })

/-- Demotion events held at their source are placed, oldest first, while the pending queue has room (R36, R164). -/
def State.postWaiting (s : State) (c : Nat) : Nat → State
  | 0 => s
  | n + 1 =>
    match (s.coreAt c).demWait with
    | [] => s
    | w :: r =>
      match (s.setCore c { s.coreAt c with demWait := r }).raise c { cause := 0x12, info := w } with
      | some s' => State.postWaiting s' c n
      | none => s

/-- `BIVOUAC_ENTRY` (R35, R36): the oldest cause of a core that can be taken starts its bivouac context. -/
def execBivouacEntry (c : Nat) (s : State) : Out := .next ((s.enter c).postWaiting c 8)

end Sys2Proof.Machine
end

