-- ==== Sys2Proof/Machine/Tasks.lean ====
section
/-! DEFINITION. The dispatcher and the group schedulers: doorbells, queue slots, launches, dispatch, the ends of tasks, slices,
cancellation, stolen tasks, and the zeroing of scratchpads (R16, R17, R134 to R153, R180, R310). -/

namespace Sys2Proof.Machine

/-! ### Accesses of agents outside the cores -/

/-- The accesses of these agents that firmware found no frame for have been treated. Another of them parks afresh. -/
def State.clearDenied (s : State) : State := { s with parks := s.parks.filter (fun p => !(p.core == none && p.out)) }

/-- The module is ready: the dispatcher accepts work (R20). -/
def State.ready (s : State) : Bool := s.module.stage == 7

/-- The function's tenant may have tasks dispatched: EN, its slice, its partition valid with no write held, and, under TDISP, the
interface in RUN (R149, R177, R178, R182). -/
def State.mayDispatch (s : State) (v : Nat) : Bool :=
  let t := s.tenant v
  let p := s.part t.part
  s.ready && t.en && t.slice && PartDesc.valid p.desc && p.held.isNone && (!t.tdispOn || t.tdisp == .run)

/-! ### Doorbells and queue slots (R17, R22, R145, R146) -/

/-- A doorbell takes effect (R17, R145, R182): the queue has work, or it is discarded and counted. -/
def State.bell (s : State) (vf q : Nat) (header : Word) : State :=
  let t := s.tenant vf
  let w := s.queue q
  if !s.ready ∨ !w.enabled ∨ w.vf ≠ some vf ∨ (t.tdispOn ∧ t.tdisp ≠ .run) then
    s.setTenant vf { t with lostBells := t.lostBells + 1 }
  else s.pushWork q { va := header }

/-- `DOORBELL_WRITE` (R13, R16, R17, R22, R145, R176, R182): it takes effect in its place in the function's link order, after the
accesses that are held before it. -/
def execDoorbellWrite (vf q : Nat) (header : Word) (ide : Bool) (s : State) : Out :=
  let t := s.tenant vf
  if t.tdispOn ∧ t.tdisp = .run ∧ !ide then .next (s.send (.hostUnsupported vf))
  else if t.held.isEmpty then .next (s.bell vf q header)
  else .next (s.setTenant vf { t with held := t.held ++ [.bell q header] })

/-- Queues in a state. -/
def State.queuesIn (s : State) (st : QueueSt) : List (Nat × WorkQueue) := s.queues.filter (fun e => e.2.st == st)

/-- The distance from the tenant that a class's rotation served last to another (R145). The first rotation starts with function 0 (log
104). -/
def State.rotation (s : State) (cls vf : Nat) : Nat := (vf + 1023 - s.lastVf.get 1023 cls) % 1024

/-- Pending queue `a` stands before `b` (R145): the higher class, then the tenant next in the rotation, then the queue longest
in it. -/
def State.queueBefore (s : State) (a b : WorkQueue) : Bool :=
  if a.cls ≠ b.cls then decide (a.cls < b.cls)
  else
    let x := s.rotation a.cls (a.vf.getD 0)
    let y := s.rotation b.cls (b.vf.getD 0)
    if x ≠ y then decide (x < y) else decide (a.turn < b.turn)

/-- The pending queue that is mapped next. -/
def State.nextQueue (s : State) : Option Nat :=
  ((s.queuesIn .pending).foldl (fun (best : Option (Nat × WorkQueue)) e =>
    match best with
    | none => some e
    | some b => if s.queueBefore e.2 b.2 then some e else some b) none).map (·.1)

/-- A hardware queue slot is free (R15). -/
def State.slotFree (s : State) : Bool := decide ((s.queuesIn .mapped).length < Config.queueSlots)

/-- A queue takes a slot; its first full quantum is number `n`. -/
def State.mapQueue (s : State) (q n : Nat) : State :=
  let w := s.queue q
  { s.setQueue q { w with st := .mapped, mapped := n } with lastVf := s.lastVf.set w.cls (w.vf.getD 0) }

/-- `QUEUE_SLOT_MAP` (R145): the first pending queue takes a free slot. -/
def execQueueSlotMap (q : Nat) (s : State) : Out :=
  if s.ready ∧ s.slotFree ∧ s.nextQueue = some q then .next (s.mapQueue q (s.quantumNo + 1)) else .next s

/-- At a quantum boundary a mapped queue with no unread launch frees its slot; one that has had a full quantum does, while a queue
of its class or a higher one is pending, and goes to the back of the rotation (R145). -/
def State.rotateOut (s : State) : List (Nat × WorkQueue) → State
  | [] => s
  | (q, w) :: r =>
    let s1 :=
      if w.unread.isEmpty then s.setQueue q { w with st := .empty }
      else if w.mapped < s.quantumNo ∧ (s.queuesIn .pending).any (fun e => e.2.cls ≤ w.cls) then
        { s.setQueue q { w with st := .pending, turn := s.nextTurn } with nextTurn := s.nextTurn + 1 }
      else s
    State.rotateOut s1 r

/-- Map pending queues while slots are free. -/
def State.mapFree (s : State) : Nat → State
  | 0 => s
  | n + 1 =>
    match s.nextQueue with
    | some q => if s.slotFree then State.mapFree (s.mapQueue q s.quantumNo) n else s
    | none => s

/-! ### Records looked at again -/

/-- The tenant a task's record is named in. -/
def State.tkVf (s : State) (t : Tk) : Nat := ((s.launch t.launch).getD {}).vf

/-- A task READY from a reading of its record, and from then on (log 80): checked by R136 (R139). -/
def State.takeReady (s : State) (t : Tk) (v : Nat) (bs : List Byte) (ans : List Answer) : State × List Sig :=
  let t1 := s.readyTk t bs
  let s1 := s.setTk t1
  if recordMalformed bs then s1.failTk v t1 1 1 ans else (s1, [])

/-- The dispatcher reads an ignored record afresh (R139); the record of a stolen task likewise, which a program may have rewritten (log
27). -/
def State.reread (s : State) (t : Tk) (v : Nat) (ans : List Answer) : State × List Sig :=
  match s.recTake v t.addr 128 (ans.headD .none) with
  | (s, .bad c) => s.loseTk v t 16 c []
  | (s, .pend) => (s, [])
  | (s, .data bs) =>
    let st := swState (leAt bs 0 8)
    if st = 3 then s.countTask t true
    else if st = 5 ∨ st = 6 then s.countTask t false
    else if st = 0 then
      let t1 := { t with st := .waiting }
      (s.setTk t1).recheck t1 v ans
    else if st = 1 then s.takeReady t v bs (ans.drop 1)
    else (if st = 4 then s else s.setTk { t with st := .ignored }, [])

/-- What the dispatcher does with one task at a quantum boundary. A task of a stolen record is left to the thief's own rules. -/
def State.lookAgain (s : State) (t : Tk) (ans : List Answer) : State × List Sig :=
  let v := s.tkVf t
  match t.st with
  | .ignored | .away => s.reread t v ans
  | .owed old new cause => s.endTk v t old new cause ans
  | .waiting => s.recheck t v ans
  | _ => (s, [])

/-- Every task in turn, each with the next four answers. -/
def State.lookAll : List Tk → List Answer → State → State
  | [], _, s => s
  | t :: r, ans, s =>
    let p := match s.findTk t.launch t.idx with
      | some u => s.lookAgain u (ans.take 4)
      | none => (s, [])
    State.lookAll r (ans.drop 4) (p.1.signals p.2)

/-- `QUANTUM_BOUNDARY` (R145, R139): slots change hands, and ignored records are read afresh. -/
def execQuantumBoundary (ch : Choice) (s : State) : Out :=
  if s.ready ∧ s.quantumAt + s.module.quantum ≤ s.time then
    let s1 : State := { s with quantumNo := s.quantumNo + 1, quantumAt := s.time }
    let s2 := s1.rotateOut (s1.queuesIn .mapped)
    let s3 := s2.mapFree Config.queueSlots
    .next (s3.lookAll s3.tasks ch.ans)
  else .next s

/-! ### Accepting a launch (R134, R135, R138) -/

/-- The rules of R134 that the header's own bytes break. -/
def headerBad (h : List Byte) : Bool :=
  let count := leAt h 8 4
  let w := (List.range 6).map (fun i => leAt h (12 + i) 1)
  let flags := leAt h 19 1
  count == 0 || decide (16777216 < count) || w.any (fun n => decide (32 < n)) || decide (64 < w.foldl (· + ·) 0)
    || (List.range 5).any (fun i => w.getD i 0 == 0 && w.getD (i + 1) 0 != 0)
    || leAt h 18 1 == 0 || decide (3 < leAt h 18 1) || decide (4 ≤ flags) || (h.drop 22).any (· != 0)

/-- The table breaks a rule of R134: its alignment, or where its records lie. -/
def State.tableBad (s : State) (v : Nat) (table : Word) (count : Nat) : Bool :=
  let d := s.planeDesc v table
  (s.checkPlane v table).isSome || !d.r || !d.w || d.byteOf (vaPos table) % 128 != 0
    || decide (s.descLimit v table ≤ d.posOf (d.byteOf (vaPos table) + 128 * count - 1))

/-- A record as the dispatcher reads it on acceptance (R134): its 128 bytes, or those of its state word alone where a check stops the
rest. -/
def State.readRecord (s : State) (v : Nat) (va : Word) (ans : Answer) : State × Got :=
  match s.recTake v va 128 ans with
  | (s1, .bad _) => s1.recTake v va 8 ans
  | r => r

/-- The records of a table, each read as record `i` with answer `i`: bytes of each, or what stops the reading. One that only waits holds
the launch, and parks with the others (R134, R158). -/
def State.readRecords (v : Nat) (table : Word) (ans : List Answer) : Nat → Nat → State → State × (Got ⊕ List (List Byte))
  | _, 0, s => (s, .inr [])
  | i, n + 1, s =>
    match s.readRecord v (s.recAt v table (128 * i)) (ans.getD i .none) with
    | (s1, .bad c) => (s1, .inl (.bad c))
    | (s1, .pend) => ((State.readRecords v table ans (i + 1) n s1).1, .inl .pend)
    | (s1, .data bs) =>
      match State.readRecords v table ans (i + 1) n s1 with
      | (s2, .inr r) => (s2, .inr (bs :: r))
      | (s2, .inl g) => (s2, .inl g)

/-- A write to a record can be made now, or fails: it waits neither for its page nor for its home device. -/
def State.putReady (s : State) (v : Nat) (va : Word) (need : Need) (n : Nat) (ans : Answer) : Bool :=
  match s.findAt v va need n with
  | .fault _ _ _ => true
  | .park _ a => s.deniedOut v a
  | .wait | .nowhere => false
  | .bytes ls =>
    match remoteOf ls with
    | none => true
    | some (dev, _, _, _) => s.canSend v dev && (match ans with | .ok | .data _ => true | a => (answerCause a).isSome)

/-- The dispatcher's writes of a record park on its page (R158). -/
def State.parkPut (s : State) (v : Nat) (va : Word) (need : Need) (n : Nat) : State :=
  match s.findAt v va need n with
  | .park _ a => if s.deniedOut v a then s else s.parkAt v a true
  | _ => s

/-- The cause that R138 writes for a record read on acceptance, if it makes it FAILED. -/
def acceptCause (bs : List Byte) : Option Nat :=
  let st := swState (leAt bs 0 8)
  if st = 2 then some 0x0A else if 7 ≤ st then some 1 else none

/-- The writes that acceptance makes to record `i`, whose bytes are `bs`: the swap of its state word, and the write of a cause. -/
def acceptPuts (i : Nat) (bs : List Byte) : List (Nat × Need × Nat) :=
  (128 * i, .both, 8) :: if (acceptCause bs).isSome then [(128 * i + 72, .write, 4)] else []

/-- Every write of acceptance can be made now. The answers are those to the swaps, record by record, then those to the causes. -/
def State.swapsReady (s : State) (v : Nat) (table : Word) (rs : List (List Byte)) (ans : List Answer) : Bool :=
  (rs.mapIdx (fun i bs => (acceptPuts i bs).mapIdx (fun j p =>
    s.putReady v (s.recAt v table p.1) p.2.1 p.2.2 (ans.getD (i + rs.length * j) .none)))).all (fun l => l.all id)

/-- Those that cannot park the dispatcher (R158). -/
def State.parkRecords (s : State) (v : Nat) (table : Word) (rs : List (List Byte)) : State :=
  ((rs.mapIdx acceptPuts).flatten).foldl (fun u p => u.parkPut v (s.recAt v table p.1) p.2.1 p.2.2) s

/-- The cause for which a whole record cannot be read. -/
def State.recBad (s : State) (v : Nat) (va : Word) : Nat :=
  match (s.recTake v va 128 .none).2 with
  | .bad c => c
  | _ => 0

/-- One record of an accepted launch (R137, R138): the one swap from the value read, then what its STATE gives. A record whose state word
alone could be read counts as failed, unless it has ended (R134). The answers are those to the write of the cause and to the swap. -/
def State.acceptRecord (s : State) (v : Nat) (l : Launch) (stealable : Bool) (t : Tk) (bs : List Byte) (ans : List Answer) :
    State × List Sig :=
  let w := leAt bs 0 8
  let st := swState w
  let w1 := swAccept w s.module.devId stealable
  let failed := (acceptCause bs).isSome
  let w2 := if failed then swSetState w1 5 else w1
  match s.causeThenSwap v t.addr (acceptCause bs) w w2 ans with
  | (s2, .unexpected) | (s2, .pend) => (s2.setTk { t with st := .ignored }, [])
  | (s2, .failed c) => s2.lostTk v t c (signalNames bs)
  | (s2, .swapped) =>
    if failed then s2.lostTk v t 0 (signalNames bs)
    else if st = 3 ∨ st = 5 ∨ st = 6 then s2.countTask t (st == 3)
    else if bs.length < 128 then s2.loseTk v t st (s2.recBad v t.addr) []
    else if st = 0 then s2.recheck t l.vf []
    else if st = 1 then s2.takeReady t l.vf (leBytes 8 w2 ++ bs.drop 8) []
    else (s2.setTk { t with st := .away, since := s.time }, [])

/-- The records of a launch, in order: record `i` of `n` has answer `i` to its swap and answer `n + i` to its cause. -/
def State.acceptRecords (v : Nat) (l : Launch) (stealable : Bool) (n : Nat) (ans : List Answer) :
    List (Tk × List Byte) → State → State × List Sig
  | [], s => (s, [])
  | (t, bs) :: r, s =>
    let p := s.acceptRecord v l stealable t bs [ans.getD n .none, ans.headD .none]
    let q := State.acceptRecords v l stealable n ans.tail r p.1
    (q.1, p.2 ++ q.2)

/-- The launch that a queue's dispatcher reads next, and whether it was unread when the queue was disabled (R145). -/
def WorkQueue.head (w : WorkQueue) : Option (QItem × Bool) :=
  match w.doomed, w.unread with
  | i :: _, _ => some (i, true)
  | [], i :: _ => if w.st = .mapped then some (i, false) else none
  | [], [] => none

/-- That launch has been read. -/
def State.popWork (s : State) (q : Nat) : State :=
  let w := s.queue q
  s.setQueue q (if w.doomed.isEmpty then { w with unread := w.unread.tail } else { w with doomed := w.doomed.tail })

/-- A rejected launch: its completion event, if one is named, is signalled with failure (R134). -/
def State.rejectLaunch (s : State) (q v : Nat) (h : List Byte) : State :=
  (s.popWork q).signals (if leAt h 20 2 = 0 then [] else [⟨v, leAt h 20 2, true⟩])

/-- A launch is taken, with its records' bytes and the answers of their home device to the swaps. -/
def State.takeLaunch (s : State) (q v : Nat) (h : List Byte) (rs : List (List Byte)) (ans : List Answer) : State :=
  let flags := leAt h 19 1
  let table : Word := BitVec.ofNat 64 (leAt h 0 8)
  let l : Launch :=
    { id := s.nextLaunch, vf := v, queue := q, table := table, count := rs.length,
      widths := (List.range 6).map (fun i => leAt h (12 + i) 1), cls := leAt h 18 1, urgent := bitAt flags 1,
      event := leAt h 20 2 }
  let ts : List (Tk × List Byte) := rs.mapIdx (fun i bs =>
    (({ launch := l.id, idx := i, addr := s.recAt v table (128 * i), sigs := signalNames bs } : Tk), bs))
  let s1 : State := { s.popWork q with launches := s.launches ++ [l], nextLaunch := s.nextLaunch + 1,
                                       tasks := s.tasks ++ ts.map (·.1) }
  let p := State.acceptRecords v l (bitAt flags 0) rs.length ans ts s1
  p.1.signals p.2

/-- A stolen task enters the dispatcher (R310): READY with the record bytes read in the swap, or, where they fail a check of R136,
a task whose record `STOLEN_TASK_END` makes FAILED. -/
def State.takeStolenTask (s : State) (q v : Nat) (i : QItem) (st : Stolen) : State :=
  let l : Launch := { id := s.nextLaunch, vf := v, queue := q, table := i.va, count := 1, widths := st.widths, cls := st.cls,
                      urgent := st.urgent, stolen := some st }
  let t : Tk := { launch := l.id, idx := 0, addr := i.va, st := .ready, readyAt := s.time,
                  cls := taskClass st.urgent st.cls st.bytes, size := leAt st.bytes 53 1 }
  let s1 : State := { s.popWork q with launches := s.launches ++ [l], nextLaunch := s.nextLaunch + 1 }
  if recordMalformed st.bytes then
    { s1 with tasks := s1.tasks ++ [{ t with st := .running }], nextTeam := s1.nextTeam + 1,
              teams := s1.teams.set s1.nextTeam
                { vf := v, queue := q, launch := l.id, addr := i.va, bytes := st.bytes, widths := st.widths,
                  stolen := some st, failed := some 1 } }
  else { s1 with tasks := s1.tasks ++ [t] }

/-- The header's bytes: those a `LAUNCH` has read, or a read of the dispatcher. -/
def State.readHeader (s : State) (v : Nat) (i : QItem) (ans : Answer) : State × Got :=
  match i.bytes with
  | some b => (s, .data b)
  | none => s.recTake v i.va 64 ans

/-- The STATE a task not yet dispatched is cancelled from. -/
def TaskSt.undispatched : TaskSt → Option Nat
  | .waiting => some 0
  | .ready => some 1
  | _ => none

/-- Cancel a task of this device's own launches, if it is WAITING or READY (R139); a record that is ignored is left as it is (log 81). A
stolen task that is not dispatched here is let go: its owner finds the steal lost (R153, log 28). -/
def State.cancelTask (s : State) (t : Tk) (ans : List Answer) : State × List Sig :=
  match t.st.undispatched, s.launch t.launch with
  | some old, some l =>
    if l.stolen.isSome then s.countTask t false else s.endTk l.vf t old 6 0 ans
  | _, _ => (s, [])

/-- Cancel tasks, each with the next three answers. -/
def State.cancelAll : List Tk → List Answer → State → State
  | [], _, s => s
  | t :: r, ans, s =>
    let p := match s.findTk t.launch t.idx with
      | some u => s.cancelTask u (ans.take 3)
      | none => (s, [])
    State.cancelAll r (ans.drop 3) (p.1.signals p.2)

/-- The tasks of the launch numbered `id` are cancelled, where its queue was disabled before it was read. -/
def State.cancelIf (s : State) (doomed : Bool) (id : Nat) : State :=
  if doomed then State.cancelAll (s.tasks.filter (fun t => t.launch == id)) [] s else s

/-- `LAUNCH_ACCEPT` (R134, R135, R138, R145): the first unread launch of a mapped queue, or one that a disabled queue has left to be
cancelled. A launch whose header fails a check or lies in a POISONED frame is dropped (log 82). The first answer is for the header, the next
one per record for the reads, then one per record for the swaps, and the rest for the causes. -/
def execLaunchAccept (q : Nat) (ch : Choice) (s : State) : Out :=
  let w := s.queue q
  let v := w.vf.getD 0
  match w.head with
  | none => .next s
  | some (i, doomed) =>
    if !s.ready then .next s
    else
      match i.stolen with
      | some st => .next ((s.takeStolenTask q v i st).cancelIf doomed s.nextLaunch)
      | none =>
        match s.readHeader v i (ch.ans.headD .none) with
        | (s, .pend) => .next s
        | (s, .bad _) => .next (s.popWork q).clearDenied
        | (s, .data h) =>
          let count := leAt h 8 4
          let table : Word := BitVec.ofNat 64 (leAt h 0 8)
          if headerBad h || (s.planeDesc v i.va).byteOf (vaPos i.va) % 64 != 0 || s.tableBad v table count then
            .next (s.rejectLaunch q v h)
          else
            match State.readRecords v table ch.ans.tail 0 count s with
            | (s, .inl .pend) => .next s
            | (s, .inl _) => .next (s.rejectLaunch q v h).clearDenied
            | (s, .inr rs) =>
              let swaps := ch.ans.drop (1 + count)
              if s.swapsReady v table rs swaps then .next ((s.takeLaunch q v h rs swaps).clearDenied.cancelIf doomed s.nextLaunch)
              else .next (s.parkRecords v table rs)

/-! ### Dispatch (R16, R139, R141, R142, R39) -/

/-- Tasks that a dispatch order compares: READY, of a tenant of the partition that may dispatch. -/
def State.readyIn (s : State) (part : Nat) : List Tk :=
  s.tasks.filter (fun t => t.st == .ready && (s.tenant (s.tkVf t)).part == part && s.mayDispatch (s.tkVf t))

/-- A fill task has been READY for its tenant's fill age (R142). -/
def State.isAged (s : State) (t : Tk) : Bool := t.aged || decide (t.readyAt + (s.tenant (s.tkVf t)).fillAge ≤ s.time)

/-- The class a task is scheduled in, aged fill as normal (R142). -/
def State.rankOf (s : State) (t : Tk) : Nat := if t.cls = 3 ∧ s.isAged t then 2 else t.cls

/-- Task `a` stands before `b` (R142): class, then how long READY, then the table address, then the index. -/
def State.taskBefore (s : State) (a b : Tk) : Bool :=
  let table (t : Tk) : Nat := ((s.launch t.launch).getD {}).table.toNat
  if s.rankOf a ≠ s.rankOf b then decide (s.rankOf a < s.rankOf b)
  else if a.readyAt ≠ b.readyAt then decide (a.readyAt < b.readyAt)
  else if table a ≠ table b then decide (table a < table b)
  else decide (a.idx < b.idx)

/-- Cores of a group that a partition holds and that are not withdrawn. -/
def State.groupCores (s : State) (d : PartDesc) (g : Nat) : List Nat :=
  ((List.range Config.groupCores).map (fun i => g * Config.groupCores + i)).filter
    (fun c => PartDesc.has d c && !(s.coreAt c).withdrawn)

/-- The groups a partition has cores in. -/
def State.groupsOf (s : State) (d : PartDesc) : List Nat :=
  (List.range (Config.cores / Config.groupCores)).filter (fun g => !(s.groupCores d g).isEmpty)

/-- The dispatcher hands a READY task to a group of its partition, or moves it there (R142). -/
def State.hand (s : State) (launch idx g : Nat) : State :=
  match s.findTk launch idx with
  | some t =>
    if t.st = .ready ∧ g ∈ s.groupsOf (s.part (s.tenant (s.tkVf t)).part).desc then s.setTk { t with group := some g } else s
  | none => s

/-- The group that a task of a partition is with: the one it has been handed to, or the partition's only one, where that can hold its
team (R142, R211, log 66). -/
def State.groupOf (s : State) (part : Nat) (t : Tk) : Option Nat :=
  match t.group with
  | some g => some g
  | none =>
    match s.groupsOf (s.part part).desc with
    | [g] => if t.size ≤ (s.groupCores (s.part part).desc g).length then some g else none
    | _ => none

/-- Two entries are of one task. -/
def Tk.same (a b : Tk) : Bool := a.launch == b.launch && a.idx == b.idx

/-- The tasks for which a group reserves cores now: still READY since then, and still with the group (R142). -/
def State.reservedIn (s : State) (part g : Nat) : List Tk :=
  (s.reserved.get [] (32 * part + g)).filterMap (fun r =>
    (s.findTk r.1 r.2.1).bind (fun t =>
      if t.st = .ready ∧ t.readyAt = r.2.2 ∧ s.groupOf part t = some g then some t else none))

/-- A group's reservations let a task start: it is the task of each, or of a higher class (R142). -/
def State.notHeld (s : State) (t : Tk) (part g : Nat) : Bool :=
  (s.reservedIn part g).all (fun r => r.same t || decide (s.rankOf t < s.rankOf r))

/-- A task is the next that a group dispatches: the first of those it has that its reservations let start (R142). -/
def State.isFirst (s : State) (t : Tk) (part g : Nat) : Bool :=
  s.groupOf part t == some g && s.notHeld t part g && (s.readyIn part).all (fun u => u.same t
    || s.groupOf part u != some g || !s.notHeld u part g || !s.taskBefore u t)

/-- A core a scheduler may bind to a tenant's task: of the partition, idle, not withdrawn, zeroed since another tenant's task (the
next holder of a function is another tenant: log 61), and with no engine or partition rung in action (R141, R180, R199, R211). -/
def State.coreFree (s : State) (v : Nat) (d : PartDesc) (c : Nat) : Bool :=
  let k := s.coreAt c
  decide (c < Config.cores) && PartDesc.has d c && k.team == 0 && !k.withdrawn && (k.clean || k.lastVf == some v)
    && !s.rungs.any (fun r => decide (3 ≤ r.kind) && r.cores.contains c)

/-- A group reserves cores for the task that is its next, where that needs more than are idle (R142). -/
def State.reserveIn (s : State) (part g : Nat) : State :=
  let d := (s.part part).desc
  match (s.readyIn part).find? (fun t => s.isFirst t part g) with
  | some t =>
    let rs := (s.reservedIn part g ++ [t]).map (fun r => (r.launch, r.idx, r.readyAt))
    if ((s.groupCores d g).filter (s.coreFree (s.tkVf t) d)).length < t.size ∧ !((s.reservedIn part g).any (fun r => r.same t)) then
      { s with reserved := s.reserved.set (32 * part + g) rs }
    else s
  | none => s

/-- Every group of every partition holds cores as R142 has it. -/
def State.reserve (s : State) : State :=
  if s.tasks.isEmpty then s
  else s.parts.foldl (fun u e => (u.groupsOf e.2.desc).foldl (fun u g => u.reserveIn e.1 g) u) s

/-- A context at its entry point (R39, R68). -/
def entryCtx (pc : Word) : Ctx := { run := .running, atEntry := true, pc := pc }

/-- A core as a team member's sequencers start (R39): everything zero but what the rule names, the fence of R112 and what
belongs to the core rather than the task. -/
def Core.dispatched (k : Core) (team rank v cycles : Nat) (tm : Team) : Core :=
  { team := team, rank := rank, lastVf := some v, clean := false, start := cycles, fenced := k.fenced,
    ctl := entryCtx (tm.entry 0), ld := entryCtx (tm.entry 1), cmp := entryCtx (tm.entry 2), st := entryCtx (tm.entry 3) }

/-- The members of a team start, by rank. -/
def State.startCores (s : State) (team : Nat) (tm : Team) : Nat → List Nat → State
  | _, [] => s
  | i, c :: r =>
    State.startCores (s.setCore c ((s.coreAt c).dispatched team i tm.vf s.cycles tm)) team tm (i + 1) r

/-- A team is bound and starts (R141). -/
def State.startTeam (s : State) (l : Launch) (t : Tk) (bytes : List Byte) (cores : List Nat) : State :=
  let tm : Team := { vf := l.vf, queue := l.queue, launch := l.id, idx := t.idx, addr := t.addr, bytes := bytes,
                     widths := l.widths, cores := cores, start := s.time, stolen := l.stolen }
  let s1 : State := { s.setTk { t with st := .running, sigs := signalNames bytes } with
    teams := s.teams.set s.nextTeam tm, nextTeam := s.nextTeam + 1 }
  s1.startCores s.nextTeam tm 0 cores

/-- `TASK_DISPATCH` (R16, R139, R141, R142): the scheduler swaps the record from READY to DISPATCHED and starts the team. -/
def execTaskDispatch (launch idx : Nat) (cores : List Nat) (ch : Choice) (s : State) : Out :=
  match s.launch launch, s.findTk launch idx with
  | some l, some t =>
    let part := (s.tenant l.vf).part
    let d := (s.part part).desc
    let g := cores.headD 0 / Config.groupCores
    if t.st = .ready ∧ s.mayDispatch l.vf ∧ cores.length = t.size ∧ cores.Nodup ∧ cores ≠ []
        ∧ cores.all (fun c => c / Config.groupCores == g && s.coreFree l.vf d c) ∧ s.isFirst t part g then
      match l.stolen with
      | some st => .next (s.startTeam l t st.bytes cores)
      | none =>
        match s.recTake l.vf t.addr 128 (ch.ans.headD .none) with
        | (s, .pend) => .next s
        | (s, .bad c) =>
          let r := s.loseTk l.vf t 1 c ch.ans.tail
          .next (r.1.signals r.2).clearDenied
        | (s, .data bs) =>
          let w := leAt bs 0 8
          if swState w = 4 then .next (s.setTk { t with st := .away, since := s.time })
          else if swState w ≠ 1 then .next (s.setTk { t with st := .ignored })
          else
            match s.swapWord l.vf t.addr w (swSetState w 2) (ch.ans.getD 1 .none) with
            | (s1, .swapped) => .next (s1.startTeam l t (leBytes 8 (swSetState w 2) ++ bs.drop 8) cores)
            | (s1, .unexpected) => .next (s1.setTk { t with st := .ignored })
            | (s1, .failed c) =>
              let r := s1.lostTk l.vf t c (signalNames bs)
              .next (r.1.signals r.2).clearDenied
            | (s1, .pend) => .next s1
    else .next s
  | _, _ => .next s

/-- `FILL_TASK_AGING` (R142). -/
def execFillTaskAging (launch idx : Nat) (s : State) : Out :=
  match s.findTk launch idx with
  | some t =>
    if t.st = .ready ∧ t.cls = 3 ∧ t.readyAt + (s.tenant (s.tkVf t)).fillAge ≤ s.time then
      .next (s.setTk { t with aged := true })
    else .next s
  | none => .next s

/-! ### The end of a task (R125, R139, R144, R153, R219) -/

/-- Every operation of a context is performed at a scope. -/
def State.allPerformed (s : State) (c : Nat) (x : CtxId) (scope : Nat) : Bool :=
  (s.ctxAt c x).ops.all (fun o => s.performedAt c o scope)

/-- A member has come to its end (R219, R125): its primary contexts have ended, no bivouac cause runs or is pending, and every
operation is performed at the scope. -/
def State.memberOver (s : State) (scope c : Nat) : Bool :=
  let k := s.coreAt c
  [CtxId.ctl, .ld, .cmp, .st].all (fun x => (k.ctxOf x).run == .ended) && k.biv.run != .running && k.pend.isEmpty
    && [CtxId.ctl, .ld, .cmp, .st, .biv].all (fun x => s.allPerformed c x scope)
    && k.allOps.all (fun o => o.st == .done)

/-- The team is gone and its cores are idle. -/
def State.dropTeam (s : State) (t : Nat) : State :=
  let tm := s.teamAt t
  let s1 := (s.releaseCores tm.cores).dropWaiters tm.cores
  { s1 with teams := s1.teams.erase t }

/-- `TASK_COMPLETE` (R139): the record becomes DONE and its events are signalled. -/
def execTaskComplete (team : Nat) (ch : Choice) (s : State) : Out :=
  let tm := s.teamAt team
  match s.findTk tm.launch tm.idx with
  | none => .next s
  | some t =>
    if tm.stolen.isSome || tm.cores.isEmpty || !tm.cores.all (s.memberOver 2) then .next s
    else
      let w := leAt tm.bytes 0 8
      match s.swapWord tm.vf tm.addr w (swSetState w 3) (ch.ans.headD .none) with
      | (s1, .pend) => .next s1
      | (s1, .swapped) =>
        let r := (s1.dropTeam team).countTask t true
        .next (r.1.signals (sigsOf tm.vf tm.bytes false ++ r.2))
      | (s1, .unexpected) => .next ((s1.dropTeam team).setTk { t with st := .ignored })
      | (s1, .failed c) =>
        let r := ((s1.countMet tm.vf tm.addr c).dropTeam team).countTask t false
        .next (r.1.signals (sigsOf tm.vf tm.bytes true ++ r.2)).clearDenied

/-- `TASK_WATCHDOG` (R144): a task past its maximum duration is ended at the context rung. -/
def execTaskWatchdog (team : Nat) (ch : Choice) (s : State) : Out :=
  let tm := s.teamAt team
  if tm.cores ≠ [] ∧ tm.start + tm.maxNs < s.time then .next (s.contextRung team 2 9 tm.addr.toNat ch.ans) else .next s

/-- A signal of a stolen task to the owning device (R153, R334): here, in the function that bears the FTID, or sent there. -/
def State.signalOwner (s : State) (tm : Team) (owner : Nat) (fail : Bool) : State :=
  if owner = s.module.devId then s.signals (sigsOf tm.vf tm.bytes fail)
  else ((signalNames tm.bytes).filter (· != 0)).foldl
    (fun s n => s.request tm.vf owner (.event n fail)) s

/-- A stolen task's signals can leave for its owner now (R190). -/
def State.ownerHears (s : State) (tm : Team) (owner : Nat) : Bool :=
  owner == s.module.devId || (signalNames tm.bytes).all (· == 0) || s.canSend tm.vf owner

/-- `STOLEN_TASK_END` (R153): once the operations are performed at system scope, or once the task has been ended, the thief swaps
the record to DONE, or writes the cause and swaps it to FAILED, and signals its events at the owner. A swap that finds another
value sends no signal. While a signal to the owner could not leave, the end waits (log 95). The answers are those to the write of the
cause and to the swap. -/
def execStolenTaskEnd (team : Nat) (ch : Choice) (s : State) : Out :=
  let tm := s.teamAt team
  match tm.stolen, s.findTk tm.launch tm.idx with
  | some st, some t =>
    if tm.failed.isNone && (tm.cores.isEmpty || !tm.cores.all (s.memberOver 3)) then .next s
    else if !s.ownerHears tm st.owner then .next s
    else
      let w := leAt tm.bytes 0 8
      match s.causeThenSwap tm.vf tm.addr tm.failed w (swSetState w (if tm.failed.isSome then 5 else 3))
          (if tm.failed.isSome then ch.ans else .none :: ch.ans) with
      | (s1, .pend) => .next s1
      | (s1, .swapped) =>
        let s2 := (s1.dropTeam team).signalOwner tm st.owner tm.failed.isSome
        let r := s2.countTask t tm.failed.isNone
        .next (r.1.signals r.2)
      | (s1, _) =>
        let r := (s1.dropTeam team).countTask t false
        .next (r.1.signals r.2)
  | _, _ => .next s

/-- `STEAL_LOST` (R153): the owner's dispatcher swaps a record still STOLEN to FAILED with cause 0x08, once the maximum duration
and the fabric requester timeout have passed. -/
def execStealLost (launch idx : Nat) (ch : Choice) (s : State) : Out :=
  match s.findTk launch idx with
  | none => .next s
  | some t =>
    let v := s.tkVf t
    if t.st ≠ .away then .next s
    else
      match s.recTake v t.addr 128 (ch.ans.headD .none) with
      | (s1, .data bs) =>
        if t.since + 1000 * leAt bs 68 4 + s.module.fabricTimeout < s.time then
          let r := if swState (leAt bs 0 8) = 4 then s.failTk v t 4 8 ch.ans else s.reread t v ch.ans
          .next (r.1.signals r.2)
        else .next s1
      | (s1, _) => .next s1

/-! ### Slices, cancellation (R139, R145, R149) -/

/-- `SLICE_END` (R149). -/
def execSliceEnd (vf : Nat) (s : State) : Out := .next (s.setTenant vf { s.tenant vf with slice := false })

/-- `SLICE_START` (R149): one tenant of a partition at a time has its slice; it must be enabled. -/
def execSliceStart (vf : Nat) (s : State) : Out :=
  let t := s.tenant vf
  if t.en && PartDesc.valid (s.part t.part).desc && s.tenants.all (fun e => e.1 == vf || e.2.part != t.part || !e.2.slice) then
    .next (s.setTenant vf { t with slice := true })
  else .next s

/-- `LAUNCH_CANCEL` (R139). -/
def execLaunchCancel (launch : Nat) (ch : Choice) (s : State) : Out :=
  .next (State.cancelAll (s.tasks.filter (fun t => t.launch == launch)) ch.ans s)

/-- The Fylen driver disables a queue (R145, R139): it is EMPTY, its tasks not yet dispatched are cancelled, and those of its unread
launches will be once the dispatcher has read them. -/
def State.disableQueue (s : State) (q : Nat) : State :=
  let mine := s.tasks.filter (fun t => match s.launch t.launch with
    | some l => l.queue == q
    | none => false)
  State.cancelAll mine [] (s.setQueue q { s.queue q with enabled := false, st := .empty, unread := [],
                                                                     doomed := (s.queue q).doomed ++ (s.queue q).unread })

/-- `QUEUE_DISABLE` (R145). -/
def execQueueDisable (q : Nat) (s : State) : Out := .next (s.disableQueue q)

/-! ### Between tenants (R180) -/

/-- The locations of a core's scratchpad. -/
def inScratch (c a : Nat) : Bool := decide (scratchLoc c 0 ≤ a) && decide (a < scratchLoc c Config.scratchBytes)

/-- A core's scratchpad is zero, its probe tag table clear. -/
def State.zeroScratch (s : State) (c : Nat) : State :=
  let s1 : State := { s with
    mem := s.mem.filter (fun e => !inScratch c e.1),
    log := s.log.map (fun (e : WEntry) => { e with cells := e.cells.filter (fun x => !inScratch c x.1) }) }
  s1.setCore c { s.coreAt c with probe := [], probeP := 0, recent := [], clean := true }

/-- The tenant that a core last ran may run there again within its slice, so that its scratchpad persists (R39, R149). -/
def State.keepsScratch (s : State) (c : Nat) : Bool :=
  match (s.coreAt c).lastVf with
  | some v => (s.tenant v).slice && PartDesc.has (s.part (s.tenant v).part).desc c
  | none => false

/-- `SCRATCHPAD_ZEROING` (R180): of a core that runs no task, before another tenant runs there. Its last task's engine commands are
over. -/
def execScratchpadZeroing (c : Nat) (s : State) : Out :=
  if (s.coreAt c).team = 0 ∧ !s.keepsScratch c then .next (s.zeroScratch c) else .next s

end Sys2Proof.Machine
end

