-- ==== Sys2Proof/Machine/Mailbox.lean ====
section
/-! DEFINITION. The mailbox engine: host writes and reads, in link order for each function (R13, R22, R126, R176, R182). -/

namespace Sys2Proof.Machine

/-- How an access of the mailbox engine ends: it is over, or it is held with every later one of its function (R176). -/
inductive Mail where
  | over (s : State)
  | held (s : State)

/-- A write that has no effect is counted (R176). -/
def State.loseWrite (s : State) (v : Nat) : State :=
  s.setTenant v { s.tenant v with lostWrites := (s.tenant v).lostWrites + 1 }

/-- A failed access: a write is discarded and counted; a read completes as an unsupported request, or as a completer abort. -/
def State.failHost (s : State) (v : Nat) (wr abort : Bool) : State :=
  if wr then s.loseWrite v
  else if abort then s.send (.hostAbort v) else s.send (.hostUnsupported v)

/-- The first access of a function has gone nowhere, or has ended. -/
def State.clearAway (s : State) (v : Nat) : State := s.setTenant v { s.tenant v with away := [], lines := [] }

/-- What an access of the mailbox engine writes at places: the cells here, and the masks of the others (R160). -/
def hostPlan (s : State) (wr : Option (List Byte)) (bs : List Byte1) : List (Fwd × FabricRequest) :=
  linePlan s.module.devId s.time wr.isSome [(0, bs, ((wr.getD []).map (fun b => ((0xFF : Byte), b))))]

/-- The address of the element that holds a byte beyond the element at an address. -/
def State.vaFrom (s : State) (v : Nat) (va : Word) (off : Nat) : Word :=
  if off = 0 then va else vaAt va ((s.planeDesc v va).posOf ((s.planeDesc v va).byteOf (vaPos va) + off))

/-- An access of the mailbox engine whose places are known ends: the bytes that lie here are written, or all are read. -/
def State.hostEnds (s : State) (v : Nat) (va : Word) (wr : Option (List Byte)) (bs : List Byte1) (fs : List Fwd) (ch : Choice) : State :=
  match wr with
  | some b => ((s.writeDevice (cellsAt bs b)).clearAway v).touchCache v va ch.way true true
  | none =>
    ((s.send (.hostData v (List.zipWith (fun p x => match p with | .remote d l a _ => awayByte fs d l a | _ => x) bs
      (s.imageOf bs)))).clearAway v).touchCache v va ch.way false true

/-- A host read or write, from a byte of an element on, by the checks of R46 and its entry's state (R176). What lies on other devices is
asked of them, and its answers end the access (R160); a write that is refused parks until its entry no longer names the lease, and is
then treated afresh (R163). -/
def State.mailAccess (s : State) (v : Nat) (va : Word) (off : Nat) (wr : Option (List Byte)) (n : Nat) (ch : Choice) : Mail :=
  let t := s.tenant v
  let at_ := s.vaFrom v va off
  if !t.away.isEmpty then
    let fs := giveAnswers 0 t.lines ch.ans
    if fs.any (fun f => f.ans == .none) then .held (s.setTenant v { t with lines := fs })
    else
      match fs.find? (fun f => f.ans == .refused) with
      | some f => .held ((s.clearAway v).parkRefused v at_ f.dev f.lease)
      | none =>
        if fs.all (fun f => match f.ans with | .data _ | .ok => true | _ => false) then .over (s.hostEnds v at_ wr t.away fs ch)
        else .over ((s.clearAway v).failHost v wr.isSome true)
  else
    match s.findFrom v va (if wr.isSome then .write else .read) off n with
    | .fault cause _ _ => .over (s.failHost v wr.isSome (cause == 6))
    | .wait => .held s
    | .nowhere => .over (s.failHost v wr.isSome true)
    | .park _ p => if s.deniedOut v p then .over (s.failHost v wr.isSome true).clearDenied
                   else .held (s.parkAt v p wr.isSome)
    | .bytes bs =>
      match remoteOf bs with
      | none => .over (s.hostEnds v at_ wr bs [] ch)
      | some (dev, lease, _, _) =>
        if wr.isSome && s.refusedOut v at_ dev lease then .held s
        else
        let ps := hostPlan s wr bs
        if ps.all (fun q => s.canSend v q.1.dev) then
          let s1 := ps.foldl (fun u q => u.request v q.1.dev q.2) s
          .held (s1.setTenant v { s1.tenant v with away := bs, lines := ps.map (·.1) })
        else .held s

/-- One access of a function, in its turn (R13, R16, R176). -/
def State.mail (s : State) (v : Nat) (a : HostAcc) (ch : Choice) : Mail :=
  match a with
  | .write va off b => s.mailAccess v va off (some b) b.length ch
  | .read va n => s.mailAccess v va 0 none n ch
  | .bell q header => .over (s.bell v q header)

/-- The accesses of a function that are held, in link order, until one is held again. The answers are for the first. -/
def State.drainRun (v : Nat) : Choice → List HostAcc → State → State
  | _, [], s => s.setTenant v { s.tenant v with held := [] }
  | ch, a :: r, s =>
    match s.mail v a ch with
    | .over s1 => State.drainRun v { ch with ans := [] } r s1
    | .held s1 => s1.setTenant v { s1.tenant v with held := a :: r }

/-- The mailbox engine goes on with a function's held accesses. -/
def State.drainHost (s : State) (v : Nat) (ch : Choice) : State := State.drainRun v ch (s.tenant v).held s

/-- The mailbox takes an access of a virtual function: bring-up stage 4 is over, and a function in RUN uses its IDE stream (R22,
R182). -/
def State.mailboxTakes (s : State) (v : Nat) (ide : Bool) : Bool :=
  decide (v < Config.functions) && decide (5 ≤ s.module.stage) && s.module.stage != 15
    && (!((s.tenant v).tdispOn && (s.tenant v).tdisp == .run) || ide)

/-- An access joins its function's order. -/
def State.mailIn (s : State) (v : Nat) (as : List HostAcc) (ch : Choice) : State :=
  (s.setTenant v { s.tenant v with held := (s.tenant v).held ++ as }).drainHost v ch

/-- The 64-byte line that each byte of a write from a byte of an element on lies in, as its plane entry gives it (R13, R51): the line of
its page's data where none does. -/
def State.linesAt (s : State) (v : Nat) (va : Word) (off n : Nat) : List (Nat × Nat × Nat) :=
  let d := s.planeDesc v va
  let b := d.byteOf (vaPos va) + off
  (List.range n).map (fun i =>
    match s.findByte v va .write (b + i) with
    | .bytes [.at a] => (0, 0, a / 64)
    | .bytes [.remote dev l a _] => (dev + 1, l, a / 64)
    | _ =>
      let page := 2 ^ s.pageBits v (vaAt va (d.posOf (b + i)))
      let start := d.posOf (b + i) / page * page
      (0, 1 + start, (b + i - d.byteOf start) / 64))

/-- How many of the first bytes lie in one line with the first. -/
def sameLine : List (Nat × Nat × Nat) → Nat
  | [] => 0
  | l :: r => 1 + (r.takeWhile (· == l)).length

/-- A write cut at the ends of the 64-byte lines it lies in (R13); a part within one line is one write, aligned or not (log 84). Each part
begins some bytes beyond the element at the write's address. `k` bounds the parts. -/
def State.cutWrite (s : State) (v : Nat) (va : Word) : Nat → Nat → List Byte → List HostAcc
  | 0, _, _ => []
  | _, _, [] => []
  | k + 1, off, data =>
    let n := sameLine (s.linesAt v va off data.length)
    .write va off (data.take n) :: State.cutWrite s v va k (off + n) (data.drop n)

/-- `HOST_WRITE` (R13, R22, R176): each part in one line is one write, in address order. With no data, the mailbox engine goes on with
what it holds. -/
def execHostWrite (vf : Nat) (va : Word) (data : List Byte) (ide : Bool) (ch : Choice) (s : State) : Out :=
  if data = [] then .next (if s.module.stage = 15 then s else s.drainHost vf ch)
  else if !s.mailboxTakes vf ide then .next (s.send (.hostUnsupported vf))
  else .next (s.mailIn vf (s.cutWrite vf va data.length 0 data) ch)

/-! ### The management register block (R23, R177, R178, R188, R197, R198) -/

/-- THROT (R23): a power or thermal limit holds the clock down. -/
def Module.throt (m : Module) : Bool := m.powerHold || !m.hotDies.isEmpty

/-- `DEVSTAT` (R23). -/
def Module.devstat (m : Module) : Lane :=
  BitVec.ofNat 32 (m.errcode.toNat * 2 ^ 16 + m.throt.toNat * 2 ^ 4 + m.stage % 16)

/-- A partition descriptor as its 64 bytes hold it (R177). -/
def PartDesc.raw (d : PartDesc) : Nat :=
  d.cores.toNat + d.ports.toNat * 2 ^ 256 + d.tag.toNat * 2 ^ 288 + d.flags.toNat * 2 ^ 304 + d.reserved.toNat * 2 ^ 320

/-- An error record as its 32 bytes hold it (R198). -/
def ErrRec.raw (e : ErrRec) : Nat :=
  e.cls + e.outcome * 2 ^ 8 + e.rung * 2 ^ 16 + e.die * 2 ^ 24 + e.vf * 2 ^ 32 + e.resource * 2 ^ 64 + e.time * 2 ^ 128
    + e.count * 2 ^ 192

/-- The 8 bytes at an offset of the management register block, which is a multiple of 8; none where no rule puts a register. -/
def State.register (s : State) (o : Nat) : Option Nat :=
  if o = 0x10 then some s.module.devstat.toNat
  else if o = 0x18 then some s.ringNext
  else if 0x8000 ≤ o ∧ o < 0x8040 then
    some ((s.way ((o - 0x8000) / 4)).toNat + (s.way ((o - 0x8000) / 4 + 1)).toNat * 2 ^ 32)
  else if 0x10000 ≤ o ∧ o < 0x12000 then some (s.tenant ((o - 0x10000) / 8)).word.toNat
  else if 0x20000 ≤ o ∧ o < 0x21000 then some (field (PartDesc.raw (s.part ((o - 0x20000) / 64)).desc) (o % 64 * 8) 64)
  else if 0x30000 ≤ o ∧ o < 0x30280 then some (s.errs.get 0 (16 * ((o - 0x30000) / 128) + o % 128 / 8))
  else if 0x40000 ≤ o ∧ o < 0x60000 then some ((s.tenant ((o - 0x40000) / 128)).errs.get 0 (o % 128 / 8))
  else if 0x60000 ≤ o ∧ o < 0x80000 then some (field (ErrRec.raw (s.ring.get {} ((o - 0x60000) / 32))) (o % 32 * 8) 64)
  else none

/-- `n` bytes of the block from an offset, if a rule gives them all. -/
def State.registerBytes (s : State) (o n : Nat) : Option (List Byte) :=
  (span o n).mapM (fun a => (s.register (a / 8 * 8)).map (fun w => BitVec.ofNat 8 (w / 2 ^ (a % 8 * 8))))

/-- A read of the management register block: only the physical function, whose number is one past the virtual functions', reaches it
(R23, R176, log 96). -/
def State.readBlock (s : State) (o n : Nat) : State :=
  match s.registerBytes o n with
  | some b => s.send (.hostData Config.functions b)
  | none => s.send (.hostUnsupported Config.functions)

/-- `HOST_READ` (R126, R176): performed after every earlier access of the function. With no bytes, the mailbox engine goes on with
what it holds. Before stage 4 has completed a read is an unsupported request as a write is (R22, log 85). The physical function reads
the management register block, and no tenant's memory, once the host link has come up (R20). -/
def execHostRead (vf : Nat) (va : Word) (n : Nat) (ide : Bool) (ch : Choice) (s : State) : Out :=
  if vf = Config.functions then .next (if s.module.hostLink then s.readBlock va.toNat n else s)
  else if n = 0 then .next (if s.module.stage = 15 then s else s.drainHost vf ch)
  else if !s.mailboxTakes vf ide then .next (s.send (.hostUnsupported vf))
  else .next (s.mailIn vf [.read va n] ch)

end Sys2Proof.Machine
end

