-- ==== Sys2Proof/Machine/Firmware.lean ====
section
/-! DEFINITION. Fylen firmware's work on frames: allocation, page-in, table building, moves between tiers, and the changes of a
tenant's tables (R48, R156 to R159, R175, R187, R203). -/

namespace Sys2Proof.Machine

/-! ### Frames (R157) -/

/-- 64-byte lines of a number of bytes. -/
def linesIn (n : Nat) : Nat := (n + 63) / 64

/-- Lines of a tenant's frames in one tier. -/
def State.usedLines (s : State) (v : Nat) (second : Bool) : Nat :=
  ((s.frames.filter (fun f => f.vf == v && f.second == second)).map (·.len)).foldl (· + ·) 0

/-- Lines of a function's descriptor table: 4,096 descriptors of 256 bytes (R44). -/
def tableLines : Nat := 2 ^ 14

/-- A shared or retired frame lies in the second tier. -/
def State.inSecond (s : State) (a : Nat) : Bool := s.second.contains a

/-- Lines that are taken in one tier: by tenants' frames, shared frames, retired frames and descriptor tables. -/
def State.tierLines (s : State) (second : Bool) : Nat :=
  ((s.frames.filter (fun f => f.second == second)).map (·.len)).foldl (· + ·) 0
    + (s.shared.filter (fun r => s.inSecond r.1 == second)).foldl (fun n r => n + linesIn r.2.1) 0
    + (s.retired.filter (fun r => s.inSecond r.1 == second)).foldl (fun n r => n + linesIn r.2) 0
    + tableLines * (s.tenants.filter (fun e => e.2.tableBase.isSome && e.2.tableSecond == second)).length

/-- Lines that are lent, but for those of tenants' frames. -/
def State.lentLines (s : State) : Nat :=
  (s.leases.filter (fun e => e.2.st != .free && e.2.peer.isNone)).foldl (fun n e => n + 64 * e.2.len) 0

/-- Lines of a tier that are still there: without those of fenced channels (R15, R186, R202). -/
def State.tierCap (s : State) (second : Bool) : Nat :=
  Config.tierLines second - (if second then 0 else (s.channels.filter (fun c => c.2.fenced)).foldl (fun n c => n + Config.channelLines c.1) 0)

/-- The device has room for some lines, of a tier where it is known: in the tier, and in both together with what is lent (R15, log 110). -/
def State.deviceRoom (s : State) (second : Option Bool) (lines : Nat) : Bool :=
  second.all (fun t => decide (s.tierLines t + lines ≤ s.tierCap t))
    && decide (s.tierLines false + s.tierLines true + s.lentLines + lines ≤ s.tierCap false + s.tierCap true)

/-- A tenant's allotment in one tier, and the tier, have room for some lines. -/
def State.tierRoom (s : State) (v : Nat) (second : Bool) (lines : Nat) : Bool :=
  let t := s.tenant v
  decide (s.usedLines v second + lines ≤ if second then t.secondAllot else t.mainAllot) && s.deviceRoom (some second) lines

/-- Whether PLACE puts the page in the second tier by itself (R157). -/
def placeSecond (place page : Nat) : Bool := place == 1 || (place == 2 && page % 2 == 1)

/-- Two ranges of bytes meet. -/
def meets (a n b m : Nat) : Bool := decide (a < b + m) && decide (b < a + n)

/-- A range of device memory that nothing holds: no frame of a tenant or of a shared domain, no retired frame, no lent range, no
descriptor table. -/
def State.rangeFree (s : State) (a n : Nat) : Bool :=
  decide (a + n ≤ Config.physBytes) && s.frames.all (fun f => !meets a n f.addr (64 * f.len))
    && s.shared.all (fun r => !meets a n r.1 r.2.1) && s.retired.all (fun r => !meets a n r.1 r.2)
    && s.leases.all (fun e => e.2.st == .free || !meets a n (4096 * e.2.base) (4096 * e.2.len))
    && s.tenants.all (fun e => e.2.tableBase.all (fun b => !meets a n b (2 ^ 20)))

/-- No counter block of a range is shared with another key domain (R185). -/
def State.blockApart (s : State) (d a n : Nat) : Bool :=
  let b := a / 2048 * 2048
  let m := (a + n + 2047) / 2048 * 2048 - b
  s.frames.all (fun f => f.vf + 1 == d || !meets b m f.addr (64 * f.len))
    && s.shared.all (fun r => 1025 + r.2.2 == d || !meets b m r.1 r.2.1)
    && s.leases.all (fun e => e.2.st == .free || (e.2.peer.map (· + 1)).getD (1041 + e.1) == d
        || !meets b m (4096 * e.2.base) (4096 * e.2.len))
    && s.tenants.all (fun e => d == 0 || e.2.tableBase.all (fun x => !meets b m x (2 ^ 20)))

/-- No main-tier line of a range lies on a fenced channel, whose capacity is gone (R202). -/
def State.offFenced (s : State) (a n : Nat) (second : Bool) : Bool :=
  second || s.channels.all (fun c => !c.2.fenced || (List.range (linesIn n)).all (fun i => Config.channelOf (a / 64 + i) != c.1))

/-- A range that a frame of a key domain may take, and that can be written under it now (R206). -/
def State.frameFree (s : State) (d : Nat) (g : FrameGrant) (bytes align : Nat) : Bool :=
  g.addr % align == 0 && s.rangeFree g.addr bytes && s.blockApart d g.addr bytes && s.offFenced g.addr bytes g.second
    && (s.counters.isEmpty || !(List.range (linesIn bytes)).any (fun i => s.waitsUnder d (g.addr + 64 * i)))

/-- A frame firmware may take for a tenant: aligned, free, and in the tier that the placement gives while it has room, else in the
other (R157). -/
def State.grantOk (s : State) (v : Nat) (g : FrameGrant) (bytes align : Nat) (second : Bool) : Bool :=
  s.frameFree (v + 1) g bytes align &&
    (if s.tierRoom v second (linesIn bytes) then g.second == second
     else g.second == !second && s.tierRoom v (!second) (linesIn bytes))

/-- Neither tier has room (R157). -/
def State.noRoom (s : State) (v bytes : Nat) : Bool :=
  !s.tierRoom v false (linesIn bytes) && !s.tierRoom v true (linesIn bytes)

/-- The frame is the tenant's. -/
def State.takeFrame (s : State) (v : Nat) (g : FrameGrant) (bytes : Nat) : State :=
  { s with frames := s.frames ++ [⟨g.addr, linesIn bytes, v, g.second, false⟩] }

/-- The frame is the tenant's, for a translation table or a PFR. -/
def State.takeTable (s : State) (v : Nat) (g : FrameGrant) (bytes : Nat) : State :=
  { s with frames := s.frames ++ [⟨g.addr, linesIn bytes, v, g.second, true⟩] }

/-- The memory-side cache holds no dirty sector of a range. -/
def State.cleanRange (s : State) (a n : Nat) : State :=
  { s with cache := s.cache.map (fun (l : CacheLine) =>
      { l with dirty := l.dirty.filter (fun i => decide (l.addr + 64 * i < a) || decide (a + n ≤ l.addr + 64 * i)) }) }

/-- A place lies in a retired frame. -/
def State.isRetired (s : State) (a : Nat) : Bool := s.retired.any (fun r => decide (r.1 ≤ a) && decide (a < r.1 + r.2))

/-- A range of device memory is written as zero: nothing of it is listed, none of its lines is bad but those of retired frames, which stay
so (R203), and each is written once. -/
def State.zeroRange (s : State) (a n : Nat) : State :=
  let out (x : Nat) : Bool := decide (x < a) || decide (a + n ≤ x)
  let s1 : State := { s.cleanRange a n with
    mem := s.mem.filter (fun e => out e.1),
    badLines := s.badLines.filter (fun l => out (64 * l) || s.isRetired (64 * l)),
    log := s.log.map (fun (e : WEntry) => { e with cells := e.cells.filter (fun x => out x.1) }) }
  s1.bumpLines ((List.range (linesIn n)).map (fun i => a + 64 * i))

/-- A frame is zero but for the bytes given. -/
def State.fillFrame (s : State) (a n : Nat) (data : List Byte) : State :=
  (s.zeroRange a n).writeDevice (cellsFrom a (data.take n))

/-! ### Parked accesses go on (R156) -/

/-- Accesses parked on a page of 2^sz positions. -/
def onPage (vf : Nat) (va : Word) (sz : Nat) (p : Park) : Bool := p.vf == vf && p.va.toNat / 2 ^ sz == va.toNat / 2 ^ sz

/-- The entry has changed: what was parked on its page is treated afresh, the host's accesses at once (R156, R176). -/
def State.freeParks (s : State) (vf : Nat) (va : Word) (sz : Nat) : State :=
  ({ s with parks := s.parks.filter (fun p => !onPage vf va sz p) } : State).drainHost vf {}

/-- Tables have been built: what was parked under the table entry, in any plane, is treated afresh (R48). -/
def State.freeUnder (s : State) (vf : Nat) (va : Word) (sz : Nat) : State :=
  ({ s with parks := s.parks.filter (fun p =>
      !(p.vf == vf && vaConst p.va == vaConst va && vaPos p.va / 2 ^ sz == vaPos va / 2 ^ sz)) } : State).drainHost vf {}

/-- Firmware found no frame: what is parked on the page becomes a copy fault when it is next treated. -/
def State.denyParks (s : State) (vf : Nat) (va : Word) (sz : Nat) : State :=
  ({ s with parks := s.parks.map (fun (p : Park) => if onPage vf va sz p then { p with out := true } else p) } : State).drainHost
    vf {}

/-- Some access, or some write, is parked on the page. -/
def State.parkedOn (s : State) (vf : Nat) (va : Word) (sz : Nat) (write : Bool) : Bool :=
  s.parks.any (fun p => onPage vf va sz p && (p.write || !write))

/-- Firmware's write of the plane entry of an address waits (R206). -/
def State.entryWaits (s : State) (vf : Nat) (va : Word) : Bool :=
  match s.entryAddr vf va with
  | some a => s.mustWait a
  | none => false

/-- Firmware writes a plane entry. -/
def State.setEntry (s : State) (vf : Nat) (va : Word) (e : Nat) : State :=
  match s.entryAddr vf va with
  | some a => s.writeTable a 8 e
  | none => s

/-- The plane entry of an address and its page size, where the walk reaches one. -/
def State.entryOf (s : State) (vf : Nat) (va : Word) : Option (Nat × Nat) :=
  match s.walk vf va with
  | .leaf pfr sz => some (s.imageNat (pfr + 8 * vaPlane va) 8, sz)
  | _ => none

/-- RESIDENT in a tier, with the frame at a byte address; WR, SK and ACC are kept. -/
def resident (e : Nat) (g : FrameGrant) : Nat := reState e (if g.second then 2 else 1) (g.addr / 64)

/-- A page of 2^sz positions is being moved (R159). -/
def State.movingPage (s : State) (vf : Nat) (va : Word) (sz : Nat) : Bool :=
  s.moves.any (fun m => onPage m.vf m.va sz { core := none, vf := vf, va := va, write := false })

/-- `FRAME_ALLOCATE` (R156, R157): a frame for a write parked on an ABSENT entry, written as zero; or none, where neither tier has
room. An entry with SK gets none (R187). -/
def execFrameAllocate (vf : Nat) (va : Word) (frame : Option FrameGrant) (s : State) : Out :=
  match s.entryOf vf va with
  | none => .next s
  | some (e, sz) =>
    let d := s.planeDesc vf va
    let n := d.frameBytes sz
    if peState e ≠ 0 ∨ peSk e ∨ s.entryWaits vf va ∨ !s.parkedOn vf va sz true then .next s
    else
      match frame with
      | none => if s.noRoom vf n then .next (s.denyParks vf va sz) else .next s
      | some g =>
        if s.grantOk vf g n 64 (placeSecond d.place (vaPos va / 2 ^ sz)) then
          .next ((((s.takeFrame vf g n).zeroRange g.addr n).setEntry vf va (resident e g)).freeParks vf va sz)
        else .next s

/-- `PAGE_IN` (R156, R157): the frame of a PAGED entry, with the bytes of its elements from the host's backing; the bytes beyond
them are zero (R51). -/
def execPageIn (vf : Nat) (va : Word) (frame : Option FrameGrant) (data : List Byte) (s : State) : Out :=
  match s.entryOf vf va with
  | none => .next s
  | some (e, sz) =>
    let d := s.planeDesc vf va
    let n := d.frameBytes sz
    if peState e ≠ 4 ∨ peSk e ∨ s.entryWaits vf va ∨ s.movingPage vf va sz ∨ !s.parkedOn vf va sz false then .next s
    else
      match frame with
      | none => if s.noRoom vf n then .next (s.denyParks vf va sz) else .next s
      | some g =>
        if s.grantOk vf g n 64 (placeSecond d.place (vaPos va / 2 ^ sz)) then
          .next ((((s.takeFrame vf g n).fillFrame g.addr n (data.take (d.pageBytes sz))).setEntry vf va (resident e g)).freeParks
            vf va sz)
        else .next s

/-! ### Building tables (R48) -/

/-- Where a walk meets KIND 00: the table entry's address and its level above the lowest. -/
def State.missingAt (s : State) (pos : Nat) : Nat → Nat → Option (Nat × Nat)
  | levels, table =>
    let a := table + 8 * field pos (12 + 9 * levels) 9
    let e := s.imageNat a 8
    if field e 62 2 = 0 then some (a, levels)
    else
      match levels with
      | 0 => none
      | l + 1 => if field e 62 2 = 1 then State.missingAt s pos l (field e 0 48 * 4096) else none

/-- A next-table entry, and a leaf of 2^12 positions (R47). -/
def nextEntry (table : Nat) : Nat := 2 ^ 62 + table / 4096
/-- The leaf. -/
def leafEntry (pfr : Nat) : Nat := 2 ^ 63 + pfr / 128

/-- Link a chain of new tables below a table entry, down to the PFR. -/
def State.linkTables (s : State) (v pos : Nat) : Nat → Nat → List FrameGrant → State
  | 0, a, g :: _ => (((s.takeTable v g 128).zeroRange g.addr 128).writeTable a 8 (leafEntry g.addr))
  | l + 1, a, g :: r =>
    State.linkTables (((s.takeTable v g 4096).zeroRange g.addr 4096).writeTable a 8 (nextEntry g.addr)) v pos l
      (g.addr + 8 * field pos (12 + 9 * l) 9) r
  | _, _, [] => s

/-- The PFR of a new page: for every plane the state its BACK gives, WR 1, SK 0, ACC 0. -/
def State.fillPfr (s : State) (v : Nat) (va : Word) (pfr : Nat) : State :=
  (List.range 16).foldl (fun s p =>
    let pa : Word := BitVec.ofNat 64 (p * 2 ^ 60 + vaConst va * 2 ^ 48 + vaPos va)
    s.writeTable (pfr + 8 * p) 8
      (if (s.planeDesc v pa).back then mkEntry 4 true false 0 (Config.backing v pa.toNat) else mkEntry 0 true false 0 0)) s

/-- Tables that firmware may take, one after another: 4 KiB each, the last one the PFR, placed as PLACE 00. -/
def State.tableGrants (s : State) (v : Nat) : List FrameGrant → Bool
  | [] => true
  | [g] => s.grantOk v g 128 128 false
  | g :: r => s.grantOk v g 4096 4096 false && State.tableGrants (s.takeTable v g 4096) v r

/-- Whether some run of tables fits the allotments, taken main tier first. -/
def State.tablesFit (s : State) (v : Nat) : List Nat → Bool
  | [] => true
  | n :: r =>
    if s.tierRoom v false (linesIn n) then State.tablesFit (s.takeTable v ⟨0, false⟩ n) v r
    else if s.tierRoom v true (linesIn n) then State.tablesFit (s.takeTable v ⟨0, true⟩ n) v r
    else false

/-- `TABLE_BUILD` (R48, R157): the tables from the KIND 00 entry down to a leaf of 2^12 positions and its PFR. -/
def execTableBuild (vf : Nat) (va : Word) (tables : Option (List FrameGrant)) (s : State) : Out :=
  match s.missingAt (vaPos va) 3 (s.descRoot vf va) with
  | none => .next s
  | some (a, l) =>
    if !s.parkedOn vf va 12 true || s.mustWait a || (s.tenant vf).tableBase.isNone then .next s
    else
      match tables with
      | none =>
        if s.tablesFit vf (List.replicate l 4096 ++ [128]) then .next s else .next (s.denyParks vf va 12)
      | some gs =>
        if gs.length = l + 1 ∧ s.tableGrants vf gs then
          let s1 := s.linkTables vf (vaPos va) l a gs
          .next ((s1.fillPfr vf va ((gs.getLastD ⟨0, false⟩).addr)).freeUnder vf va (12 + 9 * l))
        else .next s

/-! ### Moves (R159) -/

/-- An operation of a context has an access under way: through the page, or as an engine's command. -/
def Op.onWay (o : Op) (va : Word) (sz : Nat) : Bool :=
  o.st != .done && o.underWay
    && (isEngine o.code || o.y.toNat / 2 ^ sz == va.toNat / 2 ^ sz || o.z.toNat / 2 ^ sz == va.toNat / 2 ^ sz)

/-- Some of the requests have no answer. -/
def anyOpen (fs : List Fwd) : Bool := fs.any (fun f => f.ans == .none)

/-- An access to the code image by an operation or a fetch of a core may be to the page. -/
def State.imageOnWay (s : State) (k : Core) (va : Word) : Bool :=
  samePlane (s.teamAt k.team).image va && (k.allOps.any (fun o => o.readsImage && o.underWay) || anyOpen k.fetchLines)

/-- Every access of the tenant that used the entry has performed (R159 step 3). An access that is made in one step is checked in that
step; one that is made in parts, or has gone to another device, is under way. What a home device has refused is not (R163). -/
def State.quietPage (s : State) (vf : Nat) (va : Word) (sz : Nat) : Bool :=
  !anyOpen (s.tenant vf).lines && s.cores.all (fun e => (s.teamOf e.1).vf != vf
    || (!s.imageOnWay e.2 va && e.2.allOps.all (fun o => !o.onWay va sz)))

/-- A location of one range as the same place of another. -/
def relocate (a b n x : Nat) : Nat := if a ≤ x ∧ x < a + n then b + (x - a) else x

/-- The frame's contents are the new frame's (R159): every byte, the writes that are not performed everywhere yet, what contexts have
read of them, and what the machine holds by the place of a barrier (R313) or of the fault area (R258). A line that is lost stays lost
(R204). -/
def State.copyFrame (s : State) (a b n : Nat) : State :=
  let old := s.mem.filter (fun e => decide (a ≤ e.1) && decide (e.1 < a + n))
  let s1 := (s.zeroRange b n).cleanRange a n
  { s1 with
    badLines := s1.badLines ++ (s.badLines.filter (fun l => decide (a ≤ 64 * l) && decide (64 * l < a + n))).map
      (fun l => relocate a b n (64 * l) / 64),
    mem := s1.mem.writeAll (old.map (fun e => (relocate a b n e.1, e.2))),
    log := s1.log.map (fun (e : WEntry) => { e with cells := e.cells.map (fun x => (relocate a b n x.1, x.2)) }),
    joins := s1.joins.map (fun (j : HeldJoin) => { j with base := relocate a b n j.base }),
    tjoin := Tab.setAll [] (s1.tjoin.map (fun e => (relocate a b n e.1, e.2))),
    tenants := s1.tenants.map (fun e => (e.1, { e.2 with faultBase := e.2.faultBase.map (relocate a b n) })),
    cores := s1.cores.map (fun e =>
      let f (k : Ctx) : Ctx := { k with seen := k.seen.map (fun x => (relocate a b n x.1, x.2)) }
      (e.1, { e.2 with ctl := f e.2.ctl, ld := f e.2.ld, cmp := f e.2.cmp, st := f e.2.st, biv := f e.2.biv })) }

/-- A frame returns to the free pool (R157). -/
def State.freeFrame (s : State) (a : Nat) : State := { s with frames := s.frames.filter (fun f => f.addr != a) }

/-- A frame belongs to a shared domain. -/
def State.takeShared (s : State) (g : FrameGrant) (n domain : Nat) : State :=
  { s with shared := s.shared ++ [(g.addr, n, domain)], second := if g.second then s.second ++ [g.addr] else s.second }

/-- The shared domain recorded for the frame of an entry with SK. -/
def State.sharedOf (s : State) (e : Nat) : Option Nat :=
  if peSk e then (s.shared.find? (fun x => x.1 == field e 0 48 * 64)).map (fun x => x.2.2) else none

/-- Where a moved frame is accounted: the tenant's allotment, or the shared key domain of the old frame (R157, R185). -/
def State.keepFrame (s : State) (m : Move) (g : FrameGrant) (n : Nat) : State :=
  match s.sharedOf m.old.toNat with
  | some d => s.takeShared g n d
  | none => s.takeFrame m.vf g n

/-- The lease that an entry names is being ended: its borrow-table entry, if that is no longer ACTIVE. -/
def State.endingLease (s : State) (e : Nat) : Option Borrow :=
  if peState e = 3 then s.borrows.find? (fun b => b.lender == field e 42 11 && b.lease == field e 34 8 && b.st != .active) else none

/-- A page that leaves a lease which is being ended has its constellation kept for the event of R164. -/
def State.noteMoved (s : State) (m : Move) : State :=
  match s.endingLease m.old.toNat with
  | some b =>
    { s with borrows := s.borrows.map (fun (x : Borrow) =>
        if x.lender = b.lender ∧ x.lease = b.lease then { x with moved := (x.moved ++ [(m.vf, vaConst m.va)]).dedup } else x) }
  | none => s

/-- Steps 3 to 5 of a move: the old frame's bytes, or those copied from the lender, stand in the new frame, and the entry names
it. -/
def State.finishMove (s : State) (m : Move) (sz : Nat) (g : FrameGrant) (data : List Byte) : State :=
  let d := s.planeDesc m.vf m.va
  let n := d.frameBytes sz
  let old := field m.old.toNat 0 48 * 64
  let s0 := s.keepFrame m g n
  let s1 := if peState m.old.toNat = 3 then s0.fillFrame g.addr n (data.take (d.pageBytes sz))
            else (s0.copyFrame old g.addr n).freeFrame old
  let s2 := (s1.setEntry m.vf m.va (resident m.old.toNat g)).noteMoved m
  { s2.freeParks m.vf m.va sz with moves := s2.moves.filter (· != m) }

/-- A frame that a move may take: of the tier that firmware chooses, or, of a page that leaves a lease which is being ended, second tier
first, while the lender still has the data (R159, R164). A shared frame stays in its domain (R185). -/
def State.moveOk (s : State) (m : Move) (g : FrameGrant) (n : Nat) : Bool :=
  match s.sharedOf m.old.toNat with
  | some d => s.frameFree (1025 + d) g n 64 && s.deviceRoom (some g.second) (linesIn n)
  | none =>
    match s.endingLease m.old.toNat with
    | some b => b.st != .revoked && s.grantOk m.vf g n 64 true
    | none => s.frameFree (m.vf + 1) g n 64 && s.tierRoom m.vf g.second (linesIn n)

/-- A range meets no lent range. -/
def State.notLent (s : State) (a n : Nat) : Bool :=
  s.leases.all (fun l => l.2.st == .free || !meets a n (4096 * l.2.base) (4096 * l.2.len))

/-- `FRAME_MOVE` (R159): with no frame named, steps 1 and 2: the entry of a resident or lent page becomes PAGED, WR and SK kept. A frame
that is lent in place stays (log 101). With one, steps 3 to 5. -/
def execFrameMove (vf : Nat) (va : Word) (fin : Option FrameGrant) (data : List Byte) (s : State) : Out :=
  match s.entryOf vf va with
  | none => .next s
  | some (e, sz) =>
    match fin with
    | none =>
      if s.entryWaits vf va then .next s
      else if ((peState e = 1 ∨ peState e = 2) ∧ s.notLent (field e 0 48 * 64) ((s.planeDesc vf va).frameBytes sz)) ∨ peState e = 3 then
        .next (({ s with moves := s.moves ++ [⟨vf, va, BitVec.ofNat 64 e⟩] } : State).setEntry vf va (reState e 4 (peFrame e)))
      else .next s
    | some g =>
      match s.moves.find? (fun m => m.vf == vf && m.va == va) with
      | none => .next s
      | some m =>
        if peState e = 4 ∧ !s.entryWaits vf va ∧ s.quietPage vf va sz ∧ s.moveOk m g ((s.planeDesc vf va).frameBytes sz) then
          .next (s.finishMove m sz g data)
        else .next s

/-! ### Changes of a tenant's tables (R175, R187) -/

/-- The place of a function's descriptor table meets no other function's (R175). -/
def State.tableApart (s : State) (vf addr : Nat) : Bool :=
  s.tenants.all (fun e => e.1 == vf || e.2.tableBase.all (fun b => !meets addr (2 ^ 20) b (2 ^ 20)))

/-- A descriptor that firmware writes is not valid, or its root is a table of the tenant's own (R175). Reserved bytes and flags are taken
as they are and mean nothing (R44, log 105). -/
def State.descAllowed (s : State) (vf : Nat) (bytes : List Byte) : Bool :=
  !bitAt (leAt bytes 10 2) 0 || s.ownRange vf (leAt bytes 16 8 * 4096) 4096 true

/-- Where the table entry of an address lies that is some levels above the lowest. -/
def State.tableSlot (s : State) (pos level : Nat) : Nat → Nat → Option Nat
  | levels, table =>
    let a := table + 8 * field pos (12 + 9 * levels) 9
    if levels ≤ level then some a
    else
      match levels with
      | 0 => none
      | l + 1 =>
        let e := s.imageNat a 8
        if field e 62 2 = 1 then State.tableSlot s pos level l (field e 0 48 * 4096) else none

/-- A table entry that firmware writes names no table, or a table or PFR of the tenant's own (R175). -/
def State.linkAllowed (s : State) (vf e : Nat) : Bool :=
  field e 62 2 == 0 || (field e 62 2 == 1 && s.ownRange vf (field e 0 48 * 4096) 4096 true)
    || (field e 62 2 == 2 && s.ownRange vf (field e 0 48 * 128) 128 true)

/-- The frame of a RESIDENT entry, in the tier its state says. -/
def entryFrame (e : Nat) : FrameGrant := ⟨field e 0 48 * 64, peState e == 2⟩

/-- A plane entry that firmware may write over another: a POISONED one only becomes ABSENT (R203); one with SK is RESIDENT, with WR 0, a
frame of a shared domain, and a tenant that holds it (R187); a REMOTE entry names a frame within the range of a lease that this device
holds (R162, R163), one of a tenant's frames only in the function that bears its FTID (R324, log 101); and any other RESIDENT entry, a
data frame of the tenant's own, or a free frame. -/
def State.entryAllowed (s : State) (vf old e n : Nat) : Bool :=
  let a := field e 0 48 * 64
  (peState old != 5 || peState e == 0) &&
    (if peSk e then
      (peState e == 1 || peState e == 2) && !peWr e
        && s.shared.any (fun x => x.1 == a && decide (n ≤ x.2.1) && bitAt (s.tenant vf).shmask x.2.2)
    else if peState e = 1 ∨ peState e = 2 then s.ownRange vf a n false || s.grantOk vf (entryFrame e) n 64 (peState e == 2)
    else if peState e = 3 then
      s.borrows.any (fun b => b.lender == field e 42 11 && b.lease == field e 34 8 && b.st == .active
        && (b.ftid == 0 || b.ftid == (s.tenant vf).ftid)
        && decide (4096 * b.base ≤ field e 0 34 * 256) && decide (field e 0 34 * 256 + n ≤ 4096 * (b.base + b.len)))
    else true)

/-- A free frame that a RESIDENT entry names is the tenant's, and zero before the tenant can read it (R183). -/
def State.ownFrame (s : State) (vf e n : Nat) : State :=
  if (peState e = 1 ∨ peState e = 2) ∧ !peSk e ∧ !s.ownRange vf (field e 0 48 * 64) n false then
    (s.takeFrame vf (entryFrame e) n).zeroRange (field e 0 48 * 64) n
  else s

/-- `TENANT_TABLE_CHANGE` (R44, R175, R185, R187, R203, R258): the place of a descriptor table, a descriptor, a table's frame, a table
entry, a plane entry, a shared frame, filled before any tenant maps it, or a fault area. No cache of translations is kept apart from
the tables, so none is left to invalidate. Firmware ends the move of a page before it writes the page's entry. A write that finds the
counters of its line spent waits (R206). -/
def execTenantTableChange (vf : Nat) (ch : TableChange) (s : State) : Out :=
  match ch with
  | .base g =>
    if s.frameFree 0 g (2 ^ 20) 64 ∧ s.deviceRoom (some g.second) tableLines then
      .next ((s.zeroRange g.addr (2 ^ 20)).setTenant vf { s.tenant vf with tableBase := some g.addr, tableSecond := g.second })
    else .next s
  | .descriptor index bytes =>
    match (s.tenant vf).tableBase with
    | none => .next s
    | some b =>
      if index < 4096 ∧ bytes.length = 256 ∧ s.descAllowed vf bytes ∧ !s.rangeWaits (b + 256 * index) 256 then
        .next (s.writeDevice (cellsFrom (b + 256 * index) bytes))
      else .next s
  | .grant g pfr =>
    let n := if pfr then 128 else 4096
    if s.grantOk vf g n n false then .next ((s.takeTable vf g n).zeroRange g.addr n) else .next s
  | .table va level e =>
    match s.tableSlot (vaPos va) level 3 (s.descRoot vf va) with
    | some a =>
      if s.descValid vf va ∧ s.linkAllowed vf e.toNat ∧ !s.mustWait a then
        .next ((s.writeTable a 8 e.toNat).freeUnder vf va (12 + 9 * level))
      else .next s
    | none => .next s
  | .entry va pe =>
    match s.entryOf vf va with
    | none => .next s
    | some (e, sz) =>
      let n := (s.planeDesc vf va).frameBytes sz
      if s.entryAllowed vf e pe.toNat n ∧ !s.movingPage vf va sz ∧ !s.entryWaits vf va then
        let s1 := if field e 0 48 = field pe.toNat 0 48 then s else s.returnFrame vf e
        .next (((s1.ownFrame vf pe.toNat n).setEntry vf va pe.toNat).freeParks vf va sz)
      else .next s
  | .share g d bytes =>
    if d < 16 ∧ s.frameFree (1025 + d) g bytes.length 64 ∧ s.deviceRoom (some g.second) (linesIn bytes.length) then
      .next ((s.takeShared g (64 * linesIn bytes.length) d).fillFrame g.addr (64 * linesIn bytes.length) bytes)
    else .next s
  | .faultArea va base =>
    if s.ownRange vf base 65536 false then
      .next (s.setTenant vf { s.tenant vf with faultArea := va, faultBase := some base, faultSlot := 0 })
    else .next s

/-! ### Poisoned frames (R202, R203) -/

/-- The leaves below a table, `levels` levels above the lowest, whose first position is `pos`: each PFR with its page size and
the position of the leaf (R47). -/
def State.leavesUnder (s : State) : Nat → Nat → Nat → List (Nat × Nat × Nat)
  | levels, table, pos =>
    (List.range 512).flatMap (fun i =>
      let e := s.imageNat (table + 8 * i) 8
      let p := pos + i * 2 ^ (12 + 9 * levels)
      if field e 62 2 = 2 then [(field e 0 48 * 128, 12 + 2 * field e 59 3, p)]
      else if field e 62 2 = 1 then
        (match levels with
          | 0 => []
          | l + 1 => State.leavesUnder s l (field e 0 48 * 4096) p)
      else [])

/-- Each PFR once, with the first leaf that names it. -/
def firstLeaves : List (Nat × Nat × Nat) → List Nat → List (Nat × Nat × Nat)
  | [], _ => []
  | x :: r, seen => if seen.contains x.1 then firstLeaves r seen else x :: firstLeaves r (x.1 :: seen)

/-- A plane entry of a tenant: where it lies, its value, the plane address of its page, and its frame's bytes. -/
structure EntryAt where
  vf    : Nat
  at_   : Nat
  e     : Nat
  va    : Word
  sz    : Nat
  bytes : Nat
  deriving DecidableEq, Repr

/-- The plane entries of one tenant's constellation. -/
def State.entriesIn (s : State) (v c : Nat) : List EntryAt :=
  let va : Word := BitVec.ofNat 64 (c * 2 ^ 48)
  if s.descValid v va then
    (firstLeaves (s.leavesUnder 3 (s.descRoot v va) 0) []).flatMap (fun l => (List.range 16).map (fun p =>
      let pa : Word := BitVec.ofNat 64 (p * 2 ^ 60 + c * 2 ^ 48 + l.2.2)
      ⟨v, l.1 + 8 * p, s.imageNat (l.1 + 8 * p) 8, pa, l.2.1, (s.planeDesc v pa).frameBytes l.2.1⟩))
  else []

/-- The plane entries of a tenant. -/
def State.entriesOf (s : State) (v : Nat) : List EntryAt := (List.range 4096).flatMap (s.entriesIn v)

/-- The plane entries of every tenant. -/
def State.allEntries (s : State) : List EntryAt := s.tenants.flatMap (fun e => s.entriesOf e.1)

/-- Entries become POISONED, WR, SK and ACC kept. What was parked on them is treated afresh and faults (R156). -/
def State.poison (s : State) : List EntryAt → State
  | [] => s
  | x :: r => State.poison (s.writeTable x.at_ 8 (reState x.e 5 (peFrame x.e))) r

/-- The entry holds a frame of this device, or only of the main tier, in which a test holds of some line. -/
def EntryAt.holds (x : EntryAt) (main : Bool) (test : Nat → Bool) : Bool :=
  (peState x.e == 1 || (peState x.e == 2 && !main)) &&
    (List.range (linesIn x.bytes)).any (fun i => test (field x.e 0 48 * 64 + 64 * i))

/-- The entries of pages whose move has begun, each as it stood (R159). -/
def State.movingEntries (s : State) : List EntryAt :=
  s.moves.filterMap (fun m =>
    match s.entryAddr m.vf m.va, s.entryOf m.vf m.va with
    | some a, some (_, sz) => some ⟨m.vf, a, m.old.toNat, m.va, sz, (s.planeDesc m.vf m.va).frameBytes sz⟩
    | _, _ => none)

/-- The entries, in every tenant, whose frame has a line that a test names, those of frames that are being moved among them. -/
def State.entriesWith (s : State) (main : Bool) (test : Nat → Bool) : List EntryAt :=
  (s.allEntries ++ s.movingEntries).filter (fun x => x.holds main test)

/-- Ranges that have a line that a test names: each its first byte, its bytes and its tier. -/
def withLine (test : Nat → Bool) (rs : List (Nat × Nat × Bool)) : List (Nat × Nat × Bool) :=
  rs.filter (fun r => (List.range (linesIn r.2.1)).any (fun i => test (r.1 + 64 * i)))

/-- Frames that no plane entry need name: those of tenants, tables among them, shared frames, descriptor tables, and the 4 KiB units of
ranges that are lent (R203, R212, log 111). -/
def State.heldFrames (s : State) : List (Nat × Nat × Bool) :=
  s.frames.map (fun f => (f.addr, 64 * f.len, f.second)) ++ s.shared.map (fun x => (x.1, x.2.1, s.inSecond x.1))
    ++ s.tenants.filterMap (fun e => e.2.tableBase.map (fun b => (b, 2 ^ 20, e.2.tableSecond)))
    ++ (s.leases.filter (fun l => l.2.st != .free && l.2.peer.isNone)).flatMap (fun l =>
      (List.range l.2.len).map (fun i => (4096 * (l.2.base + i), 4096, Config.lentSecond l.2.base)))

/-- Frames are retired, and the hypervisor is told (R203). A shared frame's domain stays recorded, as its entries are. -/
def State.retire (s : State) (fs : List (Nat × Nat × Bool)) : State :=
  { s with
    retired := (s.retired ++ fs.map (fun f => (f.1, f.2.1))).dedup,
    second := (s.second ++ (fs.filter (fun f => f.2.2)).map (·.1)).dedup,
    frames := s.frames.filter (fun f => !fs.any (fun x => x.1 == f.addr)),
    out := s.out ++ fs.map (fun f => .frameRetired f.1) }

/-- Some entry that would be poisoned cannot be written yet (R206). -/
def State.poisonWaits (s : State) (main : Bool) (test : Nat → Bool) : Bool :=
  !s.counters.isEmpty && (s.entriesWith main test).any (fun x => s.mustWait x.at_)

/-- Fylen firmware poisons the entries whose frame has a line that a test names, retires the frames, those that no entry names among them,
and tells the hypervisor (R202, R203). -/
def State.poisonWhere (s : State) (main : Bool) (test : Nat → Bool) : State :=
  let xs := s.entriesWith main test
  let named := (xs.map (fun x => (field x.e 0 48 * 64, x.bytes, peState x.e == 2))).dedup
  let fs := named ++ (withLine test (s.heldFrames.filter (fun r => !(main && r.2.2)))).filter (fun r =>
    !named.any (fun x => x.1 == r.1) && !s.retired.any (fun x => x.1 == r.1))
  let hit (vf : Nat) (va : Word) : Bool :=
    xs.any (fun x => onPage x.vf x.va x.sz { core := none, vf := vf, va := va, write := false })
  let s0 : State := { s.poison xs with parks := s.parks.filter (fun p => !hit p.vf p.va), moves := s.moves.filter (fun m => !hit m.vf m.va) }
  let s1 := ((xs.map (·.vf)).dedup).foldl (fun s v => s.drainHost v {}) s0
  s1.retire fs

end Sys2Proof.Machine
end

