-- ==== Sys2Proof/Machine/Lease.lean ====
section
/-! DEFINITION. Leases, as lender and as borrower, and requests of the Avdex fabric (R160 to R165, R190, R191, R209, R210, R212,
R334). -/

namespace Sys2Proof.Machine

/-! ### The lender's table (R162, R163) -/

/-- A lease's key domain (R185). -/
def leaseDomain (l : Nat) : Nat := 1041 + l

/-- A domain gets a fresh key: a version never made before (R206). -/
def State.makeKey (s : State) (d : Nat) : State :=
  let k := s.domains.get {} d
  { s with domains := s.domains.set d { newest := k.newest + 1, oldest := k.newest + 1, held := true } }

/-- A domain's keys are destroyed. -/
def State.destroyKeys (s : State) (d : Nat) : State :=
  { s with domains := s.domains.set d { s.domains.get {} d with held := false } }

/-- A lease changes state, and the time is kept (R162). -/
def State.moveLease (s : State) (l : Nat) (st : LeaseSt) : State :=
  s.setLease l { s.lease l with st := st, since := s.time }

/-- The domain that a lease's range is held under: the lease's own, or, of a range of a tenant's frames that is lent in place, the
tenant's (R185, R324, log 101). -/
def State.leaseKey (s : State) (l : Nat) : Nat := ((s.lease l).peer.map (· + 1)).getD (leaseDomain l)

/-- The lent range is written as zero (R163, R192). -/
def State.zeroLent (s : State) (l : Nat) : State := s.zeroRange (4096 * (s.lease l).base) (4096 * (s.lease l).len)

/-- A lease's range has to be written as zero under a domain, and cannot be yet (R206). -/
def State.lentWaits (s : State) (d l : Nat) : Bool :=
  !s.counters.isEmpty && (s.lease l).peer.isNone
    && (List.range (64 * (s.lease l).len)).any (fun i => s.waitsUnder d (4096 * (s.lease l).base + 64 * i))

/-- A lease returns to FREE: its keys are gone, and the range is the lender's again, written as zero before it is used again (R163,
R192). Frames of a tenant that were lent in place are the tenant's as before (log 101). -/
def State.freeLease (s : State) (l : Nat) : State :=
  let s1 := s.moveLease l .free
  if (s.lease l).peer.isSome then s1 else (s1.destroyKeys (leaseDomain l)).zeroLent l

/-- The tenant of which a range of 4 KiB blocks holds data frames and nothing else, and which may hold functions on other devices: its
frames can be lent in place (R324, R334, log 101). -/
def State.peerOf (s : State) (base len : Nat) : Option Nat :=
  (s.tenants.find? (fun e => e.2.ftid != 0
    && (List.range (64 * len)).all (fun i => s.ownRange e.1 (4096 * base + 64 * i) 64 false))).map (·.1)

/-- An entry is well formed (R162), its length within what R165 lets the lender offer, and its range holds nothing, and there is room for
it (R15, log 110), or it is one of a tenant's frames, which several leases may lend. -/
def State.offerOk (s : State) (borrower deadline base len : Nat) (reserved : Bool) : Bool :=
  !reserved && decide (borrower < 2048) && decide (100 ≤ deadline) && decide (deadline ≤ 10000) && decide (1 ≤ len)
    && decide (len ≤ 2 ^ 24) && decide (4096 * len * 1000 ≤ 64 * 2 ^ 20 * deadline) && decide (4096 * (base + len) ≤ Config.physBytes)
    && ((s.peerOf base len).isSome || (s.rangeFree (4096 * base) (4096 * len)
      && s.offFenced (4096 * base) (4096 * len) (Config.lentSecond base) && s.deviceRoom none (64 * len)))

/-! ### Messages of the lease protocol (R163, R190) -/

/-- A message to a device can leave, or never will: a step that sends one waits while the port's link retrains, and what a fenced port is
given is lost (R210, log 102). -/
def State.mayTell (s : State) (dev : Nat) : Bool := s.portUp (s.routeTo dev) || (s.port (s.routeTo dev)).fenced

/-- A message of the lease protocol leaves, under tag 0, which firmware's own traffic alone carries (R190). -/
def State.tell (s : State) (dev lease : Nat) (m : LeaseMsg) : State :=
  if s.portUp (s.routeTo dev) then s.send (.lease (s.routeTo dev) dev lease m) else s

/-- A message of a device arrives: by the port that leads to it, whose table permits tag 0 (R190, log 102). -/
def State.hears (s : State) (dev : Nat) : Bool := s.portUp (s.routeTo dev) && (s.port (s.routeTo dev)).permit.contains 0

/-! ### Offers, releases and reclaims (R163) -/

/-- `LEASE_OFFER` (R163, R165). -/
def execLeaseOffer (lease borrower deadline : Nat) (rdonly : Bool) (base len : Nat) (reserved : Bool) (s : State) : Out :=
  if lease < 256 ∧ (s.lease lease).st = .free ∧ s.offerOk borrower deadline base len reserved ∧ s.mayTell borrower then
    let peer := s.peerOf base len
    .next ((s.setLease lease ⟨.offered, borrower, deadline, rdonly, base, len, s.time, peer⟩).tell borrower lease
      (.offer deadline rdonly base len ((peer.map (fun v => (s.tenant v).ftid)).getD 0)))
  else .next s

/-- The borrow-table entry of a lease (R162). -/
def State.borrow (s : State) (lender lease : Nat) : Option Borrow :=
  s.borrows.find? (fun b => b.lender == lender && b.lease == lease)

/-- A borrowed lease is known to be in a state. -/
def State.setBorrow (s : State) (lender lease : Nat) (st : LeaseSt) : State :=
  { s with borrows := s.borrows.map (fun (b : Borrow) => if b.lender = lender ∧ b.lease = lease then { b with st := st } else b) }

/-- The borrow-table entry is freed. -/
def State.dropBorrow (s : State) (lender lease : Nat) : State :=
  { s with borrows := s.borrows.filter (fun b => !(b.lender == lender && b.lease == lease)) }

/-- A lease becomes ACTIVE, with a key of its own, under which its range is written as zero (log 87). Frames of a tenant that are lent in
place keep the tenant's key and what they hold (log 101). -/
def State.activate (s : State) (l : Nat) : State :=
  let s1 := s.moveLease l .active
  if (s.lease l).peer.isSome then s1 else (s1.makeKey (leaseDomain l)).zeroLent l

/-- `LEASE_ACCEPT` (R162, R163): at the lender the lease becomes ACTIVE; at the borrower an entry is taken with the range offered, or the
offer declined when all 256 are. -/
def execLeaseAccept (lender : Nat) (lent : Lent) (s : State) : Out :=
  let lease := lent.lease
  if lender = s.module.devId then
    if (s.lease lease).st = .offered ∧ s.hears (s.lease lease).borrower ∧ !s.lentWaits (leaseDomain lease) lease then
      .next (s.activate lease)
    else .next s
  else if (s.borrow lender lease).isSome ∨ !s.hears lender then .next s
  else if s.borrows.length < 256 then
    .next (({ s with borrows := s.borrows ++ [⟨lender, lease, .active, lent.base, lent.len, lent.ftid, []⟩] } : State).tell
      lender lease (.answer true))
  else .next (s.tell lender lease (.answer false))

/-- `LEASE_DECLINE` (R163). -/
def execLeaseDecline (lender lease : Nat) (s : State) : Out :=
  if lender = s.module.devId then
    if (s.lease lease).st = .offered ∧ s.hears (s.lease lease).borrower then .next (s.moveLease lease .free) else .next s
  else if (s.borrow lender lease).isSome ∨ !s.hears lender then .next s
  else .next (s.tell lender lease (.answer false))

/-- `LEASE_OFFER_TIMEOUT` (R163). -/
def execLeaseOfferTimeout (lease : Nat) (s : State) : Out :=
  if (s.lease lease).st = .offered ∧ (s.lease lease).since + 10000000 ≤ s.time then .next (s.moveLease lease .free) else .next s

/-- A plane entry names a lease (R49). -/
def namesLease (e lender lease : Nat) : Bool := peState e == 3 && field e 42 11 == lender && field e 34 8 == lease

/-- `LEASE_RELEASE` (R163): the borrower releases once no entry, and no move, names the lease; the lender has its range back. -/
def execLeaseRelease (lender lease : Nat) (s : State) : Out :=
  if lender = s.module.devId then
    if (s.lease lease).st = .active ∧ s.hears (s.lease lease).borrower ∧ !s.lentWaits 0 lease then .next (s.freeLease lease)
    else .next s
  else
    match s.borrow lender lease with
    | some b =>
      if b.st = .active ∧ !s.allEntries.any (fun x => namesLease x.e lender lease)
          ∧ !s.moves.any (fun m => namesLease m.old.toNat lender lease) ∧ s.mayTell lender then
        .next ((s.dropBorrow lender lease).tell lender lease .released)
      else .next s
    | none => .next s

/-- `LEASE_RECLAIM` (R163): the lender reclaims and sends the notice; the borrower receives it. -/
def execLeaseReclaim (lender lease : Nat) (s : State) : Out :=
  if lender = s.module.devId then
    if (s.lease lease).st = .active ∧ s.mayTell (s.lease lease).borrower then
      .next ((s.moveLease lease .reclaiming).tell (s.lease lease).borrower lease .reclaim)
    else .next s
  else
    match s.borrow lender lease with
    | some b => if b.st = .active ∧ s.hears lender then .next (s.setBorrow lender lease .reclaiming) else .next s
    | none => .next s

/-! ### The eviction handshake (R164, R212) -/

/-- One tier demotion event reaches every member of every running task of a tenant: placed as cause 0x12, or held at its source
while the member's pending queue is full (R36, R164). -/
def State.postDemotion (s : State) (info : Word) : List Nat → State
  | [] => s
  | c :: r =>
    let s1 := match s.raise c { cause := 0x12, info := info } with
      | some s1 => s1
      | none => s.setCore c { s.coreAt c with demWait := (s.coreAt c).demWait ++ [info] }
    State.postDemotion s1 info r

/-- The cores that run a tenant's tasks. -/
def State.coresRunning (s : State) (v : Nat) : List Nat :=
  (s.teams.filter (fun e => e.2.vf == v)).flatMap (fun e => e.2.cores)

/-- TRAPINFO of a tier demotion event: the constellation index in bits 11:0, the lease id above (R35). -/
def demotionInfo (con lease : Nat) : Word := BitVec.ofNat 64 (con + lease * 2 ^ 12)

/-- The cores with an access parked on a page. -/
def State.parkedCores (s : State) (vf : Nat) (va : Word) (sz : Nat) : List Nat :=
  ((s.parks.filter (onPage vf va sz)).filterMap (fun p => p.core)).dedup

/-- The contexts with an access parked on a page end, the lease being revoked (R163). -/
def State.endParked (s : State) (vf : Nat) (va : Word) (sz : Nat) : State :=
  (s.parkedCores vf va sz).foldl (fun s c => s.contextRung (s.coreAt c).team 5 0x0A (s.teamOf c).addr.toNat []) s

/-- The entry of a page that a handshake moves, and the page size: of a page whose move has begun (R159 steps 1 and 2), the entry
as it stood. -/
def State.evictEntry (s : State) (m : EvictMove) : Option (Nat × Nat) :=
  match s.entryOf m.vf m.va with
  | none => none
  | some (e, sz) =>
    if peState e = 4 then (s.moves.find? (fun x => x.vf == m.vf && x.va == m.va)).map (fun x => (x.old.toNat, sz))
    else some (e, sz)

/-- FRAME of an entry that names no frame of this device any more. -/
def noFrame : Nat := 2 ^ 53 - 1

/-- One move of the handshake. Without a frame the entry is POISONED, its data lost, and that is counted and recorded, with the task
record of an access parked on the page, if there is one (log 88); where the lease has been revoked, what was parked on it ends its
context. -/
def State.evictOne (s : State) (lender lease : Nat) (m : EvictMove) : State :=
  match s.evictEntry m with
  | none => s
  | some (e, sz) =>
    if !namesLease e lender lease then s
    else
      match m.frame with
      | some g =>
        (s.finishMove ⟨m.vf, m.va, BitVec.ofNat 64 e⟩ sz g m.data)
      | none =>
        let revoked := (s.borrow lender lease).map (·.st) == some .revoked
        let s0 : State := { s with moves := s.moves.filter (fun x => !(x.vf == m.vf && x.va == m.va)) }
        let s1 := s0.setEntry m.vf m.va (reState e 5 noFrame)
        let s2 := if revoked then s1.endParked m.vf m.va sz else s1
        (s2.freeParks m.vf m.va sz).countError 0x0A 1 0 4 (some m.vf)
          (match s.parkedCores m.vf m.va sz with
            | c :: _ => (s.teamOf c).addr.toNat
            | [] => 0)

/-- A move that firmware may make: with a frame where a tier has room, second tier first, and no access still on its way; without
one where neither has room, the lease has been revoked, or the lender could give no data (R164, R212). -/
def State.evictOk (s : State) (lender lease : Nat) (m : EvictMove) : Bool :=
  match s.evictEntry m with
  | none => false
  | some (e, sz) =>
    let n := (s.planeDesc m.vf m.va).frameBytes sz
    let revoked := (s.borrow lender lease).map (·.st) == some .revoked
    namesLease e lender lease && !s.entryWaits m.vf m.va && s.quietPage m.vf m.va sz &&
      (match m.frame with
        | some g => !revoked && s.grantOk m.vf g n 64 true
        | none => revoked || s.noRoom m.vf n || m.data.isEmpty)

/-- The moves of a handshake, in order; none where one of them may not be made. -/
def State.evictAll (s : State) (lender lease : Nat) : List EvictMove → Option State
  | [] => some s
  | m :: r => if s.evictOk lender lease m then State.evictAll (s.evictOne lender lease m) lender lease r else none

/-- The constellations of some moves, each once: function and index. -/
def movedPlaces (ms : List EvictMove) : List (Nat × Nat) := (ms.map (fun m => (m.vf, vaConst m.va))).dedup

/-- `EVICTION_HANDSHAKE` (R164): every entry that names the lease is moved or poisoned, one event a changed constellation is posted
to every member of each running task of its tenant, and the borrower acknowledges. -/
def execEvictionHandshake (lender lease : Nat) (moves : List EvictMove) (s : State) : Out :=
  match s.borrow lender lease with
  | none => .next s
  | some b =>
    if b.st = .active ∨ !s.mayTell lender then .next s
    else
      match s.evictAll lender lease moves with
      | none => .next s
      | some s1 =>
        if s1.allEntries.any (fun x => namesLease x.e lender lease) || s1.moves.any (fun x => namesLease x.old.toNat lender lease)
        then .next s
        else
          let s2 := ((movedPlaces moves ++ b.moved).dedup).foldl
            (fun s p => s.postDemotion (demotionInfo p.2 lease) (s.coresRunning p.1)) s1
          .next ((s2.dropBorrow lender lease).tell lender lease .ack)

/-! ### The lender's deadlines (R163) -/

/-- `LEASE_ACKNOWLEDGE` (R163). -/
def execLeaseAcknowledge (lender lease : Nat) (s : State) : Out :=
  let st := (s.lease lease).st
  if lender = s.module.devId ∧ (st = .reclaiming ∨ st = .frozen) ∧ s.hears (s.lease lease).borrower ∧ !s.lentWaits 0 lease then
    .next (s.freeLease lease)
  else .next s

/-- A window of the lease's deadline has ended. -/
def State.windowOver (s : State) (lease : Nat) : Bool :=
  decide ((s.lease lease).since + 1000 * (s.lease lease).deadline ≤ s.time)

/-- `FIRST_WINDOW_END` (R163). -/
def execFirstWindowEnd (lease : Nat) (s : State) : Out :=
  if (s.lease lease).st = .reclaiming ∧ s.windowOver lease then .next (s.moveLease lease .frozen) else .next s

/-- The contexts whose accesses are parked on entries of a revoked lease end (R163). -/
def State.endLease (s : State) (lender lease : Nat) : State :=
  s.parks.foldl (fun s p =>
    match p.core, s.entryOf p.vf p.va with
    | some c, some (e, _) =>
      if namesLease e lender lease ∨ p.refused = some (lender, lease)
          ∨ (peState e = 4 ∧ s.moves.any (fun m => namesLease m.old.toNat lender lease
              && (match s.entryOf m.vf m.va with
                | some (_, sz) => onPage m.vf m.va sz p
                | none => false))) then
        s.contextRung (s.coreAt c).team 5 0x0A (s.teamOf c).addr.toNat []
      else s
    | _, _ => s) s

/-- `SECOND_WINDOW_END` (R163): the lender's FROZEN lease becomes REVOKED and the borrower is told; the borrower told so ends the
contexts with accesses parked on the lease's entries. -/
def execSecondWindowEnd (lender lease : Nat) (s : State) : Out :=
  if lender = s.module.devId then
    if (s.lease lease).st = .frozen ∧ s.windowOver lease ∧ s.mayTell (s.lease lease).borrower then
      .next ((s.moveLease lease .revoked).tell (s.lease lease).borrower lease .lost)
    else .next s
  else
    match s.borrow lender lease with
    | some b =>
      if b.st = .active ∨ !s.hears lender then .next s else .next ((s.setBorrow lender lease .revoked).endLease lender lease)
    | none => .next s

/-- `REVOKED_LEASE_FREE` (R163, R209): the range is scrubbed to zero, one requester timeout has passed, and the keys are gone. -/
def execRevokedLeaseFree (lease : Nat) (s : State) : Out :=
  let l := s.lease lease
  if l.st = .revoked ∧ l.since + s.module.fabricTimeout ≤ s.time ∧ !s.lentWaits 0 lease then .next (s.freeLease lease)
  else .next s

/-! ### Requests from other devices (R160, R163, R190, R334) -/

/-- A lent line lies in the main tier: the lease's, or that of the tenant's frame it is in (log 110). -/
def State.lentMain (s : State) (lease a : Nat) : Bool :=
  if (s.lease lease).peer.isSome then !s.frames.any (fun f => f.second && decide (f.addr ≤ a) && decide (a < f.addr + 64 * f.len))
  else !Config.lentSecond (s.lease lease).base

/-- A lent line has no data to give: it fails its check for good (R203, R204), or its channel is fenced (R202). -/
def State.lentLost (s : State) (lease a : Nat) : Bool :=
  s.lineFails a (s.leaseKey lease) || (s.lentMain lease a && s.channels.any (fun c => c.2.fenced && Config.channelOf (a / 64) == c.1))

/-- Whether a lease lets a borrower's access at an address through, and how it is answered if not: RDONLY is tested before the
state, and an address outside the lent range is answered as a lease that is not the borrower's (log 29). -/
def State.leaseCheck (s : State) (borrower lease addr n : Nat) (wr : Bool) : Option Answer :=
  let l := s.lease lease
  if 256 ≤ lease ∨ l.borrower ≠ borrower ∨ l.st = .free ∨ l.st = .offered ∨ l.st = .revoked
      ∨ addr < 4096 * l.base ∨ 4096 * (l.base + l.len) < addr + n then some .lost
  else if wr ∧ l.rdonly then some .readOnly
  else if wr ∧ l.st = .frozen then some .refused
  else if (List.range n).any (fun i => s.lentLost lease (addr + i)) then some .poison
  else none

/-- A borrower's access that the lease lets through waits at this device: a line's channel retrains (R202), or a write finds the counters
of a line spent (R206). -/
def State.leaseWaits (s : State) (borrower lease addr n : Nat) (wr : Bool) : Bool :=
  (s.leaseCheck borrower lease addr n wr).isNone
    && (List.range n).any (fun i => (s.lentMain lease (addr + i) && s.channelWaits (addr + i)) || (wr && s.mustWait (addr + i)))

/-- A byte merged under a mask (R129, R160). -/
def mergeByte (old mask new : Byte) : Byte := (old &&& ~~~mask) ||| (new &&& mask)

/-- A forwarded access to a line performs at this device, at system scope (R11, R127, R160), or is answered as R163 gives. Bits of a
byte are merged into its latest write (R129). -/
def State.serveLine (s : State) (borrower lease addr : Nat) (wr : Option (List (Byte × Byte))) : State × Answer :=
  let a := lineBase addr
  match s.leaseCheck borrower lease a 64 wr.isSome with
  | some x => (s, x)
  | none =>
    match wr with
    | none => (s, .data (s.imageBytes a 64))
    | some ms =>
      let cells := ((ms.take 64).mapIdx (fun i m => (a + i, m))).filter (fun x => x.2.1 != 0)
      (s.writeDevice (cells.map (fun x => (x.1, mergeByte (s.newest x.1) x.2.1 x.2.2))), .ok)

/-- An atomic performs at this device (R128, R302). -/
def State.serveAtomic (s : State) (borrower lease addr code size : Nat) (u : Bool) (x z : Word) : State × Answer :=
  match s.leaseCheck borrower lease addr size (atomicNeed code).w with
  | some a => (s, a)
  | none =>
    let old := s.imageNat addr size
    let s1 := match atomicNew code size u old x.toNat z.toNat with
      | some v => s.writeDevice (cellsFrom addr (leBytes size v))
      | none => s
    (s1, .data (leBytes size old))

/-- An update of `n` bytes at this device in one step: the addition of an `XSCAT` (R318), the count of an `XHOT` (R320). -/
def State.serveUpdate (s : State) (borrower lease addr n : Nat) (g : Nat → Nat) : State × Answer :=
  match s.leaseCheck borrower lease addr n true with
  | some a => (s, a)
  | none =>
    let old := s.imageNat addr n
    (s.writeDevice (cellsFrom addr (leBytes n (g old))), .data (leBytes n old))

/-- The barrier object of a `STEAL` of tenant `v` that this device has sent stands at a location (R309). -/
def State.ownBarrier (s : State) (v a : Nat) : Bool :=
  s.cores.any (fun e => (s.teamOf e.1).vf == v && e.2.allOps.any (fun o => o.code == 0x56 && o.st != .done && anyOpen o.lines
    && (match s.findAt v o.z .read 2624 with
      | .bytes bs => (hereLocs bs).headD 0 == a && (remoteOf bs).isNone
      | _ => false)))

/-- A read of a whole barrier object under a lease, in one step (R312). -/
def State.serveObject (s : State) (borrower lease addr : Nat) : Answer :=
  (s.leaseCheck borrower lease addr 2624 false).getD (.data (s.imageBytes addr 2624))

/-- What this device's dispatcher knows of the launch of tenant `v` that holds the record at an address of a device (R309). -/
def State.launchAt (s : State) (v dev addr : Nat) : Option Launch :=
  s.tasks.findSome? (fun t => match s.launch t.launch with
    | some l => if l.vf = v ∧ l.stolen.isNone ∧ s.placeOf v t.addr = some (dev, addr) then some l else none
    | none => none)

/-- The bytes of an answer. -/
def answerBytes : Answer → List Byte
  | .data b => b
  | _ => []

/-- The owner of a record at a location that a `STEAL` expecting a generation asks, where it is not this device (R309). -/
def State.stealOwner (s : State) (record expected : Nat) : Option Nat :=
  let w := s.imageNat record 8
  if swOwner w ≠ s.module.devId ∧ swState w = 1 ∧ swSteal w ∧ swGen w = expected then some (swOwner w) else none

/-- A `STEAL` by another device of a record of this one (R309). The barrier object lies here, under a lease, or its bytes come from
its home; the launch's fields come from the owner, which may be another device. The answer is the word, and, where the swap
succeeds, the record and the fields. None while an answer is awaited. -/
def State.serveSteal (s : State) (borrower lease record barDev barLease barrier expected : Nat) (ans : List Answer) :
    Option (State × Answer) :=
  let this := s.module.devId
  let bar : Answer := if barDev = this then s.serveObject borrower barLease barrier else ans.headD .none
  let asks := (s.stealOwner record expected).isSome
  let told : Answer := if asks then (if barDev = this then ans.headD .none else ans.getD 1 .none) else .ok
  match s.leaseCheck borrower lease record 128 true with
  | some a => some (s, a)
  | none =>
    match bar with
    | .none | .refused => none
    | .data b =>
      if barrierMalformed b then some (s, .malformed)
      else if told = .none then none
      else
        let bytes := s.imageBytes record 128
        match s.stealHere borrower expected (span record 128) b with
        | (w, none) => some (s, .data (leBytes 8 w))
        | (w, some s1) =>
          let info := if asks then answerBytes told else ((s.taskAt record).map (·.2.info)).getD (List.replicate 8 0)
          some (s1, .data (leBytes 8 w ++ bytes.drop 8 ++ info))
    | a => some (s, a)

/-- A `BJOIN` by another device at an object of this one (R312, R313): the answer is the episode; a join that is held is answered
when it is counted. -/
def State.serveJoin (s : State) (borrower lease addr m : Nat) : State × Option Answer :=
  match s.leaseCheck borrower lease addr 2624 true with
  | some a => (s, some a)
  | none =>
    let b := (span addr 2624).map s.newest
    if addr % 64 ≠ 0 ∨ barrierMalformed b ∨ leAt b 0 1 ≤ m then (s, some .malformed)
    else
      match s.joinHere (.away borrower) addr b m with
      | (s1, none) => (s1, none)
      | (s1, some (e, nb)) => (s1.writeDevice (cellsFrom addr nb), some (.data (leBytes 4 e)))

/-- Send a device its answer. -/
def answerTo (dev : Nat) (p : State × Answer) : State := p.1.send (.answer dev p.2)

/-- A request of a tenant is let in by a port: the link is up, the tag is not that of firmware's own traffic, and the port's table
permits it (R190). -/
def State.lets (s : State) (port tag : Nat) : Bool := tag != 0 && (s.port port).permit.contains tag

/-- `FORWARDED_ACCESS` (R160, R163, R190). -/
def execForwardedAccess (at_ : Ingress) (borrower lease addr : Nat) (wr : Option (List (Byte × Byte))) (s : State) : Out :=
  if !s.portUp at_.port then .next s
  else if !s.lets at_.port at_.tag then .next (s.send (.refusedAt at_.port at_.tag))
  else if s.leaseWaits borrower lease (lineBase addr) 64 wr.isSome then .next s
  else .next (answerTo borrower (s.serveLine borrower lease addr wr))

/-- The enabled function that bears an FTID, in a partition of a tag (R334). -/
def State.functionOf (s : State) (ftid tag : Nat) : Option Nat :=
  if ftid = 0 then none
  else (s.tenants.find? (fun e => e.2.en && e.2.ftid == ftid
    && (s.part e.2.part).desc.tag.toNat == tag && PartDesc.valid (s.part e.2.part).desc)).map (·.1)

/-- What a `STEAL` by another device, whose lease lets it through, has this device ask: the barrier object, of its home, and the launch's
fields, of the owner (R309, log 99). -/
def State.stealAsking (s : State) (borrower lease record barDev barLease barrier expected : Nat) : List (Nat × FabricRequest) :=
  let this := s.module.devId
  if (s.leaseCheck borrower lease record 128 true).isSome then []
  else
    (if barDev = this then [] else [(barDev, .object this borrower barLease barrier)])
      ++ ((s.stealOwner record expected).map (fun owner => (owner, .fields this this record))).toList

/-- The port that leads to a device takes a request of a tag (R190). -/
def State.canPass (s : State) (tag dev : Nat) : Bool :=
  s.portUp (s.routeTo dev) && (s.port (s.routeTo dev)).permit.contains tag

/-- Requests go out under the tag and the FTID that a `STEAL` came with (R190, R309). -/
def State.stealSends (s : State) (tag ftid : Nat) : List (Nat × FabricRequest) → State
  | [] => s
  | q :: r => State.stealSends (s.send (.request (s.routeTo q.1) q.1 tag ftid q.2)) tag ftid r

/-- A request that its lease lets through waits at this device (R202, R206). -/
def State.requestWaits (s : State) : FabricRequest → Bool
  | .line b l a wr => s.leaseWaits b l (lineBase a) 64 wr.isSome
  | .object _ b l a => decide (b ≠ s.module.devId) && s.leaseWaits b l a 2624 false
  | .atomic b l a code size _ _ _ => s.leaseWaits b l a size (atomicNeed code).w
  | .scatter b l a fmt _ => s.leaseWaits b l a (fmtBits fmt / 8) true
  | .count b l a => s.leaseWaits b l a 4 true
  | .steal b l record barDev barLease barrier _ =>
    s.leaseWaits b l record 128 true || (decide (barDev = s.module.devId) && s.leaseWaits b barLease barrier 2624 false)
  | .join b l a _ => s.leaseWaits b l a 2624 true
  | _ => false

/-- A request for another device. -/
def isTransit : FabricRequest → Bool
  | .transit _ => true
  | _ => false

/-- A request for another device is passed on where the port it leaves by permits its tag (R190). -/
def State.passOn (s : State) (port tag out : Nat) : State :=
  if s.portUp out ∧ (s.port out).permit.contains tag then s.send (.transit out tag) else s.send (.refusedAt port tag)

/-- `AVDEX_REQUEST` (R190, R334): a request of a tag that the port's table does not permit, or of a tenant with tag 0, goes no further.
A forwarded access, an atomic, a steal and a join are settled by their lease; a signal, a message, and what a steal asks of the device
that has sent it or of the record's owner, by their FTID; a request for another device goes on. A message that finds no room waits, and
so does a steal that has to ask another device, whose answers the step takes. -/
def execAvdexRequest (port tag ftid : Nat) (req : FabricRequest) (ch : Choice) (s : State) : Out :=
  if !s.portUp port then .next s
  else if !(s.port port).permit.contains tag ∨ (tag = 0 ∧ !isTransit req) then .next (s.send (.refusedAt port tag))
  else if s.requestWaits req then .next s
  else
    match req with
    | .line b l a wr => .next (answerTo b (s.serveLine b l a wr))
    | .object asker b l a =>
      if b ≠ s.module.devId then .next (answerTo asker (s, s.serveObject b l a))
      else
        match s.functionOf ftid tag with
        | none => .next (s.send (.refusedAt port tag))
        | some v => .next (answerTo asker (s, if s.ownBarrier v a then .data (s.imageBytes a 2624) else .lost))
    | .atomic b l a code size u x z => .next (answerTo b (s.serveAtomic b l a code size u x z))
    | .scatter b l a fmt v => .next (answerTo b (s.serveUpdate b l a (fmtBits fmt / 8) (fun old => scatterAdd fmt old v)))
    | .count b l a => .next (answerTo b (s.serveUpdate b l a 4 (fun old => min (old + 1) (2 ^ 32 - 1))))
    | .fields asker dev a =>
      match s.functionOf ftid tag with
      | none => .next (s.send (.refusedAt port tag))
      | some v => .next (answerTo asker (s, ((s.launchAt v dev a).map (fun l => Answer.data l.info)).getD .lost))
    | .steal b l record barDev barLease barrier expected =>
      let asks := s.stealAsking b l record barDev barLease barrier expected
      if !asks.all (fun q => s.canPass tag q.1) then .next s
      else
        match s.serveSteal b l record barDev barLease barrier expected ch.ans with
        | some p => .next (answerTo b (p.1.stealSends tag ftid asks, p.2))
        | none => .next s
    | .join b l a m =>
      match s.serveJoin b l a m with
      | (s1, some ans) => .next (answerTo b (s1, ans))
      | (s1, none) => .next s1
    | .event name fail =>
      match s.functionOf ftid tag with
      | none => .next (s.send (.refusedAt port tag))
      | some v => .next ((s.signals [⟨v, name, fail⟩]).send (.accepted port tag))
    | .message record dev a rank handler payload =>
      match s.functionOf ftid tag with
      | none => .next (s.send (.refusedAt port tag))
      | some v =>
        match s.deliver v record (some (dev, a)) rank (BitVec.ofNat 64 handler) payload with
        | some s1 => .next (s1.send (.accepted port tag))
        | none => .next s
    | .transit out => .next (s.passOn port tag out)

/-! ### The links (R191, R209, R210) -/

/-- Some request has had no answer for the fabric requester timeout. -/
def State.unansweredLate (s : State) (fs : List Fwd) : Bool :=
  fs.any (fun f => f.ans == .none && decide (f.sent + s.module.fabricTimeout ≤ s.time))

/-- `FABRIC_REQUESTER_TIMEOUT` (R209): an operation, or an instruction fetch, without an answer in time ends its context. -/
def execFabricRequesterTimeout (c : Nat) (x : CtxId) (op : Nat) (s : State) : Out :=
  let fs := match s.opAt c x op with
    | some o => o.lines
    | none => (s.ctxAt c x).lines
  if s.unansweredLate fs then .next (s.contextRung (s.coreAt c).team 6 8 (s.teamOf c).addr.toNat []) else .next s

/-- `FLIT_REPLAY` (R210): a flit goes through after some failed replays, an error that the retry clears; after 16 the link
retrains. -/
def execFlitReplay (port fails : Nat) (s : State) : Out :=
  let p := s.port port
  if p.fenced ∨ p.retrain ∨ Config.ports ≤ port then .next s
  else if 16 ≤ fails then .next (s.setPort port { p with fails := 16, retrain := true })
  else .next ((s.setPort port { p with fails := 0 }).countError 7 0 0 4 none port)

/-- Routes are loaded, by other next ports of the route table's entries that are not fenced (R210). -/
def State.loadRoutes (s : State) : List (Nat × Nat) → State
  | [] => s
  | (dev, port) :: r =>
    let ps := s.routes.get [] dev
    State.loadRoutes (if ps.contains port ∧ !(s.port port).fenced then
      { s with routes := s.routes.set dev (port :: ps.filter (· != port)) } else s) r

/-- `AVDEX_LINK_RETRAIN` (R210): the link is back, or the port is fenced, and every route avoids it: by the next port that is named, or by
the first other that is not fenced. -/
def execAvdexLinkRetrain (port : Nat) (ok : Bool) (routes : List (Nat × Nat)) (s : State) : Out :=
  let p := s.port port
  if !p.retrain then .next s
  else if ok then .next ((s.setPort port { p with fails := 0, retrain := false }).countError 7 1 0 4 none port)
  else .next (((s.setPort port { p with retrain := false, fenced := true }).countError 7 2 0 4 none port).loadRoutes routes)

/-- `LINK_REKEY` (R191). -/
def execLinkRekey (port : Nat) (s : State) : Out :=
  .next (s.setPort port { s.port port with rekeys := (s.port port).rekeys + 1 })

end Sys2Proof.Machine
end

