-- ==== Sys2Proof/Machine/Hypervisor.lean ====
section
/-! DEFINITION. What the hypervisor, the hosts' trust domains and the management interfaces do: partitions, tenant control words,
way registers, partition tables, TDISP, IDE, SPDM, removal of a tenant, and the settings (R14, R21, R23, R24, R145, R177 to R192). -/

namespace Sys2Proof.Machine

/-! ### TDISP states (R182) -/

/-- Every queue of a function. -/
def State.queuesOf (s : State) (v : Nat) : List Nat := (s.queues.filter (fun e => e.2.vf == some v)).map (·.1)

/-- Disable queues. -/
def State.disableAll : List Nat → State → State
  | [], s => s
  | q :: r, s => State.disableAll r (s.disableQueue q)

/-- The function is under TDISP and its grants are frozen. -/
def Tenant.frozen (t : Tenant) : Bool := t.tdispOn && (t.tdisp == .locked || t.tdisp == .run)

/-- A function whose grants are frozen goes to ERROR: its queues are disabled, and its running tasks end as at the end of a slice
(R182). -/
def State.tdispFail (s : State) (v : Nat) : State :=
  if (s.tenant v).frozen then
    let s1 := State.disableAll (s.queuesOf v) s
    s1.setTenant v { s1.tenant v with tdisp := .error, slice := false }
  else s

/-- Several functions. -/
def State.tdispFailAll : List Nat → State → State
  | [], s => s
  | v :: r, s => State.tdispFailAll r (s.tdispFail v)

/-- Functions whose tenant passes a test. -/
def State.functionsWith (s : State) (p : Tenant → Bool) : List Nat := (s.tenants.filter (fun e => p e.2)).map (·.1)

/-! ### Partitions (R177) -/

/-- A descriptor breaks R177 by itself: a reserved bit, or tag 0. -/
def descBad (d : PartDesc) : Bool :=
  field d.ports.toNat 18 14 != 0 || field d.tag.toNat 12 4 != 0 || d.tag == 0 || field d.flags.toNat 1 15 != 0 || d.reserved != 0

/-- It would put a core into two valid partitions. -/
def State.descClash (s : State) (n : Nat) (d : PartDesc) : Bool :=
  PartDesc.valid d && s.parts.any (fun e => e.1 != n && PartDesc.valid e.2.desc && (e.2.desc.cores &&& d.cores) != 0)

/-- A task of a tenant of the partition is DISPATCHED. -/
def State.partBusy (s : State) (n : Nat) : Bool :=
  s.teams.any (fun e => !e.2.cores.isEmpty && (s.tenant e.2.vf).part == n)

/-- The descriptor changes; functions of the partition under TDISP go to ERROR (R182). -/
def State.applyDesc (s : State) (n : Nat) (d : PartDesc) : State :=
  let s1 := s.setPart n { desc := d, held := none }
  if (s.part n).desc = d then s1 else State.tdispFailAll (s1.functionsWith (fun t => t.part == n)) s1

/-- `PARTITION_DESCRIPTOR_WRITE` (R177): refused, held until no task of the partition is DISPATCHED, or applied. -/
def execPartitionDescriptorWrite (n : Nat) (d : PartDesc) (s : State) : Out :=
  if Config.partitions ≤ n ∨ descBad d ∨ s.descClash n d then .next s
  else if PartDesc.valid (s.part n).desc ∧ s.partBusy n then .next (s.setPart n { s.part n with held := some d })
  else .next (s.applyDesc n d)

/-- `PARTITION_WRITE_EFFECT` (R177). A held write that has come to clash with another partition is refused. -/
def execPartitionWriteEffect (n : Nat) (s : State) : Out :=
  match (s.part n).held with
  | none => .next s
  | some d =>
    if s.partBusy n then .next s
    else if s.descClash n d then .next (s.setPart n { s.part n with held := none })
    else .next (s.applyDesc n d)

/-! ### Tenant control words (R178, R187, R188) -/

/-- A tenant that may run has a key of its own domain: one that has none gets a new one (R185). -/
def State.keyed (s : State) (v : Nat) : State := if !(s.domains.get {} (v + 1)).held then s.makeKey (v + 1) else s

/-- An address of constellation `c`. -/
def vaOf (c : Nat) : Word := BitVec.ofNat 64 (c * 2 ^ 48)

/-- A tenant of a control word. -/
def ofWord (w : Word) : Tenant := { word := w }

/-- The word would change PART, SHMASK or FTID. -/
def Tenant.moves (t : Tenant) (w : Word) : Bool :=
  t.part != (ofWord w).part || t.shmask != (ofWord w).shmask || t.ftid != (ofWord w).ftid

/-- The write is refused (R178, R188, R182). -/
def State.wordRefused (s : State) (v : Nat) (w : Word) : Bool :=
  let t := s.tenant v
  let n := ofWord w
  field w.toNat 17 9 != 0 || (t.en && t.moves w)
    || (n.ftid != 0 && s.tenants.any (fun e => e.1 != v && e.2.ftid == n.ftid))
    || (List.range 16).any (fun i => bitAt n.ways i && wayExcl (s.way i) && wayOwner (s.way i) != v)
    || (t.frozen && (t.moves w || t.ways != n.ways))

/-- An entry leads with SK to a shared domain that its tenant no longer holds (R187). -/
def State.sharedGone (s : State) (lost : Nat → Bool) (x : EntryAt) : Bool :=
  peSk x.e && s.shared.any (fun y => y.1 == field x.e 0 48 * 64 && lost y.2.2)

/-- Such entries become ABSENT. -/
def State.dropShared (s : State) : List EntryAt → State
  | [] => s
  | x :: r => State.dropShared (s.writeTable x.at_ 8 (mkEntry 0 false false 0 0)) r

/-- `TENANT_CONTROL_WORD_WRITE` (R178): refused, putting a function with frozen grants that the write would change into ERROR; or
applied, the shared entries that the tenant loses first, once they can be written (R206), a new tenant's domain getting its key, and a
cleared EN ending the slice. -/
def execTenantControlWordWrite (vf : Nat) (w : Word) (s : State) : Out :=
  let t := s.tenant vf
  if Config.functions ≤ vf then .next s
  else if s.wordRefused vf w then
    if t.frozen ∧ (t.moves w ∨ t.ways ≠ (ofWord w).ways) then .next (s.tdispFail vf) else .next s
  else
    let lost (d : Nat) : Bool := bitAt t.shmask d && !bitAt (ofWord w).shmask d
    let gone := if t.shmask = (ofWord w).shmask then [] else (s.entriesOf vf).filter (s.sharedGone lost)
    if gone.any (fun x => s.mustWait x.at_) then .next s
    else
      let s1 := s.dropShared gone
      let s2 := if (ofWord w).en then s1.keyed vf else s1
      let t2 := s2.tenant vf
      .next (s2.setTenant vf { t2 with word := w, slice := t2.slice && (ofWord w).en })

/-! ### Way registers and partition tables (R188 to R190) -/

/-- `WAY_REGISTER_WRITE` (R188, R189): refused, or applied after the way's dirty lines are written back and every line of it
dropped. Functions under TDISP that use the way go to ERROR (R182). -/
def execWayRegisterWrite (way : Nat) (w : Lane) (s : State) : Out :=
  if 16 ≤ way ∨ field w.toNat 11 21 ≠ 0
      ∨ (wayExcl w ∧ s.tenants.any (fun e => e.1 != wayOwner w && bitAt e.2.ways way)) then .next s
  else
    let s1 : State := { s with cache := s.cache.filter (fun l => l.way != way), ways := s.ways.set way w }
    if s.way way = w then .next s1
    else .next (State.tdispFailAll (s1.functionsWith (fun t => bitAt t.ways way)) s1)

/-- `PORT_PARTITION_TABLE_WRITE` (R190). -/
def execPortPartitionTableWrite (port tag : Nat) (permit : Bool) (s : State) : Out :=
  if Config.ports ≤ port ∨ 4096 ≤ tag then .next s
  else
    let p := s.port port
    let rest := p.permit.filter (· != tag)
    .next (s.setPort port { p with permit := if permit then rest ++ [tag] else rest })

/-! ### TDISP, IDE and SPDM messages (R181 to R184) -/

/-- The I/O die's responder has an open session, which TDISP and IDE_KM messages need (R181). -/
def State.secured (s : State) : Bool := s.module.sessions.contains 4

/-- A TDISP message is answered. -/
def tdispAnswer (s : State) (m : Msg) : Out := if s.secured then .next (s.send m) else .next s

/-- `GET_TDISP_VERSION` (R181). The spec numbers no version. -/
def execGetTdispVersion (vf : Nat) (s : State) : Out := tdispAnswer s (.tdispVersion vf)
/-- `GET_TDISP_CAPABILITIES` (R181). -/
def execGetTdispCapabilities (vf : Nat) (s : State) : Out := tdispAnswer s (.tdispCapabilities vf)
/-- `GET_DEVICE_INTERFACE_STATE` (R181). -/
def execGetDeviceInterfaceState (vf : Nat) (s : State) : Out := tdispAnswer s (.tdispState vf (s.tenant vf).tdisp)

/-- `GET_DEVICE_INTERFACE_REPORT` (R182). -/
def execGetDeviceInterfaceReport (vf : Nat) (s : State) : Out :=
  let t := s.tenant vf
  tdispAnswer s (.tdispReport vf t.word (s.part t.part).desc
    (((List.range 16).filter (fun i => bitAt t.ways i)).map (fun i => (i, s.way i)))
    ((List.range 16).filter (fun i => bitAt t.shmask i)))

/-- `LOCK_INTERFACE` (R182). -/
def execLockInterface (vf : Nat) (s : State) : Out :=
  let t := s.tenant vf
  if !s.secured then .next s
  else if t.tdispOn ∧ t.tdisp = .unlocked then
    .next ((s.setTenant vf { t with tdisp := .locked }).send (.tdispDone vf true))
  else .next (s.send (.tdispDone vf false))

/-- `START_INTERFACE` (R182): EN := 1. -/
def execStartInterface (vf : Nat) (s : State) : Out :=
  let t := s.tenant vf
  if !s.secured then .next s
  else if t.tdispOn ∧ t.tdisp = .locked then
    .next (((s.keyed vf).setTenant vf { t with tdisp := .run, word := t.word ||| 0x10000 }).send (.tdispDone vf true))
  else .next (s.send (.tdispDone vf false))

/-- The first two steps of R183 are over: no launch or task of the tenant is left, none that a disabled queue has yet to cancel, and no
lease lends of its frames; and its descriptors can be cleared (R206). -/
def State.tenantOver (s : State) (v : Nat) : Bool :=
  s.launches.all (fun l => l.vf != v) && s.teams.all (fun e => e.2.vf != v)
    && (s.queuesOf v).all (fun q => (s.queue q).doomed.isEmpty)
    && s.leases.all (fun e => e.2.st == .free ||
      s.frames.all (fun f => f.vf != v || !meets (4096 * e.2.base) (4096 * e.2.len) f.addr (64 * f.len)))
    && (s.tenant v).tableBase.all (fun b => !s.rangeWaits b (2 ^ 20))

/-- The valid descriptors of a tenant are cleared, so that no name of it resolves. -/
def State.clearDescs (s : State) (v : Nat) : State :=
  ((List.range 4096).filter (fun c => s.descValid v (vaOf c))).foldl
    (fun u c => u.writeTable (u.descAddr v (vaOf c) + 10) 2 0) s

/-- A core that last ran a tenant's task has another tenant next: it is zeroed first (R180, log 61). -/
def Core.forget (k : Core) (v : Nat) : Core := if k.lastVf = some v then { k with lastVf := none, clean := false } else k

/-- The last two steps: the tenant's keys are destroyed and its frames returned to the free pools (R183). Nothing of its names,
queues and events is left for the next tenant of the function, which is another tenant for the cores too (log 61). -/
def State.wipeTenant (s : State) (v : Nat) : State :=
  let s1 := s.clearDescs v
  State.destroyKeys
    { s1 with frames := s1.frames.filter (fun f => f.vf != v), moves := s1.moves.filter (fun m => m.vf != v),
              parks := s1.parks.filter (fun p => p.vf != v), events := s1.events.filter (fun e => e.1 / 65536 != v),
              cores := s1.cores.map (fun e => (e.1, e.2.forget v)),
              tenants := s1.tenants.map (fun e => if e.1 == v then
                (e.1, { e.2 with faultArea := 0, faultBase := none, faultSlot := 0, held := [], away := [], lines := [] }) else e),
              queues := s1.queues.map (fun e =>
                if e.2.vf == some v then (e.1, { e.2 with enabled := false, st := .empty, unread := [] }) else e) } (v + 1)

/-- `STOP_INTERFACE` (R182, R183): asked for, and complete once the four steps are. -/
def execStopInterface (vf : Nat) (s : State) : Out :=
  let t := s.tenant vf
  if !t.tdispOn then tdispAnswer s (.tdispDone vf false)
  else if !s.secured ∧ !t.stopping then .next s
  else if s.tenantOver vf then
    let s1 := s.wipeTenant vf
    .next ((s1.setTenant vf { s1.tenant vf with tdisp := .unlocked, stopping := false, slice := false }).send (.tdispDone vf true))
  else .next (s.setTenant vf { t with stopping := true, slice := false })

/-- `TENANT_REMOVAL` (R183): the tenant is no longer dispatched; complete once the four steps are. -/
def execTenantRemoval (vf : Nat) (s : State) : Out :=
  let t := s.tenant vf
  let w := t.word &&& ~~~0x10000
  if s.tenantOver vf then
    let s1 := s.wipeTenant vf
    .next (s1.setTenant vf { s1.tenant vf with word := w, stopping := false, slice := false })
  else .next (s.setTenant vf { t with word := w, stopping := true, slice := false })

/-- `TDISP_ERROR` (R182). -/
def execTdispError (vf : Nat) (_cause : TdispCause) (s : State) : Out := .next (s.tdispFail vf)

/-- `IDE_KM` (R181): streams 0 to 255; setting keys makes the stream the function's. -/
def execIdeKm (stream vf : Nat) (req : IdeReq) (s : State) : Out :=
  if !s.secured ∨ 255 < stream then .next s
  else
    let s1 := s.send (.ide stream req)
    match req with
    | .keySetGo => .next (s1.setTenant vf { s1.tenant vf with ide := stream })
    | .keySetStop => .next (s1.setTenant vf { s1.tenant vf with ide := 0 })
    | _ => .next s1

/-- A die's measurements (R184), their digests being values the spec does not give. Index 5: every valid descriptor and the 16 way
registers; index 6: the functions that hold each shared domain. R184's table measures index 5 as it stands, while its text has a
verifier that reads twice see every change between: the model gives what stands at the reading (DEDUCED, log 106). -/
def State.measurement (s : State) (die index : Nat) : Option (List Nat) :=
  if index = 1 then some [Config.measure 1 0]
  else if index = 2 then some [Config.measure 2 s.module.image.security, s.module.image.security]
  else if index = 3 then some [s.module.fuseMin]
  else if die ≠ 4 then none
  else if index = 4 then some [Config.measure 4 s.module.image.security]
  else if index = 5 then
    some (((s.parts.filter (fun e => PartDesc.valid e.2.desc)).flatMap (fun e =>
      [e.1, e.2.desc.cores.toNat, e.2.desc.ports.toNat, e.2.desc.tag.toNat, e.2.desc.flags.toNat]))
      ++ (List.range 16).map (fun i => (s.way i).toNat))
  else if index = 6 then
    some ((List.range 16).flatMap (fun d => d :: s.functionsWith (fun t => bitAt t.shmask d)))
  else none

/-- The algorithms of every responder. -/
def spdmAlgs : List SpdmAlg := [.ecdsaBrainpool384, .sha384, .dheBrainpool384, .aes256Gcm]
/-- Its capabilities. -/
def spdmCaps : List SpdmCap := [.cert, .chal, .measSigned, .keyExchange, .encrypt, .authenticate]

/-- A die's key exchanges and sessions. -/
def State.setSpdm (s : State) (exchanged sessions : List Nat) : State :=
  { s with module := { s.module with exchanged := exchanged, sessions := sessions } }

/-- `SPDM_REQUEST` (R184): a die answers once its identity key has been derived (R20). Versions 1.2 and 1.3; certificate slot 0;
the measurements of its index list, signed; a session opens with a finish that follows a key exchange. -/
def execSpdmRequest (die : Nat) (req : SpdmReq) (s : State) : Out :=
  if 5 ≤ die then .next s
  else if !s.module.identity then .next (s.send (.spdmError die))
  else
    match req with
    | .version => .next (s.send (.spdmVersions die [12, 13]))
    | .capabilities => .next (s.send (.spdmCapabilities die spdmCaps))
    | .algorithms => .next (s.send (.spdmAlgorithms die spdmAlgs))
    | .digests => .next (s.send (.spdmCertificate die 0))
    | .certificate slot => .next (s.send (if slot = 0 then .spdmCertificate die 0 else .spdmError die))
    | .challenge slot => .next (s.send (if slot = 0 then .spdmChallenge die 0 else .spdmError die))
    | .measurement index =>
      match s.measurement die index with
      | some c => .next (s.send (.spdmMeasurement die index c (Config.sign die (index :: c))))
      | none => .next (s.send (.spdmError die))
    | .keyExchange =>
      .next ((s.setSpdm (s.module.exchanged ++ [die]).dedup s.module.sessions).send (.spdmSession die false))
    | .finish =>
      if s.module.exchanged.contains die then
        .next ((s.setSpdm (s.module.exchanged.filter (· != die)) (s.module.sessions ++ [die]).dedup).send (.spdmSession die true))
      else .next (s.send (.spdmError die))
    | .endSession =>
      .next ((s.setSpdm s.module.exchanged (s.module.sessions.filter (· != die))).send (.spdmSession die false))

/-! ### Management (R14, R21, R23, R24) -/

/-- An image waits for the next device reset (R21). -/
def State.keepUpdate (s : State) (i : FwImage) : State := { s with module := { s.module with update := some i } }

/-- `MANAGEMENT_MESSAGE` (R14, R20). -/
def execManagementMessage (m : MgmtMessage) (s : State) : Out :=
  match m with
  | .firmwareUpdate i => .next (s.keepUpdate i)
  | .diagnostics => .next (s.send (.report s.module.errcode))
  | .readDevstat => .next (s.send (.devstat s.module.devstat))

/-- `FIRMWARE_UPDATE_WRITE` (R21). -/
def execFirmwareUpdateWrite (image : FwImage) (s : State) : Out := .next (s.keepUpdate image)

/-- `POWER_LIMIT_WRITE` (R24): 1,200 W to 3,200 W in steps of 25 W. -/
def execPowerLimitWrite (watts : Nat) (s : State) : Out :=
  if 1200 ≤ watts ∧ watts ≤ 3200 ∧ watts % 25 = 0 then .next { s with module := { s.module with powerLimit := watts } }
  else .next s

/-- A number lies in a range. -/
def inRange (a b v : Nat) : Bool := decide (a ≤ v) && decide (v ≤ b)

/-- `REGISTER_WRITE` (R6): a management setting takes a value within the range its rule gives; another value, and a write to a
register that is read only (R23, R197, R198), has no effect. -/
def execRegisterWrite (r : Setting) (v : Nat) (s : State) : Out :=
  match r with
  | .quantum => if inRange 10000 1000000 v then .next { s with module := { s.module with quantum := v } } else .next s
  | .fillAge vf =>
    if inRange 1000000 1000000000 v then .next (s.setTenant vf { s.tenant vf with fillAge := v }) else .next s
  | .fabricTimeout =>
    if inRange 10000000 1000000000 v then .next { s with module := { s.module with fabricTimeout := v } } else .next s
  | .patrolBound => if inRange 1 24 v then .next { s with module := { s.module with patrolBound := v } } else .next s
  | .queueOwner q =>
    if q < Config.queues ∧ v < Config.functions ∧ (s.queue q).st = .empty then
      .next (s.setQueue q { s.queue q with vf := some v })
    else .next s
  | .queueClass q =>
    if q < Config.queues ∧ inRange 1 3 v then .next (s.setQueue q { s.queue q with cls := v }) else .next s
  | .queueEnable q =>
    if Config.queues ≤ q then .next s
    else if v = 0 then .next (s.disableQueue q) else .next (s.setQueue q { s.queue q with enabled := true })
  | .mainAllot vf => .next (s.setTenant vf { s.tenant vf with mainAllot := v })
  | .secondAllot vf => .next (s.setTenant vf { s.tenant vf with secondAllot := v })
  | .stageBound => .next { s with module := { s.module with stageBound := some v } }
  | .chainRoom vf => .next (s.setTenant vf { s.tenant vf with chainRoom := v })
  | .tdisp vf =>
    if (s.tenant vf).tdisp = .unlocked then .next (s.setTenant vf { s.tenant vf with tdispOn := v != 0 }) else .next s
  | .route dev =>
    if v < Config.ports ∧ (s.module.stage = 6 ∨ s.module.stage = 7) then
      .next { s with routes := s.routes.set dev ((s.routes.get [] dev).filter (· != v) ++ [v]) }
    else .next s
  | .deviceId => if v < 2048 then .next { s with module := { s.module with devId := v } } else .next s
  | .readOnly _ => .next s

end Sys2Proof.Machine
end

