-- ==== Sys2Proof/Machine/Recovery.lean ====
section
/-! DEFINITION. Bring-up, power and cooling, errors in memory, the patrol and key rotation, and the reset ladder (R18, R20 to R25,
R195 to R212). -/

namespace Sys2Proof.Machine

/-! ### Bring-up (R20 to R23) -/

/-- The bound of a stage in ns; none where the stage has none. The driver sets that of stage 6. -/
def stageBound (m : Module) (n : Nat) : Option Nat :=
  if n = 1 then some 2000000000
  else if n = 2 then some 1000000000
  else if n = 3 then some 20000000000
  else if n = 4 then some 10000000000
  else if n = 5 then some 5000000000
  else if n = 6 then m.stageBound
  else none

/-- The module in reset, stage 0 (R20): everything as after power-on, but the timer, which never runs backwards (R19), what lies
outside the reset (the fuses, the device's id, the non-volatile log, the firmware image, with an update taking effect (R21), after a
thermal trip too (log 90)), and the model's own fields. -/
def State.restart (s : State) : State :=
  { agenda := s.agenda, steps := s.steps, time := s.time, cycles := s.cycles, out := s.out,
    module := { fuseMin := s.module.fuseMin, image := s.module.update.getD s.module.image, devId := s.module.devId,
                nvLog := s.module.nvLog, stageAt := s.time } }

/-- `POWER_ON` (R20). -/
def execPowerOn (s : State) : Out := .next s.restart
/-- `DEVICE_RESET` (R20). -/
def execDeviceReset (s : State) : Out := .next s.restart

/-- The module enters a stage. -/
def State.enterStage (s : State) (n : Nat) (errcode : BitVec 16) : State :=
  { s with module := { s.module with stage := n, stageAt := s.time, errcode := errcode } }

/-- The boot ROM accepts the image (R21). -/
def Module.imageOk (m : Module) : Bool := m.image.signed && decide (m.fuseMin ≤ m.image.security)

/-- The work of a stage that leaves something in the state: the host link trained in stage 1; the identity keys of stage 2; memory,
scratchpads and probe tags zero, every domain's keys at version 0, in stage 4; the Avdex links trained in stage 5. What stage 6 enables
the driver and the fabric manager write themselves: route table, partition tables, functions. -/
def State.stageWork (s : State) (n : Nat) : State :=
  if n = 1 then { s with module := { s.module with hostLink := true } }
  else if n = 2 then { s with module := { s.module with identity := true } }
  else if n = 4 then
    { s with mem := [], log := [], counters := [], nodes := [], nodeMarks := [], domains := [], badLines := [],
             cores := s.cores.map (fun e => (e.1, { e.2 with probe := [], probeP := 0, recent := [], clean := true })) }
  else if n = 5 then { s with module := { s.module with avdexLink := true } }
  else s

/-- A stage's bound has passed. -/
def State.stageLate (s : State) : Bool :=
  match stageBound s.module s.module.stage with
  | some b => decide (s.module.stageAt + b < s.time)
  | none => false

/-- `BRING_UP_STAGE_COMPLETE` (R20, R21): a stage before 7 ends and the next begins; one that fails, is late, or finds an image that
the boot ROM does not accept sends the module to stage 15. -/
def execBringUpStageComplete (ok : Bool) (errcode : BitVec 16) (s : State) : Out :=
  let n := s.module.stage
  if 7 ≤ n then .next s
  else if ok ∧ !s.stageLate ∧ (n ≠ 1 ∨ s.module.imageOk) then .next ((s.stageWork n).enterStage (n + 1) s.module.errcode)
  else .next (s.enterStage 15 errcode)

/-- `BRING_UP_STAGE_TIMEOUT` (R20). -/
def execBringUpStageTimeout (errcode : BitVec 16) (s : State) : Out :=
  if s.module.stage < 7 ∧ s.stageLate then .next (s.enterStage 15 errcode) else .next s

/-- What happens in stage 15 (R20): firmware update and diagnostics over the management interfaces, the physical function's reads of
`DEVSTAT` and the rest of its block, resets, and what power and cooling do (log 97). A doorbell there is counted (R17), and a host's
access has its completion (R22). -/
def inRecovery : Instr → Bool
  | .managementMessage _ | .firmwareUpdateWrite _ | .hostRead _ _ _ _ _ | .hostWrite _ _ _ _ _ | .doorbellWrite _ _ _ _
  | .powerOn | .deviceReset | .deviceRung
  | .thermalTrip _ | .dieOverTemperature _ | .dieTemperatureRecovery _ | .powerLimitHold _ | .supplyDroop _ => true
  | _ => false

/-! ### Power and cooling (R18, R24, R25) -/

/-- `SUPPLY_DROOP` (R18): the group's clock is stretched, which changes elapsed time only. -/
def execSupplyDroop (group : Nat) (s : State) : Out :=
  .next { s with module := { s.module with stretched := s.module.stretched.filter (· != group) ++ [group] } }

/-- `DIE_OVER_TEMPERATURE` (R25). -/
def execDieOverTemperature (die : Nat) (s : State) : Out :=
  .next { s with module := { s.module with hotDies := s.module.hotDies.filter (· != die) ++ [die] } }

/-- `DIE_TEMPERATURE_RECOVERY` (R25). -/
def execDieTemperatureRecovery (die : Nat) (s : State) : Out :=
  .next { s with module := { s.module with hotDies := s.module.hotDies.filter (· != die) } }

/-- `POWER_LIMIT_HOLD` (R24). -/
def execPowerLimitHold (atLimit : Bool) (s : State) : Out :=
  .next { s with module := { s.module with powerHold := atLimit } }

/-- `THERMAL_TRIP` (R25): all work stops and is lost, the module is in stage 0, and the cause is reported. -/
def execThermalTrip (errcode : BitVec 16) (s : State) : Out := .next (s.restart.send (.report errcode))

/-! ### Errors in device memory (R196, R202 to R204, R207, R208) -/

/-- Channel `n`. -/
def State.channel (s : State) (n : Nat) : Channel := s.channels.get {} n
/-- Put channel `n`. -/
def State.setChannel (s : State) (n : Nat) (c : Channel) : State := { s with channels := s.channels.set n c }
/-- The compute die of an HBM channel's stack (R15). The spec numbers no channels. -/
def channelDie (n : Nat) : Nat := Config.channelDie n % 4

/-- `HBM_LINK_ERROR` (R202): a transfer passes after some replays; when the 8th fails, the channel retrains. -/
def execHbmLinkError (channel fails : Nat) (s : State) : Out :=
  let c := s.channel channel
  if c.fenced ∨ c.retrain then .next s
  else if 8 ≤ fails then .next (s.setChannel channel { c with fails := 8, retrain := true })
  else .next ((s.setChannel channel { c with fails := 0 }).countError 1 0 0 (channelDie channel) none channel)

/-- A line lies on a channel. -/
def onChannel (n a : Nat) : Bool := Config.channelOf (a / 64) == n

/-- The dirty sectors of dropped cache lines are lost: their next read fails its check (R204). -/
def State.loseLines (s : State) (drop : CacheLine → Bool) : State :=
  { s with
    cache := s.cache.filter (fun l => !drop l),
    badLines := s.badLines ++ (s.cache.filter drop).flatMap (fun l => l.dirty.map (fun i => l.addr / 64 + i)) }

/-- The lines of a tenant's own frames among some entries, each frame once. -/
def lostLines (v : Nat) (xs : List EntryAt) : Nat :=
  ((((xs.filter (fun x => x.vf == v && !peSk x.e)).map (fun x => (field x.e 0 48, x.bytes))).dedup).map (fun f => linesIn f.2)).foldl
    (· + ·) 0

/-- A channel's capacity leaves the tenants' allotments (R202): of each what firmware takes of it, and at least its frames that are lost
(log 91). -/
def State.shrinkAllots (s : State) (channel : Nat) (xs : List EntryAt) : State :=
  { s with tenants := s.tenants.map (fun e =>
      (e.1, { e.2 with mainAllot := e.2.mainAllot - max (lostLines e.1 xs) (Config.channelLoss channel e.1) })) }

/-- `HBM_CHANNEL_RETRAIN` (R202): the channel is back, or it is fenced: entries of main-tier frames on it are POISONED, cache lines held
on it dropped, and its capacity gone from the allotments. -/
def execHbmChannelRetrain (channel : Nat) (ok : Bool) (s : State) : Out :=
  let c := s.channel channel
  if !c.retrain then .next s
  else if ok then
    .next ((s.setChannel channel { c with fails := 0, retrain := false }).countError 1 1 0 (channelDie channel) none channel)
  else if s.poisonWaits true (onChannel channel) then .next s
  else
    let s1 := (s.setChannel channel { c with retrain := false, fenced := true }).loseLines
      (fun l => Config.cacheChannel l.way l.addr == channel)
    .next (((s1.poisonWhere true (onChannel channel)).shrinkAllots channel (s1.entriesWith true (onChannel channel))).countError 1 2 0
      (channelDie channel) none channel)

/-- Steps 1 and 2 of the move of a frame that is then retired (R159, R203). -/
def State.retireMove (s : State) (x : EntryAt) : State :=
  ({ s with moves := s.moves ++ [⟨x.vf, x.va, BitVec.ofNat 64 x.e⟩],
            retired := s.retired ++ [(field x.e 0 48 * 64, x.bytes)],
            second := if peState x.e = 2 then (s.second ++ [field x.e 0 48 * 64]).dedup else s.second,
            out := s.out ++ [.frameRetired (field x.e 0 48 * 64)] } : State).writeTable x.at_ 8 (reState x.e 4 (peFrame x.e))

/-- A corrected error of a line (R196, R203): the line is rewritten, and the error counted and recorded; the 16th of a frame in one patrol
pass moves and retires the frame, unless it is lent in place (log 101). -/
def State.corrected (s : State) (line die : Nat) (who : Option Nat) : State :=
  let s := s.bumpLine (64 * line)
  match if s.patrol.running then s.allEntries.filter (fun x => x.holds false (fun a => a / 64 == line)) else [] with
  | [] => s.countError 2 0 0 die who (64 * line)
  | x :: r =>
    let f := field x.e 0 48 * 64
    let n := s.patrol.correct.get 0 f + 1
    let s1 : State := { s with patrol := { s.patrol with correct := s.patrol.correct.set f n } }
    if n = 16 ∧ s.notLent f x.bytes then (x :: r).foldl State.retireMove (s1.countError 2 1 0 die who (64 * line))
    else s1.countError 2 0 0 die who (64 * line)

/-- Every running task of a tenant ends at the context rung for one error: the first rung that it starts carries its record, and where it
starts none the error is recorded at once (R200). -/
def State.rungTenant (s : State) (v cause cls die res : Nat) : State :=
  match s.teams.filter (fun e => e.2.vf == v && !e.2.cores.isEmpty && !s.rungOn e.1 e.2.cores) with
  | [] => s.countError cls 1 0 die (some v) res
  | e :: es =>
    let p := s.countOnly cls die (some v)
    es.foldl (fun s e => s.contextRung e.1 cause 0 res [])
      (p.1.startContext e.1 cause [] { cls := cls, die := die, vf := some v, res := res, count := p.2 })

/-- A tag parity error of a way's copy of a line (R208): in a shared way the entry is dropped and nothing else happens; in an exclusive
way its dirty sectors are lost, and every running task of the way's owner ends. -/
def State.tagParity (s : State) (line die way : Nat) : State :=
  match s.cache.find? (fun l => l.way == way && l.addr / 4096 == 64 * line / 4096) with
  | none => s
  | some l =>
    let s1 := s.loseLines (· == l)
    if wayExcl (s.way l.way) then s1.rungTenant (wayOwner (s.way l.way)) 0x0B 5 die (64 * line)
    else s1.countError 5 0 0 die none (64 * line)

/-- A line has failed for good (R195, R203): it stays bad, so that a lender gives none of it; every entry that holds its frame is
POISONED, the frame retired, the error counted. -/
def State.lineLost (s : State) (cls line die : Nat) (who : Option Nat) : State :=
  let s1 := s.poisonWhere false (fun a => a / 64 == line)
  ({ s1 with badLines := (s1.badLines ++ [line]).dedup } : State).countError cls 1 0 die who (64 * line)

/-- The tenant to which the patrol attributes an error of a line: the one whose key domain holds it (R197). -/
def State.patrolTenant (s : State) (line : Nat) : Option Nat :=
  let d := s.domainOf (64 * line)
  if 1 ≤ d ∧ d ≤ 1024 then some (d - 1) else none

/-- The tenant to which an error of a line is attributed (R197). -/
def State.metTenant (s : State) (line : Nat) : MetBy → Option Nat
  | .access v => v
  | .patrol => s.patrolTenant line
  | .way _ => none

/-- A second read of a line fails too: its newest copy is lost or its counters fail their check, or a tenant's access reads it and it is
held neither under the tenant's key nor under a shared one (R186, R204). -/
def State.readFails (s : State) (line : Nat) (who : Option Nat) : Bool :=
  let d := s.domainOf (64 * line)
  s.badLines.contains line || s.blockFails (64 * line / 2048)
    || who.any (fun v => d != v + 1 && !(decide (1025 ≤ d) && decide (d ≤ 1040)))

/-- `MEMORY_ERROR_REREAD` (R203): the second read of a line passes, and the error was transient, or the frame is poisoned. The error is
attributed to the tenant whose access met it, or, where the patrol did, to the tenant whose key domain holds the line (R197). The same
step carries a corrected error (class 2) and a tag parity error (class 5) of a way, which have no second read (R196, R208). What the
step writes waits where counters are spent (R206). -/
def execMemoryErrorReread (cls line die : Nat) (met : MetBy) (pass : Bool) (s : State) : Out :=
  let v := s.metTenant line met
  if 5 ≤ die then .next s
  else if cls = 2 then .next (if s.mustWait (64 * line) ∨ s.poisonWaits false (fun a => a / 64 == line) then s else s.corrected line die v)
  else if cls = 5 then .next (match met with
    | .way n => s.tagParity line die n
    | _ => s)
  else if cls ≠ 3 ∧ cls ≠ 4 then .next s
  else if pass ∧ !s.readFails line v then .next (s.countError cls 0 0 die v (64 * line))
  else if s.poisonWaits false (fun a => a / 64 == line) then .next s
  else .next (s.lineLost cls line die v)

/-- `CACHE_LINE_REFETCH` (R207): the dropped clean line is fetched again; where that fails, the second-tier line is read again, and
where that fails too both errors are lasting. They are attributed to the tenant whose access met the error, or, where the patrol did, to
the one whose key domain holds the line (R197). -/
def execCacheLineRefetch (line die : Nat) (by_ : Option Nat) (refetch reread : Bool) (s : State) : Out :=
  let who := if by_.isSome then by_ else s.patrolTenant line
  let s1 : State := { s with cache := s.cache.filter (fun l => l.addr / 4096 != 64 * line / 4096 || !l.dirty.isEmpty) }
  if 5 ≤ die then .next s
  else if refetch then .next (s1.countError 3 0 0 die who (64 * line))
  else if reread ∧ !s.readFails line who then
    .next ((s1.countError 3 0 0 die who (64 * line)).countError 3 0 0 4 who (64 * line))
  else if s.poisonWaits false (fun a => a / 64 == line) then .next s
  else .next ((s1.countError 3 1 0 die who (64 * line)).lineLost 3 line 4 who)

/-! ### Patrol and key rotation (R205, R206) -/

/-- Key domains (R185). -/
def keyDomains : Nat := 1297

/-- Some domain holds four versions. -/
def State.fourHeld (s : State) : Bool :=
  (List.range keyDomains).any (fun d => let k := s.domains.get {} d; k.held && decide (3 ≤ k.newest - k.oldest))

/-- `PATROL_PASS_START` (R206): every domain gets a new newest version, which is the pass's target; while four are held, the pass
waits. -/
def execPatrolPassStart (s : State) : Out :=
  if s.patrol.running ∨ s.fourHeld then .next s
  else
    let ds : List (Nat × Domain) := (List.range keyDomains).map (fun d =>
      let k := s.domains.get {} d
      (d, if k.held then { k with newest := k.newest + 1 } else k))
    .next { s with domains := ds, patrol := { running := true, next := 0, target := ds.map (fun e => (e.1, e.2.newest)),
                                              correct := [] } }

/-- The end of a pass: versions older than the target are retired and their keys destroyed. -/
def State.endPass (s : State) : State :=
  { s with
    domains := s.domains.map (fun e => (e.1, { e.2 with oldest := max e.2.oldest (s.patrol.target.get 0 e.1) })),
    patrol := { s.patrol with running := false, next := 0, correct := [] } }

/-- The die that holds a line: that of its HBM channel, or the I/O die, where the second tier is attached. -/
def State.lineDie (s : State) (line : Nat) : Nat :=
  if s.heldFrames.any (fun f => f.2.2 && decide (f.1 ≤ 64 * line) && decide (64 * line < f.1 + f.2.1)) then 4
  else channelDie (Config.channelOf line)

/-- The patrol finds that a line fails its check: its newest copy is lost, or its counters fail theirs (R186, R204). Those of a retired
frame hold nothing. -/
def State.patrolFails (s : State) (line : Nat) : Bool :=
  (s.badLines.contains line || s.blockFails (line / 32)) && !s.isRetired (64 * line)

/-- Steps 1 to 3 of R205: the lines of a counter block that fail their check are treated and counted. -/
def State.patrolCheck (s : State) (block : Nat) : State :=
  ((List.range 32).map (32 * block + ·)).foldl (fun u line =>
    if u.patrolFails line then u.lineLost 4 line (u.lineDie line) (u.patrolTenant line) else u) s

/-- The dirty sectors that the cache holds over a counter block are written back (R204, R205). -/
def writeBack (block : Nat) (l : CacheLine) : CacheLine :=
  { l with dirty := l.dirty.filter (fun i => (l.addr + 64 * i) / 2048 != block) }

/-- A block's version is older than the pass's target for the block's domain (R205). -/
def State.patrolOld (s : State) (block : Nat) : Bool :=
  let b : Counters := s.counters.get {} block
  decide (b.ver < s.patrol.target.get 0 b.dom)

/-- Steps 4 and 5 of R205: a block of an older version goes to the pass's target, its counters zero. -/
def State.patrolRekey (s : State) (block : Nat) : State :=
  if s.patrolOld block then
    let t := s.freshNodes block
    let d := (t.counters.get {} block).dom
    ({ t with counters := t.counters.set block { dom := d, ver := max (t.counters.get {} block).ver (s.patrol.target.get 0 d) } } :
      State).bumpPath block
  else s

/-- `PATROL_STEP` (R205): the next counter block in address order. Dirty cache lines over it are written back, its lines are checked, and
a block of an older version goes to the pass's target. An error that a second read clears, or that lies in a clean cache line, comes
with `MEMORY_ERROR_REREAD` or `CACHE_LINE_REFETCH`. What the step writes waits where counters are spent (R206). -/
def execPatrolStep (block : Nat) (s : State) : Out :=
  if !s.patrol.running ∨ block ≠ s.patrol.next then .next s
  else if s.poisonWaits false (fun a => a / 2048 == block && s.patrolFails (a / 64)) ∨ (s.patrolOld block ∧ s.nodeWaits block) then .next s
  else
    let s1 := (({ s with cache := s.cache.map (writeBack block) } : State).patrolCheck block).patrolRekey block
    let s2 : State := { s1 with patrol := { s1.patrol with next := block + 1 } }
    .next (if Config.physBytes ≤ 2048 * (block + 1) then s2.endPass else s2)

/-! ### The reset ladder (R199 to R201, R211) -/

/-- The tasks whose teams run on some cores. -/
def State.tasksOn (s : State) (cs : List Nat) : List (Nat × Nat) :=
  ((cs.map (fun c => (s.coreAt c).team)).filter (· != 0)).dedup.map (fun t => ((s.teamAt t).launch, (s.teamAt t).idx))

/-- The die that the record of a rung names which no error has started: that of its first core, or, of a queue, the I/O die. -/
def rungDie (cores : List Nat) : Nat := (cores.head?.map dieOf).getD 4

/-- A rung starts that no error has started. -/
def State.startRung (s : State) (kind target : Nat) (cores : List Nat) (tasks : List (Nat × Nat)) : State :=
  { s with rungs := s.rungs ++ [{ kind := kind, target := target, cores := cores, die := rungDie cores, start := s.time, at_ := s.time,
                                  tasks := tasks }] }

/-- `QUEUE_RUNG` (R199). -/
def execQueueRung (q : Nat) (s : State) : Out := .next ((s.disableQueue q).startRung 1 q [] [])

/-- `CONTEXT_RUNG` (R199, R201): every context of a task stops, and its record becomes FAILED with the cause. -/
def execContextRung (team : Nat) (cause : Lane) (ch : Choice) (s : State) : Out :=
  .next (s.contextRung team cause.toNat 0 (s.teamAt team).addr.toNat ch.ans)

/-- A core's engines are reset: their commands, queued and held, and their held signals are gone (R199). -/
def Core.resetEngines (k : Core) : Core :=
  let drop (c : Ctx) : Ctx := { c with ops := c.ops.filter (fun o => !isEngine o.code) }
  { k with ctl := drop k.ctl, ld := drop k.ld, cmp := drop k.cmp, st := drop k.st, biv := drop k.biv, flight := [],
           chain := none, occEnd := 0, frozen := false, waits := false,
           k := k.k.map (fun e => (e.1, { e.2 with waiting := e.2.waiting.filter (fun w => w != .engine false && w != .engine true) })) }

/-- The tasks on some cores end, by no error of their own (R201). -/
def State.endCores (s : State) : List Nat → State
  | [] => s
  | c :: r => State.endCores (s.failTeam (s.coreAt c).team 0x0A []) r

/-- Engines of some cores are reset. -/
def State.resetAll (s : State) : List Nat → State
  | [] => s
  | c :: r => State.resetAll (s.setCore c (s.coreAt c).resetEngines) r

/-- Self-tests have run: a core that passes has its fence lifted, one that fails is withdrawn, and the hypervisor told (R211). -/
def State.selfTests (s : State) : List (Nat × Bool) → State
  | [] => s
  | (c, ok) :: r =>
    let k := s.coreAt c
    State.selfTests (if ok then s.setCore c { k with fenced := false }
      else (s.setCore c { k with withdrawn := true }).send (.coreWithdrawn c)) r

/-- An engine rung in action whose engines have been tested now: one on some of the cores named; none where no such rung acts. -/
def State.markTested (s : State) (cs : List Nat) : Option State :=
  let hit (r : Rung) : Bool := r.kind == 3 && !r.tested && r.cores.all cs.contains
  if s.rungs.any hit then
    some { s with rungs := s.rungs.map (fun (r : Rung) => if hit r then { r with tested := true } else r) }
  else none

/-- `ENGINE_RUNG` (R199, R211): the tasks of the cores named end, their engines are reset and tested, for the rung that acts on them or
for a new one. -/
def execEngineRung (cores : List (Nat × Bool)) (s : State) : Out :=
  let cs := cores.map (·.1)
  let s1 := ((s.endCores cs).resetAll cs).selfTests cores
  match s1.markTested cs with
  | some s2 => .next s2
  | none =>
    .next { s1 with rungs := s1.rungs ++ [{ kind := 3, target := cs.headD 0, cores := cs, die := rungDie cs, start := s.time,
                                            at_ := s.time, tasks := s.tasksOn cs, tested := true }] }

/-- The cores of a partition. -/
def State.partCores (s : State) (n : Nat) : List Nat :=
  (List.range Config.cores).filter (fun c => PartDesc.has (s.part n).desc c)

/-- Zero the scratchpads of some cores. -/
def State.zeroAll (s : State) : List Nat → State
  | [] => s
  | c :: r => State.zeroAll (s.zeroScratch c) r

/-- The partition rung's action (R199), with the error that led to it. -/
def State.partitionAct (s : State) (n : Nat) (r : Rung) : State :=
  let cs := s.partCores n
  let s1 := ((s.endCores cs).resetAll cs).zeroAll cs
  { s1 with rungs := s1.rungs ++ [{ r with kind := 4, target := n, cores := cs, start := s.time, tasks := r.tasks ++ s.tasksOn cs }] }

/-- `PARTITION_RUNG` (R199). -/
def execPartitionRung (n : Nat) (s : State) : Out := .next (s.partitionAct n { die := rungDie (s.partCores n), at_ := s.time })

/-- The record of a rung: of the error that has started it, if one has, of the die and the time at which it was detected, with the rung
taken in the end (R198, R200, log 23). -/
def Rung.record (r : Rung) (kind : Nat) : ErrRec :=
  ⟨r.cls, r.outcome, kind, r.die, r.vf.getD 0xFFFF, r.res, r.at_, r.count⟩

/-- The device rung (R199, R200): the module is reset, and a record goes to the management processor's non-volatile log. -/
def State.deviceAct (s : State) (r : Rung) : State :=
  State.restart { s with module := { s.module with nvLog := s.module.nvLog ++ [r.record 5] } }

/-- `DEVICE_RUNG` (R199). -/
def execDeviceRung (s : State) : Out := .next (s.deviceAct { die := 4, at_ := s.time })

/-- The record of a task is owed no change. -/
def Tk.settled (t : Tk) : Bool :=
  match t.st with
  | .owed _ _ _ => false
  | _ => true

/-- A task that a rung ends has come to its end: its record is owed no change, here or at its owner. -/
def State.taskEnded (s : State) (e : Nat × Nat) : Bool :=
  match s.findTk e.1 e.2 with
  | some t => t.settled && t.st != .running
  | none => true

/-- The launches of a disabled queue that were unread are cancelled, and no record of its tasks is owed a change. -/
def State.queueCleared (s : State) (q : Nat) : Bool :=
  (s.queue q).doomed.isEmpty && s.tasks.all (fun t => t.settled || (match s.launch t.launch with
    | some l => l.queue != q
    | none => true))

/-- A rung's action has taken effect on everything it acts on: its tasks have ended, the launches of its queue that were unread are
cancelled, and its engines are tested (R199, R200). -/
def State.rungDone (s : State) (r : Rung) : Bool :=
  r.tasks.all s.taskEnded && (r.kind != 1 || s.queueCleared r.target) && (r.kind != 3 || r.tested)

/-- `RUNG_COMPLETE` (R198, R200): idle; the rung is recorded, with the error that started the ladder, if one did (log 23). -/
def execRungComplete (rung : Nat) (s : State) : Out :=
  match s.rungs[rung]? with
  | none => .next s
  | some r =>
    if !s.rungDone r then .next s
    else .next (({ s with rungs := s.rungs.eraseIdx rung } : State).writeRecord (r.record r.kind))

/-- The timeout of a rung in ns; the device rung has the bounds of R20. -/
def rungBound (kind : Nat) : Nat :=
  if kind = 1 then 1000000 else if kind = 2 then 10000000 else if kind = 3 then 50000000 else 200000000

/-- The valid partitions that hold some cores. -/
def State.partsOf (s : State) (cs : List Nat) : List Nat :=
  (List.range Config.partitions).filter (fun n => PartDesc.valid (s.part n).desc && cs.any (PartDesc.has (s.part n).desc))

/-- The partition rung on each of some partitions; the first carries the error. -/
def State.partitionsAct (s : State) (r : Rung) : List Nat → State
  | [] => { s with rungs := s.rungs ++ [{ r with kind := 4, start := s.time }] }
  | n :: ns => ns.foldl (fun u m => u.partitionAct m { die := rungDie (u.partCores m), at_ := s.time }) (s.partitionAct n r)

/-- The next rung takes over what a rung acted on, and the error that started it (R200). An engine rung waits for the tests that
`ENGINE_RUNG` runs. -/
def State.escalate (s : State) (r : Rung) : State :=
  if r.kind = 1 then
    (s.teams.filter (fun e => e.2.queue == r.target)).foldl (fun s e => s.contextRung e.1 0x0A 0 r.res []) s
  else if r.kind = 2 then
    let s1 := (s.endCores r.cores).resetAll r.cores
    { s1 with rungs := s1.rungs ++ [{ r with kind := 3, target := r.cores.headD 0, start := s.time, tested := false,
                                             tasks := r.tasks ++ s.tasksOn r.cores }] }
  else if r.kind = 3 then s.partitionsAct r (s.partsOf r.cores)
  else s.deviceAct r

/-- `RUNG_TIMEOUT` (R200): a rung whose action has not taken effect in its time is escalated. -/
def execRungTimeout (rung : Nat) (s : State) : Out :=
  match s.rungs[rung]? with
  | none => .next s
  | some r =>
    if !s.rungDone r ∧ r.start + rungBound r.kind ≤ s.time then .next (({ s with rungs := s.rungs.eraseIdx rung } : State).escalate r)
    else .next s

end Sys2Proof.Machine
end

