-- ==== Sys2Proof/Machine/Dispatch.lean ====
section
/-! DEFINITION. The dispatch of every instruction and machine step to its meaning. -/

namespace Sys2Proof.Machine

/-- What one instruction or machine step does. -/
def exec (i : Instr) (s : State) : Host.Outcome State Fault Refusal :=
  match i with
  | .nop => Sys2Proof.Machine.execNop s
  | .mov d src => Sys2Proof.Machine.execMov d src s
  | .addC d src => Sys2Proof.Machine.execAddC d src s
  | .subC d src => Sys2Proof.Machine.execSubC d src s
  | .andC d src => Sys2Proof.Machine.execAndC d src s
  | .orC d src => Sys2Proof.Machine.execOrC d src s
  | .xorC d src => Sys2Proof.Machine.execXorC d src s
  | .movk d k => Sys2Proof.Machine.execMovk d k s
  | .addk d k => Sys2Proof.Machine.execAddk d k s
  | .shlk d k => Sys2Proof.Machine.execShlk d k s
  | .shrk d k => Sys2Proof.Machine.execShrk d k s
  | .leave => Sys2Proof.Machine.execLeave s
  | .ret => Sys2Proof.Machine.execRet s
  | .ypop d => Sys2Proof.Machine.execYpop d s
  | .zpop d => Sys2Proof.Machine.execZpop d s
  | .cput src => Sys2Proof.Machine.execCput src s
  | .cget d => Sys2Proof.Machine.execCget d s
  | .add d a b => Sys2Proof.Machine.execAdd d a b s
  | .sub d a b => Sys2Proof.Machine.execSub d a b s
  | .mul d a b => Sys2Proof.Machine.execMul d a b s
  | .mulhs d a b => Sys2Proof.Machine.execMulhs d a b s
  | .mulhu d a b => Sys2Proof.Machine.execMulhu d a b s
  | .divs d a b => Sys2Proof.Machine.execDivs d a b s
  | .divu d a b => Sys2Proof.Machine.execDivu d a b s
  | .rems d a b => Sys2Proof.Machine.execRems d a b s
  | .remu d a b => Sys2Proof.Machine.execRemu d a b s
  | .and d a b => Sys2Proof.Machine.execAnd d a b s
  | .or d a b => Sys2Proof.Machine.execOr d a b s
  | .xor d a b => Sys2Proof.Machine.execXor d a b s
  | .andn d a b => Sys2Proof.Machine.execAndn d a b s
  | .shl d a b => Sys2Proof.Machine.execShl d a b s
  | .shr d a b => Sys2Proof.Machine.execShr d a b s
  | .sar d a b => Sys2Proof.Machine.execSar d a b s
  | .rot d a b => Sys2Proof.Machine.execRot d a b s
  | .min d a b => Sys2Proof.Machine.execMin d a b s
  | .max d a b => Sys2Proof.Machine.execMax d a b s
  | .minu d a b => Sys2Proof.Machine.execMinu d a b s
  | .maxu d a b => Sys2Proof.Machine.execMaxu d a b s
  | .slt d a b => Sys2Proof.Machine.execSlt d a b s
  | .sltu d a b => Sys2Proof.Machine.execSltu d a b s
  | .seq d a b => Sys2Proof.Machine.execSeq d a b s
  | .sel d a b => Sys2Proof.Machine.execSel d a b s
  | .clz d a => Sys2Proof.Machine.execClz d a s
  | .ctz d a => Sys2Proof.Machine.execCtz d a s
  | .popc d a => Sys2Proof.Machine.execPopc d a s
  | .brev d a => Sys2Proof.Machine.execBrev d a s
  | .extu d a width lsb => Sys2Proof.Machine.execExtu d a width lsb s
  | .exts d a width lsb => Sys2Proof.Machine.execExts d a width lsb s
  | .ins d a width lsb => Sys2Proof.Machine.execIns d a width lsb s
  | .lea d a b sh => Sys2Proof.Machine.execLea d a b sh s
  | .addi d a imm => Sys2Proof.Machine.execAddi d a imm s
  | .andi d a imm => Sys2Proof.Machine.execAndi d a imm s
  | .ori d a imm => Sys2Proof.Machine.execOri d a imm s
  | .xori d a imm => Sys2Proof.Machine.execXori d a imm s
  | .shli d a sh => Sys2Proof.Machine.execShli d a sh s
  | .shri d a sh => Sys2Proof.Machine.execShri d a sh s
  | .sari d a sh => Sys2Proof.Machine.execSari d a sh s
  | .movi d imm => Sys2Proof.Machine.execMovi d imm s
  | .moviIc d n => Sys2Proof.Machine.execMoviIc d n s
  | .movhi d a imm => Sys2Proof.Machine.execMovhi d a imm s
  | .slti d a imm => Sys2Proof.Machine.execSlti d a imm s
  | .beq a b off => Sys2Proof.Machine.execBeq a b off s
  | .bne a b off => Sys2Proof.Machine.execBne a b off s
  | .blt a b off => Sys2Proof.Machine.execBlt a b off s
  | .bge a b off => Sys2Proof.Machine.execBge a b off s
  | .bltu a b off => Sys2Proof.Machine.execBltu a b off s
  | .bgeu a b off => Sys2Proof.Machine.execBgeu a b off s
  | .br off => Sys2Proof.Machine.execBr off s
  | .brl off => Sys2Proof.Machine.execBrl off s
  | .brx a => Sys2Proof.Machine.execBrx a s
  | .skipz a n => Sys2Proof.Machine.execSkipz a n s
  | .skipnz a n => Sys2Proof.Machine.execSkipnz a n s
  | .trap code => Sys2Proof.Machine.execTrap code s
  | .rte => Sys2Proof.Machine.execRte s
  | .mfs d n => Sys2Proof.Machine.execMfs d n s
  | .mts src n => Sys2Proof.Machine.execMts src n s
  | .id d n => Sys2Proof.Machine.execId d n s
  | .time d => Sys2Proof.Machine.execTime d s
  | .endtask => Sys2Proof.Machine.execEndtask s
  | .cfread d n => Sys2Proof.Machine.execCfread d n s
  | .blockHeader h => Sys2Proof.Machine.execBlockHeader h s
  | .dataHeader len => Sys2Proof.Machine.execDataHeader len s
  | .bodyEnd => Sys2Proof.Machine.execBodyEnd s
  | .instructionFetch c x ch => Sys2Proof.Machine.execInstructionFetch c x ch s
  | .vadd f => Sys2Proof.Machine.execVadd f s
  | .vsub f => Sys2Proof.Machine.execVsub f s
  | .vmul f => Sys2Proof.Machine.execVmul f s
  | .vfma f => Sys2Proof.Machine.execVfma f s
  | .vfms f => Sys2Proof.Machine.execVfms f s
  | .vfnma f => Sys2Proof.Machine.execVfnma f s
  | .vmin f => Sys2Proof.Machine.execVmin f s
  | .vmax f => Sys2Proof.Machine.execVmax f s
  | .vabs f => Sys2Proof.Machine.execVabs f s
  | .vneg f => Sys2Proof.Machine.execVneg f s
  | .vdiv f => Sys2Proof.Machine.execVdiv f s
  | .vsqrt f => Sys2Proof.Machine.execVsqrt f s
  | .vrsqrt f => Sys2Proof.Machine.execVrsqrt f s
  | .vrcp f => Sys2Proof.Machine.execVrcp f s
  | .vexp2 f => Sys2Proof.Machine.execVexp2 f s
  | .vlog2 f => Sys2Proof.Machine.execVlog2 f s
  | .viadd f => Sys2Proof.Machine.execViadd f s
  | .visub f => Sys2Proof.Machine.execVisub f s
  | .vimul f => Sys2Proof.Machine.execVimul f s
  | .vimulh f => Sys2Proof.Machine.execVimulh f s
  | .vand f => Sys2Proof.Machine.execVand f s
  | .vor f => Sys2Proof.Machine.execVor f s
  | .vxor f => Sys2Proof.Machine.execVxor f s
  | .vshl f => Sys2Proof.Machine.execVshl f s
  | .vshr f => Sys2Proof.Machine.execVshr f s
  | .vsar f => Sys2Proof.Machine.execVsar f s
  | .vimin f => Sys2Proof.Machine.execVimin f s
  | .vimax f => Sys2Proof.Machine.execVimax f s
  | .vcmp f => Sys2Proof.Machine.execVcmp f s
  | .vicmp f => Sys2Proof.Machine.execVicmp f s
  | .pand f => Sys2Proof.Machine.execPand f s
  | .por f => Sys2Proof.Machine.execPor f s
  | .pxor f => Sys2Proof.Machine.execPxor f s
  | .pandn f => Sys2Proof.Machine.execPandn f s
  | .pnot f => Sys2Proof.Machine.execPnot f s
  | .pset f => Sys2Proof.Machine.execPset f s
  | .vsum f => Sys2Proof.Machine.execVsum f s
  | .vmov f => Sys2Proof.Machine.execVmov f s
  | .vsel f => Sys2Proof.Machine.execVsel f s
  | .vbcast f => Sys2Proof.Machine.execVbcast f s
  | .viota f => Sys2Proof.Machine.execViota f s
  | .vperm f => Sys2Proof.Machine.execVperm f s
  | .vslide f => Sys2Proof.Machine.execVslide f s
  | .vline f => Sys2Proof.Machine.execVline f s
  | .vputl f => Sys2Proof.Machine.execVputl f s
  | .vreduce f => Sys2Proof.Machine.execVreduce f s
  | .vcvt f => Sys2Proof.Machine.execVcvt f s
  | .vpackbx f => Sys2Proof.Machine.execVpackbx f s
  | .vunpkbx f => Sys2Proof.Machine.execVunpkbx f s
  | .vseed f => Sys2Proof.Machine.execVseed f s
  | .ldB f => Sys2Proof.Machine.execLdB f s
  | .ldH f => Sys2Proof.Machine.execLdH f s
  | .ldW f => Sys2Proof.Machine.execLdW f s
  | .ldD f => Sys2Proof.Machine.execLdD f s
  | .ldsB f => Sys2Proof.Machine.execLdsB f s
  | .ldsH f => Sys2Proof.Machine.execLdsH f s
  | .ldsW f => Sys2Proof.Machine.execLdsW f s
  | .stB f => Sys2Proof.Machine.execStB f s
  | .stH f => Sys2Proof.Machine.execStH f s
  | .stW f => Sys2Proof.Machine.execStW f s
  | .stD f => Sys2Proof.Machine.execStD f s
  | .ldq f => Sys2Proof.Machine.execLdq f s
  | .ldqs f => Sys2Proof.Machine.execLdqs f s
  | .stq f => Sys2Proof.Machine.execStq f s
  | .stqs f => Sys2Proof.Machine.execStqs f s
  | .ldx f => Sys2Proof.Machine.execLdx f s
  | .ldtab f => Sys2Proof.Machine.execLdtab f s
  | .ldm f => Sys2Proof.Machine.execLdm f s
  | .stm f => Sys2Proof.Machine.execStm f s
  | .ldb f => Sys2Proof.Machine.execLdb f s
  | .xcopy f => Sys2Proof.Machine.execXcopy f s
  | .pref f => Sys2Proof.Machine.execPref f s
  | .probe f => Sys2Proof.Machine.execProbe f s
  | .prels f => Sys2Proof.Machine.execPrels f s
  | .pconv f => Sys2Proof.Machine.execPconv f s
  | .plnew f => Sys2Proof.Machine.execPlnew f s
  | .plprot f => Sys2Proof.Machine.execPlprot f s
  | .pldrop f => Sys2Proof.Machine.execPldrop f s
  | .ksig f => Sys2Proof.Machine.execKsig f s
  | .ktake f => Sys2Proof.Machine.execKtake f s
  | .ktaket f => Sys2Proof.Machine.execKtaket f s
  | .aadd f => Sys2Proof.Machine.execAadd f s
  | .afadd f => Sys2Proof.Machine.execAfadd f s
  | .amin f => Sys2Proof.Machine.execAmin f s
  | .amax f => Sys2Proof.Machine.execAmax f s
  | .aand f => Sys2Proof.Machine.execAand f s
  | .aor f => Sys2Proof.Machine.execAor f s
  | .axor f => Sys2Proof.Machine.execAxor f s
  | .axchg f => Sys2Proof.Machine.execAxchg f s
  | .acas f => Sys2Proof.Machine.execAcas f s
  | .ald f => Sys2Proof.Machine.execAld f s
  | .ast f => Sys2Proof.Machine.execAst f s
  | .abarm f => Sys2Proof.Machine.execAbarm f s
  | .abwait f => Sys2Proof.Machine.execAbwait f s
  | .evsig f => Sys2Proof.Machine.execEvsig f s
  | .evwait f => Sys2Proof.Machine.execEvwait f s
  | .evreset f => Sys2Proof.Machine.execEvreset f s
  | .launch f => Sys2Proof.Machine.execLaunch f s
  | .steal f => Sys2Proof.Machine.execSteal f s
  | .tstate f => Sys2Proof.Machine.execTstate f s
  | .bjoin f => Sys2Proof.Machine.execBjoin f s
  | .bwait f => Sys2Proof.Machine.execBwait f s
  | .blog f => Sys2Proof.Machine.execBlog f s
  | .msend f => Sys2Proof.Machine.execMsend f s
  | .xgath f => Sys2Proof.Machine.execXgath f s
  | .xscat f => Sys2Proof.Machine.execXscat f s
  | .xnzs f => Sys2Proof.Machine.execXnzs f s
  | .xhot f => Sys2Proof.Machine.execXhot f s
  | .mma f => Sys2Proof.Machine.execMma f s
  | .mscale f => Sys2Proof.Machine.execMscale f s
  | .mzero f => Sys2Proof.Machine.execMzero f s
  | .mmov f => Sys2Proof.Machine.execMmov f s
  | .mstat f => Sys2Proof.Machine.execMstat f s
  | .mcheck f => Sys2Proof.Machine.execMcheck f s
  | .resultLanding c => Sys2Proof.Machine.execResultLanding c s
  | .mmaDrain c fails => Sys2Proof.Machine.execMmaDrain c fails s
  | .operationPerform c x op ch => Sys2Proof.Machine.execOperationPerform c x op ch s
  | .writePropagate seq => Sys2Proof.Machine.execWritePropagate seq s
  | .engineCommandStart c x op ch => Sys2Proof.Machine.execEngineCommandStart c x op ch s
  | .engineElementAccess c x op act ch => Sys2Proof.Machine.execEngineElementAccess c x op act ch s
  | .engineCommandComplete c x op ch => Sys2Proof.Machine.execEngineCommandComplete c x op ch s
  | .heldSignalDelivery c k => Sys2Proof.Machine.execHeldSignalDelivery c k s
  | .waitTimeout c x op => Sys2Proof.Machine.execWaitTimeout c x op s
  | .bivouacEntry c => Sys2Proof.Machine.execBivouacEntry c s
  | .hostWrite vf va data ide ch => Sys2Proof.Machine.execHostWrite vf va data ide ch s
  | .hostRead vf va n ide ch => Sys2Proof.Machine.execHostRead vf va n ide ch s
  | .doorbellWrite vf q header ide => Sys2Proof.Machine.execDoorbellWrite vf q header ide s
  | .queueSlotMap q => Sys2Proof.Machine.execQueueSlotMap q s
  | .quantumBoundary ch => Sys2Proof.Machine.execQuantumBoundary ch s
  | .launchAccept q ch => Sys2Proof.Machine.execLaunchAccept q ch s
  | .taskDispatch launch idx cores ch => Sys2Proof.Machine.execTaskDispatch launch idx cores ch s
  | .fillTaskAging launch idx => Sys2Proof.Machine.execFillTaskAging launch idx s
  | .taskComplete team ch => Sys2Proof.Machine.execTaskComplete team ch s
  | .taskWatchdog team ch => Sys2Proof.Machine.execTaskWatchdog team ch s
  | .sliceEnd vf => Sys2Proof.Machine.execSliceEnd vf s
  | .launchCancel launch ch => Sys2Proof.Machine.execLaunchCancel launch ch s
  | .queueDisable q => Sys2Proof.Machine.execQueueDisable q s
  | .stealLost launch idx ch => Sys2Proof.Machine.execStealLost launch idx ch s
  | .stolenTaskEnd team ch => Sys2Proof.Machine.execStolenTaskEnd team ch s
  | .scratchpadZeroing c => Sys2Proof.Machine.execScratchpadZeroing c s
  | .frameAllocate vf va frame => Sys2Proof.Machine.execFrameAllocate vf va frame s
  | .pageIn vf va frame data => Sys2Proof.Machine.execPageIn vf va frame data s
  | .tableBuild vf va tables => Sys2Proof.Machine.execTableBuild vf va tables s
  | .frameMove vf va fin data => Sys2Proof.Machine.execFrameMove vf va fin data s
  | .leaseOffer lease borrower deadline rdonly base len reserved => Sys2Proof.Machine.execLeaseOffer lease borrower deadline rdonly base len reserved s
  | .leaseAccept lender lent => Sys2Proof.Machine.execLeaseAccept lender lent s
  | .leaseDecline lender lease => Sys2Proof.Machine.execLeaseDecline lender lease s
  | .leaseOfferTimeout lease => Sys2Proof.Machine.execLeaseOfferTimeout lease s
  | .leaseRelease lender lease => Sys2Proof.Machine.execLeaseRelease lender lease s
  | .leaseReclaim lender lease => Sys2Proof.Machine.execLeaseReclaim lender lease s
  | .evictionHandshake lender lease moves => Sys2Proof.Machine.execEvictionHandshake lender lease moves s
  | .leaseAcknowledge lender lease => Sys2Proof.Machine.execLeaseAcknowledge lender lease s
  | .firstWindowEnd lease => Sys2Proof.Machine.execFirstWindowEnd lease s
  | .secondWindowEnd lender lease => Sys2Proof.Machine.execSecondWindowEnd lender lease s
  | .revokedLeaseFree lease => Sys2Proof.Machine.execRevokedLeaseFree lease s
  | .forwardedAccess at_ borrower lease addr wr => Sys2Proof.Machine.execForwardedAccess at_ borrower lease addr wr s
  | .avdexRequest port tag ftid req ch => Sys2Proof.Machine.execAvdexRequest port tag ftid req ch s
  | .fabricRequesterTimeout c x op => Sys2Proof.Machine.execFabricRequesterTimeout c x op s
  | .flitReplay port fails => Sys2Proof.Machine.execFlitReplay port fails s
  | .avdexLinkRetrain port ok routes => Sys2Proof.Machine.execAvdexLinkRetrain port ok routes s
  | .linkRekey port => Sys2Proof.Machine.execLinkRekey port s
  | .partitionDescriptorWrite n d => Sys2Proof.Machine.execPartitionDescriptorWrite n d s
  | .partitionWriteEffect n => Sys2Proof.Machine.execPartitionWriteEffect n s
  | .tenantControlWordWrite vf w => Sys2Proof.Machine.execTenantControlWordWrite vf w s
  | .wayRegisterWrite way w => Sys2Proof.Machine.execWayRegisterWrite way w s
  | .portPartitionTableWrite port tag permit => Sys2Proof.Machine.execPortPartitionTableWrite port tag permit s
  | .getTdispVersion vf => Sys2Proof.Machine.execGetTdispVersion vf s
  | .getTdispCapabilities vf => Sys2Proof.Machine.execGetTdispCapabilities vf s
  | .lockInterface vf => Sys2Proof.Machine.execLockInterface vf s
  | .getDeviceInterfaceReport vf => Sys2Proof.Machine.execGetDeviceInterfaceReport vf s
  | .getDeviceInterfaceState vf => Sys2Proof.Machine.execGetDeviceInterfaceState vf s
  | .startInterface vf => Sys2Proof.Machine.execStartInterface vf s
  | .stopInterface vf => Sys2Proof.Machine.execStopInterface vf s
  | .tdispError vf cause => Sys2Proof.Machine.execTdispError vf cause s
  | .ideKm stream vf req => Sys2Proof.Machine.execIdeKm stream vf req s
  | .spdmRequest die req => Sys2Proof.Machine.execSpdmRequest die req s
  | .tenantRemoval vf => Sys2Proof.Machine.execTenantRemoval vf s
  | .managementMessage m => Sys2Proof.Machine.execManagementMessage m s
  | .firmwareUpdateWrite image => Sys2Proof.Machine.execFirmwareUpdateWrite image s
  | .powerLimitWrite watts => Sys2Proof.Machine.execPowerLimitWrite watts s
  | .registerWrite r v => Sys2Proof.Machine.execRegisterWrite r v s
  | .powerOn => Sys2Proof.Machine.execPowerOn s
  | .deviceReset => Sys2Proof.Machine.execDeviceReset s
  | .bringUpStageComplete ok errcode => Sys2Proof.Machine.execBringUpStageComplete ok errcode s
  | .bringUpStageTimeout errcode => Sys2Proof.Machine.execBringUpStageTimeout errcode s
  | .supplyDroop group => Sys2Proof.Machine.execSupplyDroop group s
  | .dieOverTemperature die => Sys2Proof.Machine.execDieOverTemperature die s
  | .thermalTrip errcode => Sys2Proof.Machine.execThermalTrip errcode s
  | .hbmLinkError channel fails => Sys2Proof.Machine.execHbmLinkError channel fails s
  | .hbmChannelRetrain channel ok => Sys2Proof.Machine.execHbmChannelRetrain channel ok s
  | .memoryErrorReread cls line die met pass => Sys2Proof.Machine.execMemoryErrorReread cls line die met pass s
  | .cacheLineRefetch line die who refetch reread => Sys2Proof.Machine.execCacheLineRefetch line die who refetch reread s
  | .patrolStep block => Sys2Proof.Machine.execPatrolStep block s
  | .patrolPassStart => Sys2Proof.Machine.execPatrolPassStart s
  | .queueRung q => Sys2Proof.Machine.execQueueRung q s
  | .contextRung team cause ch => Sys2Proof.Machine.execContextRung team cause ch s
  | .engineRung cores => Sys2Proof.Machine.execEngineRung cores s
  | .partitionRung n => Sys2Proof.Machine.execPartitionRung n s
  | .deviceRung => Sys2Proof.Machine.execDeviceRung s
  | .rungComplete rung => Sys2Proof.Machine.execRungComplete rung s
  | .rungTimeout rung => Sys2Proof.Machine.execRungTimeout rung s
  | .sliceStart vf => Sys2Proof.Machine.execSliceStart vf s
  | .tenantTableChange vf ch => Sys2Proof.Machine.execTenantTableChange vf ch s
  | .powerLimitHold atLimit => Sys2Proof.Machine.execPowerLimitHold atLimit s
  | .dieTemperatureRecovery die => Sys2Proof.Machine.execDieTemperatureRecovery die s

end Sys2Proof.Machine
end

