-- ==== Sys2Proof/Machine/Step.lean ====
section
/-! DEFINITION. One step of the machine: the next turn, the issue of one context's next instruction, and the placing of an
instruction where the next step fetches it. -/

namespace Sys2Proof.Machine

/-- Run the instruction whose parcels a context has fetched (R52, R67, R68): at an entry offset they must be a block header; an
instruction that would cross the innermost body end, or that does not decode, traps as illegal instruction. -/
def runParcels (ps : List Parcel) (s : State) : Out :=
  let k := s.cur
  let w := wordOf ps
  let top := w / 2 ^ (16 * (ps.length - 1))
  let s1 := s.setCur { k with fetched := none, atEntry := false }
  if k.atEntry && (top / 2 ^ 12 != 15 || top / 2 ^ 10 % 4 == 3) then .next (s.takeTrap 4 k.pc)
  else if k.atEntry && top / 2 ^ 10 % 4 == 2 then .next (s.takeTrap 5 k.pc)
  else if crosses k.loops k.pc.toNat ps.length then .next (s1.takeTrap 1 (BitVec.ofNat 64 w))
  else
    match decode (codeBytes ps) with
    | .ok i => exec i s1
    | .error _ => .next (s1.takeTrap 1 (BitVec.ofNat 64 w))

/-- A context can issue: it runs, no operation holds its issue, and the primary control context is not suspended (R34). -/
def State.canIssue (s : State) (c : Nat) (x : CtxId) : Bool :=
  let k := s.ctxAt c x
  k.run == .running && k.hold.isNone && (x != .ctl || (s.coreAt c).biv.run != .running)

/-- The issuing context stands at its innermost body end (R67). -/
def State.atBodyEnd (s : State) : Bool :=
  match s.cur.loops with
  | e :: _ => s.pc.toNat == e.bodyEnd
  | [] => false

/-- The parcels at the issuing context's pc: those it holds, or those it fetches (R217). -/
def State.fetchNow (s : State) : Fetch :=
  match s.cur.fetched with
  | some (o, ps) => if o = s.pc then .parcels ps else s.fetchAt s.core s.ctx 0 s.pc.toNat
  | none => s.fetchAt s.core s.ctx 0 s.pc.toNat

/-- The issuing context issues its next instruction. -/
def issueNext (s : State) : Out :=
  if !s.canIssue s.core s.ctx then .next s
  else if s.atBodyEnd then exec .bodyEnd s
  else
    match s.fetchNow with
    | .parcels ps => runParcels ps s
    | f => s.fetchStops s.core s.ctx s.pc f

/-- Time passes with a step (R18, R19). -/
def State.tick (s : State) : State :=
  { s with steps := s.steps + 1, time := s.time + Config.stepNs s.steps, cycles := s.cycles + Config.stepCycles s.steps }

/-! ### Turns -/

/-- An issue slot elapses in which the compute sequencer has an X64 instruction wait for the matrix occupancy, and nothing issues (R73,
log 11). -/
def State.idleSlot (s : State) (c : Nat) : State :=
  let k := s.coreAt c
  if k.cmp.run == .running && k.cmp.exposed && k.waits && !k.frozen && decide (k.slot < k.occEnd) then s.setCore c (k.tick 1) else s

/-- The contexts in the order the machine takes them when nothing else is said. -/
def ctxOrder (n : Nat) : CtxId :=
  match n % 5 with
  | 0 => .ctl
  | 1 => .ld
  | 2 => .cmp
  | 3 => .st
  | _ => .biv

/-- An access that a started engine command can make next, the `n`-th of them round and round. -/
def nextAccess (o : Op) (n : Nat) : EngineAct :=
  let open_ := o.eng.elems.filterMap (fun e =>
    match e.2 with
    | .at _ => some (if o.code = 0x63 then EngineAct.write e.1 else EngineAct.read e.1)
    | .got _ _ => some (EngineAct.write e.1)
    | _ => none)
  if o.eng.checked < o.eng.total then (open_ ++ [EngineAct.check]).getD (n % (open_.length + 1)) EngineAct.check
  else open_.getD (n % open_.length) EngineAct.check

/-- What comes next for an operation: it performs, or, of an engine command, it starts, makes an access or completes; a performed one
leaves its stream. -/
def nextFor (c : Nat) (x : CtxId) (o : Op) (n : Nat) : Turn :=
  if o.st == .done then .retire c x o.id
  else if !isEngine o.code then .event (.operationPerform c x o.id {})
  else if o.st == .issued then .event (.engineCommandStart c x o.id {})
  else if o.eng.checked < o.eng.total ∨ o.eng.elems.any (fun e => e.2 != .done) then
    (if n % 8 = 0 then .event (.engineCommandComplete c x o.id {}) else .event (.engineElementAccess c x o.id (nextAccess o n) {}))
  else .event (.engineCommandComplete c x o.id {})

/-- The groups of a partition that can hold a task's team. -/
def State.groupsFor (s : State) (t : Tk) : List Nat :=
  let d := (s.part (s.tenant (s.tkVf t)).part).desc
  (s.groupsOf d).filter (fun g => decide (t.size ≤ (s.groupCores d g).length))

/-- The first READY task, of all tenants, that no group scheduler has been handed yet, and the group it goes to: each of its partition's
that can hold its team, in its turn. A task that none can hold stays with the dispatcher (R211). -/
def State.nextHand (s : State) (n : Nat) : Option Turn :=
  (s.tasks.find? (fun t => t.st == .ready && t.group.isNone && !(s.groupsFor t).isEmpty)).bind (fun t =>
    let gs := s.groupsFor t
    gs[n % gs.length]?.map (fun g => .hand t.launch t.idx g))

/-- One of some things, round and round. -/
def oneOf {α : Type} (l : List α) (n : Nat) : Option α := l[n % l.length]?

/-- A task that its group scheduler can dispatch, and idle cores for its team: each such task in its turn, as the read of one's record
may have to wait. -/
def State.nextDispatch (s : State) (n : Nat) : Option Turn :=
  oneOf (s.tasks.filterMap (fun t =>
    let v := s.tkVf t
    let d := (s.part (s.tenant v).part).desc
    match s.groupOf (s.tenant v).part t with
    | some g =>
      let cs := ((s.groupCores d g).filter (s.coreFree v d)).take t.size
      if t.st == .ready && s.isFirst t (s.tenant v).part g && cs.length == t.size then
        some (Turn.event (.taskDispatch t.launch t.idx cs {}))
      else none
    | none => none)) n

/-- What the dispatcher, the schedulers and the mailbox engine do next of one kind (R16, R142, R145, R153, R176), each thing of the kind in
its turn. -/
def State.nextWork (s : State) (n : Nat) : Option Turn :=
  let r := n / 11
  match n % 11 with
  | 0 => s.nextQueue.map (fun q => .event (.queueSlotMap q))
  | 1 => (oneOf (s.queues.filter (fun e => e.2.head.isSome)) r).map (fun e => .event (.launchAccept e.1 {}))
  | 2 => s.nextHand r
  | 3 => s.nextDispatch r
  | 4 => (oneOf s.teams r).map (fun e => .event (if e.2.stolen.isSome then .stolenTaskEnd e.1 {} else .taskComplete e.1 {}))
  | 5 => some (.event (.quantumBoundary {}))
  | 6 => (oneOf s.teams r).map (fun e => .event (.taskWatchdog e.1 {}))
  | 7 => (oneOf (s.tasks.filter (fun t => t.st == .ready && t.cls == 3 && !t.aged)) r).map (fun t => .event (.fillTaskAging t.launch t.idx))
  | 8 => (oneOf (s.tasks.filter (fun t => t.st == .away)) r).map (fun t => .event (.stealLost t.launch t.idx {}))
  | 9 => (oneOf (s.tenants.filter (fun e => !e.2.held.isEmpty)) r).map (fun e => .event (.hostWrite e.1 0 [] false {}))
  | _ => some (.event (.scratchpadZeroing (r % Config.cores)))

/-- The turn that the machine takes with none listed (R120, R142, log 92): round and round over the cores and their contexts, so that
nothing that may go on waits for ever, each context issues, its operations perform and leave their streams, results land, causes enter the
bivouac context, held signals are delivered, writes propagate, and the dispatcher and the schedulers do their work. -/
def State.background (s : State) (n : Nat) : Turn :=
  let kind := n % 7
  let x := ctxOrder (n / 7)
  let c := n / 35 % Config.cores
  let round := n / (35 * Config.cores)
  let ops := (s.ctxAt c x).ops
  if kind = 0 then .issue c x
  else if kind = 1 then
    match ops[round % ops.length]? with
    | some o => nextFor c x o round
    | none => .idle c
  else if kind = 2 then .event (.bivouacEntry c)
  else if kind = 3 then .event (.heldSignalDelivery c (round % 8))
  else if kind = 4 then
    match s.log.find? (fun e => decide (e.level < 2)) with
    | some e => .event (.writePropagate e.seq)
    | none => .idle c
  else if kind = 5 then .event (.resultLanding c)
  else (s.nextWork (n / 7)).getD (.idle c)

/-- A turn is taken. A word of the opcode table is no turn: it comes to its context by being fetched. In stage 15 only what R20 leaves
takes place. -/
def runTurn (s : State) : Turn → Out
  | .issue c x => issueNext { s with core := c, ctx := x }
  | .idle c => .next (s.idleSlot c)
  | .retire c x id => .next (s.retireOp c x id)
  | .hand l i g => .next (s.hand l i g)
  | .event i => if i.hasWord || (s.module.stage == 15 && !inRecovery i) then .next s else exec i s

/-- The turn that comes next is taken from the agenda. With none listed, the issuing context goes on, and in between the machine
takes its turns of the background. -/
def takeTurn (s : State) : List Turn → Out
  | t :: r => runTurn { s with agenda := r } t
  | [] =>
    let n := s.idle
    let s := { s with idle := n + 1 }
    if n % 2 = 0 then issueNext s else runTurn s (s.background (n / 2))

/-- After a step the device timer looks at the waits with a timeout (R161). -/
def watched : Out → Out
  | .next s => .next s.watch
  | o => o

/-- One step of the machine: every group scheduler holds the cores that R142 has it hold, time passes, and the next turn is taken. -/
def step (s : State) : Host.Outcome State Fault Refusal := watched (takeTurn s.reserve.tick s.agenda)

/-! ### Placing an instruction (log 4) -/

/-- A context that may run an instruction (R63), by its first parcel: the class in its upper bits, and the opcode of an L48. -/
def placeCtx (ps : List Parcel) : CtxId :=
  match decode (codeBytes ps) with
  | .ok (.rte) => .biv
  | .ok (.ret) => .ctl
  | .ok (.cget _) => .cmp
  | _ =>
    let p := (ps.headD 0).toNat
    let op := field p 4 8
    if (0xC000 ≤ p ∧ p < 0xD000) ∨ (0xE000 ≤ p ∧ p < 0xF000) then .cmp
    else if 0xD000 ≤ p ∧ p < 0xE000 ∧ (op ≤ 0x07 ∨ op = 0x10 ∨ op = 0x11 ∨ op = 0x14 ∨ op = 0x15 ∨ op = 0x16 ∨ op = 0x18) then .ld
    else if 0xD000 ≤ p ∧ p < 0xE000 ∧ (op = 0x12 ∨ op = 0x13 ∨ op = 0x17 ∨ (0x08 ≤ op ∧ op ≤ 0x0F)) then .st
    else .ctl

/-- The cells of a task's code image at 0x6000 with the tables that name it: constellation 0 of function 0, plane 0 of 16-bit
elements, its tables at 0x1000 to 0x4000, its PFR at 0x5000. `base` is where the function's descriptor table lies. -/
def placeCells (base : Nat) (code : List Byte) : List Host.Cell :=
  cellsFrom base (leBytes 8 0x1000) ++ cellsFrom (base + 8) (leBytes 2 1) ++ cellsFrom (base + 10) (leBytes 2 1)
    ++ cellsFrom (base + 16) (leBytes 8 1) ++ cellsFrom (base + 32) (leBytes 8 0x24)
    ++ cellsFrom 0x1000 (leBytes 8 (2 ^ 62 + 2)) ++ cellsFrom 0x2000 (leBytes 8 (2 ^ 62 + 3))
    ++ cellsFrom 0x3000 (leBytes 8 (2 ^ 62 + 4)) ++ cellsFrom 0x4000 (leBytes 8 (2 ^ 63 + 0xA0))
    ++ cellsFrom 0x5000 (leBytes 8 (2 ^ 61 + 0x180)) ++ cellsFrom 0x6000 code

/-- A context about to issue at offset 0, outside any block. -/
def placedCtx (k : Ctx) : Ctx :=
  { k with run := .running, atEntry := false, pc := 0, loops := [], hold := none, fetched := none, want := none, ahead := none,
           lines := [] }

/-- The frames of the placed page and its tables, which are the tenant's (R157, R185). -/
def placeFrames : List FrameRec :=
  [⟨0x1000, 64, 0, false, true⟩, ⟨0x2000, 64, 0, false, true⟩, ⟨0x3000, 64, 0, false, true⟩, ⟨0x4000, 64, 0, false, true⟩,
   ⟨0x5000, 2, 0, false, true⟩, ⟨0x6000, 128, 0, false, false⟩]

/-- The machine with an instruction placed where the next step fetches it, standing for the host, the dispatcher and the scheduler
that bring a program to run (R16, log 4): a team of core 0 whose code image holds it, and the context that runs its class
about to issue it. -/
def State.withFetchWord (s : State) (nbits w : Nat) : State :=
  let ps := tableParcels nbits w
  let x := placeCtx ps
  let tm : Team := { vf := 0, bytes := List.replicate 54 0 ++ [7, 16] ++ List.replicate 72 0, cores := [0], start := s.time }
  let k := { s.coreAt 0 with team := 1, rank := 0 }
  let k1 := if x = .biv then k else { k with biv := { k.biv with run := .idle } }
  let base := (s.tenant 0).tableBase.getD 0x100000
  let s1 : State := { s with
    agenda := [], idle := 0, core := 0, ctx := x, log := [], frames := placeFrames ++ s.frames,
    mem := s.mem.writeAll (placeCells base (codeBytes ps)), teams := s.teams.set 1 tm,
    tenants := s.tenants.set 0 { s.tenant 0 with tableBase := some base } }
  s1.setCore 0 (k1.setCtx x (placedCtx (k1.ctxOf x)))

end Sys2Proof.Machine
end

