-- ==== Sys2Proof/Safety.lean ====
section
/-! DEFINITION. The words claims use: what an instruction may leave changed, when a context may name its registers, and what
every state keeps. -/

namespace Sys2Proof.Machine

/-! ### Outcomes -/

/-- The instruction answers a next state, of which `P` holds. -/
def Completes (i : Instr) (s : State) (P : State → Prop) : Prop := ∃ t, exec i s = .next t ∧ P t

/-! ### What an instruction leaves alone -/

/-- Nothing outside the issuing core changes: no memory, no other core, no work, tenant, port, timer or output. -/
structure OnlyCore (s t : State) : Prop where
  rest   : t = { s with cores := t.cores }
  others : ∀ c, c ≠ s.core → t.coreAt c = s.coreAt c

/-- The issuing core with its issuing context left as `v` and everything else of it as in `k`; on the compute sequencer `slots`
issue slots elapse, the results due land, and a change of mode lands every result in flight (R72, R73). -/
def coreAfter (s : State) (k : Core) (v : Ctx) (slots : Nat) : Core :=
  match s.ctx with
  | .cmp => (k.setCtx .cmp v).afterIssue s.cur.exposed slots
  | x => k.setCtx x v

/-- The pc does not stand at the body end of the innermost entry of the issuing context. -/
def PastBody (s : State) (pc : Word) : Prop := ∀ e r, s.cur.loops = e :: r → pc.toNat ≠ e.bodyEnd

/-- Fetch goes on `len` parcels further, where no body ends there; and of the context only the program counter, the loop stack, rb
and what fetch has read ahead or asked for may be other than in `v`. -/
structure GoesOn (s t : State) (v : Ctx) (len : Nat) : Prop where
  rest : { t.cur with pc := v.pc, loops := v.loops, rb := v.rb, want := v.want, ahead := v.ahead, lines := v.lines } = v
  next : PastBody s (s.pc + BitVec.ofNat 64 len) →
    t.pc = s.pc + BitVec.ofNat 64 len ∧ t.cur.loops = s.cur.loops ∧ t.cur.rb = s.cur.rb

/-- An instruction of `len` parcels whose whole effect is to leave core `k` and, in the issuing context, what `v` holds. -/
structure Ran (s t : State) (k : Core) (v : Ctx) (len : Nat) : Prop where
  only : OnlyCore s t
  goes : GoesOn s t v len
  core : t.curCore = coreAfter s k t.cur 1

/-- An instruction of `len` parcels whose whole effect is to write `v` to general register `d` and to leave the rest of the core
as in `k`: `d` reads as `v` unless it is `g0`, and every other register of the context as before; `g0` reads zero. -/
structure WroteRegIn (s t : State) (k : Core) (d : Reg) (v : Word) (len : Nat) : Prop where
  value : d ≠ 0 → t.G d = v
  zero  : t.G 0 = 0
  regs  : ∀ n : Reg, n ≠ d → t.G n = s.G n
  ran   : Ran s t k { s.cur with g := t.cur.g } len

/-- The same with nothing else of the core changed. -/
def WroteReg (s t : State) (d : Reg) (v : Word) (len : Nat) : Prop := WroteRegIn s t s.curCore d v len

/-- An instruction of `len` parcels that has no effect but to go on. -/
def Passed (s t : State) (len : Nat) : Prop := Ran s t s.curCore s.cur len

/-! ### What a context may name -/

/-- The registers an instruction names exist for the issuing context (R26), and no ordering operation still owes one of them its
value (R121). -/
def Usable (s : State) (rs : List Reg) : Prop :=
  ∀ r ∈ rs, (s.ctx = .ctl ∨ s.ctx = .biv ∨ r.toNat < 16) ∧ s.cur.pendingReg r.toNat = false

/-- The issuing context is a control context (R63). -/
def OnCtl (s : State) : Prop := s.ctx = .ctl ∨ s.ctx = .biv

/-! ### Blocks (R66 to R68) -/

/-- How many times a header's block runs: COUNT with 0 meaning 512, or the value of the register it names, read in context `v`; a block
that runs until `LEAVE` counts as run once or more. -/
def headerCount (v : Ctx) (h : Header) : Nat :=
  if h.csrc = 0 then (if h.count = 0 then 512 else h.count.toNat)
  else if h.csrc = 1 then (v.reg (h.count.extractLsb' 0 5).toNat).toNat
  else 1

/-- The loop entries whose bodies contain a branch target: what is left when every entry that does not is popped. -/
def keptLoops (s : State) (t : Word) : List LoopEntry := s.cur.loops.filter (·.contains t.toNat)

/-- The checks of R67 pass for a header over a loop stack, its count register read in context `v`. -/
structure CanEnter (s : State) (v : Ctx) (h : Header) (kept : List LoopEntry) : Prop where
  wf    : h.wf = true
  reg   : h.csrc = 1 → s.ctx = .ctl ∨ s.ctx = .biv ∨ (h.count.extractLsb' 0 5).toNat < 16
  rot   : h.rot = true → s.ctx = .cmp → ∀ e ∈ kept, e.rot = false
  count : headerCount v h ≤ 16777215
  room  : headerCount v h ≠ 0 → kept.length < 4

/-- The loop entry that entering a header pushes (R38, R67). Its REMAIN is the count, and 0 in a block that runs until
`LEAVE`, which never reads it. -/
def pushedEntry (s : State) (v : Ctx) (t : Word) (h : Header) : LoopEntry :=
  { header := t.truncate 32, remain := BitVec.ofNat 24 (if h.csrc = 2 then 0 else headerCount v h),
    rot := h.rot && s.ctx == .cmp, inter := h.inter, leave := h.csrc == 2, len := h.len }

/-- The header at parcel `t` has been entered over the loop stack `kept`, the rest of the context being as in `v`, where the count register
is read: an entry is pushed and fetch goes on in the body, rb starting anew in a rotating block; with a count of 0 the body is stepped over.
-/
structure BlockEntered (s u : State) (v : Ctx) (t : Word) (h : Header) (kept : List LoopEntry) (slots : Nat) : Prop where
  only : OnlyCore s u
  rest : { u.cur with pc := v.pc, loops := v.loops, rb := v.rb, want := v.want, ahead := v.ahead, lines := v.lines } = v
  core : u.curCore = coreAfter s s.curCore u.cur slots
  push : headerCount v h ≠ 0 →
    u.pc = t + 2 ∧ u.cur.loops = pushedEntry s v t h :: kept ∧
      u.cur.rb = if h.rot = true ∧ s.ctx = .cmp then 0 else s.cur.rb
  skip : headerCount v h = 0 → (∀ e r, kept = e :: r → (t + 2 + h.len.zeroExtend 64).toNat ≠ e.bodyEnd) →
    u.pc = t + 2 + h.len.zeroExtend 64 ∧ u.cur.loops = kept ∧ u.cur.rb = s.cur.rb

/-- Fetch has been placed at `pc` over the loop stack `ls`, the rest of the context being as in `v`. -/
structure Placed (s u : State) (v : Ctx) (pc : Word) (ls : List LoopEntry) (slots : Nat) : Prop where
  only : OnlyCore s u
  rest : { u.cur with pc := v.pc, loops := v.loops, rb := v.rb, want := v.want, ahead := v.ahead, lines := v.lines } = v
  core : u.curCore = coreAfter s s.curCore u.cur slots
  next : u.pc = pc ∧ u.cur.loops = ls ∧ u.cur.rb = s.cur.rb

/-- The body of the innermost entry `e` over `r` has ended, and the rest of the context is as in `v` (R67): REMAIN is decremented unless
the entry ends by `LEAVE`, rb advances in a rotating entry, and fetch goes on in the body while REMAIN is not zero; else the entry is
popped. -/
structure BodyEnded (s u : State) (v : Ctx) (e : LoopEntry) (r : List LoopEntry) (slots : Nat) : Prop where
  only  : OnlyCore s u
  rest  : { u.cur with pc := v.pc, loops := v.loops, rb := v.rb, want := v.want, ahead := v.ahead, lines := v.lines } = v
  core  : u.curCore = coreAfter s s.curCore u.cur slots
  rb    : u.cur.rb = if e.rot then s.cur.rb + 1 else s.cur.rb
  again : ∀ left, left = (if e.leave then e.remain else e.remain - 1) → e.leave = true ∨ left ≠ 0 →
    u.pc = BitVec.ofNat 64 (e.header.toNat + 2) ∧ u.cur.loops = { e with remain := left } :: r
  ended : e.leave = false → e.remain = 1 → u.pc = BitVec.ofNat 64 e.bodyEnd ∧ u.cur.loops = r

/-- The body end of `e` is not that of the entry around it as well. -/
def EndsAlone (e : LoopEntry) (r : List LoopEntry) : Prop := ∀ f q, r = f :: q → f.bodyEnd ≠ e.bodyEnd

/-! ### Vector and matrix results (R57, R73, R269 to R273) -/

/-- A V48 instruction of the operand forms `spec` meets no trap and no wait: it issues on the compute sequencer, its codes are
legal and in range, its constant fits, the queues it pops have a filled head, and the store queue it names has room. -/
structure VecReady (spec : VSpec) (f : VF) (s : State) : Prop where
  ctx   : s.ctx = .cmp
  codes : vecOperand spec f = none
  range : vecRangeAll spec s.cur (s.teamOf s.core) f = none
  const : vecConst spec f = false
  srcA  : srcReady (readCore s.curCore) spec.a f.a.toNat = true
  srcB  : srcReady (readCore s.curCore) spec.b f.b.toNat = true
  room  : f.d = 68 ∨ f.d = 69 → ((readCore s.curCore).storeQ (f.d.toNat - 68)).length < 8

/-- The core after the source queues an instruction names have been popped, each once (R32). -/
def poppedCore (spec : VSpec) (f : VF) (s : State) : Core :=
  (sourceCodes spec f.a.toNat f.b.toNat).foldl popCode (readCore s.curCore)

/-- The bits a lane list gives one 32-bit lane of a result. -/
def lowLane (ls : List (Nat × Nat)) : List (Nat × Lane) := ls.map (fun e => (e.1, BitVec.ofNat 32 e.2))

/-- The core with a vector result in flight, to land `latency` slots on, as its destination code takes it: lanes of a register or
of a register pair, a reserved store-queue entry whose other lanes are 0, or nothing (R57, R73, R272). -/
def launched (k : Core) (latency d : Nat) (pair : Bool) (ls : List (Nat × Nat)) : Core :=
  if d ≤ 63 then
    k.launch latency
      (if pair then [.vec (physReg k.cmp d) (lowLane ls), .vec (physReg k.cmp (d + 1)) (lowLane (ls.map (fun e => (e.1, e.2 / 2 ^ 32))))]
       else [.vec (physReg k.cmp d) (lowLane ls)])
  else if d = 68 ∨ d = 69 then
    Core.launch { k.setStoreQ (d - 68) (k.storeQ (d - 68) ++ [⟨k.nextTag, none⟩]) with nextTag := k.nextTag + 1 } latency
      [.store (d - 68) k.nextTag (laneBytes ((List.range 64).map (fun i => (ls.lookup i).getD 0)))]
  else k.launch latency []

/-- The lanes a V48 instruction's predicate enables, in rising order (R272). -/
def lanesOn (f : VF) (s : State) : List Nat :=
  (List.range 64).filter (fun i => ((readCore s.curCore).pred f.pred.toNat).getLsbD i != f.inv)

/-- Operand lane `i` of the a field, of the b field, and of the destination read as c (R270, R274). -/
def laneA (spec : VSpec) (f : VF) (s : State) (i : Nat) : Nat :=
  at64 (srcLanes (readCore s.curCore) spec spec.a spec.aPair f.a.toNat) i
/-- The b field. -/
def laneB (spec : VSpec) (f : VF) (s : State) (i : Nat) : Nat :=
  at64 (srcLanes (readCore s.curCore) spec spec.b spec.bPair f.b.toNat) i
/-- The destination; −0 where it is no register. -/
def laneC (spec : VSpec) (f : VF) (s : State) (i : Nat) : Nat :=
  if f.d.toNat ≤ 63 then at64 (srcLanes (readCore s.curCore) spec .a spec.dPair f.d.toNat) i
  else 2 ^ (fmtBits f.fmt.toNat - 1)

/-! ### Ordering operations at issue (R31, R34, R40, R116 to R121) -/

/-- All of `n` bytes at a scratchpad address lie in one window of R40: the local one, or the peer window of a team rank. -/
def InWindow (s : State) (a n : Nat) : Prop :=
  a + n ≤ 0x180000 ∨
  ∃ rank, rank < (s.teamOf s.core).cores.length ∧ 0x10000000 + rank * 0x200000 ≤ a ∧
    a + n ≤ 0x10000000 + rank * 0x200000 + 0x180000

/-- The scope of a scratchpad access: a peer access at core scope acts at group scope (R40). -/
def windowScope (a : Word) (scope : BitVec 2) : Nat :=
  if 0x10000000 ≤ a.toNat ∧ scope = 0 then 1 else scope.toNat

/-- The stream an L48 instruction names has room: fewer than 32 operations of the context are in it (R34). -/
def StreamRoom (s : State) (f : LF) : Prop := s.streamCount s.core s.ctx (fun _ => true) f.t.stream.toNat < 32

/-- The issuing context with an operation added after those it lists, with the next number, at the instruction's offset (R120
step 1). Operations that have left their streams and are performed in every instance are no longer listed: no rule asks about them
again. -/
def joined (s : State) (o : Op) : Ctx :=
  { s.cur with ops := s.cur.ops.filter (fun p => !(p.retired && p.st == .done && s.performedAt s.core p 3)) ++ [{ o with id := s.cur.nextOp, pc := s.pc }],
               nextOp := s.cur.nextOp + 1 }

/-- An L48 instruction that issues: its operation is added, and all else it does is to leave the core as in `k`. -/
def IssuedIn (s t : State) (k : Core) (o : Op) : Prop := Ran s t k (joined s o) 3

/-- The same with nothing else of the core changed. -/
def Issued (s t : State) (o : Op) : Prop := IssuedIn s t s.curCore o

/-- An operation that holds the issue of its context until its check step (R248): fetch stays. -/
def IssuedHolding (s t : State) (o : Op) : Prop :=
  Placed s t { joined s o with hold := some s.cur.nextOp } s.pc s.cur.loops 1

/-! ### Performance (R119, R120) -/

/-- A listed operation that has not performed, holds no copy fault, and whose predecessors are performed at its scope: those in the
streams of its mask, every earlier one where it has release, and every earlier one that has acquire (R120 step 2). -/
structure MayPerform (s : State) (c : Nat) (x : CtxId) (o : Op) : Prop where
  here  : s.opAt c x o.id = some o
  fresh : o.st ≠ .done
  clear : o.eng.fault = none
  first : ∀ y ∈ (s.ctxAt c x).ops, y.id < o.id →
    (o.f.t.mask.getLsbD y.f.t.stream.toNat = true ∨ o.f.t.rel = true ∨ y.f.t.acq = true) → s.performedAt c y o.scope = true

/-- Nothing changes but core `c` and the fields named of the machine's memory. -/
structure OnlyCoreOf (s t : State) (c : Nat) : Prop where
  rest   : t = { s with cores := t.cores, mem := t.mem, log := t.log, nextSeq := t.nextSeq }
  others : ∀ d, d ≠ c → t.coreAt d = s.coreAt d

/-- What a performance leaves of its core: only its context changes, and of that its operations, what it has read and performed,
the hold on issue, and register `d`; the operation, where still listed, is performed. -/
structure PerformedOp (s t : State) (c : Nat) (x : CtxId) (o : Op) (d : Option (Nat × Word)) : Prop where
  core  : t.coreAt c = (s.coreAt c).setCtx x (t.ctxAt c x)
  rest  : { t.ctxAt c x with ops := [], seen := [], hold := none, g := [] } =
            ({ s.ctxAt c x with ops := [], seen := [], hold := none, g := [] } : Ctx)
  value : ∀ n v, d = some (n, v) → n ≠ 0 → (t.ctxAt c x).reg n = v
  regs  : ∀ n, (∀ v, d ≠ some (n, v)) → (t.ctxAt c x).reg n = (s.ctxAt c x).reg n
  st    : ∀ p ∈ (t.ctxAt c x).ops, p.id = o.id → p.st = .done

/-- Memory and the coherence order are as before. -/
def SameMemory (s t : State) : Prop := t.mem = s.mem ∧ t.log = s.log ∧ t.nextSeq = s.nextSeq

/-- Cells have been stored by core `c` at a scope: in its instance of that scope each location reads as the last of them there, and no
other location reads otherwise in any instance (R118, R120). -/
structure Stored (s t : State) (c scope : Nat) (cells : List Host.Cell) : Prop where
  value : ∀ pre a b post, cells = pre ++ (a, b) :: post → (∀ e ∈ post, e.1 ≠ a) → (t.imageIn c scope a).2 = b
  frame : ∀ a, (∀ e ∈ cells, e.1 ≠ a) → t.image a = s.image a ∧ ∀ k sc, (t.imageIn k sc a).2 = (s.imageIn k sc a).2

/-- The parcels after an L48 instruction are next for a context that a check step has held, which no longer holds it (R248). -/
def CheckedPast (s t : State) (c : Nat) (x : CtxId) : Prop :=
  (t.ctxAt c x).hold = none ∧ (t.ctxAt c x).run = (s.ctxAt c x).run ∧ (t.ctxAt c x).g = (s.ctxAt c x).g ∧
    ((∀ e r, (s.ctxAt c x).loops = e :: r → ((s.ctxAt c x).pc + 3).toNat ≠ e.bodyEnd) →
      (t.ctxAt c x).pc = (s.ctxAt c x).pc + 3 ∧ (t.ctxAt c x).loops = (s.ctxAt c x).loops)

/-- A check step has ended in a trap at its instruction: the operation is gone, and the context traps (R35, R248). -/
def CheckTraps (s : State) (c : Nat) (x : CtxId) (o : Op) (cause : Nat) (info : Word) : State :=
  let k := s.ctxAt c x
  (s.setCtx c x { k with ops := k.ops.filter (fun p => p.id != o.id), hold := none }).asCtx c x
    (fun u => u.takeTrapAt cause info o.pc)

/-- An operation has performed, and beyond its own context the machine is as in `u`. -/
structure PerformedAs (u t : State) (c : Nat) (x : CtxId) (o : Op) (d : Option (Nat × Word)) : Prop where
  rest   : t = { u with cores := t.cores }
  others : ∀ n, n ≠ c → t.coreAt n = u.coreAt n
  op     : PerformedOp u t c x o d

/-- A started engine command that can make an access: it holds no fault, waits for no parked page, and no access of it is under way
(R123, R158). -/
structure EngineGoing (s : State) (c : Nat) (x : CtxId) (o : Op) : Prop where
  here  : s.opAt c x o.id = some o
  engine : isEngine o.code = true
  st    : o.st = .started
  clear : o.eng.fault = none
  page  : o.pageWait = false
  idle  : o.away = [] ∧ o.got = [] ∧ o.left = []

/-- `n` bytes from location `l` are all that is found at a piece, which has no bits beside them. -/
def PieceAt (s : State) (c : Nat) (need : Need) (p : Piece) (l n : Nat) : Prop :=
  p.shape = (0, 8 * n) ∧ s.findPiece c (s.vfOf c) need p = .bytes ((span l n).map .at)

/-- An engine command's access has been made: nothing but its core, memory and what counts memory's lines has changed, and of its
elements only element `k`, which is now `e`. -/
def ElementMade (s t : State) (c : Nat) (x : CtxId) (o : Op) (k : Nat) (e : Elem) : Prop :=
  OnlyCoreOf { s with counters := t.counters, nodes := t.nodes, domains := t.domains } t c ∧
    ∃ p, t.opAt c x o.id = some p ∧ p.st = .started ∧ p.eng.record = o.eng.record ∧ p.eng.total = o.eng.total ∧
      p.eng.elems.get .todo k = e ∧ ∀ n, n ≠ k → p.eng.elems.get .todo n = o.eng.elems.get .todo n

/-! ### Plane data and records (R46, R51, R134 to R139) -/

/-- `n` bytes of a tenant's plane data pass the checks of R46 for what an access needs, and lie on this device one after another from
a location. -/
def LiesAt (s : State) (v : Nat) (va : Word) (need : Need) (n loc : Nat) : Prop :=
  s.findAt v va need n = .bytes ((span loc n).map .at)

/-- A task record lies on this device from a location, can be read and written, and its failure cause is at +72 (R136). -/
structure RecordAt (s : State) (v : Nat) (va : Word) (loc : Nat) : Prop where
  read  : LiesAt s v va .read 128 loc
  word  : LiesAt s v va .both 8 loc
  cause : LiesAt s v (s.recAt v va 72) .write 4 (loc + 72)

/-- The state word of a record on this device with another STATE, and the machine after the swap that writes it (R137, R139). -/
def wordWith (s : State) (loc st : Nat) : Nat := s.imageNat loc 8 / 16 * 16 + st
/-- The swap's write. -/
def swapped (s : State) (loc w : Nat) : State := s.writeDevice (cellsFrom loc (leBytes 8 w))

/-- A table whose keys rise: no key is listed twice. -/
def Ordered {α : Type} (m : Tab α) : Prop := m.Pairwise (fun a b => a.1 < b.1)

/-! ### What every state keeps -/

/-- The coherence order of the writes not yet performed everywhere (R118): their numbers rise and lie below the next number, and
each lies within one bank row or one line, from which no access of one point goes on (R129), its bytes rising by address. -/
def LogOk (s : State) : Prop :=
  s.log.Pairwise (fun a b => a.seq < b.seq) ∧
  ∀ e ∈ s.log, e.seq < s.nextSeq ∧ e.cells.Pairwise (fun a b => a.1 < b.1 ∧ rowOf a.1 = rowOf b.1)

/-- Memory keeps its canonical form, and the coherence log its order. -/
def MemoryOk (s : State) : Prop := s.mem.wf = true ∧ LogOk s

end Sys2Proof.Machine
end

