-- ==== Sys2Proof/Certificates/Slice0/Obligations.lean ====
section
/-! DEFINITION. The statements for the provers. Each docstring names the rules of the spec it formalises. -/

open Sys2Proof Sys2Proof.Machine


/-! ### Scalar results (R26, R53, R65, R220 to R233) -/

/-- R226: each three-register instruction writes f(ga, gb) to gd, and nothing else changes. Completion, result and frame. -/
def Obligations.ThreeRegisterResults : Prop :=
  ∀ (d a b : Reg) (s : State), Usable s [d, a, b] →
    let x := s.G a
    let y := s.G b
    let gives (i : Instr) (v : Word) : Prop := Completes i s (fun t => WroteReg s t d v 2)
    gives (.add d a b) (x + y) ∧
    gives (.sub d a b) (x - y) ∧
    gives (.mul d a b) ((x.signExtend 128 * y.signExtend 128).extractLsb' 0 64) ∧
    gives (.mulhs d a b) ((x.signExtend 128 * y.signExtend 128).extractLsb' 64 64) ∧
    gives (.mulhu d a b) ((x.zeroExtend 128 * y.zeroExtend 128).extractLsb' 64 64) ∧
    gives (.and d a b) (x &&& y) ∧
    gives (.or d a b) (x ||| y) ∧
    gives (.xor d a b) (x ^^^ y) ∧
    gives (.andn d a b) (x &&& ~~~y) ∧
    gives (.shl d a b) (x <<< (y.extractLsb' 0 6).toNat) ∧
    gives (.shr d a b) (x >>> (y.extractLsb' 0 6).toNat) ∧
    gives (.sar d a b) (x.sshiftRight (y.extractLsb' 0 6).toNat) ∧
    gives (.rot d a b) (x.rotateRight (y.extractLsb' 0 6).toNat) ∧
    gives (.min d a b) (BitVec.ofInt 64 (min x.toInt y.toInt)) ∧
    gives (.max d a b) (BitVec.ofInt 64 (max x.toInt y.toInt)) ∧
    gives (.minu d a b) (BitVec.ofNat 64 (min x.toNat y.toNat)) ∧
    gives (.maxu d a b) (BitVec.ofNat 64 (max x.toNat y.toNat)) ∧
    gives (.slt d a b) (if x.toInt < y.toInt then 1 else 0) ∧
    gives (.sltu d a b) (if x.toNat < y.toNat then 1 else 0) ∧
    gives (.seq d a b) (if x = y then 1 else 0)

/-- R227, R228: division truncates toward zero, a division by zero gives all ones and leaves ga as the remainder, the most negative
number by −1 gives itself and remainder 0; `SEL` reads gd as its condition before it is written. R229, R230: the bit counts, the bit
reversal, and the bit fields, bit by bit; a field that runs past bit 63 traps as illegal operand, field 2 (R216). -/
def Obligations.DivisionSelectAndBitFields : Prop :=
  (∀ (d a b : Reg) (s : State), Usable s [d, a, b] →
    let x := s.G a
    let y := s.G b
    let gives (i : Instr) (v : Word) : Prop := Completes i s (fun t => WroteReg s t d v 2)
    let least : Word := BitVec.ofInt 64 (-2 ^ 63)
    (y = 0 →
      gives (.divs d a b) (BitVec.allOnes 64) ∧ gives (.divu d a b) (BitVec.allOnes 64) ∧
      gives (.rems d a b) x ∧ gives (.remu d a b) x) ∧
    (y ≠ 0 →
      gives (.divu d a b) (BitVec.ofNat 64 (x.toNat / y.toNat)) ∧
      gives (.remu d a b) (BitVec.ofNat 64 (x.toNat - y.toNat * (x.toNat / y.toNat))) ∧
      (¬ (x = least ∧ y = BitVec.allOnes 64) →
        gives (.divs d a b) (BitVec.ofInt 64 (x.toInt.tdiv y.toInt)) ∧
        gives (.rems d a b) (BitVec.ofInt 64 (x.toInt - y.toInt * x.toInt.tdiv y.toInt))) ∧
      (x = least → y = BitVec.allOnes 64 → gives (.divs d a b) least ∧ gives (.rems d a b) 0)) ∧
    gives (.sel d a b) (if s.G d ≠ 0 then x else y)) ∧
  (∀ (d a : Reg) (width lsb : BitVec 6) (s : State), Usable s [d, a] →
    let x := s.G a
    let w := width.toNat + 1
    let l := lsb.toNat
    let gives (i : Instr) (P : Word → Prop) : Prop := Completes i s (fun t => ∃ v, WroteReg s t d v 2 ∧ P v)
    gives (.clz d a) (fun v => v.toNat ≤ 64 ∧ (∀ i, i < v.toNat → x.getLsbD (63 - i) = false) ∧
      (v.toNat < 64 → x.getLsbD (63 - v.toNat) = true)) ∧
    gives (.ctz d a) (fun v => v.toNat ≤ 64 ∧ (∀ i, i < v.toNat → x.getLsbD i = false) ∧
      (v.toNat < 64 → x.getLsbD v.toNat = true)) ∧
    gives (.popc d a) (fun v => v.toNat = ((List.range 64).filter (fun i => x.getLsbD i)).length) ∧
    gives (.brev d a) (fun v => ∀ i, i < 64 → v.getLsbD (63 - i) = x.getLsbD i) ∧
    (l + w ≤ 64 →
      gives (.extu d a width lsb) (fun v => ∀ i, i < 64 → v.getLsbD i = (decide (i < w) && x.getLsbD (l + i))) ∧
      gives (.exts d a width lsb) (fun v => ∀ i, i < 64 →
        v.getLsbD i = if i < w then x.getLsbD (l + i) else x.getLsbD (l + w - 1)) ∧
      gives (.ins d a width lsb) (fun v => ∀ i, i < 64 →
        v.getLsbD i = if l ≤ i ∧ i < l + w then x.getLsbD (i - l) else (s.G d).getLsbD i)) ∧
    (64 < l + w →
      exec (.extu d a width lsb) s = .next (s.takeTrap 2 2) ∧ exec (.exts d a width lsb) s = .next (s.takeTrap 2 2) ∧
      exec (.ins d a width lsb) s = .next (s.takeTrap 2 2)))

/-- R65, R231 to R233: the immediate forms. `MOVI` of an inline constant writes it where it is an integer (the entries 0 to 36 of
R64), and traps as illegal operand, field 2, where it is none (R216). R53, R220 to R222: the short forms compute gd := gd op gs or
gd op K in one parcel, `NOP` only goes on, and a shift by a negative K traps as illegal operand, field 1 (R216). -/
def Obligations.ImmediateAndShortResults : Prop :=
  (∀ (d a b : Reg) (sh3 : BitVec 3) (imm : BitVec 12) (sh : BitVec 6) (m : BitVec 11) (n : BitVec 6) (s : State),
    Usable s [d, a, b] →
    let x := s.G a
    let k := imm.signExtend 64
    let gives (i : Instr) (v : Word) : Prop := Completes i s (fun t => WroteReg s t d v 2)
    gives (.lea d a b sh3) (x + (s.G b <<< sh3.toNat)) ∧
    gives (.addi d a imm) (x + k) ∧
    gives (.andi d a imm) (x &&& k) ∧
    gives (.ori d a imm) (x ||| k) ∧
    gives (.xori d a imm) (x ^^^ k) ∧
    gives (.shli d a sh) (x <<< sh.toNat) ∧
    gives (.shri d a sh) (x >>> sh.toNat) ∧
    gives (.sari d a sh) (x.sshiftRight sh.toNat) ∧
    gives (.slti d a imm) (if x.toInt < imm.toInt then 1 else 0) ∧
    gives (.movi d m) (BitVec.ofInt 64 m.toInt) ∧
    gives (.movhi d a imm) ((x <<< 12) ||| imm.zeroExtend 64) ∧
    (n.toNat ≤ 16 → gives (.moviIc d n) (BitVec.ofNat 64 n.toNat)) ∧
    (17 ≤ n.toNat → n.toNat ≤ 24 → gives (.moviIc d n) (BitVec.ofInt 64 (16 - n.toNat : Int))) ∧
    (25 ≤ n.toNat → n.toNat ≤ 36 → gives (.moviIc d n) (BitVec.ofNat 64 (2 ^ (n.toNat - 20)))) ∧
    (37 ≤ n.toNat → exec (.moviIc d n) s = .next (s.takeTrap 2 2))) ∧
  (∀ (d r k : Reg) (s : State), Usable s [d, r] →
    let x := s.G d
    let y := s.G r
    let gives (i : Instr) (v : Word) : Prop := Completes i s (fun t => WroteReg s t d v 1)
    Completes .nop s (fun t => Passed s t 1) ∧
    gives (.mov d r) y ∧
    gives (.addC d r) (x + y) ∧
    gives (.subC d r) (x - y) ∧
    gives (.andC d r) (x &&& y) ∧
    gives (.orC d r) (x ||| y) ∧
    gives (.xorC d r) (x ^^^ y) ∧
    gives (.movk d k) (BitVec.ofInt 64 k.toInt) ∧
    gives (.addk d k) (x + BitVec.ofInt 64 k.toInt) ∧
    (0 ≤ k.toInt → gives (.shlk d k) (x <<< k.toInt.toNat) ∧ gives (.shrk d k) (x >>> k.toInt.toNat)) ∧
    (k.toInt < 0 → exec (.shlk d k) s = .next (s.takeTrap 2 1) ∧ exec (.shrk d k) s = .next (s.takeTrap 2 1)))

/-- R26, R216, R247: a register field above 15 on the load, compute or store sequencer traps as illegal operand with the number of the
first such field, and with no effect before the trap, in an L48 instruction as in the others. R121: an instruction that names a register
which an unperformed ordering operation of its context still writes waits, an L48 instruction like any other: it has no effect but that a
stall of the compute sequencer in exposed mode freezes its pipeline (R73), and is issued again. -/
def Obligations.RegisterChecks : Prop :=
  (∀ (d a b : Reg) (imm : BitVec 12) (s : State), (s.ctx = .ld ∨ s.ctx = .cmp ∨ s.ctx = .st) →
    let traps (i : Instr) (n : Word) : Prop := exec i s = .next (s.takeTrap 2 n)
    (16 ≤ d.toNat → traps (.add d a b) 0 ∧ traps (.sel d a b) 0 ∧ traps (.addi d a imm) 0 ∧ traps (.mov d a) 0 ∧
      traps (.movk d a) 0 ∧ traps (.clz d a) 0 ∧ traps (.beq d a imm) 0 ∧ traps (.skipz d imm) 0) ∧
    (d.toNat < 16 → 16 ≤ a.toNat → traps (.add d a b) 1 ∧ traps (.sel d a b) 1 ∧ traps (.addi d a imm) 1 ∧
      traps (.mov d a) 1 ∧ traps (.clz d a) 1 ∧ traps (.beq d a imm) 1) ∧
    (d.toNat < 16 → a.toNat < 16 → 16 ≤ b.toNat → traps (.add d a b) 2 ∧ traps (.sel d a b) 2)) ∧
  (∀ (f : LF) (s : State), (s.ctx = .ld ∨ s.ctx = .cmp ∨ s.ctx = .st) →
    let traps (i : Instr) (n : Word) : Prop := exec i s = .next (s.takeTrap 2 n)
    let x := 16 ≤ f.x.toNat
    let y := 16 ≤ f.y.toNat
    let z := 16 ≤ (f.z.extractLsb' 5 5).toNat
    let z3 := 16 ≤ (f.z.extractLsb' 3 5).toNat
    let count : Prop := f.z.extractLsb' 1 6 ≠ 0
    (s.ctx = .ld → (x → traps (.ldB f) 0 ∧ traps (.ldD f) 0 ∧ traps (.ldsW f) 0) ∧
      (¬ x → y → traps (.ldB f) 1 ∧ traps (.ldD f) 1 ∧ traps (.ldsW f) 1) ∧
      (y → traps (.ldtab f) 1 ∧ traps (.ldm f) 1 ∧ traps (.ldb f) 1 ∧
        (f.x.toNat ≤ 3 → traps (.ldq f) 1 ∧ traps (.ldqs f) 1 ∧ traps (.ldx f) 1)) ∧
      (¬ y → z → f.x.toNat ≤ 3 → traps (.ldqs f) 2 ∧ traps (.ldx f) 2)) ∧
    (s.ctx = .st → (x → traps (.stB f) 0 ∧ traps (.stD f) 0) ∧ (¬ x → y → traps (.stB f) 1 ∧ traps (.stD f) 1) ∧
      (y → traps (.stm f) 1 ∧ (f.x.toNat ≤ 1 → traps (.stq f) 1 ∧ traps (.stqs f) 1)) ∧
      (¬ y → z → f.x.toNat ≤ 1 → traps (.stqs f) 2)) ∧
    (s.ctx ≠ .cmp → (x → traps (.aadd f) 0 ∧ traps (.ald f) 0 ∧ traps (.ast f) 0 ∧ traps (.probe f) 0) ∧
      (¬ x → y → traps (.aadd f) 1 ∧ traps (.ald f) 1 ∧ traps (.ast f) 1 ∧ traps (.probe f) 1) ∧
      (¬ x → ¬ y → z3 → traps (.aadd f) 2 ∧ traps (.acas f) 2) ∧
      (y → traps (.pref f) 1 ∧ (f.x.toNat ≤ 11 → traps (.xcopy f) 1))) ∧
    (count → (x → traps (.ktaket f) 0) ∧ (¬ x → y → traps (.ktaket f) 1))) ∧
  (∀ (d a b r : Reg) (imm : BitVec 12) (f : LF) (o : Op) (s : State),
    o ∈ s.cur.ops → o.st ≠ .done → o.dst = some r.toNat → r ≠ 0 →
    let has (r : Reg) : Prop := OnCtl s ∨ r.toNat < 16
    let waits (i : Instr) : Prop := exec i s = .next s.freeze
    (has d → has a → has b → (r = d ∨ r = a ∨ r = b) → waits (.add d a b) ∧ waits (.sel d a b) ∧ waits (.lea d a b 1)) ∧
    (has d → has a → (r = d ∨ r = a) → waits (.addi d a imm) ∧ waits (.mov d a) ∧ waits (.beq d a imm)) ∧
    (has d → r = d → waits (.movk d a) ∧ waits (.movi d 5) ∧ (OnCtl s → waits (.time d))) ∧
    (has f.x → has f.y → (r = f.x ∨ r = f.y) →
      (f.z.extractLsb' 1 6 ≠ 0 → waits (.ktaket f)) ∧ (s.ctx = .ld → waits (.ldD f)) ∧ (s.ctx = .st → waits (.stD f)) ∧
      (s.ctx ≠ .cmp → waits (.ald f)) ∧ (OnCtl s → waits (.evwait f) ∧ waits (.bwait f) ∧ waits (.tstate f))) ∧
    (has f.y → r = f.y → s.ctx ≠ .cmp → waits (.pref f) ∧ (f.x.toNat ≤ 11 → waits (.xcopy f))) ∧
    (s.ctx ≠ .cmp → s.freeze = s))

/-- R225, R63: on a control context `YPOP` and `ZPOP` pop the oldest entry into gd, `ZPOP` zero-extended, and `CPUT` appends to
`cq0`; `CGET` pops `cq0` on the compute sequencer; a pop of an empty queue and a push to a full one wait, which in exposed mode freezes
the compute pipeline (R73); each traps as illegal instruction on a context that may not run it. -/
def Obligations.QueueMoves : Prop :=
  ∀ (r : Reg) (s : State), Usable s [r] →
    let k := s.curCore
    (OnCtl s →
      (∀ v q, k.yq = v :: q → Completes (.ypop r) s (fun t => WroteRegIn s t { k with yq := q } r v 1)) ∧
      (k.yq = [] → exec (.ypop r) s = .next s) ∧
      (∀ tag v q, k.zq = ⟨tag, some v⟩ :: q →
        Completes (.zpop r) s (fun t => WroteRegIn s t { k with zq := q } r (v.zeroExtend 64) 1)) ∧
      (k.zq = [] → exec (.zpop r) s = .next s) ∧
      (k.cq.length < 16 → Completes (.cput r) s (fun t => Ran s t { k with cq := k.cq ++ [s.G r] } s.cur 1)) ∧
      (16 ≤ k.cq.length → exec (.cput r) s = .next s)) ∧
    (s.ctx = .cmp →
      (∀ v q, k.cq = v :: q → Completes (.cget r) s (fun t => WroteRegIn s t { k with cq := q } r v 1)) ∧
      (k.cq = [] → exec (.cget r) s = .next s.freeze)) ∧
    (¬ OnCtl s → exec (.ypop r) s = .next (s.takeTrap 1 (BitVec.ofNat 64 (13 * 1024 + r.toNat * 32))) ∧
      exec (.zpop r) s = .next (s.takeTrap 1 (BitVec.ofNat 64 (14 * 1024 + r.toNat * 32))) ∧
      exec (.cput r) s = .next (s.takeTrap 1 (BitVec.ofNat 64 (15 * 1024 + r.toNat)))) ∧
    (s.ctx ≠ .cmp → exec (.cget r) s = .next (s.takeTrap 1 (BitVec.ofNat 64 (16 * 1024 + r.toNat * 32))))

/-! ### Branches, blocks and the loop stack (R66 to R70, R217, R223, R224, R234 to R237) -/

/-- R234: a branch whose condition does not hold only goes on. R67, R68, R234, R235: a taken branch to a header that passes the
checks of R67 pops every entry whose body does not contain it and enters it; `BRL` writes the offset after itself to `g15` first, so that a
header that takes its count from `g15` takes that. R121: a header whose count register an unperformed operation still owes is waited
for. That REMAIN of a header until `LEAVE` is 0 (log 69), and that a rotating header of count 0 leaves rb (log 78), are the model's
readings. -/
def Obligations.Branches : Prop :=
  (∀ (a b : Reg) (off : BitVec 12) (s : State), Usable s [a, b] →
    let x := s.G a
    let y := s.G b
    let passes (i : Instr) : Prop := Completes i s (fun u => Passed s u 2)
    (x ≠ y → passes (.beq a b off)) ∧ (x = y → passes (.bne a b off)) ∧
    (y.toInt ≤ x.toInt → passes (.blt a b off)) ∧ (x.toInt < y.toInt → passes (.bge a b off)) ∧
    (y.toNat ≤ x.toNat → passes (.bltu a b off)) ∧ (x.toNat < y.toNat → passes (.bgeu a b off))) ∧
  (∀ (a b : Reg) (off : BitVec 12) (h : Header) (ps : List Parcel) (s : State), Usable s [a, b, 15] →
    let x := s.G a
    let y := s.G b
    let t := s.pc + BitVec.ofInt 64 off.toInt
    let kept := keptLoops s t
    let linked := s.cur.setReg 15 (s.pc + 2)
    let count : Prop := h.csrc = 1 → s.cur.pendingReg (h.count.extractLsb' 0 5).toNat = false
    s.headerAt t = .parcels ps → wordOf ps = encH h → (∀ e r, kept = e :: r → t.toNat + 2 ≤ e.bodyEnd) →
    let enters (i : Instr) : Prop := Completes i s (fun u => BlockEntered s u s.cur t h kept 1)
    (count → CanEnter s s.cur h kept →
      (x = y → enters (.beq a b off)) ∧ (x ≠ y → enters (.bne a b off)) ∧
      (x.toInt < y.toInt → enters (.blt a b off)) ∧ (y.toInt ≤ x.toInt → enters (.bge a b off)) ∧
      (x.toNat < y.toNat → enters (.bltu a b off)) ∧ (y.toNat ≤ x.toNat → enters (.bgeu a b off)) ∧
      enters (.br off)) ∧
    (count → CanEnter s linked h kept →
      Completes (.brl off) s (fun u => u.G 15 = s.pc + 2 ∧ BlockEntered s u linked t h kept 1)) ∧
    (¬ count → (x = y → exec (.beq a b off) s = .next s.freeze) ∧ exec (.br off) s = .next s.freeze ∧
      exec (.brl off) s = .next s.freeze))

/-- R68, R219, R224, R236, R244: `RET` and `BRX g15` return to the offset in `g15`: 0 ends a primary context, otherwise every entry whose
body does not contain the target is popped, and where none is left the return traps as bad branch target. `BRX` of another register
enters the block whose header its target holds. `ENDTASK` ends the primary control context. That an ended context's loop stack is empty
(log 79), that REMAIN of a header until `LEAVE` is 0 (log 69), and that a rotating header of count 0 leaves rb (log 78) are the model's
readings. -/
def Obligations.Returns : Prop :=
  ∀ (a : Reg) (h : Header) (ps : List Parcel) (s : State), Usable s [a, 15] →
    let t := s.G 15
    let both (P : State → Prop) : Prop := Completes .ret s P ∧ Completes (.brx 15) s P
    (t = 0 → s.ctx ≠ .biv → both (fun u =>
      Placed s u { s.cur with run := .ended } s.pc [] 1 ∧ u.cur.run = .ended)) ∧
    (t ≠ 0 ∨ s.ctx = .biv → keptLoops s t ≠ [] → both (fun u => Placed s u s.cur t (keptLoops s t) 1)) ∧
    (t ≠ 0 ∨ s.ctx = .biv → keptLoops s t = [] →
      exec .ret s = .next (s.takeTrap 4 t) ∧ exec (.brx 15) s = .next (s.takeTrap 4 t)) ∧
    (a ≠ 15 → s.headerAt (s.G a) = .parcels ps → wordOf ps = encH h → CanEnter s s.cur h (keptLoops s (s.G a)) →
      (h.csrc = 1 → s.cur.pendingReg (h.count.extractLsb' 0 5).toNat = false) →
      (∀ e r, keptLoops s (s.G a) = e :: r → (s.G a).toNat + 2 ≤ e.bodyEnd) →
      Completes (.brx a) s (fun u => BlockEntered s u s.cur (s.G a) h (keptLoops s (s.G a)) 1)) ∧
    (s.ctx = .ctl → Completes .endtask s (fun u => Placed s u { s.cur with run := .ended } s.pc [] 1 ∧ u.cur.run = .ended))

/-- R67, R223: `LEAVE` pops the innermost entry and goes on at its body end, with REMAIN and rb as they are; with no entry it traps
as illegal instruction. R69, R237: a skip whose condition holds goes on `n` parcels after itself; one that lands on the innermost body end
has the event of that end (R67), and one beyond it traps as bad branch target; a skip whose condition does not hold only goes on. -/
def Obligations.LeaveAndSkips : Prop :=
  (∀ (s : State),
    (∀ e r, s.cur.loops = e :: r → EndsAlone e r →
      Completes .leave s (fun u => Placed s u s.cur (BitVec.ofNat 64 e.bodyEnd) r 1)) ∧
    (s.cur.loops = [] → exec .leave s = .next (s.takeTrap 1 0x2C00))) ∧
  (∀ (a : Reg) (n : BitVec 12) (s : State), Usable s [a] →
    let t := s.pc + 2 + n.zeroExtend 64
    let skips (i : Instr) : Prop :=
      ((∀ e r, s.cur.loops = e :: r → t.toNat < e.bodyEnd) → Completes i s (fun u => Placed s u s.cur t s.cur.loops 1)) ∧
      (∀ e r, s.cur.loops = e :: r → t.toNat = e.bodyEnd → EndsAlone e r →
        Completes i s (fun u => BodyEnded s u s.cur e r 1)) ∧
      (∀ e r, s.cur.loops = e :: r → e.bodyEnd < t.toNat → exec i s = .next (s.takeTrap 4 t))
    (s.G a = 0 → skips (.skipz a n) ∧ Completes (.skipnz a n) s (fun u => Passed s u 2)) ∧
    (s.G a ≠ 0 → skips (.skipnz a n) ∧ Completes (.skipz a n) s (fun u => Passed s u 2)))

/-- R66, R67, R70: a code header that passes its checks is entered where fetch reaches it, without an issue slot, once no unperformed
operation owes its count register (R121); a data header is stepped over. That REMAIN of a header until `LEAVE` is 0 (log 69), and that a
rotating header of count 0 leaves rb (log 78), are the model's readings. -/
def Obligations.HeadersReached : Prop :=
  ∀ (h : Header) (len : BitVec 14) (s : State),
    ((h.csrc = 1 → Usable s [h.count.extractLsb' 0 5]) → CanEnter s s.cur h s.cur.loops →
      Completes (.blockHeader h) s (fun u => BlockEntered s u s.cur s.pc h s.cur.loops 0)) ∧
    (h.csrc = 1 → s.cur.pendingReg (h.count.extractLsb' 0 5).toNat = true → exec (.blockHeader h) s = .next s.freeze) ∧
    (len ≠ 0 → PastBody s (s.pc + 2 + len.zeroExtend 64) →
      Completes (.dataHeader len) s (fun u => Placed s u s.cur (s.pc + 2 + len.zeroExtend 64) s.cur.loops 0)) ∧
    (len = 0 → exec (.dataHeader len) s = .next (s.takeTrap 1 0xF8000000))

/-- R68, R70, R217: a taken branch whose target holds no header traps as bad branch target, one to a data header as data-block
execution, each with the target's offset; the branch has no effect, so `BRL` leaves `g15`. R66, R67: the checks of a header in their
order: its own fields and a second rotating entry trap as illegal instruction with its word, a count register that does not exist or
holds more than 16,777,215 as illegal operand, field 2, and a fifth entry as loop nest overflow with the header's offset. -/
def Obligations.TargetAndHeaderTraps : Prop :=
  (∀ (off : BitVec 12) (ps : List Parcel) (s : State), Usable s [15] →
    let t := s.pc + BitVec.ofInt 64 off.toInt
    let w := wordOf ps
    s.headerAt t = .parcels ps →
    ((w / 2 ^ 28 % 16 ≠ 15 ∨ w / 2 ^ 26 % 4 = 3) →
      exec (.br off) s = .next (s.takeTrap 4 t) ∧ exec (.brl off) s = .next (s.takeTrap 4 t)) ∧
    (w / 2 ^ 28 % 16 = 15 → w / 2 ^ 26 % 4 = 2 →
      exec (.br off) s = .next (s.takeTrap 5 t) ∧ exec (.brl off) s = .next (s.takeTrap 5 t))) ∧
  (∀ (h : Header) (s : State), (h.csrc = 1 → s.cur.pendingReg (h.count.extractLsb' 0 5).toNat = false) →
    let word : Word := BitVec.ofNat 64 (encH h)
    let missing := h.csrc = 1 ∧ ¬ OnCtl s ∧ 16 ≤ (h.count.extractLsb' 0 5).toNat
    let second := h.rot = true ∧ s.ctx = .cmp ∧ ∃ e ∈ s.cur.loops, e.rot = true
    let traps (cause : Nat) (info : Word) : Prop := exec (.blockHeader h) s = .next (s.takeTrap cause info)
    (h.wf = false → traps 1 word) ∧
    (h.wf = true → missing → traps 2 2) ∧
    (h.wf = true → ¬ missing → second → traps 1 word) ∧
    (h.wf = true → ¬ missing → ¬ second → 16777215 < headerCount s.cur h → traps 2 2) ∧
    (h.wf = true → ¬ missing → ¬ second → headerCount s.cur h ≤ 16777215 → headerCount s.cur h ≠ 0 →
      4 ≤ s.cur.loops.length → traps 6 s.pc))

/-- R67: the body end of the innermost entry, reached by an instruction that goes on (here `NOP`) or as an event of its own: REMAIN
is decremented unless the entry ends by `LEAVE`, rb advances in a rotating entry, and fetch goes on in the body while REMAIN is not
zero; else the entry is popped. -/
def Obligations.BodyEnds : Prop :=
  ∀ (e : LoopEntry) (r : List LoopEntry) (s : State), s.cur.loops = e :: r → EndsAlone e r →
    (s.pc.toNat = e.bodyEnd → Completes .bodyEnd s (fun u => BodyEnded s u s.cur e r 0)) ∧
    ((s.pc + 1).toNat = e.bodyEnd → Completes .nop s (fun u => BodyEnded s u s.cur e r 1))

/-- R217: a parked fetch that performs gives its context the parcels at its pc, or the header of the branch target it waits for, and changes
nothing else of it but that its requests to other devices are over; one whose entry parks, parks, one that needs a line of another device
asks for it (R160), and each of these stalls its context, which in exposed mode freezes the compute pipeline (R73); one whose lease is lost
ends its context with cause 0x05 (R163); and a context that does not run stays as it is. -/
def Obligations.ParkedFetchPerforms : Prop :=
  ∀ (c : Nat) (x : CtxId) (ch : Choice) (s : State),
    let k : Ctx := { s.ctxAt c x with lines := giveAnswers 0 (s.ctxAt c x).lines ch.ans }
    let u := s.setCtx c x k
    let cut := ch.cuts.headD 0
    let gives (t : State) : Prop := exec (.instructionFetch c x ch) s = .next t
    (k.run = .running → k.want = none → k.fetched = none →
      (∀ ps, u.fetchAt c x cut k.pc.toNat = .parcels ps → gives (u.setCtx c x { k with fetched := some (k.pc, ps), lines := [] })) ∧
      (∀ va, u.fetchAt c x cut k.pc.toNat = .park va → gives (u.asCtx c x (fun s => (s.addPark c va false).freeze))) ∧
      (∀ dev lease a, u.fetchAt c x cut k.pc.toNat = .away dev lease a → gives (u.asCtx c x (fun s => (s.askFetch dev lease a).freeze))) ∧
      (u.fetchAt c x cut k.pc.toNat = .lost → gives (u.contextRung (u.coreAt c).team 5 0x0A (u.teamOf c).addr.toNat []))) ∧
    (k.run = .running → ∀ t ps, k.want = some t → u.fetchMore c x cut t.toNat 2 = .parcels ps →
      gives (u.setCtx c x { k with want := none, ahead := some (t, ps), lines := [] })) ∧
    (k.run ≠ .running → gives s)

/-! ### Taking an exception, the return, and the special registers (R35 to R38, R63, R130, R238 to R245) -/

/-- R35, R36, R130, R240: a trap of a primary context that has drained, with the bivouac context idle and nothing pending, stops
that context at the instruction, writes the frame (cause, sequencer, offset, information, loop stack, rb, engine commands in
flight), and starts the bivouac context at the task's fault handler. Of the primary control context, a plane atomic that waits for its
check is abandoned (R35; that a trap of another sequencer abandons it too is log 100). Every other context, all of memory and everything
outside the core are as before; on the compute sequencer every earlier result has landed and no `MMA` chain is left (R73, R105). R36, R130: a
trap that cannot enter at once, because the bivouac context runs or an earlier operation of the context has not performed, waits in
the pending queue with its cause, sequencer, information and offset; the frame and the bivouac context are as before. -/
def Obligations.TakingAnException : Prop :=
  (∀ (cause : Nat) (info pc : Word) (s : State), cause ≤ 9 → s.ctx ≠ .biv → s.drained s.core s.ctx = true →
    s.curCore.biv.run ≠ .running → s.curCore.pend = [] →
    let k := if s.ctx = .cmp then { s.curCore.landAll with chain := none, frozen := false, waits := false } else s.curCore
    let t := s.takeTrapAt cause info pc
    OnlyCore s t ∧
    t.cur = { s.cur with run := .trapped, hold := none, fetched := none, want := none, ahead := none, lines := [] } ∧
    t.curCore.frame = { cause := cause, seq := seqCode s.ctx, pc := pc, info := info, loops := saveLoops s.cur.loops,
                        rotbase := s.cur.rb.zeroExtend 64, streams := s.engineCounts s.core s.ctx } ∧
    t.curCore.biv = { s.curCore.biv with run := .running, atEntry := true, pc := (s.teamOf s.core).handler, loops := [],
                                         hold := none, fetched := none, want := none, ahead := none, lines := [] } ∧
    let j := k.setCtx s.ctx t.cur
    t.curCore = { j with frame := t.curCore.frame, biv := t.curCore.biv,
                         ctl := { j.ctl with hold := none, ops := j.ctl.ops.filter (fun o => j.ctl.hold != some o.id) } }) ∧
  (∀ (cause : Nat) (info pc : Word) (s : State), cause ≤ 9 → s.ctx ≠ .biv → s.curCore.pend = [] →
    (s.drained s.core s.ctx = false ∨ s.curCore.biv.run = .running) →
    let k := if s.ctx = .cmp then { s.curCore.landAll with chain := none, frozen := false, waits := false } else s.curCore
    let t := s.takeTrapAt cause info pc
    OnlyCore s t ∧
    t.cur = { s.cur with run := .trapped, hold := none, fetched := none, want := none, ahead := none, lines := [] } ∧
    t.curCore = { (k.setCtx s.ctx t.cur) with
      pend := [{ cause := cause, seq := seqCode s.ctx, info := info, pc := pc }] })

/-- R35 to R38, R238, R239: `TRAP` of the primary control context enters the bivouac context with cause 0x09, its code in TRAPINFO
and the offset after itself in TRAPPC; an `RTE` there, with no operation outstanding, gives the context back its loop stack, its rb
and that offset, where no header has to stand any more, leaves the bivouac context idle, and changes nothing else outside the frame. -/
def Obligations.TrapThenReturn : Prop :=
  ∀ (code : BitVec 17) (s : State), s.ctx = .ctl → s.drained s.core .ctl = true → s.curCore.biv.run ≠ .running →
    s.curCore.pend = [] → s.curCore.biv.ops = [] → s.cur.loops.length ≤ 4 →
    (∀ e r, s.cur.loops = e :: r → (s.pc + 2).toNat ≠ e.bodyEnd) →
    ∃ t u, exec (.trap code) s = .next t ∧ t.curCore.frame.cause = 9 ∧ t.curCore.frame.seq = 0 ∧
      t.curCore.frame.info = code.zeroExtend 64 ∧ t.curCore.frame.pc = s.pc + 2 ∧
      exec .rte { t with ctx := .biv } = .next u ∧
      OnlyCore { s with ctx := .biv } u ∧
      u.ctxAt s.core .ctl = { s.cur with pc := s.pc + 2, run := .running, atEntry := false, hold := none, fetched := none, want := none, ahead := none, lines := [] } ∧
      u.curCore = { s.curCore with ctl := u.curCore.ctl, biv := u.curCore.biv, frame := t.curCore.frame } ∧
      u.curCore.biv.run = .idle

/-- R36, R238: a trap in the bivouac context, `TRAP` among them, is not queued: it ends the task at the context rung with cause
0x04. R38, R130, R239: `RTE` outside the bivouac context traps as illegal instruction; in it, it waits while an operation of the
bivouac context has not performed, and loop state that breaks R38 ends the task. -/
def Obligations.BivouacTrapsAndReturnChecks : Prop :=
  (∀ (code : BitVec 17) (cause : Nat) (info pc : Word) (s : State), s.ctx = .biv →
    s.takeTrapAt cause info pc = s.contextRung s.curCore.team 4 0 0 [] ∧
    exec (.trap code) s = .next (s.contextRung s.curCore.team 4 0 0 []) ∧
    exec .endtask s = .next (s.contextRung s.curCore.team 4 0 0 [])) ∧
  (∀ (s : State),
    (s.ctx ≠ .biv → exec .rte s = .next (s.takeTrap 1 0x98400000)) ∧
    (s.ctx = .biv → (∃ o ∈ s.cur.ops, s.performedOwn s.core o = false) → exec .rte s = .next s) ∧
    (s.ctx = .biv → (∀ o ∈ s.cur.ops, s.performedOwn s.core o = true) →
      (∃ i < 4, ((s.curCore.frame.loops.get 0 i).extractLsb' 56 4 ≠ 0 ∨
        ((s.curCore.frame.loops.get 0 i).getLsbD 63 = false ∧ i < 3 ∧
          (s.curCore.frame.loops.get 0 (i + 1)).getLsbD 63 = true))) →
      exec .rte s = .next (s.contextRung s.curCore.team 4 0 0 [])))

/-- R37, R241: `MFS` on a control context reads each system register; a trap-frame register is read in the bivouac context and traps
as illegal operand, field 2, in the primary one, as does a number that is none. -/
def Obligations.SpecialRegisterReads : Prop :=
  ∀ (d : Reg) (n : BitVec 17) (s : State), OnCtl s → Usable s [d] →
    let k := s.curCore
    let tm := s.teamOf s.core
    let gives (n : BitVec 17) (v : Word) : Prop := Completes (.mfs d n) s (fun t => WroteReg s t d v 2)
    let frame (n : BitVec 17) (v : Word) : Prop :=
      (s.ctx = .biv → gives n v) ∧ (s.ctx = .ctl → exec (.mfs d n) s = .next (s.takeTrap 2 2))
    (∀ v : Word, v.getLsbD 0 = (s.ctx == .biv) → v.getLsbD 1 = k.msgHold → v.getLsbD 2 = k.demHold → v.getLsbD 3 = k.hotHold →
      v.toNat / 16 = k.pend.length → k.pend.length ≤ 8 → gives 0 v) ∧
    frame 1 (BitVec.ofNat 64 (k.frame.cause + 256 * k.frame.seq)) ∧
    frame 2 k.frame.pc ∧ frame 3 k.frame.info ∧ frame 4 (k.frame.loops.get 0 0) ∧ frame 5 (k.frame.loops.get 0 1) ∧
    frame 6 (k.frame.loops.get 0 2) ∧ frame 7 (k.frame.loops.get 0 3) ∧ frame 8 k.frame.rotbase ∧ frame 9 k.frame.streams ∧
    gives 0xA (s.streamCounts s.core s.ctx (fun _ => true)) ∧
    gives 0xB s.cur.hintDrop ∧
    gives 0xC (BitVec.ofNat 64 (s.cycles - k.start)) ∧
    gives 0xD tm.addr ∧ gives 0xE tm.param ∧ gives 0xF k.faultLog ∧ gives 0x10 (BitVec.ofNat 64 tm.vf) ∧
    (0x10 < n.toNat → exec (.mfs d n) s = .next (s.takeTrap 2 2))

/-- R37, R38, R241: with nothing pending, `MTS` on a control context writes the three HOLD bits, HINTDROP, and in the bivouac
context TRAPPC, the LOOPSTATE registers and ROTBASE of the frame; a read-only register, a frame register in the primary context, and
a number that is none trap as illegal operand, field 2. -/
def Obligations.SpecialRegisterWrites : Prop :=
  ∀ (r : Reg) (n : BitVec 17) (s : State), OnCtl s → Usable s [r] → s.curCore.pend = [] →
    let k := s.curCore
    let v := s.G r
    let writes (n : BitVec 17) (k' : Core) (v' : Ctx) : Prop := Completes (.mts r n) s (fun t => Ran s t k' v' 2)
    let frame (n : BitVec 17) (f : Frame) : Prop :=
      (s.ctx = .biv → writes n { k with frame := f } s.cur) ∧ (s.ctx = .ctl → exec (.mts r n) s = .next (s.takeTrap 2 2))
    writes 0 { k with msgHold := v.getLsbD 1, demHold := v.getLsbD 2, hotHold := v.getLsbD 3 } s.cur ∧
    writes 0xB k { s.cur with hintDrop := v } ∧
    frame 2 { k.frame with pc := v } ∧
    frame 4 { k.frame with loops := k.frame.loops.set 0 v } ∧ frame 5 { k.frame with loops := k.frame.loops.set 1 v } ∧
    frame 6 { k.frame with loops := k.frame.loops.set 2 v } ∧ frame 7 { k.frame with loops := k.frame.loops.set 3 v } ∧
    frame 8 { k.frame with rotbase := v &&& 31 } ∧
    ((n = 1 ∨ n = 3 ∨ n = 9 ∨ n = 0xA ∨ (0xC ≤ n.toNat)) → exec (.mts r n) s = .next (s.takeTrap 2 2))

/-- R140, R242, R243, R245: `ID` gives a field of the work identifier, the team rank or the team size, `TIME` the device timer, and
`CFREAD` a word of the copy fault record that the context names. -/
def Obligations.IdentityAndTime : Prop :=
  ∀ (d : Reg) (n : BitVec 17) (s : State), OnCtl s → Usable s [d] →
    let tm := s.teamOf s.core
    let gives (i : Instr) (v : Word) : Prop := Completes i s (fun t => WroteReg s t d v 2)
    (n.toNat < 6 → gives (.id d n)
      (BitVec.ofNat 64 (tm.work.toNat / 2 ^ (tm.widths.take n.toNat).sum % 2 ^ tm.widths.getD n.toNat 0))) ∧
    gives (.id d 6) (BitVec.ofNat 64 s.curCore.rank) ∧
    gives (.id d 7) (BitVec.ofNat 64 tm.cores.length) ∧
    gives (.time d) (BitVec.ofNat 64 s.time) ∧
    (∀ bs, n.toNat ≤ 7 → (if s.ctx = .biv ∧ s.curCore.frame.cause = 0x10 then
        ∃ r, s.curCore.records.find? (fun r => r.1 == s.curCore.frame.record) = some r ∧ r.2 = bs
      else s.curCore.logRecord = some bs) → gives (.cfread d n) (BitVec.ofNat 64 (leAt bs (8 * n.toNat) 8))) ∧
    (n.toNat ≤ 7 → s.ctx = .ctl → s.curCore.logRecord = none → gives (.cfread d n) 0) ∧
    (7 < n.toNat → exec (.id d n) s = .next (s.takeTrap 2 2) ∧ exec (.cfread d n) s = .next (s.takeTrap 2 2))

/-- R63: an instruction on a context that may not run it traps as illegal instruction with its word: a system instruction on the load,
compute or store sequencer; `RTE` elsewhere than in the bivouac context, `ENDTASK` elsewhere than in the primary control context; the
token moves of the control contexts, and `CGET`, elsewhere; a load elsewhere than on the load sequencer, a store elsewhere than on the
store sequencer; a copy, prefetch, probe or atomic on the compute sequencer; every other memory instruction but the token operations
elsewhere than on a control context (`ABARM` and `ABWAIT` too, by the model's choice between R63 and R31, log 103); and every vector and
matrix instruction elsewhere than on the compute sequencer. -/
def Obligations.ContextTraps : Prop :=
  ∀ (d : Reg) (n : BitVec 17) (v : VF) (m : XF) (f : LF) (s : State),
    let traps (i : Instr) (w : Nat) : Prop := exec i s = .next (s.takeTrap 1 (BitVec.ofNat 64 w))
    (¬ OnCtl s → traps (.trap n) (encS 0x60 0 n) ∧ traps .rte (encS 0x61 0 0) ∧ traps (.mfs d n) (encS 0x62 d n) ∧
      traps (.mts d n) (encS 0x63 d n) ∧ traps (.id d n) (encS 0x64 d n) ∧ traps (.time d) (encS 0x65 d 0) ∧
      traps .endtask (encS 0x66 0 0) ∧ traps (.cfread d n) (encS 0x67 d n) ∧
      traps (.ypop d) (encC 13 d 0) ∧ traps (.zpop d) (encC 14 d 0) ∧ traps (.cput d) (encC 15 0 d)) ∧
    (s.ctx ≠ .biv → traps .rte (encS 0x61 0 0)) ∧ (s.ctx ≠ .ctl → traps .endtask (encS 0x66 0 0)) ∧
    (s.ctx ≠ .cmp → traps (.cget d) (encC 16 d 0)) ∧
    let loads : List ((LF → Instr) × Nat) := [
      (.ldB, 0x00), (.ldH, 0x01), (.ldW, 0x02), (.ldD, 0x03), (.ldsB, 0x04), (.ldsH, 0x05), (.ldsW, 0x06), (.ldq, 0x10),
      (.ldqs, 0x11), (.ldx, 0x14), (.ldtab, 0x15), (.ldm, 0x16), (.ldb, 0x18)]
    let stores : List ((LF → Instr) × Nat) := [
      (.stB, 0x08), (.stH, 0x09), (.stW, 0x0A), (.stD, 0x0B), (.stq, 0x12), (.stqs, 0x13), (.stm, 0x17)]
    let notCompute : List ((LF → Instr) × Nat) := [
      (.xcopy, 0x20), (.pref, 0x21), (.probe, 0x22), (.aadd, 0x40), (.afadd, 0x41), (.amin, 0x42), (.amax, 0x43), (.aand, 0x44),
      (.aor, 0x45), (.axor, 0x46), (.axchg, 0x47), (.acas, 0x48), (.ald, 0x49), (.ast, 0x4A)]
    let control : List ((LF → Instr) × Nat) := [
      (.prels, 0x23), (.pconv, 0x24), (.plnew, 0x25), (.plprot, 0x26), (.pldrop, 0x27), (.abarm, 0x50), (.abwait, 0x51),
      (.evsig, 0x52), (.evwait, 0x53), (.evreset, 0x54), (.launch, 0x55), (.steal, 0x56), (.tstate, 0x57), (.bjoin, 0x58),
      (.bwait, 0x59), (.blog, 0x5A), (.msend, 0x5B), (.xgath, 0x60), (.xscat, 0x61), (.xnzs, 0x62), (.xhot, 0x63)]
    (s.ctx ≠ .ld → ∀ e ∈ loads, traps (e.1 f) (encL e.2 f)) ∧ (s.ctx ≠ .st → ∀ e ∈ stores, traps (e.1 f) (encL e.2 f)) ∧
    (s.ctx = .cmp → ∀ e ∈ notCompute, traps (e.1 f) (encL e.2 f)) ∧ (¬ OnCtl s → ∀ e ∈ control, traps (e.1 f) (encL e.2 f)) ∧
    let vector : List ((VF → Instr) × Nat) := [
      (.vadd, 0x00), (.vsub, 0x01), (.vmul, 0x02), (.vfma, 0x03), (.vfms, 0x04), (.vfnma, 0x05), (.vmin, 0x06),
      (.vmax, 0x07), (.vabs, 0x08), (.vneg, 0x09), (.vdiv, 0x0A), (.vsqrt, 0x0B), (.vrsqrt, 0x0C), (.vrcp, 0x0D),
      (.vexp2, 0x0E), (.vlog2, 0x0F), (.viadd, 0x10), (.visub, 0x11), (.vimul, 0x12), (.vimulh, 0x13), (.vand, 0x14),
      (.vor, 0x15), (.vxor, 0x16), (.vshl, 0x17), (.vshr, 0x18), (.vsar, 0x19), (.vimin, 0x1A), (.vimax, 0x1B),
      (.vcmp, 0x20), (.vicmp, 0x21), (.pand, 0x22), (.por, 0x23), (.pxor, 0x24), (.pandn, 0x25), (.pnot, 0x26),
      (.pset, 0x27), (.vsum, 0x28), (.vmov, 0x30), (.vsel, 0x31), (.vbcast, 0x32), (.viota, 0x33), (.vperm, 0x34),
      (.vslide, 0x35), (.vline, 0x36), (.vputl, 0x37), (.vreduce, 0x38), (.vcvt, 0x40), (.vpackbx, 0x41), (.vunpkbx, 0x42),
      (.vseed, 0x43)]
    let matrix : List ((XF → Instr) × Nat) := [
      (.mma, 0x00), (.mscale, 0x01), (.mzero, 0x02), (.mmov, 0x03), (.mstat, 0x04), (.mcheck, 0x05)]
    (s.ctx ≠ .cmp → (∀ e ∈ vector, traps (e.1 v) (encV e.2 v)) ∧ ∀ e ∈ matrix, traps (e.1 m) (encX e.2 m))

/-! ### Vector instructions (R57, R73, R84, R91 to R96, R113, R269 to R287) -/

/-- R57, R64, R270: what a source field of a V48 instruction supplies to lane i, by its code: a vector register under the rotation
of R71, the head of a load queue, `cq0`, zero, an inline constant that is a small integer, or a general register of the compute
sequencer. -/
def Obligations.VectorOperandSources : Prop :=
  ∀ (spec : VSpec) (n i : Nat) (s : State), i < 64 → spec.bInt = some (-2147483648, 2147483647) →
    let k := readCore s.curCore
    let lane (n : Nat) : Nat := at64 (srcLanes k spec .b false n) i
    (n ≤ 31 → lane n = (k.lane n i).toNat) ∧
    (32 ≤ n → n ≤ 63 → (∀ e ∈ k.cmp.loops, e.rot = false) → lane n = (k.lane n i).toNat) ∧
    (32 ≤ n → n ≤ 63 → (∃ e ∈ k.cmp.loops, e.rot = true) →
      lane n = (k.lane (32 + (n - 32 + k.cmp.rb.toNat) % 32) i).toNat) ∧
    (∀ tag bs q, n ≤ 3 → k.loadQ n = ⟨tag, some bs⟩ :: q → lane (64 + n) = leAt bs (4 * i) 4) ∧
    (∀ v q, k.cq = v :: q → lane 70 = v.toNat % 2 ^ 32) ∧
    lane 71 = 0 ∧
    (n ≤ 16 → lane (128 + n) = n) ∧
    (n < 16 → lane (192 + n) = (k.cmp.reg n).toNat % 2 ^ 32)

/-- R92, R272 to R274: each floating instruction forms, in every enabled lane, one rounded result of its operands, subnormal
operands and results flushed in exposed mode, and puts it in flight with its latency; it pops the queues it names once and changes
nothing else. -/
def Obligations.FloatVectorResults : Prop :=
  ∀ (f : VF) (s : State),
    let x := fpFmt f.fmt.toNat
    let ex := (readCore s.curCore).cmp.exposed
    let two : VSpec := { bFmt := f.fmt.toNat }
    let one : VSpec := { b := .unused, bFmt := f.fmt.toNat }
    let val (n : Nat) : FVal := x.flushIn ex (x.decode n)
    let gives (spec : VSpec) (i : Instr) (latency : Nat) (g : FVal → FVal → FVal → Rounded) : Prop :=
      VecReady spec f s → Completes i s (fun t => Ran s t (launched (poppedCore spec f s) latency f.d.toNat false
        ((lanesOn f s).map (fun l => (l, (g (val (laneA spec f s l)) (val (laneB spec f s l)) (val (laneC spec f s l))).bits))))
        s.cur 3)
    let r (v : FVal) : Rounded := x.round .rne ex v
    gives two (.vadd f) 4 (fun a b _ => r (a.add b)) ∧
    gives two (.vsub f) 4 (fun a b _ => r (a.add b.neg)) ∧
    gives two (.vmul f) 4 (fun a b _ => r (a.mul b)) ∧
    gives two (.vfma f) 4 (fun a b c => r ((a.mul b).add c)) ∧
    gives two (.vfms f) 4 (fun a b c => r ((a.mul b).add c.neg)) ∧
    gives two (.vfnma f) 4 (fun a b c => r ((a.mul b).neg.add c)) ∧
    gives two (.vmin f) 4 (fun a b _ => r (a.min b)) ∧
    gives two (.vmax f) 4 (fun a b _ => r (a.max b)) ∧
    gives one (.vabs f) 4 (fun a _ _ => r a.abs) ∧
    gives one (.vneg f) 4 (fun a _ _ => r a.neg) ∧
    gives two (.vdiv f) 16 (fun a b _ => x.div ex a b) ∧
    gives one (.vsqrt f) 16 (fun a _ _ => x.sqrt ex a) ∧
    gives one (.vrsqrt f) 16 (fun a _ _ => x.rsqrt ex a) ∧
    gives one (.vrcp f) 16 (fun a _ _ => x.div ex (.fin false 1 0) a) ∧
    gives one (.vexp2 f) 16 (fun a _ _ => x.exp2 ex a) ∧
    gives one (.vlog2 f) 16 (fun a _ _ => x.log2 ex a)

/-- R84, R271, R272, R275: each integer instruction gives, modulo 2^w in every enabled lane, the stated function of the operands'
low w bits, signed in the I formats, with a latency of 2; in I64 and U64 the operands and the result are register pairs. -/
def Obligations.IntegerVectorResults : Prop :=
  ∀ (f : VF) (s : State), intFmt f.fmt = true →
    let pair := pairFmt f.fmt
    let spec : VSpec := { dPair := pair, aPair := pair, bPair := pair, bFmt := f.fmt.toNat }
    let w := if pair then 64 else if f.fmt = 9 ∨ f.fmt = 10 then 8 else 32
    let signed := f.fmt = 5 ∨ f.fmt = 7 ∨ f.fmt = 9
    let s2 (n : Nat) : Int := if 2 ^ (w - 1) ≤ n then (n : Int) - 2 ^ w else n
    let v (n : Nat) : Int := if signed then s2 n else n
    VecReady spec f s →
    let gives (i : Instr) (g : Nat → Nat → Int) : Prop :=
      Completes i s (fun t => Ran s t (launched (poppedCore spec f s) 2 f.d.toNat pair
        ((lanesOn f s).map (fun l => (l, (g (laneA spec f s l % 2 ^ w) (laneB spec f s l % 2 ^ w) % 2 ^ w).toNat)))) s.cur 3)
    gives (.viadd f) (fun a b => (a : Int) + b) ∧
    gives (.visub f) (fun a b => (a : Int) - b) ∧
    gives (.vimul f) (fun a b => (a : Int) * b) ∧
    gives (.vimulh f) (fun a b => v a * v b / 2 ^ w) ∧
    gives (.vand f) (fun a b => (a &&& b : Nat)) ∧
    gives (.vor f) (fun a b => (a ||| b : Nat)) ∧
    gives (.vxor f) (fun a b => (a ^^^ b : Nat)) ∧
    gives (.vshl f) (fun a b => (a : Int) * 2 ^ (b % w)) ∧
    gives (.vshr f) (fun a b => (a : Int) / 2 ^ (b % w)) ∧
    gives (.vsar f) (fun a b => s2 a / 2 ^ (b % w)) ∧
    gives (.vimin f) (fun a b => min (v a) (v b)) ∧
    gives (.vimax f) (fun a b => max (v a) (v b))

/-- R276 to R278: the compares write a predicate's bits in the enabled lanes, the predicate instructions all 64 bits, and `VSUM`
reserves a summary entry for the count of its predicate's bits in the enabled lanes, waiting while the queue is full. -/
def Obligations.PredicateResults : Prop :=
  ∀ (f : VF) (s : State),
    let k := readCore s.curCore
    let ex := k.cmp.exposed
    let x := fpFmt f.fmt.toNat
    let fl (n : Nat) : FVal := x.flushIn ex (x.decode n)
    let pair := pairFmt f.fmt
    let fSpec : VSpec := { d := .pred, bFmt := f.fmt.toNat }
    let iSpec : VSpec := { d := .pred, aPair := pair, bPair := pair, bFmt := f.fmt.toNat }
    let pSpec : VSpec := { d := .pred, a := .pred, b := .pred }
    let uSpec : VSpec := { d := .pred, a := .pred, b := .unused }
    let nSpec : VSpec := { d := .pred, a := .unused, b := .scalar, bInt := some (intRange 6) }
    let gives (spec : VSpec) (i : Instr) (P : Word → Word → Prop) : Prop :=
      VecReady spec f s → Completes i s (fun t => ∃ mask val, P mask val ∧
        Ran s t ((poppedCore spec f s).launch 2 [.pred f.d.toNat mask val]) s.cur 3)
    let onLanes (c : Nat → Bool) (mask val : Word) : Prop := ∀ l < 64,
      mask.getLsbD l = decide (l ∈ lanesOn f s) ∧ val.getLsbD l = (decide (l ∈ lanesOn f s) && c l)
    let whole (v : Word) (mask val : Word) : Prop := mask = BitVec.allOnes 64 ∧ val = v
    let p := k.pred f.a.toNat
    let q := k.pred f.b.toNat
    let count := ((lanesOn f s).filter (fun l => p.getLsbD l)).length
    gives fSpec (.vcmp f) (onLanes (fun l => floatCond f.mod.toNat (fl (laneA fSpec f s l)) (fl (laneB fSpec f s l)))) ∧
    gives iSpec (.vicmp f) (onLanes (fun l =>
      orderCond f.mod.toNat (compare (intOf f.fmt.toNat (laneA iSpec f s l)) (intOf f.fmt.toNat (laneB iSpec f s l))))) ∧
    gives pSpec (.pand f) (whole (p &&& q)) ∧ gives pSpec (.por f) (whole (p ||| q)) ∧ gives pSpec (.pxor f) (whole (p ^^^ q)) ∧
    gives pSpec (.pandn f) (whole (p &&& ~~~q)) ∧ gives uSpec (.pnot f) (whole (~~~p)) ∧
    gives nSpec (.pset f) (fun mask val => mask = BitVec.allOnes 64 ∧
      ∀ l < 64, val.getLsbD l = (decide (l < laneB nSpec f s 0) != (f.mod == 1))) ∧
    (s.ctx = .cmp → f.a.toNat ≤ 31 →
      (k.zq.length < 8 → Completes (.vsum f) s (fun t => ∃ w : Lane,
        w.extractLsb' 8 7 = BitVec.ofNat 7 count ∧ w.getLsbD 0 = decide (count ≠ 0) ∧
        w.getLsbD 1 = decide (count = (lanesOn f s).length) ∧ w.getLsbD 2 = decide (count = 0) ∧
        Ran s t (Core.launch { k with zq := k.zq ++ [⟨k.nextTag, none⟩], nextTag := k.nextTag + 1 } 6 [.sum k.nextTag w]) s.cur 3)) ∧
      (8 ≤ k.zq.length → exec (.vsum f) s = .next s.freeze))

/-- R279, R280: the moves and permutations, lane by lane. -/
def Obligations.VectorMoveResults : Prop :=
  ∀ (f : VF) (s : State),
    let pair := pairFmt f.fmt
    let moves (spec : VSpec) (i : Instr) (latency : Nat) (on : List Nat) (g : Nat → Nat) : Prop :=
      VecReady spec f s → Completes i s (fun t =>
        Ran s t (launched (poppedCore spec f s) latency f.d.toNat spec.dPair (on.map (fun l => (l, g l)))) s.cur 3)
    let all := List.range 64
    let on := lanesOn f s
    let mSpec : VSpec := { a := .unused, dPair := pair, bPair := pair, bFmt := f.fmt.toNat }
    let sSpec : VSpec := { dPair := pair, aPair := pair, bPair := pair, bFmt := f.fmt.toNat }
    let bSpec : VSpec := { bInt := some (intRange 6) }
    let iSpec : VSpec := { a := .unused, bFmt := f.fmt.toNat }
    let lSpec : VSpec := { bInt := some (intRange 5) }
    let n := intOf 5 (laneB lSpec f s 0)
    moves mSpec (.vmov f) 2 on (fun l => laneB mSpec f s l % 2 ^ fmtBits f.fmt.toNat) ∧
    moves sSpec (.vsel f) 2 all (fun l => if l ∈ on then laneA sSpec f s l else laneB sSpec f s l) ∧
    moves bSpec (.vbcast f) 2 on (fun _ => laneA bSpec f s (laneB bSpec f s 0 % 64)) ∧
    moves iSpec (.viota f) 2 on (fun l => (laneB iSpec f s l + l) % 2 ^ 32) ∧
    moves {} (.vperm f) 3 on (fun l => laneA {} f s (laneB {} f s l % 64)) ∧
    moves lSpec (.vslide f) 3 on (fun l =>
      if f.mod = 1 then laneA lSpec f s (((l : Int) + n) % 64).toNat
      else if 0 ≤ (l : Int) + n ∧ (l : Int) + n ≤ 63 then laneA lSpec f s ((l : Int) + n).toNat else 0)

/-- R113, R281 to R283: a line of a matrix register by row, column or diagonal, read at issue or written when it lands, and the
reduction of the enabled lanes in a tree of six levels, written to every lane. -/
def Obligations.VectorMatrixResults : Prop :=
  ∀ (f : VF) (s : State),
    let k := readCore s.curCore
    let lSpec : VSpec := { a := .mat, bInt := some (intRange 6) }
    let pSpec : VSpec := { d := .mat, bInt := some (intRange 6) }
    let rSpec : VSpec := { b := .unused }
    let at_ (n l : Nat) : Nat × Nat := if f.mod = 0 then (n, l) else if f.mod = 1 then (l, n) else (l, (l + n) % 64)
    let lineL := laneB lSpec f s 0 % 64
    let lineP := laneB pSpec f s 0 % 64
    let idle := if f.fmt.toNat ≤ 4 then 2 ^ (fmtBits f.fmt.toNat - 1) else 0
    let addend (l : Nat) : Nat := if l ∈ lanesOn f s then laneA rSpec f s l % 2 ^ fmtBits f.fmt.toNat else idle
    let plus := reduceAdd f k.cmp.exposed
    let level (g : Nat → Nat) (i : Nat) : Nat := plus (g (2 * i)) (g (2 * i + 1))
    (VecReady lSpec f s → Completes (.vline f) s (fun t => Ran s t (launched (poppedCore lSpec f s) 3 f.d.toNat false
      ((lanesOn f s).map (fun l => (l, (k.elem f.a.toNat (at_ lineL l).1 (at_ lineL l).2).toNat)))) s.cur 3)) ∧
    (VecReady pSpec f s → Completes (.vputl f) s (fun t => Ran s t ((poppedCore pSpec f s).launch 3
      [.elems ((lanesOn f s).map (fun l =>
        (elemKey f.d.toNat (at_ lineP l).1 (at_ lineP l).2, BitVec.ofNat 32 (laneA pSpec f s l))))]) s.cur 3)) ∧
    (VecReady rSpec f s → Completes (.vreduce f) s (fun t => Ran s t (launched (poppedCore rSpec f s) 10 f.d.toNat false
      ((List.range 64).map (fun l => (l, level (level (level (level (level (level addend))))) 0)))) s.cur 3))

/-- R94, R284 to R287: a conversion in the enabled lanes, drawing first in each of them under `.SR`; the packing of 64 values into
two BX blocks and its inverse; and the seeding of the stochastic state. -/
def Obligations.ConversionResults : Prop :=
  ∀ (f : VF) (s : State),
    let k := readCore s.curCore
    let ex := k.cmp.exposed
    let cSpec : VSpec := { b := .unused, dPair := pairFmt f.fmt, aPair := pairFmt (f.b.extractLsb' 0 4) }
    let pSpec : VSpec := { b := .unused }
    let uSpec : VSpec := { a := .regQ, b := .unused }
    let sSpec : VSpec := { d := .unused, a := .unused, bInt := some (intRange 6) }
    let drawn (l : Nat) : Lane := nextDraw (k.sr.get 0 l)
    let cvt (state : Nat → Lane) : List (Nat × Nat) := (lanesOn f s).map (fun l =>
      (l, convert f.fmt.toNat f.b.toNat f.mod.toNat (state l).toNat ex (laneA cSpec f s l)))
    let x := fpFmt f.b.toNat
    let vals : List FVal := (List.range 64).map (fun l =>
      if l ∈ lanesOn f s then x.flushIn ex (x.decode (laneA pSpec f s l)) else .fin false 0 0)
    let packed := packBx (bxW f.fmt.toNat) (vals.take 32) + packBx (bxW f.fmt.toNat) (vals.drop 32) * 2 ^ (8 * bxLen f.fmt.toNat)
    let src := leNat (laneBytes ((List.range 64).map (laneA uSpec f s)))
    let el (l : Nat) := bxElem (bxW f.b.toNat) (src / 2 ^ (8 * bxLen f.b.toNat * (l / 32)) % 2 ^ (8 * bxLen f.b.toNat)) (l % 32)
    (VecReady cSpec f s → f.mod ≠ 3 → Completes (.vcvt f) s (fun t =>
      Ran s t (launched (poppedCore cSpec f s) 4 f.d.toNat cSpec.dPair (cvt (fun l => k.sr.get 0 l))) s.cur 3)) ∧
    (VecReady cSpec f s → f.mod = 3 → Completes (.vcvt f) s (fun t =>
      let p := poppedCore cSpec f s
      Ran s t (launched { p with sr := p.sr.setAll ((lanesOn f s).map (fun l => (l, drawn l))) } 4 f.d.toNat cSpec.dPair
        (cvt drawn)) s.cur 3)) ∧
    (VecReady pSpec f s → Completes (.vpackbx f) s (fun t => Ran s t (launched (poppedCore pSpec f s) 4 f.d.toNat false
      ((List.range 64).map (fun l => (l, packed / 2 ^ (32 * l) % 2 ^ 32)))) s.cur 3)) ∧
    (VecReady uSpec f s → Completes (.vunpkbx f) s (fun t => Ran s t (launched (poppedCore uSpec f s) 4 f.d.toNat false
      ((lanesOn f s).map (fun l => (l, ((fpFmt f.fmt.toNat).round .rne ex
        (bxVal (bxW f.b.toNat) (el l).1 (el l).2.1 (el l).2.2)).bits)))) s.cur 3)) ∧
    (VecReady sSpec f s → Completes (.vseed f) s (fun t =>
      let p := poppedCore sSpec f s
      Ran s t (Core.launch { p with sr := p.sr.setAll ((lanesOn f s).map (fun l => (l, BitVec.ofNat 32 (laneB sSpec f s l)))) } 2 [])
        s.cur 3))

/-! ### Landing and the matrix engine (R73, R75, R101 to R112, R288 to R300) -/

/-- R28, R30, R73, R272: what a landing result does: it writes its lanes, the masked bits of its predicate (never of `p0`), fills
its reserved entry, writes its elements, sets status bits or clears a register; every other lane, predicate, element and status word
is as before. R73, R75, R111, R112: while the compute sequencer is interlocked or stopped the earliest result in flight lands by
itself; a checked drain whose first check failed is run again with the same result and counted as an error, and one that failed twice
writes no element, sets CKFAIL, fences the matrix engine and ends the task with cause 0x03; a drain with no checked group fails none.
R196, R198, R200: the lasting failure is counted at once and starts an engine rung that keeps its record until it completes, which is the
model's reading (log 23). -/
def Obligations.ResultsLand : Prop :=
  (∀ (k : Core) (r tag : Nat) (mask val : Word) (b : Lane) (bs : List Byte) (lane : Nat × Lane) (cell : Nat × Lane),
    lane.1 < 64 →
    let v := k.applyWrite (.vec r [lane])
    let p := k.applyWrite (.pred r mask val)
    let q := k.applyWrite (.store r tag bs)
    let e := k.applyWrite (.elems [cell])
    let b' := k.applyWrite (.status r b)
    let z := k.applyWrite (.clear r)
    (v.lane r lane.1 = lane.2 ∧ ∀ n i, i < 64 → (n, i) ≠ (r, lane.1) → v.lane n i = k.lane n i) ∧
    (r ≠ 0 → p.pred r = (k.pred r &&& ~~~mask) ||| (val &&& mask)) ∧ p.pred 0 = BitVec.allOnes 64 ∧
    (∀ n, n ≠ r → p.pred n = k.pred n) ∧
    (q.storeQ r = (k.storeQ r).map (fun e => if e.tag = tag then { e with data := some bs } else e) ∧
      ∀ n, n ≠ r → q.storeQ n = k.storeQ n) ∧
    (e.m.get 0 cell.1 = cell.2 ∧ ∀ n, n ≠ cell.1 → e.m.get 0 n = k.m.get 0 n) ∧
    (b'.tstat.get 0 r = k.tstat.get 0 r ||| b ∧ ∀ n, n ≠ r → b'.tstat.get 0 n = k.tstat.get 0 n) ∧
    ((∀ i j, i < 64 → j < 64 → z.elem r i j = 0) ∧ z.tstat.get 0 r = 0 ∧
      ∀ n i j, i < 64 → j < 64 → n ≠ r → z.elem n i j = k.elem n i j ∧ z.tstat.get 0 n = k.tstat.get 0 n)) ∧
  (∀ (c : Nat) (l : Landing) (s : State),
    let k := s.coreAt c
    k.flight = [l] →
    (k.cmp.run ≠ .running ∨ k.cmp.exposed = false →
      exec (.resultLanding c) s = .next (s.setCore c (Core.land { k with flight := [], slot := max k.slot l.due } l)) ∧
      (l.drain = true → exec (.mmaDrain c 0) s
        = .next (s.setCore c (Core.land { k with flight := [], slot := max k.slot l.due } l)))) ∧
    (l.drain = true → l.checked = true → l.fails = 0 →
      exec (.mmaDrain c 1) s = .next ((s.setCore c { k with flight := [{ l with fails := 1 }] }).countError 6 0 0 (c / 64)
        (some (s.teamOf c).vf) c) ∧
      ∃ k', Core.land { k with flight := [] } { l with fails := 2 } = k' ∧ k'.fenced = true ∧ k'.m = k.m ∧
        (∀ i < l.group, (k'.tstat.get 0 (l.acc + i)).getLsbD 6 = true) ∧
        exec (.mmaDrain c 2) s = .next ((s.setCore c k').fenceRung c) ∧
        (s.rungs = [] →
          let tm := s.teamOf c
          let p := (s.setCore c k').countOnly 6 (c / 64) (some tm.vf)
          let u := p.1.failTeam k.team 3 []
          exec (.mmaDrain c 2) s = .next { u with rungs := u.rungs ++
            [⟨3, c, [c], s.time, 6, c / 64, some tm.vf, c, s.time, p.2, 2, [(tm.launch, tm.idx)], false⟩] })) ∧
    (l.checked = false → exec (.mmaDrain c 1) s = .next s ∧ exec (.mmaDrain c 2) s = .next s))

/-- R100 to R105, R109, R111, R289 to R292: an `MMA` that meets its conditions waits while the matrix engine is occupied, one issue slot
elapsing after another; then it takes M times the passes of its format, and puts in flight C(i, n) for every i below M and n below N: the
groups of sixteen products in rising order of k added to the accumulator, which is as the `MMA` it chains to leaves it where the groups
are the same; its status bits land with it, it is checked where some group of its A and B elements is all finite, and it is what a later
`MMA` may chain to, with the group as it leaves it once every result in flight has landed. -/
def Obligations.MatrixMultiplyResults : Prop :=
  ∀ (f : XF) (s : State),
    let malloc := (s.teamOf s.core).malloc
    let ga := 2 ^ f.ag.toNat
    let gc := 2 ^ f.cg.toNat
    let m := f.m.toNat + 1
    let kk := f.k.toNat + 1
    let n := f.n.toNat + 1
    s.ctx = .cmp → s.curCore.fenced = false → (readCore s.curCore).zq.length ≤ 8 →
    f.c.toNat % gc = 0 → f.c.toNat + gc ≤ min malloc 16 → f.a.toNat % ga = 0 → f.a.toNat + ga ≤ min malloc 16 →
    (f.a.toNat + ga ≤ f.c.toNat ∨ f.c.toNat + gc ≤ f.a.toNat) → kk ≤ 64 * ga → n ≤ 64 * gc →
    let occupied := m * passes f.fmt.toNat
    let k := readCore s.curCore
    let a (i j : Nat) : Nat :=
      (if f.tr then k.elem (f.a.toNat + j / 64) (j % 64) i else k.elem (f.a.toNat + j / 64) i (j % 64)).toNat
    let b (j i : Nat) : Nat := (k.w.get 0 (slotKey f.slot.toNat j i)).toNat
    let key (i j : Nat) : Nat := elemKey (f.c.toNat + j / 64) i (j % 64)
    let chained : Tab Lane := match k.chain with
      | some h => if h.acc = f.c.toNat ∧ h.group = gc then h.cells else k.m
      | none => k.m
    let old (i j : Nat) : Nat := (chained.get 0 (key i j)).toNat
    let elem (i j : Nat) : Nat × Nat :=
      mmaElem f k.cmp.exposed ((List.range kk).map (a i)) ((List.range kk).map (fun q => b q j)) (old i j)
    let pairs := (List.range m).flatMap (fun i => (List.range n).map (fun j => (i, j)))
    let cells : List (Nat × Lane) := pairs.map (fun p => (key p.1 p.2, BitVec.ofNat 32 (elem p.1 p.2).1))
    let status (r : Nat) : Lane := BitVec.ofNat 32
      ((pairs.filter (fun p => key p.1 p.2 / 4096 == f.c.toNat + r)).foldl (fun acc p => acc ||| (elem p.1 p.2).2) 0)
    let finite (v : Nat) : Prop := f.fmt = 9 ∨ ∃ sg mm e, (matVal f.fmt.toNat k.cmp.exposed v).1 = .fin sg mm e
    let group (g : Nat) : Prop := ∀ j, 16 * g ≤ j → j < 16 * g + 16 → j < kk →
      (∀ i, i < m → finite (a i j)) ∧ ∀ i, i < n → finite (b j i)
    (k.occEnd ≤ k.slot → Completes (.mma f) s (fun t => ∃ checked : Bool, (checked = true ↔ ∃ g, 16 * g < kk ∧ group g) ∧ Ran s t { k with
      occEnd := k.slot + occupied,
      flight := k.flight ++ [{ due := k.slot + (16 + occupied), slot := some f.slot.toNat, drain := true, checked := checked,
                               acc := f.c.toNat, group := gc,
                               writes := .elems cells :: (List.range gc).map (fun r => .status (f.c.toNat + r) (status r)) }],
      chain := some ⟨f.c.toNat, gc, (k.landAll.m.setAll cells).filter (fun e =>
        f.c.toNat ≤ e.1 / 4096 && e.1 / 4096 < f.c.toNat + gc)⟩ } s.cur 4)) ∧
    (k.slot < k.occEnd → exec (.mma f) s = .next (s.setCurCore { k.tick 1 with frozen := false, waits := true }))

/-- R294 to R300: `MSCALE` puts in flight the accumulator plus the scaled group, `MZERO` the clearing of a group and its status,
`MMOV` a copy or a transpose, `MSTAT` one summary word for each register of a group, and `MCHECK` the self-test word; each breaks
the chain. R290: the ones that occupy the engine wait for it, issue slots elapsing, and `MCHECK` asks for its summary entry in the slot
it issues in. -/
def Obligations.MatrixGroupResults : Prop :=
  ∀ (f : XF) (s : State),
    let tm := s.teamOf s.core
    let gc := 2 ^ f.cg.toNat
    let c := f.c.toNat
    let a := f.a.toNat
    let n := f.n.toNat + 1
    let e := f.k.toNat % 64
    let k := readCore s.curCore
    let free : Prop := k.occEnd ≤ k.slot
    let elapses (i : Instr) : Prop := ¬ free → exec i s = .next (s.setCurCore { k.tick 1 with frozen := false, waits := true })
    let inRange (r : Nat) : Prop := r % gc = 0 ∧ r + gc ≤ min tm.malloc 16
    let pairs := (List.range (f.m.toNat + 1)).flatMap (fun i => (List.range n).map (fun j => (i, j)))
    let whole := (List.range 64).flatMap (fun i => (List.range 64).map (fun j => (i, j)))
    let key (r i j : Nat) : Nat := elemKey (r + j / 64) i (j % 64)
    let scaled (p : Nat × Nat) : Nat × Nat := scaleElem k.cmp.exposed (k.m.get 0 (key c p.1 p.2)).toNat
      (k.m.get 0 (key a p.1 p.2)).toNat (k.vecByte e p.1) (k.vecByte (e + 1) p.2)
    let status (r : Nat) : Lane := BitVec.ofNat 32
      ((pairs.filter (fun p => key c p.1 p.2 / 4096 == c + r)).foldl (fun acc p => acc ||| (scaled p).2) 0)
    let flying (due : Nat) (l : Landing) : List Landing := k.flight ++ [{ l with due := k.slot + due }]
    s.ctx = .cmp → s.curCore.fenced = false →
    (inRange c → inRange a → f.ag = f.cg → (a + gc ≤ c ∨ c + gc ≤ a) → n ≤ 64 * gc → e % 2 = 0 → e + 1 ≤ 8 * tm.valloc + 7 →
      k.zq.length ≤ 8 → elapses (.mscale f) ∧ (free → Completes (.mscale f) s (fun t => Ran s t { k with
        occEnd := k.slot + 4, chain := none,
        flight := flying 6 ⟨0, none, true, false, c, gc, 0, .elems (pairs.map (fun p => (key c p.1 p.2, BitVec.ofNat 32 (scaled p).1)))
            :: (List.range gc).map (fun r => .status (c + r) (status r))⟩ } s.cur 4))) ∧
    (inRange c → k.zq.length ≤ 8 → elapses (.mzero f) ∧ (free → Completes (.mzero f) s (fun t => Ran s t { k with
        occEnd := k.slot + 1, chain := none,
        flight := flying 2 { acc := c, group := gc, writes := (List.range gc).map (fun r => .clear (c + r)) } } s.cur 4))) ∧
    (inRange c → inRange a → f.ag = f.cg → (f.tr = true → f.cg = 0) → k.zq.length ≤ 8 → elapses (.mmov f) ∧
      (free → Completes (.mmov f) s (fun t => Ran s t { k with
        occEnd := k.slot + 1, chain := none,
        flight := flying 4 ⟨0, none, false, false, c, gc, 0, [.elems ((List.range gc).flatMap (fun r =>
          whole.map (fun p => (elemKey (c + r) p.1 p.2,
            if f.tr then k.elem a p.2 p.1 else k.elem (a + r) p.1 p.2))))]⟩ } s.cur 4))) ∧
    (inRange c → k.zq.length + gc ≤ 8 →
      Completes (.mstat f) s (fun t => Ran s t { k with
        chain := none, nextTag := k.nextTag + gc,
        zq := k.zq ++ (List.range gc).map (fun r => ⟨k.nextTag + r, none⟩),
        flight := k.flight ++ (List.range gc).map (fun r =>
          { due := k.slot + 2, writes := [.sum (k.nextTag + r) (k.tstat.get 0 (c + r))] }) } s.cur 4)) ∧
    elapses (.mcheck f) ∧ (free → 8 ≤ k.zq.length → exec (.mcheck f) s = .next s.freeze) ∧
    (free → k.zq.length + 1 ≤ 8 → Completes (.mcheck f) s (fun t => ∃ rows cols, rows ≤ 64 ∧ cols ≤ 256 ∧ Ran s t { k with
        occEnd := k.slot + 64 * passes f.fmt.toNat, chain := none, nextTag := k.nextTag + 1,
        zq := k.zq ++ [⟨k.nextTag, none⟩],
        flight := flying (16 + 64 * passes f.fmt.toNat)
          ⟨0, some f.slot.toNat, false, false, 0, 0, 0, [.sum k.nextTag (checkWord rows cols)]⟩ } s.cur 4))

/-- R269: the checks of a V48 instruction in their order, here of `VADD` and of `VIADD`: an illegal operand code by field, a
register outside the allocation, an inline constant its operand cannot take; an empty source queue, or one whose head is not filled, in
either field, and a full store queue make it wait (R73). R112,
R289: the checks of an X64 instruction in their order, here of `MMA`: a fenced engine traps as illegal instruction, overlapping
groups as illegal operand, field 1, a shape beyond its groups as field 2, and a group that is misaligned or outside the allocation
as register range; with the summary queue full, `MSTAT` waits. -/
def Obligations.VectorAndMatrixTraps : Prop :=
  (∀ (f : VF) (s : State), s.ctx = .cmp → f.fmt.toNat ≤ 6 →
    let top := 8 * (s.teamOf s.core).valloc + 7
    let i : Instr := if f.fmt.toNat ≤ 4 then .vadd f else .viadd f
    let badD := f.d.toNat ≠ 68 ∧ f.d.toNat ≠ 69 ∧ f.d.toNat ≠ 71 ∧ 63 < f.d.toNat
    let badA := f.a.toNat = 68 ∨ f.a.toNat = 69 ∨ 71 < f.a.toNat
    let badB := f.b.toNat = 68 ∨ f.b.toNat = 69 ∨ (71 < f.b.toNat ∧ f.b.toNat < 128) ∨ 207 < f.b.toNat
    let out (n : Nat) := n ≤ 63 ∧ top < physReg s.cur n
    let traps (cause : Nat) (info : Nat) : Prop := exec i s = .next (s.takeTrap cause (BitVec.ofNat 64 info))
    (badD → traps 2 0) ∧ (¬ badD → badA → traps 2 1) ∧ (¬ badD → ¬ badA → badB → traps 2 2) ∧
    (¬ badD → ¬ badA → ¬ badB → out f.d.toNat → traps 3 (physReg s.cur f.d.toNat)) ∧
    (¬ badD → ¬ badA → ¬ badB → ¬ out f.d.toNat → out f.a.toNat → traps 3 (physReg s.cur f.a.toNat)) ∧
    (¬ badD → ¬ badA → ¬ badB → ¬ out f.d.toNat → ¬ out f.a.toNat → out f.b.toNat → traps 3 (physReg s.cur f.b.toNat)) ∧
    (¬ badD → ¬ badA → ¬ badB → ¬ out f.d.toNat → ¬ out f.a.toNat → ¬ out f.b.toNat →
      (5 ≤ f.fmt.toNat → 165 ≤ f.b.toNat → f.b.toNat < 192 → traps 2 2) ∧
      (vecConst { bFmt := f.fmt.toNat } f = false →
        let k := readCore s.curCore
        let unfilled (q : List QEntry) : Prop := ∀ e r, q = e :: r → e.data = none
        let waits : Prop := exec i s = .next s.freeze
        ((f.a = 70 ∨ f.b = 70) → k.cq = [] → waits) ∧
        (64 ≤ f.a.toNat → f.a.toNat ≤ 67 → unfilled (k.loadQ (f.a.toNat - 64)) → waits) ∧
        (64 ≤ f.b.toNat → f.b.toNat ≤ 67 → unfilled (k.loadQ (f.b.toNat - 64)) → waits) ∧
        ((f.d = 68 ∨ f.d = 69) → (k.storeQ (f.d.toNat - 68)).length = 8 → waits)))) ∧
  (∀ (f : XF) (s : State), s.ctx = .cmp →
    let ga := 2 ^ f.ag.toNat
    let gc := 2 ^ f.cg.toNat
    let a := f.a.toNat
    let c := f.c.toNat
    let top := min (s.teamOf s.core).malloc 16
    let traps (cause : Nat) (info : Word) : Prop := exec (.mma f) s = .next (s.takeTrap cause info)
    (s.curCore.fenced = true → traps 1 (BitVec.ofNat 64 (encX 0 f))) ∧
    (s.curCore.fenced = false →
      (a < c + gc → c < a + ga → traps 2 1) ∧
      ((a + ga ≤ c ∨ c + gc ≤ a) → (64 * ga < f.k.toNat + 1 ∨ 64 * gc < f.n.toNat + 1) → traps 2 2) ∧
      ((a + ga ≤ c ∨ c + gc ≤ a) → f.k.toNat + 1 ≤ 64 * ga → f.n.toNat + 1 ≤ 64 * gc →
        (c % gc ≠ 0 → a % ga = 0 → a + ga ≤ top → traps 3 (BitVec.ofNat 64 c)) ∧
        (a % ga ≠ 0 → c % gc = 0 → c + gc ≤ top → traps 3 (BitVec.ofNat 64 a)) ∧
        (a % ga = 0 → c % gc = 0 → c + gc ≤ top → top < a + ga → traps 3 (BitVec.ofNat 64 (max a top)))) ∧
      (c % gc = 0 → c + gc ≤ top → (readCore s.curCore).zq.length = 8 → exec (.mstat f) s = .next s.freeze)))

/-! ### Ordering operations at issue (R34, R40, R60, R116 to R121, R247 to R267, R301 to R320) -/

/-- R31, R34, R40, R250, R251: a queue transfer whose eight chunk addresses are multiples of 32 in a window issues where its stream
has room: a load form reserves the tail entry of its queue, a store form takes the oldest filled entry with its bytes; where its
queue is full, or empty, it waits; the first chunk that fails traps with cause 0x07. `LDTAB` and `LDX` issue likewise, `LDX` with
the expander table as it is and once every earlier `LDTAB` has performed; the address of its first byte is a sum modulo 2^64. -/
def Obligations.QueueTransfers : Prop :=
  ∀ (f : LF) (s : State), Usable s [f.y] →
    let k := s.curCore
    let q := f.x.toNat
    let sums := s.G f.y + f.z.signExtend 64 * 256
    let stride := s.G (f.z.extractLsb' 5 5)
    let chunk (b d : Word) (j : Nat) : Word := b + d * BitVec.ofNat 64 j
    let good (b d : Word) (j : Nat) : Prop := (chunk b d j).toNat % 32 = 0 ∧ InWindow s (chunk b d j).toNat 32
    let scope (b d : Word) : Nat :=
      if ((List.range 8).any (fun j => decide (0x10000000 ≤ (chunk b d j).toNat))) = true ∧ f.t.scope = 0 then 1
      else f.t.scope.toNat
    let reserved : Core := { k.setLoadQ q (k.loadQ q ++ [⟨k.nextTag, none⟩]) with nextTag := k.nextTag + 1 }
    let both : Prop := Usable s [f.y, f.z.extractLsb' 5 5]
    let fails (i : Instr) (b d : Word) : Prop :=
      ∀ j, j < 8 → (∀ n, n < j → good b d n) → ¬ good b d j → exec i s = .next (s.takeTrap 7 (chunk b d j))
    let loads (i : Instr) (code : Nat) (b d : Word) : Prop :=
      fails i b d ∧
      ((∀ j, j < 8 → good b d j) → StreamRoom s f → (k.loadQ q).length < 8 → Completes i s (fun t => IssuedIn s t reserved
        { code := code, f := f, y := b, z := d, tag := k.nextTag, scope := scope b d })) ∧
      ((∀ j, j < 8 → good b d j) → (¬ StreamRoom s f ∨ 8 ≤ (k.loadQ q).length) → exec i s = .next s)
    let stores (i : Instr) (code : Nat) (b d : Word) : Prop :=
      fails i b d ∧
      (∀ tag bs r, (∀ j, j < 8 → good b d j) → StreamRoom s f → k.storeQ q = ⟨tag, some bs⟩ :: r →
        Completes i s (fun t => IssuedIn s t (k.setStoreQ q r)
          { code := code, f := f, y := b, z := d, data := bs, scope := scope b d })) ∧
      ((∀ j, j < 8 → good b d j) → (¬ StreamRoom s f ∨ k.storeQ q = [] ∨ ∃ tag r, k.storeQ q = ⟨tag, none⟩ :: r) →
        exec i s = .next s)
    let table := s.G f.y + f.z.signExtend 64 * 16
    let first := ((s.G f.y).toNat + 3 * stride.toNat / 8) % 2 ^ 64
    let bytes := (3 * stride.toNat + 191) / 8 - 3 * stride.toNat / 8 + 1
    (s.ctx = .ld → f.x.toNat ≤ 3 →
      loads (.ldq f) 0x10 sums 32 ∧ (both → loads (.ldqs f) 0x11 (s.G f.y) stride) ∧
      (both → InWindow s first bytes → StreamRoom s f → (k.loadQ q).length < 8 →
        (∀ o ∈ s.cur.ops, o.code = 0x15 → o.st = .done) → Completes (.ldx f) s (fun t => IssuedIn s t reserved
          { code := 0x14, f := f, y := s.G f.y, z := stride, tag := k.nextTag, data := k.table,
            scope := if 0x10000000 ≤ first ∧ f.t.scope = 0 then 1 else f.t.scope.toNat }))) ∧
    (s.ctx = .ld → InWindow s table.toNat 16 → StreamRoom s f → Completes (.ldtab f) s (fun t => Issued s t
      { code := 0x15, f := f, y := table, scope := windowScope table f.t.scope })) ∧
    (s.ctx = .st → f.x.toNat ≤ 1 → stores (.stq f) 0x12 sums 32 ∧ (both → stores (.stqs f) 0x13 (s.G f.y) stride)) ∧
    (s.ctx = .ld → 4 ≤ f.x.toNat →
      exec (.ldq f) s = .next (s.takeTrap 2 0) ∧ exec (.ldqs f) s = .next (s.takeTrap 2 0) ∧
      exec (.ldx f) s = .next (s.takeTrap 2 0)) ∧
    (s.ctx = .st → 2 ≤ f.x.toNat →
      exec (.stq f) s = .next (s.takeTrap 2 0) ∧ exec (.stqs f) s = .next (s.takeTrap 2 0))

/-- R31, R34, R40, R121, R249: a scalar scratchpad access computes its address, and issues where its bytes lie in one window and its
stream has room: the operation carries the address, a store's value or a load's destination, and the scope; nothing else changes. It
waits while its stream is full, and traps with cause 0x07 and the address where its bytes lie in no window. R29, R248, R252: a
matrix load or store whose group is aligned and allocated issues where its stream has room, with the record's address and the
displacement as they are at issue; it holds the issue of its context, which stays at it until its check step. -/
def Obligations.ScratchpadIssues : Prop :=
  (∀ (f : LF) (s : State), Usable s [f.x, f.y] →
    let addr (size : Nat) : Word := s.G f.y + f.z.signExtend 64 * BitVec.ofNat 64 size
    let scope (size : Nat) : Nat := windowScope (addr size) f.t.scope
    let acts (i : Instr) (size : Nat) (o : Op) : Prop :=
      (InWindow s (addr size).toNat size → StreamRoom s f → Completes i s (fun t => Issued s t o)) ∧
      (InWindow s (addr size).toNat size → ¬ StreamRoom s f → exec i s = .next s) ∧
      (¬ InWindow s (addr size).toNat size → exec i s = .next (s.takeTrap 7 (addr size)))
    let loads (i : Instr) (code size : Nat) : Prop :=
      acts i size { code := code, f := f, y := addr size, dst := some f.x.toNat, scope := scope size }
    let stores (i : Instr) (code size : Nat) : Prop :=
      acts i size { code := code, f := f, x := s.G f.x, y := addr size, scope := scope size }
    (s.ctx = .ld →
      loads (.ldB f) 0x00 1 ∧ loads (.ldH f) 0x01 2 ∧ loads (.ldW f) 0x02 4 ∧ loads (.ldD f) 0x03 8 ∧
      loads (.ldsB f) 0x04 1 ∧ loads (.ldsH f) 0x05 2 ∧ loads (.ldsW f) 0x06 4) ∧
    (s.ctx = .st →
      stores (.stB f) 0x08 1 ∧ stores (.stH f) 0x09 2 ∧ stores (.stW f) 0x0A 4 ∧ stores (.stD f) 0x0B 8)) ∧
  (∀ (f : LF) (s : State), Usable s [f.y, f.z.extractLsb' 4 5] → StreamRoom s f → PastBody s s.pc →
    let d := (f.x.extractLsb' 1 4).toNat
    let g := 2 ^ (f.z.extractLsb' 2 2).toNat
    let o (code : Nat) : Op :=
      { code := code, f := f, x := s.G (f.z.extractLsb' 4 5), y := s.G f.y, scope := f.t.scope.toNat }
    let fits : Prop := d % g = 0 ∧ d + g ≤ 16 ∧ d + g ≤ (s.teamOf s.core).malloc
    (s.ctx = .ld → fits → Completes (.ldm f) s (fun t => IssuedHolding s t (o 0x16))) ∧
    (s.ctx = .st → fits → Completes (.stm f) s (fun t => IssuedHolding s t (o 0x17))) ∧
    (s.ctx = .ld → Completes (.ldb f) s (fun t => IssuedHolding s t (o 0x18))) ∧
    (s.ctx = .ld → d % g ≠ 0 → exec (.ldm f) s = .next (s.takeTrap 3 (BitVec.ofNat 64 d))) ∧
    (s.ctx = .st → d % g ≠ 0 → exec (.stm f) s = .next (s.takeTrap 3 (BitVec.ofNat 64 d))))

/-- R121, R161, R267, R305, R306: the token instructions issue on every context, `KTAKE` and `KTAKET` on the compute sequencer
holding its issue until they perform; `ABARM` and `ABWAIT` issue on the control contexts; a queue above 7, a count of 0, a barrier
above 3 and a target of 0 or above 65,535 trap as illegal operand with the field's number. -/
def Obligations.TokenAndBarrierIssues : Prop :=
  ∀ (f : LF) (s : State),
    let n := f.z.extractLsb' 0 6
    let regs : Prop := Usable s [f.x, f.y]
    let o (code : Nat) (dst : Option Nat) (y : Word) : Op :=
      { code := code, f := f, y := y, dst := dst, scope := f.t.scope.toNat }
    let takes (i : Instr) (o : Op) : Prop :=
      (s.ctx ≠ .cmp → Completes i s (fun t => Issued s t o)) ∧
      (s.ctx = .cmp → Completes i s (fun t => Ran s t s.curCore { joined s o with hold := some s.cur.nextOp } 3))
    (StreamRoom s f →
      (f.x.toNat ≤ 7 → n ≠ 0 → Completes (.ksig f) s (fun t => Issued s t (o 0x28 none 0)) ∧ takes (.ktake f) (o 0x29 none 0)) ∧
      (regs → f.z.extractLsb' 1 6 ≠ 0 → takes (.ktaket f) (o 0x2A (some f.x.toNat) (s.G f.y))) ∧
      (OnCtl s →
        (Usable s [f.y] → f.x.toNat ≤ 3 → 1 ≤ (s.G f.y).toNat → (s.G f.y).toNat ≤ 65535 →
          Completes (.abarm f) s (fun t => Issued s t (o 0x50 none (s.G f.y)))) ∧
        (regs → Completes (.abwait f) s (fun t => Issued s t (o 0x51 (some f.x.toNat) (s.G f.y)))))) ∧
    (¬ StreamRoom s f → f.x.toNat ≤ 7 → n ≠ 0 → exec (.ksig f) s = .next s ∧ exec (.ktake f) s = .next s) ∧
    (8 ≤ f.x.toNat → exec (.ksig f) s = .next (s.takeTrap 2 0) ∧ exec (.ktake f) s = .next (s.takeTrap 2 0)) ∧
    (f.x.toNat ≤ 7 → n = 0 → exec (.ksig f) s = .next (s.takeTrap 2 2) ∧ exec (.ktake f) s = .next (s.takeTrap 2 2)) ∧
    (OnCtl s →
      (4 ≤ f.x.toNat → exec (.abarm f) s = .next (s.takeTrap 2 0)) ∧
      (Usable s [f.y] → f.x.toNat ≤ 3 → (s.G f.y = 0 ∨ 65535 < (s.G f.y).toNat) → exec (.abarm f) s = .next (s.takeTrap 2 1)))

/-- R301 to R303: an atomic on scratchpad issues where its bytes lie in one window and its address is a multiple of its size; otherwise it
traps: cause 0x07 outside a window, 0x08 for an alignment. An atomic on plane data issues and holds the issue of its context, until its
check step finds that the plane has elements of 8 to 64 bits and that its byte is a multiple of its size, where it lets the context go
on, or traps with cause 0x08. R128, R302, R304: an atomic that may perform reads the old value in its issuer's instance of its scope, as
a little-endian number, writes what its entry computes there in the same step, and gives the old value to its register; a failed `ACAS`
and `ALD` write nothing. -/
def Obligations.AtomicIssues : Prop :=
  (∀ (f : LF) (s : State), s.ctx ≠ .cmp → Usable s [f.x, f.y, f.z.extractLsb' 3 5] →
    let a := s.G f.y
    let size : Nat := if f.z.getLsbD 8 then 8 else 4
    let sp := f.z.getLsbD 9
    let o (code : Nat) (dst : Option Nat) (scope : Nat) : Op :=
      { code := code, f := f, x := s.G f.x, y := a, z := s.G (f.z.extractLsb' 3 5), dst := dst, scope := scope }
    let acts (i : Instr) (code : Nat) (dst : Option Nat) : Prop :=
      (sp = true → InWindow s a.toNat size → a.toNat % size = 0 → StreamRoom s f →
        Completes i s (fun t => Issued s t (o code dst (windowScope a f.t.scope)))) ∧
      (sp = false → StreamRoom s f → PastBody s s.pc → Completes i s (fun t => IssuedHolding s t (o code dst f.t.scope.toNat))) ∧
      (sp = false → ¬ StreamRoom s f → exec i s = .next s) ∧
      (sp = true → ¬ InWindow s a.toNat size → exec i s = .next (s.takeTrap 7 a)) ∧
      (sp = true → InWindow s a.toNat size → a.toNat % size ≠ 0 → exec i s = .next (s.takeTrap 8 a))
    let reg := some f.x.toNat
    acts (.aadd f) 0x40 reg ∧ acts (.afadd f) 0x41 reg ∧ acts (.amin f) 0x42 reg ∧ acts (.amax f) 0x43 reg ∧
    acts (.aand f) 0x44 reg ∧ acts (.aor f) 0x45 reg ∧ acts (.axor f) 0x46 reg ∧ acts (.axchg f) 0x47 reg ∧
    acts (.acas f) 0x48 reg ∧ acts (.ald f) 0x49 reg ∧ acts (.ast f) 0x4A none) ∧
  (∀ (c loc : Nat) (x : CtxId) (o : Op) (ch : Choice) (s : State), LogOk s → MayPerform s c x o → 0x40 ≤ o.code → o.code ≤ 0x4A →
    o.away = [] → ch.way = none →
    let v := (s.teamOf c).vf
    let size : Nat := if o.f.z.getLsbD 8 then 8 else 4
    let sp := o.f.z.getLsbD 9
    let need : Need := ⟨o.code ≠ 0x4A, o.code ≠ 0x49⟩
    let d := s.planeDesc v o.y
    let pos := (o.y.extractLsb' 0 48).toNat
    let fits : Prop := d.gran = false ∧ (d.width = 3 ∨ d.width = 4 ∨ d.width = 5 ∨ d.width = 6) ∧ pos * 2 ^ d.width / 8 % size = 0
    let lies : Prop := s.checkPlane v o.y = none ∧ fits ∧ pos + (8 * size / 2 ^ d.width - 1) < s.descLimit v o.y ∧
      LiesAt s v o.y need size loc
    let does := exec (.operationPerform c x o.id ch) s
    let m := 2 ^ (8 * size)
    let num (n : Nat) : Int := if o.f.z.getLsbD 2 = false ∧ m / 2 ≤ n then (n : Int) - m else n
    let old := leNat ((List.range size).map (fun i => (s.imageIn c o.scope (loc + i)).2))
    let a := o.z.toNat % m
    let e := o.x.toNat % m
    let fp (n : Nat) : FVal := (fpFmt 0).decode n
    let gives (code : Nat) (new : Option Nat) : Prop := o.code = code →
      ((sp = true → s.scratch c o.y.toNat size = some loc → ∃ t, does = .next t ∧ OnlyCoreOf s t c ∧
        PerformedOp s t c x o (o.dst.map (fun r => (r, BitVec.ofNat 64 old))) ∧
        match new with
        | some n => Stored s t c o.scope ((List.range size).map (fun i => (loc + i, BitVec.ofNat 8 (n / 256 ^ i))))
        | none => SameMemory s t) ∧
      (sp = false → o.st = .started → lies → ∃ t, does = .next t ∧
        OnlyCoreOf { s with counters := t.counters, nodes := t.nodes, domains := t.domains } t c ∧
        PerformedOp s t c x o (o.dst.map (fun r => (r, BitVec.ofNat 64 old))) ∧
        match new with
        | some n => Stored s t c o.scope ((List.range size).map (fun i => (loc + i, BitVec.ofNat 8 (n / 256 ^ i))))
        | none => SameMemory s t))
    (sp = false → o.st = .issued → x ≠ .cmp →
      (s.checkPlane v o.y = none → ¬ fits → does = .next (CheckTraps s c x o 8 o.y)) ∧
      (lies → ∃ t, does = .next t ∧ OnlyCoreOf s t c ∧ SameMemory s t ∧ CheckedPast s t c x ∧
        ∃ p, t.opAt c x o.id = some p ∧ p.st = .started)) ∧
    gives 0x40 (some ((old + a) % m)) ∧
    (size = 4 → gives 0x41 (some ((fpFmt 0).round .rne false ((fp old).add (fp a))).bits)) ∧
    gives 0x42 (some (if num a < num old then a else old)) ∧
    gives 0x43 (some (if num old < num a then a else old)) ∧
    gives 0x44 (some (old &&& a)) ∧ gives 0x45 (some (old ||| a)) ∧ gives 0x46 (some (old ^^^ a)) ∧
    gives 0x47 (some a) ∧ gives 0x48 (if old = e then some a else none) ∧ gives 0x49 none ∧ gives 0x4A (some e))

/-- R307 to R316: the event, work, barrier and message instructions issue on the control contexts where their stream has room and their
operands are what their entries ask for, an event instruction at device scope at least, `STEAL`, `TSTATE` and a remote `EVSIG` at system
scope; an operand that breaks its entry's rule traps with its field's number. R119, R147, R148, R150, R307 to R316: what each of them does
when it performs, where what it names lies on this device: `EVSIG` signals, `EVWAIT` gives its event's outcome or joins its waiters,
`EVRESET` starts the event anew, `LAUNCH` gives the header it reads to its task's queue, `STEAL` swaps the state word where it may and
queues the task, `TSTATE`, `BLOG` and `BWAIT` read, `BJOIN` counts a join or is held, from the object as the join before has left it
whatever their scopes (R312), and `MSEND` raises its cause, which enters at once where the bivouac context is idle, and is discarded where
no task runs the record. R151: the last join of an episode enters each member's lag in its ring, and sets or clears its straggler mark. -/
def Obligations.SynchronisationIssues : Prop :=
  (∀ (f : LF) (s : State), OnCtl s → StreamRoom s f → Usable s [f.x, f.y, f.z.extractLsb' 5 5] →
    let x := s.G f.x
    let y := s.G f.y
    let z := s.G (f.z.extractLsb' 5 5)
    let v := (s.teamOf s.core).vf
    let wide := max 2 f.t.scope.toNat
    let own := f.t.scope.toNat
    let dst := some f.x.toNat
    let aligned (w : Word) : Prop := s.checkPlane v w = none → (s.planeDesc v w).byteOf (w.extractLsb' 0 48).toNat % 8 = 0
    let named := y.extractLsb' 0 16 ≠ 0
    let away := f.z.getLsbD 1
    let issues (i : Instr) (o : Op) : Prop := Completes i s (fun t => Issued s t o)
    let traps (i : Instr) (n : Word) : Prop := exec i s = .next (s.takeTrap 2 n)
    (named → away = false → issues (.evsig f) { code := 0x52, f := f, y := y, scope := wide }) ∧
    (named → away = true → x.toNat < 2048 → issues (.evsig f) { code := 0x52, f := f, x := x, y := y, scope := 3 }) ∧
    (named → issues (.evwait f) { code := 0x53, f := f, y := y, dst := dst, scope := wide }) ∧
    (named → x ≠ 0 → x.toNat ≤ 65535 → issues (.evreset f) { code := 0x54, f := f, x := x, y := y, scope := wide }) ∧
    issues (.launch f) { code := 0x55, f := f, y := y, scope := wide } ∧
    (aligned y → aligned z → issues (.steal f) { code := 0x56, f := f, x := x, y := y, z := z, dst := dst, scope := 3 }) ∧
    (aligned y → issues (.tstate f) { code := 0x57, f := f, y := y, dst := dst, scope := 3 }) ∧
    issues (.bjoin f) { code := 0x58, f := f, y := y, z := z, dst := dst, scope := own } ∧
    issues (.bwait f) { code := 0x59, f := f, x := x, y := y, scope := own } ∧
    ((f.z.extractLsb' 0 5).toNat < 20 → z.toNat < 64 →
      issues (.blog f) { code := 0x5A, f := f, y := y, z := z, dst := dst, scope := own }) ∧
    (z.toNat < 2 ^ 35 → aligned y → issues (.msend f) { code := 0x5B, f := f, x := x, y := y, z := z, scope := wide }) ∧
    (¬ named → traps (.evwait f) 1 ∧ (away = false → traps (.evsig f) 1)) ∧
    (away = true → 2048 ≤ x.toNat → traps (.evsig f) 0) ∧
    (x = 0 ∨ 65535 < x.toNat → traps (.evreset f) 0) ∧
    (20 ≤ (f.z.extractLsb' 0 5).toNat ∨ 64 ≤ z.toNat → traps (.blog f) 2) ∧
    (2 ^ 35 ≤ z.toNat → traps (.msend f) 2) ∧
    (¬ aligned y → exec (.steal f) s = .next (s.takeTrap 8 y) ∧ exec (.tstate f) s = .next (s.takeTrap 8 y) ∧
      (z.toNat < 2 ^ 35 → exec (.msend f) s = .next (s.takeTrap 8 y))) ∧
    (aligned y → ¬ aligned z → exec (.steal f) s = .next (s.takeTrap 8 z))) ∧
  (∀ (c loc : Nat) (x : CtxId) (o : Op) (ch : Choice) (s : State), LogOk s → MayPerform s c x o → o.away = [] → o.lines = [] →
    let tm := s.teamOf c
    let v := tm.vf
    let this := s.module.devId
    let s1 := s.setOp c x o
    let name := (o.y.extractLsb' 0 16).toNat
    let e := s.event v name
    let me : Waiter := .op c x o.id
    let took (scope n : Nat) : List (Nat × Byte) := s.readLocs c x scope ch.cuts (span loc n)
    let noted (scope n : Nat) : State := s1.noteRead c x (span loc n) (took scope n)
    let performs (u : State) (d : Option (Nat × Word)) : Prop :=
      ∃ t, exec (.operationPerform c x o.id ch) s = .next t ∧ PerformedAs u t c x o d
    let waits (u : State) : Prop := exec (.operationPerform c x o.id ch) s = .next u
    (o.code = 0x52 → o.dst = none → o.f.z.getLsbD 1 = false → performs (s1.signals [⟨v, name, o.f.z.getLsbD 0⟩]) none) ∧
    (∀ d, o.code = 0x53 → o.dst = some d →
      (∀ w, o.woken = some w → performs s1 (some (d, w))) ∧
      (o.woken = none → e.failed = true → performs s1 (some (d, 1))) ∧
      (o.woken = none → e.failed = false → e.target ≤ e.count → performs s1 (some (d, 0))) ∧
      (o.woken = none → e.failed = false → e.count < e.target → me ∉ e.slots → me ∉ e.chain →
        (e.slots.length < 4 → waits (s1.setEvent v name { e with slots := e.slots ++ [me] })) ∧
        (4 ≤ e.slots.length → 0 < (s.tenant v).chainRoom → waits ((s1.setEvent v name { e with chain := e.chain ++ [me] }).setTenant v
          { s.tenant v with chainRoom := (s.tenant v).chainRoom - 1 })) ∧
        (4 ≤ e.slots.length → (s.tenant v).chainRoom = 0 → waits s1))) ∧
    (o.code = 0x54 → o.dst = none →
      performs (s1.setEvent v name { e with target := o.x.toNat, count := 0, failed := false }) none) ∧
    (o.code = 0x55 → o.dst = none → LiesAt s v o.y .read 64 loc →
      let w := s.queue tm.queue
      let u := (noted o.scope 64).setQueue tm.queue { w with
        unread := w.unread ++ [{ va := o.y, bytes := some ((took o.scope 64).map (·.2)) }],
        st := if w.st = .empty then .pending else w.st, turn := if w.st = .empty then s.nextTurn else w.turn }
      performs (if w.st = .empty then { u with nextTurn := s.nextTurn + 1 } else u) none) ∧
    (∀ d, o.code = 0x57 → o.dst = some d →
      (o.f.z.getLsbD 0 = false → LiesAt s v o.y .read 8 loc →
        performs (noted 3 8) (some (d, BitVec.ofNat 64 (leNat ((took 3 8).map (·.2)))))) ∧
      (o.f.z.getLsbD 0 = true → LiesAt s v (s.recAt v o.y 72) .read 4 loc →
        performs (noted 3 4) (some (d, BitVec.ofNat 64 (leNat ((took 3 4).map (·.2))))))) ∧
    (∀ d object, o.code = 0x56 → o.dst = some d → LiesAt s v o.y .both 128 loc → LiesAt s v o.z .read 2624 object →
      let w := s.imageNat loc 8
      let b := s.imageBytes object 2624
      let joined (m : Nat) : Prop := bitAt (memberStatus b m) 4 = true ∨ field (memberStatus b m) 0 4 ≠ 0
      let member (strag : Bool) (dev : Nat) : Prop := ∃ m, m < leAt b 0 1 ∧ joined m ∧ bitAt (memberStatus b m) 10 = strag ∧
        field (memberStatus b m) 16 11 = dev
      let may : Prop := w % 16 = 1 ∧ bitAt w 15 = true ∧ field w 16 16 = o.x.toNat % 2 ^ 16 ∧ field w 43 21 = 0 ∧
        member true (field w 4 11) ∧ member false this
      let w' := w / 2 ^ 43 * 2 ^ 43 + this % 2048 * 2 ^ 32 + (field w 16 16 + 1) % 65536 * 65536 + field w 4 12 * 16 + 4
      field w 4 11 = this → barrierMalformed b = false →
      (¬ may → performs s1 (some (d, BitVec.ofNat 64 (w % 2 ^ 63 + 2 ^ 63)))) ∧
      (may → (∀ k ∈ s.tasks, ∀ l, s.launch k.launch = some l → s.findAt l.vf k.addr .read 1 ≠ .bytes [.at loc]) →
        ∃ t u, exec (.operationPerform c x o.id ch) s = .next t ∧ PerformedAs u t c x o (some (d, BitVec.ofNat 64 (w % 2 ^ 63))) ∧
          u = (s1.writeDevice (cellsFrom loc (leBytes 8 w'))).takeStolen tm.queue o.y this
            (leBytes 8 w' ++ s.imageBytes (loc + 8) 120) (List.replicate 8 0) ∧
          ∃ i, (u.queue tm.queue).unread = (s.queue tm.queue).unread ++ [i] ∧ i.va = o.y ∧ i.stolen.isSome)) ∧
    (∀ dev, o.code = 0x5B → o.dst = none → LiesAt s v o.y .read 8 loc →
      let w := leNat ((took o.scope 8).map (·.2))
      dev = (if w % 16 = 2 then field w 4 11 else field w 32 11) →
      (w % 16 ≠ 2 → w % 16 ≠ 4 → performs (noted o.scope 8) none) ∧
      (w % 16 = 2 ∨ w % 16 = 4 → dev = this →
        (s.teamRunning v o.y (some (this, loc)) = none → performs (noted o.scope 8) none) ∧
        ∀ team r, s.teamRunning v o.y (some (this, loc)) = some team → team.cores[field o.z.toNat 32 3]? = some r →
        let k := s.coreAt r
        let room : Prop := (k.pend.filter (fun q => 9 < q.cause)).length < 5 ∧ k.pend.length < 8
        let handler : Word := BitVec.ofNat 64 (o.z.toNat % 2 ^ 32)
        let queued : State := (noted o.scope 8).setCore r { (noted o.scope 8).coreAt r with
            pend := k.pend ++ [{ cause := 0x11, info := o.x, handler := some handler }] }
        (k.biv.run = .running → room → performs queued none) ∧
        (k.biv.run ≠ .running → room → performs (queued.enter r) none ∧
          (k.pend = [] → k.msgHold = false → k.ctl.run ≠ .trapped →
            let e := (queued.enter r).coreAt r
            e.pend = [] ∧ e.biv.run = .running ∧ e.biv.pc = handler ∧ e.frame.cause = 0x11 ∧ e.frame.info = o.x ∧
              e.frame.pc = k.ctl.pc)) ∧
        (¬ room → waits (noted o.scope 8)))) ∧
    -- the barriers
    (∀ (d : Option Nat), o.dst = d → 0x58 ≤ o.code → o.code ≤ 0x5A →
      (s.planeDesc v o.y).byteOf (o.y.extractLsb' 0 48).toNat % 64 = 0 →
      LiesAt s v o.y (if o.code = 0x58 then .both else .read) 2624 loc →
      let own := o.f.t.scope.toNat
      let wide := max own (s.imageIn c own (loc + 3)).2.toNat
      let o' := { o with scope := wide }
      let s2 := s.setOp c x o'
      let r := (span loc 2624).map (fun a => if o.code = 0x58 then s.newestAt a else s.imageIn c wide a)
      let b : List Byte := r.map (·.2)
      let u := s2.noteRead c x (span loc 2624) r
      let m := o.z.toNat
      let ep := leAt b 8 4
      let past := (ep + 2 ^ 32 - o.x.toNat % 2 ^ 32) % 2 ^ 32
      let n := (o.f.z.extractLsb' 0 5).toNat
      let blog : Nat := if n < 16 then leAt b (64 + 40 * m + 2 * n) 2 else if n = 16 then leAt b (96 + 40 * m) 8
        else if n = 17 then leAt b 16 8 else if n = 18 then ep else leAt b 12 1
      (∀ p ∈ (s.ctxAt c x).ops, p.id < o.id →
        (o.f.t.mask.getLsbD p.f.t.stream.toNat = true ∨ o.f.t.rel = true ∨ p.f.t.acq = true) → s.performedAt c p wide = true) →
      (o.code = 0x59 → d = none → (1 ≤ past ∧ past < 2 ^ 31 → performs u none) ∧
        (¬ (1 ≤ past ∧ past < 2 ^ 31) → ∃ t p, exec (.operationPerform c x o.id ch) s = .next t ∧ OnlyCoreOf s t c ∧ SameMemory s t ∧
          t.opAt c x o.id = some p ∧ p.st = o.st)) ∧
      (∀ g, o.code = 0x5A → d = some g → performs u (some (g, BitVec.ofNat 64 blog))) ∧
      (∀ g, o.code = 0x58 → d = some g → (∀ h ∈ s.joins, h.who ≠ .op c x o.id) →
        (barrierMalformed b = true ∨ leAt b 0 1 ≤ m → waits (s2.copyFault c x o.id ⟨0x0D, 3, o.y, [], s.entryAtVa v o.y⟩)) ∧
        (barrierMalformed b = false → m < leAt b 0 1 → bitAt (leAt b 32 8) m = true →
          waits { u with joins := s.joins ++ [⟨.op c x o.id, loc, m⟩] }) ∧
        (barrierMalformed b = false → m < leAt b 0 1 → bitAt (leAt b 32 8) m = false → leAt b 12 1 + 1 < leAt b 0 1 →
          ∃ (t w : State) (nb : List Byte), exec (.operationPerform c x o.id ch) s = .next t ∧
            PerformedAs w t c x o (some (g, BitVec.ofNat 64 ep)) ∧ nb.length = 2624 ∧
            w = ({ u with tjoin := s.tjoin.set (loc + m) s.time } : State).writeCells c x wide
              (changedCells ((span loc 2624).map .at) b nb) ∧
            leAt nb 12 1 = leAt b 12 1 + 1 ∧ leAt nb 32 8 = leAt b 32 8 + 2 ^ m ∧ leAt nb 8 4 = ep ∧
            field (leAt nb (96 + 40 * m) 8) 16 11 = this % 2048 ∧
            (leAt b 12 1 = 0 → leAt nb 24 8 = s.time % 2 ^ 64) ∧
            ∀ i, (i ≠ 12 ∧ (i < 24 ∨ 40 ≤ i) ∧ (i < 96 + 40 * m ∨ 104 + 40 * m ≤ i)) → nb.getD i 0 = b.getD i 0) ∧
        (barrierMalformed b = false → m < leAt b 0 1 → bitAt (leAt b 32 8) m = false → leAt b 12 1 + 1 = leAt b 0 1 → s.joins = [] →
          ∃ (t w : State) (nb : List Byte), exec (.operationPerform c x o.id ch) s = .next t ∧
            PerformedAs w t c x o (some (g, BitVec.ofNat 64 ep)) ∧ nb.length = 2624 ∧
            w = ({ u with tjoin := s.tjoin.set (loc + m) s.time } : State).writeCells c x wide
              (changedCells ((span loc 2624).map .at) b nb) ∧
            leAt nb 8 4 = (ep + 1) % 2 ^ 32 ∧ leAt nb 12 1 = 0 ∧ leAt nb 32 8 = 0 ∧ leAt nb 16 8 = stragMask nb ∧
            (∀ i, i < leAt b 0 1 →
              let old := memberStatus b i
              let width := leAt b 1 1
              let next := field old 0 4
              let first := if leAt b 12 1 = 0 then s.time % 2 ^ 64 else leAt b 24 8
              let lag := min 65535 (((if i = m then s.time else s.tjoin.get 0 (loc + i)) - first) / 1000)
              let ring (j : Nat) : Nat := if j = next then lag else leAt b (64 + 40 * i + 2 * j) 2
              let full : Bool := bitAt old 4 || next + 1 == width
              let next' := (next + 1) % width
              let late : Prop := leAt b 4 2 < lag
              let lates := ((List.range (if full then width else next')).filter (fun j => decide (leAt b 4 2 < ring j))).length
              let streak := field old 5 5
              let word (strag : Bool) (streak : Nat) : Nat :=
                (if i = m then this % 2048 else field old 16 11) * 2 ^ 16 + strag.toNat * 2 ^ 10 + streak * 2 ^ 5 + full.toNat * 2 ^ 4 + next'
              let now := memberStatus nb i
              (∀ j, j < 16 → leAt nb (64 + 40 * i + 2 * j) 2 = ring j) ∧
              (bitAt old 10 = false → late → leAt b 2 1 ≤ lates → now = word true 0) ∧
              (bitAt old 10 = false → (¬ late ∨ lates < leAt b 2 1) → now = word false streak) ∧
              (bitAt old 10 = true → late → now = word true 0) ∧
              (bitAt old 10 = true → ¬ late → streak + 1 = leAt b 2 1 → now = word false 0) ∧
              (bitAt old 10 = true → ¬ late → streak + 1 ≠ leAt b 2 1 → now = word true (streak + 1))) ∧
            ∀ i, (i < 8 ∨ (13 ≤ i ∧ i < 16) ∨ (40 ≤ i ∧ i < 64) ∨ 64 + 40 * leAt b 0 1 ≤ i) → nb.getD i 0 = b.getD i 0))))

/-- R61, R131, R167, R257, R260 to R265, R317: an engine command and a plane instruction issue where their stream has room and their
operands are legal; `PREF` only goes on, counting a hint that is dropped, that it leaves nothing else being the model's reading (log
47); `PROBE` of a resident block pins its slot, makes it the most recent and gives its number; a signal code that names nothing traps as
illegal operand, field 0. R263, R265, R266: a `PRELS` that performs unpins its slot below P; a plane instruction performs once no access
to the plane is under way: `PLPROT` sets R and W of the descriptor; `PLNEW` writes width, granularity, R, W and PLACE, `PLDROP` clears R
and W, and both make the plane's entries ABSENT and give their frames back. -/
def Obligations.EngineAndPlaneIssues : Prop :=
  (∀ (f : LF) (s : State), Usable s [f.y] →
    let y := s.G f.y
    let v := (s.teamOf s.core).vf
    let k := s.curCore
    let o (code : Nat) : Op := { code := code, f := f, y := y, scope := f.t.scope.toNat }
    let o' (code : Nat) : Op := { code := code, f := f, x := s.G f.x, y := y, scope := f.t.scope.toNat }
    let named : Prop := f.x.toNat ≤ 11 ∨ f.x.toNat = 31
    let issues (i : Instr) (o : Op) : Prop := Completes i s (fun t => Issued s t o)
    let field (i : Instr) (n : Word) : Prop := exec i s = .next (s.takeTrap 2 n)
    let present : Prop := s.descValid v y = true ∧ s.planeOn v y = true
    let d := s.planeDesc v y
    let line := y + f.z.signExtend 64 * 64
    let limit := k.probeLimit
    (StreamRoom s f → named → s.ctx ≠ .cmp → issues (.xcopy f) (o 0x20)) ∧
    (StreamRoom s f → named → OnCtl s →
      issues (.xgath f) (o 0x60) ∧ issues (.xscat f) (o 0x61) ∧ issues (.xnzs f) (o 0x62) ∧ issues (.xhot f) (o 0x63) ∧
      (y.toNat ≤ 256 → issues (.pconv f) (o 0x24))) ∧
    (StreamRoom s f → OnCtl s →
      (Usable s [f.x] → (s.G f.x).toNat < 256 → issues (.prels f) { code := 0x23, f := f, x := s.G f.x, scope := f.t.scope.toNat }) ∧
      (Usable s [f.x] → present → (s.G f.x).toNat < 2 ^ 11 → (s.G f.x).extractLsb' 7 2 = 0 → ((s.G f.x).extractLsb' 0 4).toNat ≤ 9 →
        ((s.G f.x).getLsbD 4 = true → ((s.G f.x).extractLsb' 0 4).toNat < 7) →
        ((s.G f.x).getLsbD 5 = true → d.rmax = true) → ((s.G f.x).getLsbD 6 = true → d.wmax = true) →
        issues (.plnew f) (o' 0x25)) ∧
      (present → (f.x.getLsbD 1 = true → d.rmax = true) → (f.x.getLsbD 0 = true → d.wmax = true) →
        issues (.plprot f) (o 0x26)) ∧
      (present → issues (.pldrop f) (o 0x27))) ∧
    (s.ctx ≠ .cmp →
      ((∀ c e, s.place v line .read ≠ .fault c e) → Completes (.pref f) s (fun t => Passed s t 3)) ∧
      ((∃ c e, s.place v line .read = .fault c e) → s.cur.hintDrop ≠ BitVec.allOnes 64 →
        Completes (.pref f) s (fun t => Ran s t k { s.cur with hintDrop := s.cur.hintDrop + 1 } 3)) ∧
      (∀ n, Usable s [f.x] → n < limit → (k.slotAt n).valid = true → (k.slotAt n).fill = false → (k.slotAt n).tag = probeTag s y →
        (∀ j, j < n → ¬ ((k.slotAt j).valid = true ∧ (k.slotAt j).tag = probeTag s y)) →
        Completes (.probe f) s (fun t => WroteRegIn s t
          { k.setSlot n { k.slotAt n with pin := true } with recent := k.recent.erase n ++ [n] } f.x (BitVec.ofNat 64 n) 3))) ∧
    (OnCtl s → ¬ named → field (.xcopy f) 0 ∧ field (.xgath f) 0 ∧ field (.xscat f) 0 ∧ field (.xnzs f) 0 ∧ field (.xhot f) 0 ∧
      field (.pconv f) 0) ∧
    (OnCtl s → ¬ present → (Usable s [f.x] → field (.plnew f) 1) ∧ field (.plprot f) 1 ∧ field (.pldrop f) 1)) ∧
  (∀ (c : Nat) (x : CtxId) (o : Op) (ch : Choice) (s : State), LogOk s → MayPerform s c x o → o.dst = none →
    let k := s.coreAt c
    let v := (s.teamOf c).vf
    let s1 := s.setOp c x o
    let slot := o.x.toNat
    let va := o.y
    let plane := (va.extractLsb' 60 4).toNat
    let a := s.descAddr v va + 32 + 8 * plane
    let d := s.imageNat a 8
    let n := o.x.toNat
    let performs (u : State) : Prop := ∃ t, exec (.operationPerform c x o.id ch) s = .next t ∧ PerformedAs u t c x o none
    let written (w : Nat) : State := s1.writeDevice (cellsFrom a (leBytes 8 w))
    let unparked (u : State) : State := { u with parks := s.parks.filter (fun p => !(p.vf == v && samePlane p.va va)) }
    let clears (w : Nat) (entry : Nat → Nat) : Prop :=
      let u := written w
      let at_ (p : Nat) : Nat := p + 8 * plane
      let returned (r : FrameRec) : Prop := ∃ p ∈ u.pfrs v va, let e := u.imageNat (at_ p) 8
        (peState e = 1 ∨ peState e = 2 ∨ peState e = 5) ∧ peSk e = false ∧ r.vf = v ∧ r.table = false ∧ r.addr = field e 0 48 * 64
      ∃ z : State, performs z ∧
        z = { unparked u with mem := z.mem, log := z.log, nextSeq := z.nextSeq, counters := z.counters, nodes := z.nodes,
                              domains := z.domains, frames := z.frames } ∧
        (∀ p ∈ u.pfrs v va, z.imageNat (at_ p) 8 = entry (u.imageNat (at_ p) 8) % 2 ^ 64) ∧
        (∀ b, (∀ p ∈ u.pfrs v va, b < at_ p ∨ at_ p + 8 ≤ b) → z.image b = u.image b) ∧
        ∀ r, r ∈ z.frames ↔ r ∈ s.frames ∧ ¬ returned r
    (o.code = 0x23 → slot < k.probeP → (k.slotAt slot).pin = true →
      performs (s1.setCore c ((s1.coreAt c).setSlot slot { k.slotAt slot with pin := false }))) ∧
    (o.code = 0x23 → (k.probeP ≤ slot ∨ (k.slotAt slot).pin = false) → performs s1) ∧
    (o.code = 0x25 ∨ o.code = 0x26 ∨ o.code = 0x27 → s1.quietPlane v va = false → exec (.operationPerform c x o.id ch) s = .next s1) ∧
    (s1.quietPlane v va = true → s.moves = [] →
      let r : Nat := if o.f.x.getLsbD 1 then 2 ^ 5 else 0
      let w : Nat := if o.f.x.getLsbD 0 then 2 ^ 6 else 0
      (o.code = 0x26 → performs (unparked (written (d / 2 ^ 7 * 2 ^ 7 + w + r + d % 2 ^ 5)))) ∧
      (o.code = 0x25 → clears (d / 2 ^ 12 * 2 ^ 12 + n / 2 ^ 9 % 4 * 2 ^ 9 + d / 2 ^ 7 % 4 * 2 ^ 7 + n % 2 ^ 7)
        (fun _ => 2 ^ 60)) ∧
      (o.code = 0x27 → clears (d / 2 ^ 7 * 2 ^ 7 + d % 2 ^ 5)
        (fun e => (if peSk e then 2 ^ 59 else 0) + e / 2 ^ 53 % 64 * 2 ^ 53))))

/-! ### Performance and propagation (R117 to R124, R129, R161, R249, R267) -/

/-- R122, R129: a read of locations in one aligned 8 bytes, or of up to 8 bytes in one bank row or one line, takes all of them as they
stand at one point of the coherence order: each as the latest write up to that point that is visible to the reader left it, or as memory
stands. The point is no earlier than the image of the read's own scope at any of them, and no earlier than what its context has read or
performed there; and every point that meets these conditions can be taken. What a context has read or performed at a location never
falls. How an access is cut into units is the model's reading (log 10). -/
def Obligations.ReadsTakeAWrite : Prop :=
  ∀ (c scope : Nat) (x : CtxId) (ls : List Nat) (s : State), LogOk s →
    let above (n : Nat) : Prop := ∀ a ∈ ls, (s.imageIn c scope a).1 ≤ n ∧ (s.ctxAt c x).seen.get 0 a ≤ n
    let asOf (n a : Nat) (r : Nat × Byte) : Prop :=
      (r = (0, s.mem.read a) ∧ ∀ e ∈ s.log, e.visible c = true → e.byteAt a ≠ none → n < e.seq) ∨
      ∃ e ∈ s.log, e.seq = r.1 ∧ e.visible c = true ∧ e.byteAt a = some r.2 ∧ e.seq ≤ n ∧
        ∀ p ∈ s.log, p.visible c = true → p.byteAt a ≠ none → p.seq ≤ n → p.seq ≤ e.seq
    (∀ cut, ∃ n rs, s.readUnit c x scope cut ls = rs ∧ rs.length = ls.length ∧ above n ∧ ∀ e ∈ ls.zip rs, asOf n e.1 e.2) ∧
    (∀ n, above n → n < s.nextSeq → ∃ cut rs, s.readUnit c x scope cut ls = rs ∧ rs.length = ls.length ∧
      ∀ e ∈ ls.zip rs, asOf n e.1 e.2) ∧
    (∀ u cuts, ls ≠ [] → (∀ a ∈ ls, a / 8 = u) →
      s.readLocs c x scope cuts ls = s.readUnit c x scope (cuts.headD 0) ls) ∧
    (∀ a n cuts, 1 ≤ n → n ≤ 8 → rowOf a = rowOf (a + n - 1) →
      s.readLocs c x scope cuts (span a n) = s.readUnit c x scope (cuts.headD 0) (span a n)) ∧
    (∀ es a, s.log ≠ [] →
      let floor := ((s.note c x es).ctxAt c x).seen.get 0 a
      (s.ctxAt c x).seen.get 0 a ≤ floor ∧ ∀ n, (a, n) ∈ es → n ≤ floor)

/-- R119, R120, R122, R249: a scalar load that may perform writes its destination: the bytes it takes, little-endian, zero- or
sign-extended to 64 bits; no other register, no other context, no memory and no other core changes. R117 to R120, R129, R249: a
scalar store that may perform writes the low bytes of its value, little-endian, into its issuer's instance of its scope; every other
byte reads as before in every instance, and no register and no other core changes. R250, R251: `LDQ`, `LDQS` and `LDX` fill the entry they
reserved, `STQ` and `STQS` store the entry they took, a higher chunk prevailing, and `LDTAB` writes the expander table. R248, R252, R253:
the check step of `LDM`, `STM` and `LDB` reads the shape record, traps on one that breaks its entry's limits or whose elements leave their
window, and else lets its context go on. R106, R110, R254 to R256: `LDM` then writes its group, zero beyond the shape, `STM` stores its
elements, those of suppressed registers left out, and `LDB` writes its weight slot once nothing in flight reads it. -/
def Obligations.ScalarAccessesPerform : Prop :=
  (∀ (c a d size : Nat) (signed : Bool) (x : CtxId) (o : Op) (ch : Choice) (s : State), MayPerform s c x o →
    ch.part = none → o.got = [] → o.dst = some d → s.scratch c o.y.toNat size = some a →
    (o.code, size, signed) ∈ [(0x00, 1, false), (0x01, 2, false), (0x02, 4, false), (0x03, 8, false),
      (0x04, 1, true), (0x05, 2, true), (0x06, 4, true)] →
    let n := leNat ((s.readLocs c x o.scope ch.cuts (span a size)).map (·.2))
    let v : Word := if signed then (BitVec.ofNat (8 * size) n).signExtend 64 else BitVec.ofNat 64 n
    ∃ t, exec (.operationPerform c x o.id ch) s = .next t ∧ OnlyCoreOf s t c ∧ PerformedOp s t c x o (some (d, v)) ∧ SameMemory s t) ∧
  (∀ (c a size : Nat) (x : CtxId) (o : Op) (ch : Choice) (s : State), LogOk s → MayPerform s c x o →
    ch.part = none → o.left = [] → o.dst = none → s.scratch c o.y.toNat size = some a →
    (o.code, size) ∈ [(0x08, 1), (0x09, 2), (0x0A, 4), (0x0B, 8)] →
    ∃ t, exec (.operationPerform c x o.id ch) s = .next t ∧ OnlyCoreOf s t c ∧ PerformedOp s t c x o none ∧
      Stored s t c o.scope ((List.range size).map (fun i => (a + i, o.x.extractLsb' (8 * i) 8)))) ∧
  (∀ (c : Nat) (x : CtxId) (o : Op) (ch : Choice) (l : Nat → Nat) (s : State), LogOk s → MayPerform s c x o → ch.part = none →
    o.got = [] → o.left = [] → o.dst = none →
    let k := s.coreAt c
    let q := o.f.x.toNat
    let took (ls : List Nat) : List Byte := (s.readLocs c x o.scope ch.cuts ls).map (·.2)
    let gives (k' : Core) : Prop := ∃ t, exec (.operationPerform c x o.id ch) s = .next t ∧ OnlyCoreOf s t c ∧ SameMemory s t ∧
      PerformedOp (s.setCore c k') t c x o none
    let filled (bs : List Byte) : Core :=
      k.setLoadQ q ((k.loadQ q).map (fun e => if e.tag = o.tag then { e with data := some bs } else e))
    let chunks : List Nat := (List.range 8).flatMap (fun j => span (l j) 32)
    let i := o.z.toNat
    let first := (o.y.toNat + 3 * i / 8) % 2 ^ 64
    let n := (3 * i + 191) / 8 - 3 * i / 8 + 1
    ((∀ j, j < 8 → s.scratch c (o.y + o.z * BitVec.ofNat 64 j).toNat 32 = some (l j)) →
      (o.code = 0x10 ∨ o.code = 0x11 → gives (filled (took chunks))) ∧
      (o.code = 0x12 ∨ o.code = 0x13 → o.data.length = 256 → ∃ t, exec (.operationPerform c x o.id ch) s = .next t ∧
        OnlyCoreOf s t c ∧ PerformedOp s t c x o none ∧ Stored s t c o.scope (chunks.zip o.data))) ∧
    (o.code = 0x15 → s.scratch c o.y.toNat 16 = some (l 0) → gives { k with table := took (span (l 0) 16) }) ∧
    (o.code = 0x14 → s.scratch c first n = some (l 0) → ∃ bs, bs.length = 256 ∧ gives (filled bs) ∧
      ∀ j, j < 64 → leAt bs (4 * j) 4 = leAt o.data (2 * (leNat (took (span (l 0) n)) / 2 ^ (3 * i % 8 + 3 * j) % 8)) 2)) ∧
  (∀ (c a : Nat) (x : CtxId) (o : Op) (ch : Choice) (s : State), MayPerform s c x o → ch.part = none → o.st = .issued → x ≠ .cmp →
    o.away = [] → o.code = 0x16 ∨ o.code = 0x17 ∨ o.code = 0x18 → o.f.z.getLsbD 9 = true → o.y.toNat % 8 = 0 →
    s.scratch c o.y.toNat 32 = some a →
    let wide := windowScope o.y (BitVec.ofNat 2 o.scope)
    let bs := (s.readLocs c x wide ch.cuts (span a 32)).map (·.2)
    let r := shapeOf bs
    o.scope < 4 →
    (∀ y ∈ (s.ctxAt c x).ops, y.id < o.id →
      (o.f.t.mask.getLsbD y.f.t.stream.toNat = true ∨ o.f.t.rel = true ∨ y.f.t.acq = true) → s.performedAt c y wide = true) →
    (r.okFor o.code (matGroup o.f) = false → exec (.operationPerform c x o.id ch) s = .next (CheckTraps s c x o 2 3)) ∧
    (r.okFor o.code (matGroup o.f) = true → ∀ w, Shape.outside s c r o.x = some w →
      exec (.operationPerform c x o.id ch) s = .next (CheckTraps s c x o 7 w)) ∧
    (r.okFor o.code (matGroup o.f) = true → Shape.outside s c r o.x = none →
      ∃ t, exec (.operationPerform c x o.id ch) s = .next t ∧ OnlyCoreOf s t c ∧ SameMemory s t ∧ CheckedPast s t c x ∧
        ∃ p, t.opAt c x o.id = some p ∧ p.st = .started ∧ p.data = bs)) ∧
  (∀ (c : Nat) (x : CtxId) (o : Op) (ch : Choice) (l : Nat × Nat → Nat) (s : State), LogOk s → MayPerform s c x o → ch.part = none →
    o.got = [] → o.left = [] → o.dst = none → o.st = .started →
    let k := s.coreAt c
    let r := shapeOf o.data
    let d := matReg o.f
    let g := matGroup o.f
    let cells : List (Nat × Nat) := (List.range r.rows).flatMap (fun i => (List.range r.cols).map (fun j => (i, j)))
    let got : List Byte := (s.readUnits c x o.scope ch.cuts (cells.flatMap (fun p => withUnits (span (l p) r.bytes)))).map (·.2)
    let element (i j : Nat) : Lane :=
      if i < r.rows ∧ j < r.cols then r.lay i j ((got.drop ((i * r.cols + j) * r.bytes)).take r.bytes) else 0
    let gives (k' : Core) : Prop := ∃ t, exec (.operationPerform c x o.id ch) s = .next t ∧ OnlyCoreOf s t c ∧ SameMemory s t ∧
      PerformedOp (s.setCore c k') t c x o none
    let out (n : Nat) : Prop := o.f.z.getLsbD 1 = true ∧ d ≤ n ∧ n < d + g ∧ (k.tstat.get 0 n).getLsbD 1 = true
    (∀ p ∈ cells, 0 ≤ r.addr o.x p.1 p.2 ∧ s.scratch c (r.addr o.x p.1 p.2).toNat r.bytes = some (l p)) →
    (o.code = 0x16 → r.rows ≤ 64 → r.cols ≤ 64 * g → ∃ m : Tab Lane, gives { k with m := m } ∧ ∀ n i j, i < 64 → j < 64 → m.get 0 (elemKey n i j) =
      if d ≤ n ∧ n < d + g then element i (64 * (n - d) + j) else k.elem n i j) ∧
    (o.code = 0x18 → (∀ e ∈ k.flight, e.slot ≠ some (ldbSlot o.f)) → r.rows ≤ 256 → r.cols ≤ 256 → ∃ w : Tab Lane, gives { k with w := w } ∧
      ∀ n i j, i < 256 → j < 256 → w.get 0 (slotKey n i j) =
        if n = ldbSlot o.f then element i j else k.w.get 0 (slotKey n i j)) ∧
    (o.code = 0x18 → (∃ e ∈ k.flight, e.slot = some (ldbSlot o.f)) →
      exec (.operationPerform c x o.id ch) s = .next (s.setOp c x o)) ∧
    (o.code = 0x17 → ∃ (t : State) (ts : Tab Lane), exec (.operationPerform c x o.id ch) s = .next t ∧ OnlyCoreOf s t c ∧
      PerformedOp (s.setCore c { k with tstat := ts }) t c x o none ∧
      (∀ n, (out n → ts.get 0 n = k.tstat.get 0 n ||| 128) ∧ (¬ out n → ts.get 0 n = k.tstat.get 0 n)) ∧
      ∀ stored : List Host.Cell,
        stored = cells.flatMap (fun p =>
          if o.f.z.getLsbD 1 && decide (p.2 / 64 < g) && (k.tstat.get 0 (d + p.2 / 64)).getLsbD 1 then []
          else cellsFrom (l p) (leBytes r.bytes (k.elem (d + p.2 / 64) p.1 (p.2 % 64)).toNat)) →
        Stored s t c o.scope stored))

/-- R120: an operation with a predecessor that is not performed at its scope goes on waiting, and an engine command does not start; but the
check step of a plane atomic waits for plane instructions alone (R266, R303). A number that names no operation does nothing. An operation
stays in its stream until it has performed at its own scope, and leaves it in a step of its own. Propagation makes a write performed in the
next wider instance, takes no performance back, and changes what no other location reads as. -/
def Obligations.OrderAndPropagation : Prop :=
  ∀ (c seq : Nat) (x : CtxId) (o : Op) (ch : Choice) (s : State), LogOk s →
    (s.opAt c x seq = none → exec (.operationPerform c x seq ch) s = .next s) ∧
    (s.opAt c x o.id = some o → o.eng.fault = none →
      let scope := if 0x58 ≤ o.code ∧ o.code ≤ 0x5A then o.f.t.scope.toNat else o.scope
      let checks : Prop := 0x40 ≤ o.code ∧ o.code ≤ 0x4A ∧ o.f.z.getLsbD 9 = false ∧ o.st = .issued
      (∃ y ∈ (s.ctxAt c x).ops, y.id < o.id ∧ s.performedAt c y scope = false ∧
        (o.f.t.mask.getLsbD y.f.t.stream.toNat = true ∨ o.f.t.rel = true ∨ y.f.t.acq = true) ∧
        (checks → y.code = 0x25 ∨ y.code = 0x26 ∨ y.code = 0x27)) →
      exec (.operationPerform c x o.id ch) s = .next s ∧ exec (.engineCommandStart c x o.id ch) s = .next s) ∧
    (s.opAt c x o.id = some o → s.performedOwn c o = false → s.retireOp c x o.id = s) ∧
    (s.opAt c x o.id = some o → s.performedOwn c o = true → ∀ p ∈ ((s.retireOp c x o.id).ctxAt c x).ops, p.id = o.id → p.retired = true) ∧
    ∃ t, exec (.writePropagate seq) s = .next t ∧ t = { s with mem := t.mem, log := t.log } ∧
      (∀ e ∈ s.log, e.seq = seq →
        (∀ k, k / 8 = e.core / 8 → t.seqPerformed k 1 seq = true ∧ t.seqPerformed k 0 seq = true) ∧
        (1 ≤ e.level → ∀ k scope, t.seqPerformed k scope seq = true)) ∧
      (∀ k scope n, s.seqPerformed k scope n = true → t.seqPerformed k scope n = true) ∧
      (∀ a, (∀ e ∈ s.log, e.seq = seq → e.byteAt a = none) → ∀ k scope, (t.imageIn k scope a).2 = (s.imageIn k scope a).2)

/-- R31, R33, R161, R267: a `KTAKE` that may perform removes its tokens once they are present; a `KSIG` with room and no push before
it adds its own, and one without room joins the waiting pushes; a held engine signal or push is delivered to its queue where it fits. A
`KTAKET` that finds its tokens in time takes them and writes 0; one with a timeout of 0 that does not, and one whose time is up, write 1
and take nothing. R305, R306: `ABARM` sets the target and makes one completion test; an `ABWAIT` whose phase differs in time writes 0,
and one whose time is up writes 1. -/
def Obligations.TokensAndTimeouts : Prop :=
  ∀ (c q n : Nat) (x : CtxId) (o : Op) (ch : Choice) (s : State),
    let k := s.coreAt c
    let tq := k.tokens q
    let y := o.y.toNat
    let performs (u : State) (v : Option (Nat × Word)) : Prop :=
      ∃ t, exec (.operationPerform c x o.id ch) s = .next t ∧ OnlyCoreOf s t c ∧ PerformedOp u t c x o v
    let inTime : Prop := y = 0 ∨ o.met = true ∨ ∀ since, o.since = some since → s.time ≤ since + 1000 * y
    let ends : Prop := ∃ since, o.since = some since ∧ since + 1000 * y ≤ s.time
    let timesOut (d : Nat) : Prop :=
      ∃ t, exec (.waitTimeout c x o.id) s = .next t ∧ OnlyCoreOf s t c ∧ PerformedOp s t c x o (some (d, 1))
    (MayPerform s c x o → o.code = 0x29 → o.dst = none → o.f.x.toNat = q → (o.f.z.extractLsb' 0 6).toNat = n → n ≤ tq.count →
      performs (s.setCore c (k.setTokens q { tq with count := tq.count - n })) none) ∧
    (MayPerform s c x o → o.code = 0x28 → o.dst = none → o.f.x.toNat = q → (o.f.z.extractLsb' 0 6).toNat = n → tq.waiting = [] →
      (tq.count + n ≤ 63 → performs (s.setCore c (k.setTokens q ⟨tq.count + n, []⟩)) none) ∧
      (63 < tq.count + n → ∃ t, exec (.operationPerform c x o.id ch) s = .next t ∧ OnlyCoreOf s t c ∧
        (t.coreAt c).tokens q = ⟨tq.count, [.ksig x o.id]⟩ ∧ ∀ m, m ≠ q → (t.coreAt c).tokens m = k.tokens m)) ∧
    (∀ index r, tq.waiting = .engine index :: r →
      (tq.count < 63 → exec (.heldSignalDelivery c q) s = .next (s.setCore c (k.setTokens q ⟨tq.count + 1, r⟩))) ∧
      (63 ≤ tq.count → exec (.heldSignalDelivery c q) s = .next s)) ∧
    (∀ r, tq.waiting = .ksig x o.id :: r → s.opAt c x o.id = some o → o.code = 0x28 → o.dst = none →
      (o.f.z.extractLsb' 0 6).toNat = n →
      (tq.count + n ≤ 63 → ∃ t, exec (.heldSignalDelivery c q) s = .next t ∧ OnlyCoreOf s t c ∧
        PerformedOp (s.setCore c (k.setTokens q ⟨tq.count + n, r⟩)) t c x o none) ∧
      (63 < tq.count + n → exec (.heldSignalDelivery c q) s = .next s)) ∧
    (∀ d, MayPerform s c x o → o.code = 0x2A → o.dst = some d → (o.f.z.extractLsb' 7 3).toNat = q →
      (o.f.z.extractLsb' 1 6).toNat = n →
      (n ≤ tq.count → inTime → performs (s.setCore c (k.setTokens q { tq with count := tq.count - n })) (some (d, 0))) ∧
      (tq.count < n → y = 0 → performs s (some (d, 1))) ∧
      (tq.count < n → ends → timesOut d)) ∧
    (MayPerform s c x o → o.code = 0x50 → o.dst = none → o.f.x.toNat = q → 1 ≤ y → y ≤ 65535 →
      let b := k.abar q
      performs (s.setCore c (k.setAbar q (if y ≤ b.arr then ⟨y, b.arr - y, !b.ph⟩ else ⟨y, b.arr, b.ph⟩))) none) ∧
    (∀ d, MayPerform s c x o → o.code = 0x51 → o.dst = some d → (o.f.z.extractLsb' 8 2).toNat = q →
      let met := (k.abar q).ph != o.f.z.getLsbD 7
      (met = true → inTime → performs s (some (d, 0))) ∧
      (met = false → y = 0 → performs s (some (d, 1))) ∧
      (met = false → ends → timesOut d))

/-- R34 to R37: the oldest event of a core that its HOLD bits let through, one that they hold before it or not, enters the bivouac context
between two instructions of the primary control context, which stays where it is, a plane atomic that waits for its check abandoned
(R35): the frame takes the cause, the offset to resume at, the information, the loop
stack and rb, and the bivouac context starts at the handler the event or the task names. Nothing is entered while it runs. -/
def Obligations.EventEntry : Prop :=
  ∀ (c : Nat) (p : Pending) (held r : List Pending) (s : State),
    let k := s.coreAt c
    k.pend = held ++ p :: r → k.demWait = [] →
    (∀ h ∈ held, (h.cause = 0x11 ∧ k.msgHold = true) ∨ (h.cause = 0x12 ∧ k.demHold = true) ∨ (h.cause = 0x13 ∧ k.hotHold = true)) →
    (k.biv.run = .running → exec (.bivouacEntry c) s = .next s) ∧
    (k.biv.run ≠ .running → 0x10 ≤ p.cause → k.ctl.run ≠ .trapped →
      (p.cause = 0x11 → k.msgHold = false) → (p.cause = 0x12 → k.demHold = false) → (p.cause = 0x13 → k.hotHold = false) →
      ∃ t, exec (.bivouacEntry c) s = .next t ∧ OnlyCoreOf s t c ∧
        (t.coreAt c).frame = { cause := p.cause, seq := 0, pc := k.ctl.pc, info := p.info, loops := saveLoops k.ctl.loops,
                               rotbase := k.ctl.rb.zeroExtend 64, streams := s.engineCounts c .ctl } ∧
        (t.coreAt c).biv = { k.biv with run := .running, atEntry := true, pc := p.handler.getD (s.teamOf c).handler, loops := [],
                                        hold := none, fetched := none, want := none, ahead := none, lines := [] } ∧
        t.coreAt c = { k with frame := (t.coreAt c).frame, biv := (t.coreAt c).biv, pend := held ++ r,
                              ctl := { k.ctl with hold := none, ops := k.ctl.ops.filter (fun o => k.ctl.hold != some o.id) } })

/-- R123, R257, R258, R317: an engine command whose predecessors are performed starts by reading its record, which lies in
scratchpad at a multiple of 8, unless another command of its engine waits for a parked page; a record that breaks its
rules, and a misaligned one, is a copy fault of cause 0x0A, side 2. R123, R169, R170, R318 to R320: of a started command, an index
command reads the index or value of an element in any order, the elements are checked in nest order, the read of a checked element takes
its source bytes, and the write of one that has been read gives them to its destination, where nothing else is written; `XSCAT` with ADD
and `XHOT` read and write in one step, `XNZS` writes a live element's position and value, in either order, and leaves out a zero; an
element narrower than a byte leaves the other bits of its byte as the byte's latest write has them (R129). Once every element is
written and performed at the command's scope, the command performs and gives its signal; `XNZS` pushes its count before, `XHOT` places
its causes, and `PCONV` sets P (R166, R264). That counter n of `XHOT` stands 64 n positions on in a plane of GRAN 1 is the model's reading
(log 94). -/
def Obligations.EngineCommands : Prop :=
  (∀ (c a : Nat) (x : CtxId) (o : Op) (ch : Choice) (s : State), MayPerform s c x o → o.st = .issued → o.away = [] →
    o.code ∈ [0x20, 0x60, 0x61, 0x62, 0x63] → (s.coreAt c).engineTakes o = true → s.parkWaits c o = false →
    o.f.z.getLsbD 9 = true → o.scope < 4 →
    let wide := windowScope o.y (BitVec.ofNat 2 o.scope)
    (∀ y ∈ (s.ctxAt c x).ops, y.id < o.id →
      (o.f.t.mask.getLsbD y.f.t.stream.toNat = true ∨ o.f.t.rel = true ∨ y.f.t.acq = true) → s.performedAt c y wide = true) →
    let n := if o.code = 0x20 then 96 else 32
    let v := (s.teamOf c).vf
    let r : List Byte := (s.readLocs c x wide ch.cuts (span a n)).map (·.2)
    let bad : Bool := if o.code = 0x20 then patMalformed s v r else ixMalformed s v o.code r
    let total : Nat := if o.code = 0x20 then ((patNest r).map (·.count)).prod
      else if o.code = 0x60 ∨ o.code = 0x61 then leAt r 16 4 * leAt r 20 4 else leAt r 16 4
    (o.y.toNat % 8 ≠ 0 → exec (.engineCommandStart c x o.id ch) s = .next (s.copyFault c x o.id ⟨0x0A, 2, o.y, [], 0⟩)) ∧
    (o.y.toNat % 8 = 0 → s.scratch c o.y.toNat n = some a → bad = true →
      exec (.engineCommandStart c x o.id ch) s = .next (s.copyFault c x o.id ⟨0x0A, 2, o.y, [], 0⟩)) ∧
    (o.y.toNat % 8 = 0 → s.scratch c o.y.toNat n = some a → bad = false →
      ∃ t p, exec (.engineCommandStart c x o.id ch) s = .next t ∧ OnlyCoreOf s t c ∧ SameMemory s t ∧ t.opAt c x o.id = some p ∧
        p.st = .started ∧ p.eng = { record := r, total := total })) ∧
  (∀ (c k p n l m : Nat) (x : CtxId) (o : Op) (ch : Choice) (s : State), LogOk s → EngineGoing s c x o → ch.part = none →
    ch.way = none →
    let v := s.vfOf c
    let r := o.eng.record
    let q := pieces s v o k p
    let pos := (ixTable r).toNat % 2 ^ 48
    let step := if (s.planeDesc v (ixTable r)).gran then 64 else 1
    let state : Elem := o.eng.elems.get .todo k
    let taken (scope l n : Nat) : Nat := leNat ((s.readLocs c x scope ch.cuts (span l n)).map (·.2))
    let old : Nat := leNat ((List.range n).map (fun i => (s.imageIn c o.scope (l + i)).2))
    let cells (l n w : Nat) : List Host.Cell := (List.range n).map (fun i => (l + i, BitVec.ofNat 8 (w / 256 ^ i)))
    let makes (act : EngineAct) (e : Elem) (P : State → Prop) : Prop :=
      ∃ t, exec (.engineElementAccess c x o.id act ch) s = .next t ∧ ElementMade s t c x o k e ∧ P t
    let checks (e : Elem) (live : Nat) : Prop := makes .check e (fun t => SameMemory s t ∧
      ∃ w, t.opAt c x o.id = some w ∧ w.eng.checked = k + 1 ∧ w.eng.live = o.eng.live + live)
    let sides : Prop := (o.code = 0x63 ∨ ∃ bs, s.findPiece c v .read q.1 = .bytes bs) ∧
      ∃ bs, s.findPiece c v (destNeed o) q.2 = .bytes bs
    let source : Piece := if o.code = 0x62 then nzPiece r k else ixPiece r (if o.code = 0x63 then k else k / ixL r)
    -- the index, or the value of `XNZS`
    (0x60 ≤ o.code → o.code ≤ 0x63 → k < o.eng.total → o.eng.checked ≤ k → state = .todo → PieceAt s c .read source l n →
      makes (.index k) (.index (taken (source.scope o.scope) l n)) (SameMemory s)) ∧
    -- the check of the next element
    (o.eng.checked = k → k < o.eng.total →
      (o.code = 0x20 → p = 0 → sides → checks (.at 0) 0) ∧
      (∀ e a cause, o.code = 0x20 → p = 0 → s.findPiece c v .read q.1 = .fault cause e a →
        exec (.engineElementAccess c x o.id .check ch) s
          = .next (s.copyFault c x o.id ⟨cause, 0, a, nestIdx (patNest r) k, BitVec.ofNat 64 e⟩)) ∧
      (state = .index m →
        (o.code = 0x60 ∨ o.code = 0x61 → p = pos + m * ixStride r + k % ixL r → sides → checks (.at p) 0) ∧
        (o.code = 0x63 → m < ixL r → p = pos + step * m → sides → checks (.at p) 0) ∧
        (o.code = 0x63 → ixL r ≤ m → checks .done 0) ∧
        (o.code = 0x62 → nzLive (ixFmt r) m = false → checks .done 0) ∧
        (o.code = 0x62 → nzLive (ixFmt r) m = true → p = o.eng.live →
          (∃ bs, s.findPiece c v .write q.2 = .bytes bs) → (s.scratch c (leAt r 0 4 + 4 * p) 4).isSome →
          ∃ t w, exec (.engineElementAccess c x o.id .check ch) s = .next t ∧ OnlyCoreOf s t c ∧ SameMemory s t ∧
            t.opAt c x o.id = some w ∧ w.st = .started ∧ w.eng.record = r ∧ w.eng.total = o.eng.total ∧ w.eng.checked = k + 1 ∧
            w.eng.live = p + 1 ∧ w.eng.elems.get .todo k = .got p (leBytes 8 m) ∧
            w.eng.elems.get .todo (o.eng.total + k) = .got p (leBytes 8 k) ∧
            ∀ i, i ≠ k → i ≠ o.eng.total + k → w.eng.elems.get .todo i = o.eng.elems.get .todo i))) ∧
    -- the read and the write of an element
    (o.code = 0x20 ∨ o.code = 0x60 ∨ o.code = 0x61 → n ≤ 32 → state = .at p → PieceAt s c .read q.1 l n →
      makes (.read k) (.got p (leBytes 32 (taken (q.1.scope o.scope) l n))) (SameMemory s)) ∧
    (∀ b, o.code = 0x20 ∨ o.code = 0x60 ∨ o.code = 0x62 ∨ (o.code = 0x61 ∧ ixAdd r = false) → state = .got p b →
      earlierWrite o k p = false →
      (PieceAt s c .write q.2 l n → makes (.write k) .done (fun t => Stored s t c (q.2.scope o.scope) (cells l n (leNat b)))) ∧
      (∀ sh w, q.2.shape = (sh, w) → 0 < w → w < 8 → sh + w ≤ 8 → s.findPiece c v .write q.2 = .bytes [.at l] →
        let byte := (s.newest l).toNat
        makes (.write k) .done (fun t => Stored s t c (q.2.scope o.scope)
          [(l, BitVec.ofNat 8 (byte - byte / 2 ^ sh % 2 ^ w * 2 ^ sh + leNat b % 2 ^ w * 2 ^ sh))]))) ∧
    (∀ b, o.code = 0x61 → ixAdd r = true → state = .got p b → earlierWrite o k p = false → PieceAt s c .both q.2 l n →
      let sum := if ixFmt r ≤ 2 then ((fpFmt (ixFmt r)).round .rne false
          (((fpFmt (ixFmt r)).decode old).add ((fpFmt (ixFmt r)).decode (leNat b)))).bits
        else (old + leNat b) % 2 ^ 32
      makes (.write k) .done (fun t => Stored s t c o.scope (cells l n sum))) ∧
    (o.code = 0x63 → state = .at p → earlierWrite o k p = false → PieceAt s c .both q.2 l n → n = 4 →
      makes (.write k) .done (fun t => Stored s t c o.scope (cells l 4 (min (old + 1) (2 ^ 32 - 1))) ∧
        ∃ w, t.opAt c x o.id = some w ∧
          w.eng.hot = if old + 1 = ixStride r ∧ old ≠ 2 ^ 32 - 1 then o.eng.hot ++ [BitVec.ofNat 64 ((p - pos) / step)] else o.eng.hot)) ∧
    -- the destinations of `XNZS`: the value of a live element, and its position
    (o.code = 0x62 →
      (k < o.eng.total → q.2 = .scr 0 ((8 * leAt r 12 4 + p * fmtBits (ixFmt r) : Nat) : Int) (fmtBits (ixFmt r))) ∧
      (o.eng.total ≤ k → q.2 = .scr 0 ((8 * (leAt r 0 4 + 4 * p) : Nat) : Int) 32))) ∧
  (∀ (c : Nat) (x : CtxId) (o : Op) (ch : Choice) (s : State), EngineGoing s c x o →
    let k := s.coreAt c
    let code := o.f.x.toNat
    let index := decide (0x60 ≤ o.code)
    let made : Prop := o.eng.checked = o.eng.total ∧ (∀ e ∈ o.eng.elems, e.2 = .done) ∧ o.eng.hot = [] ∧
      ∀ n ∈ o.took ++ o.wrote, s.seqPerformed c o.scope n = true
    let ends (k' : Core) : Prop := ∃ t, exec (.engineCommandComplete c x o.id ch) s = .next t ∧ OnlyCoreOf s t c ∧ SameMemory s t ∧
      PerformedOp (s.setCore c k') t c x o none
    let signalled (k : Core) : Prop :=
      let q := k.tokens code
      (code ≤ 7 → q.waiting = [] → q.count < 63 → ends (k.setTokens code { q with count := q.count + 1 })) ∧
      (code ≤ 7 → (q.waiting ≠ [] ∨ 63 ≤ q.count) → ends (k.setTokens code { q with waiting := q.waiting ++ [.engine index] })) ∧
      (8 ≤ code → code ≤ 11 → ends (k.setAbar (code - 8) (k.abar (code - 8)).arrive)) ∧
      (code = 31 → ends k)
    (o.code ∈ [0x20, 0x60, 0x61, 0x62, 0x63] → (o.code = 0x62 → o.eng.pushed = true) → o.dst = none → made → signalled k) ∧
    (o.code = 0x62 → o.eng.pushed = false → made →
      (k.yq.length < 16 → ∃ t p, exec (.engineCommandComplete c x o.id ch) s = .next t ∧ OnlyCoreOf s t c ∧
        (t.coreAt c).yq = k.yq ++ [BitVec.ofNat 64 o.eng.live] ∧ t.opAt c x o.id = some p ∧ p.eng.pushed = true) ∧
      (16 ≤ k.yq.length → exec (.engineCommandComplete c x o.id ch) s = .next s)) ∧
    (∀ h rest, o.code = 0x63 → o.eng.hot = h :: rest → k.hotHold = false → k.biv.run = .running →
      (k.pend.filter (fun q => 9 < q.cause)).length < 5 → k.pend.length < 8 →
      ∃ t p, exec (.engineCommandComplete c x o.id ch) s = .next t ∧ OnlyCoreOf s t c ∧
        (t.coreAt c).pend = k.pend ++ [{ cause := 0x13, info := h }] ∧ t.opAt c x o.id = some p ∧ p.eng.hot = rest) ∧
    (o.code = 0x24 → o.eng.hot = [] → o.dst = none → (∀ p ∈ k.allOps, p.code = 0x22 → p.st ≠ .done → p.z.toNat < o.y.toNat) →
      ∃ (ps : Tab ProbeSlot) (rs : List Nat), signalled { k with probeP := o.y.toNat, probe := ps, recent := rs } ∧
        (∀ n, ps.get {} n = if n < o.y.toNat ∧ n < k.probeP then k.probe.get {} n else {}) ∧
        ∀ n, n ∈ rs ↔ n ∈ k.recent ∧ n < o.y.toNat ∧ n < k.probeP))

/-! ### Hosts, queues, launches and tasks (R13 to R17, R126, R134 to R153, R176, R180) -/

/-- R13, R16, R17, R22, R23, R126, R145, R176, R182: with nothing of its function held and no cache way named, a host write within one line
performs its bytes in the device image, aligned or not (log 84), and changes no other byte; a host read answers with the bytes of the device
image, or, where a check fails, as an unsupported request, and as a completer abort from a POISONED frame. A function in RUN that does not
use its IDE stream is answered as an unsupported request, and so, before stage 4 is over, is every write and, by the model's choice, every
read (log 85). A doorbell adds its launch header to an enabled queue of its function, an EMPTY queue becoming PENDING; any other doorbell is
discarded and counted; and one that finds accesses of its function held takes its place behind them. In stage 15, which R20 leaves to
management alone, host accesses are unsupported requests too, by the model's choice (log 97). The physical function reads `DEVSTAT` from
when the host link has come up (R20). -/
def Obligations.HostAccesses : Prop :=
  ∀ (vf q n loc : Nat) (va : Word) (data : List Byte) (ide : Bool) (ch : Choice) (s : State), LogOk s →
    let t := s.tenant vf
    let w := s.queue q
    let secret : Prop := t.tdispOn = true ∧ t.tdisp = .run ∧ ide = false
    (s.mailboxTakes vf ide = true → t.held = [] → t.away = [] → ch.way = none → data ≠ [] → loc % 64 + data.length ≤ 64 →
      LiesAt s vf va .write data.length loc →
      ∃ u, exec (.hostWrite vf va data ide ch) s = .next u ∧
        u = { s with mem := u.mem, log := u.log, nextSeq := u.nextSeq, counters := u.counters, nodes := u.nodes, domains := u.domains,
                     tenants := u.tenants } ∧
        (∀ v, u.tenant v = if v = vf then { t with lines := [] } else s.tenant v) ∧
        (∀ i, i < data.length → u.image (loc + i) = data.getD i 0) ∧
        ∀ a, (a < loc ∨ loc + data.length ≤ a) → u.image a = s.image a) ∧
    (s.mailboxTakes vf ide = true → t.held = [] → t.away = [] → ch.way = none → n ≠ 0 → LiesAt s vf va .read n loc →
      ∃ u, exec (.hostRead vf va n ide ch) s = .next u ∧
        (∀ v, u.tenant v = if v = vf then { t with lines := [] } else s.tenant v) ∧
        u = { s with tenants := u.tenants, out := s.out ++ [.hostData vf ((List.range n).map (fun i => s.image (loc + i)))] }) ∧
    (s.mailboxTakes vf ide = true → t.held = [] → t.away = [] → n ≠ 0 → ∀ cause e a, s.findAt vf va .read n = .fault cause e a →
      ∃ u, exec (.hostRead vf va n ide ch) s = .next u ∧ (∀ v, u.tenant v = s.tenant v) ∧
        u = { s with tenants := u.tenants, out := s.out ++ [if cause = 6 then .hostAbort vf else .hostUnsupported vf] }) ∧
    (secret ∨ s.module.stage < 5 ∨ s.module.stage = 15 →
      (data ≠ [] → exec (.hostWrite vf va data ide ch) s = .next (s.send (.hostUnsupported vf))) ∧
      (n ≠ 0 → vf < 1024 → exec (.hostRead vf va n ide ch) s = .next (s.send (.hostUnsupported vf)))) ∧
    (secret → exec (.doorbellWrite vf q va ide) s = .next (s.send (.hostUnsupported vf))) ∧
    (¬ secret → t.held = [] →
      (s.ready = true → w.enabled = true → w.vf = some vf → (t.tdispOn = true → t.tdisp = .run) →
        ∃ u, exec (.doorbellWrite vf q va ide) s = .next u ∧ u = { s with queues := s.queues.set q (u.queue q), nextTurn := u.nextTurn } ∧
          u.queue q = { w with unread := w.unread ++ [{ va := va }], st := if w.st = .empty then .pending else w.st,
                               turn := if w.st = .empty then s.nextTurn else w.turn } ∧
          (w.st = .empty → u.nextTurn = s.nextTurn + 1)) ∧
      (s.ready = false ∨ w.enabled = false ∨ w.vf ≠ some vf ∨ (t.tdispOn = true ∧ t.tdisp ≠ .run) →
        exec (.doorbellWrite vf q va ide) s = .next (s.setTenant vf { t with lostBells := t.lostBells + 1 }))) ∧
    (¬ secret → t.held ≠ [] →
      exec (.doorbellWrite vf q va ide) s = .next (s.setTenant vf { t with held := t.held ++ [.bell q va] })) ∧
    (s.module.hostLink = true →
      exec (.hostRead 1024 0x10 8 ide ch) s = .next (s.send (.hostData 1024 (leBytes 8 s.module.devstat.toNat)))) ∧
    (s.module.hostLink = false → exec (.hostRead 1024 va n ide ch) s = .next s)

/-- R139, R142, R145, R149: a free slot goes to the first pending queue, the one that no pending queue stands before; at a quantum boundary
with no task in flight a mapped queue with no unread launch becomes EMPTY, one with unread launches and no pending queue of its class or
higher stays mapped, one that has had a full quantum while such a queue is pending goes to the back of the rotation, and pending queues take
slots while any is free; disabling a queue empties it, its unread launches being left to be read and cancelled; a READY task is handed to a
group of its partition, the only one of a partition having it from the start where it can hold its team (log 66), and is the group's next
where no task of the group that may start stands before it: while the group keeps cores for a task that needs more than are idle, only that
task and those of a higher class may start; a fill task READY for its tenant's fill age is aged; one enabled tenant of a valid partition at
a time starts its slice; and a slice ends. -/
def Obligations.QueuesAndSlices : Prop :=
  ∀ (q vf launch idx g : Nat) (k : Tk) (ch : Choice) (s : State),
    let w := s.queue q
    let t := s.tenant vf
    let only := s.groupsOf (s.part t.part).desc = [g]
    let has (u : Tk) : Prop :=
      u.group = some g ∨ (u.group = none ∧ only ∧ u.size ≤ (s.groupCores (s.part t.part).desc g).length)
    let rank (u : Tk) : Nat :=
      if u.cls = 3 ∧ (u.aged = true ∨ u.readyAt + (s.tenant (s.tkVf u)).fillAge ≤ s.time) then 2 else u.cls
    let keeps (r : Tk) : Prop :=
      (r.launch, r.idx, r.readyAt) ∈ s.reserved.get [] (32 * t.part + g) ∧ s.findTk r.launch r.idx = some r ∧ r.st = .ready ∧ has r
    let starts (u : Tk) : Prop := ∀ r, keeps r → (r.launch = u.launch ∧ r.idx = u.idx) ∨ rank u < rank r
    (s.ready = true → s.slotFree = true → s.nextQueue = some q →
      exec (.queueSlotMap q) s = .next { s with queues := s.queues.set q { w with st := .mapped, mapped := s.quantumNo + 1 },
                                                lastVf := s.lastVf.set w.cls (w.vf.getD 0) }) ∧
    (Ordered s.queues → s.nextQueue = some q → w.st = .pending ∧ ∀ e ∈ s.queues, e.2.st = .pending → s.queueBefore e.2 w = false) ∧
    (s.ready = true → s.quantumAt + s.module.quantum ≤ s.time → s.tasks = [] → Ordered s.queues →
      ∃ u, exec (.quantumBoundary ch) s = .next u ∧
        u = { s with queues := u.queues, nextTurn := u.nextTurn, lastVf := u.lastVf, quantumNo := s.quantumNo + 1, quantumAt := s.time } ∧
        (w.st = .mapped → w.unread = [] → (u.queue q).st = .empty) ∧
        (w.st = .mapped → w.unread ≠ [] → (∀ e ∈ s.queues, e.2.st = .pending → w.cls < e.2.cls) → u.queue q = w) ∧
        (w.st = .mapped → w.unread ≠ [] → w.mapped ≤ s.quantumNo → (∃ e ∈ s.queues, e.2.st = .pending ∧ e.2.cls ≤ w.cls) →
          s.nextTurn ≤ (u.queue q).turn ∧ (u.queue q).unread = w.unread) ∧
        ((∀ e ∈ u.queues, e.2.st ≠ .pending) ∨ u.slotFree = false)) ∧
    ((∀ k ∈ s.tasks, ∀ l, s.launch k.launch = some l → l.queue ≠ q) →
      exec (.queueDisable q) s = .next (s.setQueue q { w with enabled := false, st := .empty, unread := [],
                                                              doomed := w.doomed ++ w.unread })) ∧
    (s.findTk launch idx = some k →
      (k.st = .ready → g ∈ s.groupsOf (s.part (s.tenant (s.tkVf k)).part).desc → s.hand launch idx g = s.setTk { k with group := some g }) ∧
      (k.st = .ready → g ∉ s.groupsOf (s.part (s.tenant (s.tkVf k)).part).desc → s.hand launch idx g = s) ∧
      (s.isFirst k t.part g = true ↔ has k ∧ starts k ∧ ∀ u ∈ s.tasks, u.st = .ready → (s.tenant (s.tkVf u)).part = t.part →
        s.mayDispatch (s.tkVf u) = true → has u → starts u → (u.launch = k.launch ∧ u.idx = k.idx) ∨ s.taskBefore u k = false) ∧
      (s.isFirst k t.part g = true → (∀ u ∈ s.readyIn t.part, s.isFirst u t.part g = true ↔ u = k) → k ∈ s.readyIn t.part →
        ((s.groupCores (s.part t.part).desc g).filter (s.coreFree (s.tkVf k) (s.part t.part).desc)).length < k.size →
        (k.launch, k.idx, k.readyAt) ∈ (s.reserveIn t.part g).reserved.get [] (32 * t.part + g)) ∧
      (k.st = .ready → k.cls = 3 → k.readyAt + (s.tenant (s.tkVf k)).fillAge ≤ s.time →
        exec (.fillTaskAging launch idx) s = .next (s.setTk { k with aged := true }))) ∧
    (t.en = true → PartDesc.valid (s.part t.part).desc = true →
      (∀ e ∈ s.tenants, e.1 ≠ vf → e.2.part = t.part → e.2.slice = false) →
      exec (.sliceStart vf) s = .next (s.setTenant vf { t with slice := true })) ∧
    exec (.sliceEnd vf) s = .next (s.setTenant vf { t with slice := false })

/-- R16, R39, R134 to R141: a launch of one record, on this device and well formed, is accepted: of a READY one its queue is popped, the task
is READY from now with its team size, and its record bears this device as OWNER; one of a WAITING record waits on the events it names
that are not satisfied, and one of a STOLEN record is left to its thief. The header is that which a `LAUNCH` has read, or is read as the
launch is accepted; one that breaks a rule of R134 is rejected. A
task that its group's scheduler may bind, the first of those handed to that group, is dispatched: its record becomes DISPATCHED, and each
core of the team starts with everything zero but the four sequencers at their entry points; no other core changes. -/
def Obligations.LaunchesAndDispatch : Prop :=
  ∀ (q v launch idx loc hloc : Nat) (i : QItem) (r : List QItem) (h bs : List Byte) (cores : List Nat) (ch : Choice) (s : State),
    let w := s.queue q
    let table : Word := BitVec.ofNat 64 (leAt h 0 8)
    let aligned : Prop := (s.planeDesc v i.va).byteOf (vaPos i.va) % 64 = 0
    let word := s.imageNat loc 8
    let accepted := swAccept word s.module.devId (bitAt (leAt h 19 1) 0)
    let names := (waitNames (s.imageBytes loc 128)).filter (· != 0)
    (s.ready = true → w.st = .mapped → w.doomed = [] → w.vf = some v → w.unread = i :: r → i.stolen = none →
      i.bytes = some h ∨ (i.bytes = none ∧ LiesAt s v i.va .read 64 hloc ∧ h = s.imageBytes hloc 64) →
      (headerBad h = true → leAt h 20 2 = 0 →
        exec (.launchAccept q ch) s = .next (s.setQueue q { w with unread := r })) ∧
      (headerBad h = false → aligned → s.tableBad v table 1 = false → leAt h 8 4 = 1 →
        LiesAt s v (s.recAt v table 0) .read 8 loc → LiesAt s v (s.recAt v table 0) .read 128 loc →
        LiesAt s v (s.recAt v table 0) .both 8 loc →
        let takes (st : TaskSt) (P : State → Tk → Prop) : Prop :=
          ∃ u k, exec (.launchAccept q ch) s = .next u ∧ u.queue q = { w with unread := r } ∧ k ∈ u.tasks ∧
            k.launch = s.nextLaunch ∧ k.idx = 0 ∧ k.addr = s.recAt v table 0 ∧ k.st = st ∧
            u.nextLaunch = s.nextLaunch + 1 ∧ u.cores = s.cores ∧
            u.mem = (swapped s loc accepted).mem ∧ u.log = (swapped s loc accepted).log ∧ P u k
        (swState word = 1 → recordMalformed (leBytes 8 accepted ++ (s.imageBytes loc 128).drop 8) = false →
          takes .ready (fun _ k => k.readyAt = s.time ∧ k.group = none ∧ k.size = leAt (s.imageBytes loc 128) 53 1)) ∧
        (swState word = 0 → LogOk s → LiesAt (swapped s loc accepted) v (s.recAt v table 0) .read 128 loc → (∀ n ∈ names, (s.event v n).failed = false) →
          (∃ n ∈ names, (s.event v n).count < (s.event v n).target) →
          takes .waiting (fun u _ => ∀ n ∈ names, (s.event v n).count < (s.event v n).target →
            (s.event v n).slots.length < 4 → Waiter.task s.nextLaunch 0 ∈ (u.event v n).slots ++ (s.event v n).chain)) ∧
        (swState word = 4 → takes .away (fun _ k => k.since = s.time)))) ∧
    (∀ l k, s.launch launch = some l → s.findTk launch idx = some k → l.stolen = none → k.st = .ready → s.mayDispatch l.vf = true →
      cores.length = k.size → cores.Nodup → cores ≠ [] →
      (∀ c ∈ cores, c / 8 = cores.headD 0 / 8 ∧ s.coreFree l.vf (s.part (s.tenant l.vf).part).desc c = true) →
      s.isFirst k (s.tenant l.vf).part (cores.headD 0 / 8) = true →
      LiesAt s l.vf k.addr .read 128 loc → LiesAt s l.vf k.addr .both 8 loc → bs = s.imageBytes loc 128 →
      swState (s.imageNat loc 8) = 1 →
      let tm : Team := { vf := l.vf, queue := l.queue, launch := l.id, idx := k.idx, addr := k.addr,
                         bytes := leBytes 8 (wordWith s loc 2) ++ bs.drop 8, widths := l.widths, cores := cores, start := s.time }
      let start (n : Nat) : Ctx := { run := .running, atEntry := true, pc := BitVec.ofNat 64 (leAt bs (16 + 4 * n) 4) }
      ∃ u, exec (.taskDispatch launch idx cores ch) s = .next u ∧ u.teamAt s.nextTeam = tm ∧ u.nextTeam = s.nextTeam + 1 ∧
        u.mem = (swapped s loc (wordWith s loc 2)).mem ∧ u.log = (swapped s loc (wordWith s loc 2)).log ∧
        (∀ n, n < cores.length → u.coreAt (cores.getD n 0) =
          { team := s.nextTeam, rank := n, lastVf := some l.vf, clean := false, start := s.cycles,
            fenced := (s.coreAt (cores.getD n 0)).fenced, ctl := start 0, ld := start 1, cmp := start 2, st := start 3 }) ∧
        (∀ c, c ∉ cores → u.coreAt c = s.coreAt c) ∧ ∃ k' ∈ u.tasks, k'.launch = launch ∧ k'.idx = idx ∧ k'.st = .running)

/-- R125, R139, R144, R153, R180: once every context of a team has ended and every operation is performed, the record is swapped to DONE,
the cores are idle, the task is counted and its events are signalled; a task past its maximum duration goes to the context rung with cause
0x02; a stolen task ends in the same way at system scope and signals its owner, or, where it failed, its cause is written first; while its
signals cannot leave for the owner (R190), it waits (log 95); a steal that is lost becomes FAILED with cause 0x08, written first; a task
that a cancelled launch has not dispatched becomes CANCELLED with GEN advanced; and the scratchpad of a core without a task, the slice of
its last tenant being over, is zeroed, no other byte of memory changing. -/
def Obligations.TasksEnd : Prop :=
  ∀ (team launch idx loc c : Nat) (bs : List Byte) (t : Tk) (ch : Choice) (s : State),
    let tm := s.teamAt team
    let ended (scope : Nat) : Prop := tm.cores ≠ [] ∧ (∀ c ∈ tm.cores, s.memberOver scope c = true) ∧
      s.findTk tm.launch tm.idx = some t ∧ LiesAt s tm.vf tm.addr .both 8 loc ∧ s.imageNat loc 8 = leAt tm.bytes 0 8
    (tm.stolen = none → ended 2 →
      let r := ((swapped s loc (wordWith s loc 3)).dropTeam team).countTask t true
      exec (.taskComplete team ch) s = .next (r.1.signals (sigsOf tm.vf tm.bytes false ++ r.2))) ∧
    (tm.cores ≠ [] → tm.start + 1000 * leAt tm.bytes 68 4 < s.time →
      exec (.taskWatchdog team ch) s = .next (s.contextRung team 2 9 tm.addr.toNat ch.ans)) ∧
    let hears (st : Stolen) : Prop := st.owner = s.module.devId ∨ (leAt tm.bytes 48 2 = 0 ∧ leAt tm.bytes 50 2 = 0) ∨
      s.canSend tm.vf st.owner = true
    (∀ st, tm.stolen = some st → hears st → tm.failed = none → ended 3 →
      let r := (((swapped s loc (wordWith s loc 3)).dropTeam team).signalOwner tm st.owner false).countTask t true
      exec (.stolenTaskEnd team ch) s = .next (r.1.signals r.2)) ∧
    (∀ st, tm.stolen = some st → ¬ hears st → exec (.stolenTaskEnd team ch) s = .next s) ∧
    (∀ st cause, tm.stolen = some st → hears st → tm.failed = some cause → s.findTk tm.launch tm.idx = some t →
      let s1 := s.writeDevice (cellsFrom (loc + 72) (leBytes 4 cause))
      LiesAt s tm.vf (s.recAt tm.vf tm.addr 72) .write 4 (loc + 72) → LiesAt s1 tm.vf tm.addr .both 8 loc →
      s1.imageNat loc 8 = leAt tm.bytes 0 8 →
      let r := (((swapped s1 loc (wordWith s1 loc 5)).dropTeam team).signalOwner tm st.owner true).countTask t false
      exec (.stolenTaskEnd team ch) s = .next (r.1.signals r.2)) ∧
    (let v := s.tkVf t
     let s1 := s.writeDevice (cellsFrom (loc + 72) (leBytes 4 8))
     s.findTk launch idx = some t → t.st = .away → LiesAt s v t.addr .read 128 loc → bs = s.imageBytes loc 128 → leAt bs 0 8 % 16 = 4 →
      t.since + 1000 * leAt bs 68 4 + s.module.fabricTimeout < s.time →
      LiesAt s v (s.recAt v t.addr 72) .write 4 (loc + 72) → LiesAt s1 v t.addr .both 8 loc → s1.imageNat loc 8 = leAt bs 0 8 →
      let r := (swapped s1 loc (wordWith s1 loc 5)).countTask t false
      exec (.stealLost launch idx ch) s = .next (r.1.signals (sigsOf v bs true ++ r.2))) ∧
    (∀ l, s.tasks.filter (fun k => k.launch == launch) = [t] → s.findTk t.launch t.idx = some t → s.launch t.launch = some l →
      l.stolen = none → (t.st = .waiting ∧ swState (s.imageNat loc 8) = 0 ∨ t.st = .ready ∧ swState (s.imageNat loc 8) = 1) →
      LiesAt s l.vf t.addr .read 128 loc → LiesAt s l.vf t.addr .both 8 loc → bs = s.imageBytes loc 128 →
      let r := (swapped s loc (swNextGen (wordWith s loc 6))).countTask t false
      exec (.launchCancel launch ch) s = .next (r.1.signals (sigsOf l.vf bs true ++ r.2))) ∧
    ((s.coreAt c).team = 0 → (∀ v, (s.coreAt c).lastVf = some v → (s.tenant v).slice = false) →
      ∃ u, exec (.scratchpadZeroing c) s = .next u ∧ u = { s with mem := u.mem, log := u.log, cores := u.cores } ∧
        (∀ a, a < 0x180000 → u.image (scratchLoc c a) = 0) ∧ (∀ a, inScratch c a = false → u.image a = s.image a) ∧
        u.coreAt c = { s.coreAt c with probe := [], probeP := 0, recent := [], clean := true } ∧
        ∀ d, d ≠ c → u.coreAt d = s.coreAt d)

/-! ### Frames, leases and the fabric (R48, R156 to R165, R175, R190, R191, R203, R209, R210) -/

/-- R44, R48, R156, R157, R159, R175, R183, R185, R187, R203, R258: a frame for a write parked on an ABSENT entry is written as zero and
its entry RESIDENT, WR and SK kept, and what was parked is treated afresh; without room in a tier it is denied; a PAGED page comes in
with the host's bytes; a missing table is built with its PFR; a move sets its entry PAGED, and puts the frame's contents into the new
frame once no access is on its way; firmware's writes of tables change the bytes they name and no other, name only the tenant's own
frames, and write a free frame as zero first; a POISONED entry becomes nothing but ABSENT; a shared frame is filled before any tenant
maps it; and a fault area lies in a frame of the tenant. -/
def Obligations.FramesAndTables : Prop :=
  ∀ (vf e sz a b i level : Nat) (va w : Word) (g : FrameGrant) (pfr : Bool) (data bytes : List Byte) (s : State), MemoryOk s →
    let d := s.planeDesc vf va
    let n := d.frameBytes sz
    let second := placeSecond d.place (vaPos va / 2 ^ sz)
    let gives (x : State) : State := (x.setEntry vf va (resident e g)).freeParks vf va sz
    let change (c : TableChange) : Host.Outcome State Fault Refusal := exec (.tenantTableChange vf c) s
    let named := field w.toNat 0 48 * 64
    (s.entryOf vf va = some (e, sz) → s.entryWaits vf va = false →
      (peState e = 0 → peSk e = false → s.parkedOn vf va sz true = true →
        (s.grantOk vf g n 64 second = true →
          exec (.frameAllocate vf va (some g)) s = .next (gives ((s.takeFrame vf g n).zeroRange g.addr n))) ∧
        (s.noRoom vf n = true → exec (.frameAllocate vf va none) s = .next (s.denyParks vf va sz))) ∧
      (peState e = 4 → peSk e = false → s.parkedOn vf va sz false = true → s.moves = [] →
        (s.grantOk vf g n 64 second = true → exec (.pageIn vf va (some g) data) s
          = .next (gives ((s.takeFrame vf g n).fillFrame g.addr n (data.take (d.pageBytes sz))))) ∧
        (s.noRoom vf n = true → exec (.pageIn vf va none data) s = .next (s.denyParks vf va sz))) ∧
      (peSk e = true → ∀ f, exec (.frameAllocate vf va f) s = .next s ∧ exec (.pageIn vf va f data) s = .next s) ∧
      (let lentHere : Prop := ∃ l ∈ s.leases, l.2.st ≠ .free ∧ meets (field e 0 48 * 64) n (4096 * l.2.base) (4096 * l.2.len) = true
       let paged : Prop := exec (.frameMove vf va none data) s =
          .next (({ s with moves := s.moves ++ [⟨vf, va, BitVec.ofNat 64 e⟩] } : State).setEntry vf va (reState e 4 (peFrame e)))
       (peState e = 1 ∨ peState e = 2 → ¬ lentHere → paged) ∧ (peState e = 3 → paged) ∧
       (peState e = 1 ∨ peState e = 2 → lentHere → exec (.frameMove vf va none data) s = .next s)) ∧
      (∀ m, s.moves.find? (fun m => m.vf == vf && m.va == va) = some m → peState e = 4 → s.quietPage vf va sz = true →
        s.moveOk m g n = true → exec (.frameMove vf va (some g) data) s = .next (s.finishMove m sz g data)) ∧
      (s.entryAllowed vf e w.toNat n = true → s.movingPage vf va sz = false → field e 0 48 = field w.toNat 0 48 →
        let mine : Prop := s.ownRange vf named n false = true
        (peState w.toNat = 0 ∨ 3 ≤ peState w.toNat ∨ peSk w.toNat = true ∨ mine →
          change (.entry va w) = .next ((s.setEntry vf va w.toNat).freeParks vf va sz)) ∧
        (peState w.toNat = 1 ∨ peState w.toNat = 2 → peSk w.toNat = false → ¬ mine → change (.entry va w) =
          .next ((((s.takeFrame vf ⟨named, peState w.toNat == 2⟩ n).zeroRange named n).setEntry vf va w.toNat).freeParks vf va sz))) ∧
      (peState e = 5 ∧ peState w.toNat ≠ 0 ∨ peSk w.toNat = true ∧ (peWr w.toNat = true ∨ (peState w.toNat ≠ 1 ∧ peState w.toNat ≠ 2) ∨
          ∀ x ∈ s.shared, x.1 = named → bitAt (s.tenant vf).shmask x.2.2 = false) →
        change (.entry va w) = .next s)) ∧
    (∀ x, (x < g.addr ∨ g.addr + n ≤ x → (s.zeroRange g.addr n).image x = s.image x) ∧
      (g.addr ≤ x → x < g.addr + n → (s.zeroRange g.addr n).image x = 0)) ∧
    (b + n ≤ g.addr ∨ g.addr + n ≤ b → let u := s.copyFrame b g.addr n
      (∀ x, x < n → u.image (g.addr + x) = s.image (b + x)) ∧
      ∀ x, (x < g.addr ∨ g.addr + n ≤ x) → (x < b ∨ b + n ≤ x) → u.image x = s.image x) ∧
    (g.addr % 64 = 0 → g.addr < 2 ^ 42 → peState (resident e g) = (if g.second then 2 else 1) ∧ peWr (resident e g) = peWr e ∧
      peSk (resident e g) = peSk e ∧ field (resident e g) 0 48 * 64 = g.addr) ∧
    (s.missingAt (vaPos va) 3 (s.descRoot vf va) = some (a, 0) → s.parkedOn vf va 12 true = true → s.grantOk vf g 128 128 false = true →
      s.mustWait a = false → (s.tenant vf).tableBase ≠ none →
      exec (.tableBuild vf va (some [g])) s = .next
        (((((s.takeTable vf g 128).zeroRange g.addr 128).writeTable a 8 (2 ^ 63 + g.addr / 128)).fillPfr vf va g.addr).freeUnder
          vf va 12)) ∧
    (s.frameFree 0 g (2 ^ 20) 64 = true → s.deviceRoom (some g.second) (2 ^ 14) = true → change (.base g) = .next
      ((s.zeroRange g.addr (2 ^ 20)).setTenant vf { s.tenant vf with tableBase := some g.addr, tableSecond := g.second })) ∧
    (∀ table, (s.tenant vf).tableBase = some table → i < 4096 → bytes.length = 256 → s.descAllowed vf bytes = true →
      s.rangeWaits (table + 256 * i) 256 = false → ∃ u, change (.descriptor i bytes) = .next u ∧
        let base := table + 256 * i
        (∀ k, k < 256 → u.image (base + k) = bytes.getD k 0) ∧ ∀ b, (b < base ∨ base + 256 ≤ b) → u.image b = s.image b) ∧
    ((s.tenant vf).tableBase = none → change (.descriptor i bytes) = .next s ∧ s.checkPlane vf va = some 1 ∧ s.entryOf vf va = none) ∧
    (let n := if pfr then 128 else 4096
     s.grantOk vf g n n false = true → change (.grant g pfr) = .next ((s.takeTable vf g n).zeroRange g.addr n)) ∧
    (s.tableSlot (vaPos va) level 3 (s.descRoot vf va) = some a → s.descValid vf va = true → s.linkAllowed vf w.toNat = true →
      s.mustWait a = false →
      change (.table va level w) = .next ((s.writeTable a 8 w.toNat).freeUnder vf va (12 + 9 * level))) ∧
    ((s.writeTable a 8 w.toNat).imageNat a 8 = w.toNat ∧ ∀ b, (b < a ∨ a + 8 ≤ b) → (s.writeTable a 8 w.toNat).image b = s.image b) ∧
    (i < 16 → s.frameFree (1025 + i) g bytes.length 64 = true → s.deviceRoom (some g.second) (linesIn bytes.length) = true →
      change (.share g i bytes) = .next (({ s with
          shared := s.shared ++ [(g.addr, 64 * linesIn bytes.length, i)],
          second := if g.second then s.second ++ [g.addr] else s.second } : State).fillFrame
        g.addr (64 * linesIn bytes.length) bytes)) ∧
    (s.ownRange vf a 65536 false = true →
      change (.faultArea va a) = .next (s.setTenant vf { s.tenant vf with faultArea := va, faultBase := some a, faultSlot := 0 }))

/-- R162 to R165, R185, R190, R192, R209, R212: the transitions of a lease, at the lender and at the borrower; a lease is released only
once no plane entry and no move names it. The lent range is written as zero when the lease ends, and, by the model's choice, when it
begins (log 87); a range of a tenant's own frames is lent in place and keeps what it holds (log 101). A message of the protocol leaves by
the port that leads to its device, waits while that link retrains, and is lost on a fenced port; one that comes from there is heard
where the port permits tag 0 (log 102). -/
def Obligations.Leases : Prop :=
  ∀ (lease lender borrower deadline base len ftid : Nat) (rdonly : Bool) (b : Borrow) (moves : List EvictMove) (s : State),
    let here := s.module.devId
    let l := s.lease lease
    let gone (u : State) : Prop := (∀ x ∈ u.allEntries, namesLease x.e lender lease = false) ∧
      ∀ m ∈ u.moves, namesLease m.old.toNat lender lease = false
    let becomes (st : LeaseSt) : State := s.setLease lease { l with st := st, since := s.time }
    let zero (u : State) : State := u.zeroRange (4096 * l.base) (4096 * l.len)
    let freed : State := zero ((becomes .free).destroyKeys (1041 + lease))
    let apart (a m : Nat) : Prop := meets (4096 * base) (4096 * len) a m = false
    -- a message to a device can leave or is lost; one from it arrives
    let leaves (d : Nat) : Prop := s.portUp (s.routeTo d) = true ∨ (s.port (s.routeTo d)).fenced = true
    let heard (d : Nat) : Prop := s.portUp (s.routeTo d) = true ∧ 0 ∈ (s.port (s.routeTo d)).permit
    let ready (d : Nat) : Prop := s.lentWaits d lease = false
    let back (u : State) : Prop := (l.peer = none → u = freed) ∧ (l.peer ≠ none → u = becomes .free)
    let gives (i : Instr) (P : State → Prop) : Prop := ∃ u, exec i s = .next u ∧ P u
    let stays (i : Instr) : Prop := exec i s = .next s
    (∀ (u : State) (d : Nat) (m : LeaseMsg),
      (u.portUp (u.routeTo d) = true → u.tell d lease m = u.send (.lease (u.routeTo d) d lease m)) ∧
      (u.portUp (u.routeTo d) = false → u.tell d lease m = u)) ∧
    -- the lender
    (l.st = .free → lease < 256 → borrower < 2048 → 100 ≤ deadline → deadline ≤ 10000 → 1 ≤ len → len ≤ 2 ^ 24 →
      4096 * len * 1000 ≤ 2 ^ 26 * deadline → 4096 * (base + len) ≤ 2 ^ 42 → leaves borrower →
      stays (.leaseOffer lease borrower deadline rdonly base len true) ∧
      ((∀ e ∈ s.leases, e.2.st = .free ∨ apart (4096 * e.2.base) (4096 * e.2.len)) → (∀ r ∈ s.shared, apart r.1 r.2.1) →
        (∀ r ∈ s.retired, apart r.1 r.2) → (∀ e ∈ s.tenants, ∀ b, e.2.tableBase = some b → apart b (2 ^ 20)) →
        (∀ f ∈ s.frames, apart f.addr (64 * f.len)) → s.peerOf base len = none →
        s.offFenced (4096 * base) (4096 * len) (Config.lentSecond base) = true → s.deviceRoom none (64 * len) = true →
        exec (.leaseOffer lease borrower deadline rdonly base len false) s =
          .next ((s.setLease lease ⟨.offered, borrower, deadline, rdonly, base, len, s.time, none⟩).tell borrower lease
            (.offer deadline rdonly base len 0))) ∧
      (∀ v, s.peerOf base len = some v → exec (.leaseOffer lease borrower deadline rdonly base len false) s =
          .next ((s.setLease lease ⟨.offered, borrower, deadline, rdonly, base, len, s.time, some v⟩).tell borrower lease
            (.offer deadline rdonly base len (s.tenant v).ftid)))) ∧
    (l.st = .offered →
      (heard l.borrower →
        (l.peer = none → ready (1041 + lease) →
          exec (.leaseAccept here ⟨lease, base, len, ftid⟩) s = .next (zero ((becomes .active).makeKey (1041 + lease)))) ∧
        (l.peer ≠ none → exec (.leaseAccept here ⟨lease, base, len, ftid⟩) s = .next (becomes .active)) ∧
        exec (.leaseDecline here lease) s = .next (becomes .free)) ∧
      (¬ heard l.borrower → stays (.leaseAccept here ⟨lease, base, len, ftid⟩) ∧ stays (.leaseDecline here lease)) ∧
      (l.since + 10000000 ≤ s.time → exec (.leaseOfferTimeout lease) s = .next (becomes .free)) ∧
      (s.time < l.since + 10000000 → stays (.leaseOfferTimeout lease))) ∧
    (l.st = .active →
      (heard l.borrower → ready 0 → gives (.leaseRelease here lease) back) ∧
      (¬ heard l.borrower → stays (.leaseRelease here lease)) ∧
      (leaves l.borrower → exec (.leaseReclaim here lease) s = .next ((becomes .reclaiming).tell l.borrower lease .reclaim)) ∧
      (¬ leaves l.borrower → stays (.leaseReclaim here lease))) ∧
    (l.st = .reclaiming ∨ l.st = .frozen →
      (heard l.borrower → ready 0 → gives (.leaseAcknowledge here lease) back) ∧
      (¬ heard l.borrower → stays (.leaseAcknowledge here lease))) ∧
    (l.since + 1000 * l.deadline ≤ s.time →
      (l.st = .reclaiming → exec (.firstWindowEnd lease) s = .next (becomes .frozen)) ∧
      (l.st = .frozen → leaves l.borrower →
        exec (.secondWindowEnd here lease) s = .next ((becomes .revoked).tell l.borrower lease .lost))) ∧
    (l.st = .revoked → l.since + s.module.fabricTimeout ≤ s.time → ready 0 → gives (.revokedLeaseFree lease) back) ∧
    (l.st = .revoked → s.time < l.since + s.module.fabricTimeout → stays (.revokedLeaseFree lease)) ∧
    -- the borrower
    (lender ≠ here → s.borrow lender lease = none →
      (heard lender →
        (s.borrows.length < 256 → exec (.leaseAccept lender ⟨lease, base, len, ftid⟩) s =
          .next (({ s with borrows := s.borrows ++ [⟨lender, lease, .active, base, len, ftid, []⟩] } : State).tell
            lender lease (.answer true))) ∧
        (256 ≤ s.borrows.length → exec (.leaseAccept lender ⟨lease, base, len, ftid⟩) s = .next (s.tell lender lease (.answer false))) ∧
        exec (.leaseDecline lender lease) s = .next (s.tell lender lease (.answer false))) ∧
      (¬ heard lender → stays (.leaseAccept lender ⟨lease, base, len, ftid⟩) ∧ stays (.leaseDecline lender lease))) ∧
    (lender ≠ here → s.borrow lender lease = some b → b.st = .active →
      (gone s → leaves lender → exec (.leaseRelease lender lease) s = .next ((s.dropBorrow lender lease).tell lender lease .released)) ∧
      (¬ gone s → stays (.leaseRelease lender lease)) ∧
      (heard lender → exec (.leaseReclaim lender lease) s = .next (s.setBorrow lender lease .reclaiming)) ∧
      (¬ heard lender → stays (.leaseReclaim lender lease))) ∧
    (s.borrow lender lease = some b → b.st ≠ .active →
      (leaves lender → ∀ u, s.evictAll lender lease moves = some u → (gone u → exec (.evictionHandshake lender lease moves) s =
        .next (((((movedPlaces moves ++ b.moved).dedup).foldl (fun x p => x.postDemotion (demotionInfo p.2 lease) (x.coresRunning p.1)) u).dropBorrow
          lender lease).tell lender lease .ack)) ∧
        (¬ gone u → stays (.evictionHandshake lender lease moves))) ∧
      (leaves lender → gone s → b.moved = [] →
        exec (.evictionHandshake lender lease []) s = .next ((s.dropBorrow lender lease).tell lender lease .ack)) ∧
      (¬ leaves lender → stays (.evictionHandshake lender lease moves)) ∧
      (lender ≠ here → heard lender → s.parks = [] → exec (.secondWindowEnd lender lease) s = .next (s.setBorrow lender lease .revoked)))

/-- R11, R160, R163, R190, R191, R203, R209, R210, R334: a lent 64-byte line is read and written, under a bit mask, for its borrower
alone; a write is refused where the lease is read only, and while it is FROZEN; a line that has failed is given to nobody; any other
access is answered as a lease lost; a request of a tag that the port's table does not permit, or of a tenant with tag 0, goes no further,
nor does a signal for no enabled function; one for another device is passed on where its port permits the tag; an access, or a fetch,
unanswered for the requester timeout ends its context; a flit that fails 16 replays makes the link retrain, which fences the port where
it fails and loads routes that avoid it; and rekeying is counted. -/
def Obligations.FabricAndLinks : Prop :=
  ∀ (borrower lease addr port tag ftid fails c id dev out : Nat) (x : CtxId) (ms : List (Byte × Byte)) (ch : Choice)
    (routes : List (Nat × Nat)) (s : State), LogOk s →
    let l := s.lease lease
    let p := s.port port
    let a := addr / 64 * 64
    let lent : Prop := lease < 256 ∧ l.borrower = borrower ∧ (l.st = .active ∨ l.st = .reclaiming ∨ l.st = .frozen) ∧
      4096 * l.base ≤ a ∧ a + 64 ≤ 4096 * (l.base + l.len)
    let lost : Prop := ∃ i, i < 64 ∧ s.lentLost lease (a + i) = true
    let run (wr : Option (List (Byte × Byte))) : Host.Outcome State Fault Refusal := exec (.forwardedAccess ⟨port, tag⟩ borrower lease addr wr) s
    let answers (wr : Option (List (Byte × Byte))) (r : Answer) : Prop := run wr = .next (s.send (.answer borrower r))
    let asks (q : FabricRequest) : Host.Outcome State Fault Refusal := exec (.avdexRequest port tag ftid q ch) s
    let working : Prop := port < 18 ∧ s.module.avdexLink = true ∧ p.fenced = false ∧ p.retrain = false
    let waits (wr : Bool) : Prop := ∃ i, i < 64 ∧
      ((s.lentMain lease (a + i) = true ∧ s.channelWaits (a + i) = true) ∨ (wr = true ∧ s.mustWait (a + i) = true))
    (∀ i, i < 64 → (a + i) / 64 ∈ s.badLines → s.lentLost lease (a + i) = true) ∧
    (working → tag ≠ 0 → tag ∈ p.permit →
      (lent → ¬ lost → ¬ waits false → answers none (.data (s.imageBytes a 64))) ∧
      (lent → ¬ lost → waits false → run none = .next s) ∧
      (lent → ¬ lost → l.rdonly = false → l.st ≠ .frozen → waits true → run (some ms) = .next s) ∧
      (lent → ¬ lost → ¬ waits true → l.rdonly = false → l.st ≠ .frozen → ms.length = 64 →
        ∃ u, run (some ms) = .next u ∧
          u = { s with mem := u.mem, log := u.log, nextSeq := u.nextSeq, counters := u.counters, nodes := u.nodes,
                       domains := u.domains, out := s.out ++ [.answer borrower .ok] } ∧
          (∀ i, i < 64 → u.image (a + i) = if (ms.getD i 0).1 = 0 then s.image (a + i)
            else ((s.newest (a + i) &&& ~~~(ms.getD i 0).1) ||| ((ms.getD i 0).2 &&& (ms.getD i 0).1))) ∧
          ∀ b, (b < a ∨ a + 64 ≤ b) → u.image b = s.image b) ∧
      (lent → l.rdonly = true → answers (some ms) .readOnly) ∧
      (lent → l.rdonly = false → l.st = .frozen → answers (some ms) .refused) ∧
      (lent → lost → answers none .poison ∧ (l.rdonly = false → l.st ≠ .frozen → answers (some ms) .poison)) ∧
      (¬ lent → answers none .lost ∧ answers (some ms) .lost) ∧
      (∀ wr, asks (.line borrower lease addr wr) = run wr) ∧
      (∀ name fail v, s.functionOf ftid tag = some v →
        asks (.event name fail) = .next ((s.signals [⟨v, name, fail⟩]).send (.accepted port tag))) ∧
      (∀ name fail asker, s.functionOf ftid tag = none → let refused := Host.Outcome.next (s.send (.refusedAt port tag))
        asks (.event name fail) = refused ∧ asks (.fields asker dev addr) = refused ∧
        asks (.object asker s.module.devId lease addr) = refused) ∧
      (∀ asker v, s.functionOf ftid tag = some v →
        (s.launchAt v dev addr = none → asks (.fields asker dev addr) = .next (s.send (.answer asker .lost))) ∧
        (∀ f, s.launchAt v dev addr = some f → asks (.fields asker dev addr) = .next (s.send (.answer asker (.data f.info)))) ∧
        (s.ownBarrier v addr = false → asks (.object asker s.module.devId lease addr) = .next (s.send (.answer asker .lost))))) ∧
    (working → tag = 0 ∨ tag ∉ p.permit → ∀ wr, run wr = .next (s.send (.refusedAt port tag))) ∧
    (working → ∀ q, tag ∉ p.permit ∨ (tag = 0 ∧ isTransit q = false) → asks q = .next (s.send (.refusedAt port tag))) ∧
    (working → tag ∈ p.permit → let o := s.port out
      (out < 18 → o.fenced = false → o.retrain = false → tag ∈ o.permit → asks (.transit out) = .next (s.send (.transit out tag))) ∧
      (18 ≤ out ∨ o.fenced = true ∨ o.retrain = true ∨ tag ∉ o.permit → asks (.transit out) = .next (s.send (.refusedAt port tag)))) ∧
    (¬ working → ∀ q wr, asks q = .next s ∧ run wr = .next s) ∧
    (let late (fs : List Fwd) : Prop := ∃ f ∈ fs, f.ans = .none ∧ f.sent + s.module.fabricTimeout ≤ s.time
     let ends (fs : List Fwd) : Prop :=
       (late fs → exec (.fabricRequesterTimeout c x id) s = .next (s.contextRung (s.coreAt c).team 6 8 (s.teamOf c).addr.toNat [])) ∧
       (¬ late fs → exec (.fabricRequesterTimeout c x id) s = .next s)
     (∀ o, s.opAt c x id = some o → ends o.lines) ∧ (s.opAt c x id = none → ends (s.ctxAt c x).lines)) ∧
    (working →
      (fails < 16 → exec (.flitReplay port fails) s = .next ((s.setPort port { p with fails := 0 }).countError 7 0 0 4 none port)) ∧
      (16 ≤ fails → exec (.flitReplay port fails) s = .next (s.setPort port { p with fails := 16, retrain := true }))) ∧
    (p.retrain = true →
      exec (.avdexLinkRetrain port true routes) s =
        .next ((s.setPort port { p with fails := 0, retrain := false }).countError 7 1 0 4 none port) ∧
      exec (.avdexLinkRetrain port false routes) s =
        .next (((s.setPort port { p with retrain := false, fenced := true }).countError 7 2 0 4 none port).loadRoutes routes)) ∧
    (let ps := s.routes.get [] dev
     (out ∈ ps → (s.port out).fenced = false → (s.loadRoutes [(dev, out)]).routeTo dev = out) ∧
     (out ∉ ps ∨ (s.port out).fenced = true → (s.loadRoutes [(dev, out)]).routeTo dev = s.routeTo dev) ∧
     ((∃ q ∈ ps, (s.port q).fenced = false) → s.routeTo dev ∈ ps ∧ (s.port (s.routeTo dev)).fenced = false)) ∧
    exec (.linkRekey port) s = .next (s.setPort port { p with rekeys := p.rekeys + 1 })

/-! ### Partitions, tenants, trust and management (R13, R14, R18 to R25, R177 to R192) -/

/-- R177, R178, R183, R185, R188 to R190: a descriptor that breaks R177 is refused, one for a partition with a DISPATCHED task is
held, and any other takes effect; a held write takes effect once no task is DISPATCHED; a tenant control word that breaks R178 is
refused, and one that does not takes effect, a first enabled tenant's domain getting its key and a cleared EN ending the slice; a
way register write drops the way's lines; the port table permits or bars a tag; and a tenant that is removed is no longer
dispatched, and once nothing of it runs, its keys are destroyed and its frames free, and the cores that last ran it are to be zeroed
for the next tenant (log 61). -/
def Obligations.PartitionsAndTenants : Prop :=
  ∀ (n vf way port tag : Nat) (d : PartDesc) (w : Word) (r : Lane) (permit : Bool) (s : State),
    let p := s.part n
    let t := s.tenant vf
    let applied : State := State.tdispFailAll (s.functionsWith (fun t => t.part == n)) (s.setPart n ⟨d, none⟩)
    let off : Word := t.word &&& ~~~0x10000#64
    (descBad d = true ∨ s.descClash n d = true ∨ 64 ≤ n → exec (.partitionDescriptorWrite n d) s = .next s) ∧
    (n < 64 → descBad d = false → s.descClash n d = false →
      (PartDesc.valid p.desc = true → s.partBusy n = true →
        exec (.partitionDescriptorWrite n d) s = .next (s.setPart n { p with held := some d })) ∧
      (PartDesc.valid p.desc = false ∨ s.partBusy n = false → p.desc ≠ d →
        exec (.partitionDescriptorWrite n d) s = .next applied)) ∧
    (p.held = some d → s.descClash n d = false →
      (s.partBusy n = false → p.desc ≠ d → exec (.partitionWriteEffect n) s = .next applied) ∧
      (s.partBusy n = true → exec (.partitionWriteEffect n) s = .next s)) ∧
    (vf < 1024 → t.en = true → t.moves w = true → t.frozen = false → exec (.tenantControlWordWrite vf w) s = .next s) ∧
    (vf < 1024 → s.wordRefused vf w = false → t.shmask = (ofWord w).shmask →
      exec (.tenantControlWordWrite vf w) s = .next
        ((if (ofWord w).en ∧ (s.domains.get {} (vf + 1)).held = false then s.makeKey (vf + 1) else s).setTenant vf
          { t with word := w, slice := t.slice && (ofWord w).en })) ∧
    (way < 16 → field r.toNat 11 21 = 0 → s.way way ≠ r →
      (wayExcl r = true → ∀ e ∈ s.tenants, e.1 ≠ wayOwner r → bitAt e.2.ways way = false) →
      exec (.wayRegisterWrite way r) s = .next (State.tdispFailAll (s.functionsWith (fun t => bitAt t.ways way))
        { s with cache := s.cache.filter (fun l => l.way != way), ways := s.ways.set way r })) ∧
    (port < 18 → tag < 4096 → ∃ u, exec (.portPartitionTableWrite port tag permit) s = .next u ∧
      u = s.setPort port { s.port port with permit := (u.port port).permit } ∧ ((u.port port).permit.contains tag = permit) ∧
      ∀ k, k ≠ tag → (u.port port).permit.contains k = (s.port port).permit.contains k) ∧
    (s.tenantOver vf = false →
      exec (.tenantRemoval vf) s = .next (s.setTenant vf { t with word := off, stopping := true, slice := false })) ∧
    (s.tenantOver vf = true → ∃ u, exec (.tenantRemoval vf) s = .next u ∧
      u.tenant vf = { t with word := off, stopping := false, slice := false, held := [], away := [], lines := [], faultArea := 0,
                             faultBase := none, faultSlot := 0 } ∧
      (u.domains.get {} (vf + 1)).held = false ∧ u.frames = s.frames.filter (fun f => f.vf != vf) ∧
      ∀ c, ((s.coreAt c).lastVf = some vf → (u.coreAt c).lastVf = none ∧ (u.coreAt c).clean = false) ∧
        ((s.coreAt c).lastVf ≠ some vf → u.coreAt c = s.coreAt c))

/-- R181 to R184: TDISP and IDE key-management messages are answered in a session of the I/O die; LOCK moves a function under TDISP
from UNLOCKED to LOCKED, START from LOCKED to RUN, setting EN, and STOP returns it to UNLOCKED once nothing of its tenant runs; an
error moves a function with frozen grants to ERROR and stops its work; and a die answers SPDM requests once it has its identity,
with the algorithms, the capabilities and the signed measurements of its index list, a session opening with a finish that follows a
key exchange. -/
def Obligations.TrustMessages : Prop :=
  ∀ (vf stream die slot i : Nat) (cause : TdispCause) (req : IdeReq) (s : State),
    let t := s.tenant vf
    let sends (i : Instr) (m : Msg) : Prop := exec i s = .next (s.send m)
    (4 ∈ s.module.sessions →
      sends (.getTdispVersion vf) (.tdispVersion vf) ∧ sends (.getTdispCapabilities vf) (.tdispCapabilities vf) ∧
      sends (.getDeviceInterfaceState vf) (.tdispState vf t.tdisp) ∧
      sends (.getDeviceInterfaceReport vf) (.tdispReport vf t.word (s.part t.part).desc
        (((List.range 16).filter (fun i => bitAt t.ways i)).map (fun i => (i, s.way i))) ((List.range 16).filter (fun i => bitAt t.shmask i))) ∧
      (t.tdispOn = true → t.tdisp = .unlocked →
        exec (.lockInterface vf) s = .next ((s.setTenant vf { t with tdisp := .locked }).send (.tdispDone vf true))) ∧
      (t.tdispOn = true → t.tdisp = .locked → exec (.startInterface vf) s =
        .next (((if (s.domains.get {} (vf + 1)).held = false then s.makeKey (vf + 1) else s).setTenant vf
          { t with tdisp := .run, word := t.word ||| 0x10000#64 }).send (.tdispDone vf true))) ∧
      (t.tdisp ≠ .unlocked → sends (.lockInterface vf) (.tdispDone vf false)) ∧
      (t.tdisp ≠ .locked → sends (.startInterface vf) (.tdispDone vf false)) ∧
      (t.tdispOn = false → sends (.stopInterface vf) (.tdispDone vf false)) ∧
      (t.tdispOn = true → s.tenantOver vf = false →
        exec (.stopInterface vf) s = .next (s.setTenant vf { t with stopping := true, slice := false })) ∧
      (t.tdispOn = true → s.tenantOver vf = true → ∃ u, exec (.stopInterface vf) s = .next u ∧ u.out = s.out ++ [.tdispDone vf true] ∧
        u.tenant vf = { t with tdisp := .unlocked, stopping := false, slice := false, held := [], away := [], lines := [],
                               faultArea := 0, faultBase := none, faultSlot := 0 } ∧
        (u.domains.get {} (vf + 1)).held = false) ∧
      (stream ≤ 255 → ∃ u, exec (.ideKm stream vf req) s = .next u ∧ u.out = s.out ++ [.ide stream req] ∧
        u.tenant vf = (match req with
          | .keySetGo => { t with ide := stream }
          | .keySetStop => { t with ide := 0 }
          | _ => t))) ∧
    (4 ∉ s.module.sessions →
      ∀ i, i ∈ [Instr.getTdispVersion vf, .getTdispCapabilities vf, .getDeviceInterfaceState vf, .getDeviceInterfaceReport vf,
        .lockInterface vf, .startInterface vf, .ideKm stream vf req] → exec i s = .next s) ∧
    (t.tdispOn = true → t.tdisp = .locked ∨ t.tdisp = .run → s.queuesOf vf = [] →
      exec (.tdispError vf cause) s = .next (s.setTenant vf { t with tdisp := .error, slice := false })) ∧
    (die < 5 → s.module.identity = false → ∀ q, sends (.spdmRequest die q) (.spdmError die)) ∧
    (die < 5 → s.module.identity = true →
      sends (.spdmRequest die .version) (.spdmVersions die [12, 13]) ∧ sends (.spdmRequest die .capabilities)
        (.spdmCapabilities die [.cert, .chal, .measSigned, .keyExchange, .encrypt, .authenticate]) ∧
      sends (.spdmRequest die .algorithms) (.spdmAlgorithms die [.ecdsaBrainpool384, .sha384, .dheBrainpool384, .aes256Gcm]) ∧
      sends (.spdmRequest die .digests) (.spdmCertificate die 0) ∧
      sends (.spdmRequest die (.certificate slot)) (if slot = 0 then .spdmCertificate die 0 else .spdmError die) ∧
      sends (.spdmRequest die (.challenge slot)) (if slot = 0 then .spdmChallenge die 0 else .spdmError die) ∧
      (∀ m, s.measurement die i = some m → sends (.spdmRequest die (.measurement i)) (.spdmMeasurement die i m (Config.sign die (i :: m)))) ∧
      (s.measurement die i = none → sends (.spdmRequest die (.measurement i)) (.spdmError die)) ∧
      (∃ u, exec (.spdmRequest die .keyExchange) s = .next u ∧ die ∈ u.module.exchanged ∧ u.module.sessions = s.module.sessions) ∧
      (die ∈ s.module.exchanged → ∃ u, exec (.spdmRequest die .finish) s = .next u ∧ die ∈ u.module.sessions ∧ die ∉ u.module.exchanged) ∧
      (die ∉ s.module.exchanged → sends (.spdmRequest die .finish) (.spdmError die)) ∧
      (∃ u, exec (.spdmRequest die .endSession) s = .next u ∧ die ∉ u.module.sessions))

/-- R6, R14, R18, R20 to R25, R145: power-on, a device reset and a thermal trip leave everything as after power-on but the timer, the
module's fuses, device id and log, and its image, to which a waiting update has been applied (on a trip too, by the model's choice, log 90);
a stage that is done in time, with an image the boot ROM accepts, gives way to the next, stage 1 leaving the host link up, stage 4 memory
zero and stage 5 the Avdex links up, and any other end puts the module into stage 15 with its code; power and temperature hold the clock
down; a setting takes a value within its range alone; and the driver loads routes in stage 6, and later (log 4), a next port at a time. -/
def Obligations.ManagementAndBringUp : Prop :=
  ∀ (v vf q dev die group : Nat) (ok hold : Bool) (code : BitVec 16) (image : FwImage) (s : State),
    let m := s.module
    let n := m.stage
    let after : State :=
      { agenda := s.agenda, steps := s.steps, time := s.time, cycles := s.cycles, out := s.out,
        module := { fuseMin := m.fuseMin, image := m.update.getD m.image, devId := m.devId, nvLog := m.nvLog, stageAt := s.time } }
    let sets (i : Instr) (m' : Module) : Prop := exec i s = .next { s with module := m' }
    exec .powerOn s = .next after ∧ exec .deviceReset s = .next after ∧ exec (.thermalTrip code) s = .next (after.send (.report code)) ∧
    (n < 7 → s.stageLate = false →
      ((n = 1 → m.image.signed = true ∧ m.fuseMin ≤ m.image.security) →
        ∃ u, exec (.bringUpStageComplete true code) s = .next u ∧ u.module.stage = n + 1 ∧
          u.module.stageAt = s.time ∧ u.module.errcode = m.errcode ∧ (n = 2 → u.module.identity = true) ∧
          u.module.hostLink = (m.hostLink || n == 1) ∧ u.module.avdexLink = (m.avdexLink || n == 5) ∧
          (n = 4 → ∀ a, u.image a = 0) ∧ (n ≠ 4 → u.mem = s.mem ∧ u.log = s.log)) ∧
      (n = 1 → m.image.signed = false ∨ m.image.security < m.fuseMin →
        sets (.bringUpStageComplete true code) { m with stage := 15, stageAt := s.time, errcode := code }) ∧
      sets (.bringUpStageComplete false code) { m with stage := 15, stageAt := s.time, errcode := code }) ∧
    (n < 7 → s.stageLate = true →
      sets (.bringUpStageComplete ok code) { m with stage := 15, stageAt := s.time, errcode := code } ∧
      sets (.bringUpStageTimeout code) { m with stage := 15, stageAt := s.time, errcode := code }) ∧
    (7 ≤ n → exec (.bringUpStageComplete ok code) s = .next s ∧ exec (.bringUpStageTimeout code) s = .next s) ∧
    sets (.supplyDroop group) { m with stretched := m.stretched.filter (· != group) ++ [group] } ∧
    sets (.dieOverTemperature die) { m with hotDies := m.hotDies.filter (· != die) ++ [die] } ∧
    sets (.dieTemperatureRecovery die) { m with hotDies := m.hotDies.filter (· != die) } ∧
    sets (.powerLimitHold hold) { m with powerHold := hold } ∧
    sets (.firmwareUpdateWrite image) { m with update := some image } ∧
    sets (.managementMessage (.firmwareUpdate image)) { m with update := some image } ∧
    exec (.managementMessage .diagnostics) s = .next (s.send (.report m.errcode)) ∧
    (n < 16 → exec (.managementMessage .readDevstat) s = .next (s.send (.devstat
      (m.errcode ++ (BitVec.ofNat 11 0 ++ (BitVec.ofBool (m.powerHold || !m.hotDies.isEmpty) ++ BitVec.ofNat 4 n)))))) ∧
    (1200 ≤ v → v ≤ 3200 → v % 25 = 0 → sets (.powerLimitWrite v) { m with powerLimit := v }) ∧
    (v < 1200 ∨ 3200 < v ∨ v % 25 ≠ 0 → exec (.powerLimitWrite v) s = .next s) ∧
    (10000 ≤ v → v ≤ 1000000 → sets (.registerWrite .quantum v) { m with quantum := v }) ∧
    (v < 10000 ∨ 1000000 < v → exec (.registerWrite .quantum v) s = .next s) ∧
    (v < 1000000 ∨ 1000000000 < v → exec (.registerWrite (.fillAge vf) v) s = .next s) ∧
    (1000000 ≤ v → v ≤ 1000000000 →
      exec (.registerWrite (.fillAge vf) v) s = .next (s.setTenant vf { s.tenant vf with fillAge := v })) ∧
    (10000000 ≤ v → v ≤ 1000000000 → sets (.registerWrite .fabricTimeout v) { m with fabricTimeout := v }) ∧
    (v < 10000000 ∨ 1000000000 < v → exec (.registerWrite .fabricTimeout v) s = .next s) ∧
    (1 ≤ v → v ≤ 24 → sets (.registerWrite .patrolBound v) { m with patrolBound := v }) ∧
    (v < 1 ∨ 24 < v → exec (.registerWrite .patrolBound v) s = .next s) ∧
    sets (.registerWrite .stageBound v) { m with stageBound := some v } ∧
    (q < 4096 → 1 ≤ v → v ≤ 3 → exec (.registerWrite (.queueClass q) v) s = .next (s.setQueue q { s.queue q with cls := v })) ∧
    (4096 ≤ q ∨ v < 1 ∨ 3 < v → exec (.registerWrite (.queueClass q) v) s = .next s) ∧
    (v < 18 → n = 6 ∨ n = 7 → exec (.registerWrite (.route dev) v) s =
      .next { s with routes := s.routes.set dev ((s.routes.get [] dev).filter (· != v) ++ [v]) }) ∧
    (18 ≤ v ∨ (n ≠ 6 ∧ n ≠ 7) → exec (.registerWrite (.route dev) v) s = .next s) ∧
    exec (.registerWrite (.readOnly q) v) s = .next s

/-! ### Errors, the patrol and the reset ladder (R195 to R212) -/

/-- R186, R196 to R198, R202 to R208: an error is counted on its die and its tenant and recorded in the ring; a channel transfer that
fails its 8th replay makes the channel retrain, which is fenced, its frames' entries POISONED and its capacity gone from the allotments
(log 91), where that fails; a corrected error rewrites its line; a second read that passes is a transient error, and one that does not
loses the line, which stays bad; an error that the patrol meets is its key domain's tenant's; a tag parity error drops its way's copy; a
patrol pass gives every held domain a new newest version, and each step takes the next block, one of a version older than its domain's
target going to that with its counters zero. What any of them writes waits while the counters over it are spent (R206). -/
def Obligations.ErrorsAndPatrol : Prop :=
  ∀ (channel fails line die cls outcome rung res block way : Nat) (who : Option Nat) (l : CacheLine) (s : State),
    let spent := s.poisonWaits false (fun a => a / 64 == line)
    let c := s.channel channel
    let cdie := channelDie channel
    let n := min (2 ^ 64 - 1) (s.errs.get 0 (16 * die + cls) + 1)
    let owner : Option Nat := let d := s.domainOf (64 * line); if 1 ≤ d ∧ d ≤ 1024 then some (d - 1) else none
    (let u := s.countError cls outcome rung die who res
     u.errs.get 0 (16 * die + cls) = n ∧ u.ring.get {} s.ringNext = ⟨cls, outcome, rung, die, who.getD 0xFFFF, res, s.time, n⟩ ∧
       u.ringNext = (s.ringNext + 1) % 4096 ∧
       (∀ v, who = some v → (u.tenant v).errs.get 0 cls = min (2 ^ 64 - 1) ((s.tenant v).errs.get 0 cls + 1))) ∧
    (c.fenced = false → c.retrain = false →
      (fails < 8 → exec (.hbmLinkError channel fails) s =
        .next ((s.setChannel channel { c with fails := 0 }).countError 1 0 0 cdie none channel)) ∧
      (8 ≤ fails → exec (.hbmLinkError channel fails) s = .next (s.setChannel channel { c with fails := 8, retrain := true }))) ∧
    (c.retrain = true →
      exec (.hbmChannelRetrain channel true) s =
        .next ((s.setChannel channel { c with fails := 0, retrain := false }).countError 1 1 0 cdie none channel) ∧
      (s.poisonWaits true (onChannel channel) = true → exec (.hbmChannelRetrain channel false) s = .next s) ∧
      (let x := (s.setChannel channel { c with retrain := false, fenced := true }).loseLines
         (fun l => Config.cacheChannel l.way l.addr == channel)
       s.poisonWaits true (onChannel channel) = false → exec (.hbmChannelRetrain channel false) s =
         .next (((x.poisonWhere true (onChannel channel)).shrinkAllots channel (x.entriesWith true (onChannel channel))).countError 1 2 0
           cdie none channel))) ∧
    let whose (m : MetBy) : Option Nat := match m with
      | .access v => v
      | .patrol => owner
      | .way _ => none
    (die < 5 → ∀ m pass,
      (s.patrol.running = false → s.mustWait (64 * line) = false → spent = false → exec (.memoryErrorReread 2 line die m pass) s =
        .next ((s.bumpLine (64 * line)).countError 2 0 0 die (whose m) (64 * line))) ∧
      (s.mustWait (64 * line) = true → exec (.memoryErrorReread 2 line die m pass) s = .next s)) ∧
    (die < 5 → cls = 3 ∨ cls = 4 → ∀ m, let v := whose m
      (s.readFails line v = false →
        exec (.memoryErrorReread cls line die m true) s = .next (s.countError cls 0 0 die v (64 * line))) ∧
      (spent = true → exec (.memoryErrorReread cls line die m false) s = .next s) ∧
      ∀ pass, (spent = false → pass = false ∨ s.readFails line v = true →
        ∃ u, exec (.memoryErrorReread cls line die m pass) s = .next u ∧ line ∈ u.badLines ∧
          u = ({ s.poisonWhere false (fun a => a / 64 == line) with badLines := u.badLines } : State).countError cls 1 0 die v
            (64 * line))) ∧
    (5 ≤ die → ∀ m pass refetch reread, exec (.memoryErrorReread cls line die m pass) s = .next s ∧
      exec (.cacheLineRefetch line die who refetch reread) s = .next s) ∧
    (die < 5 → s.cache.find? (fun l => l.way == way && l.addr / 4096 == 64 * line / 4096) = some l → wayExcl (s.way l.way) = false →
      exec (.memoryErrorReread 5 line die (.way way) false) s =
        .next ((s.loseLines (· == l)).countError 5 0 0 die none (64 * line))) ∧
    (let u : State := { s with cache := s.cache.filter (fun l => l.addr / 4096 != 64 * line / 4096 || !l.dirty.isEmpty) }
     let met := if who.isSome then who else owner
     die < 5 → exec (.cacheLineRefetch line die who true false) s = .next (u.countError 3 0 0 die met (64 * line)) ∧
       (s.readFails line met = false → exec (.cacheLineRefetch line die who false true) s =
         .next ((u.countError 3 0 0 die met (64 * line)).countError 3 0 0 4 met (64 * line))) ∧
       (spent = false → exec (.cacheLineRefetch line die who false false) s =
         .next ((u.countError 3 1 0 die met (64 * line)).lineLost 3 line 4 met)) ∧
       (spent = true → exec (.cacheLineRefetch line die who false false) s = .next s)) ∧
    (s.patrol.running = false → s.fourHeld = false → ∃ u, exec .patrolPassStart s = .next u ∧ u.patrol.running = true ∧ u.patrol.next = 0 ∧
      ∀ d, d < 1297 → let k := s.domains.get {} d
        u.domains.get {} d = (if k.held then { k with newest := k.newest + 1 } else k) ∧
        u.patrol.target.get 0 d = (u.domains.get {} d).newest) ∧
    (s.patrol.running = true ∨ s.fourHeld = true → exec .patrolPassStart s = .next s) ∧
    (s.patrol.running = true → block = s.patrol.next →
      let b := s.counters.get {} block
      let target := s.patrol.target.get 0 b.dom
      (2048 * (block + 1) < 2 ^ 42 → (∀ i, i < 32 → s.patrolFails (32 * block + i) = false) → s.fullNode block = none →
        ∃ u, exec (.patrolStep block) s = .next u ∧ u.patrol.next = block + 1 ∧
          u.counters.get {} block = (if b.ver < target then { dom := b.dom, ver := target } else b) ∧
          (∀ k, k ≠ block → u.counters.get {} k = s.counters.get {} k) ∧
          ∀ y ∈ u.cache, ∀ i ∈ y.dirty, (y.addr + 64 * i) / 2048 ≠ block) ∧
      (b.ver < target → s.nodeWaits block = true → exec (.patrolStep block) s = .next s))

/-- R199 to R201, R211: the queue rung disables its queue; the context rung stops the contexts of a task, frees its cores, and makes
its record FAILED with the cause, written first; where a rung already acts it starts none; the engine rung resets and tests the engines
of cores, for the rung that waits for that or as a new one, and a core that fails is withdrawn and the hypervisor told; the partition
rung ends the tasks of the partition's cores, resets and zeroes them; the device rung resets the module, with a record in the
non-volatile log; a rung that has taken effect is over and recorded, with the error that started it, where one did, its die and the time
it was detected (log 23); and one that has not within its bound gives way to the next, with that error. -/
def Obligations.ResetLadder : Prop :=
  ∀ (q team loc c n i : Nat) (ok : Bool) (cause : Lane) (tk : Tk) (bs : List Byte) (r : Rung) (ch : Choice) (s : State),
    let tm := s.teamAt team
    let rest : State := { s with rungs := s.rungs.eraseIdx i }
    let late (ns : Nat) : Prop := s.rungs[i]? = some r ∧ r.start + ns ≤ s.time ∧ s.rungDone r = false
    let cs := (List.range 256).filter (fun c => PartDesc.has (s.part n).desc c)
    let clears (u : State) (r : Rung) : State :=
      let cs := (List.range 256).filter (fun c => PartDesc.has (u.part n).desc c)
      let v := ((u.endCores cs).resetAll cs).zeroAll cs
      { v with rungs := v.rungs ++ [{ r with kind := 4, target := n, cores := cs, start := u.time, tasks := r.tasks ++ u.tasksOn cs }] }
    let restarts (log : ErrRec) : State :=
      let m := s.module
      { agenda := s.agenda, steps := s.steps, time := s.time, cycles := s.cycles, out := s.out,
        module := { fuseMin := m.fuseMin, image := m.update.getD m.image, devId := m.devId, nvLog := m.nvLog ++ [log], stageAt := s.time } }
    ((∀ k ∈ s.tasks, ∀ l, s.launch k.launch = some l → l.queue ≠ q) → ∃ u, exec (.queueRung q) s = .next u ∧
      u.queue q = { s.queue q with enabled := false, st := .empty, unread := [], doomed := (s.queue q).doomed ++ (s.queue q).unread } ∧
      u = { s with queues := u.queues, rungs := s.rungs ++ [{ kind := 1, target := q, die := 4, start := s.time, at_ := s.time }] }) ∧
    (let s0 : State := { (s.releaseCores tm.cores).dropWaiters tm.cores with teams := s.teams.erase team }
     let s1 := s0.writeDevice (cellsFrom (loc + 72) (leBytes 4 cause.toNat))
     tm.cores ≠ [] → s.rungOn team tm.cores = false → tm.stolen = none → s.findTk tm.launch tm.idx = some tk →
      LiesAt s0 tm.vf tk.addr .read 128 loc → bs = s0.imageBytes loc 128 → leAt bs 0 8 % 16 = 2 →
      LiesAt s0 tm.vf (s0.recAt tm.vf tk.addr 72) .write 4 (loc + 72) → LiesAt s1 tm.vf tk.addr .both 8 loc →
      s1.imageNat loc 8 = leAt bs 0 8 →
      let d := (swapped s1 loc (wordWith s1 loc 5)).countTask tk false
      let s2 := d.1.signals (sigsOf tm.vf bs true ++ d.2)
      exec (.contextRung team cause ch) s =
        .next { s2 with rungs := s2.rungs ++ [{ kind := 2, target := team, cores := tm.cores, die := tm.cores.headD 0 / 64,
                                                start := s.time, vf := some tm.vf, res := tm.addr.toNat, at_ := s.time, tasks := [(tm.launch, tm.idx)] }] }) ∧
    (tm.cores = [] ∨ s.rungOn team tm.cores = true → exec (.contextRung team cause ch) s = .next s) ∧
    (s.teamOf c = {} →
      let k := (s.coreAt c).resetEngines
      let tests (rungs : List Rung) : Prop := ∃ u, exec (.engineRung [(c, ok)]) s = .next u ∧ (∀ d, d ≠ c → u.coreAt d = s.coreAt d) ∧
        u.coreAt c = (if ok then { k with fenced := false } else { k with withdrawn := true }) ∧
        u = { s with cores := u.cores, rungs := rungs, out := if ok then s.out else s.out ++ [.coreWithdrawn c] }
      ((∀ x ∈ s.rungs, x.kind ≠ 3) → tests (s.rungs ++ [{ kind := 3, target := c, cores := [c], die := c / 64, start := s.time,
                                                           at_ := s.time, tasks := s.tasksOn [c], tested := true }])) ∧
      (s.rungs = [r] → r.kind = 3 → r.tested = false → r.cores = [c] → tests [{ r with tested := true }])) ∧
    (∀ c, cs.head? = some c → exec (.partitionRung n) s = .next (clears s { die := c / 64, at_ := s.time })) ∧
    exec .deviceRung s = .next (restarts ⟨0, 1, 5, 4, 0xFFFF, 0, s.time, 0⟩) ∧
    (s.rungs[i]? = some r →
      ((∀ e ∈ r.tasks, ∀ t, s.findTk e.1 e.2 = some t → t.st ≠ .running ∧ ∀ a b c, t.st ≠ .owed a b c) →
        (r.kind = 1 → s.queueCleared r.target = true) → (r.kind = 3 → r.tested = true) →
        exec (.rungComplete i) s =
          .next (rest.writeRecord ⟨r.cls, r.outcome, r.kind, r.die, r.vf.getD 0xFFFF, r.res, r.at_, r.count⟩)) ∧
      (r.kind = 3 → r.tested = false → exec (.rungComplete i) s = .next s) ∧
      ((∃ e ∈ r.tasks, ∃ t, s.findTk e.1 e.2 = some t ∧ (t.st = .running ∨ ∃ a b c, t.st = .owed a b c)) →
        exec (.rungComplete i) s = .next s)) ∧
    (late 10000000 → r.kind = 2 → exec (.rungTimeout i) s =
      .next (let u := (rest.endCores r.cores).resetAll r.cores
             { u with rungs := u.rungs ++ [{ r with kind := 3, target := r.cores.headD 0, start := s.time, tested := false,
                                                    tasks := r.tasks ++ rest.tasksOn r.cores }] })) ∧
    (late 50000000 → r.kind = 3 → s.partsOf r.cores = [n] → exec (.rungTimeout i) s = .next (clears rest r)) ∧
    (late 200000000 → r.kind = 4 → exec (.rungTimeout i) s =
      .next (restarts ⟨r.cls, r.outcome, 5, r.die, r.vf.getD 0xFFFF, r.res, r.at_, r.count⟩)) ∧
    (s.rungs[i]? = some r → s.rungDone r = true ∨ s.time < r.start + 1000000 → exec (.rungTimeout i) s = .next s)

/-! ### Events, steps, decoding, and what every state keeps -/

/-- R139, R147, R148: a signal adds one to an event's count, up to 65,535, and a failure is kept; below the target nothing else changes; a
signal that satisfies or fails the event empties its waiters, in slots and chain, and every waiting operation learns 0 or, on a failed
event, 1. A WAITING task that waits for it alone, or for events that are all satisfied now, has its record swapped to READY and is READY
from now on; on a failed event its record becomes FAILED with cause 0x07, written first, and the task is counted; a task whose other
events are not satisfied waits on. Of several waiters the first wakes first, and the signals that their tasks give follow. -/
def Obligations.EventSignals : Prop :=
  ∀ (v name l i loc : Nat) (fail : Bool) (t : Tk) (bs : List Byte) (s : State), name ≠ 0 →
    let e := s.event v name
    let e' : Event := { e with count := min 65535 (e.count + 1), failed := e.failed || fail }
    let u := s.signals [⟨v, name, fail⟩]
    let ws := e.slots ++ e.chain
    let status : Word := if e'.failed then 1 else 0
    let s0 : State := (s.setEvent v name { e' with slots := [], chain := [] }).setTenant v
      { s.tenant v with chainRoom := (s.tenant v).chainRoom + e.chain.length }
    let names := (waitNames bs).filter (· != 0)
    (e'.failed = false → e'.count < e.target → u = s.setEvent v name e') ∧
    (e'.failed = true ∨ e.target ≤ e'.count →
      ((∀ w ∈ ws, ∃ c x id, w = .op c x id) →
        u.event v name = { e' with slots := [], chain := [] } ∧ u.tasks = s.tasks ∧
        (u.tenant v).chainRoom = (s.tenant v).chainRoom + e.chain.length ∧
        (∀ d, (∀ x id, .op d x id ∉ ws) → u.coreAt d = s.coreAt d) ∧
        ∀ c x id, .op c x id ∈ ws → ∀ o ∈ (s.ctxAt c x).ops, o.id = id → o.woken = none →
          { o with woken := some status } ∈ (u.ctxAt c x).ops) ∧
      (∀ w r, ws = w :: r → let first := s0.wakeAll v status [w]
        let rest := first.1.wakeAll v status r
        u = rest.1.signalRun (3 * s.tasks.length + s.launches.length + 1) (first.2 ++ rest.2)) ∧
      (ws = [.task l i] → s.findTk l i = some t → t.st = .waiting → LiesAt s0 v t.addr .read 128 loc → bs = s0.imageBytes loc 128 →
        leAt bs 0 8 % 16 = 0 →
        ((∀ n ∈ names, (s0.event v n).failed = false ∧ (s0.event v n).target ≤ (s0.event v n).count) →
          LiesAt s0 v t.addr .both 8 loc → recordMalformed bs = false →
          let s1 := swapped s0 loc (wordWith s0 loc 1)
          u = s1.setTk (s1.readyTk t bs)) ∧
        ((∃ n ∈ names, (s0.event v n).failed = true) → LiesAt s0 v (s0.recAt v t.addr 72) .write 4 (loc + 72) →
          let s1 := s0.writeDevice (cellsFrom (loc + 72) (leBytes 4 7))
          LiesAt s1 v t.addr .both 8 loc → s1.imageNat loc 8 = leAt bs 0 8 →
          let d := (swapped s1 loc (wordWith s1 loc 5)).countTask t false
          u = d.1.signalRun (3 * s.tasks.length + s.launches.length + 1) (sigsOf v bs true ++ d.2)) ∧
        ((∀ n ∈ names, (s0.event v n).failed = false) → (∃ n ∈ names, (s0.event v n).count < (s0.event v n).target) →
          u.tasks = s.tasks ∧ u.mem = s0.mem ∧ u.log = s0.log ∧ u.cores = s.cores ∧
          ∀ n ∈ names, (s0.event v n).count < (s0.event v n).target → (s0.event v n).slots.length < 4 →
            .task l i ∈ (u.event v n).slots ++ (s0.event v n).chain)))

/-- R52, R67, R68, R115, R120, R142, R217, log 2: a step lets the group schedulers take cores for the tasks that need them (R142) and time
pass, and takes the next turn of the agenda, after which the device timer looks at the waits with a timeout (R161). A context that can
issue, outside its body end, with the parcels at its pc fetched, runs the instruction they decode to; at an entry offset that must be a code
header, a data header there being a bad entry by the model's reading (log 48); parcels that do not decode, or that cross the innermost body
end, trap as illegal instruction with their word; at its body end the body ends. The turn of a machine step runs that step, but in stage 15
those alone that R20 leaves, as the model reads it (log 97); with no turn listed the issuing context issues, and every other time the
machine takes a turn of its background (log 92). The parcels fetched are those of the code image: those at the byte offset twice the pc from
the image's first position, which the record's +8 names (log 31), each as the context may read it; a fetch leaves no floor for what is read
later (log 70). -/
def Obligations.StepRunsDecoded : Prop :=
  ∀ (c : Nat) (x : CtxId) (r : List Turn) (ps : List Parcel) (i : Instr) (loc : Nat → Nat) (a b : Nat) (s : State),
    let s0 : State := { s.reserve.tick with agenda := r }
    let s1 : State := { s0 with core := c, ctx := x }
    let s2 := s1.setCur { s1.cur with fetched := none, atEntry := false }
    let word : Word := BitVec.ofNat 64 (wordOf ps)
    let fits : Prop := crosses s1.cur.loops s1.pc.toNat ps.length = false
    let first := (ps.headD 0).toNat
    let leaves (t : State) : Prop := step s = .next t.watch
    (s.agenda = .issue c x :: r →
      (s1.canIssue c x = false → leaves s1) ∧
      (s1.canIssue c x = true → s1.atBodyEnd = true → step s = watched (exec .bodyEnd s1)) ∧
      (s1.canIssue c x = true → s1.atBodyEnd = false → s1.fetchNow = .parcels ps → ps ≠ [] →
        (decode (codeBytes ps) = .ok i → fits → (s1.cur.atEntry = true → ∃ h, i = .blockHeader h) → step s = watched (exec i s2)) ∧
        (∀ e, decode (codeBytes ps) = .error e → s1.cur.atEntry = false → leaves (s2.takeTrap 1 word)) ∧
        (¬ fits → s1.cur.atEntry = false → leaves (s2.takeTrap 1 word)) ∧
        (s1.cur.atEntry = true → first / 2 ^ 12 ≠ 15 ∨ first / 2 ^ 10 % 4 = 3 → leaves (s1.takeTrap 4 s1.pc)) ∧
        (s1.cur.atEntry = true → first / 2 ^ 12 = 15 → first / 2 ^ 10 % 4 = 2 → leaves (s1.takeTrap 5 s1.pc)))) ∧
    (s.agenda = .event i :: r →
      (i.hasWord = false → s.module.stage ≠ 15 ∨ inRecovery i = true → step s = watched (exec i s0)) ∧
      (i.hasWord = true ∨ (s.module.stage = 15 ∧ inRecovery i = false) → leaves s0)) ∧
    (s.agenda = .idle c :: r → leaves (s0.idleSlot c)) ∧ (s.agenda = .retire c x a :: r → leaves (s0.retireOp c x a)) ∧
    (s.agenda = .hand a b c :: r → leaves (s0.hand a b c)) ∧
    (s.agenda = [] → let s3 : State := { s with idle := s.idle + 1 }
      (s.idle % 2 = 0 → step s = step { s3 with agenda := [.issue s.core s.ctx] }) ∧
      (s.idle % 2 = 1 → step s = step { s3 with agenda := [s3.reserve.tick.background (s.idle / 2)] })) ∧
    (let tm := s1.teamOf c
     let va := vaAt (BitVec.ofNat 64 (tm.code.toNat % 2 ^ 60)) (vaPos tm.code)
     s1.cur.fetched = none → ps.length = parcelCount first → s1.checkPlane tm.vf va = none →
      (∀ j, j < ps.length →
        s1.findBytes tm.vf va .read ((s1.planeDesc tm.vf va).byteOf (vaPos va) + 2 * (s1.pc.toNat + j)) 2
          = .bytes [.at (loc j), .at (loc j + 1)] ∧
        ps.getD j 0 = BitVec.ofNat 16 (leNat ((s1.readLocs c x 0 [0] [loc j, loc j + 1]).map (·.2)))) →
      s1.fetchNow = .parcels ps)

/-- R52 to R70: words written out from the encodings of the spec decode to the instructions they stand for, one of each class. -/
def Obligations.DecodedWords : Prop :=
  let word (ps : List Parcel) (i : Instr) : Prop := decode (codeBytes ps) = .ok i
  let tail (stream mask scope : Nat) : Tail := ⟨BitVec.ofNat 3 stream, BitVec.ofNat 8 mask, BitVec.ofNat 2 scope, false, false, false⟩
  -- C16: 0, opcode 5, D 5, S 5
  word [0b0_00000_00000_00000] .nop ∧ word [0b0_01000_00101_11111] (.addk 5 31) ∧
  -- S32 R, I and S forms: 10, opcode 8, then the fields of R55
  word [0b10_00000001_00100_0, 0b0101_00110_0000000] (.sub 4 5 6) ∧ word [0x8A48, 0x4678] (.movhi 4 4 0x678) ∧
  word [0x98CC, 0x0002] (.mts 6 2) ∧ word [0b10_01000000_00011_0, 0b0100_111111111110] (.beq 3 4 0xFFE) ∧
  -- headers: 1111, KIND 01, MODE, CSRC, COUNT, LENGTH; and a data header
  word [0b1111_01_1_00_0000010, 0b00_00000000001100] (.blockHeader ⟨true, true, 0, 8, 12⟩) ∧
  word [0xF800, 0x0010] (.dataHeader 16) ∧
  -- V48, L48 and X64, from the reference entries
  word [0xC021, 0x0250, 0x8820] (.vmul ⟨8, 9, 66, 4, false, 2, 0⟩) ∧ word [0xC341, 0x0242, 0x8000] (.vperm ⟨8, 9, 10, 0, false, 0, 0⟩) ∧
  word [0xD032, 0x1803, 0x0020] (.ldD ⟨4, 6, 3, tail 0 1 0⟩) ∧ word [0xD120, 0x0C01, 0x2040] (.stq ⟨0, 3, 1, tail 1 2 0⟩) ∧
  word [0xD520, 0x1000, 0x2030] (.evsig ⟨0, 4, 0, tail 1 1 2⟩) ∧
  word [0xE002, 0x0001, 0x1300, 0x2400] (.mma ⟨2, 0, 0, 0, false, false, 1, 19, 0, 2, false, true⟩) ∧
  -- no instruction: opcode 17 of C16, a non-zero zero field, a V48 format its entry does not accept
  decode (codeBytes [0x4400]) = .error .opcode ∧ decode (codeBytes [0x0001]) = .error .field ∧
  decode (codeBytes [0xC001, 0x0242, 0x80F0]) = .error .field

/-- R52 to R62, R66, R70: every instruction that has a word, with its fields at every value its entry accepts, is read back from the
parcels that encode it, whatever follows them; and parcels that decode begin with the encoding of what they decode to, so each word
has one meaning and no bit of it is dropped. -/
def Obligations.EncodeDecode : Prop :=
  (∀ (i : Instr) (rest : List Byte), i.wf = true → i.hasWord = true → decode (codeBytes (encode i) ++ rest) = .ok i) ∧
  ∀ (ps : List Parcel) (i : Instr), decode (codeBytes ps) = .ok i → i.hasWord = true ∧ encode i <+: ps

/-- Every step keeps memory in its canonical form, and the coherence order of R118: its numbers rise, and each logged write is a
part of one aligned 8 bytes (R129). -/
def Obligations.MemoryInvariant : Prop :=
  ∀ s t : State, MemoryOk s → step s = .next t → MemoryOk t

/-- R19, R20, R23, R115: reset leaves bring-up stage 0, no error code, memory that reads as zero with nothing listed, no context
running, no task, no partition, and no lease; and the invariant of memory holds there. -/
def Obligations.ResetHolds : Prop :=
  let s := State.reset
  MemoryOk s ∧ s.module.stage = 0 ∧ s.module.errcode = 0 ∧ s.module.devstat = 0 ∧ s.mem = [] ∧ (∀ a, s.image a = 0) ∧
  (∀ c x, (s.ctxAt c x).run = .idle ∧ ∀ n, (s.ctxAt c x).reg n = 0) ∧ s.tasks = [] ∧ s.teams = [] ∧
  (∀ n, PartDesc.valid (s.part n).desc = false) ∧ (∀ l, (s.lease l).st = .free) ∧ (∀ v, (s.tenant v).en = false) ∧
  s.ready = false ∧ s.module.powerLimit = 3200 ∧ s.module.quantum = 100000 ∧ s.module.fabricTimeout = 50000000
end

