-- ==== Sys2Proof/Laws/Table.lean ====
section
/-! SUPPORT. What tables and memory answer after they have been written, and that every memory operation keeps the canonical
form. -/

namespace Sys2Proof.Machine

/-! ### Tables -/

@[simp] theorem Tab.get_nil {α : Type} (d : α) (x : Nat) : Tab.get d [] x = d := rfl

/-- A written key reads as what was written. -/
@[simp] theorem Tab.get_set_self {α : Type} (d : α) (m : Tab α) (k : Nat) (v : α) : (m.set k v).get d k = v := by
  induction m with
  | nil => simp [Tab.set, Tab.get]
  | cons e r ih =>
    simp only [Tab.set]
    split
    · simp [Tab.get]
    · split
      · simp [Tab.get]
      · simp [Tab.get, *]

/-- Every other key reads as before. -/
theorem Tab.get_set_ne {α : Type} (d : α) (m : Tab α) {k x : Nat} (v : α) (h : x ≠ k) : (m.set k v).get d x = m.get d x := by
  induction m with
  | nil => simp [Tab.set, Tab.get, h]
  | cons e r ih =>
    simp only [Tab.set]
    split
    · simp [Tab.get, h]
    · split
      · next h2 => subst h2; simp [Tab.get, h]
      · simp only [Tab.get, ih]

/-- Both at once. -/
theorem Tab.get_set {α : Type} (d : α) (m : Tab α) (k x : Nat) (v : α) :
    (m.set k v).get d x = if x = k then v else m.get d x := by
  split
  · next h => subst h; simp
  · next h => exact Tab.get_set_ne d m v h

/-- The last of two writes of one key stands. -/
@[simp] theorem Tab.set_set {α : Type} (m : Tab α) (k : Nat) (v w : α) : (m.set k v).set k w = m.set k w := by
  induction m with
  | nil => simp [Tab.set]
  | cons e r ih =>
    simp only [Tab.set]
    split
    · simp [Tab.set]
    · split
      · simp [Tab.set]
      · next h1 h2 => simp [Tab.set, h1, h2, ih]

/-- A table written with pairs reads, at a key, what the last of them for that key gives. -/
theorem Tab.get_setAll_of_not_mem {α : Type} (d : α) (l : List (Nat × α)) (m : Tab α) (x : Nat)
    (h : ∀ e ∈ l, e.1 ≠ x) : (m.setAll l).get d x = m.get d x := by
  induction l generalizing m with
  | nil => rfl
  | cons e r ih =>
    simp only [Tab.setAll]
    rw [ih _ (fun a ha => h a (by simp [ha])), Tab.get_set_ne d m e.2 (fun hx => h e (by simp) hx.symm)]

/-! ### Memory -/

theorem Memory.read_insert (m : Memory) (a x : Nat) (b : Byte) :
    Memory.read (Memory.insert m a b) x = if x = a then b else Memory.read m x := by
  induction m with
  | nil => simp [Memory.insert, Memory.read]
  | cons e r ih =>
    simp only [Memory.insert]
    split
    · simp [Memory.read]
    · split
      · next h2 => simp only [Memory.read, h2]; split <;> simp_all
      · simp only [Memory.read, ih]; split <;> split <;> simp_all

theorem Memory.read_filter (m : Memory) (a x : Nat) :
    Memory.read (m.filter (fun e => e.1 != a)) x = if x = a then Memory.unlisted else Memory.read m x := by
  induction m with
  | nil => simp [Memory.read]
  | cons e r ih =>
    by_cases h : e.1 = a
    · simp only [List.filter_cons, h, bne_self_eq_false, Bool.false_eq_true, if_false, ih, Memory.read]
      split <;> simp_all
    · simp only [List.filter_cons, bne_iff_ne, ne_eq, h, not_false_eq_true, if_true, Memory.read, ih]
      split <;> split <;> simp_all

/-- A read after a write. -/
theorem Memory.read_write (m : Memory) (a x : Nat) (b : Byte) :
    Memory.read (Memory.write m a b) x = if x = a then b else Memory.read m x := by
  unfold Memory.write
  split
  · next h => rw [Memory.read_filter, h]
  · exact Memory.read_insert m a x b

@[simp] theorem Memory.read_write_self (m : Memory) (a : Nat) (b : Byte) : Memory.read (Memory.write m a b) a = b := by
  simp [Memory.read_write]

theorem Memory.read_write_ne (m : Memory) {a x : Nat} (b : Byte) (h : x ≠ a) :
    Memory.read (Memory.write m a b) x = Memory.read m x := by
  simp [Memory.read_write, h]

/-- Writing cells leaves every address they do not name. -/
theorem Memory.read_writeAll_of_not_mem (cs : List Host.Cell) (m : Memory) (x : Nat) (h : ∀ e ∈ cs, e.1 ≠ x) :
    Memory.read (Memory.writeAll m cs) x = Memory.read m x := by
  induction cs generalizing m with
  | nil => rfl
  | cons e r ih =>
    simp only [Memory.writeAll]
    rw [ih _ (fun a ha => h a (by simp [ha])), Memory.read_write_ne m e.2 (fun hx => h e (by simp) hx.symm)]

/-! ### The canonical form -/

/-- Memory's canonical form, said of its elements: addresses rise strictly, and no entry is what an unlisted byte reads as. -/
theorem Memory.wf_iff (m : Memory) :
    m.wf = true ↔ m.Pairwise (fun a b => a.1 < b.1) ∧ ∀ e ∈ m, e.2 ≠ Memory.unlisted := by
  have hr : ∀ l : Memory, Memory.rising l = true ↔ l.Pairwise (fun a b => a.1 < b.1) := by
    intro l
    induction l with
    | nil => simp [Memory.rising]
    | cons e r ih =>
      cases r with
      | nil => simp [Memory.rising]
      | cons f r =>
        rw [List.pairwise_cons, ← ih]
        simp only [Memory.rising, Bool.and_eq_true, decide_eq_true_eq]
        constructor
        · rintro ⟨h, hr⟩
          refine ⟨fun x hx => ?_, hr⟩
          rcases List.mem_cons.1 hx with rfl | hx
          · exact h
          · exact lt_trans h ((List.pairwise_cons.1 (ih.1 (by simpa only [Memory.rising, Bool.and_eq_true, decide_eq_true_eq] using hr))).1 x hx)
        · rintro ⟨h, hr⟩
          exact ⟨h f (by simp), hr⟩
  simp only [Memory.wf, Bool.and_eq_true, hr, List.all_eq_true, bne_iff_ne]

theorem Memory.mem_insert {m : Memory} {a : Nat} {b : Byte} {e : Host.Cell} (h : e ∈ Memory.insert m a b) :
    e = (a, b) ∨ e ∈ m := by
  induction m with
  | nil => simpa [Memory.insert] using h
  | cons f r ih =>
    simp only [Memory.insert] at h
    split at h
    · simpa using h
    · split at h
      · rcases List.mem_cons.1 h with h | h <;> simp [h]
      · rcases List.mem_cons.1 h with h | h
        · simp [h]
        · rcases ih h with h | h <;> simp [h]

theorem Memory.insert_wf {m : Memory} (a : Nat) {b : Byte} (hb : b ≠ Memory.unlisted) (h : m.wf = true) :
    (Memory.insert m a b).wf = true := by
  rw [Memory.wf_iff] at h ⊢
  obtain ⟨hp, hz⟩ := h
  refine ⟨?_, fun e he => ?_⟩
  · clear hz
    induction m with
    | nil => simp [Memory.insert]
    | cons f r ih =>
      obtain ⟨h1, h2⟩ := List.pairwise_cons.1 hp
      simp only [Memory.insert]
      split
      · next hlt =>
        refine List.pairwise_cons.2 ⟨fun e he => ?_, hp⟩
        rcases List.mem_cons.1 he with rfl | he
        · exact hlt
        · exact lt_trans hlt (h1 e he)
      · split
        · next heq => subst heq; exact List.pairwise_cons.2 ⟨h1, h2⟩
        · next hn hne =>
          refine List.pairwise_cons.2 ⟨fun e he => ?_, ih h2⟩
          rcases Memory.mem_insert he with rfl | he
          · simp only; omega
          · exact h1 e he
  · rcases Memory.mem_insert he with rfl | he
    · exact hb
    · exact hz e he

theorem Memory.filter_wf {m : Memory} (p : Host.Cell → Bool) (h : m.wf = true) : Memory.wf (m.filter p) = true := by
  rw [Memory.wf_iff] at h ⊢
  exact ⟨h.1.filter p, fun e he => h.2 e (List.mem_of_mem_filter he)⟩

/-- A write keeps the canonical form. -/
theorem Memory.write_wf {m : Memory} (a : Nat) (b : Byte) (h : m.wf = true) : (Memory.write m a b).wf = true := by
  unfold Memory.write
  split
  · exact Memory.filter_wf _ h
  · next hb => exact Memory.insert_wf a hb h

/-- So does a list of writes. -/
theorem Memory.writeAll_wf (cs : List Host.Cell) {m : Memory} (h : m.wf = true) : (Memory.writeAll m cs).wf = true := by
  induction cs generalizing m with
  | nil => exact h
  | cons e r ih => exact ih (Memory.write_wf e.1 e.2 h)

end Sys2Proof.Machine
end

