-- ==== Sys2Proof/Laws/State.lean ====
section
/-! SUPPORT. What each update of the state leaves of each field, and what the accessors read after it. -/

namespace Sys2Proof.Machine

/-! ### Updates of the machine, field by field -/

@[simp] theorem State.setCore_agenda (s : State) (c : Nat) (k : Core) : (s.setCore c k).agenda = s.agenda := rfl
@[simp] theorem State.setCore_core (s : State) (c : Nat) (k : Core) : (s.setCore c k).core = s.core := rfl
@[simp] theorem State.setCore_ctx (s : State) (c : Nat) (k : Core) : (s.setCore c k).ctx = s.ctx := rfl
@[simp] theorem State.setCore_steps (s : State) (c : Nat) (k : Core) : (s.setCore c k).steps = s.steps := rfl
@[simp] theorem State.setCore_idle (s : State) (c : Nat) (k : Core) : (s.setCore c k).idle = s.idle := rfl
@[simp] theorem State.setCore_time (s : State) (c : Nat) (k : Core) : (s.setCore c k).time = s.time := rfl
@[simp] theorem State.setCore_cycles (s : State) (c : Nat) (k : Core) : (s.setCore c k).cycles = s.cycles := rfl
@[simp] theorem State.setCore_mem (s : State) (c : Nat) (k : Core) : (s.setCore c k).mem = s.mem := rfl
@[simp] theorem State.setCore_log (s : State) (c : Nat) (k : Core) : (s.setCore c k).log = s.log := rfl
@[simp] theorem State.setCore_nextSeq (s : State) (c : Nat) (k : Core) : (s.setCore c k).nextSeq = s.nextSeq := rfl
@[simp] theorem State.setCore_parks (s : State) (c : Nat) (k : Core) : (s.setCore c k).parks = s.parks := rfl
@[simp] theorem State.setCore_frames (s : State) (c : Nat) (k : Core) : (s.setCore c k).frames = s.frames := rfl
@[simp] theorem State.setCore_shared (s : State) (c : Nat) (k : Core) : (s.setCore c k).shared = s.shared := rfl
@[simp] theorem State.setCore_retired (s : State) (c : Nat) (k : Core) : (s.setCore c k).retired = s.retired := rfl
@[simp] theorem State.setCore_second (s : State) (c : Nat) (k : Core) : (s.setCore c k).second = s.second := rfl
@[simp] theorem State.setCore_moves (s : State) (c : Nat) (k : Core) : (s.setCore c k).moves = s.moves := rfl
@[simp] theorem State.setCore_counters (s : State) (c : Nat) (k : Core) : (s.setCore c k).counters = s.counters := rfl
@[simp] theorem State.setCore_domains (s : State) (c : Nat) (k : Core) : (s.setCore c k).domains = s.domains := rfl
@[simp] theorem State.setCore_nodes (s : State) (c : Nat) (k : Core) : (s.setCore c k).nodes = s.nodes := rfl
@[simp] theorem State.setCore_nodeMarks (s : State) (c : Nat) (k : Core) : (s.setCore c k).nodeMarks = s.nodeMarks := rfl
@[simp] theorem State.setCore_cache (s : State) (c : Nat) (k : Core) : (s.setCore c k).cache = s.cache := rfl
@[simp] theorem State.setCore_badLines (s : State) (c : Nat) (k : Core) : (s.setCore c k).badLines = s.badLines := rfl
@[simp] theorem State.setCore_patrol (s : State) (c : Nat) (k : Core) : (s.setCore c k).patrol = s.patrol := rfl
@[simp] theorem State.setCore_queues (s : State) (c : Nat) (k : Core) : (s.setCore c k).queues = s.queues := rfl
@[simp] theorem State.setCore_nextTurn (s : State) (c : Nat) (k : Core) : (s.setCore c k).nextTurn = s.nextTurn := rfl
@[simp] theorem State.setCore_quantumNo (s : State) (c : Nat) (k : Core) : (s.setCore c k).quantumNo = s.quantumNo := rfl
@[simp] theorem State.setCore_quantumAt (s : State) (c : Nat) (k : Core) : (s.setCore c k).quantumAt = s.quantumAt := rfl
@[simp] theorem State.setCore_lastVf (s : State) (c : Nat) (k : Core) : (s.setCore c k).lastVf = s.lastVf := rfl
@[simp] theorem State.setCore_launches (s : State) (c : Nat) (k : Core) : (s.setCore c k).launches = s.launches := rfl
@[simp] theorem State.setCore_nextLaunch (s : State) (c : Nat) (k : Core) : (s.setCore c k).nextLaunch = s.nextLaunch := rfl
@[simp] theorem State.setCore_tasks (s : State) (c : Nat) (k : Core) : (s.setCore c k).tasks = s.tasks := rfl
@[simp] theorem State.setCore_reserved (s : State) (c : Nat) (k : Core) : (s.setCore c k).reserved = s.reserved := rfl
@[simp] theorem State.setCore_teams (s : State) (c : Nat) (k : Core) : (s.setCore c k).teams = s.teams := rfl
@[simp] theorem State.setCore_nextTeam (s : State) (c : Nat) (k : Core) : (s.setCore c k).nextTeam = s.nextTeam := rfl
@[simp] theorem State.setCore_events (s : State) (c : Nat) (k : Core) : (s.setCore c k).events = s.events := rfl
@[simp] theorem State.setCore_joins (s : State) (c : Nat) (k : Core) : (s.setCore c k).joins = s.joins := rfl
@[simp] theorem State.setCore_tjoin (s : State) (c : Nat) (k : Core) : (s.setCore c k).tjoin = s.tjoin := rfl
@[simp] theorem State.setCore_tenants (s : State) (c : Nat) (k : Core) : (s.setCore c k).tenants = s.tenants := rfl
@[simp] theorem State.setCore_parts (s : State) (c : Nat) (k : Core) : (s.setCore c k).parts = s.parts := rfl
@[simp] theorem State.setCore_ways (s : State) (c : Nat) (k : Core) : (s.setCore c k).ways = s.ways := rfl
@[simp] theorem State.setCore_leases (s : State) (c : Nat) (k : Core) : (s.setCore c k).leases = s.leases := rfl
@[simp] theorem State.setCore_borrows (s : State) (c : Nat) (k : Core) : (s.setCore c k).borrows = s.borrows := rfl
@[simp] theorem State.setCore_ports (s : State) (c : Nat) (k : Core) : (s.setCore c k).ports = s.ports := rfl
@[simp] theorem State.setCore_routes (s : State) (c : Nat) (k : Core) : (s.setCore c k).routes = s.routes := rfl
@[simp] theorem State.setCore_channels (s : State) (c : Nat) (k : Core) : (s.setCore c k).channels = s.channels := rfl
@[simp] theorem State.setCore_errs (s : State) (c : Nat) (k : Core) : (s.setCore c k).errs = s.errs := rfl
@[simp] theorem State.setCore_ring (s : State) (c : Nat) (k : Core) : (s.setCore c k).ring = s.ring := rfl
@[simp] theorem State.setCore_ringNext (s : State) (c : Nat) (k : Core) : (s.setCore c k).ringNext = s.ringNext := rfl
@[simp] theorem State.setCore_rungs (s : State) (c : Nat) (k : Core) : (s.setCore c k).rungs = s.rungs := rfl
@[simp] theorem State.setCore_module (s : State) (c : Nat) (k : Core) : (s.setCore c k).module = s.module := rfl
@[simp] theorem State.setCore_out (s : State) (c : Nat) (k : Core) : (s.setCore c k).out = s.out := rfl

@[simp] theorem State.setCtx_agenda (s : State) (c : Nat) (x : CtxId) (v : Ctx) : (s.setCtx c x v).agenda = s.agenda := rfl
@[simp] theorem State.setCtx_core (s : State) (c : Nat) (x : CtxId) (v : Ctx) : (s.setCtx c x v).core = s.core := rfl
@[simp] theorem State.setCtx_ctx (s : State) (c : Nat) (x : CtxId) (v : Ctx) : (s.setCtx c x v).ctx = s.ctx := rfl
@[simp] theorem State.setCtx_steps (s : State) (c : Nat) (x : CtxId) (v : Ctx) : (s.setCtx c x v).steps = s.steps := rfl
@[simp] theorem State.setCtx_idle (s : State) (c : Nat) (x : CtxId) (v : Ctx) : (s.setCtx c x v).idle = s.idle := rfl
@[simp] theorem State.setCtx_time (s : State) (c : Nat) (x : CtxId) (v : Ctx) : (s.setCtx c x v).time = s.time := rfl
@[simp] theorem State.setCtx_cycles (s : State) (c : Nat) (x : CtxId) (v : Ctx) : (s.setCtx c x v).cycles = s.cycles := rfl
@[simp] theorem State.setCtx_mem (s : State) (c : Nat) (x : CtxId) (v : Ctx) : (s.setCtx c x v).mem = s.mem := rfl
@[simp] theorem State.setCtx_log (s : State) (c : Nat) (x : CtxId) (v : Ctx) : (s.setCtx c x v).log = s.log := rfl
@[simp] theorem State.setCtx_nextSeq (s : State) (c : Nat) (x : CtxId) (v : Ctx) : (s.setCtx c x v).nextSeq = s.nextSeq := rfl
@[simp] theorem State.setCtx_parks (s : State) (c : Nat) (x : CtxId) (v : Ctx) : (s.setCtx c x v).parks = s.parks := rfl
@[simp] theorem State.setCtx_frames (s : State) (c : Nat) (x : CtxId) (v : Ctx) : (s.setCtx c x v).frames = s.frames := rfl
@[simp] theorem State.setCtx_shared (s : State) (c : Nat) (x : CtxId) (v : Ctx) : (s.setCtx c x v).shared = s.shared := rfl
@[simp] theorem State.setCtx_retired (s : State) (c : Nat) (x : CtxId) (v : Ctx) : (s.setCtx c x v).retired = s.retired := rfl
@[simp] theorem State.setCtx_second (s : State) (c : Nat) (x : CtxId) (v : Ctx) : (s.setCtx c x v).second = s.second := rfl
@[simp] theorem State.setCtx_moves (s : State) (c : Nat) (x : CtxId) (v : Ctx) : (s.setCtx c x v).moves = s.moves := rfl
@[simp] theorem State.setCtx_counters (s : State) (c : Nat) (x : CtxId) (v : Ctx) : (s.setCtx c x v).counters = s.counters := rfl
@[simp] theorem State.setCtx_domains (s : State) (c : Nat) (x : CtxId) (v : Ctx) : (s.setCtx c x v).domains = s.domains := rfl
@[simp] theorem State.setCtx_nodes (s : State) (c : Nat) (x : CtxId) (v : Ctx) : (s.setCtx c x v).nodes = s.nodes := rfl
@[simp] theorem State.setCtx_nodeMarks (s : State) (c : Nat) (x : CtxId) (v : Ctx) : (s.setCtx c x v).nodeMarks = s.nodeMarks := rfl
@[simp] theorem State.setCtx_cache (s : State) (c : Nat) (x : CtxId) (v : Ctx) : (s.setCtx c x v).cache = s.cache := rfl
@[simp] theorem State.setCtx_badLines (s : State) (c : Nat) (x : CtxId) (v : Ctx) : (s.setCtx c x v).badLines = s.badLines := rfl
@[simp] theorem State.setCtx_patrol (s : State) (c : Nat) (x : CtxId) (v : Ctx) : (s.setCtx c x v).patrol = s.patrol := rfl
@[simp] theorem State.setCtx_queues (s : State) (c : Nat) (x : CtxId) (v : Ctx) : (s.setCtx c x v).queues = s.queues := rfl
@[simp] theorem State.setCtx_nextTurn (s : State) (c : Nat) (x : CtxId) (v : Ctx) : (s.setCtx c x v).nextTurn = s.nextTurn := rfl
@[simp] theorem State.setCtx_quantumNo (s : State) (c : Nat) (x : CtxId) (v : Ctx) : (s.setCtx c x v).quantumNo = s.quantumNo := rfl
@[simp] theorem State.setCtx_quantumAt (s : State) (c : Nat) (x : CtxId) (v : Ctx) : (s.setCtx c x v).quantumAt = s.quantumAt := rfl
@[simp] theorem State.setCtx_lastVf (s : State) (c : Nat) (x : CtxId) (v : Ctx) : (s.setCtx c x v).lastVf = s.lastVf := rfl
@[simp] theorem State.setCtx_launches (s : State) (c : Nat) (x : CtxId) (v : Ctx) : (s.setCtx c x v).launches = s.launches := rfl
@[simp] theorem State.setCtx_nextLaunch (s : State) (c : Nat) (x : CtxId) (v : Ctx) : (s.setCtx c x v).nextLaunch = s.nextLaunch := rfl
@[simp] theorem State.setCtx_tasks (s : State) (c : Nat) (x : CtxId) (v : Ctx) : (s.setCtx c x v).tasks = s.tasks := rfl
@[simp] theorem State.setCtx_reserved (s : State) (c : Nat) (x : CtxId) (v : Ctx) : (s.setCtx c x v).reserved = s.reserved := rfl
@[simp] theorem State.setCtx_teams (s : State) (c : Nat) (x : CtxId) (v : Ctx) : (s.setCtx c x v).teams = s.teams := rfl
@[simp] theorem State.setCtx_nextTeam (s : State) (c : Nat) (x : CtxId) (v : Ctx) : (s.setCtx c x v).nextTeam = s.nextTeam := rfl
@[simp] theorem State.setCtx_events (s : State) (c : Nat) (x : CtxId) (v : Ctx) : (s.setCtx c x v).events = s.events := rfl
@[simp] theorem State.setCtx_joins (s : State) (c : Nat) (x : CtxId) (v : Ctx) : (s.setCtx c x v).joins = s.joins := rfl
@[simp] theorem State.setCtx_tjoin (s : State) (c : Nat) (x : CtxId) (v : Ctx) : (s.setCtx c x v).tjoin = s.tjoin := rfl
@[simp] theorem State.setCtx_tenants (s : State) (c : Nat) (x : CtxId) (v : Ctx) : (s.setCtx c x v).tenants = s.tenants := rfl
@[simp] theorem State.setCtx_parts (s : State) (c : Nat) (x : CtxId) (v : Ctx) : (s.setCtx c x v).parts = s.parts := rfl
@[simp] theorem State.setCtx_ways (s : State) (c : Nat) (x : CtxId) (v : Ctx) : (s.setCtx c x v).ways = s.ways := rfl
@[simp] theorem State.setCtx_leases (s : State) (c : Nat) (x : CtxId) (v : Ctx) : (s.setCtx c x v).leases = s.leases := rfl
@[simp] theorem State.setCtx_borrows (s : State) (c : Nat) (x : CtxId) (v : Ctx) : (s.setCtx c x v).borrows = s.borrows := rfl
@[simp] theorem State.setCtx_ports (s : State) (c : Nat) (x : CtxId) (v : Ctx) : (s.setCtx c x v).ports = s.ports := rfl
@[simp] theorem State.setCtx_routes (s : State) (c : Nat) (x : CtxId) (v : Ctx) : (s.setCtx c x v).routes = s.routes := rfl
@[simp] theorem State.setCtx_channels (s : State) (c : Nat) (x : CtxId) (v : Ctx) : (s.setCtx c x v).channels = s.channels := rfl
@[simp] theorem State.setCtx_errs (s : State) (c : Nat) (x : CtxId) (v : Ctx) : (s.setCtx c x v).errs = s.errs := rfl
@[simp] theorem State.setCtx_ring (s : State) (c : Nat) (x : CtxId) (v : Ctx) : (s.setCtx c x v).ring = s.ring := rfl
@[simp] theorem State.setCtx_ringNext (s : State) (c : Nat) (x : CtxId) (v : Ctx) : (s.setCtx c x v).ringNext = s.ringNext := rfl
@[simp] theorem State.setCtx_rungs (s : State) (c : Nat) (x : CtxId) (v : Ctx) : (s.setCtx c x v).rungs = s.rungs := rfl
@[simp] theorem State.setCtx_module (s : State) (c : Nat) (x : CtxId) (v : Ctx) : (s.setCtx c x v).module = s.module := rfl
@[simp] theorem State.setCtx_out (s : State) (c : Nat) (x : CtxId) (v : Ctx) : (s.setCtx c x v).out = s.out := rfl

@[simp] theorem State.setCurCore_agenda (s : State) (k : Core) : (s.setCurCore k).agenda = s.agenda := rfl
@[simp] theorem State.setCurCore_core (s : State) (k : Core) : (s.setCurCore k).core = s.core := rfl
@[simp] theorem State.setCurCore_ctx (s : State) (k : Core) : (s.setCurCore k).ctx = s.ctx := rfl
@[simp] theorem State.setCurCore_steps (s : State) (k : Core) : (s.setCurCore k).steps = s.steps := rfl
@[simp] theorem State.setCurCore_idle (s : State) (k : Core) : (s.setCurCore k).idle = s.idle := rfl
@[simp] theorem State.setCurCore_time (s : State) (k : Core) : (s.setCurCore k).time = s.time := rfl
@[simp] theorem State.setCurCore_cycles (s : State) (k : Core) : (s.setCurCore k).cycles = s.cycles := rfl
@[simp] theorem State.setCurCore_mem (s : State) (k : Core) : (s.setCurCore k).mem = s.mem := rfl
@[simp] theorem State.setCurCore_log (s : State) (k : Core) : (s.setCurCore k).log = s.log := rfl
@[simp] theorem State.setCurCore_nextSeq (s : State) (k : Core) : (s.setCurCore k).nextSeq = s.nextSeq := rfl
@[simp] theorem State.setCurCore_parks (s : State) (k : Core) : (s.setCurCore k).parks = s.parks := rfl
@[simp] theorem State.setCurCore_frames (s : State) (k : Core) : (s.setCurCore k).frames = s.frames := rfl
@[simp] theorem State.setCurCore_shared (s : State) (k : Core) : (s.setCurCore k).shared = s.shared := rfl
@[simp] theorem State.setCurCore_retired (s : State) (k : Core) : (s.setCurCore k).retired = s.retired := rfl
@[simp] theorem State.setCurCore_second (s : State) (k : Core) : (s.setCurCore k).second = s.second := rfl
@[simp] theorem State.setCurCore_moves (s : State) (k : Core) : (s.setCurCore k).moves = s.moves := rfl
@[simp] theorem State.setCurCore_counters (s : State) (k : Core) : (s.setCurCore k).counters = s.counters := rfl
@[simp] theorem State.setCurCore_domains (s : State) (k : Core) : (s.setCurCore k).domains = s.domains := rfl
@[simp] theorem State.setCurCore_nodes (s : State) (k : Core) : (s.setCurCore k).nodes = s.nodes := rfl
@[simp] theorem State.setCurCore_nodeMarks (s : State) (k : Core) : (s.setCurCore k).nodeMarks = s.nodeMarks := rfl
@[simp] theorem State.setCurCore_cache (s : State) (k : Core) : (s.setCurCore k).cache = s.cache := rfl
@[simp] theorem State.setCurCore_badLines (s : State) (k : Core) : (s.setCurCore k).badLines = s.badLines := rfl
@[simp] theorem State.setCurCore_patrol (s : State) (k : Core) : (s.setCurCore k).patrol = s.patrol := rfl
@[simp] theorem State.setCurCore_queues (s : State) (k : Core) : (s.setCurCore k).queues = s.queues := rfl
@[simp] theorem State.setCurCore_nextTurn (s : State) (k : Core) : (s.setCurCore k).nextTurn = s.nextTurn := rfl
@[simp] theorem State.setCurCore_quantumNo (s : State) (k : Core) : (s.setCurCore k).quantumNo = s.quantumNo := rfl
@[simp] theorem State.setCurCore_quantumAt (s : State) (k : Core) : (s.setCurCore k).quantumAt = s.quantumAt := rfl
@[simp] theorem State.setCurCore_lastVf (s : State) (k : Core) : (s.setCurCore k).lastVf = s.lastVf := rfl
@[simp] theorem State.setCurCore_launches (s : State) (k : Core) : (s.setCurCore k).launches = s.launches := rfl
@[simp] theorem State.setCurCore_nextLaunch (s : State) (k : Core) : (s.setCurCore k).nextLaunch = s.nextLaunch := rfl
@[simp] theorem State.setCurCore_tasks (s : State) (k : Core) : (s.setCurCore k).tasks = s.tasks := rfl
@[simp] theorem State.setCurCore_reserved (s : State) (k : Core) : (s.setCurCore k).reserved = s.reserved := rfl
@[simp] theorem State.setCurCore_teams (s : State) (k : Core) : (s.setCurCore k).teams = s.teams := rfl
@[simp] theorem State.setCurCore_nextTeam (s : State) (k : Core) : (s.setCurCore k).nextTeam = s.nextTeam := rfl
@[simp] theorem State.setCurCore_events (s : State) (k : Core) : (s.setCurCore k).events = s.events := rfl
@[simp] theorem State.setCurCore_joins (s : State) (k : Core) : (s.setCurCore k).joins = s.joins := rfl
@[simp] theorem State.setCurCore_tjoin (s : State) (k : Core) : (s.setCurCore k).tjoin = s.tjoin := rfl
@[simp] theorem State.setCurCore_tenants (s : State) (k : Core) : (s.setCurCore k).tenants = s.tenants := rfl
@[simp] theorem State.setCurCore_parts (s : State) (k : Core) : (s.setCurCore k).parts = s.parts := rfl
@[simp] theorem State.setCurCore_ways (s : State) (k : Core) : (s.setCurCore k).ways = s.ways := rfl
@[simp] theorem State.setCurCore_leases (s : State) (k : Core) : (s.setCurCore k).leases = s.leases := rfl
@[simp] theorem State.setCurCore_borrows (s : State) (k : Core) : (s.setCurCore k).borrows = s.borrows := rfl
@[simp] theorem State.setCurCore_ports (s : State) (k : Core) : (s.setCurCore k).ports = s.ports := rfl
@[simp] theorem State.setCurCore_routes (s : State) (k : Core) : (s.setCurCore k).routes = s.routes := rfl
@[simp] theorem State.setCurCore_channels (s : State) (k : Core) : (s.setCurCore k).channels = s.channels := rfl
@[simp] theorem State.setCurCore_errs (s : State) (k : Core) : (s.setCurCore k).errs = s.errs := rfl
@[simp] theorem State.setCurCore_ring (s : State) (k : Core) : (s.setCurCore k).ring = s.ring := rfl
@[simp] theorem State.setCurCore_ringNext (s : State) (k : Core) : (s.setCurCore k).ringNext = s.ringNext := rfl
@[simp] theorem State.setCurCore_rungs (s : State) (k : Core) : (s.setCurCore k).rungs = s.rungs := rfl
@[simp] theorem State.setCurCore_module (s : State) (k : Core) : (s.setCurCore k).module = s.module := rfl
@[simp] theorem State.setCurCore_out (s : State) (k : Core) : (s.setCurCore k).out = s.out := rfl

@[simp] theorem State.setCur_agenda (s : State) (v : Ctx) : (s.setCur v).agenda = s.agenda := rfl
@[simp] theorem State.setCur_core (s : State) (v : Ctx) : (s.setCur v).core = s.core := rfl
@[simp] theorem State.setCur_ctx (s : State) (v : Ctx) : (s.setCur v).ctx = s.ctx := rfl
@[simp] theorem State.setCur_steps (s : State) (v : Ctx) : (s.setCur v).steps = s.steps := rfl
@[simp] theorem State.setCur_idle (s : State) (v : Ctx) : (s.setCur v).idle = s.idle := rfl
@[simp] theorem State.setCur_time (s : State) (v : Ctx) : (s.setCur v).time = s.time := rfl
@[simp] theorem State.setCur_cycles (s : State) (v : Ctx) : (s.setCur v).cycles = s.cycles := rfl
@[simp] theorem State.setCur_mem (s : State) (v : Ctx) : (s.setCur v).mem = s.mem := rfl
@[simp] theorem State.setCur_log (s : State) (v : Ctx) : (s.setCur v).log = s.log := rfl
@[simp] theorem State.setCur_nextSeq (s : State) (v : Ctx) : (s.setCur v).nextSeq = s.nextSeq := rfl
@[simp] theorem State.setCur_parks (s : State) (v : Ctx) : (s.setCur v).parks = s.parks := rfl
@[simp] theorem State.setCur_frames (s : State) (v : Ctx) : (s.setCur v).frames = s.frames := rfl
@[simp] theorem State.setCur_shared (s : State) (v : Ctx) : (s.setCur v).shared = s.shared := rfl
@[simp] theorem State.setCur_retired (s : State) (v : Ctx) : (s.setCur v).retired = s.retired := rfl
@[simp] theorem State.setCur_second (s : State) (v : Ctx) : (s.setCur v).second = s.second := rfl
@[simp] theorem State.setCur_moves (s : State) (v : Ctx) : (s.setCur v).moves = s.moves := rfl
@[simp] theorem State.setCur_counters (s : State) (v : Ctx) : (s.setCur v).counters = s.counters := rfl
@[simp] theorem State.setCur_domains (s : State) (v : Ctx) : (s.setCur v).domains = s.domains := rfl
@[simp] theorem State.setCur_nodes (s : State) (v : Ctx) : (s.setCur v).nodes = s.nodes := rfl
@[simp] theorem State.setCur_nodeMarks (s : State) (v : Ctx) : (s.setCur v).nodeMarks = s.nodeMarks := rfl
@[simp] theorem State.setCur_cache (s : State) (v : Ctx) : (s.setCur v).cache = s.cache := rfl
@[simp] theorem State.setCur_badLines (s : State) (v : Ctx) : (s.setCur v).badLines = s.badLines := rfl
@[simp] theorem State.setCur_patrol (s : State) (v : Ctx) : (s.setCur v).patrol = s.patrol := rfl
@[simp] theorem State.setCur_queues (s : State) (v : Ctx) : (s.setCur v).queues = s.queues := rfl
@[simp] theorem State.setCur_nextTurn (s : State) (v : Ctx) : (s.setCur v).nextTurn = s.nextTurn := rfl
@[simp] theorem State.setCur_quantumNo (s : State) (v : Ctx) : (s.setCur v).quantumNo = s.quantumNo := rfl
@[simp] theorem State.setCur_quantumAt (s : State) (v : Ctx) : (s.setCur v).quantumAt = s.quantumAt := rfl
@[simp] theorem State.setCur_lastVf (s : State) (v : Ctx) : (s.setCur v).lastVf = s.lastVf := rfl
@[simp] theorem State.setCur_launches (s : State) (v : Ctx) : (s.setCur v).launches = s.launches := rfl
@[simp] theorem State.setCur_nextLaunch (s : State) (v : Ctx) : (s.setCur v).nextLaunch = s.nextLaunch := rfl
@[simp] theorem State.setCur_tasks (s : State) (v : Ctx) : (s.setCur v).tasks = s.tasks := rfl
@[simp] theorem State.setCur_reserved (s : State) (v : Ctx) : (s.setCur v).reserved = s.reserved := rfl
@[simp] theorem State.setCur_teams (s : State) (v : Ctx) : (s.setCur v).teams = s.teams := rfl
@[simp] theorem State.setCur_nextTeam (s : State) (v : Ctx) : (s.setCur v).nextTeam = s.nextTeam := rfl
@[simp] theorem State.setCur_events (s : State) (v : Ctx) : (s.setCur v).events = s.events := rfl
@[simp] theorem State.setCur_joins (s : State) (v : Ctx) : (s.setCur v).joins = s.joins := rfl
@[simp] theorem State.setCur_tjoin (s : State) (v : Ctx) : (s.setCur v).tjoin = s.tjoin := rfl
@[simp] theorem State.setCur_tenants (s : State) (v : Ctx) : (s.setCur v).tenants = s.tenants := rfl
@[simp] theorem State.setCur_parts (s : State) (v : Ctx) : (s.setCur v).parts = s.parts := rfl
@[simp] theorem State.setCur_ways (s : State) (v : Ctx) : (s.setCur v).ways = s.ways := rfl
@[simp] theorem State.setCur_leases (s : State) (v : Ctx) : (s.setCur v).leases = s.leases := rfl
@[simp] theorem State.setCur_borrows (s : State) (v : Ctx) : (s.setCur v).borrows = s.borrows := rfl
@[simp] theorem State.setCur_ports (s : State) (v : Ctx) : (s.setCur v).ports = s.ports := rfl
@[simp] theorem State.setCur_routes (s : State) (v : Ctx) : (s.setCur v).routes = s.routes := rfl
@[simp] theorem State.setCur_channels (s : State) (v : Ctx) : (s.setCur v).channels = s.channels := rfl
@[simp] theorem State.setCur_errs (s : State) (v : Ctx) : (s.setCur v).errs = s.errs := rfl
@[simp] theorem State.setCur_ring (s : State) (v : Ctx) : (s.setCur v).ring = s.ring := rfl
@[simp] theorem State.setCur_ringNext (s : State) (v : Ctx) : (s.setCur v).ringNext = s.ringNext := rfl
@[simp] theorem State.setCur_rungs (s : State) (v : Ctx) : (s.setCur v).rungs = s.rungs := rfl
@[simp] theorem State.setCur_module (s : State) (v : Ctx) : (s.setCur v).module = s.module := rfl
@[simp] theorem State.setCur_out (s : State) (v : Ctx) : (s.setCur v).out = s.out := rfl

@[simp] theorem State.setG_agenda (s : State) (n : Reg) (v : Word) : (s.setG n v).agenda = s.agenda := rfl
@[simp] theorem State.setG_core (s : State) (n : Reg) (v : Word) : (s.setG n v).core = s.core := rfl
@[simp] theorem State.setG_ctx (s : State) (n : Reg) (v : Word) : (s.setG n v).ctx = s.ctx := rfl
@[simp] theorem State.setG_steps (s : State) (n : Reg) (v : Word) : (s.setG n v).steps = s.steps := rfl
@[simp] theorem State.setG_idle (s : State) (n : Reg) (v : Word) : (s.setG n v).idle = s.idle := rfl
@[simp] theorem State.setG_time (s : State) (n : Reg) (v : Word) : (s.setG n v).time = s.time := rfl
@[simp] theorem State.setG_cycles (s : State) (n : Reg) (v : Word) : (s.setG n v).cycles = s.cycles := rfl
@[simp] theorem State.setG_mem (s : State) (n : Reg) (v : Word) : (s.setG n v).mem = s.mem := rfl
@[simp] theorem State.setG_log (s : State) (n : Reg) (v : Word) : (s.setG n v).log = s.log := rfl
@[simp] theorem State.setG_nextSeq (s : State) (n : Reg) (v : Word) : (s.setG n v).nextSeq = s.nextSeq := rfl
@[simp] theorem State.setG_parks (s : State) (n : Reg) (v : Word) : (s.setG n v).parks = s.parks := rfl
@[simp] theorem State.setG_frames (s : State) (n : Reg) (v : Word) : (s.setG n v).frames = s.frames := rfl
@[simp] theorem State.setG_shared (s : State) (n : Reg) (v : Word) : (s.setG n v).shared = s.shared := rfl
@[simp] theorem State.setG_retired (s : State) (n : Reg) (v : Word) : (s.setG n v).retired = s.retired := rfl
@[simp] theorem State.setG_second (s : State) (n : Reg) (v : Word) : (s.setG n v).second = s.second := rfl
@[simp] theorem State.setG_moves (s : State) (n : Reg) (v : Word) : (s.setG n v).moves = s.moves := rfl
@[simp] theorem State.setG_counters (s : State) (n : Reg) (v : Word) : (s.setG n v).counters = s.counters := rfl
@[simp] theorem State.setG_domains (s : State) (n : Reg) (v : Word) : (s.setG n v).domains = s.domains := rfl
@[simp] theorem State.setG_nodes (s : State) (n : Reg) (v : Word) : (s.setG n v).nodes = s.nodes := rfl
@[simp] theorem State.setG_nodeMarks (s : State) (n : Reg) (v : Word) : (s.setG n v).nodeMarks = s.nodeMarks := rfl
@[simp] theorem State.setG_cache (s : State) (n : Reg) (v : Word) : (s.setG n v).cache = s.cache := rfl
@[simp] theorem State.setG_badLines (s : State) (n : Reg) (v : Word) : (s.setG n v).badLines = s.badLines := rfl
@[simp] theorem State.setG_patrol (s : State) (n : Reg) (v : Word) : (s.setG n v).patrol = s.patrol := rfl
@[simp] theorem State.setG_queues (s : State) (n : Reg) (v : Word) : (s.setG n v).queues = s.queues := rfl
@[simp] theorem State.setG_nextTurn (s : State) (n : Reg) (v : Word) : (s.setG n v).nextTurn = s.nextTurn := rfl
@[simp] theorem State.setG_quantumNo (s : State) (n : Reg) (v : Word) : (s.setG n v).quantumNo = s.quantumNo := rfl
@[simp] theorem State.setG_quantumAt (s : State) (n : Reg) (v : Word) : (s.setG n v).quantumAt = s.quantumAt := rfl
@[simp] theorem State.setG_lastVf (s : State) (n : Reg) (v : Word) : (s.setG n v).lastVf = s.lastVf := rfl
@[simp] theorem State.setG_launches (s : State) (n : Reg) (v : Word) : (s.setG n v).launches = s.launches := rfl
@[simp] theorem State.setG_nextLaunch (s : State) (n : Reg) (v : Word) : (s.setG n v).nextLaunch = s.nextLaunch := rfl
@[simp] theorem State.setG_tasks (s : State) (n : Reg) (v : Word) : (s.setG n v).tasks = s.tasks := rfl
@[simp] theorem State.setG_reserved (s : State) (n : Reg) (v : Word) : (s.setG n v).reserved = s.reserved := rfl
@[simp] theorem State.setG_teams (s : State) (n : Reg) (v : Word) : (s.setG n v).teams = s.teams := rfl
@[simp] theorem State.setG_nextTeam (s : State) (n : Reg) (v : Word) : (s.setG n v).nextTeam = s.nextTeam := rfl
@[simp] theorem State.setG_events (s : State) (n : Reg) (v : Word) : (s.setG n v).events = s.events := rfl
@[simp] theorem State.setG_joins (s : State) (n : Reg) (v : Word) : (s.setG n v).joins = s.joins := rfl
@[simp] theorem State.setG_tjoin (s : State) (n : Reg) (v : Word) : (s.setG n v).tjoin = s.tjoin := rfl
@[simp] theorem State.setG_tenants (s : State) (n : Reg) (v : Word) : (s.setG n v).tenants = s.tenants := rfl
@[simp] theorem State.setG_parts (s : State) (n : Reg) (v : Word) : (s.setG n v).parts = s.parts := rfl
@[simp] theorem State.setG_ways (s : State) (n : Reg) (v : Word) : (s.setG n v).ways = s.ways := rfl
@[simp] theorem State.setG_leases (s : State) (n : Reg) (v : Word) : (s.setG n v).leases = s.leases := rfl
@[simp] theorem State.setG_borrows (s : State) (n : Reg) (v : Word) : (s.setG n v).borrows = s.borrows := rfl
@[simp] theorem State.setG_ports (s : State) (n : Reg) (v : Word) : (s.setG n v).ports = s.ports := rfl
@[simp] theorem State.setG_routes (s : State) (n : Reg) (v : Word) : (s.setG n v).routes = s.routes := rfl
@[simp] theorem State.setG_channels (s : State) (n : Reg) (v : Word) : (s.setG n v).channels = s.channels := rfl
@[simp] theorem State.setG_errs (s : State) (n : Reg) (v : Word) : (s.setG n v).errs = s.errs := rfl
@[simp] theorem State.setG_ring (s : State) (n : Reg) (v : Word) : (s.setG n v).ring = s.ring := rfl
@[simp] theorem State.setG_ringNext (s : State) (n : Reg) (v : Word) : (s.setG n v).ringNext = s.ringNext := rfl
@[simp] theorem State.setG_rungs (s : State) (n : Reg) (v : Word) : (s.setG n v).rungs = s.rungs := rfl
@[simp] theorem State.setG_module (s : State) (n : Reg) (v : Word) : (s.setG n v).module = s.module := rfl
@[simp] theorem State.setG_out (s : State) (n : Reg) (v : Word) : (s.setG n v).out = s.out := rfl

@[simp] theorem State.setTenant_agenda (s : State) (v : Nat) (t : Tenant) : (s.setTenant v t).agenda = s.agenda := rfl
@[simp] theorem State.setTenant_core (s : State) (v : Nat) (t : Tenant) : (s.setTenant v t).core = s.core := rfl
@[simp] theorem State.setTenant_ctx (s : State) (v : Nat) (t : Tenant) : (s.setTenant v t).ctx = s.ctx := rfl
@[simp] theorem State.setTenant_steps (s : State) (v : Nat) (t : Tenant) : (s.setTenant v t).steps = s.steps := rfl
@[simp] theorem State.setTenant_idle (s : State) (v : Nat) (t : Tenant) : (s.setTenant v t).idle = s.idle := rfl
@[simp] theorem State.setTenant_time (s : State) (v : Nat) (t : Tenant) : (s.setTenant v t).time = s.time := rfl
@[simp] theorem State.setTenant_cycles (s : State) (v : Nat) (t : Tenant) : (s.setTenant v t).cycles = s.cycles := rfl
@[simp] theorem State.setTenant_mem (s : State) (v : Nat) (t : Tenant) : (s.setTenant v t).mem = s.mem := rfl
@[simp] theorem State.setTenant_log (s : State) (v : Nat) (t : Tenant) : (s.setTenant v t).log = s.log := rfl
@[simp] theorem State.setTenant_nextSeq (s : State) (v : Nat) (t : Tenant) : (s.setTenant v t).nextSeq = s.nextSeq := rfl
@[simp] theorem State.setTenant_cores (s : State) (v : Nat) (t : Tenant) : (s.setTenant v t).cores = s.cores := rfl
@[simp] theorem State.setTenant_parks (s : State) (v : Nat) (t : Tenant) : (s.setTenant v t).parks = s.parks := rfl
@[simp] theorem State.setTenant_frames (s : State) (v : Nat) (t : Tenant) : (s.setTenant v t).frames = s.frames := rfl
@[simp] theorem State.setTenant_shared (s : State) (v : Nat) (t : Tenant) : (s.setTenant v t).shared = s.shared := rfl
@[simp] theorem State.setTenant_retired (s : State) (v : Nat) (t : Tenant) : (s.setTenant v t).retired = s.retired := rfl
@[simp] theorem State.setTenant_second (s : State) (v : Nat) (t : Tenant) : (s.setTenant v t).second = s.second := rfl
@[simp] theorem State.setTenant_moves (s : State) (v : Nat) (t : Tenant) : (s.setTenant v t).moves = s.moves := rfl
@[simp] theorem State.setTenant_counters (s : State) (v : Nat) (t : Tenant) : (s.setTenant v t).counters = s.counters := rfl
@[simp] theorem State.setTenant_domains (s : State) (v : Nat) (t : Tenant) : (s.setTenant v t).domains = s.domains := rfl
@[simp] theorem State.setTenant_nodes (s : State) (v : Nat) (t : Tenant) : (s.setTenant v t).nodes = s.nodes := rfl
@[simp] theorem State.setTenant_nodeMarks (s : State) (v : Nat) (t : Tenant) : (s.setTenant v t).nodeMarks = s.nodeMarks := rfl
@[simp] theorem State.setTenant_cache (s : State) (v : Nat) (t : Tenant) : (s.setTenant v t).cache = s.cache := rfl
@[simp] theorem State.setTenant_badLines (s : State) (v : Nat) (t : Tenant) : (s.setTenant v t).badLines = s.badLines := rfl
@[simp] theorem State.setTenant_patrol (s : State) (v : Nat) (t : Tenant) : (s.setTenant v t).patrol = s.patrol := rfl
@[simp] theorem State.setTenant_queues (s : State) (v : Nat) (t : Tenant) : (s.setTenant v t).queues = s.queues := rfl
@[simp] theorem State.setTenant_nextTurn (s : State) (v : Nat) (t : Tenant) : (s.setTenant v t).nextTurn = s.nextTurn := rfl
@[simp] theorem State.setTenant_quantumNo (s : State) (v : Nat) (t : Tenant) : (s.setTenant v t).quantumNo = s.quantumNo := rfl
@[simp] theorem State.setTenant_quantumAt (s : State) (v : Nat) (t : Tenant) : (s.setTenant v t).quantumAt = s.quantumAt := rfl
@[simp] theorem State.setTenant_lastVf (s : State) (v : Nat) (t : Tenant) : (s.setTenant v t).lastVf = s.lastVf := rfl
@[simp] theorem State.setTenant_launches (s : State) (v : Nat) (t : Tenant) : (s.setTenant v t).launches = s.launches := rfl
@[simp] theorem State.setTenant_nextLaunch (s : State) (v : Nat) (t : Tenant) : (s.setTenant v t).nextLaunch = s.nextLaunch := rfl
@[simp] theorem State.setTenant_tasks (s : State) (v : Nat) (t : Tenant) : (s.setTenant v t).tasks = s.tasks := rfl
@[simp] theorem State.setTenant_reserved (s : State) (v : Nat) (t : Tenant) : (s.setTenant v t).reserved = s.reserved := rfl
@[simp] theorem State.setTenant_teams (s : State) (v : Nat) (t : Tenant) : (s.setTenant v t).teams = s.teams := rfl
@[simp] theorem State.setTenant_nextTeam (s : State) (v : Nat) (t : Tenant) : (s.setTenant v t).nextTeam = s.nextTeam := rfl
@[simp] theorem State.setTenant_events (s : State) (v : Nat) (t : Tenant) : (s.setTenant v t).events = s.events := rfl
@[simp] theorem State.setTenant_joins (s : State) (v : Nat) (t : Tenant) : (s.setTenant v t).joins = s.joins := rfl
@[simp] theorem State.setTenant_tjoin (s : State) (v : Nat) (t : Tenant) : (s.setTenant v t).tjoin = s.tjoin := rfl
@[simp] theorem State.setTenant_parts (s : State) (v : Nat) (t : Tenant) : (s.setTenant v t).parts = s.parts := rfl
@[simp] theorem State.setTenant_ways (s : State) (v : Nat) (t : Tenant) : (s.setTenant v t).ways = s.ways := rfl
@[simp] theorem State.setTenant_leases (s : State) (v : Nat) (t : Tenant) : (s.setTenant v t).leases = s.leases := rfl
@[simp] theorem State.setTenant_borrows (s : State) (v : Nat) (t : Tenant) : (s.setTenant v t).borrows = s.borrows := rfl
@[simp] theorem State.setTenant_ports (s : State) (v : Nat) (t : Tenant) : (s.setTenant v t).ports = s.ports := rfl
@[simp] theorem State.setTenant_routes (s : State) (v : Nat) (t : Tenant) : (s.setTenant v t).routes = s.routes := rfl
@[simp] theorem State.setTenant_channels (s : State) (v : Nat) (t : Tenant) : (s.setTenant v t).channels = s.channels := rfl
@[simp] theorem State.setTenant_errs (s : State) (v : Nat) (t : Tenant) : (s.setTenant v t).errs = s.errs := rfl
@[simp] theorem State.setTenant_ring (s : State) (v : Nat) (t : Tenant) : (s.setTenant v t).ring = s.ring := rfl
@[simp] theorem State.setTenant_ringNext (s : State) (v : Nat) (t : Tenant) : (s.setTenant v t).ringNext = s.ringNext := rfl
@[simp] theorem State.setTenant_rungs (s : State) (v : Nat) (t : Tenant) : (s.setTenant v t).rungs = s.rungs := rfl
@[simp] theorem State.setTenant_module (s : State) (v : Nat) (t : Tenant) : (s.setTenant v t).module = s.module := rfl
@[simp] theorem State.setTenant_out (s : State) (v : Nat) (t : Tenant) : (s.setTenant v t).out = s.out := rfl

@[simp] theorem State.setPart_agenda (s : State) (n : Nat) (p : Partition) : (s.setPart n p).agenda = s.agenda := rfl
@[simp] theorem State.setPart_core (s : State) (n : Nat) (p : Partition) : (s.setPart n p).core = s.core := rfl
@[simp] theorem State.setPart_ctx (s : State) (n : Nat) (p : Partition) : (s.setPart n p).ctx = s.ctx := rfl
@[simp] theorem State.setPart_steps (s : State) (n : Nat) (p : Partition) : (s.setPart n p).steps = s.steps := rfl
@[simp] theorem State.setPart_idle (s : State) (n : Nat) (p : Partition) : (s.setPart n p).idle = s.idle := rfl
@[simp] theorem State.setPart_time (s : State) (n : Nat) (p : Partition) : (s.setPart n p).time = s.time := rfl
@[simp] theorem State.setPart_cycles (s : State) (n : Nat) (p : Partition) : (s.setPart n p).cycles = s.cycles := rfl
@[simp] theorem State.setPart_mem (s : State) (n : Nat) (p : Partition) : (s.setPart n p).mem = s.mem := rfl
@[simp] theorem State.setPart_log (s : State) (n : Nat) (p : Partition) : (s.setPart n p).log = s.log := rfl
@[simp] theorem State.setPart_nextSeq (s : State) (n : Nat) (p : Partition) : (s.setPart n p).nextSeq = s.nextSeq := rfl
@[simp] theorem State.setPart_cores (s : State) (n : Nat) (p : Partition) : (s.setPart n p).cores = s.cores := rfl
@[simp] theorem State.setPart_parks (s : State) (n : Nat) (p : Partition) : (s.setPart n p).parks = s.parks := rfl
@[simp] theorem State.setPart_frames (s : State) (n : Nat) (p : Partition) : (s.setPart n p).frames = s.frames := rfl
@[simp] theorem State.setPart_shared (s : State) (n : Nat) (p : Partition) : (s.setPart n p).shared = s.shared := rfl
@[simp] theorem State.setPart_retired (s : State) (n : Nat) (p : Partition) : (s.setPart n p).retired = s.retired := rfl
@[simp] theorem State.setPart_second (s : State) (n : Nat) (p : Partition) : (s.setPart n p).second = s.second := rfl
@[simp] theorem State.setPart_moves (s : State) (n : Nat) (p : Partition) : (s.setPart n p).moves = s.moves := rfl
@[simp] theorem State.setPart_counters (s : State) (n : Nat) (p : Partition) : (s.setPart n p).counters = s.counters := rfl
@[simp] theorem State.setPart_domains (s : State) (n : Nat) (p : Partition) : (s.setPart n p).domains = s.domains := rfl
@[simp] theorem State.setPart_nodes (s : State) (n : Nat) (p : Partition) : (s.setPart n p).nodes = s.nodes := rfl
@[simp] theorem State.setPart_nodeMarks (s : State) (n : Nat) (p : Partition) : (s.setPart n p).nodeMarks = s.nodeMarks := rfl
@[simp] theorem State.setPart_cache (s : State) (n : Nat) (p : Partition) : (s.setPart n p).cache = s.cache := rfl
@[simp] theorem State.setPart_badLines (s : State) (n : Nat) (p : Partition) : (s.setPart n p).badLines = s.badLines := rfl
@[simp] theorem State.setPart_patrol (s : State) (n : Nat) (p : Partition) : (s.setPart n p).patrol = s.patrol := rfl
@[simp] theorem State.setPart_queues (s : State) (n : Nat) (p : Partition) : (s.setPart n p).queues = s.queues := rfl
@[simp] theorem State.setPart_nextTurn (s : State) (n : Nat) (p : Partition) : (s.setPart n p).nextTurn = s.nextTurn := rfl
@[simp] theorem State.setPart_quantumNo (s : State) (n : Nat) (p : Partition) : (s.setPart n p).quantumNo = s.quantumNo := rfl
@[simp] theorem State.setPart_quantumAt (s : State) (n : Nat) (p : Partition) : (s.setPart n p).quantumAt = s.quantumAt := rfl
@[simp] theorem State.setPart_lastVf (s : State) (n : Nat) (p : Partition) : (s.setPart n p).lastVf = s.lastVf := rfl
@[simp] theorem State.setPart_launches (s : State) (n : Nat) (p : Partition) : (s.setPart n p).launches = s.launches := rfl
@[simp] theorem State.setPart_nextLaunch (s : State) (n : Nat) (p : Partition) : (s.setPart n p).nextLaunch = s.nextLaunch := rfl
@[simp] theorem State.setPart_tasks (s : State) (n : Nat) (p : Partition) : (s.setPart n p).tasks = s.tasks := rfl
@[simp] theorem State.setPart_reserved (s : State) (n : Nat) (p : Partition) : (s.setPart n p).reserved = s.reserved := rfl
@[simp] theorem State.setPart_teams (s : State) (n : Nat) (p : Partition) : (s.setPart n p).teams = s.teams := rfl
@[simp] theorem State.setPart_nextTeam (s : State) (n : Nat) (p : Partition) : (s.setPart n p).nextTeam = s.nextTeam := rfl
@[simp] theorem State.setPart_events (s : State) (n : Nat) (p : Partition) : (s.setPart n p).events = s.events := rfl
@[simp] theorem State.setPart_joins (s : State) (n : Nat) (p : Partition) : (s.setPart n p).joins = s.joins := rfl
@[simp] theorem State.setPart_tjoin (s : State) (n : Nat) (p : Partition) : (s.setPart n p).tjoin = s.tjoin := rfl
@[simp] theorem State.setPart_tenants (s : State) (n : Nat) (p : Partition) : (s.setPart n p).tenants = s.tenants := rfl
@[simp] theorem State.setPart_ways (s : State) (n : Nat) (p : Partition) : (s.setPart n p).ways = s.ways := rfl
@[simp] theorem State.setPart_leases (s : State) (n : Nat) (p : Partition) : (s.setPart n p).leases = s.leases := rfl
@[simp] theorem State.setPart_borrows (s : State) (n : Nat) (p : Partition) : (s.setPart n p).borrows = s.borrows := rfl
@[simp] theorem State.setPart_ports (s : State) (n : Nat) (p : Partition) : (s.setPart n p).ports = s.ports := rfl
@[simp] theorem State.setPart_routes (s : State) (n : Nat) (p : Partition) : (s.setPart n p).routes = s.routes := rfl
@[simp] theorem State.setPart_channels (s : State) (n : Nat) (p : Partition) : (s.setPart n p).channels = s.channels := rfl
@[simp] theorem State.setPart_errs (s : State) (n : Nat) (p : Partition) : (s.setPart n p).errs = s.errs := rfl
@[simp] theorem State.setPart_ring (s : State) (n : Nat) (p : Partition) : (s.setPart n p).ring = s.ring := rfl
@[simp] theorem State.setPart_ringNext (s : State) (n : Nat) (p : Partition) : (s.setPart n p).ringNext = s.ringNext := rfl
@[simp] theorem State.setPart_rungs (s : State) (n : Nat) (p : Partition) : (s.setPart n p).rungs = s.rungs := rfl
@[simp] theorem State.setPart_module (s : State) (n : Nat) (p : Partition) : (s.setPart n p).module = s.module := rfl
@[simp] theorem State.setPart_out (s : State) (n : Nat) (p : Partition) : (s.setPart n p).out = s.out := rfl

@[simp] theorem State.setQueue_agenda (s : State) (q : Nat) (w : WorkQueue) : (s.setQueue q w).agenda = s.agenda := rfl
@[simp] theorem State.setQueue_core (s : State) (q : Nat) (w : WorkQueue) : (s.setQueue q w).core = s.core := rfl
@[simp] theorem State.setQueue_ctx (s : State) (q : Nat) (w : WorkQueue) : (s.setQueue q w).ctx = s.ctx := rfl
@[simp] theorem State.setQueue_steps (s : State) (q : Nat) (w : WorkQueue) : (s.setQueue q w).steps = s.steps := rfl
@[simp] theorem State.setQueue_idle (s : State) (q : Nat) (w : WorkQueue) : (s.setQueue q w).idle = s.idle := rfl
@[simp] theorem State.setQueue_time (s : State) (q : Nat) (w : WorkQueue) : (s.setQueue q w).time = s.time := rfl
@[simp] theorem State.setQueue_cycles (s : State) (q : Nat) (w : WorkQueue) : (s.setQueue q w).cycles = s.cycles := rfl
@[simp] theorem State.setQueue_mem (s : State) (q : Nat) (w : WorkQueue) : (s.setQueue q w).mem = s.mem := rfl
@[simp] theorem State.setQueue_log (s : State) (q : Nat) (w : WorkQueue) : (s.setQueue q w).log = s.log := rfl
@[simp] theorem State.setQueue_nextSeq (s : State) (q : Nat) (w : WorkQueue) : (s.setQueue q w).nextSeq = s.nextSeq := rfl
@[simp] theorem State.setQueue_cores (s : State) (q : Nat) (w : WorkQueue) : (s.setQueue q w).cores = s.cores := rfl
@[simp] theorem State.setQueue_parks (s : State) (q : Nat) (w : WorkQueue) : (s.setQueue q w).parks = s.parks := rfl
@[simp] theorem State.setQueue_frames (s : State) (q : Nat) (w : WorkQueue) : (s.setQueue q w).frames = s.frames := rfl
@[simp] theorem State.setQueue_shared (s : State) (q : Nat) (w : WorkQueue) : (s.setQueue q w).shared = s.shared := rfl
@[simp] theorem State.setQueue_retired (s : State) (q : Nat) (w : WorkQueue) : (s.setQueue q w).retired = s.retired := rfl
@[simp] theorem State.setQueue_second (s : State) (q : Nat) (w : WorkQueue) : (s.setQueue q w).second = s.second := rfl
@[simp] theorem State.setQueue_moves (s : State) (q : Nat) (w : WorkQueue) : (s.setQueue q w).moves = s.moves := rfl
@[simp] theorem State.setQueue_counters (s : State) (q : Nat) (w : WorkQueue) : (s.setQueue q w).counters = s.counters := rfl
@[simp] theorem State.setQueue_domains (s : State) (q : Nat) (w : WorkQueue) : (s.setQueue q w).domains = s.domains := rfl
@[simp] theorem State.setQueue_nodes (s : State) (q : Nat) (w : WorkQueue) : (s.setQueue q w).nodes = s.nodes := rfl
@[simp] theorem State.setQueue_nodeMarks (s : State) (q : Nat) (w : WorkQueue) : (s.setQueue q w).nodeMarks = s.nodeMarks := rfl
@[simp] theorem State.setQueue_cache (s : State) (q : Nat) (w : WorkQueue) : (s.setQueue q w).cache = s.cache := rfl
@[simp] theorem State.setQueue_badLines (s : State) (q : Nat) (w : WorkQueue) : (s.setQueue q w).badLines = s.badLines := rfl
@[simp] theorem State.setQueue_patrol (s : State) (q : Nat) (w : WorkQueue) : (s.setQueue q w).patrol = s.patrol := rfl
@[simp] theorem State.setQueue_nextTurn (s : State) (q : Nat) (w : WorkQueue) : (s.setQueue q w).nextTurn = s.nextTurn := rfl
@[simp] theorem State.setQueue_quantumNo (s : State) (q : Nat) (w : WorkQueue) : (s.setQueue q w).quantumNo = s.quantumNo := rfl
@[simp] theorem State.setQueue_quantumAt (s : State) (q : Nat) (w : WorkQueue) : (s.setQueue q w).quantumAt = s.quantumAt := rfl
@[simp] theorem State.setQueue_lastVf (s : State) (q : Nat) (w : WorkQueue) : (s.setQueue q w).lastVf = s.lastVf := rfl
@[simp] theorem State.setQueue_launches (s : State) (q : Nat) (w : WorkQueue) : (s.setQueue q w).launches = s.launches := rfl
@[simp] theorem State.setQueue_nextLaunch (s : State) (q : Nat) (w : WorkQueue) : (s.setQueue q w).nextLaunch = s.nextLaunch := rfl
@[simp] theorem State.setQueue_tasks (s : State) (q : Nat) (w : WorkQueue) : (s.setQueue q w).tasks = s.tasks := rfl
@[simp] theorem State.setQueue_reserved (s : State) (q : Nat) (w : WorkQueue) : (s.setQueue q w).reserved = s.reserved := rfl
@[simp] theorem State.setQueue_teams (s : State) (q : Nat) (w : WorkQueue) : (s.setQueue q w).teams = s.teams := rfl
@[simp] theorem State.setQueue_nextTeam (s : State) (q : Nat) (w : WorkQueue) : (s.setQueue q w).nextTeam = s.nextTeam := rfl
@[simp] theorem State.setQueue_events (s : State) (q : Nat) (w : WorkQueue) : (s.setQueue q w).events = s.events := rfl
@[simp] theorem State.setQueue_joins (s : State) (q : Nat) (w : WorkQueue) : (s.setQueue q w).joins = s.joins := rfl
@[simp] theorem State.setQueue_tjoin (s : State) (q : Nat) (w : WorkQueue) : (s.setQueue q w).tjoin = s.tjoin := rfl
@[simp] theorem State.setQueue_tenants (s : State) (q : Nat) (w : WorkQueue) : (s.setQueue q w).tenants = s.tenants := rfl
@[simp] theorem State.setQueue_parts (s : State) (q : Nat) (w : WorkQueue) : (s.setQueue q w).parts = s.parts := rfl
@[simp] theorem State.setQueue_ways (s : State) (q : Nat) (w : WorkQueue) : (s.setQueue q w).ways = s.ways := rfl
@[simp] theorem State.setQueue_leases (s : State) (q : Nat) (w : WorkQueue) : (s.setQueue q w).leases = s.leases := rfl
@[simp] theorem State.setQueue_borrows (s : State) (q : Nat) (w : WorkQueue) : (s.setQueue q w).borrows = s.borrows := rfl
@[simp] theorem State.setQueue_ports (s : State) (q : Nat) (w : WorkQueue) : (s.setQueue q w).ports = s.ports := rfl
@[simp] theorem State.setQueue_routes (s : State) (q : Nat) (w : WorkQueue) : (s.setQueue q w).routes = s.routes := rfl
@[simp] theorem State.setQueue_channels (s : State) (q : Nat) (w : WorkQueue) : (s.setQueue q w).channels = s.channels := rfl
@[simp] theorem State.setQueue_errs (s : State) (q : Nat) (w : WorkQueue) : (s.setQueue q w).errs = s.errs := rfl
@[simp] theorem State.setQueue_ring (s : State) (q : Nat) (w : WorkQueue) : (s.setQueue q w).ring = s.ring := rfl
@[simp] theorem State.setQueue_ringNext (s : State) (q : Nat) (w : WorkQueue) : (s.setQueue q w).ringNext = s.ringNext := rfl
@[simp] theorem State.setQueue_rungs (s : State) (q : Nat) (w : WorkQueue) : (s.setQueue q w).rungs = s.rungs := rfl
@[simp] theorem State.setQueue_module (s : State) (q : Nat) (w : WorkQueue) : (s.setQueue q w).module = s.module := rfl
@[simp] theorem State.setQueue_out (s : State) (q : Nat) (w : WorkQueue) : (s.setQueue q w).out = s.out := rfl

@[simp] theorem State.setEvent_agenda (s : State) (v n : Nat) (e : Event) : (s.setEvent v n e).agenda = s.agenda := rfl
@[simp] theorem State.setEvent_core (s : State) (v n : Nat) (e : Event) : (s.setEvent v n e).core = s.core := rfl
@[simp] theorem State.setEvent_ctx (s : State) (v n : Nat) (e : Event) : (s.setEvent v n e).ctx = s.ctx := rfl
@[simp] theorem State.setEvent_steps (s : State) (v n : Nat) (e : Event) : (s.setEvent v n e).steps = s.steps := rfl
@[simp] theorem State.setEvent_idle (s : State) (v n : Nat) (e : Event) : (s.setEvent v n e).idle = s.idle := rfl
@[simp] theorem State.setEvent_time (s : State) (v n : Nat) (e : Event) : (s.setEvent v n e).time = s.time := rfl
@[simp] theorem State.setEvent_cycles (s : State) (v n : Nat) (e : Event) : (s.setEvent v n e).cycles = s.cycles := rfl
@[simp] theorem State.setEvent_mem (s : State) (v n : Nat) (e : Event) : (s.setEvent v n e).mem = s.mem := rfl
@[simp] theorem State.setEvent_log (s : State) (v n : Nat) (e : Event) : (s.setEvent v n e).log = s.log := rfl
@[simp] theorem State.setEvent_nextSeq (s : State) (v n : Nat) (e : Event) : (s.setEvent v n e).nextSeq = s.nextSeq := rfl
@[simp] theorem State.setEvent_cores (s : State) (v n : Nat) (e : Event) : (s.setEvent v n e).cores = s.cores := rfl
@[simp] theorem State.setEvent_parks (s : State) (v n : Nat) (e : Event) : (s.setEvent v n e).parks = s.parks := rfl
@[simp] theorem State.setEvent_frames (s : State) (v n : Nat) (e : Event) : (s.setEvent v n e).frames = s.frames := rfl
@[simp] theorem State.setEvent_shared (s : State) (v n : Nat) (e : Event) : (s.setEvent v n e).shared = s.shared := rfl
@[simp] theorem State.setEvent_retired (s : State) (v n : Nat) (e : Event) : (s.setEvent v n e).retired = s.retired := rfl
@[simp] theorem State.setEvent_second (s : State) (v n : Nat) (e : Event) : (s.setEvent v n e).second = s.second := rfl
@[simp] theorem State.setEvent_moves (s : State) (v n : Nat) (e : Event) : (s.setEvent v n e).moves = s.moves := rfl
@[simp] theorem State.setEvent_counters (s : State) (v n : Nat) (e : Event) : (s.setEvent v n e).counters = s.counters := rfl
@[simp] theorem State.setEvent_domains (s : State) (v n : Nat) (e : Event) : (s.setEvent v n e).domains = s.domains := rfl
@[simp] theorem State.setEvent_nodes (s : State) (v n : Nat) (e : Event) : (s.setEvent v n e).nodes = s.nodes := rfl
@[simp] theorem State.setEvent_nodeMarks (s : State) (v n : Nat) (e : Event) : (s.setEvent v n e).nodeMarks = s.nodeMarks := rfl
@[simp] theorem State.setEvent_cache (s : State) (v n : Nat) (e : Event) : (s.setEvent v n e).cache = s.cache := rfl
@[simp] theorem State.setEvent_badLines (s : State) (v n : Nat) (e : Event) : (s.setEvent v n e).badLines = s.badLines := rfl
@[simp] theorem State.setEvent_patrol (s : State) (v n : Nat) (e : Event) : (s.setEvent v n e).patrol = s.patrol := rfl
@[simp] theorem State.setEvent_queues (s : State) (v n : Nat) (e : Event) : (s.setEvent v n e).queues = s.queues := rfl
@[simp] theorem State.setEvent_nextTurn (s : State) (v n : Nat) (e : Event) : (s.setEvent v n e).nextTurn = s.nextTurn := rfl
@[simp] theorem State.setEvent_quantumNo (s : State) (v n : Nat) (e : Event) : (s.setEvent v n e).quantumNo = s.quantumNo := rfl
@[simp] theorem State.setEvent_quantumAt (s : State) (v n : Nat) (e : Event) : (s.setEvent v n e).quantumAt = s.quantumAt := rfl
@[simp] theorem State.setEvent_lastVf (s : State) (v n : Nat) (e : Event) : (s.setEvent v n e).lastVf = s.lastVf := rfl
@[simp] theorem State.setEvent_launches (s : State) (v n : Nat) (e : Event) : (s.setEvent v n e).launches = s.launches := rfl
@[simp] theorem State.setEvent_nextLaunch (s : State) (v n : Nat) (e : Event) : (s.setEvent v n e).nextLaunch = s.nextLaunch := rfl
@[simp] theorem State.setEvent_tasks (s : State) (v n : Nat) (e : Event) : (s.setEvent v n e).tasks = s.tasks := rfl
@[simp] theorem State.setEvent_reserved (s : State) (v n : Nat) (e : Event) : (s.setEvent v n e).reserved = s.reserved := rfl
@[simp] theorem State.setEvent_teams (s : State) (v n : Nat) (e : Event) : (s.setEvent v n e).teams = s.teams := rfl
@[simp] theorem State.setEvent_nextTeam (s : State) (v n : Nat) (e : Event) : (s.setEvent v n e).nextTeam = s.nextTeam := rfl
@[simp] theorem State.setEvent_joins (s : State) (v n : Nat) (e : Event) : (s.setEvent v n e).joins = s.joins := rfl
@[simp] theorem State.setEvent_tjoin (s : State) (v n : Nat) (e : Event) : (s.setEvent v n e).tjoin = s.tjoin := rfl
@[simp] theorem State.setEvent_tenants (s : State) (v n : Nat) (e : Event) : (s.setEvent v n e).tenants = s.tenants := rfl
@[simp] theorem State.setEvent_parts (s : State) (v n : Nat) (e : Event) : (s.setEvent v n e).parts = s.parts := rfl
@[simp] theorem State.setEvent_ways (s : State) (v n : Nat) (e : Event) : (s.setEvent v n e).ways = s.ways := rfl
@[simp] theorem State.setEvent_leases (s : State) (v n : Nat) (e : Event) : (s.setEvent v n e).leases = s.leases := rfl
@[simp] theorem State.setEvent_borrows (s : State) (v n : Nat) (e : Event) : (s.setEvent v n e).borrows = s.borrows := rfl
@[simp] theorem State.setEvent_ports (s : State) (v n : Nat) (e : Event) : (s.setEvent v n e).ports = s.ports := rfl
@[simp] theorem State.setEvent_routes (s : State) (v n : Nat) (e : Event) : (s.setEvent v n e).routes = s.routes := rfl
@[simp] theorem State.setEvent_channels (s : State) (v n : Nat) (e : Event) : (s.setEvent v n e).channels = s.channels := rfl
@[simp] theorem State.setEvent_errs (s : State) (v n : Nat) (e : Event) : (s.setEvent v n e).errs = s.errs := rfl
@[simp] theorem State.setEvent_ring (s : State) (v n : Nat) (e : Event) : (s.setEvent v n e).ring = s.ring := rfl
@[simp] theorem State.setEvent_ringNext (s : State) (v n : Nat) (e : Event) : (s.setEvent v n e).ringNext = s.ringNext := rfl
@[simp] theorem State.setEvent_rungs (s : State) (v n : Nat) (e : Event) : (s.setEvent v n e).rungs = s.rungs := rfl
@[simp] theorem State.setEvent_module (s : State) (v n : Nat) (e : Event) : (s.setEvent v n e).module = s.module := rfl
@[simp] theorem State.setEvent_out (s : State) (v n : Nat) (e : Event) : (s.setEvent v n e).out = s.out := rfl

@[simp] theorem State.setLease_agenda (s : State) (l : Nat) (e : Lease) : (s.setLease l e).agenda = s.agenda := rfl
@[simp] theorem State.setLease_core (s : State) (l : Nat) (e : Lease) : (s.setLease l e).core = s.core := rfl
@[simp] theorem State.setLease_ctx (s : State) (l : Nat) (e : Lease) : (s.setLease l e).ctx = s.ctx := rfl
@[simp] theorem State.setLease_steps (s : State) (l : Nat) (e : Lease) : (s.setLease l e).steps = s.steps := rfl
@[simp] theorem State.setLease_idle (s : State) (l : Nat) (e : Lease) : (s.setLease l e).idle = s.idle := rfl
@[simp] theorem State.setLease_time (s : State) (l : Nat) (e : Lease) : (s.setLease l e).time = s.time := rfl
@[simp] theorem State.setLease_cycles (s : State) (l : Nat) (e : Lease) : (s.setLease l e).cycles = s.cycles := rfl
@[simp] theorem State.setLease_mem (s : State) (l : Nat) (e : Lease) : (s.setLease l e).mem = s.mem := rfl
@[simp] theorem State.setLease_log (s : State) (l : Nat) (e : Lease) : (s.setLease l e).log = s.log := rfl
@[simp] theorem State.setLease_nextSeq (s : State) (l : Nat) (e : Lease) : (s.setLease l e).nextSeq = s.nextSeq := rfl
@[simp] theorem State.setLease_cores (s : State) (l : Nat) (e : Lease) : (s.setLease l e).cores = s.cores := rfl
@[simp] theorem State.setLease_parks (s : State) (l : Nat) (e : Lease) : (s.setLease l e).parks = s.parks := rfl
@[simp] theorem State.setLease_frames (s : State) (l : Nat) (e : Lease) : (s.setLease l e).frames = s.frames := rfl
@[simp] theorem State.setLease_shared (s : State) (l : Nat) (e : Lease) : (s.setLease l e).shared = s.shared := rfl
@[simp] theorem State.setLease_retired (s : State) (l : Nat) (e : Lease) : (s.setLease l e).retired = s.retired := rfl
@[simp] theorem State.setLease_second (s : State) (l : Nat) (e : Lease) : (s.setLease l e).second = s.second := rfl
@[simp] theorem State.setLease_moves (s : State) (l : Nat) (e : Lease) : (s.setLease l e).moves = s.moves := rfl
@[simp] theorem State.setLease_counters (s : State) (l : Nat) (e : Lease) : (s.setLease l e).counters = s.counters := rfl
@[simp] theorem State.setLease_domains (s : State) (l : Nat) (e : Lease) : (s.setLease l e).domains = s.domains := rfl
@[simp] theorem State.setLease_nodes (s : State) (l : Nat) (e : Lease) : (s.setLease l e).nodes = s.nodes := rfl
@[simp] theorem State.setLease_nodeMarks (s : State) (l : Nat) (e : Lease) : (s.setLease l e).nodeMarks = s.nodeMarks := rfl
@[simp] theorem State.setLease_cache (s : State) (l : Nat) (e : Lease) : (s.setLease l e).cache = s.cache := rfl
@[simp] theorem State.setLease_badLines (s : State) (l : Nat) (e : Lease) : (s.setLease l e).badLines = s.badLines := rfl
@[simp] theorem State.setLease_patrol (s : State) (l : Nat) (e : Lease) : (s.setLease l e).patrol = s.patrol := rfl
@[simp] theorem State.setLease_queues (s : State) (l : Nat) (e : Lease) : (s.setLease l e).queues = s.queues := rfl
@[simp] theorem State.setLease_nextTurn (s : State) (l : Nat) (e : Lease) : (s.setLease l e).nextTurn = s.nextTurn := rfl
@[simp] theorem State.setLease_quantumNo (s : State) (l : Nat) (e : Lease) : (s.setLease l e).quantumNo = s.quantumNo := rfl
@[simp] theorem State.setLease_quantumAt (s : State) (l : Nat) (e : Lease) : (s.setLease l e).quantumAt = s.quantumAt := rfl
@[simp] theorem State.setLease_lastVf (s : State) (l : Nat) (e : Lease) : (s.setLease l e).lastVf = s.lastVf := rfl
@[simp] theorem State.setLease_launches (s : State) (l : Nat) (e : Lease) : (s.setLease l e).launches = s.launches := rfl
@[simp] theorem State.setLease_nextLaunch (s : State) (l : Nat) (e : Lease) : (s.setLease l e).nextLaunch = s.nextLaunch := rfl
@[simp] theorem State.setLease_tasks (s : State) (l : Nat) (e : Lease) : (s.setLease l e).tasks = s.tasks := rfl
@[simp] theorem State.setLease_reserved (s : State) (l : Nat) (e : Lease) : (s.setLease l e).reserved = s.reserved := rfl
@[simp] theorem State.setLease_teams (s : State) (l : Nat) (e : Lease) : (s.setLease l e).teams = s.teams := rfl
@[simp] theorem State.setLease_nextTeam (s : State) (l : Nat) (e : Lease) : (s.setLease l e).nextTeam = s.nextTeam := rfl
@[simp] theorem State.setLease_events (s : State) (l : Nat) (e : Lease) : (s.setLease l e).events = s.events := rfl
@[simp] theorem State.setLease_joins (s : State) (l : Nat) (e : Lease) : (s.setLease l e).joins = s.joins := rfl
@[simp] theorem State.setLease_tjoin (s : State) (l : Nat) (e : Lease) : (s.setLease l e).tjoin = s.tjoin := rfl
@[simp] theorem State.setLease_tenants (s : State) (l : Nat) (e : Lease) : (s.setLease l e).tenants = s.tenants := rfl
@[simp] theorem State.setLease_parts (s : State) (l : Nat) (e : Lease) : (s.setLease l e).parts = s.parts := rfl
@[simp] theorem State.setLease_ways (s : State) (l : Nat) (e : Lease) : (s.setLease l e).ways = s.ways := rfl
@[simp] theorem State.setLease_borrows (s : State) (l : Nat) (e : Lease) : (s.setLease l e).borrows = s.borrows := rfl
@[simp] theorem State.setLease_ports (s : State) (l : Nat) (e : Lease) : (s.setLease l e).ports = s.ports := rfl
@[simp] theorem State.setLease_routes (s : State) (l : Nat) (e : Lease) : (s.setLease l e).routes = s.routes := rfl
@[simp] theorem State.setLease_channels (s : State) (l : Nat) (e : Lease) : (s.setLease l e).channels = s.channels := rfl
@[simp] theorem State.setLease_errs (s : State) (l : Nat) (e : Lease) : (s.setLease l e).errs = s.errs := rfl
@[simp] theorem State.setLease_ring (s : State) (l : Nat) (e : Lease) : (s.setLease l e).ring = s.ring := rfl
@[simp] theorem State.setLease_ringNext (s : State) (l : Nat) (e : Lease) : (s.setLease l e).ringNext = s.ringNext := rfl
@[simp] theorem State.setLease_rungs (s : State) (l : Nat) (e : Lease) : (s.setLease l e).rungs = s.rungs := rfl
@[simp] theorem State.setLease_module (s : State) (l : Nat) (e : Lease) : (s.setLease l e).module = s.module := rfl
@[simp] theorem State.setLease_out (s : State) (l : Nat) (e : Lease) : (s.setLease l e).out = s.out := rfl

@[simp] theorem State.setPort_agenda (s : State) (n : Nat) (p : Port) : (s.setPort n p).agenda = s.agenda := rfl
@[simp] theorem State.setPort_core (s : State) (n : Nat) (p : Port) : (s.setPort n p).core = s.core := rfl
@[simp] theorem State.setPort_ctx (s : State) (n : Nat) (p : Port) : (s.setPort n p).ctx = s.ctx := rfl
@[simp] theorem State.setPort_steps (s : State) (n : Nat) (p : Port) : (s.setPort n p).steps = s.steps := rfl
@[simp] theorem State.setPort_idle (s : State) (n : Nat) (p : Port) : (s.setPort n p).idle = s.idle := rfl
@[simp] theorem State.setPort_time (s : State) (n : Nat) (p : Port) : (s.setPort n p).time = s.time := rfl
@[simp] theorem State.setPort_cycles (s : State) (n : Nat) (p : Port) : (s.setPort n p).cycles = s.cycles := rfl
@[simp] theorem State.setPort_mem (s : State) (n : Nat) (p : Port) : (s.setPort n p).mem = s.mem := rfl
@[simp] theorem State.setPort_log (s : State) (n : Nat) (p : Port) : (s.setPort n p).log = s.log := rfl
@[simp] theorem State.setPort_nextSeq (s : State) (n : Nat) (p : Port) : (s.setPort n p).nextSeq = s.nextSeq := rfl
@[simp] theorem State.setPort_cores (s : State) (n : Nat) (p : Port) : (s.setPort n p).cores = s.cores := rfl
@[simp] theorem State.setPort_parks (s : State) (n : Nat) (p : Port) : (s.setPort n p).parks = s.parks := rfl
@[simp] theorem State.setPort_frames (s : State) (n : Nat) (p : Port) : (s.setPort n p).frames = s.frames := rfl
@[simp] theorem State.setPort_shared (s : State) (n : Nat) (p : Port) : (s.setPort n p).shared = s.shared := rfl
@[simp] theorem State.setPort_retired (s : State) (n : Nat) (p : Port) : (s.setPort n p).retired = s.retired := rfl
@[simp] theorem State.setPort_second (s : State) (n : Nat) (p : Port) : (s.setPort n p).second = s.second := rfl
@[simp] theorem State.setPort_moves (s : State) (n : Nat) (p : Port) : (s.setPort n p).moves = s.moves := rfl
@[simp] theorem State.setPort_counters (s : State) (n : Nat) (p : Port) : (s.setPort n p).counters = s.counters := rfl
@[simp] theorem State.setPort_domains (s : State) (n : Nat) (p : Port) : (s.setPort n p).domains = s.domains := rfl
@[simp] theorem State.setPort_nodes (s : State) (n : Nat) (p : Port) : (s.setPort n p).nodes = s.nodes := rfl
@[simp] theorem State.setPort_nodeMarks (s : State) (n : Nat) (p : Port) : (s.setPort n p).nodeMarks = s.nodeMarks := rfl
@[simp] theorem State.setPort_cache (s : State) (n : Nat) (p : Port) : (s.setPort n p).cache = s.cache := rfl
@[simp] theorem State.setPort_badLines (s : State) (n : Nat) (p : Port) : (s.setPort n p).badLines = s.badLines := rfl
@[simp] theorem State.setPort_patrol (s : State) (n : Nat) (p : Port) : (s.setPort n p).patrol = s.patrol := rfl
@[simp] theorem State.setPort_queues (s : State) (n : Nat) (p : Port) : (s.setPort n p).queues = s.queues := rfl
@[simp] theorem State.setPort_nextTurn (s : State) (n : Nat) (p : Port) : (s.setPort n p).nextTurn = s.nextTurn := rfl
@[simp] theorem State.setPort_quantumNo (s : State) (n : Nat) (p : Port) : (s.setPort n p).quantumNo = s.quantumNo := rfl
@[simp] theorem State.setPort_quantumAt (s : State) (n : Nat) (p : Port) : (s.setPort n p).quantumAt = s.quantumAt := rfl
@[simp] theorem State.setPort_lastVf (s : State) (n : Nat) (p : Port) : (s.setPort n p).lastVf = s.lastVf := rfl
@[simp] theorem State.setPort_launches (s : State) (n : Nat) (p : Port) : (s.setPort n p).launches = s.launches := rfl
@[simp] theorem State.setPort_nextLaunch (s : State) (n : Nat) (p : Port) : (s.setPort n p).nextLaunch = s.nextLaunch := rfl
@[simp] theorem State.setPort_tasks (s : State) (n : Nat) (p : Port) : (s.setPort n p).tasks = s.tasks := rfl
@[simp] theorem State.setPort_reserved (s : State) (n : Nat) (p : Port) : (s.setPort n p).reserved = s.reserved := rfl
@[simp] theorem State.setPort_teams (s : State) (n : Nat) (p : Port) : (s.setPort n p).teams = s.teams := rfl
@[simp] theorem State.setPort_nextTeam (s : State) (n : Nat) (p : Port) : (s.setPort n p).nextTeam = s.nextTeam := rfl
@[simp] theorem State.setPort_events (s : State) (n : Nat) (p : Port) : (s.setPort n p).events = s.events := rfl
@[simp] theorem State.setPort_joins (s : State) (n : Nat) (p : Port) : (s.setPort n p).joins = s.joins := rfl
@[simp] theorem State.setPort_tjoin (s : State) (n : Nat) (p : Port) : (s.setPort n p).tjoin = s.tjoin := rfl
@[simp] theorem State.setPort_tenants (s : State) (n : Nat) (p : Port) : (s.setPort n p).tenants = s.tenants := rfl
@[simp] theorem State.setPort_parts (s : State) (n : Nat) (p : Port) : (s.setPort n p).parts = s.parts := rfl
@[simp] theorem State.setPort_ways (s : State) (n : Nat) (p : Port) : (s.setPort n p).ways = s.ways := rfl
@[simp] theorem State.setPort_leases (s : State) (n : Nat) (p : Port) : (s.setPort n p).leases = s.leases := rfl
@[simp] theorem State.setPort_borrows (s : State) (n : Nat) (p : Port) : (s.setPort n p).borrows = s.borrows := rfl
@[simp] theorem State.setPort_channels (s : State) (n : Nat) (p : Port) : (s.setPort n p).channels = s.channels := rfl
@[simp] theorem State.setPort_errs (s : State) (n : Nat) (p : Port) : (s.setPort n p).errs = s.errs := rfl
@[simp] theorem State.setPort_ring (s : State) (n : Nat) (p : Port) : (s.setPort n p).ring = s.ring := rfl
@[simp] theorem State.setPort_ringNext (s : State) (n : Nat) (p : Port) : (s.setPort n p).ringNext = s.ringNext := rfl
@[simp] theorem State.setPort_rungs (s : State) (n : Nat) (p : Port) : (s.setPort n p).rungs = s.rungs := rfl
@[simp] theorem State.setPort_module (s : State) (n : Nat) (p : Port) : (s.setPort n p).module = s.module := rfl
@[simp] theorem State.setPort_out (s : State) (n : Nat) (p : Port) : (s.setPort n p).out = s.out := rfl

@[simp] theorem State.send_agenda (s : State) (m : Msg) : (s.send m).agenda = s.agenda := rfl
@[simp] theorem State.send_core (s : State) (m : Msg) : (s.send m).core = s.core := rfl
@[simp] theorem State.send_ctx (s : State) (m : Msg) : (s.send m).ctx = s.ctx := rfl
@[simp] theorem State.send_steps (s : State) (m : Msg) : (s.send m).steps = s.steps := rfl
@[simp] theorem State.send_idle (s : State) (m : Msg) : (s.send m).idle = s.idle := rfl
@[simp] theorem State.send_time (s : State) (m : Msg) : (s.send m).time = s.time := rfl
@[simp] theorem State.send_cycles (s : State) (m : Msg) : (s.send m).cycles = s.cycles := rfl
@[simp] theorem State.send_mem (s : State) (m : Msg) : (s.send m).mem = s.mem := rfl
@[simp] theorem State.send_log (s : State) (m : Msg) : (s.send m).log = s.log := rfl
@[simp] theorem State.send_nextSeq (s : State) (m : Msg) : (s.send m).nextSeq = s.nextSeq := rfl
@[simp] theorem State.send_cores (s : State) (m : Msg) : (s.send m).cores = s.cores := rfl
@[simp] theorem State.send_parks (s : State) (m : Msg) : (s.send m).parks = s.parks := rfl
@[simp] theorem State.send_frames (s : State) (m : Msg) : (s.send m).frames = s.frames := rfl
@[simp] theorem State.send_shared (s : State) (m : Msg) : (s.send m).shared = s.shared := rfl
@[simp] theorem State.send_retired (s : State) (m : Msg) : (s.send m).retired = s.retired := rfl
@[simp] theorem State.send_second (s : State) (m : Msg) : (s.send m).second = s.second := rfl
@[simp] theorem State.send_moves (s : State) (m : Msg) : (s.send m).moves = s.moves := rfl
@[simp] theorem State.send_counters (s : State) (m : Msg) : (s.send m).counters = s.counters := rfl
@[simp] theorem State.send_domains (s : State) (m : Msg) : (s.send m).domains = s.domains := rfl
@[simp] theorem State.send_nodes (s : State) (m : Msg) : (s.send m).nodes = s.nodes := rfl
@[simp] theorem State.send_nodeMarks (s : State) (m : Msg) : (s.send m).nodeMarks = s.nodeMarks := rfl
@[simp] theorem State.send_cache (s : State) (m : Msg) : (s.send m).cache = s.cache := rfl
@[simp] theorem State.send_badLines (s : State) (m : Msg) : (s.send m).badLines = s.badLines := rfl
@[simp] theorem State.send_patrol (s : State) (m : Msg) : (s.send m).patrol = s.patrol := rfl
@[simp] theorem State.send_queues (s : State) (m : Msg) : (s.send m).queues = s.queues := rfl
@[simp] theorem State.send_nextTurn (s : State) (m : Msg) : (s.send m).nextTurn = s.nextTurn := rfl
@[simp] theorem State.send_quantumNo (s : State) (m : Msg) : (s.send m).quantumNo = s.quantumNo := rfl
@[simp] theorem State.send_quantumAt (s : State) (m : Msg) : (s.send m).quantumAt = s.quantumAt := rfl
@[simp] theorem State.send_lastVf (s : State) (m : Msg) : (s.send m).lastVf = s.lastVf := rfl
@[simp] theorem State.send_launches (s : State) (m : Msg) : (s.send m).launches = s.launches := rfl
@[simp] theorem State.send_nextLaunch (s : State) (m : Msg) : (s.send m).nextLaunch = s.nextLaunch := rfl
@[simp] theorem State.send_tasks (s : State) (m : Msg) : (s.send m).tasks = s.tasks := rfl
@[simp] theorem State.send_reserved (s : State) (m : Msg) : (s.send m).reserved = s.reserved := rfl
@[simp] theorem State.send_teams (s : State) (m : Msg) : (s.send m).teams = s.teams := rfl
@[simp] theorem State.send_nextTeam (s : State) (m : Msg) : (s.send m).nextTeam = s.nextTeam := rfl
@[simp] theorem State.send_events (s : State) (m : Msg) : (s.send m).events = s.events := rfl
@[simp] theorem State.send_joins (s : State) (m : Msg) : (s.send m).joins = s.joins := rfl
@[simp] theorem State.send_tjoin (s : State) (m : Msg) : (s.send m).tjoin = s.tjoin := rfl
@[simp] theorem State.send_tenants (s : State) (m : Msg) : (s.send m).tenants = s.tenants := rfl
@[simp] theorem State.send_parts (s : State) (m : Msg) : (s.send m).parts = s.parts := rfl
@[simp] theorem State.send_ways (s : State) (m : Msg) : (s.send m).ways = s.ways := rfl
@[simp] theorem State.send_leases (s : State) (m : Msg) : (s.send m).leases = s.leases := rfl
@[simp] theorem State.send_borrows (s : State) (m : Msg) : (s.send m).borrows = s.borrows := rfl
@[simp] theorem State.send_ports (s : State) (m : Msg) : (s.send m).ports = s.ports := rfl
@[simp] theorem State.send_routes (s : State) (m : Msg) : (s.send m).routes = s.routes := rfl
@[simp] theorem State.send_channels (s : State) (m : Msg) : (s.send m).channels = s.channels := rfl
@[simp] theorem State.send_errs (s : State) (m : Msg) : (s.send m).errs = s.errs := rfl
@[simp] theorem State.send_ring (s : State) (m : Msg) : (s.send m).ring = s.ring := rfl
@[simp] theorem State.send_ringNext (s : State) (m : Msg) : (s.send m).ringNext = s.ringNext := rfl
@[simp] theorem State.send_rungs (s : State) (m : Msg) : (s.send m).rungs = s.rungs := rfl
@[simp] theorem State.send_module (s : State) (m : Msg) : (s.send m).module = s.module := rfl

/-! ### Updates of a core, field by field -/

@[simp] theorem Core.setTokens_team (k : Core) (n : Nat) (q : TokenQ) : (k.setTokens n q).team = k.team := rfl
@[simp] theorem Core.setTokens_rank (k : Core) (n : Nat) (q : TokenQ) : (k.setTokens n q).rank = k.rank := rfl
@[simp] theorem Core.setTokens_lastVf (k : Core) (n : Nat) (q : TokenQ) : (k.setTokens n q).lastVf = k.lastVf := rfl
@[simp] theorem Core.setTokens_clean (k : Core) (n : Nat) (q : TokenQ) : (k.setTokens n q).clean = k.clean := rfl
@[simp] theorem Core.setTokens_ctl (k : Core) (n : Nat) (q : TokenQ) : (k.setTokens n q).ctl = k.ctl := rfl
@[simp] theorem Core.setTokens_ld (k : Core) (n : Nat) (q : TokenQ) : (k.setTokens n q).ld = k.ld := rfl
@[simp] theorem Core.setTokens_cmp (k : Core) (n : Nat) (q : TokenQ) : (k.setTokens n q).cmp = k.cmp := rfl
@[simp] theorem Core.setTokens_st (k : Core) (n : Nat) (q : TokenQ) : (k.setTokens n q).st = k.st := rfl
@[simp] theorem Core.setTokens_biv (k : Core) (n : Nat) (q : TokenQ) : (k.setTokens n q).biv = k.biv := rfl
@[simp] theorem Core.setTokens_v (k : Core) (n : Nat) (q : TokenQ) : (k.setTokens n q).v = k.v := rfl
@[simp] theorem Core.setTokens_p (k : Core) (n : Nat) (q : TokenQ) : (k.setTokens n q).p = k.p := rfl
@[simp] theorem Core.setTokens_m (k : Core) (n : Nat) (q : TokenQ) : (k.setTokens n q).m = k.m := rfl
@[simp] theorem Core.setTokens_tstat (k : Core) (n : Nat) (q : TokenQ) : (k.setTokens n q).tstat = k.tstat := rfl
@[simp] theorem Core.setTokens_w (k : Core) (n : Nat) (q : TokenQ) : (k.setTokens n q).w = k.w := rfl
@[simp] theorem Core.setTokens_lq (k : Core) (n : Nat) (q : TokenQ) : (k.setTokens n q).lq = k.lq := rfl
@[simp] theorem Core.setTokens_sq (k : Core) (n : Nat) (q : TokenQ) : (k.setTokens n q).sq = k.sq := rfl
@[simp] theorem Core.setTokens_cq (k : Core) (n : Nat) (q : TokenQ) : (k.setTokens n q).cq = k.cq := rfl
@[simp] theorem Core.setTokens_yq (k : Core) (n : Nat) (q : TokenQ) : (k.setTokens n q).yq = k.yq := rfl
@[simp] theorem Core.setTokens_zq (k : Core) (n : Nat) (q : TokenQ) : (k.setTokens n q).zq = k.zq := rfl
@[simp] theorem Core.setTokens_nextTag (k : Core) (n : Nat) (q : TokenQ) : (k.setTokens n q).nextTag = k.nextTag := rfl
@[simp] theorem Core.setTokens_ab (k : Core) (n : Nat) (q : TokenQ) : (k.setTokens n q).ab = k.ab := rfl
@[simp] theorem Core.setTokens_table (k : Core) (n : Nat) (q : TokenQ) : (k.setTokens n q).table = k.table := rfl
@[simp] theorem Core.setTokens_sr (k : Core) (n : Nat) (q : TokenQ) : (k.setTokens n q).sr = k.sr := rfl
@[simp] theorem Core.setTokens_frame (k : Core) (n : Nat) (q : TokenQ) : (k.setTokens n q).frame = k.frame := rfl
@[simp] theorem Core.setTokens_pend (k : Core) (n : Nat) (q : TokenQ) : (k.setTokens n q).pend = k.pend := rfl
@[simp] theorem Core.setTokens_hotHold (k : Core) (n : Nat) (q : TokenQ) : (k.setTokens n q).hotHold = k.hotHold := rfl
@[simp] theorem Core.setTokens_demHold (k : Core) (n : Nat) (q : TokenQ) : (k.setTokens n q).demHold = k.demHold := rfl
@[simp] theorem Core.setTokens_msgHold (k : Core) (n : Nat) (q : TokenQ) : (k.setTokens n q).msgHold = k.msgHold := rfl
@[simp] theorem Core.setTokens_demWait (k : Core) (n : Nat) (q : TokenQ) : (k.setTokens n q).demWait = k.demWait := rfl
@[simp] theorem Core.setTokens_faultLog (k : Core) (n : Nat) (q : TokenQ) : (k.setTokens n q).faultLog = k.faultLog := rfl
@[simp] theorem Core.setTokens_faultSeq (k : Core) (n : Nat) (q : TokenQ) : (k.setTokens n q).faultSeq = k.faultSeq := rfl
@[simp] theorem Core.setTokens_records (k : Core) (n : Nat) (q : TokenQ) : (k.setTokens n q).records = k.records := rfl
@[simp] theorem Core.setTokens_logRecord (k : Core) (n : Nat) (q : TokenQ) : (k.setTokens n q).logRecord = k.logRecord := rfl
@[simp] theorem Core.setTokens_probeP (k : Core) (n : Nat) (q : TokenQ) : (k.setTokens n q).probeP = k.probeP := rfl
@[simp] theorem Core.setTokens_probe (k : Core) (n : Nat) (q : TokenQ) : (k.setTokens n q).probe = k.probe := rfl
@[simp] theorem Core.setTokens_recent (k : Core) (n : Nat) (q : TokenQ) : (k.setTokens n q).recent = k.recent := rfl
@[simp] theorem Core.setTokens_slot (k : Core) (n : Nat) (q : TokenQ) : (k.setTokens n q).slot = k.slot := rfl
@[simp] theorem Core.setTokens_flight (k : Core) (n : Nat) (q : TokenQ) : (k.setTokens n q).flight = k.flight := rfl
@[simp] theorem Core.setTokens_occEnd (k : Core) (n : Nat) (q : TokenQ) : (k.setTokens n q).occEnd = k.occEnd := rfl
@[simp] theorem Core.setTokens_chain (k : Core) (n : Nat) (q : TokenQ) : (k.setTokens n q).chain = k.chain := rfl
@[simp] theorem Core.setTokens_fenced (k : Core) (n : Nat) (q : TokenQ) : (k.setTokens n q).fenced = k.fenced := rfl
@[simp] theorem Core.setTokens_withdrawn (k : Core) (n : Nat) (q : TokenQ) : (k.setTokens n q).withdrawn = k.withdrawn := rfl
@[simp] theorem Core.setTokens_start (k : Core) (n : Nat) (q : TokenQ) : (k.setTokens n q).start = k.start := rfl

@[simp] theorem Core.setLoadQ_team (k : Core) (n : Nat) (q : List QEntry) : (k.setLoadQ n q).team = k.team := rfl
@[simp] theorem Core.setLoadQ_rank (k : Core) (n : Nat) (q : List QEntry) : (k.setLoadQ n q).rank = k.rank := rfl
@[simp] theorem Core.setLoadQ_lastVf (k : Core) (n : Nat) (q : List QEntry) : (k.setLoadQ n q).lastVf = k.lastVf := rfl
@[simp] theorem Core.setLoadQ_clean (k : Core) (n : Nat) (q : List QEntry) : (k.setLoadQ n q).clean = k.clean := rfl
@[simp] theorem Core.setLoadQ_ctl (k : Core) (n : Nat) (q : List QEntry) : (k.setLoadQ n q).ctl = k.ctl := rfl
@[simp] theorem Core.setLoadQ_ld (k : Core) (n : Nat) (q : List QEntry) : (k.setLoadQ n q).ld = k.ld := rfl
@[simp] theorem Core.setLoadQ_cmp (k : Core) (n : Nat) (q : List QEntry) : (k.setLoadQ n q).cmp = k.cmp := rfl
@[simp] theorem Core.setLoadQ_st (k : Core) (n : Nat) (q : List QEntry) : (k.setLoadQ n q).st = k.st := rfl
@[simp] theorem Core.setLoadQ_biv (k : Core) (n : Nat) (q : List QEntry) : (k.setLoadQ n q).biv = k.biv := rfl
@[simp] theorem Core.setLoadQ_v (k : Core) (n : Nat) (q : List QEntry) : (k.setLoadQ n q).v = k.v := rfl
@[simp] theorem Core.setLoadQ_p (k : Core) (n : Nat) (q : List QEntry) : (k.setLoadQ n q).p = k.p := rfl
@[simp] theorem Core.setLoadQ_m (k : Core) (n : Nat) (q : List QEntry) : (k.setLoadQ n q).m = k.m := rfl
@[simp] theorem Core.setLoadQ_tstat (k : Core) (n : Nat) (q : List QEntry) : (k.setLoadQ n q).tstat = k.tstat := rfl
@[simp] theorem Core.setLoadQ_w (k : Core) (n : Nat) (q : List QEntry) : (k.setLoadQ n q).w = k.w := rfl
@[simp] theorem Core.setLoadQ_k (k : Core) (n : Nat) (q : List QEntry) : (k.setLoadQ n q).k = k.k := rfl
@[simp] theorem Core.setLoadQ_sq (k : Core) (n : Nat) (q : List QEntry) : (k.setLoadQ n q).sq = k.sq := rfl
@[simp] theorem Core.setLoadQ_cq (k : Core) (n : Nat) (q : List QEntry) : (k.setLoadQ n q).cq = k.cq := rfl
@[simp] theorem Core.setLoadQ_yq (k : Core) (n : Nat) (q : List QEntry) : (k.setLoadQ n q).yq = k.yq := rfl
@[simp] theorem Core.setLoadQ_zq (k : Core) (n : Nat) (q : List QEntry) : (k.setLoadQ n q).zq = k.zq := rfl
@[simp] theorem Core.setLoadQ_nextTag (k : Core) (n : Nat) (q : List QEntry) : (k.setLoadQ n q).nextTag = k.nextTag := rfl
@[simp] theorem Core.setLoadQ_ab (k : Core) (n : Nat) (q : List QEntry) : (k.setLoadQ n q).ab = k.ab := rfl
@[simp] theorem Core.setLoadQ_table (k : Core) (n : Nat) (q : List QEntry) : (k.setLoadQ n q).table = k.table := rfl
@[simp] theorem Core.setLoadQ_sr (k : Core) (n : Nat) (q : List QEntry) : (k.setLoadQ n q).sr = k.sr := rfl
@[simp] theorem Core.setLoadQ_frame (k : Core) (n : Nat) (q : List QEntry) : (k.setLoadQ n q).frame = k.frame := rfl
@[simp] theorem Core.setLoadQ_pend (k : Core) (n : Nat) (q : List QEntry) : (k.setLoadQ n q).pend = k.pend := rfl
@[simp] theorem Core.setLoadQ_hotHold (k : Core) (n : Nat) (q : List QEntry) : (k.setLoadQ n q).hotHold = k.hotHold := rfl
@[simp] theorem Core.setLoadQ_demHold (k : Core) (n : Nat) (q : List QEntry) : (k.setLoadQ n q).demHold = k.demHold := rfl
@[simp] theorem Core.setLoadQ_msgHold (k : Core) (n : Nat) (q : List QEntry) : (k.setLoadQ n q).msgHold = k.msgHold := rfl
@[simp] theorem Core.setLoadQ_demWait (k : Core) (n : Nat) (q : List QEntry) : (k.setLoadQ n q).demWait = k.demWait := rfl
@[simp] theorem Core.setLoadQ_faultLog (k : Core) (n : Nat) (q : List QEntry) : (k.setLoadQ n q).faultLog = k.faultLog := rfl
@[simp] theorem Core.setLoadQ_faultSeq (k : Core) (n : Nat) (q : List QEntry) : (k.setLoadQ n q).faultSeq = k.faultSeq := rfl
@[simp] theorem Core.setLoadQ_records (k : Core) (n : Nat) (q : List QEntry) : (k.setLoadQ n q).records = k.records := rfl
@[simp] theorem Core.setLoadQ_logRecord (k : Core) (n : Nat) (q : List QEntry) : (k.setLoadQ n q).logRecord = k.logRecord := rfl
@[simp] theorem Core.setLoadQ_probeP (k : Core) (n : Nat) (q : List QEntry) : (k.setLoadQ n q).probeP = k.probeP := rfl
@[simp] theorem Core.setLoadQ_probe (k : Core) (n : Nat) (q : List QEntry) : (k.setLoadQ n q).probe = k.probe := rfl
@[simp] theorem Core.setLoadQ_recent (k : Core) (n : Nat) (q : List QEntry) : (k.setLoadQ n q).recent = k.recent := rfl
@[simp] theorem Core.setLoadQ_slot (k : Core) (n : Nat) (q : List QEntry) : (k.setLoadQ n q).slot = k.slot := rfl
@[simp] theorem Core.setLoadQ_flight (k : Core) (n : Nat) (q : List QEntry) : (k.setLoadQ n q).flight = k.flight := rfl
@[simp] theorem Core.setLoadQ_occEnd (k : Core) (n : Nat) (q : List QEntry) : (k.setLoadQ n q).occEnd = k.occEnd := rfl
@[simp] theorem Core.setLoadQ_chain (k : Core) (n : Nat) (q : List QEntry) : (k.setLoadQ n q).chain = k.chain := rfl
@[simp] theorem Core.setLoadQ_fenced (k : Core) (n : Nat) (q : List QEntry) : (k.setLoadQ n q).fenced = k.fenced := rfl
@[simp] theorem Core.setLoadQ_withdrawn (k : Core) (n : Nat) (q : List QEntry) : (k.setLoadQ n q).withdrawn = k.withdrawn := rfl
@[simp] theorem Core.setLoadQ_start (k : Core) (n : Nat) (q : List QEntry) : (k.setLoadQ n q).start = k.start := rfl

@[simp] theorem Core.setStoreQ_team (k : Core) (n : Nat) (q : List QEntry) : (k.setStoreQ n q).team = k.team := rfl
@[simp] theorem Core.setStoreQ_rank (k : Core) (n : Nat) (q : List QEntry) : (k.setStoreQ n q).rank = k.rank := rfl
@[simp] theorem Core.setStoreQ_lastVf (k : Core) (n : Nat) (q : List QEntry) : (k.setStoreQ n q).lastVf = k.lastVf := rfl
@[simp] theorem Core.setStoreQ_clean (k : Core) (n : Nat) (q : List QEntry) : (k.setStoreQ n q).clean = k.clean := rfl
@[simp] theorem Core.setStoreQ_ctl (k : Core) (n : Nat) (q : List QEntry) : (k.setStoreQ n q).ctl = k.ctl := rfl
@[simp] theorem Core.setStoreQ_ld (k : Core) (n : Nat) (q : List QEntry) : (k.setStoreQ n q).ld = k.ld := rfl
@[simp] theorem Core.setStoreQ_cmp (k : Core) (n : Nat) (q : List QEntry) : (k.setStoreQ n q).cmp = k.cmp := rfl
@[simp] theorem Core.setStoreQ_st (k : Core) (n : Nat) (q : List QEntry) : (k.setStoreQ n q).st = k.st := rfl
@[simp] theorem Core.setStoreQ_biv (k : Core) (n : Nat) (q : List QEntry) : (k.setStoreQ n q).biv = k.biv := rfl
@[simp] theorem Core.setStoreQ_v (k : Core) (n : Nat) (q : List QEntry) : (k.setStoreQ n q).v = k.v := rfl
@[simp] theorem Core.setStoreQ_p (k : Core) (n : Nat) (q : List QEntry) : (k.setStoreQ n q).p = k.p := rfl
@[simp] theorem Core.setStoreQ_m (k : Core) (n : Nat) (q : List QEntry) : (k.setStoreQ n q).m = k.m := rfl
@[simp] theorem Core.setStoreQ_tstat (k : Core) (n : Nat) (q : List QEntry) : (k.setStoreQ n q).tstat = k.tstat := rfl
@[simp] theorem Core.setStoreQ_w (k : Core) (n : Nat) (q : List QEntry) : (k.setStoreQ n q).w = k.w := rfl
@[simp] theorem Core.setStoreQ_k (k : Core) (n : Nat) (q : List QEntry) : (k.setStoreQ n q).k = k.k := rfl
@[simp] theorem Core.setStoreQ_lq (k : Core) (n : Nat) (q : List QEntry) : (k.setStoreQ n q).lq = k.lq := rfl
@[simp] theorem Core.setStoreQ_cq (k : Core) (n : Nat) (q : List QEntry) : (k.setStoreQ n q).cq = k.cq := rfl
@[simp] theorem Core.setStoreQ_yq (k : Core) (n : Nat) (q : List QEntry) : (k.setStoreQ n q).yq = k.yq := rfl
@[simp] theorem Core.setStoreQ_zq (k : Core) (n : Nat) (q : List QEntry) : (k.setStoreQ n q).zq = k.zq := rfl
@[simp] theorem Core.setStoreQ_nextTag (k : Core) (n : Nat) (q : List QEntry) : (k.setStoreQ n q).nextTag = k.nextTag := rfl
@[simp] theorem Core.setStoreQ_ab (k : Core) (n : Nat) (q : List QEntry) : (k.setStoreQ n q).ab = k.ab := rfl
@[simp] theorem Core.setStoreQ_table (k : Core) (n : Nat) (q : List QEntry) : (k.setStoreQ n q).table = k.table := rfl
@[simp] theorem Core.setStoreQ_sr (k : Core) (n : Nat) (q : List QEntry) : (k.setStoreQ n q).sr = k.sr := rfl
@[simp] theorem Core.setStoreQ_frame (k : Core) (n : Nat) (q : List QEntry) : (k.setStoreQ n q).frame = k.frame := rfl
@[simp] theorem Core.setStoreQ_pend (k : Core) (n : Nat) (q : List QEntry) : (k.setStoreQ n q).pend = k.pend := rfl
@[simp] theorem Core.setStoreQ_hotHold (k : Core) (n : Nat) (q : List QEntry) : (k.setStoreQ n q).hotHold = k.hotHold := rfl
@[simp] theorem Core.setStoreQ_demHold (k : Core) (n : Nat) (q : List QEntry) : (k.setStoreQ n q).demHold = k.demHold := rfl
@[simp] theorem Core.setStoreQ_msgHold (k : Core) (n : Nat) (q : List QEntry) : (k.setStoreQ n q).msgHold = k.msgHold := rfl
@[simp] theorem Core.setStoreQ_demWait (k : Core) (n : Nat) (q : List QEntry) : (k.setStoreQ n q).demWait = k.demWait := rfl
@[simp] theorem Core.setStoreQ_faultLog (k : Core) (n : Nat) (q : List QEntry) : (k.setStoreQ n q).faultLog = k.faultLog := rfl
@[simp] theorem Core.setStoreQ_faultSeq (k : Core) (n : Nat) (q : List QEntry) : (k.setStoreQ n q).faultSeq = k.faultSeq := rfl
@[simp] theorem Core.setStoreQ_records (k : Core) (n : Nat) (q : List QEntry) : (k.setStoreQ n q).records = k.records := rfl
@[simp] theorem Core.setStoreQ_logRecord (k : Core) (n : Nat) (q : List QEntry) : (k.setStoreQ n q).logRecord = k.logRecord := rfl
@[simp] theorem Core.setStoreQ_probeP (k : Core) (n : Nat) (q : List QEntry) : (k.setStoreQ n q).probeP = k.probeP := rfl
@[simp] theorem Core.setStoreQ_probe (k : Core) (n : Nat) (q : List QEntry) : (k.setStoreQ n q).probe = k.probe := rfl
@[simp] theorem Core.setStoreQ_recent (k : Core) (n : Nat) (q : List QEntry) : (k.setStoreQ n q).recent = k.recent := rfl
@[simp] theorem Core.setStoreQ_slot (k : Core) (n : Nat) (q : List QEntry) : (k.setStoreQ n q).slot = k.slot := rfl
@[simp] theorem Core.setStoreQ_flight (k : Core) (n : Nat) (q : List QEntry) : (k.setStoreQ n q).flight = k.flight := rfl
@[simp] theorem Core.setStoreQ_occEnd (k : Core) (n : Nat) (q : List QEntry) : (k.setStoreQ n q).occEnd = k.occEnd := rfl
@[simp] theorem Core.setStoreQ_chain (k : Core) (n : Nat) (q : List QEntry) : (k.setStoreQ n q).chain = k.chain := rfl
@[simp] theorem Core.setStoreQ_fenced (k : Core) (n : Nat) (q : List QEntry) : (k.setStoreQ n q).fenced = k.fenced := rfl
@[simp] theorem Core.setStoreQ_withdrawn (k : Core) (n : Nat) (q : List QEntry) : (k.setStoreQ n q).withdrawn = k.withdrawn := rfl
@[simp] theorem Core.setStoreQ_start (k : Core) (n : Nat) (q : List QEntry) : (k.setStoreQ n q).start = k.start := rfl

@[simp] theorem Core.setAbar_team (k : Core) (n : Nat) (b : ABar) : (k.setAbar n b).team = k.team := rfl
@[simp] theorem Core.setAbar_rank (k : Core) (n : Nat) (b : ABar) : (k.setAbar n b).rank = k.rank := rfl
@[simp] theorem Core.setAbar_lastVf (k : Core) (n : Nat) (b : ABar) : (k.setAbar n b).lastVf = k.lastVf := rfl
@[simp] theorem Core.setAbar_clean (k : Core) (n : Nat) (b : ABar) : (k.setAbar n b).clean = k.clean := rfl
@[simp] theorem Core.setAbar_ctl (k : Core) (n : Nat) (b : ABar) : (k.setAbar n b).ctl = k.ctl := rfl
@[simp] theorem Core.setAbar_ld (k : Core) (n : Nat) (b : ABar) : (k.setAbar n b).ld = k.ld := rfl
@[simp] theorem Core.setAbar_cmp (k : Core) (n : Nat) (b : ABar) : (k.setAbar n b).cmp = k.cmp := rfl
@[simp] theorem Core.setAbar_st (k : Core) (n : Nat) (b : ABar) : (k.setAbar n b).st = k.st := rfl
@[simp] theorem Core.setAbar_biv (k : Core) (n : Nat) (b : ABar) : (k.setAbar n b).biv = k.biv := rfl
@[simp] theorem Core.setAbar_v (k : Core) (n : Nat) (b : ABar) : (k.setAbar n b).v = k.v := rfl
@[simp] theorem Core.setAbar_p (k : Core) (n : Nat) (b : ABar) : (k.setAbar n b).p = k.p := rfl
@[simp] theorem Core.setAbar_m (k : Core) (n : Nat) (b : ABar) : (k.setAbar n b).m = k.m := rfl
@[simp] theorem Core.setAbar_tstat (k : Core) (n : Nat) (b : ABar) : (k.setAbar n b).tstat = k.tstat := rfl
@[simp] theorem Core.setAbar_w (k : Core) (n : Nat) (b : ABar) : (k.setAbar n b).w = k.w := rfl
@[simp] theorem Core.setAbar_k (k : Core) (n : Nat) (b : ABar) : (k.setAbar n b).k = k.k := rfl
@[simp] theorem Core.setAbar_lq (k : Core) (n : Nat) (b : ABar) : (k.setAbar n b).lq = k.lq := rfl
@[simp] theorem Core.setAbar_sq (k : Core) (n : Nat) (b : ABar) : (k.setAbar n b).sq = k.sq := rfl
@[simp] theorem Core.setAbar_cq (k : Core) (n : Nat) (b : ABar) : (k.setAbar n b).cq = k.cq := rfl
@[simp] theorem Core.setAbar_yq (k : Core) (n : Nat) (b : ABar) : (k.setAbar n b).yq = k.yq := rfl
@[simp] theorem Core.setAbar_zq (k : Core) (n : Nat) (b : ABar) : (k.setAbar n b).zq = k.zq := rfl
@[simp] theorem Core.setAbar_nextTag (k : Core) (n : Nat) (b : ABar) : (k.setAbar n b).nextTag = k.nextTag := rfl
@[simp] theorem Core.setAbar_table (k : Core) (n : Nat) (b : ABar) : (k.setAbar n b).table = k.table := rfl
@[simp] theorem Core.setAbar_sr (k : Core) (n : Nat) (b : ABar) : (k.setAbar n b).sr = k.sr := rfl
@[simp] theorem Core.setAbar_frame (k : Core) (n : Nat) (b : ABar) : (k.setAbar n b).frame = k.frame := rfl
@[simp] theorem Core.setAbar_pend (k : Core) (n : Nat) (b : ABar) : (k.setAbar n b).pend = k.pend := rfl
@[simp] theorem Core.setAbar_hotHold (k : Core) (n : Nat) (b : ABar) : (k.setAbar n b).hotHold = k.hotHold := rfl
@[simp] theorem Core.setAbar_demHold (k : Core) (n : Nat) (b : ABar) : (k.setAbar n b).demHold = k.demHold := rfl
@[simp] theorem Core.setAbar_msgHold (k : Core) (n : Nat) (b : ABar) : (k.setAbar n b).msgHold = k.msgHold := rfl
@[simp] theorem Core.setAbar_demWait (k : Core) (n : Nat) (b : ABar) : (k.setAbar n b).demWait = k.demWait := rfl
@[simp] theorem Core.setAbar_faultLog (k : Core) (n : Nat) (b : ABar) : (k.setAbar n b).faultLog = k.faultLog := rfl
@[simp] theorem Core.setAbar_faultSeq (k : Core) (n : Nat) (b : ABar) : (k.setAbar n b).faultSeq = k.faultSeq := rfl
@[simp] theorem Core.setAbar_records (k : Core) (n : Nat) (b : ABar) : (k.setAbar n b).records = k.records := rfl
@[simp] theorem Core.setAbar_logRecord (k : Core) (n : Nat) (b : ABar) : (k.setAbar n b).logRecord = k.logRecord := rfl
@[simp] theorem Core.setAbar_probeP (k : Core) (n : Nat) (b : ABar) : (k.setAbar n b).probeP = k.probeP := rfl
@[simp] theorem Core.setAbar_probe (k : Core) (n : Nat) (b : ABar) : (k.setAbar n b).probe = k.probe := rfl
@[simp] theorem Core.setAbar_recent (k : Core) (n : Nat) (b : ABar) : (k.setAbar n b).recent = k.recent := rfl
@[simp] theorem Core.setAbar_slot (k : Core) (n : Nat) (b : ABar) : (k.setAbar n b).slot = k.slot := rfl
@[simp] theorem Core.setAbar_flight (k : Core) (n : Nat) (b : ABar) : (k.setAbar n b).flight = k.flight := rfl
@[simp] theorem Core.setAbar_occEnd (k : Core) (n : Nat) (b : ABar) : (k.setAbar n b).occEnd = k.occEnd := rfl
@[simp] theorem Core.setAbar_chain (k : Core) (n : Nat) (b : ABar) : (k.setAbar n b).chain = k.chain := rfl
@[simp] theorem Core.setAbar_fenced (k : Core) (n : Nat) (b : ABar) : (k.setAbar n b).fenced = k.fenced := rfl
@[simp] theorem Core.setAbar_withdrawn (k : Core) (n : Nat) (b : ABar) : (k.setAbar n b).withdrawn = k.withdrawn := rfl
@[simp] theorem Core.setAbar_start (k : Core) (n : Nat) (b : ABar) : (k.setAbar n b).start = k.start := rfl

@[simp] theorem Core.setSlot_team (k : Core) (n : Nat) (v : ProbeSlot) : (k.setSlot n v).team = k.team := rfl
@[simp] theorem Core.setSlot_rank (k : Core) (n : Nat) (v : ProbeSlot) : (k.setSlot n v).rank = k.rank := rfl
@[simp] theorem Core.setSlot_lastVf (k : Core) (n : Nat) (v : ProbeSlot) : (k.setSlot n v).lastVf = k.lastVf := rfl
@[simp] theorem Core.setSlot_clean (k : Core) (n : Nat) (v : ProbeSlot) : (k.setSlot n v).clean = k.clean := rfl
@[simp] theorem Core.setSlot_ctl (k : Core) (n : Nat) (v : ProbeSlot) : (k.setSlot n v).ctl = k.ctl := rfl
@[simp] theorem Core.setSlot_ld (k : Core) (n : Nat) (v : ProbeSlot) : (k.setSlot n v).ld = k.ld := rfl
@[simp] theorem Core.setSlot_cmp (k : Core) (n : Nat) (v : ProbeSlot) : (k.setSlot n v).cmp = k.cmp := rfl
@[simp] theorem Core.setSlot_st (k : Core) (n : Nat) (v : ProbeSlot) : (k.setSlot n v).st = k.st := rfl
@[simp] theorem Core.setSlot_biv (k : Core) (n : Nat) (v : ProbeSlot) : (k.setSlot n v).biv = k.biv := rfl
@[simp] theorem Core.setSlot_v (k : Core) (n : Nat) (v : ProbeSlot) : (k.setSlot n v).v = k.v := rfl
@[simp] theorem Core.setSlot_p (k : Core) (n : Nat) (v : ProbeSlot) : (k.setSlot n v).p = k.p := rfl
@[simp] theorem Core.setSlot_m (k : Core) (n : Nat) (v : ProbeSlot) : (k.setSlot n v).m = k.m := rfl
@[simp] theorem Core.setSlot_tstat (k : Core) (n : Nat) (v : ProbeSlot) : (k.setSlot n v).tstat = k.tstat := rfl
@[simp] theorem Core.setSlot_w (k : Core) (n : Nat) (v : ProbeSlot) : (k.setSlot n v).w = k.w := rfl
@[simp] theorem Core.setSlot_k (k : Core) (n : Nat) (v : ProbeSlot) : (k.setSlot n v).k = k.k := rfl
@[simp] theorem Core.setSlot_lq (k : Core) (n : Nat) (v : ProbeSlot) : (k.setSlot n v).lq = k.lq := rfl
@[simp] theorem Core.setSlot_sq (k : Core) (n : Nat) (v : ProbeSlot) : (k.setSlot n v).sq = k.sq := rfl
@[simp] theorem Core.setSlot_cq (k : Core) (n : Nat) (v : ProbeSlot) : (k.setSlot n v).cq = k.cq := rfl
@[simp] theorem Core.setSlot_yq (k : Core) (n : Nat) (v : ProbeSlot) : (k.setSlot n v).yq = k.yq := rfl
@[simp] theorem Core.setSlot_zq (k : Core) (n : Nat) (v : ProbeSlot) : (k.setSlot n v).zq = k.zq := rfl
@[simp] theorem Core.setSlot_nextTag (k : Core) (n : Nat) (v : ProbeSlot) : (k.setSlot n v).nextTag = k.nextTag := rfl
@[simp] theorem Core.setSlot_ab (k : Core) (n : Nat) (v : ProbeSlot) : (k.setSlot n v).ab = k.ab := rfl
@[simp] theorem Core.setSlot_table (k : Core) (n : Nat) (v : ProbeSlot) : (k.setSlot n v).table = k.table := rfl
@[simp] theorem Core.setSlot_sr (k : Core) (n : Nat) (v : ProbeSlot) : (k.setSlot n v).sr = k.sr := rfl
@[simp] theorem Core.setSlot_frame (k : Core) (n : Nat) (v : ProbeSlot) : (k.setSlot n v).frame = k.frame := rfl
@[simp] theorem Core.setSlot_pend (k : Core) (n : Nat) (v : ProbeSlot) : (k.setSlot n v).pend = k.pend := rfl
@[simp] theorem Core.setSlot_hotHold (k : Core) (n : Nat) (v : ProbeSlot) : (k.setSlot n v).hotHold = k.hotHold := rfl
@[simp] theorem Core.setSlot_demHold (k : Core) (n : Nat) (v : ProbeSlot) : (k.setSlot n v).demHold = k.demHold := rfl
@[simp] theorem Core.setSlot_msgHold (k : Core) (n : Nat) (v : ProbeSlot) : (k.setSlot n v).msgHold = k.msgHold := rfl
@[simp] theorem Core.setSlot_demWait (k : Core) (n : Nat) (v : ProbeSlot) : (k.setSlot n v).demWait = k.demWait := rfl
@[simp] theorem Core.setSlot_faultLog (k : Core) (n : Nat) (v : ProbeSlot) : (k.setSlot n v).faultLog = k.faultLog := rfl
@[simp] theorem Core.setSlot_faultSeq (k : Core) (n : Nat) (v : ProbeSlot) : (k.setSlot n v).faultSeq = k.faultSeq := rfl
@[simp] theorem Core.setSlot_records (k : Core) (n : Nat) (v : ProbeSlot) : (k.setSlot n v).records = k.records := rfl
@[simp] theorem Core.setSlot_logRecord (k : Core) (n : Nat) (v : ProbeSlot) : (k.setSlot n v).logRecord = k.logRecord := rfl
@[simp] theorem Core.setSlot_probeP (k : Core) (n : Nat) (v : ProbeSlot) : (k.setSlot n v).probeP = k.probeP := rfl
@[simp] theorem Core.setSlot_recent (k : Core) (n : Nat) (v : ProbeSlot) : (k.setSlot n v).recent = k.recent := rfl
@[simp] theorem Core.setSlot_slot (k : Core) (n : Nat) (v : ProbeSlot) : (k.setSlot n v).slot = k.slot := rfl
@[simp] theorem Core.setSlot_flight (k : Core) (n : Nat) (v : ProbeSlot) : (k.setSlot n v).flight = k.flight := rfl
@[simp] theorem Core.setSlot_occEnd (k : Core) (n : Nat) (v : ProbeSlot) : (k.setSlot n v).occEnd = k.occEnd := rfl
@[simp] theorem Core.setSlot_chain (k : Core) (n : Nat) (v : ProbeSlot) : (k.setSlot n v).chain = k.chain := rfl
@[simp] theorem Core.setSlot_fenced (k : Core) (n : Nat) (v : ProbeSlot) : (k.setSlot n v).fenced = k.fenced := rfl
@[simp] theorem Core.setSlot_withdrawn (k : Core) (n : Nat) (v : ProbeSlot) : (k.setSlot n v).withdrawn = k.withdrawn := rfl
@[simp] theorem Core.setSlot_start (k : Core) (n : Nat) (v : ProbeSlot) : (k.setSlot n v).start = k.start := rfl

@[simp] theorem Core.setLanes_team (k : Core) (r : Nat) (ls : List (Nat × Lane)) : (k.setLanes r ls).team = k.team := rfl
@[simp] theorem Core.setLanes_rank (k : Core) (r : Nat) (ls : List (Nat × Lane)) : (k.setLanes r ls).rank = k.rank := rfl
@[simp] theorem Core.setLanes_lastVf (k : Core) (r : Nat) (ls : List (Nat × Lane)) : (k.setLanes r ls).lastVf = k.lastVf := rfl
@[simp] theorem Core.setLanes_clean (k : Core) (r : Nat) (ls : List (Nat × Lane)) : (k.setLanes r ls).clean = k.clean := rfl
@[simp] theorem Core.setLanes_ctl (k : Core) (r : Nat) (ls : List (Nat × Lane)) : (k.setLanes r ls).ctl = k.ctl := rfl
@[simp] theorem Core.setLanes_ld (k : Core) (r : Nat) (ls : List (Nat × Lane)) : (k.setLanes r ls).ld = k.ld := rfl
@[simp] theorem Core.setLanes_cmp (k : Core) (r : Nat) (ls : List (Nat × Lane)) : (k.setLanes r ls).cmp = k.cmp := rfl
@[simp] theorem Core.setLanes_st (k : Core) (r : Nat) (ls : List (Nat × Lane)) : (k.setLanes r ls).st = k.st := rfl
@[simp] theorem Core.setLanes_biv (k : Core) (r : Nat) (ls : List (Nat × Lane)) : (k.setLanes r ls).biv = k.biv := rfl
@[simp] theorem Core.setLanes_p (k : Core) (r : Nat) (ls : List (Nat × Lane)) : (k.setLanes r ls).p = k.p := rfl
@[simp] theorem Core.setLanes_m (k : Core) (r : Nat) (ls : List (Nat × Lane)) : (k.setLanes r ls).m = k.m := rfl
@[simp] theorem Core.setLanes_tstat (k : Core) (r : Nat) (ls : List (Nat × Lane)) : (k.setLanes r ls).tstat = k.tstat := rfl
@[simp] theorem Core.setLanes_w (k : Core) (r : Nat) (ls : List (Nat × Lane)) : (k.setLanes r ls).w = k.w := rfl
@[simp] theorem Core.setLanes_k (k : Core) (r : Nat) (ls : List (Nat × Lane)) : (k.setLanes r ls).k = k.k := rfl
@[simp] theorem Core.setLanes_lq (k : Core) (r : Nat) (ls : List (Nat × Lane)) : (k.setLanes r ls).lq = k.lq := rfl
@[simp] theorem Core.setLanes_sq (k : Core) (r : Nat) (ls : List (Nat × Lane)) : (k.setLanes r ls).sq = k.sq := rfl
@[simp] theorem Core.setLanes_cq (k : Core) (r : Nat) (ls : List (Nat × Lane)) : (k.setLanes r ls).cq = k.cq := rfl
@[simp] theorem Core.setLanes_yq (k : Core) (r : Nat) (ls : List (Nat × Lane)) : (k.setLanes r ls).yq = k.yq := rfl
@[simp] theorem Core.setLanes_zq (k : Core) (r : Nat) (ls : List (Nat × Lane)) : (k.setLanes r ls).zq = k.zq := rfl
@[simp] theorem Core.setLanes_nextTag (k : Core) (r : Nat) (ls : List (Nat × Lane)) : (k.setLanes r ls).nextTag = k.nextTag := rfl
@[simp] theorem Core.setLanes_ab (k : Core) (r : Nat) (ls : List (Nat × Lane)) : (k.setLanes r ls).ab = k.ab := rfl
@[simp] theorem Core.setLanes_table (k : Core) (r : Nat) (ls : List (Nat × Lane)) : (k.setLanes r ls).table = k.table := rfl
@[simp] theorem Core.setLanes_sr (k : Core) (r : Nat) (ls : List (Nat × Lane)) : (k.setLanes r ls).sr = k.sr := rfl
@[simp] theorem Core.setLanes_frame (k : Core) (r : Nat) (ls : List (Nat × Lane)) : (k.setLanes r ls).frame = k.frame := rfl
@[simp] theorem Core.setLanes_pend (k : Core) (r : Nat) (ls : List (Nat × Lane)) : (k.setLanes r ls).pend = k.pend := rfl
@[simp] theorem Core.setLanes_hotHold (k : Core) (r : Nat) (ls : List (Nat × Lane)) : (k.setLanes r ls).hotHold = k.hotHold := rfl
@[simp] theorem Core.setLanes_demHold (k : Core) (r : Nat) (ls : List (Nat × Lane)) : (k.setLanes r ls).demHold = k.demHold := rfl
@[simp] theorem Core.setLanes_msgHold (k : Core) (r : Nat) (ls : List (Nat × Lane)) : (k.setLanes r ls).msgHold = k.msgHold := rfl
@[simp] theorem Core.setLanes_demWait (k : Core) (r : Nat) (ls : List (Nat × Lane)) : (k.setLanes r ls).demWait = k.demWait := rfl
@[simp] theorem Core.setLanes_faultLog (k : Core) (r : Nat) (ls : List (Nat × Lane)) : (k.setLanes r ls).faultLog = k.faultLog := rfl
@[simp] theorem Core.setLanes_faultSeq (k : Core) (r : Nat) (ls : List (Nat × Lane)) : (k.setLanes r ls).faultSeq = k.faultSeq := rfl
@[simp] theorem Core.setLanes_records (k : Core) (r : Nat) (ls : List (Nat × Lane)) : (k.setLanes r ls).records = k.records := rfl
@[simp] theorem Core.setLanes_logRecord (k : Core) (r : Nat) (ls : List (Nat × Lane)) : (k.setLanes r ls).logRecord = k.logRecord := rfl
@[simp] theorem Core.setLanes_probeP (k : Core) (r : Nat) (ls : List (Nat × Lane)) : (k.setLanes r ls).probeP = k.probeP := rfl
@[simp] theorem Core.setLanes_probe (k : Core) (r : Nat) (ls : List (Nat × Lane)) : (k.setLanes r ls).probe = k.probe := rfl
@[simp] theorem Core.setLanes_recent (k : Core) (r : Nat) (ls : List (Nat × Lane)) : (k.setLanes r ls).recent = k.recent := rfl
@[simp] theorem Core.setLanes_slot (k : Core) (r : Nat) (ls : List (Nat × Lane)) : (k.setLanes r ls).slot = k.slot := rfl
@[simp] theorem Core.setLanes_flight (k : Core) (r : Nat) (ls : List (Nat × Lane)) : (k.setLanes r ls).flight = k.flight := rfl
@[simp] theorem Core.setLanes_occEnd (k : Core) (r : Nat) (ls : List (Nat × Lane)) : (k.setLanes r ls).occEnd = k.occEnd := rfl
@[simp] theorem Core.setLanes_chain (k : Core) (r : Nat) (ls : List (Nat × Lane)) : (k.setLanes r ls).chain = k.chain := rfl
@[simp] theorem Core.setLanes_fenced (k : Core) (r : Nat) (ls : List (Nat × Lane)) : (k.setLanes r ls).fenced = k.fenced := rfl
@[simp] theorem Core.setLanes_withdrawn (k : Core) (r : Nat) (ls : List (Nat × Lane)) : (k.setLanes r ls).withdrawn = k.withdrawn := rfl
@[simp] theorem Core.setLanes_start (k : Core) (r : Nat) (ls : List (Nat × Lane)) : (k.setLanes r ls).start = k.start := rfl

@[simp] theorem Core.setCtx_team (k : Core) (x : CtxId) (v : Ctx) : (k.setCtx x v).team = k.team := by cases x <;> rfl
@[simp] theorem Core.setCtx_rank (k : Core) (x : CtxId) (v : Ctx) : (k.setCtx x v).rank = k.rank := by cases x <;> rfl
@[simp] theorem Core.setCtx_lastVf (k : Core) (x : CtxId) (v : Ctx) : (k.setCtx x v).lastVf = k.lastVf := by cases x <;> rfl
@[simp] theorem Core.setCtx_clean (k : Core) (x : CtxId) (v : Ctx) : (k.setCtx x v).clean = k.clean := by cases x <;> rfl
@[simp] theorem Core.setCtx_v (k : Core) (x : CtxId) (v : Ctx) : (k.setCtx x v).v = k.v := by cases x <;> rfl
@[simp] theorem Core.setCtx_p (k : Core) (x : CtxId) (v : Ctx) : (k.setCtx x v).p = k.p := by cases x <;> rfl
@[simp] theorem Core.setCtx_m (k : Core) (x : CtxId) (v : Ctx) : (k.setCtx x v).m = k.m := by cases x <;> rfl
@[simp] theorem Core.setCtx_tstat (k : Core) (x : CtxId) (v : Ctx) : (k.setCtx x v).tstat = k.tstat := by cases x <;> rfl
@[simp] theorem Core.setCtx_w (k : Core) (x : CtxId) (v : Ctx) : (k.setCtx x v).w = k.w := by cases x <;> rfl
@[simp] theorem Core.setCtx_k (k : Core) (x : CtxId) (v : Ctx) : (k.setCtx x v).k = k.k := by cases x <;> rfl
@[simp] theorem Core.setCtx_lq (k : Core) (x : CtxId) (v : Ctx) : (k.setCtx x v).lq = k.lq := by cases x <;> rfl
@[simp] theorem Core.setCtx_sq (k : Core) (x : CtxId) (v : Ctx) : (k.setCtx x v).sq = k.sq := by cases x <;> rfl
@[simp] theorem Core.setCtx_cq (k : Core) (x : CtxId) (v : Ctx) : (k.setCtx x v).cq = k.cq := by cases x <;> rfl
@[simp] theorem Core.setCtx_yq (k : Core) (x : CtxId) (v : Ctx) : (k.setCtx x v).yq = k.yq := by cases x <;> rfl
@[simp] theorem Core.setCtx_zq (k : Core) (x : CtxId) (v : Ctx) : (k.setCtx x v).zq = k.zq := by cases x <;> rfl
@[simp] theorem Core.setCtx_nextTag (k : Core) (x : CtxId) (v : Ctx) : (k.setCtx x v).nextTag = k.nextTag := by cases x <;> rfl
@[simp] theorem Core.setCtx_ab (k : Core) (x : CtxId) (v : Ctx) : (k.setCtx x v).ab = k.ab := by cases x <;> rfl
@[simp] theorem Core.setCtx_table (k : Core) (x : CtxId) (v : Ctx) : (k.setCtx x v).table = k.table := by cases x <;> rfl
@[simp] theorem Core.setCtx_sr (k : Core) (x : CtxId) (v : Ctx) : (k.setCtx x v).sr = k.sr := by cases x <;> rfl
@[simp] theorem Core.setCtx_frame (k : Core) (x : CtxId) (v : Ctx) : (k.setCtx x v).frame = k.frame := by cases x <;> rfl
@[simp] theorem Core.setCtx_pend (k : Core) (x : CtxId) (v : Ctx) : (k.setCtx x v).pend = k.pend := by cases x <;> rfl
@[simp] theorem Core.setCtx_hotHold (k : Core) (x : CtxId) (v : Ctx) : (k.setCtx x v).hotHold = k.hotHold := by cases x <;> rfl
@[simp] theorem Core.setCtx_demHold (k : Core) (x : CtxId) (v : Ctx) : (k.setCtx x v).demHold = k.demHold := by cases x <;> rfl
@[simp] theorem Core.setCtx_msgHold (k : Core) (x : CtxId) (v : Ctx) : (k.setCtx x v).msgHold = k.msgHold := by cases x <;> rfl
@[simp] theorem Core.setCtx_demWait (k : Core) (x : CtxId) (v : Ctx) : (k.setCtx x v).demWait = k.demWait := by cases x <;> rfl
@[simp] theorem Core.setCtx_faultLog (k : Core) (x : CtxId) (v : Ctx) : (k.setCtx x v).faultLog = k.faultLog := by cases x <;> rfl
@[simp] theorem Core.setCtx_faultSeq (k : Core) (x : CtxId) (v : Ctx) : (k.setCtx x v).faultSeq = k.faultSeq := by cases x <;> rfl
@[simp] theorem Core.setCtx_records (k : Core) (x : CtxId) (v : Ctx) : (k.setCtx x v).records = k.records := by cases x <;> rfl
@[simp] theorem Core.setCtx_logRecord (k : Core) (x : CtxId) (v : Ctx) : (k.setCtx x v).logRecord = k.logRecord := by cases x <;> rfl
@[simp] theorem Core.setCtx_probeP (k : Core) (x : CtxId) (v : Ctx) : (k.setCtx x v).probeP = k.probeP := by cases x <;> rfl
@[simp] theorem Core.setCtx_probe (k : Core) (x : CtxId) (v : Ctx) : (k.setCtx x v).probe = k.probe := by cases x <;> rfl
@[simp] theorem Core.setCtx_recent (k : Core) (x : CtxId) (v : Ctx) : (k.setCtx x v).recent = k.recent := by cases x <;> rfl
@[simp] theorem Core.setCtx_slot (k : Core) (x : CtxId) (v : Ctx) : (k.setCtx x v).slot = k.slot := by cases x <;> rfl
@[simp] theorem Core.setCtx_flight (k : Core) (x : CtxId) (v : Ctx) : (k.setCtx x v).flight = k.flight := by cases x <;> rfl
@[simp] theorem Core.setCtx_occEnd (k : Core) (x : CtxId) (v : Ctx) : (k.setCtx x v).occEnd = k.occEnd := by cases x <;> rfl
@[simp] theorem Core.setCtx_chain (k : Core) (x : CtxId) (v : Ctx) : (k.setCtx x v).chain = k.chain := by cases x <;> rfl
@[simp] theorem Core.setCtx_fenced (k : Core) (x : CtxId) (v : Ctx) : (k.setCtx x v).fenced = k.fenced := by cases x <;> rfl
@[simp] theorem Core.setCtx_withdrawn (k : Core) (x : CtxId) (v : Ctx) : (k.setCtx x v).withdrawn = k.withdrawn := by cases x <;> rfl
@[simp] theorem Core.setCtx_start (k : Core) (x : CtxId) (v : Ctx) : (k.setCtx x v).start = k.start := by cases x <;> rfl

@[simp] theorem Core.setPred_team (k : Core) (n : Nat) (m v : Word) : (k.setPred n m v).team = k.team := by
  unfold Core.setPred; split <;> rfl
@[simp] theorem Core.setPred_rank (k : Core) (n : Nat) (m v : Word) : (k.setPred n m v).rank = k.rank := by
  unfold Core.setPred; split <;> rfl
@[simp] theorem Core.setPred_lastVf (k : Core) (n : Nat) (m v : Word) : (k.setPred n m v).lastVf = k.lastVf := by
  unfold Core.setPred; split <;> rfl
@[simp] theorem Core.setPred_clean (k : Core) (n : Nat) (m v : Word) : (k.setPred n m v).clean = k.clean := by
  unfold Core.setPred; split <;> rfl
@[simp] theorem Core.setPred_ctl (k : Core) (n : Nat) (m v : Word) : (k.setPred n m v).ctl = k.ctl := by
  unfold Core.setPred; split <;> rfl
@[simp] theorem Core.setPred_ld (k : Core) (n : Nat) (m v : Word) : (k.setPred n m v).ld = k.ld := by
  unfold Core.setPred; split <;> rfl
@[simp] theorem Core.setPred_cmp (k : Core) (n : Nat) (m v : Word) : (k.setPred n m v).cmp = k.cmp := by
  unfold Core.setPred; split <;> rfl
@[simp] theorem Core.setPred_st (k : Core) (n : Nat) (m v : Word) : (k.setPred n m v).st = k.st := by
  unfold Core.setPred; split <;> rfl
@[simp] theorem Core.setPred_biv (k : Core) (n : Nat) (m v : Word) : (k.setPred n m v).biv = k.biv := by
  unfold Core.setPred; split <;> rfl
@[simp] theorem Core.setPred_v (k : Core) (n : Nat) (m v : Word) : (k.setPred n m v).v = k.v := by
  unfold Core.setPred; split <;> rfl
@[simp] theorem Core.setPred_m (k : Core) (n : Nat) (m v : Word) : (k.setPred n m v).m = k.m := by
  unfold Core.setPred; split <;> rfl
@[simp] theorem Core.setPred_tstat (k : Core) (n : Nat) (m v : Word) : (k.setPred n m v).tstat = k.tstat := by
  unfold Core.setPred; split <;> rfl
@[simp] theorem Core.setPred_w (k : Core) (n : Nat) (m v : Word) : (k.setPred n m v).w = k.w := by
  unfold Core.setPred; split <;> rfl
@[simp] theorem Core.setPred_k (k : Core) (n : Nat) (m v : Word) : (k.setPred n m v).k = k.k := by
  unfold Core.setPred; split <;> rfl
@[simp] theorem Core.setPred_lq (k : Core) (n : Nat) (m v : Word) : (k.setPred n m v).lq = k.lq := by
  unfold Core.setPred; split <;> rfl
@[simp] theorem Core.setPred_sq (k : Core) (n : Nat) (m v : Word) : (k.setPred n m v).sq = k.sq := by
  unfold Core.setPred; split <;> rfl
@[simp] theorem Core.setPred_cq (k : Core) (n : Nat) (m v : Word) : (k.setPred n m v).cq = k.cq := by
  unfold Core.setPred; split <;> rfl
@[simp] theorem Core.setPred_yq (k : Core) (n : Nat) (m v : Word) : (k.setPred n m v).yq = k.yq := by
  unfold Core.setPred; split <;> rfl
@[simp] theorem Core.setPred_zq (k : Core) (n : Nat) (m v : Word) : (k.setPred n m v).zq = k.zq := by
  unfold Core.setPred; split <;> rfl
@[simp] theorem Core.setPred_nextTag (k : Core) (n : Nat) (m v : Word) : (k.setPred n m v).nextTag = k.nextTag := by
  unfold Core.setPred; split <;> rfl
@[simp] theorem Core.setPred_ab (k : Core) (n : Nat) (m v : Word) : (k.setPred n m v).ab = k.ab := by
  unfold Core.setPred; split <;> rfl
@[simp] theorem Core.setPred_table (k : Core) (n : Nat) (m v : Word) : (k.setPred n m v).table = k.table := by
  unfold Core.setPred; split <;> rfl
@[simp] theorem Core.setPred_sr (k : Core) (n : Nat) (m v : Word) : (k.setPred n m v).sr = k.sr := by
  unfold Core.setPred; split <;> rfl
@[simp] theorem Core.setPred_frame (k : Core) (n : Nat) (m v : Word) : (k.setPred n m v).frame = k.frame := by
  unfold Core.setPred; split <;> rfl
@[simp] theorem Core.setPred_pend (k : Core) (n : Nat) (m v : Word) : (k.setPred n m v).pend = k.pend := by
  unfold Core.setPred; split <;> rfl
@[simp] theorem Core.setPred_hotHold (k : Core) (n : Nat) (m v : Word) : (k.setPred n m v).hotHold = k.hotHold := by
  unfold Core.setPred; split <;> rfl
@[simp] theorem Core.setPred_demHold (k : Core) (n : Nat) (m v : Word) : (k.setPred n m v).demHold = k.demHold := by
  unfold Core.setPred; split <;> rfl
@[simp] theorem Core.setPred_msgHold (k : Core) (n : Nat) (m v : Word) : (k.setPred n m v).msgHold = k.msgHold := by
  unfold Core.setPred; split <;> rfl
@[simp] theorem Core.setPred_demWait (k : Core) (n : Nat) (m v : Word) : (k.setPred n m v).demWait = k.demWait := by
  unfold Core.setPred; split <;> rfl
@[simp] theorem Core.setPred_faultLog (k : Core) (n : Nat) (m v : Word) : (k.setPred n m v).faultLog = k.faultLog := by
  unfold Core.setPred; split <;> rfl
@[simp] theorem Core.setPred_faultSeq (k : Core) (n : Nat) (m v : Word) : (k.setPred n m v).faultSeq = k.faultSeq := by
  unfold Core.setPred; split <;> rfl
@[simp] theorem Core.setPred_records (k : Core) (n : Nat) (m v : Word) : (k.setPred n m v).records = k.records := by
  unfold Core.setPred; split <;> rfl
@[simp] theorem Core.setPred_logRecord (k : Core) (n : Nat) (m v : Word) : (k.setPred n m v).logRecord = k.logRecord := by
  unfold Core.setPred; split <;> rfl
@[simp] theorem Core.setPred_probeP (k : Core) (n : Nat) (m v : Word) : (k.setPred n m v).probeP = k.probeP := by
  unfold Core.setPred; split <;> rfl
@[simp] theorem Core.setPred_probe (k : Core) (n : Nat) (m v : Word) : (k.setPred n m v).probe = k.probe := by
  unfold Core.setPred; split <;> rfl
@[simp] theorem Core.setPred_recent (k : Core) (n : Nat) (m v : Word) : (k.setPred n m v).recent = k.recent := by
  unfold Core.setPred; split <;> rfl
@[simp] theorem Core.setPred_slot (k : Core) (n : Nat) (m v : Word) : (k.setPred n m v).slot = k.slot := by
  unfold Core.setPred; split <;> rfl
@[simp] theorem Core.setPred_flight (k : Core) (n : Nat) (m v : Word) : (k.setPred n m v).flight = k.flight := by
  unfold Core.setPred; split <;> rfl
@[simp] theorem Core.setPred_occEnd (k : Core) (n : Nat) (m v : Word) : (k.setPred n m v).occEnd = k.occEnd := by
  unfold Core.setPred; split <;> rfl
@[simp] theorem Core.setPred_chain (k : Core) (n : Nat) (m v : Word) : (k.setPred n m v).chain = k.chain := by
  unfold Core.setPred; split <;> rfl
@[simp] theorem Core.setPred_fenced (k : Core) (n : Nat) (m v : Word) : (k.setPred n m v).fenced = k.fenced := by
  unfold Core.setPred; split <;> rfl
@[simp] theorem Core.setPred_withdrawn (k : Core) (n : Nat) (m v : Word) : (k.setPred n m v).withdrawn = k.withdrawn := by
  unfold Core.setPred; split <;> rfl
@[simp] theorem Core.setPred_start (k : Core) (n : Nat) (m v : Word) : (k.setPred n m v).start = k.start := by
  unfold Core.setPred; split <;> rfl

@[simp] theorem Ctx.setReg_run (k : Ctx) (n : Nat) (v : Word) : (k.setReg n v).run = k.run := by
  unfold Ctx.setReg; split <;> rfl
@[simp] theorem Ctx.setReg_atEntry (k : Ctx) (n : Nat) (v : Word) : (k.setReg n v).atEntry = k.atEntry := by
  unfold Ctx.setReg; split <;> rfl
@[simp] theorem Ctx.setReg_pc (k : Ctx) (n : Nat) (v : Word) : (k.setReg n v).pc = k.pc := by
  unfold Ctx.setReg; split <;> rfl
@[simp] theorem Ctx.setReg_loops (k : Ctx) (n : Nat) (v : Word) : (k.setReg n v).loops = k.loops := by
  unfold Ctx.setReg; split <;> rfl
@[simp] theorem Ctx.setReg_rb (k : Ctx) (n : Nat) (v : Word) : (k.setReg n v).rb = k.rb := by
  unfold Ctx.setReg; split <;> rfl
@[simp] theorem Ctx.setReg_ops (k : Ctx) (n : Nat) (v : Word) : (k.setReg n v).ops = k.ops := by
  unfold Ctx.setReg; split <;> rfl
@[simp] theorem Ctx.setReg_nextOp (k : Ctx) (n : Nat) (v : Word) : (k.setReg n v).nextOp = k.nextOp := by
  unfold Ctx.setReg; split <;> rfl
@[simp] theorem Ctx.setReg_seen (k : Ctx) (n : Nat) (v : Word) : (k.setReg n v).seen = k.seen := by
  unfold Ctx.setReg; split <;> rfl
@[simp] theorem Ctx.setReg_hintDrop (k : Ctx) (n : Nat) (v : Word) : (k.setReg n v).hintDrop = k.hintDrop := by
  unfold Ctx.setReg; split <;> rfl
@[simp] theorem Ctx.setReg_hold (k : Ctx) (n : Nat) (v : Word) : (k.setReg n v).hold = k.hold := by
  unfold Ctx.setReg; split <;> rfl
@[simp] theorem Ctx.setReg_fetched (k : Ctx) (n : Nat) (v : Word) : (k.setReg n v).fetched = k.fetched := by
  unfold Ctx.setReg; split <;> rfl
@[simp] theorem Ctx.setReg_want (k : Ctx) (n : Nat) (v : Word) : (k.setReg n v).want = k.want := by
  unfold Ctx.setReg; split <;> rfl
@[simp] theorem Ctx.setReg_ahead (k : Ctx) (n : Nat) (v : Word) : (k.setReg n v).ahead = k.ahead := by
  unfold Ctx.setReg; split <;> rfl
@[simp] theorem Ctx.setReg_lines (k : Ctx) (n : Nat) (v : Word) : (k.setReg n v).lines = k.lines := by
  unfold Ctx.setReg; split <;> rfl

/-! ### Reads after updates -/

@[simp] theorem State.coreAt_setCore_self (s : State) (c : Nat) (k : Core) : (s.setCore c k).coreAt c = k := by
  simp [State.coreAt, State.setCore]

theorem State.coreAt_setCore_ne (s : State) {c d : Nat} (k : Core) (h : d ≠ c) : (s.setCore c k).coreAt d = s.coreAt d :=
  Tab.get_set_ne _ _ _ h

@[simp] theorem State.setCore_setCore (s : State) (c : Nat) (k l : Core) : (s.setCore c k).setCore c l = s.setCore c l := by
  simp [State.setCore]

@[simp] theorem Core.ctxOf_setCtx_self (k : Core) (x : CtxId) (v : Ctx) : (k.setCtx x v).ctxOf x = v := by cases x <;> rfl

theorem Core.ctxOf_setCtx_ne (k : Core) {x y : CtxId} (v : Ctx) (h : y ≠ x) : (k.setCtx x v).ctxOf y = k.ctxOf y := by
  cases x <;> cases y <;> first | rfl | exact absurd rfl h

@[simp] theorem Core.setCtx_setCtx (k : Core) (x : CtxId) (v w : Ctx) : (k.setCtx x v).setCtx x w = k.setCtx x w := by
  cases x <;> rfl

/-- Putting a context back as it is changes nothing. -/
@[simp] theorem Core.setCtx_ctxOf (k : Core) (x : CtxId) : k.setCtx x (k.ctxOf x) = k := by cases x <;> rfl

@[simp] theorem State.ctxAt_setCtx_self (s : State) (c : Nat) (x : CtxId) (v : Ctx) : (s.setCtx c x v).ctxAt c x = v := by
  simp [State.ctxAt, State.setCtx]

@[simp] theorem State.cur_setCur (s : State) (v : Ctx) : (s.setCur v).cur = v := by
  simp [State.cur, State.setCur]

@[simp] theorem State.curCore_setCurCore (s : State) (k : Core) : (s.setCurCore k).curCore = k := by
  simp [State.curCore, State.setCurCore]

@[simp] theorem State.curCore_setCur (s : State) (v : Ctx) : (s.setCur v).curCore = s.curCore.setCtx s.ctx v := by
  simp [State.curCore, State.setCur, State.setCtx]

@[simp] theorem State.setCur_setCur (s : State) (v w : Ctx) : (s.setCur v).setCur w = s.setCur w := by
  simp [State.setCur, State.setCtx]

@[simp] theorem State.setCurCore_setCurCore (s : State) (k l : Core) : (s.setCurCore k).setCurCore l = s.setCurCore l := by
  simp [State.setCurCore]

/-- The issuing context lies in the issuing core. -/
theorem State.cur_eq (s : State) : s.cur = s.curCore.ctxOf s.ctx := rfl

/-- Putting the issuing context is putting its core. -/
theorem State.setCur_eq (s : State) (v : Ctx) : s.setCur v = s.setCurCore (s.curCore.setCtx s.ctx v) := rfl

theorem State.ctxAt_setCur_ne (s : State) (v : Ctx) {x : CtxId} (h : x ≠ s.ctx) :
    (s.setCur v).ctxAt s.core x = s.ctxAt s.core x := by
  simp [State.ctxAt, State.setCur, State.setCtx, Core.ctxOf_setCtx_ne _ _ h]

theorem State.coreAt_setCurCore_ne (s : State) (k : Core) {c : Nat} (h : c ≠ s.core) :
    (s.setCurCore k).coreAt c = s.coreAt c := s.coreAt_setCore_ne k h

/-! ### Registers (R26, R28) -/

@[simp] theorem Ctx.reg_zero (k : Ctx) : k.reg 0 = 0 := rfl

/-- A written register reads as what was written, unless it is `g0`. -/
theorem Ctx.reg_setReg (k : Ctx) (n m : Nat) (v : Word) : (k.setReg n v).reg m = if m = n ∧ n ≠ 0 then v else k.reg m := by
  unfold Ctx.setReg Ctx.reg
  by_cases hn : n = 0
  · simp [hn]
  · by_cases hm : m = 0
    · subst hm; simp [Ne.symm hn]
    · simp only [hn, if_false, hm, Tab.get_set, ne_eq, not_false_eq_true, and_true]

/-- `p0` reads all ones. -/
@[simp] theorem Core.pred_zero (k : Core) : k.pred 0 = BitVec.allOnes 64 := rfl

/-- A predicate write changes the bits of its mask in its own register, and nothing of `p0`. -/
theorem Core.pred_setPred (k : Core) (n m : Nat) (mask v : Word) :
    (k.setPred n mask v).pred m = if m = n ∧ n ≠ 0 then (k.pred n &&& ~~~mask) ||| (v &&& mask) else k.pred m := by
  unfold Core.setPred Core.pred
  by_cases hn : n = 0
  · simp [hn]
  · by_cases hm : m = 0
    · subst hm; simp [Ne.symm hn]
    · simp only [hn, if_false, hm, Tab.get_set, ne_eq, not_false_eq_true, and_true]

@[simp] theorem State.tenant_setTenant_self (s : State) (v : Nat) (t : Tenant) : (s.setTenant v t).tenant v = t := by
  simp [State.tenant, State.setTenant]

@[simp] theorem State.part_setPart_self (s : State) (n : Nat) (p : Partition) : (s.setPart n p).part n = p := by
  simp [State.part, State.setPart]

@[simp] theorem State.queue_setQueue_self (s : State) (q : Nat) (w : WorkQueue) : (s.setQueue q w).queue q = w := by
  simp [State.queue, State.setQueue]

@[simp] theorem State.event_setEvent_self (s : State) (v n : Nat) (e : Event) : (s.setEvent v n e).event v n = e := by
  simp [State.event, State.setEvent]

@[simp] theorem State.lease_setLease_self (s : State) (l : Nat) (e : Lease) : (s.setLease l e).lease l = e := by
  simp [State.lease, State.setLease]

@[simp] theorem State.port_setPort_self (s : State) (n : Nat) (p : Port) : (s.setPort n p).port n = p := by
  simp [State.port, State.setPort]

end Sys2Proof.Machine
end

