-- ==== Sys2Proof/Laws/Ops.lean ====
section
/-! SUPPORT. What each shared operation of the meanings can do, said once. -/

namespace Sys2Proof.Machine

/-! ### Landing results touch vector and matrix state and two queues alone -/

/-- What a landing leaves of a core. -/
structure LandFrame (k l : Core) : Prop where
  ctl : l.ctl = k.ctl
  ld  : l.ld = k.ld
  cmp : l.cmp = k.cmp
  st  : l.st = k.st
  biv : l.biv = k.biv
  rest : l = { k with v := l.v, p := l.p, m := l.m, tstat := l.tstat, sq := l.sq, zq := l.zq, slot := l.slot,
                      flight := l.flight, fenced := l.fenced, frozen := l.frozen, waits := l.waits }

theorem LandFrame.refl (k : Core) : LandFrame k k := ⟨rfl, rfl, rfl, rfl, rfl, rfl⟩

theorem LandFrame.trans {k l m : Core} (h : LandFrame k l) (h' : LandFrame l m) : LandFrame k m := by
  refine ⟨h'.ctl.trans h.ctl, h'.ld.trans h.ld, h'.cmp.trans h.cmp, h'.st.trans h.st, h'.biv.trans h.biv, ?_⟩
  rw [h'.rest, h.rest]

theorem Core.setPred_eq (k : Core) (n : Nat) (m v : Word) : ∃ p, k.setPred n m v = { k with p := p } := by
  unfold Core.setPred
  split
  · exact ⟨_, rfl⟩
  · exact ⟨_, rfl⟩

theorem Core.applyWrite_frame (k : Core) (w : LWrite) : LandFrame k (k.applyWrite w) := by
  cases w with
  | pred r mask v =>
    obtain ⟨p, h⟩ := k.setPred_eq r mask v
    simp only [Core.applyWrite, h]
    exact ⟨rfl, rfl, rfl, rfl, rfl, rfl⟩
  | _ => exact ⟨rfl, rfl, rfl, rfl, rfl, rfl⟩

theorem Core.applyWrites_frame (ws : List LWrite) (k : Core) : LandFrame k (k.applyWrites ws) := by
  induction ws generalizing k with
  | nil => exact .refl k
  | cons w r ih => exact (k.applyWrite_frame w).trans (ih _)

theorem Core.land_frame (k : Core) (l : Landing) : LandFrame k (k.land l) := by
  unfold Core.land
  split
  · exact (Core.applyWrites_frame (ckWrites l) k).trans ⟨rfl, rfl, rfl, rfl, rfl, rfl⟩
  · exact Core.applyWrites_frame _ k

theorem Core.landList_frame (ls : List Landing) (k : Core) : LandFrame k (k.landList ls) := by
  induction ls generalizing k with
  | nil => exact .refl k
  | cons l r ih => exact (k.land_frame l).trans (ih _)

theorem Core.landDue_frame (k : Core) : LandFrame k k.landDue := by
  have h : LandFrame k { k with flight := k.flight.filter (fun l => k.slot < l.due) } := ⟨rfl, rfl, rfl, rfl, rfl, rfl⟩
  exact h.trans (Core.landList_frame _ _)

theorem Core.landAll_frame (k : Core) : LandFrame k k.landAll := by
  have h : LandFrame k { k with flight := [], slot := lastDue k.slot k.flight } := ⟨rfl, rfl, rfl, rfl, rfl, rfl⟩
  exact h.trans (Core.landList_frame _ _)

theorem Core.tick_frame (k : Core) (n : Nat) : LandFrame k (k.tick n) := by
  induction n generalizing k with
  | zero => exact .refl k
  | succ n ih =>
    have h : LandFrame k.landDue { k.landDue with slot := k.landDue.slot + 1 } := ⟨rfl, rfl, rfl, rfl, rfl, rfl⟩
    exact (k.landDue_frame.trans h).trans (ih _)

theorem Core.afterIssue_frame (k : Core) (was : Bool) (n : Nat) : LandFrame k (k.afterIssue was n) := by
  have h : LandFrame k { k.tick n with frozen := false, waits := false } := (k.tick_frame n).trans ⟨rfl, rfl, rfl, rfl, rfl, rfl⟩
  unfold Core.afterIssue
  simp only
  split
  · exact h
  · exact h.trans (Core.landAll_frame _)

theorem LandFrame.ctxOf {k l : Core} (h : LandFrame k l) (x : CtxId) : l.ctxOf x = k.ctxOf x := by
  cases x <;> simp only [Core.ctxOf, h.ctl, h.ld, h.cmp, h.st, h.biv]

theorem coreAfter_ctxOf (s : State) (k : Core) (v : Ctx) (n : Nat) (x : CtxId) :
    (coreAfter s k v n).ctxOf x = if x = s.ctx then v else k.ctxOf x := by
  unfold coreAfter
  split
  · next h =>
    rw [(Core.afterIssue_frame _ _ _).ctxOf, h]
    split
    · next hx => rw [hx, Core.ctxOf_setCtx_self]
    · next hx => rw [Core.ctxOf_setCtx_ne _ _ hx]
  · split
    · next hx => rw [hx, Core.ctxOf_setCtx_self]
    · next hx => rw [Core.ctxOf_setCtx_ne _ _ hx]

/-! ### How an instruction ends -/

/-- Fetch going on leaves, of the machine, only the issuing core changed. -/
theorem State.arrive_eq (s u : State) (hc : u.core = s.core) (hx : u.ctx = s.ctx) (slots : Nat) :
    u.arrive s.cur.exposed slots = u.setCurCore (coreAfter s u.curCore u.cur.arrive slots) := by
  unfold State.arrive coreAfter
  simp only [State.setCur_ctx, hx]
  cases hs : s.ctx <;> simp [State.setCur_eq, State.curCore, State.setCurCore, hx, hs]

theorem coreAfter_setCtx (s : State) (k : Core) (v w : Ctx) (n : Nat) :
    coreAfter s (k.setCtx s.ctx w) v n = coreAfter s k v n := by
  unfold coreAfter
  cases h : s.ctx <;> simp

theorem State.advance_eq (s u : State) (hc : u.core = s.core) (hx : u.ctx = s.ctx) (len slots : Nat) :
    u.advance s.cur.exposed len slots =
      u.setCurCore (coreAfter s u.curCore { u.cur with pc := u.cur.pc + BitVec.ofNat 64 len }.arrive slots) := by
  unfold State.advance
  rw [State.arrive_eq s _ (by simp [hc]) (by simp [hx]), State.curCore_setCur, State.cur_setCur, hx, coreAfter_setCtx,
    State.setCur_eq, State.setCurCore_setCurCore]

/-! ### Body ends -/

/-- Away from the innermost body end, fetch reaching the pc has no event. -/
theorem Ctx.arrive_past {k : Ctx} (h : ∀ e r, k.loops = e :: r → k.pc.toNat ≠ e.bodyEnd) :
    k.arrive = { k with want := none, ahead := none, lines := [] } := by
  unfold Ctx.arrive
  cases hl : k.loops with
  | nil => simp [endBodies, hl]
  | cons e r => simp [endBodies, h e r hl, ← hl]

/-- Fetch reaching a pc changes the pc, the loop stack, rb and what fetch has read ahead or asked for, and nothing else. -/
theorem Ctx.arrive_rest (k : Ctx) (pc : Word) (ls : List LoopEntry) (rb : BitVec 5) (w : Option Word)
    (a : Option (Word × List Parcel)) (fs : List Fwd) :
    ({ k.arrive with pc := pc, loops := ls, rb := rb, want := w, ahead := a, lines := fs } : Ctx)
      = { k with pc := pc, loops := ls, rb := rb, want := w, ahead := a, lines := fs } := rfl

@[simp] theorem Ctx.arrive_g (k : Ctx) : k.arrive.g = k.g := rfl
@[simp] theorem Ctx.arrive_ops (k : Ctx) : k.arrive.ops = k.ops := rfl

/-! ### An instruction that goes on -/

theorem OnlyCore.refl (s : State) : OnlyCore s s := ⟨rfl, fun _ _ => rfl⟩

theorem OnlyCore.trans {s t u : State} (h : OnlyCore s t) (h' : OnlyCore t u) : OnlyCore s u := by
  have hc : t.core = s.core := by rw [h.rest]
  refine ⟨by rw [h'.rest, h.rest], fun c hne => ?_⟩
  rw [h'.others c (by rw [hc]; exact hne), h.others c hne]

theorem OnlyCore.core_eq {s t : State} (h : OnlyCore s t) : t.core = s.core := by rw [h.rest]
theorem OnlyCore.ctx_eq {s t : State} (h : OnlyCore s t) : t.ctx = s.ctx := by rw [h.rest]

theorem OnlyCore.setCurCore (s : State) (k : Core) : OnlyCore s (s.setCurCore k) :=
  ⟨rfl, fun _ h => s.coreAt_setCurCore_ne k h⟩

theorem OnlyCore.setCur (s : State) (v : Ctx) : OnlyCore s (s.setCur v) := by
  rw [State.setCur_eq]; exact .setCurCore s _

/-- An instruction whose effect `u` leaves pc, loop stack and rb, and touches the issuing core alone, goes on. -/
theorem ran_of_ok {s u : State} (ho : OnlyCore s u) (hp : u.cur.pc = s.cur.pc) (hl : u.cur.loops = s.cur.loops)
    (hr : u.cur.rb = s.cur.rb) (len : Nat) :
    ∃ t, finish len 1 s (.ok u) = .next t ∧ Ran s t u.curCore u.cur len := by
  refine ⟨_, rfl, ?_⟩
  rw [State.advance_eq s u ho.core_eq ho.ctx_eq]
  set v : Ctx := { u.cur with pc := u.cur.pc + BitVec.ofNat 64 len }.arrive with hv
  have hcur : (u.setCurCore (coreAfter s u.curCore v 1)).cur = v := by
    rw [State.cur_eq, State.curCore_setCurCore, State.setCurCore_ctx, coreAfter_ctxOf, ho.ctx_eq, if_pos rfl]
  refine ⟨ho.trans (.setCurCore u _), ⟨?_, fun hpast => ?_⟩, ?_⟩
  · rw [hcur, hv, Ctx.arrive_rest]
  · have : v = { u.cur with pc := u.cur.pc + BitVec.ofNat 64 len, want := none, ahead := none, lines := [] } := by
      rw [hv, Ctx.arrive_past]
      intro e r h
      have := hpast e r (by rw [← hl]; exact h)
      simpa [hp, State.pc] using this
    rw [State.pc, hcur, this]
    exact ⟨by simp [hp, State.pc], hl, hr⟩
  · rw [State.curCore_setCurCore, hcur]

/-! ### The guards -/

@[simp] theorem guardCtx_true (w : Nat) (a : Act) : guardCtx true w a = a := rfl

/-- Where a control context is asked for and issues, the guard passes. -/
theorem onControl_of {s : State} (h : OnCtl s) : onControl s.ctx = true := by
  rcases h with h | h <;> rw [h] <;> rfl

theorem firstBad_none {x : CtxId} {rs : List (Reg × Nat)} (h : ∀ r ∈ rs, badReg x r.1 = false) : firstBad x rs = none := by
  induction rs with
  | nil => rfl
  | cons r l ih =>
    obtain ⟨r, n⟩ := r
    simp only [firstBad, h (r, n) (by simp), Bool.false_eq_true, if_false]
    exact ih fun q hq => h q (by simp [hq])

theorem badReg_false {s : State} {r : Reg} (h : s.ctx = .ctl ∨ s.ctx = .biv ∨ r.toNat < 16) : badReg s.ctx r = false := by
  rcases h with h | h | h
  · simp [badReg, h]
  · simp [badReg, h]
  · simp [badReg, Nat.not_le.2 h]

theorem guardRegs_pass {s : State} {rs : List (Reg × Nat)} (h : Usable s (rs.map (·.1))) (a : Act) : guardRegs s rs a = a := by
  unfold guardRegs
  rw [firstBad_none fun r hr => badReg_false (h r.1 (List.mem_map_of_mem hr)).1]

theorem guardHazard_pass {s : State} {rs : List Reg} (h : Usable s rs) (a : Act) : guardHazard s rs a = a := by
  unfold guardHazard
  rw [if_neg]
  simp only [List.any_eq_true, not_exists, not_and, Bool.not_eq_true]
  exact fun r hr => (h r hr).2

theorem firstField_none {fs : List (Nat × Bool)} (h : ∀ f ∈ fs, f.2 = false) : firstField fs = none := by
  induction fs with
  | nil => rfl
  | cons f l ih =>
    obtain ⟨n, b⟩ := f
    have hb : b = false := h (n, b) (by simp)
    simp only [firstField, hb, Bool.false_eq_true, if_false]
    exact ih fun q hq => h q (by simp [hq])

theorem guardFields_pass {fs : List (Nat × Bool)} (h : ∀ f ∈ fs, f.2 = false) (a : Act) : guardFields fs a = a := by
  unfold guardFields
  rw [firstField_none h]

/-! ### Writing one register -/

theorem Ctx.setReg_eq (k : Ctx) (n : Nat) (v : Word) : k.setReg n v = { k with g := (k.setReg n v).g } := by
  unfold Ctx.setReg
  split <;> rfl

/-- A register write that goes on, with core `k` in place of the issuing core: what `WroteRegIn` says. -/
theorem wroteRegIn_of_ok (s : State) (k : Core) (hk : k.ctxOf s.ctx = s.cur) (d : Reg) (v : Word) (len : Nat) :
    ∃ t, finish len 1 s (.ok ((s.setCurCore k).setG d v)) = .next t ∧ WroteRegIn s t k d v len := by
  have hcur0 : (s.setCurCore k).cur = s.cur := by rw [State.cur_eq]; simpa using hk
  have hcur : ((s.setCurCore k).setG d v).cur = s.cur.setReg d.toNat v := by simp [State.setG, hcur0]
  obtain ⟨t, ht, hr⟩ := ran_of_ok (s := s) (u := (s.setCurCore k).setG d v)
    ((OnlyCore.setCurCore s k).trans (.setCur _ _)) (by simp [hcur]) (by simp [hcur]) (by simp [hcur]) len
  refine ⟨t, ht, ?_⟩
  have hg : t.cur.g = (s.cur.setReg d.toNat v).g := by
    have := congrArg Ctx.g hr.goes.rest
    rw [hcur] at this
    exact this
  have hreg : ∀ n, t.cur.reg n = (s.cur.setReg d.toNat v).reg n := fun n => by simp only [Ctx.reg, hg]
  refine ⟨fun hd => ?_, ?_, fun n hn => ?_, ?_⟩
  · have h0 : d.toNat ≠ 0 := fun h => hd (BitVec.eq_of_toNat_eq (by simpa using h))
    simp [State.G, hreg, Ctx.reg_setReg, h0]
  · simp [State.G]
  · have h0 : n.toNat ≠ d.toNat := fun h => hn (BitVec.eq_of_toNat_eq h)
    simp [State.G, hreg, Ctx.reg_setReg, h0]
  · refine ⟨hr.only, ⟨?_, hr.goes.next⟩, ?_⟩
    · have h := hr.goes.rest
      rw [hcur, Ctx.setReg_eq, ← hg] at h
      exact h
    · rw [hr.core, State.setG, State.curCore_setCur, State.curCore_setCurCore, State.setCurCore_ctx, coreAfter_setCtx]

/-- The same where nothing of the core but the register changes. -/
theorem wroteReg_of_ok (s : State) (d : Reg) (v : Word) (len : Nat) :
    ∃ t, finish len 1 s (.ok (s.setG d v)) = .next t ∧ WroteReg s t d v len := by
  obtain ⟨t, ht, h⟩ := wroteRegIn_of_ok s s.curCore rfl d v len
  have hs : ((s.setCurCore s.curCore).setG d v) = s.setG d v := by
    simp [State.setG, State.setCur_eq, State.cur_eq]
  rw [hs] at ht
  exact ⟨t, ht, h⟩

/-- A scalar result: with usable registers it is written, and nothing else happens. -/
theorem scalar_wrote {s : State} (len : Nat) {rs : List (Reg × Nat)} (h : Usable s (rs.map (·.1))) (d : Reg) (v : Word) :
    ∃ t, scalar len rs d v s = .next t ∧ WroteReg s t d v len := by
  unfold scalar
  rw [guardRegs_pass h, guardHazard_pass h]
  exact wroteReg_of_ok s d v len

end Sys2Proof.Machine
end

