-- ==== Sys2Proof/Laws/Control.lean ====
section
/-! SUPPORT. Branches, returns and headers: what each leaves (R66 to R68). -/

namespace Sys2Proof.Machine

/-- Registers among usable ones are usable. -/
theorem Usable.sub {s : State} {rs ss : List Reg} (h : Usable s rs) (hs : ∀ r ∈ ss, r ∈ rs) : Usable s ss :=
  fun r hr => h r (hs r hr)

/-- An effect that changes nothing passes. -/
theorem passed_ok (s : State) (len) : ∃ t, finish len 1 s (.ok s) = .next t ∧ Passed s t len :=
  ran_of_ok (.refl s) rfl rfl rfl len

/-- A conditional branch whose condition fails passes. -/
theorem cond_pass {c a b off s} (h : Usable s [a,b]) {i} (he : exec i s = condBranch c a b off s) (hc : c.holds (s.G a) (s.G b) = false) :
   Completes i s (fun u => Passed s u 2) := by
  unfold Completes; rw [he]; unfold condBranch
  simp only [guardRegs_pass (rs := [(a,0),(b,1)]) h, guardHazard_pass h, hc, Bool.false_eq_true, if_false]
  exact passed_ok s 2

/-- Fetch placed: what is left of the machine. -/
theorem placed_go {s u : State} (ho : OnlyCore s u) (slots) :
    ∃ t, finish 2 slots s (.go u) = .next t ∧ OnlyCore s t ∧ t.cur = u.cur.arrive ∧ t.curCore = coreAfter s u.curCore t.cur slots := by
  refine ⟨_, rfl, ?_⟩
  rw [State.arrive_eq s u ho.core_eq ho.ctx_eq]
  have hcur : (u.setCurCore (coreAfter s u.curCore u.cur.arrive slots)).cur = u.cur.arrive := by
    rw [State.cur_eq, State.curCore_setCurCore, State.setCurCore_ctx, coreAfter_ctxOf, ho.ctx_eq, if_pos rfl]
  exact ⟨ho.trans (.setCurCore u _), hcur, by rw [State.curCore_setCurCore, hcur]⟩

/-- The same where only the issuing context changes. -/
theorem go_setCur (s : State) (v : Ctx) (len slots) : ∃ t, finish len slots s (.go (s.setCur v)) = .next t ∧ OnlyCore s t ∧ t.cur = v.arrive ∧ t.curCore = coreAfter s s.curCore t.cur slots := by
  obtain ⟨t, h1, h2, h3, h4⟩ := placed_go (s := s) (u := s.setCur v) (.setCur s v) slots
  refine ⟨t, h1, h2, by rw [h3]; simp, ?_⟩
  rw [h4, State.curCore_setCur, coreAfter_setCtx]

/-- A header that may be entered is entered. -/
theorem enter_ok {s : State} {v : Ctx} {h : Header} {kept} (t : Word) (hc : CanEnter s v h kept) :
    enterHeader s.ctx h t kept s.cur.rb v.reg (BitVec.ofNat 64 (encH h)) =
      if headerCount v h = 0 then .run kept (t + 2 + h.len.zeroExtend 64) s.cur.rb
      else .run (pushedEntry s v t h :: kept) (t + 2) (if h.rot = true ∧ s.ctx = .cmp then 0 else s.cur.rb) := by
  have hr : h.csrc = 1 → badReg s.ctx (h.count.truncate 5) = false := by
    intro h1
    have : (h.count.truncate 5 : Reg) = h.count.extractLsb' 0 5 := by ext; simp
    rw [this]; exact badReg_false (hc.reg h1)
  have hcnt : (if h.csrc = 1 then (v.reg (h.count.toNat % 32)).toNat
      else if h.csrc = 2 then 1
      else if h.count = 0 then 512 else h.count.toNat) = headerCount v h := by
    unfold headerCount
    have hwf := hc.wf
    have : (h.count.extractLsb' 0 5).toNat = h.count.toNat % 32 := by simp
    by_cases h0 : h.csrc = 0
    · simp [h0]
    · by_cases h1 : h.csrc = 1
      · simp [h1, this]
      · have h2 : h.csrc = 2 := by
          have h3 : h.csrc ≠ 3 := by intro h3; simp [Header.wf, h3] at hwf
          revert h0 h1 h3; generalize h.csrc = c; revert c; decide
        simp [h2]
  unfold enterHeader
  rw [hcnt]
  have hrot : (h.rot && s.ctx == .cmp && kept.any (·.rot)) = false := by
    by_cases hx : h.rot = true ∧ s.ctx = .cmp
    · have := hc.rot hx.1 hx.2
      simp only [Bool.and_eq_false_imp]; intro _
      simpa using this
    · simp only [not_and] at hx
      by_cases hh : h.rot = true
      · simp [hx hh]
      · simp [hh]
  simp only [hc.wf, Bool.not_true, Bool.false_eq_true, if_false, hrot]
  rw [if_neg (by rintro ⟨h1, h2⟩; rw [hr h1] at h2; simp at h2), if_neg (Nat.not_lt.2 hc.count)]
  split
  · rfl
  · next h0 =>
    rw [if_neg (Nat.not_le.2 (hc.room h0))]
    simp only [pushedEntry]
    congr 1
    by_cases hx : h.rot = true ∧ s.ctx = .cmp <;> simp [hx]

/-- The fields of an encoded header. -/
theorem encH_fields (h : Header) : bitAt (encH h) 26 = h.rot ∧ bitAt (encH h) 25 = h.inter ∧ bits (encH h) 23 2 = h.csrc ∧ bits (encH h) 14 9 = h.count ∧ bits (encH h) 0 14 = h.len ∧ field (encH h) 28 4 = 15 ∧ (field (encH h) 26 2 = h.rot.toNat) := by
  have h1 := h.csrc.isLt; have h2 := h.count.isLt; have h3 := h.len.isLt
  have h4 : h.rot.toNat < 2 := Bool.toNat_lt _
  have h5 : h.inter.toNat < 2 := Bool.toNat_lt _
  have e : ∀ b : Bool, b = (b.toNat == 1) := by decide
  unfold encH
  refine ⟨?_, ?_, ?_, ?_, ?_, ?_, ?_⟩
  · cases hr : h.rot <;> simp only [bitAt, beq_eq_false_iff_ne, beq_iff_eq, Bool.toNat_false, Bool.toNat_true] <;> omega
  · cases hr : h.inter <;> simp only [bitAt, beq_eq_false_iff_ne, beq_iff_eq, Bool.toNat_false, Bool.toNat_true] <;> cases h.rot <;> simp only [Bool.toNat_false, Bool.toNat_true] <;> omega
  · apply BitVec.eq_of_toNat_eq; simp only [bits, BitVec.toNat_ofNat]; omega
  · apply BitVec.eq_of_toNat_eq; simp only [bits, BitVec.toNat_ofNat]; omega
  · apply BitVec.eq_of_toNat_eq; simp only [bits, BitVec.toNat_ofNat]; omega
  · simp only [field]; omega
  · simp only [field]; omega

/-- The first parcel of a body is not its end. -/
theorem pc_past (t : Word) (len : BitVec 14) (h : len ≠ 0) : (t + 2).toNat ≠ (t.truncate 32 : BitVec 32).toNat + 2 + len.toNat := by
  have : len.toNat ≠ 0 := fun h0 => h (BitVec.eq_of_toNat_eq (by simpa using h0))
  have := len.isLt; have := t.isLt
  rw [BitVec.toNat_add]; simp only [BitVec.truncate_eq_setWidth, BitVec.toNat_setWidth]; 
  show (t.toNat + 2) % 2^64 ≠ _
  omega

/-- A well-formed header has a body. -/
theorem wf_len {h : Header} (hw : h.wf = true) : h.len ≠ 0 := by
  intro h0; simp [Header.wf, h0] at hw

/-- What entering gives, as `BlockEntered` says it. -/
theorem entered {s : State} {v : Ctx} {h : Header} {kept} {t : Word} (hc : CanEnter s v h kept) (len slots) :
    ∃ u, finish len slots s (match (if headerCount v h = 0 then Entered.run kept (t + 2 + h.len.zeroExtend 64) s.cur.rb
      else .run (pushedEntry s v t h :: kept) (t + 2) (if h.rot = true ∧ s.ctx = .cmp then 0 else s.cur.rb)) with
        | .trap c i => .trap c i
        | .run ls pc rb => .go (s.setCur { v with loops := ls, pc := pc, rb := rb })) = .next u ∧ BlockEntered s u v t h kept slots ∧ u.cur.g = v.g := by
  split
  · next c i heq => split at heq <;> simp at heq
  · next ls pc rb heq =>
    obtain ⟨u, h1, h2, h3, h4⟩ := go_setCur s { v with loops := ls, pc := pc, rb := rb } len slots
    refine ⟨u, h1, ⟨h2, by rw [h3, Ctx.arrive_rest], h4, fun hn => ?_, fun hn hp => ?_⟩, by rw [h3]; rfl⟩
    · rw [if_neg hn] at heq
      injection heq with e1 e2 e3
      subst e1 e2 e3
      have ha : u.cur = { v with loops := pushedEntry s v t h :: kept, pc := t + 2, rb := (if h.rot = true ∧ s.ctx = .cmp then 0 else s.cur.rb), want := none, ahead := none, lines := [] } := by
        rw [h3, Ctx.arrive_past]
        intro e r hl
        injection hl with e1 e2
        subst e1
        simp only [pushedEntry, LoopEntry.bodyEnd]
        exact pc_past t h.len (wf_len hc.wf)
      rw [State.pc, ha]; exact ⟨rfl, rfl, rfl⟩
    · rw [if_pos hn] at heq
      injection heq with e1 e2 e3
      subst e1 e2 e3
      have ha : u.cur = { v with loops := kept, pc := t + 2 + h.len.zeroExtend 64, rb := s.cur.rb, want := none, ahead := none, lines := [] } := by
        rw [h3, Ctx.arrive_past]
        intro e r hl
        exact hp e r hl
      rw [State.pc, ha]; exact ⟨rfl, rfl, rfl⟩

/-- The context a branch leaves before it enters its header: with the link written, if it writes one (R235). -/
def linked (s : State) (link : Option Word) : Ctx :=
  match link with
  | some v => s.cur.setReg 15 v
  | none => s.cur

/-- A header whose count register, if any, is owed by no operation is waited for by no branch (R121). -/
theorem countOwed_of {h : Header} {k : Ctx} (hu : h.csrc = 1 → k.pendingReg (countReg h).toNat = false) : countOwed h k = false := by
  unfold countOwed
  by_cases hc : h.csrc = 1
  · rw [hu hc, Bool.and_false]
  · rw [beq_eq_false_iff_ne.2 hc, Bool.false_and]

/-- A branch to a header that may be entered enters it. -/
theorem branch_enters {s : State} {t h ps} (link : Option Word) (hf : s.headerAt t = .parcels ps) (hw : wordOf ps = encH h)
    (hc : CanEnter s (linked s link) h (keptLoops s t)) (ho : countOwed h s.cur = false)
    (hx : ∀ e r, keptLoops s t = e :: r → t.toNat + 2 ≤ e.bodyEnd) (len) :
    ∃ u, finish len 1 s (s.branch t link) = .next u ∧
      BlockEntered s u (linked s link) t h (keptLoops s t) 1 ∧ u.cur.g = (linked s link).g := by
  obtain ⟨f1, f2, f3, f4, f5, f6, f7⟩ := encH_fields h
  have hcr : crosses (keptLoops s t) t.toNat 2 = false := by
    unfold crosses
    split
    · next e r he => have := hx e r he; simp; intro _; omega
    · rfl
  have hr2 : h.rot.toNat ≠ 3 ∧ h.rot.toNat ≠ 2 := by have : h.rot.toNat < 2 := Bool.toNat_lt _; omega
  unfold State.branch
  simp only [hf, hw, f1, f2, f3, f4, f5, f6, f7, ne_eq, not_true, false_or, hr2, if_false]
  change ∃ u, finish len 1 s (if crosses (keptLoops s t) t.toNat 2 = true then _ else _) = _ ∧ _
  rw [hcr, show (⟨h.rot, h.inter, h.csrc, h.count, h.len⟩ : Header) = h from rfl, ho]
  simp only [Bool.false_eq_true, if_false]
  change ∃ u, finish len 1 s (match enterHeader s.ctx h t (keptLoops s t) s.cur.rb (linked s link).reg _ with | .trap c i => .trap c i | .run ls pc rb => .go (s.setCur { linked s link with loops := ls, pc := pc, rb := rb })) = _ ∧ _
  rw [enter_ok t hc]
  exact entered hc len 1

/-- A conditional branch whose condition holds enters it. -/
theorem cond_enter {c a b off s h ps} (hu : Usable s [a,b]) {i} (he : exec i s = condBranch c a b off s) (hc : c.holds (s.G a) (s.G b) = true)
   (hf : s.headerAt (target s off) = .parcels ps) (hw : wordOf ps = encH h) (hce : CanEnter s s.cur h (keptLoops s (target s off))) (ho : countOwed h s.cur = false)
    (hx : ∀ e r, keptLoops s (target s off) = e :: r → (target s off).toNat + 2 ≤ e.bodyEnd) :
   Completes i s (fun u => BlockEntered s u s.cur (target s off) h (keptLoops s (target s off)) 1) := by
  unfold Completes; rw [he]; unfold condBranch
  simp only [guardRegs_pass (rs := [(a,0),(b,1)]) hu, guardHazard_pass hu, hc, if_true]
  obtain ⟨u, h1, h2, _⟩ := branch_enters none hf hw hce ho hx 2
  exact ⟨u, h1, h2⟩

/-- A branch target that is no header. -/
theorem branch_trap4 {s : State} {t ps} (hf : s.headerAt t = .parcels ps) (h : field (wordOf ps) 28 4 ≠ 15 ∨ field (wordOf ps) 26 2 = 3) (link) : s.branch t link = .trap 4 t := by
  unfold State.branch; rw [hf]; simp only [h, if_true]

/-- A branch target that is a data header. -/
theorem branch_trap5 {s : State} {t ps} (hf : s.headerAt t = .parcels ps) (h : field (wordOf ps) 28 4 = 15) (h2 : field (wordOf ps) 26 2 = 2) (link) : s.branch t link = .trap 5 t := by
  unfold State.branch; rw [hf]; simp [h, h2]

/-- Fetch placed at a parcel that ends no body. -/
theorem placed (s : State) (v : Ctx) (pc) (ls : List LoopEntry) (hv : v.rb = s.cur.rb) (hp : ∀ e r, ls = e :: r → pc.toNat ≠ e.bodyEnd) (len slots) :
   ∃ u, finish len slots s (.go (s.setCur { v with loops := ls, pc := pc })) = .next u ∧ Placed s u v pc ls slots ∧ u.cur.run = v.run := by
  obtain ⟨u, h1, h2, h3, h4⟩ := go_setCur s { v with loops := ls, pc := pc } len slots
  refine ⟨u, h1, ⟨h2, by rw [h3, Ctx.arrive_rest], h4, ?_⟩, by rw [h3]; rfl⟩
  have ha : u.cur = { v with loops := ls, pc := pc, want := none, ahead := none, lines := [] } := by
    rw [h3, Ctx.arrive_past]; intro e r hl; exact hp e r hl
  rw [State.pc, ha]; exact ⟨rfl, rfl, hv⟩

/-- Every entry that is kept contains the target. -/
theorem kept_head {s : State} {t : Word} {e r} (h : keptLoops s t = e :: r) : e.contains t.toNat = true := by
  have : e ∈ keptLoops s t := by simp [h]
  exact (List.mem_filter.1 this).2

/-- A return to a parcel of an open block. -/
theorem return_placed {s : State} {t : Word} (h : t ≠ 0 ∨ s.ctx = .biv) (hk : keptLoops s t ≠ []) (len) :
   ∃ u, finish len 1 s (s.returnTo t) = .next u ∧ Placed s u s.cur t (keptLoops s t) 1 := by
  obtain ⟨u, h1, h2, _⟩ := placed s s.cur t (keptLoops s t) rfl (fun e r he => by
    have := kept_head he
    simp only [LoopEntry.contains, Bool.and_eq_true, decide_eq_true_eq] at this; omega) len 1
  refine ⟨u, ?_, h2⟩
  rw [← h1]; unfold State.returnTo
  rw [if_neg (by rintro ⟨a, b⟩; rcases h with h | h <;> contradiction)]
  show finish len 1 s (if keptLoops s t = [] then _ else _) = _
  rw [if_neg hk]; rfl

/-- A return to a parcel of no open block. -/
theorem return_trap {s : State} {t : Word} (h : t ≠ 0 ∨ s.ctx = .biv) (hk : keptLoops s t = []) : s.returnTo t = .trap 4 t := by
  unfold State.returnTo
  rw [if_neg (by rintro ⟨a, b⟩; rcases h with h | h <;> contradiction)]
  show (if keptLoops s t = [] then _ else _) = _
  rw [if_pos hk]

/-- A body end is a parcel offset. -/
theorem bodyEnd_lt (e : LoopEntry) : e.bodyEnd < 2^64 := by
  have := e.header.isLt; have := e.len.isLt; unfold LoopEntry.bodyEnd; omega

end Sys2Proof.Machine
end

