-- ==== Sys2Proof/Laws/Exception.lean ====
section
/-! SUPPORT. Taking an exception, cut into what each part leaves (R35, R36, R130). -/

namespace Sys2Proof.Machine

/-- The issuing core as a trap leaves it before the bivouac context starts: on the compute sequencer every earlier result has
landed, no chain is left, and its pipeline no longer stands frozen (R73, R105). -/
def trapCore (s : State) : Core :=
  if s.ctx = .cmp then { s.curCore.landAll with chain := none, frozen := false, waits := false } else s.curCore

/-- The trapping context. -/
def trapCtx (s : State) : Ctx := { s.cur with run := .trapped, hold := none, fetched := none, want := none, ahead := none, lines := [] }

/-- Its contexts are as they were. -/
theorem trapCore_ctxOf (s x) : (trapCore s).ctxOf x = s.curCore.ctxOf x := by
  unfold trapCore; split
  · have h := Core.landAll_frame s.curCore
    rw [← h.ctxOf x]; cases x <;> rfl
  · rfl

/-- A trap outside the bivouac context: the context stops, its cause joins the queue, and what can be taken is taken. -/
theorem takeTrapAt_eq (s : State) (hx : s.ctx ≠ .biv) (cause info pc) :
    s.takeTrapAt cause info pc = (s.setCurCore { ((trapCore s).setCtx s.ctx (trapCtx s)) with pend := (trapCore s).pend ++ [⟨cause, seqCode s.ctx, info, pc, none, 0⟩] }).enter s.core := by
  have hc : (trapCore s).ctxOf s.ctx = s.cur := by rw [trapCore_ctxOf]; rfl
  have he : (if s.ctx = CtxId.cmp then { s.curCore.landAll with chain := none, frozen := false, waits := false } else s.curCore) = trapCore s := rfl
  have hp : ((trapCore s).setCtx s.ctx (trapCtx s)).pend = (trapCore s).pend := by cases s.ctx <;> rfl
  unfold State.takeTrapAt
  cases h : s.ctx <;> first
    | exact absurd h hx
    | (simp only [h] at he hc hp ⊢
       simp only [he, hc]
       rw [← hp]; rfl)

/-- A sequencer is the one its code names. -/
theorem seqOf_seqCode {x : CtxId} (h : x ≠ .biv) : seqOf (seqCode x) = x := by cases x <;> first | rfl | exact absurd rfl h

/-- The queue is as it was. -/
theorem trapCore_pend (s) : (trapCore s).pend = s.curCore.pend := by
  unfold trapCore; split
  · rw [Core.landAll_frame s.curCore |>.rest]
  · rfl

/-- The team is as it was. -/
theorem trapCore_team (s) : (trapCore s).team = s.curCore.team := by
  unfold trapCore; split
  · rw [Core.landAll_frame s.curCore |>.rest]
  · rfl

/-- The bivouac context is as it was. -/
theorem trapCore_biv (s) : (trapCore s).biv = s.curCore.biv := by
  unfold trapCore; split
  · rw [Core.landAll_frame s.curCore |>.rest]
  · rfl

/-- Performance depends on the log alone. -/
theorem performedOwn_congr {s t : State} (h : t.log = s.log) (c o) : t.performedOwn c o = s.performedOwn c o := by
  simp [State.performedOwn, State.performedAt, State.seqPerformed, h]

/-- Draining depends on the context's operations and the log. -/
theorem drained_trap (s : State) (k : Core) (hx : (k.ctxOf s.ctx).ops = s.cur.ops) : (s.setCurCore k).drained s.core s.ctx = s.drained s.core s.ctx := by
  unfold State.drained
  have h1 : ((s.setCurCore k).ctxAt s.core s.ctx).ops = (s.ctxAt s.core s.ctx).ops := by
    show ((s.setCurCore k).coreAt s.core |>.ctxOf s.ctx).ops = _
    have : (s.setCurCore k).coreAt s.core = k := by simp [State.setCurCore]
    rw [this, hx]; rfl
  rw [h1]
  congr 1

/-- So do the counts of engine commands. -/
theorem engineCounts_trap (s : State) (k : Core) (hx : (k.ctxOf s.ctx).ops = s.cur.ops) : (s.setCurCore k).engineCounts s.core s.ctx = s.engineCounts s.core s.ctx := by
  unfold State.engineCounts State.streamCounts State.streamCount
  have h1 : ((s.setCurCore k).ctxAt s.core s.ctx).ops = (s.ctxAt s.core s.ctx).ops := by
    show ((s.setCurCore k).coreAt s.core |>.ctxOf s.ctx).ops = _
    have : (s.setCurCore k).coreAt s.core = k := by simp [State.setCurCore]
    rw [this, hx]; rfl
  rw [h1]

end Sys2Proof.Machine
end

