-- ==== Sys2Proof/Laws/Issue.lean ====
section
/-! SUPPORT. What issuing an ordering operation does, said once. -/

namespace Sys2Proof.Machine

/-! ### Windows (R40) -/

/-- The model finds bytes in a scratchpad exactly where R40 says they are valid. -/
theorem scratch_isSome (s : State) (a n : Nat) : (s.scratch s.core a n).isSome = true ↔ InWindow s a n := by
  have hb : Config.scratchBytes = 0x180000 := rfl
  unfold State.scratch InWindow
  by_cases ha : a < 0x10000000
  · rw [if_pos ha]
    constructor
    · intro h
      left
      by_contra hn
      rw [if_neg (by omega)] at h
      exact absurd h (by simp)
    · rintro (h | ⟨r, -, h, -⟩)
      · rw [if_pos (by omega)]; rfl
      · omega
  · rw [if_neg ha]
    dsimp only
    constructor
    · intro h
      right
      cases hc : (s.teamOf s.core).cores[(a - 0x10000000) / 0x200000]? with
      | none => rw [hc] at h; exact absurd h (by simp)
      | some c =>
        rw [hc] at h
        obtain ⟨hlt, -⟩ := List.getElem?_eq_some_iff.1 hc
        refine ⟨_, hlt, ?_, ?_⟩
        · omega
        · by_contra hn
          simp only at h
          rw [if_neg (by omega)] at h
          exact absurd h (by simp)
    · rintro (h | ⟨r, hr, h1, h2⟩)
      · omega
      · have hq : (a - 0x10000000) / 0x200000 = r := by omega
        rw [hq, List.getElem?_eq_getElem hr]
        simp only
        rw [if_pos (by omega)]
        rfl

theorem scratch_none {s : State} {a n : Nat} (h : ¬ InWindow s a n) : s.scratch s.core a n = none := by
  rw [← scratch_isSome] at h
  simpa using h

theorem scratch_some {s : State} {a n : Nat} (h : InWindow s a n) : ∃ l, s.scratch s.core a n = some l :=
  Option.isSome_iff_exists.1 ((scratch_isSome s a n).2 h)

theorem scratchScope_eq (a : Word) (c : BitVec 2) : scratchScope a.toNat c.toNat = windowScope a c := by
  unfold scratchScope windowScope isPeer
  have : c.toNat = 0 ↔ c = 0 := by simp [BitVec.toNat_eq]
  simp only [decide_eq_true_eq, this]

/-! ### Streams (R34) -/

theorem streamFull_false {s : State} {f : LF} (h : StreamRoom s f) : s.streamFull f.t.stream = false := by
  unfold State.streamFull StreamRoom at *
  simpa using h

theorem streamFull_true {s : State} {f : LF} (h : ¬ StreamRoom s f) : s.streamFull f.t.stream = true := by
  unfold State.streamFull StreamRoom at *
  simpa using h

/-- How full the streams are does not depend on the rest of the core. -/
theorem streamFull_setCurCore (s : State) (k : Core) (hk : k.ctxOf s.ctx = s.cur) (n : BitVec 3) :
    (s.setCurCore k).streamFull n = s.streamFull n := by
  have h : (s.setCurCore k).ctxAt s.core s.ctx = s.cur := by
    rw [State.ctxAt]; simpa [State.setCurCore] using hk
  unfold State.streamFull State.streamCount
  rw [State.setCurCore_core, State.setCurCore_ctx, h]
  rfl

/-! ### An operation joins its context -/

theorem enqueue_eq (s : State) (o : Op) : s.enqueue o = s.setCur (joined s o) := by
  unfold State.enqueue State.sweep
  simp only [State.setCtx_core, State.setCtx_ctx]
  have h : ∀ v : Ctx, s.setCtx s.core s.ctx v = s.setCur v := fun _ => rfl
  simp only [h, State.cur_setCur, State.setCur_setCur]
  rfl

theorem enqueue_eq_in (s : State) (k : Core) (hk : k.ctxOf s.ctx = s.cur) (o : Op) :
    (s.setCurCore k).enqueue o = (s.setCurCore k).setCur (joined s o) := by
  rw [enqueue_eq]
  have h : (s.setCurCore k).cur = s.cur := by rw [State.cur_eq]; simpa using hk
  congr 1
  unfold joined
  rw [h, State.pc, State.pc, h]
  rfl

theorem issueOp_room {s : State} {f : LF} (h : StreamRoom s f) (o : Op) (ho : o.f = f) :
    s.issueOp o = .ok (s.setCur (joined s o)) := by
  unfold State.issueOp
  rw [ho, streamFull_false h, enqueue_eq]
  rfl

theorem issueOp_full {s : State} {f : LF} (h : ¬ StreamRoom s f) (o : Op) (ho : o.f = f) : s.issueOp o = .wait := by
  unfold State.issueOp
  rw [ho, streamFull_true h]
  rfl

theorem issueOp_in {s : State} {f : LF} (h : StreamRoom s f) {k : Core} (hk : k.ctxOf s.ctx = s.cur) (o : Op) (ho : o.f = f) :
    (s.setCurCore k).issueOp o = .ok ((s.setCurCore k).setCur (joined s o)) := by
  unfold State.issueOp
  rw [streamFull_setCurCore s k hk, ho, streamFull_false h, enqueue_eq_in s k hk]
  rfl

theorem joined_rest (s : State) (o : Op) :
    (joined s o).pc = s.cur.pc ∧ (joined s o).loops = s.cur.loops ∧ (joined s o).rb = s.cur.rb := ⟨rfl, rfl, rfl⟩

/-- An operation joins over core `k`, and fetch goes on. -/
theorem issuedIn_of_ok (s : State) (k : Core) (hk : k.ctxOf s.ctx = s.cur) (o : Op) (v : Ctx)
    (hv : v.pc = s.cur.pc ∧ v.loops = s.cur.loops ∧ v.rb = s.cur.rb) :
    ∃ t, finish 3 1 s (.ok ((s.setCurCore k).setCur v)) = .next t ∧ Ran s t k v 3 := by
  obtain ⟨t, ht, hr⟩ := ran_of_ok (s := s) (u := (s.setCurCore k).setCur v)
    ((OnlyCore.setCurCore s k).trans (.setCur _ _)) (by simp [hv]) (by simp [hv]) (by simp [hv]) 3
  refine ⟨t, ht, hr.only, ?_, ?_⟩
  · have := hr.goes
    rwa [State.cur_setCur] at this
  · rw [hr.core, State.curCore_setCur, State.curCore_setCurCore, State.setCurCore_ctx, coreAfter_setCtx]

/-- An operation joins the issuing context and fetch goes on: what `Issued` says. -/
theorem issued_of_ok (s : State) (o : Op) : ∃ t, finish 3 1 s (.ok (s.setCur (joined s o))) = .next t ∧ Issued s t o := by
  have h := issuedIn_of_ok s s.curCore rfl o (joined s o) (joined_rest s o)
  have hs : (s.setCurCore s.curCore).setCur (joined s o) = s.setCur (joined s o) := by simp [State.setCur_eq]
  rwa [hs] at h

/-- The checks an L48 instruction passes. -/
theorem ordering_pass {s : State} {allowed : Bool} (ha : allowed = true) {rs : List (Reg × Nat)}
    (h : Usable s (rs.map (·.1))) {fs : List (Nat × Bool)} (hf : ∀ f ∈ fs, f.2 = false) (code : Nat) (f : LF) (body : Act) :
    ordering allowed code f rs fs body s = finish 3 1 s body := by
  unfold ordering
  rw [ha, guardCtx_true, guardFields_pass hf, guardRegs_pass h, guardHazard_pass h]

/-- An operation that holds issue joins its context likewise. -/
theorem issueHold_room {s : State} {f : LF} (h : StreamRoom s f) (o : Op) (ho : o.f = f) (stay : Bool) :
    s.issueHold o stay =
      if stay then .go (s.setCur { joined s o with hold := some s.cur.nextOp })
      else .ok (s.setCur { joined s o with hold := some s.cur.nextOp }) := by
  unfold State.issueHold
  rw [ho, streamFull_false h, enqueue_eq]
  simp only [Bool.false_eq_true, if_false, State.cur_setCur, State.setCur_setCur]
  rfl

theorem completes_issued {i : Instr} {s : State} {o : Op} (h : exec i s = finish 3 1 s (.ok (s.setCur (joined s o)))) :
    Completes i s (fun t => Issued s t o) := by
  obtain ⟨t, ht, hi⟩ := issued_of_ok s o
  exact ⟨t, h.trans ht, hi⟩

theorem completes_issuedIn {i : Instr} {s : State} {k : Core} (hk : k.ctxOf s.ctx = s.cur) {o : Op}
    (h : exec i s = finish 3 1 s (.ok ((s.setCurCore k).setCur (joined s o)))) :
    Completes i s (fun t => IssuedIn s t k o) := by
  obtain ⟨t, ht, hi⟩ := issuedIn_of_ok s k hk o _ (joined_rest s o)
  exact ⟨t, h.trans ht, hi⟩

/-! ### Fields of an L48 word -/

theorem field_eq_extract {w : Nat} (x : BitVec w) (lo n : Nat) : field x.toNat lo n = (x.extractLsb' lo n).toNat := by
  simp [BitVec.extractLsb'_toNat, field, Nat.shiftRight_eq_div_pow]

theorem bitAt_eq_getLsbD {w : Nat} (x : BitVec w) (n : Nat) : bitAt x.toNat n = x.getLsbD n := by
  unfold bitAt
  rw [BitVec.getLsbD]
  simp [Nat.testBit, Nat.shiftRight_eq_div_pow, Nat.and_comm, Nat.and_one_is_mod]

theorem zReg_eq (f : LF) (n : Nat) : zReg f n = f.z.extractLsb' n 5 := by
  unfold zReg bits
  apply BitVec.eq_of_toNat_eq
  rw [← field_eq_extract]
  simp [field]

end Sys2Proof.Machine
end

