-- ==== Sys2Proof/Laws/Memory.lean ====
section
/-! SUPPORT. The coherence log: what each memory operation does to it and to memory, and what reads answer afterwards. -/

namespace Sys2Proof.Machine

/-! ### The latest write -/

@[simp] theorem latest_nil (p : WEntry → Bool) (a : Nat) : latest p a [] = none := rfl

theorem latest_append (p : WEntry → Bool) (a : Nat) (l r : List WEntry) :
    latest p a (l ++ r) = (latest p a r).or (latest p a l) := by
  induction l with
  | nil => simp
  | cons e l ih =>
    simp only [List.cons_append, latest, ih]
    cases latest p a r <;> simp

/-- The latest write that passes a test is a write of the log that passes it and holds the location. -/
theorem latest_mem {p : WEntry → Bool} {a : Nat} {l : List WEntry} {n : Nat} {b : Byte} (h : latest p a l = some (n, b)) :
    ∃ e ∈ l, p e = true ∧ e.seq = n ∧ e.byteAt a = some b := by
  induction l with
  | nil => simp at h
  | cons e l ih =>
    simp only [latest] at h
    cases hl : latest p a l with
    | some q =>
      rw [hl] at h
      obtain ⟨f, hf, hp, hn, hb⟩ := ih (by rw [hl]; exact h)
      exact ⟨f, List.mem_cons_of_mem _ hf, hp, hn, hb⟩
    | none =>
      rw [hl] at h
      simp only at h
      split at h
      · next hp =>
        cases hb : e.byteAt a with
        | none => simp [hb] at h
        | some c =>
          simp only [hb, Option.map_some, Option.some.injEq, Prod.mk.injEq] at h
          exact ⟨e, by simp, hp, h.1, by rw [hb, h.2]⟩
      · simp at h

/-- A location that no write of the log holds has no latest write. -/
theorem latest_none {p : WEntry → Bool} {a : Nat} {l : List WEntry} (h : ∀ e ∈ l, p e = true → e.byteAt a = none) :
    latest p a l = none := by
  cases hl : latest p a l with
  | none => rfl
  | some q =>
    obtain ⟨e, he, hp, _, hb⟩ := latest_mem (n := q.1) (b := q.2) hl
    rw [h e he hp] at hb
    simp at hb

/-! ### Cells -/

/-- A location that cells do not name has no byte among them. -/
theorem lookup_eq_none_of_not_mem {cs : List Host.Cell} {a : Nat} (h : ∀ e ∈ cs, e.1 ≠ a) : cs.lookup a = none := by
  induction cs with
  | nil => rfl
  | cons e r ih =>
    obtain ⟨k, v⟩ := e
    have hk : (a == k) = false := by simpa using fun he : a = k => h (k, v) (by simp) he.symm
    simp only [List.lookup, hk]
    exact ih (fun f hf => h f (by simp [hf]))

/-- Where cells rise, the byte written last at a location is the one among them. -/
theorem read_writeAll_rising {cs : List Host.Cell} (hp : cs.Pairwise (fun a b => a.1 < b.1)) (m : Memory) (a : Nat) :
    Memory.read (m.writeAll cs) a = (cs.lookup a).getD (m.read a) := by
  induction cs generalizing m with
  | nil => rfl
  | cons e r ih =>
    obtain ⟨k, v⟩ := e
    obtain ⟨h1, h2⟩ := List.pairwise_cons.1 hp
    simp only [Memory.writeAll, List.lookup]
    rw [ih h2, Memory.read_write]
    by_cases hk : a = k
    · subst hk
      rw [lookup_eq_none_of_not_mem (fun f hf => Nat.ne_of_gt (h1 f hf))]
      simp
    · simp [hk, show (a == k) = false by simpa using hk]

/-- Every location of an access has a unit (R129). -/
theorem smallUnits_length (p : Option (Nat × Nat)) (ls : List Nat) : (smallUnits p ls).length = ls.length := by
  induction ls generalizing p with
  | nil => rfl
  | cons a r ih => simp [smallUnits, ih]

@[simp] theorem unitKeys_length (ls : List Nat) : (unitKeys ls).length = ls.length := by
  unfold unitKeys
  split <;> simp [smallUnits_length]

/-- Naming the units of cells changes no cell. -/
@[simp] theorem cellUnits_cells (cells : List Host.Cell) : (cellUnits cells).map (·.1) = cells := by
  simp [cellUnits, List.map_fst_zip]

/-- The first part begins with the first cell. -/
theorem cutParts_cons (c : Host.Cell × Nat) (r : List (Host.Cell × Nat)) : ∃ p ps, cutParts (c :: r) = (c.1 :: p) :: ps := by
  cases r with
  | nil => exact ⟨_, _, rfl⟩
  | cons d r =>
    simp only [cutParts]
    split
    · split <;> exact ⟨_, _, rfl⟩
    · exact ⟨_, _, rfl⟩

/-- The parts of a write hold exactly its cells, in order (R129). -/
theorem cutParts_flatten (us : List (Host.Cell × Nat)) : (cutParts us).flatten = us.map (·.1) := by
  induction us with
  | nil => rfl
  | cons c r ih =>
    cases r with
    | nil => rfl
    | cons d r =>
      obtain ⟨p, ps, h⟩ := cutParts_cons d r
      rw [h] at ih
      simp only [cutParts, h]
      split <;> simpa using ih

/-- Each part of a write rises. -/
theorem cutParts_rising (us : List (Host.Cell × Nat)) : ∀ p ∈ cutParts us, p.Pairwise (fun a b => a.1 < b.1) := by
  induction us with
  | nil => simp [cutParts]
  | cons c r ih =>
    cases r with
    | nil => simp [cutParts]
    | cons d r =>
      obtain ⟨p, ps, h⟩ := cutParts_cons d r
      rw [h] at ih
      simp only [cutParts, h]
      have hd := ih (d.1 :: p) (by simp)
      split
      · next hc =>
        intro q hq
        rcases List.mem_cons.1 hq with rfl | hq
        · refine List.pairwise_cons.2 ⟨fun e he => ?_, hd⟩
          rcases List.mem_cons.1 he with rfl | he
          · exact hc.2.1
          · exact lt_trans hc.2.1 ((List.pairwise_cons.1 hd).1 e he)
        · exact ih q (by simp [hq])
      · intro q hq
        rcases List.mem_cons.1 hq with rfl | hq
        · simp
        · exact ih q hq

theorem atomicParts_flatten (cs : List Host.Cell) : (atomicParts cs).flatten = cs := by
  rw [atomicParts, cutParts_flatten, cellUnits_cells]

theorem atomicParts_rising (cs : List Host.Cell) : ∀ p ∈ atomicParts cs, p.Pairwise (fun a b => a.1 < b.1) := cutParts_rising _

/-! ### Settling -/

theorem settleLog_wf {l : List WEntry} {m : Memory} (h : m.wf = true) : (settleLog l m).2.wf = true := by
  induction l generalizing m with
  | nil => exact h
  | cons e r ih =>
    simp only [settleLog]
    split
    · exact ih (Memory.writeAll_wf _ h)
    · exact h

/-- What is left of the log is its end. -/
theorem settleLog_suffix (l : List WEntry) (m : Memory) : (settleLog l m).1 <:+ l := by
  induction l generalizing m with
  | nil => exact List.suffix_rfl
  | cons e r ih =>
    simp only [settleLog]
    split
    · exact (ih _).trans (List.suffix_cons e r)
    · exact List.suffix_rfl

/-- Settling changes what no test that accepts every settled write reads. -/
theorem settleLog_latest {l : List WEntry} (hr : ∀ e ∈ l, e.cells.Pairwise (fun a b => a.1 < b.1)) (m : Memory)
    (p : WEntry → Bool) (hp : ∀ e ∈ l, 2 ≤ e.level → p e = true) (a : Nat) :
    ((latest p a (settleLog l m).1).map (·.2)).getD ((settleLog l m).2.read a)
      = ((latest p a l).map (·.2)).getD (m.read a) := by
  induction l generalizing m with
  | nil => rfl
  | cons e r ih =>
    simp only [settleLog]
    split
    · next hl =>
      rw [ih (fun f hf => hr f (by simp [hf])) _ (fun f hf => hp f (by simp [hf]))]
      simp only [latest, hp e (by simp) hl, if_true]
      cases latest p a r with
      | some q => rfl
      | none =>
        rw [read_writeAll_rising (hr e (by simp))]
        simp only [WEntry.byteAt, Option.map_none, Option.getD_none]
        cases e.cells.lookup a <;> rfl
    · rfl

/-! ### The operations on the log -/

@[simp] theorem State.settle_nextSeq (s : State) : s.settle.nextSeq = s.nextSeq := rfl
@[simp] theorem State.settle_cores (s : State) : s.settle.cores = s.cores := rfl

theorem State.settle_mem_wf {s : State} (h : s.mem.wf = true) : s.settle.mem.wf = true := settleLog_wf h

/-- Only counters, the nodes of the tree over them, and key versions differ (R186, R206). -/
def OnlyCounters (s t : State) : Prop := ∃ cs ns ds, t = { s with counters := cs, nodes := ns, domains := ds }

theorem OnlyCounters.refl (s : State) : OnlyCounters s s := ⟨_, _, _, rfl⟩

theorem OnlyCounters.trans {s t u : State} (h : OnlyCounters s t) (h' : OnlyCounters t u) : OnlyCounters s u := by
  obtain ⟨_, _, _, rfl⟩ := h
  obtain ⟨cs, ns, ds, rfl⟩ := h'
  exact ⟨cs, ns, ds, rfl⟩

theorem OnlyCounters.foldl {α : Type} {f : State → α → State} (hf : ∀ s a, OnlyCounters s (f s a)) (l : List α) (s : State) :
    OnlyCounters s (l.foldl f s) := by
  induction l generalizing s with
  | nil => exact .refl s
  | cons a r ih => exact (hf s a).trans (ih _)

theorem State.rekeyBlock_only (s : State) (k : Nat) : OnlyCounters s (s.rekeyBlock k) := ⟨_, s.nodes, _, rfl⟩

theorem State.rekeyUnder_only (s : State) (k level : Nat) : OnlyCounters s (s.rekeyUnder k level) := by
  unfold State.rekeyUnder
  exact (OnlyCounters.foldl (fun u _ => u.rekeyBlock_only _) _ s).trans ⟨_, _, _, rfl⟩

theorem State.bumpPath_only (s : State) (k : Nat) : OnlyCounters s (s.bumpPath k) := ⟨s.counters, _, s.domains, rfl⟩

theorem State.freshNodes_only (s : State) (k : Nat) : OnlyCounters s (s.freshNodes k) := by
  unfold State.freshNodes
  split
  · exact s.rekeyUnder_only k _
  · exact .refl s

theorem State.freshBlock_only (s : State) (k i d : Nat) : OnlyCounters s (s.freshBlock k i d) := by
  unfold State.freshBlock
  dsimp only
  refine (s.freshNodes_only k).trans ?_
  split
  · exact ⟨_, _, _, rfl⟩
  · split
    · exact State.rekeyBlock_only _ k
    · exact .refl _

/-- Counting a line written touches counters, their tree and key versions alone. -/
theorem State.bumpLine_only (s : State) (a : Nat) : OnlyCounters s (s.bumpLine a) := by
  unfold State.bumpLine
  split
  · have put (u : State) (cs : Tab Counters) : OnlyCounters u { u with counters := cs } := ⟨cs, u.nodes, u.domains, rfl⟩
    exact ((s.freshBlock_only _ _ _).trans (put _ _)).trans (State.bumpPath_only _ _)
  · exact .refl s

theorem State.bumpLines_only (l : List Nat) (s : State) : OnlyCounters s (s.bumpLines l) := by
  induction l generalizing s with
  | nil => exact .refl s
  | cons a r ih => exact (s.bumpLine_only a).trans (ih _)

/-- Writes join the log, numbered from the next number on. -/
theorem State.putWrites_eq (c level : Nat) (ps : List (List Host.Cell)) (s : State) :
    s.putWrites c level ps = { s with
      log := s.log ++ ps.mapIdx (fun i p => ⟨s.nextSeq + i, p, c, level⟩), nextSeq := s.nextSeq + ps.length } := by
  induction ps generalizing s with
  | nil => simp [State.putWrites]
  | cons p ps ih =>
    simp only [State.putWrites, ih, State.putWrite, List.mapIdx_cons, List.length_cons, List.append_assoc,
      List.singleton_append, Nat.add_zero]
    congr 1
    · congr 2
      apply List.ext_getElem <;> simp [Nat.add_comm, Nat.add_left_comm]
    · omega

/-- Noting what a context has read or performed touches that context alone. -/
theorem State.note_eq (s : State) (c : Nat) (x : CtxId) (es : List (Nat × Nat)) :
    s.note c x es = s ∨ ∃ v : Ctx, s.note c x es = s.setCtx c x v ∧ v = { s.ctxAt c x with seen := v.seen } := by
  unfold State.note
  split
  · exact .inl rfl
  · exact .inr ⟨_, rfl, rfl⟩

/-- Everything a write by a context does: counters, their tree and key versions advance, the parts join the log, what is performed in every
instance settles into memory, and the context notes its own write. -/
theorem State.writeUnits_eq (s : State) (c : Nat) (x : CtxId) (scope : Nat) (us : List (Host.Cell × Nat)) :
    let l := settleLog (s.log ++ (cutParts us).mapIdx (fun i p => ⟨s.nextSeq + i, p, c, min scope 2⟩)) s.mem
    ∃ cs ns ds ks, s.writeUnits c x scope us = { s with
      counters := cs, nodes := ns, domains := ds, cores := ks, log := l.1, mem := l.2,
      nextSeq := s.nextSeq + (cutParts us).length } := by
  obtain ⟨cs, ns, ds, h⟩ := s.bumpLines_only (linesOf (us.map (·.1)))
  simp only [State.writeUnits, State.putWrites_eq, h, State.settle]
  rcases State.note_eq (c := c) (x := x) _ _ with h | ⟨v, h, _⟩ <;> rw [h] <;> exact ⟨cs, ns, ds, _, rfl⟩

theorem State.writeCells_eq (s : State) (c : Nat) (x : CtxId) (scope : Nat) (cells : List Host.Cell) :
    let l := settleLog (s.log ++ (atomicParts cells).mapIdx (fun i p => ⟨s.nextSeq + i, p, c, min scope 2⟩)) s.mem
    ∃ cs ns ds ks, s.writeCells c x scope cells = { s with
      counters := cs, nodes := ns, domains := ds, cores := ks, log := l.1, mem := l.2,
      nextSeq := s.nextSeq + (atomicParts cells).length } := s.writeUnits_eq c x scope _

/-- The same of a write by an agent outside the cores. -/
theorem State.writeDevice_eq (s : State) (cells : List Host.Cell) :
    let l := settleLog (s.log ++ (atomicParts cells).mapIdx (fun i p => ⟨s.nextSeq + i, p, 0, 2⟩)) s.mem
    ∃ cs ns ds, s.writeDevice cells = { s with
      counters := cs, nodes := ns, domains := ds, log := l.1, mem := l.2,
      nextSeq := s.nextSeq + (atomicParts cells).length } := by
  obtain ⟨cs, ns, ds, h⟩ := s.bumpLines_only (linesOf cells)
  simp only [State.writeDevice, State.putWrites_eq, h, State.settle]
  exact ⟨cs, ns, ds, rfl⟩

theorem State.writeCells_mem_wf {s : State} (c : Nat) (x : CtxId) (scope : Nat) (cells : List Host.Cell)
    (h : s.mem.wf = true) : (s.writeCells c x scope cells).mem.wf = true := by
  obtain ⟨cs, ns, ds, ks, ht⟩ := s.writeCells_eq c x scope cells
  rw [ht]
  exact settleLog_wf h

theorem State.writeDevice_mem_wf {s : State} (cells : List Host.Cell) (h : s.mem.wf = true) :
    (s.writeDevice cells).mem.wf = true := by
  obtain ⟨cs, ns, ds, ht⟩ := s.writeDevice_eq cells
  rw [ht]
  exact settleLog_wf h

/-- Memory right after reset is in its canonical form. -/
theorem State.reset_mem_wf : State.reset.mem.wf = true := rfl

end Sys2Proof.Machine
end

