-- ==== Sys2Proof/Laws/Vector.lean ====
section
/-! SUPPORT. What a V48 or X64 instruction that meets its conditions does, said once over the shared operations. -/

namespace Sys2Proof.Machine

theorem readCore_frame (k : Core) : LandFrame k (readCore k) := by
  unfold readCore
  split
  · exact k.landDue_frame
  · exact k.landAll_frame

/-- A pop touches the load queues and `cq0` alone. -/
theorem popCode_eq (k : Core) (n : Nat) : ∃ l c, popCode k n = { k with lq := l, cq := c } := by
  unfold popCode
  split
  · exact ⟨_, k.cq, rfl⟩
  · split
    · exact ⟨k.lq, _, rfl⟩
    · exact ⟨_, _, rfl⟩

theorem popCodes_eq (ns : List Nat) (k : Core) : ∃ l c, ns.foldl popCode k = { k with lq := l, cq := c } := by
  induction ns generalizing k with
  | nil => exact ⟨_, _, rfl⟩
  | cons n r ih =>
    obtain ⟨l, c, h⟩ := popCode_eq k n
    obtain ⟨l', c', h'⟩ := ih (popCode k n)
    exact ⟨l', c', by rw [List.foldl, h', h]⟩

/-- A compute instruction whose whole effect is core `k`, its own context left alone, goes on. -/
theorem ran_setCurCore {s : State} (hx : s.ctx = .cmp) (k : Core) (hk : k.cmp = s.curCore.cmp) (len : Nat) :
    ∃ t, finish len 1 s (.ok (s.setCurCore k)) = .next t ∧ Ran s t k s.cur len := by
  have hc : (s.setCurCore k).cur = s.cur := by
    rw [State.cur_eq, State.cur_eq, State.curCore_setCurCore, State.setCurCore_ctx, hx]
    exact hk
  obtain ⟨t, h1, h2⟩ := ran_of_ok (s := s) (u := s.setCurCore k) (.setCurCore s k) (by rw [hc]) (by rw [hc]) (by rw [hc]) len
  rw [hc, State.curCore_setCurCore] at h2
  exact ⟨t, h1, h2⟩

theorem bitAt_eq (x : Word) (i : Nat) : bitAt x.toNat i = x.getLsbD i := by
  simp only [bitAt, BitVec.getLsbD, Nat.testBit_eq_decide_div_mod_eq]
  rfl

/-- The enabled lanes of the body of a V48 entry are the lanes that its predicate turns on. -/
theorem enabledLanes_filter (f : VF) (s : State) :
    (List.range 64).filter (fun i => (enabledLanes (readCore s.curCore) f).getD i false) = lanesOn f s := by
  unfold lanesOn
  apply List.filter_congr
  intro i hi
  have hi : i < 64 := by simpa using hi
  simp [enabledLanes, hi, bitAt_eq]

/-- What the body of a V48 entry is given. -/
def vecInput (spec : VSpec) (f : VF) (s : State) : VIn :=
  let k := readCore s.curCore
  ⟨srcLanes k spec spec.a spec.aPair f.a.toNat, srcLanes k spec spec.b spec.bPair f.b.toNat,
    if f.d.toNat ≤ 63 ∧ spec.d = .vec then srcLanes k spec .a spec.dPair f.d.toNat
    else List.replicate 64 (2 ^ (fmtBits f.fmt.toNat - 1)),
    enabledLanes k f, k.cmp.exposed⟩

theorem vecInput_enabled (spec : VSpec) (f : VF) (s : State) (g : Nat → Nat) :
    (vecInput spec f s).enabled g = (lanesOn f s).map (fun i => (i, g i)) := by
  simp only [VIn.enabled, vecInput, enabledLanes_filter]

theorem vecInput_c (spec : VSpec) (f : VF) (s : State) (hd : spec.d = .vec) {i : Nat} (hi : i < 64) :
    at64 (vecInput spec f s).c i = laneC spec f s i := by
  simp only [vecInput, laneC, hd, and_true]
  split
  · rfl
  · rw [at64, List.getD_eq_getElem _ _ (by simpa using hi), List.getElem_replicate]

theorem mem_lanesOn_lt {f : VF} {s : State} {l : Nat} (h : l ∈ lanesOn f s) : l < 64 := by
  simp only [lanesOn, List.mem_filter, List.mem_range] at h
  exact h.1

/-- The core a V48 body leaves, with its result in flight as `spec` and the destination code take it. -/
def vecLeaves (spec : VSpec) (latency : Nat) (f : VF) (ls : List (Nat × Nat)) (k : Core) : Core :=
  match spec.d with
  | .unused => k.launch latency []
  | .mat => k.launch latency [.elems (ls.map (fun e => (4096 * f.d.toNat + e.1, BitVec.ofNat 32 e.2)))]
  | .pred => k.launch latency [.pred f.d.toNat (laneMask ls) (laneBits ls)]
  | .vec => launched k latency f.d.toNat spec.dPair ls

theorem code_eq (d : BitVec 7) : (d == 68 || d == 69) = decide (d.toNat = 68 ∨ d.toNat = 69) := by
  revert d
  decide

theorem room_of {spec : VSpec} {f : VF} {s : State} (h : VecReady spec f s) (hq : f.d.toNat = 68 ∨ f.d.toNat = 69) :
    ((readCore s.curCore).storeQ (f.d.toNat - 68)).length < 8 :=
  h.room (hq.imp (fun h => BitVec.eq_of_toNat_eq h) (fun h => BitVec.eq_of_toNat_eq h))

/-- What a V48 instruction does where its conditions hold: its queues are popped, its body runs on the lanes it is given, its
result is in flight, and the context goes on. `body` leaves the core as it finds it but for the stochastic state. -/
theorem vecRun_ran {spec : VSpec} {f : VF} {s : State} (h : VecReady spec f s) (latency word : Nat)
    (body : VIn → Core → List (Nat × Nat) × Core) (ls : List (Nat × Nat)) (sr : Tab Lane)
    (hb : body (vecInput spec f s) (poppedCore spec f s) = (ls, { poppedCore spec f s with sr := sr })) :
    ∃ t, finish 3 1 s (vecRun spec latency word f body s) = .next t ∧
      Ran s t (vecLeaves spec latency f ls { poppedCore spec f s with sr := sr }) s.cur 3 := by
  obtain ⟨l, c, hpop⟩ := popCodes_eq (sourceCodes spec f.a.toNat f.b.toNat) (readCore s.curCore)
  have hpc : poppedCore spec f s = { readCore s.curCore with lq := l, cq := c } := hpop
  have hcmp : (readCore s.curCore).cmp = s.curCore.cmp := (readCore_frame _).cmp
  have he : vecRun spec latency word f body s
      = .ok (s.setCurCore (vecLeaves spec latency f ls { poppedCore spec f s with sr := sr })) := by
    have hroom : ¬ ((spec.d == .vec && (f.d == 68 || f.d == 69))
        && decide (queueDepth ≤ ((readCore s.curCore).storeQ (f.d.toNat - 68)).length)) = true := by
      rw [code_eq]
      simp only [Bool.and_eq_true, decide_eq_true_eq, not_and, queueDepth]
      exact fun hq hd => Nat.not_le.2 (room_of h hq.2) (of_decide_eq_true hd)
    unfold vecRun
    rw [h.ctx]
    simp only [beq_self_eq_true, guardCtx_true, h.codes, h.range, h.const, Bool.false_eq_true, if_false, h.srcA, h.srcB,
      Bool.and_self, Bool.not_true, hroom]
    have hv : (⟨srcLanes (readCore s.curCore) spec spec.a spec.aPair f.a.toNat,
        srcLanes (readCore s.curCore) spec spec.b spec.bPair f.b.toNat,
        if f.d.toNat ≤ 63 ∧ spec.d = .vec then srcLanes (readCore s.curCore) spec .a spec.dPair f.d.toNat
        else List.replicate 64 (2 ^ (fmtBits f.fmt.toNat - 1)),
        enabledLanes (readCore s.curCore) f, (readCore s.curCore).cmp.exposed⟩ : VIn) = vecInput spec f s := rfl
    rw [hv, show (sourceCodes spec f.a.toNat f.b.toNat).foldl popCode (readCore s.curCore) = poppedCore spec f s from rfl, hb,
      code_eq]
    congr 2
    unfold vecLeaves
    cases hd : spec.d with
    | vec =>
      simp only [beq_self_eq_true, Bool.true_and, decide_eq_true_eq]
      unfold launched
      by_cases h63 : f.d.toNat ≤ 63
      · rw [if_pos h63, if_pos h63, if_neg (by omega)]
        simp only [vecWrites, hpc]
        cases spec.dPair <;> simp [lowLane, Core.launch, Function.comp_def]
      · rw [if_neg h63, if_neg h63]
        by_cases hq : f.d.toNat = 68 ∨ f.d.toNat = 69
        · rw [if_pos hq, if_pos hq, if_pos hq]
          simp only [hpc]
        · rw [if_neg hq, if_neg hq, if_neg hq]
    | _ =>
      simp only [show (DstKind.unused == DstKind.vec) = false from rfl, show (DstKind.pred == DstKind.vec) = false from rfl,
        show (DstKind.mat == DstKind.vec) = false from rfl, Bool.false_and, Bool.false_eq_true, if_false]
  rw [he]
  apply ran_setCurCore h.ctx
  rw [← hcmp, hpc]
  unfold vecLeaves
  split <;> first | rfl | (unfold launched; split <;> [rfl; (split <;> rfl)])

end Sys2Proof.Machine
end

