-- ==== Sys2Proof/Laws/Work.lean ====
section
/-! SUPPORT. What a read and a write of a record and a swap of a state word do, where the record lies here and where it lies on another
device (R127, R128, R139); and that holding cores back changes nothing but what is held (R142). -/

namespace Sys2Proof.Machine

/-- Of a record here: the word is written where it is the one expected, and nothing otherwise. -/
theorem swapWord_here {s : State} {v va ls} (h : s.findAt v va .both 8 = .bytes ls) (hr : remoteOf ls = none) (old new ans) :
    s.swapWord v va old new ans = if leNat (s.imageOf ls) = old then (s.writeDevice (cellsAt ls (leBytes 8 new)), .swapped)
      else (s, .unexpected) := by
  simp [State.swapWord, h, hr]

/-- Of a record on another device: an `ACAS` of the old word and the new one is asked of it, in that order, and its answer of the word
it found says whether it was swapped. -/
theorem swapWord_away {s : State} {v va ls dev l a e} (h : s.findAt v va .both 8 = .bytes ls) (hr : remoteOf ls = some (dev, l, a, e))
    (hc : s.canSend v dev = true) (old new b) :
    s.swapWord v va old new (.data b) =
      (s.request v dev (.atomic s.module.devId l a 0x48 8 false (BitVec.ofNat 64 old) (BitVec.ofNat 64 new)),
        if leNat b = old then .swapped else .unexpected) := by
  simp [State.swapWord, h, hr, hc]

/-- Lines asked of other devices are messages sent, and nothing else. -/
theorem sendLines_out (s : State) (v : Nat) (ls : List Byte1) (wr : Option (List Byte)) :
    ∃ o, s.sendLines v ls wr = { s with out := s.out ++ o } := by
  have requests : ∀ (ps : List (Fwd × FabricRequest)) (u : State),
      ∃ o, ps.foldl (fun u q => u.request v q.1.dev q.2) u = { u with out := u.out ++ o } := by
    intro ps
    induction ps with
    | nil => exact fun u => ⟨[], by simp⟩
    | cons q r ih =>
      intro u
      obtain ⟨o, ho⟩ := ih (u.request v q.1.dev q.2)
      exact ⟨_ :: o, by rw [List.foldl_cons, ho]; simp [State.request, State.send]; rfl⟩
  exact requests _ s

/-- Of a record here: it is read as its image stands, and the state is as it was. -/
theorem recTake_here {s : State} {v va n ls} (h : s.findAt v va .read n = .bytes ls) (hr : remoteOf ls = none) (ans) :
    s.recTake v va n ans = (s, .data (s.imageOf ls)) := by
  simp [State.recTake, h, hr]

/-- Of a record on another device: its lines are asked for, and the answer is what is read. -/
theorem recTake_away {s : State} {v va n ls dev l a e} (h : s.findAt v va .read n = .bytes ls)
    (hr : remoteOf ls = some (dev, l, a, e)) (hc : s.canSend v dev = true) (b) :
    s.recTake v va n (.data b) = (s.sendLines v ls none, .data b) := by
  simp [State.recTake, h, hr, hc]

/-- Of a record here: its bytes are written in the device's image. -/
theorem recPut_here {s : State} {v va ls} {bs : List Byte} (h : s.findAt v va .write bs.length = .bytes ls) (hr : remoteOf ls = none)
    (ans) : s.recPut v va bs ans = (s.writeDevice (cellsAt ls bs), .swapped) := by
  simp [State.recPut, h, hr]

/-- Of a record on another device: the write is asked of it, and is made once its answer says so. -/
theorem recPut_away {s : State} {v va ls dev l a e} {bs : List Byte} (h : s.findAt v va .write bs.length = .bytes ls)
    (hr : remoteOf ls = some (dev, l, a, e)) (hc : s.canSend v dev = true) :
    s.recPut v va bs .ok = (s.sendLines v ls (some bs), .swapped) := by
  simp [State.recPut, h, hr, hc]

/-- A group holds cores back for a task, and nothing else changes. -/
theorem reserveIn_reserved (s : State) (part g : Nat) : ∃ r, s.reserveIn part g = { s with reserved := r } := by
  unfold State.reserveIn
  split
  · dsimp only
    split
    · exact ⟨_, rfl⟩
    · exact ⟨s.reserved, rfl⟩
  · exact ⟨s.reserved, rfl⟩

/-- What all groups hold back changes, and nothing else. -/
theorem reserve_reserved (s : State) : ∃ r, s.reserve = { s with reserved := r } := by
  have groups : ∀ (p : Nat) (gs : List Nat) (u : State), ∃ r, gs.foldl (fun u g => u.reserveIn p g) u = { u with reserved := r } := by
    intro p gs
    induction gs with
    | nil => exact fun u => ⟨u.reserved, rfl⟩
    | cons g r ih =>
      intro u
      obtain ⟨a, ha⟩ := reserveIn_reserved u p g
      obtain ⟨b, hb⟩ := ih (u.reserveIn p g)
      exact ⟨b, by rw [List.foldl_cons, hb, ha]⟩
  have parts : ∀ (ps : Tab Partition) (u : State), ∃ r,
      ps.foldl (fun u e => (u.groupsOf e.2.desc).foldl (fun u g => u.reserveIn e.1 g) u) u = { u with reserved := r } := by
    intro ps
    induction ps with
    | nil => exact fun u => ⟨u.reserved, rfl⟩
    | cons e r ih =>
      intro u
      obtain ⟨a, ha⟩ := groups e.1 (u.groupsOf e.2.desc) u
      obtain ⟨b, hb⟩ := ih ((u.groupsOf e.2.desc).foldl (fun u g => u.reserveIn e.1 g) u)
      exact ⟨b, by rw [List.foldl_cons, hb, ha]⟩
  unfold State.reserve
  split
  · exact ⟨s.reserved, rfl⟩
  · exact parts _ s

end Sys2Proof.Machine
end

