-- ==== Sys2Proof/Tests/Slice0.lean ====
section
/-! SUPPORT. Tests of this slice: ill-formed instructions that the check refuses, words written out from the spec's encodings,
witnesses that the hypotheses of each statement can be met, and single steps. -/

namespace Sys2Proof.Tests

open Sys2Proof Sys2Proof.Machine

/-! ### Small states -/

/-- The frame of a page of function 0. -/
def pageFrame : FrameRec := ⟨0x6000, 64, 0, false, false⟩

/-- Function 0, its tables at 0. -/
def atZero (t : Tenant := {}) : Tab Tenant := [(0, { t with tableBase := some 0 })]

/-- A machine whose core 0 is as given, of a team of one core that every register is allocated to (R29), with a context of it
issuing. -/
def stCore (x : CtxId) (k : Core) : State :=
  { ctx := x, cores := [(0, { k with team := 1 })], tenants := atZero, frames := [pageFrame],
    teams := [(1, { bytes := List.replicate 54 0 ++ [7, 16] ++ List.replicate 72 0, cores := [0] })] }

/-- The same with the issuing context as given. -/
def stCtx (x : CtxId) (v : Ctx) : State := stCore x (Core.setCtx {} x v)

/-- The same with the issuing context running, its general registers as listed. -/
def st (x : CtxId) (g : Tab Word := []) : State := stCtx x { run := .running, g := g }

/-- The tables of one page of plane 0 of function 0: 4,096 elements of 8 bits at 0x6000, readable and writable. -/
def tables : Memory :=
  [(1, 0x10), (8, 1), (10, 1), (16, 1), (32, 0x63), (0x1000, 2), (0x1007, 0x40), (0x2000, 3), (0x2007, 0x40), (0x3000, 4),
   (0x3007, 0x40), (0x4000, 0xA0), (0x4007, 0x80), (0x5000, 0x80), (0x5001, 1), (0x5007, 0x30)]

/-- A machine with that page, and the cells of memory given above it. -/
def plain (cells : List Host.Cell) : State := { mem := tables ++ cells, tenants := atZero, frames := [pageFrame] }

/-- The page's tables are in the device image, and none of its lines waits: none is bad, the page's frame alone is listed, and no lease or channel. -/
def tablesOk (s : State) : Bool :=
  (s.tenant 0).tableBase == some 0 && s.badLines == [] && s.frames == [pageFrame] && s.shared == [] && s.leases == [] && s.channels == [] &&
  !s.blockFails 12 && !s.blockFails 13 && (List.range 64).all (fun i => !s.mustWait (0x6000 + 64 * i)) &&
  [(0, 8, 0x1000), (8, 2, 1), (10, 2, 1), (16, 8, 1), (32, 8, 0x63), (0x1000, 8, 2 ^ 62 + 2), (0x2000, 8, 2 ^ 62 + 3),
   (0x3000, 8, 2 ^ 62 + 4), (0x4000, 8, 2 ^ 63 + 0xA0), (0x5000, 8, 3 * 2 ^ 60 + 0x180)].all
    (fun e => s.imageNat e.1 e.2.1 == e.2.2)

/-- Then bytes of the page lie where its frame is, for any access (R46, R51). -/
theorem lies {s : State} (h : tablesOk s = true) {a n : Nat} (ha : a < 4096 ∧ a + n ≤ 4096) (r w : Bool) :
    LiesAt s 0 (BitVec.ofNat 64 a) ⟨r, w⟩ n (0x6000 + a) := by
  simp only [tablesOk, Bool.and_eq_true, Bool.not_eq_true', beq_iff_eq, List.all_cons, List.all_nil, Bool.and_true] at h
  obtain ⟨ha', ha⟩ := ha
  obtain ⟨⟨⟨⟨⟨⟨⟨⟨⟨hb, hl⟩, hf⟩, hs⟩, hle⟩, hc⟩, f12⟩, f13⟩, hmw⟩, h0, h8, h10, h16, h32, h1, h2, h3, h4, h5⟩ := h
  have va (b : Nat) (hb : b ≤ 4096) : vaPlane (BitVec.ofNat 64 b) = 0 ∧ vaConst (BitVec.ofNat 64 b) = 0 ∧ vaPos (BitVec.ofNat 64 b) = b := by
    simp only [vaPlane, vaConst, vaPos, field, BitVec.toNat_ofNat]
    rw [Nat.mod_eq_of_lt (by omega)]; omega
  have dA (b : Nat) (hb' : b ≤ 4096) : s.descAddr 0 (BitVec.ofNat 64 b) = 0 := by simp [State.descAddr, hb, (va b hb').2.1]
  have dD (b : Nat) (hb' : b ≤ 4096) : s.planeDesc 0 (BitVec.ofNat 64 b) = ⟨0x63⟩ := by
    simp [State.planeDesc, dA b hb', (va b hb').1, h32]
  have cP (b : Nat) (hb' : b ≤ 4096) : s.checkPlane 0 (BitVec.ofNat 64 b) = none := by
    simp only [State.checkPlane, State.descValid, State.planeOn, hb, dD b hb', dA b hb', (va b hb').1, Nat.zero_add, h10, h8]
    decide
  have bO (b : Nat) : PlaneDesc.byteOf ⟨0x63⟩ b = b ∧ PlaneDesc.posOf ⟨0x63⟩ b = b := by
    constructor
    · change b * 8 / 8 = b; omega
    · change b * 8 / 8 = b; omega
  have vAt (b b' : Nat) (h : b ≤ 4096) (h' : b' ≤ 4096) : vaAt (BitVec.ofNat 64 b) b' = BitVec.ofNat 64 b' := by
    rw [vaAt, (va b h).1, (va b h).2.1, Nat.zero_mul, Nat.zero_mul, Nat.zero_add, Nat.mod_eq_of_lt (by omega)]
  have pl (b : Nat) (hb' : b < 4096) : s.place 0 (BitVec.ofNat 64 b) ⟨r, w⟩ = .frame 0x6000 12 (3 * 2 ^ 60 + 0x180) := by
    have hw : s.walk 0 (BitVec.ofNat 64 b) = .leaf 0x5000 12 := by
      have f (k : Nat) : field b (12 + k) 9 = 0 := by
        simp only [field]
        rw [Nat.div_eq_of_lt (lt_of_lt_of_le (show b < 2 ^ 12 from hb') (Nat.pow_le_pow_right (by decide) (by omega))), Nat.zero_mod]
      have step (l t k : Nat) (hk : k < 16) (ht : s.imageNat t 8 = 2 ^ 62 + k) : s.walkFrom b (l + 1) t = s.walkFrom b l (k * 4096) := by
        have e1 : field (2 ^ 62 + k) 62 2 = 1 := by simp only [field]; omega
        have e2 : field (2 ^ 62 + k) 48 11 = 0 := by simp only [field]; omega
        have e3 : field (2 ^ 62 + k) 0 48 = k := by simp only [field]; omega
        rw [State.walkFrom]
        simp only [f, Nat.mul_zero, Nat.add_zero, ht, e1, e2, e3]
        rfl
      have last : s.walkFrom b 0 0x4000 = .leaf 0x5000 12 := by
        rw [State.walkFrom]
        have := f 0
        simp only [Nat.add_zero] at this
        simp only [Nat.mul_zero, Nat.add_zero, this, h4]
        rfl
      simp only [State.walk, hb, Option.isNone_some, Bool.false_eq_true, if_false, State.descRoot, dA b (by omega),
        (va b (by omega)).2.2, Nat.zero_add, h16]
      rw [step 2 _ 2 (by decide) h1, step 1 _ 3 (by decide) h2, step 0 _ 4 (by decide) h3]
      exact last
    simp only [State.place, cP b (by omega), dD b (by omega), State.descLimit, dA b (by omega), h0, (va b (by omega)).2.2, hw, (va b (by omega)).1, Nat.mul_zero, Nat.add_zero, h5]
    rw [if_neg (by omega)]
    cases r <;> cases w <;> rfl
  have fb (b m : Nat) (hm : b + m ≤ 4096) : s.findBytes 0 (BitVec.ofNat 64 a) ⟨r, w⟩ b m = .bytes ((span (0x6000 + b) m).map .at) := by
    induction m generalizing b with
    | zero => rfl
    | succ m ih =>
      have e : s.findByte 0 (BitVec.ofNat 64 a) ⟨r, w⟩ b = .bytes [.at (0x6000 + b)] := by
        simp only [State.findByte, dD a (by omega), (bO b).2]
        rw [if_neg (by omega), vAt _ _ (by omega) (by omega), pl b (by omega)]
        have hp : s.presents 0 (3 * 2 ^ 60 + 0x180) = 1 := by
          rw [State.presents, if_neg (by decide)]
        have hk (b : Nat) (hb : b < 4096) : s.domainOf (0x6000 + b) = 1 := by
          have : (decide (0x6000 ≤ 0x6000 + b) && decide (0x6000 + b < 0x6000 + 64 * 64)) = true := by
            rw [Bool.and_eq_true, decide_eq_true_eq, decide_eq_true_eq]; omega
          simp only [State.domainOf, State.heldDomain, hs, hle, hf, List.find?_nil, List.find?_cons, pageFrame, this]
          rfl
        have hb : s.blockFails ((0x6000 + b) / 2048) = false := by
          obtain h | h : (0x6000 + b) / 2048 = 12 ∨ (0x6000 + b) / 2048 = 13 := by omega
          · rw [h]; exact f12
          · rw [h]; exact f13
        have hw : s.mustWait (0x6000 + b) = false := by
          have h : s.mustWait (0x6000 + 64 * (b / 64)) = false := by
            simpa using List.all_eq_true.1 hmw (b / 64) (List.mem_range.2 (by omega))
          have e1 : (0x6000 + 64 * (b / 64)) / 2048 = (0x6000 + b) / 2048 := by omega
          have e2 : (0x6000 + 64 * (b / 64)) / 64 = (0x6000 + b) / 64 := by omega
          simp only [State.mustWait, State.waitsUnder, hk _ (show 64 * (b / 64) < 4096 by omega), e1, e2] at h
          simp only [State.mustWait, State.waitsUnder, hk b (by omega)]
          exact h
        have hw (need : Need) : s.lineWaits 0 (3 * 2 ^ 60 + 0x180) (0x6000 + b) need = false := by
          rw [State.lineWaits, hp]
          simp [State.lineFails, State.keyFits, hk b (by omega), hb, hl, hc, State.channelWaits, hw]
        simp only [(bO _).1, Nat.div_eq_of_lt (by omega : b < 2 ^ 12), Nat.zero_mul, Nat.sub_zero, State.lineFound]
        rw [if_neg (by simp only [Config.physBytes]; omega), hw]
        rfl
      simp only [State.findBytes, e, ih (b + 1) (by omega)]
      simp [span, List.range_succ_eq_map]
      intro x _; omega
  unfold LiesAt
  simp only [State.findAt, State.findFrom, cP a (by omega), dD a (by omega), (va a (by omega)).2.2, (bO a).1, Nat.add_zero, fb a n ha]
  rw [if_neg (by simp only [State.descLimit, dA a (by omega), h0]; omega)]

theorem logOk_empty {s : State} (h : s.log = []) : LogOk s := by
  constructor <;> rw [h]
  · exact .nil
  · exact fun e he => absurd he (by simp)

/-! ### Witnesses: scalar instructions -/

theorem witness_ThreeRegisterResults :
    Usable (st .ctl [(31, 5)]) [0, 31, 16] ∧ Usable (st .ld) [15, 0, 15] ∧ Usable (st .cmp) [15, 15, 15] ∧ Usable (st .biv) [31, 31, 31] := by
  unfold Usable; decide

theorem witness_DivisionSelectAndBitFields :
    (∃ s, Usable s [1, 2, 3] ∧ s.G 3 = 0) ∧
    (∃ s, Usable s [1, 2, 3] ∧ s.G 3 ≠ 0 ∧ ¬ (s.G 2 = BitVec.ofInt 64 (-2 ^ 63) ∧ s.G 3 = BitVec.allOnes 64)) ∧
    (∃ s, Usable s [1, 2, 3] ∧ s.G 2 = BitVec.ofInt 64 (-2 ^ 63) ∧ s.G 3 = BitVec.allOnes 64) ∧
    (∃ (width lsb : BitVec 6) (s : State), Usable s [1, 2] ∧ lsb.toNat + (width.toNat + 1) = 64) ∧
    (∃ (width lsb : BitVec 6) (s : State), Usable s [1, 2] ∧ lsb.toNat + (width.toNat + 1) = 65) := by
  refine ⟨⟨st .ctl, ?_⟩, ⟨st .ctl [(3, 1)], ?_⟩, ⟨st .ctl [(2, BitVec.ofInt 64 (-2 ^ 63)), (3, BitVec.allOnes 64)], ?_⟩,
    ⟨0, 63, st .ctl, ?_⟩, ⟨1, 63, st .ctl, ?_⟩⟩ <;> (unfold Usable; decide)

theorem witness_ImmediateAndShortResults :
    (∃ s, Usable s [1, 2, 3]) ∧
    (∀ n : BitVec 6, n.toNat ≤ 16 ∨ 17 ≤ n.toNat ∧ n.toNat ≤ 24 ∨ 25 ≤ n.toNat ∧ n.toNat ≤ 36 ∨ 37 ≤ n.toNat) ∧
    (∃ (k : Reg) (s : State), Usable s [1, 2] ∧ k.toInt = 0) ∧ (∃ (k : Reg) (s : State), Usable s [1, 2] ∧ k.toInt = -1) := by
  refine ⟨⟨st .ctl, by unfold Usable; decide⟩, fun n => by omega, ⟨0, st .ctl, ?_⟩, ⟨31, st .ctl, ?_⟩⟩ <;> (unfold Usable; decide)

/-- The fields `x`, `y` and the two places of a register in `z` are the highest numbers there are, or `g15`. -/
def regLF (x y : Bool) : LF := { x := if x then 16 else 3, y := if y then 31 else 15, z := 0x1FF }

theorem witness_RegisterChecks :
    ((st .ld).ctx = .ld ∧ 16 ≤ (16 : Reg).toNat ∧ (15 : Reg).toNat < 16) ∧
    (16 ≤ (regLF true false).x.toNat ∧ (regLF false true).x.toNat ≤ 3 ∧ 16 ≤ (regLF false true).y.toNat ∧
      (regLF false false).y.toNat < 16 ∧ (regLF false false).x.toNat ≤ 3 ∧ ((regLF false false).z.extractLsb' 5 5).toNat = 15 ∧
      16 ≤ ((0x200 : BitVec 10).extractLsb' 5 5).toNat ∧ 16 ≤ ((regLF false false).z.extractLsb' 3 5).toNat ∧
      ((regLF false false).z.extractLsb' 1 6) ≠ 0) ∧
    (∃ (o : Op) (s : State), OnCtl s ∧ o ∈ s.cur.ops ∧ o.st ≠ .done ∧ o.dst = some (4 : Reg).toNat) ∧
    (∃ (o : Op) (s : State), s.ctx = .cmp ∧ o ∈ s.cur.ops ∧ o.st ≠ .done ∧ o.dst = some (4 : Reg).toNat ∧ s.freeze ≠ s) := by
  refine ⟨by decide, by decide, ⟨{ dst := some 4 }, stCtx .ctl { run := .running, ops := [{ dst := some 4 }] }, ?_⟩,
    { dst := some 4 }, stCtx .cmp { run := .running, loops := [{ inter := false }], ops := [{ dst := some 4 }] }, ?_⟩
  · unfold OnCtl; decide
  · decide

theorem witness_QueueMoves :
    (∃ (s : State) (v w : Word) (z : Lane), OnCtl s ∧ Usable s [5] ∧ s.curCore.yq = [v] ∧ s.curCore.zq = [⟨7, some z⟩] ∧
      s.curCore.cq = List.replicate 15 w) ∧
    (∃ (s : State) (w : Word), OnCtl s ∧ Usable s [5] ∧ s.curCore.yq = [] ∧ s.curCore.zq = [] ∧ s.curCore.cq = List.replicate 16 w) ∧
    (∃ (s : State) (w : Word), s.ctx = .cmp ∧ Usable s [5] ∧ s.curCore.cq = [w]) ∧
    (∃ s : State, s.ctx = .cmp ∧ Usable s [5] ∧ s.curCore.cq = [] ∧ ¬ OnCtl s) := by
  refine ⟨⟨stCore .ctl { yq := [1], zq := [⟨7, some 2⟩], cq := List.replicate 15 3 }, 1, 3, 2, ?_⟩,
    ⟨stCore .biv { cq := List.replicate 16 3 }, 3, ?_⟩, ⟨stCore .cmp { cq := [3] }, 3, ?_⟩, ⟨st .cmp, ?_⟩⟩ <;>
  ((try unfold Usable); (try unfold OnCtl); decide)

/-! ### Witnesses: branches and blocks -/

/-- A context at offset 10 inside one block, with a header read ahead at offset 20. -/
def branching (x : CtxId) (h : Nat) (g : Tab Word) : State :=
  stCtx x { run := .running, pc := 10, g := g, loops := [{ header := 2, remain := 3, len := 40 }],
            ahead := some (20, splitWord 2 h) }

theorem witness_Branches :
    (∃ s : State, Usable s [1, 2, 15] ∧ s.G 1 = s.G 2) ∧
    (∃ s : State, Usable s [1, 2, 15] ∧ (s.G 1).toInt < (s.G 2).toInt ∧ (s.G 2).toNat ≤ (s.G 1).toNat) ∧
    (∃ s : State, Usable s [1, 2, 15] ∧ (s.G 2).toInt ≤ (s.G 1).toInt ∧ (s.G 1).toNat < (s.G 2).toNat) ∧
    (∃ (off : BitVec 12) (h : Header) (ps : List Parcel) (s : State), let t := s.pc + BitVec.ofInt 64 off.toInt
      Usable s [1, 2, 15] ∧ s.headerAt t = .parcels ps ∧ wordOf ps = encH h ∧ CanEnter s s.cur h (keptLoops s t) ∧ CanEnter s (s.cur.setReg 15 (s.pc + 2)) h (keptLoops s t) ∧
      (∀ e r, keptLoops s t = e :: r → t.toNat + 2 ≤ e.bodyEnd) ∧ keptLoops s t ≠ []) ∧
    (∃ (h : Header) (s : State), h.csrc = 1 ∧ s.cur.pendingReg (h.count.extractLsb' 0 5).toNat = true ∧ Usable s [1, 2, 15] ∧
      s.headerAt (s.pc + 10) = .parcels (splitWord 2 (encH h))) := by
  refine ⟨⟨st .ctl, ?_⟩, ⟨st .ctl [(1, BitVec.allOnes 64)], ?_⟩, ⟨st .ctl [(2, BitVec.allOnes 64)], ?_⟩,
    ⟨10, ⟨false, false, 0, 2, 8⟩, splitWord 2 (encH ⟨false, false, 0, 2, 8⟩), branching .ctl (encH ⟨false, false, 0, 2, 8⟩) [], ?_⟩, ⟨false, false, 1, 4, 8⟩,
    stCtx .ctl { (branching .ctl (encH ⟨false, false, 1, 4, 8⟩) []).cur with ops := [{ dst := some 4 }] }, rfl, by decide, ?_, by decide⟩
  · unfold Usable; decide
  · unfold Usable; decide
  · unfold Usable; decide
  · refine ⟨by unfold Usable; decide, by decide, by decide, ⟨by decide, by decide, by decide, by decide, by decide⟩,
      ⟨by decide, by decide, by decide, by decide, by decide⟩, ?_, by decide⟩
    intro e r h
    have k : keptLoops (branching .ctl (encH ⟨false, false, 0, 2, 8⟩) [])
      ((branching .ctl (encH ⟨false, false, 0, 2, 8⟩) []).pc + BitVec.ofInt 64 (10 : BitVec 12).toInt) =
      [{ header := 2, remain := 3, len := 40 }] := by decide
    cases k.symm.trans h; decide
  · unfold Usable; decide

theorem witness_Returns :
    (∃ s : State, Usable s [3, 15] ∧ s.G 15 = 0 ∧ s.ctx ≠ .biv) ∧
    (∃ s : State, Usable s [3, 15] ∧ s.G 15 ≠ 0 ∧ keptLoops s (s.G 15) ≠ []) ∧
    (∃ s : State, Usable s [3, 15] ∧ s.G 15 = 0 ∧ s.ctx = .biv ∧ keptLoops s (s.G 15) = []) ∧
    (∃ (h : Header) (ps : List Parcel) (s : State), Usable s [3, 15] ∧ s.headerAt (s.G 3) = .parcels ps ∧ wordOf ps = encH h ∧
      CanEnter s s.cur h (keptLoops s (s.G 3)) ∧ (s.G 3).toNat + 2 ≤ 44 ∧ keptLoops s (s.G 3) = [{ header := 2, remain := 3, len := 40 }]) := by
  refine ⟨⟨st .ctl, ?_⟩, ⟨branching .ctl 0 [(15, 12)], ?_⟩, ⟨st .biv, ?_⟩,
    ⟨false, false, 0, 2, 8⟩, splitWord 2 (encH ⟨false, false, 0, 2, 8⟩), branching .ctl (encH ⟨false, false, 0, 2, 8⟩) [(3, 20)], ?_⟩
  · unfold Usable; decide
  · unfold Usable; decide
  · unfold Usable; decide
  · exact ⟨by unfold Usable; decide, by decide, by decide, ⟨by decide, by decide, by decide, by decide, by decide⟩, by decide, by decide⟩

theorem witness_LeaveAndSkips :
    (∃ (e : LoopEntry) (s : State), s.cur.loops = [e] ∧ EndsAlone e []) ∧ (∃ s : State, s.cur.loops = []) ∧
    (∃ (n : BitVec 12) (s : State), Usable s [3] ∧ s.G 3 = 0 ∧ (s.pc + 2 + n.zeroExtend 64).toNat = 43 ∧
      s.cur.loops = [{ header := 2, remain := 3, len := 40 }]) ∧
    (∃ (n : BitVec 12) (s : State), Usable s [3] ∧ s.G 3 = 0 ∧ (s.pc + 2 + n.zeroExtend 64).toNat = 44 ∧
      s.cur.loops = [{ header := 2, remain := 3, len := 40 }]) ∧
    (∃ (n : BitVec 12) (s : State), Usable s [3] ∧ s.G 3 ≠ 0 ∧ (s.pc + 2 + n.zeroExtend 64).toNat = 45 ∧
      s.cur.loops = [{ header := 2, remain := 3, len := 40 }]) := by
  refine ⟨⟨{ header := 2, remain := 3, len := 40 }, branching .ctl 0 [], rfl, fun f q h => by cases h⟩, ⟨st .ctl, rfl⟩,
    ⟨31, branching .ctl 0 [], ?_⟩, ⟨32, branching .ctl 0 [], ?_⟩,
    33, branching .ctl 0 [(3, 1)], ?_⟩ <;> (unfold Usable; decide)

theorem witness_HeadersReached :
    (∃ (h : Header) (s : State), h.csrc = 1 ∧ Usable s [h.count.extractLsb' 0 5] ∧ CanEnter s s.cur h s.cur.loops ∧
      headerCount s.cur h = 0) ∧
    (∃ (h : Header) (s : State), h.csrc = 0 ∧ CanEnter s s.cur h s.cur.loops ∧ headerCount s.cur h = 512) ∧
    (∃ (h : Header) (s : State), h.csrc = 1 ∧ s.cur.pendingReg (h.count.extractLsb' 0 5).toNat = true) ∧
    (∃ (len : BitVec 14) (s : State), len ≠ 0 ∧ PastBody s (s.pc + 2 + len.zeroExtend 64)) := by
  refine ⟨⟨⟨false, false, 1, 5, 8⟩, st .ctl, rfl, by unfold Usable; decide, ⟨by decide, by decide, by decide, by decide, by decide⟩, by decide⟩,
    ⟨⟨true, true, 0, 0, 8⟩, st .cmp, rfl, ⟨by decide, by decide, by decide, by decide, by decide⟩, by decide⟩,
    ⟨⟨false, false, 1, 5, 8⟩, stCtx .ctl { ops := [{ dst := some 5 }] }, rfl, by decide⟩,
    ⟨1, st .ctl, by decide, fun e r h => by cases h⟩⟩

theorem witness_TargetAndHeaderTraps :
    (∃ (off : BitVec 12) (ps : List Parcel) (s : State), Usable s [15] ∧
      s.headerAt (s.pc + BitVec.ofInt 64 off.toInt) = .parcels ps ∧ wordOf ps / 2 ^ 28 % 16 ≠ 15) ∧
    (∃ (off : BitVec 12) (ps : List Parcel) (s : State), Usable s [15] ∧
      s.headerAt (s.pc + BitVec.ofInt 64 off.toInt) = .parcels ps ∧ wordOf ps / 2 ^ 28 % 16 = 15 ∧ wordOf ps / 2 ^ 26 % 4 = 2) ∧
    (∃ (h : Header) (s : State), h.csrc ≠ 1 ∧ h.wf = false ∧ s.ctx = .ctl) ∧
    (∃ (h : Header) (s : State), h.wf = true ∧ h.csrc = 1 ∧ ¬ OnCtl s ∧ 16 ≤ (h.count.extractLsb' 0 5).toNat ∧
      s.cur.pendingReg (h.count.extractLsb' 0 5).toNat = false) ∧
    (∃ (h : Header) (s : State), h.wf = true ∧ h.csrc = 0 ∧ h.rot = true ∧ s.ctx = .cmp ∧ ∃ e ∈ s.cur.loops, e.rot = true) ∧
    (∃ (h : Header) (s : State), h.wf = true ∧ h.csrc = 1 ∧ OnCtl s ∧ headerCount s.cur h = 16777216 ∧
      s.cur.pendingReg (h.count.extractLsb' 0 5).toNat = false) ∧
    (∃ (h : Header) (s : State), h.wf = true ∧ h.csrc = 2 ∧ h.rot = false ∧ headerCount s.cur h = 1 ∧ s.cur.loops.length = 4) := by
  refine ⟨⟨10, splitWord 2 0, branching .ctl 0 [], ?_⟩, ⟨10, splitWord 2 0xF8000001, branching .ctl 0xF8000001 [], ?_⟩,
    ⟨⟨false, false, 0, 1, 0⟩, st .ctl, ?_⟩, ⟨⟨false, false, 1, 16, 8⟩, st .ld, ?_⟩,
    ⟨⟨true, false, 0, 1, 8⟩, stCtx .cmp { run := .running, loops := [{ rot := true }] }, ?_⟩,
    ⟨⟨false, false, 1, 16, 8⟩, st .ctl [(16, 16777216)], ?_⟩,
    ⟨⟨false, false, 2, 0, 8⟩, stCtx .ctl { run := .running, loops := [{}, {}, {}, {}] }, ?_⟩⟩ <;>
  ((try unfold Usable); (try unfold OnCtl); decide)

theorem witness_BodyEnds :
    (∃ (e : LoopEntry) (s : State), s.cur.loops = [e] ∧ s.pc.toNat = e.bodyEnd ∧ e.leave = true) ∧
    (∃ (e : LoopEntry) (s : State), s.cur.loops = [e] ∧ (s.pc + 1).toNat = e.bodyEnd ∧ e.leave = false ∧ e.remain = 1) ∧
    (∃ (e : LoopEntry) (s : State), s.cur.loops = [e] ∧ (s.pc + 1).toNat = e.bodyEnd ∧ e.leave = false ∧ e.remain = 2) := by
  refine ⟨⟨{ header := 2, leave := true, len := 6 }, stCtx .ctl { pc := 10, loops := [{ header := 2, leave := true, len := 6 }] }, ?_⟩,
    ⟨{ header := 2, remain := 1, len := 7 }, stCtx .ctl { pc := 10, loops := [{ header := 2, remain := 1, len := 7 }] }, ?_⟩,
    ⟨{ header := 2, remain := 2, len := 7 }, stCtx .ctl { pc := 10, loops := [{ header := 2, remain := 2, len := 7 }] }, ?_⟩⟩ <;> decide

/-- A task whose code image begins at the page of `tables`. -/
def coded (cells : List Host.Cell) (v : Ctx) : State :=
  { stCtx .ctl v with mem := tables ++ cells }

/-- The same with the page in a frame of device 3, under its lease 9, at 0x8000 there. -/
def away (v : Ctx) : State :=
  { stCtx .ctl v with mem := tables.take 13 ++ [(0x5000, 0x80), (0x5004, 0x24), (0x5005, 0x0C), (0x5007, 0x70)] }

theorem witness_ParkedFetchPerforms :
    (∃ (s : State) (ps : List Parcel), (s.ctxAt 0 .ctl).run = .running ∧ (s.ctxAt 0 .ctl).want = none ∧
      (s.ctxAt 0 .ctl).fetched = none ∧ s.fetchAt 0 .ctl 0 (s.ctxAt 0 .ctl).pc.toNat = .parcels ps) ∧
    (∃ (s : State) (t : Word) (ps : List Parcel), (s.ctxAt 0 .ctl).run = .running ∧ (s.ctxAt 0 .ctl).want = some t ∧
      s.fetchMore 0 .ctl 0 t.toNat 2 = .parcels ps) ∧
    (∃ (s : State) (va : Word), (s.ctxAt 0 .ctl).run = .running ∧ (s.ctxAt 0 .ctl).want = none ∧ (s.ctxAt 0 .ctl).fetched = none ∧
      s.fetchAt 0 .ctl 0 (s.ctxAt 0 .ctl).pc.toNat = .park va) ∧
    (∃ s : State, (s.ctxAt 0 .ctl).run = .running ∧ (s.ctxAt 0 .ctl).want = none ∧ (s.ctxAt 0 .ctl).fetched = none ∧
      s.fetchAt 0 .ctl 0 (s.ctxAt 0 .ctl).pc.toNat = .away 3 9 0x8000) ∧
    (∃ s : State, (s.ctxAt 0 .ctl).run = .running ∧ (s.ctxAt 0 .ctl).want = none ∧ (s.ctxAt 0 .ctl).fetched = none ∧
      s.fetchAt 0 .ctl 0 (s.ctxAt 0 .ctl).pc.toNat = .lost) ∧
    (∃ s : State, (s.ctxAt 0 .ctl).run ≠ .running) := by
  refine ⟨⟨coded [] { run := .running }, [0], ?_⟩, ⟨coded [] { run := .running, want := some 4 }, 4, [0, 0], ?_⟩,
    ⟨{ coded [] { run := .running } with mem := tables.take 15 ++ [(0x5007, 0x90)] }, 0, ?_⟩,
    ⟨away { run := .running }, ?_⟩,
    ⟨away { run := .running, lines := [{ dev := 3, lease := 9, addr := 0x8000, sent := 0, ans := .lost }] }, ?_⟩, ⟨st .ld, ?_⟩⟩ <;>
  decide +kernel

/-! ### Witnesses: exceptions and the system instructions -/

theorem witness_TakingAnException :
    (∃ (cause : Nat) (s : State), cause ≤ 9 ∧ s.ctx ≠ .biv ∧ s.drained s.core s.ctx = true ∧ s.curCore.biv.run ≠ .running ∧
      s.curCore.pend = []) ∧
    (∃ (cause : Nat) (s : State), cause ≤ 9 ∧ s.ctx ≠ .biv ∧ s.curCore.pend = [] ∧ s.drained s.core s.ctx = false) ∧
    (∃ (cause : Nat) (s : State), cause ≤ 9 ∧ s.ctx ≠ .biv ∧ s.curCore.pend = [] ∧ s.curCore.biv.run = .running) := by
  refine ⟨⟨9, stCtx .cmp { run := .running, loops := [{}, {}, {}, {}] }, ?_⟩, ⟨0, stCtx .st { run := .running, ops := [{}] }, ?_⟩,
    ⟨9, stCore .ctl { biv := { run := .running } }, ?_⟩⟩ <;> decide

theorem witness_TrapThenReturn :
    ∃ s : State, s.ctx = .ctl ∧ s.drained s.core .ctl = true ∧ s.curCore.biv.run ≠ .running ∧ s.curCore.pend = [] ∧
      s.curCore.biv.ops = [] ∧ s.cur.loops.length ≤ 4 ∧ (∀ e r, s.cur.loops = e :: r → (s.pc + 2).toNat ≠ e.bodyEnd) := by
  refine ⟨stCtx .ctl { run := .running, pc := 10, loops := [{ header := 2, len := 40 }, {}, {}, {}] },
    by decide, by decide, by decide, by decide, by decide, by decide, ?_⟩
  intro e r h
  cases h; decide

theorem witness_BivouacTrapsAndReturnChecks :
    (∃ s : State, s.ctx = .biv) ∧ (∃ s : State, s.ctx ≠ .biv) ∧
    (∃ s : State, s.ctx = .biv ∧ ∃ o ∈ s.cur.ops, s.performedOwn s.core o = false) ∧
    (∃ s : State, s.ctx = .biv ∧ (∀ o ∈ s.cur.ops, s.performedOwn s.core o = true) ∧
      (s.curCore.frame.loops.get 0 3).extractLsb' 56 4 ≠ 0) ∧
    (∃ s : State, s.ctx = .biv ∧ (∀ o ∈ s.cur.ops, s.performedOwn s.core o = true) ∧
      (s.curCore.frame.loops.get 0 2).getLsbD 63 = false ∧ (s.curCore.frame.loops.get 0 3).getLsbD 63 = true) := by
  refine ⟨⟨st .biv, by decide⟩, ⟨st .ctl, by decide⟩, ⟨stCtx .biv { ops := [{}] }, by decide, {}, by decide⟩,
    ⟨stCore .biv { frame := { loops := [(3, 1 <<< 56)] } }, by decide⟩,
    ⟨stCore .biv { frame := { loops := [(3, 1 <<< 63)] } }, by decide⟩⟩

theorem witness_SpecialRegisterReads :
    (∃ (d : Reg) (v : Word) (s : State), OnCtl s ∧ Usable s [d] ∧ v.getLsbD 0 = (s.ctx == .biv) ∧ v.getLsbD 1 = s.curCore.msgHold ∧
      v.getLsbD 2 = s.curCore.demHold ∧ v.getLsbD 3 = s.curCore.hotHold ∧ v.toNat / 16 = s.curCore.pend.length ∧
      s.curCore.pend.length = 8) ∧
    (∃ (d : Reg) (s : State), OnCtl s ∧ Usable s [d] ∧ s.ctx = .ctl) ∧ (0x10 < (0x11 : BitVec 17).toNat) := by
  refine ⟨⟨31, 0x81, stCore .biv { pend := List.replicate 8 {} }, ?_⟩, ⟨0, st .ctl, ?_⟩, by decide⟩ <;>
  (unfold OnCtl Usable; decide)

theorem witness_SpecialRegisterWrites :
    (∃ (r : Reg) (s : State), OnCtl s ∧ Usable s [r] ∧ s.curCore.pend = [] ∧ s.ctx = .biv) ∧
    (∃ (r : Reg) (s : State), OnCtl s ∧ Usable s [r] ∧ s.curCore.pend = [] ∧ s.ctx = .ctl) := by
  refine ⟨⟨31, st .biv, ?_⟩, ⟨0, st .ctl, ?_⟩⟩ <;> (unfold OnCtl Usable; decide)

theorem witness_IdentityAndTime :
    (∃ (d : Reg) (s : State), OnCtl s ∧ Usable s [d] ∧ s.ctx = .ctl ∧ s.curCore.logRecord = none) ∧
    (∃ (d : Reg) (s : State), OnCtl s ∧ Usable s [d] ∧ ¬ (s.ctx = .biv ∧ s.curCore.frame.cause = 0x10) ∧
      s.curCore.logRecord = some [1]) ∧
    (∃ (d : Reg) (s : State), OnCtl s ∧ Usable s [d] ∧ (s.ctx = .biv ∧ s.curCore.frame.cause = 0x10) ∧
      s.curCore.records.find? (fun r => r.1 == s.curCore.frame.record) = some (7, [1])) ∧
    ((5 : BitVec 17).toNat < 6 ∧ (7 : BitVec 17).toNat ≤ 7 ∧ 7 < (8 : BitVec 17).toNat) := by
  refine ⟨⟨4, st .ctl, ?_⟩, ⟨4, stCore .ctl { logRecord := some [1] }, ?_⟩,
    ⟨4, stCore .biv { frame := { cause := 0x10, record := 7 }, records := [(7, [1])] }, ?_⟩, by decide⟩ <;>
  (unfold OnCtl Usable; decide)

theorem witness_ContextTraps : ¬ OnCtl (st .ld) ∧ ¬ OnCtl (st .cmp) ∧ (st .ctl).ctx ≠ .biv ∧ (st .biv).ctx ≠ .ctl ∧ (st .st).ctx ≠ .cmp ∧
    (st .ctl).ctx ≠ .ld ∧ (st .ld).ctx ≠ .st ∧ (st .cmp).ctx = .cmp := by unfold OnCtl; decide
/-! ### Witnesses: vector and matrix instructions -/

/-- The compute sequencer of a core that has every vector and matrix register. -/
def cmp (k : Core := {}) : State := stCore .cmp k

theorem witness_VectorOperandSources :
    (∃ spec : VSpec, spec.bInt = some (-2147483648, 2147483647)) ∧
    (∃ k : Core, ∀ e ∈ (readCore k).cmp.loops, e.rot = false) ∧
    (∃ s : State, ∃ e ∈ (readCore s.curCore).cmp.loops, e.rot = true) ∧
    (∃ s : State, (readCore s.curCore).loadQ 3 = [⟨0, some [1, 2]⟩]) ∧
    (∃ s : State, (readCore s.curCore).cq = [5]) := by
  refine ⟨⟨{ bInt := some (-2147483648, 2147483647) }, rfl⟩, ⟨{}, by decide⟩,
    ⟨cmp { cmp := { loops := [{ rot := true }] } }, { rot := true }, by decide⟩,
    ⟨cmp { lq := [(3, [⟨0, some [1, 2]⟩])] }, by decide⟩, ⟨cmp { cq := [5] }, by decide⟩⟩

theorem witness_FloatVectorResults :
    VecReady { bFmt := (4 : BitVec 4).toNat } { d := 63, a := 63, b := 63, fmt := 4 } (cmp {}) ∧
    VecReady { bFmt := (0 : BitVec 4).toNat } { d := 68, a := 71, b := 70 } (cmp { sq := [(0, List.replicate 7 {})], cq := [1] }) ∧
    VecReady { b := .unused, bFmt := (1 : BitVec 4).toNat } { d := 71, a := 64, fmt := 1 }
      (cmp { lq := [(0, [⟨0, some [1, 2]⟩])] }) := by
  refine ⟨?_, ?_, ?_⟩ <;> constructor <;> decide

theorem witness_IntegerVectorResults :
    (intFmt 5 = true ∧ VecReady { dPair := pairFmt 5, aPair := pairFmt 5, bPair := pairFmt 5, bFmt := (5 : BitVec 4).toNat }
      { d := 8, a := 9, b := 164, fmt := 5 } (cmp {})) ∧
    (intFmt 8 = true ∧ VecReady { dPair := pairFmt 8, aPair := pairFmt 8, bPair := pairFmt 8, bFmt := (8 : BitVec 4).toNat }
      { d := 62, a := 8, b := 10, fmt := 8 } (cmp {})) := by
  refine ⟨⟨by decide, ?_⟩, ⟨by decide, ?_⟩⟩ <;> constructor <;> decide

theorem witness_PredicateResults :
    VecReady { d := .pred, bFmt := (0 : BitVec 4).toNat } { d := 31, a := 8, b := 9 } (cmp {}) ∧
    VecReady { d := .pred, aPair := pairFmt 8, bPair := pairFmt 8, bFmt := (8 : BitVec 4).toNat } { d := 31, a := 8, b := 10, fmt := 8 } (cmp {}) ∧
    VecReady { d := .pred, a := .pred, b := .pred } { d := 0, a := 31, b := 31 } (cmp {}) ∧
    VecReady { d := .pred, a := .pred, b := .unused } { d := 1, a := 31 } (cmp {}) ∧
    VecReady { d := .pred, a := .unused, b := .scalar, bInt := some (intRange 6) } { d := 1, b := 164 } (cmp {}) ∧
    ((cmp { zq := List.replicate 7 {} }).ctx = .cmp ∧ (31 : BitVec 7).toNat ≤ 31 ∧
      (readCore (cmp { zq := List.replicate 7 {} }).curCore).zq.length < 8) ∧
    8 ≤ (readCore (cmp { zq := List.replicate 8 {} }).curCore).zq.length := by
  refine ⟨?_, ?_, ?_, ?_, ?_, by decide, by decide⟩ <;> constructor <;> decide

theorem witness_VectorMoveResults :
    VecReady { a := .unused, dPair := pairFmt 7, bPair := pairFmt 7, bFmt := (7 : BitVec 4).toNat } { d := 62, b := 62, fmt := 7 } (cmp {}) ∧
    VecReady { dPair := pairFmt 5, aPair := pairFmt 5, bPair := pairFmt 5, bFmt := (5 : BitVec 4).toNat } { d := 1, a := 2, b := 3, fmt := 5 } (cmp {}) ∧
    VecReady { bInt := some (intRange 6) } { d := 1, a := 2, b := 164 } (cmp {}) ∧
    VecReady { a := .unused, bFmt := (6 : BitVec 4).toNat } { d := 1, b := 71, fmt := 6 } (cmp {}) ∧
    VecReady {} { d := 69, a := 2, b := 3 } (cmp {}) ∧
    VecReady { bInt := some (intRange 5) } { d := 1, a := 2, b := 143 } (cmp {}) := by
  refine ⟨?_, ?_, ?_, ?_, ?_, ?_⟩ <;> constructor <;> decide

theorem witness_VectorMatrixResults :
    VecReady { a := .mat, bInt := some (intRange 6) } { d := 1, a := 15, b := 164 } (cmp {}) ∧
    VecReady { d := .mat, bInt := some (intRange 6) } { d := 15, a := 1, b := 128, mod := 2 } (cmp {}) ∧
    VecReady { b := .unused } { d := 1, a := 1, fmt := 5 } (cmp {}) := by
  refine ⟨?_, ?_, ?_⟩ <;> constructor <;> decide

theorem witness_ConversionResults :
    (VecReady { b := .unused, dPair := pairFmt 0, aPair := pairFmt ((5 : BitVec 8).extractLsb' 0 4) } { d := 1, a := 2, b := 5 } (cmp {}) ∧
      ({ d := 1, a := 2, b := 5 } : VF).mod ≠ 3) ∧
    (VecReady { b := .unused, dPair := pairFmt 1, aPair := pairFmt ((0 : BitVec 8).extractLsb' 0 4) } { d := 1, a := 2, b := 0, fmt := 1, mod := 3 } (cmp {}) ∧
      ({ d := 1, a := 2, b := 0, fmt := 1, mod := 3 } : VF).mod = 3) ∧
    VecReady { b := .unused } { d := 1, a := 2, fmt := 11 } (cmp {}) ∧
    VecReady { a := .regQ, b := .unused } { d := 1, a := 67, b := 11 } (cmp { lq := [(3, [⟨0, some []⟩])] }) ∧
    VecReady { d := .unused, a := .unused, bInt := some (intRange 6) } { b := 1 } (cmp {}) := by
  refine ⟨⟨?_, by decide⟩, ⟨?_, by decide⟩, ?_, ?_, ?_⟩ <;> constructor <;> decide

theorem witness_ResultsLand :
    (∃ lane : Nat × Lane, lane.1 = 63) ∧
    (∃ s : State, (s.coreAt 0).flight = [{ drain := true }] ∧ (s.coreAt 0).cmp.run ≠ .running) ∧
    (∃ s : State, (s.coreAt 0).flight = [{ drain := true, slot := some 1 }] ∧ (s.coreAt 0).cmp.exposed = false) ∧
    (∃ (s : State) (l : Landing), (s.coreAt 0).flight = [l] ∧ l.drain = true ∧ l.checked = true ∧ l.fails = 0 ∧ s.rungs = []) ∧
    (∃ (s : State) (l : Landing), (s.coreAt 0).flight = [l] ∧ l.drain = true ∧ l.checked = false) := by
  refine ⟨⟨(63, 0), rfl⟩, ⟨cmp { flight := [{ drain := true }] }, ?_⟩,
    ⟨cmp { flight := [{ drain := true, slot := some 1 }], cmp := { run := .running } }, ?_⟩,
    ⟨cmp { flight := [{ drain := true, checked := true }] }, { drain := true, checked := true }, ?_⟩,
    ⟨cmp { flight := [{ drain := true }] }, { drain := true }, ?_⟩⟩ <;> decide

/-- Widest groups: four registers by four. -/
def wide : XF := { c := 4, cg := 2, a := 12, ag := 2, m := 63, k := 255, n := 255 }

theorem witness_MatrixMultiplyResults :
    ∃ (f : XF) (s : State), s.ctx = .cmp ∧ s.curCore.fenced = false ∧ (readCore s.curCore).zq.length ≤ 8 ∧
      f.c.toNat % 2 ^ f.cg.toNat = 0 ∧ f.c.toNat + 2 ^ f.cg.toNat ≤ min (s.teamOf s.core).malloc 16 ∧
      f.a.toNat % 2 ^ f.ag.toNat = 0 ∧ f.a.toNat + 2 ^ f.ag.toNat ≤ min (s.teamOf s.core).malloc 16 ∧
      (f.a.toNat + 2 ^ f.ag.toNat ≤ f.c.toNat ∨ f.c.toNat + 2 ^ f.cg.toNat ≤ f.a.toNat) ∧
      f.k.toNat + 1 ≤ 64 * 2 ^ f.ag.toNat ∧ f.n.toNat + 1 ≤ 64 * 2 ^ f.cg.toNat ∧
      (readCore s.curCore).occEnd = (readCore s.curCore).slot ∧
      (readCore (cmp { occEnd := 1 }).curCore).slot < (readCore (cmp { occEnd := 1 }).curCore).occEnd := by
  exact ⟨wide, cmp { zq := List.replicate 8 {} }, by decide⟩

theorem witness_MatrixGroupResults :
    ∃ s : State, s.ctx = .cmp ∧ s.curCore.fenced = false ∧ (readCore s.curCore).zq.length + 2 ^ wide.cg.toNat ≤ 8 ∧
      wide.c.toNat % 2 ^ wide.cg.toNat = 0 ∧ wide.c.toNat + 2 ^ wide.cg.toNat ≤ min (s.teamOf s.core).malloc 16 ∧
      wide.a.toNat % 2 ^ wide.cg.toNat = 0 ∧ wide.a.toNat + 2 ^ wide.cg.toNat ≤ min (s.teamOf s.core).malloc 16 ∧ wide.ag = wide.cg ∧
      wide.c.toNat + 2 ^ wide.cg.toNat ≤ wide.a.toNat ∧ wide.n.toNat + 1 ≤ 64 * 2 ^ wide.cg.toNat ∧
      ({ wide with k := 62 } : XF).k.toNat % 64 % 2 = 0 ∧ ({ wide with k := 62 } : XF).k.toNat % 64 + 1 ≤ 8 * (s.teamOf s.core).valloc + 7 ∧
      (readCore s.curCore).zq.length + 1 ≤ 8 ∧ (wide.tr = true → wide.cg = 0) ∧ (readCore s.curCore).occEnd = (readCore s.curCore).slot ∧
      (readCore (cmp { occEnd := 1 }).curCore).slot < (readCore (cmp { occEnd := 1 }).curCore).occEnd ∧
      8 ≤ (readCore (cmp { zq := List.replicate 8 {} }).curCore).zq.length := by
  exact ⟨cmp { zq := List.replicate 4 {} }, by decide⟩

/-- What `witness_VectorAndMatrixTraps` says of one form of `VADD`, in the order of the checks. -/
def vecForm (d a : BitVec 7) (b : BitVec 8) (s : State) : List Bool :=
  let top := 8 * (s.teamOf s.core).valloc + 7
  let out (n : Nat) : Bool := decide (n ≤ 63 ∧ top < physReg s.cur n)
  [decide (d.toNat ≠ 68 ∧ d.toNat ≠ 69 ∧ d.toNat ≠ 71 ∧ 63 < d.toNat), decide (a.toNat = 68 ∨ a.toNat = 69 ∨ 71 < a.toNat),
   decide (b.toNat = 68 ∨ b.toNat = 69 ∨ (71 < b.toNat ∧ b.toNat < 128) ∨ 207 < b.toNat), out d.toNat, out a.toNat, out b.toNat]

/-- The same core with eight registers allocated. -/
def few : State := { cmp {} with teams := [(1, { bytes := List.replicate 128 0, cores := [0] })] }

theorem witness_VectorAndMatrixTraps :
    vecForm 64 0 0 (cmp {}) = [true, false, false, false, false, false] ∧ vecForm 63 72 208 (cmp {}) = [false, true, true, false, false, false] ∧
    vecForm 71 71 208 (cmp {}) = [false, false, true, false, false, false] ∧ vecForm 8 8 8 few = [false, false, false, true, true, true] ∧
    vecForm 7 8 8 few = [false, false, false, false, true, true] ∧ vecForm 7 7 8 few = [false, false, false, false, false, true] ∧
    vecForm 7 64 207 few = [false, false, false, false, false, false] ∧
    (5 ≤ (6 : BitVec 4).toNat ∧ 165 ≤ (165 : BitVec 8).toNat ∧ (165 : BitVec 8).toNat < 192) ∧
    (vecConst { bFmt := 0 } { d := 7, a := 70, b := 70 } = false ∧ few.curCore.cq = [] ∧ few.curCore.loadQ (67 - 64) = []) ∧
    ((readCore (cmp { sq := [(1, List.replicate 8 {})] }).curCore).storeQ 1).length = 8 ∧
    (∃ (f : XF) (s : State), f.c.toNat % 2 ^ f.cg.toNat = 0 ∧ f.c.toNat + 2 ^ f.cg.toNat ≤ min (s.teamOf s.core).malloc 16 ∧
      (readCore s.curCore).zq.length = 8) ∧
    (∃ s : State, s.ctx = .cmp ∧ s.curCore.fenced = true) ∧
    (∃ (f : XF) (s : State), s.curCore.fenced = false ∧ f.a.toNat < f.c.toNat + 2 ^ f.cg.toNat ∧ f.c.toNat < f.a.toNat + 2 ^ f.ag.toNat) ∧
    (∃ f : XF, f.a.toNat + 2 ^ f.ag.toNat ≤ f.c.toNat ∧ 64 * 2 ^ f.ag.toNat < f.k.toNat + 1) ∧
    (∃ f : XF, f.a.toNat + 2 ^ f.ag.toNat ≤ f.c.toNat ∧ f.c.toNat % 2 ^ f.cg.toNat ≠ 0 ∧ f.a.toNat % 2 ^ f.ag.toNat = 0) ∧
    (∃ (f : XF) (s : State), f.c.toNat + 2 ^ f.cg.toNat ≤ f.a.toNat ∧ f.a.toNat % 2 ^ f.ag.toNat ≠ 0 ∧ f.c.toNat % 2 ^ f.cg.toNat = 0 ∧
      f.c.toNat + 2 ^ f.cg.toNat ≤ min (s.teamOf s.core).malloc 16) ∧
    (∃ (f : XF) (s : State), f.c.toNat % 2 ^ f.cg.toNat = 0 ∧ f.c.toNat + 2 ^ f.cg.toNat ≤ min (s.teamOf s.core).malloc 16 ∧
      f.a.toNat % 2 ^ f.ag.toNat = 0 ∧ f.c.toNat + 2 ^ f.cg.toNat ≤ f.a.toNat ∧
      min (s.teamOf s.core).malloc 16 < f.a.toNat + 2 ^ f.ag.toNat) := by
  refine ⟨by decide, by decide, by decide, by decide, by decide, by decide, by decide, by decide, by decide, by decide,
    ⟨wide, cmp { zq := List.replicate 8 {} }, by decide⟩,
    ⟨cmp { fenced := true }, by decide⟩, ⟨{}, cmp {}, by decide⟩, ⟨{ c := 1, k := 64 }, by decide⟩, ⟨{ c := 1, cg := 1 }, by decide⟩,
    ⟨{ a := 1, ag := 1 }, cmp {}, by decide⟩,
    ⟨{ a := 2, ag := 1 }, { cmp {} with teams := [(1, { bytes := List.replicate 55 0 ++ [2], cores := [0] })] }, by decide⟩⟩

/-! ### Witnesses: ordering operations at issue -/

/-- A context with 32 operations outstanding in stream 0, its registers as listed. -/
def full (x : CtxId) (g : Tab Word := []) : State := stCtx x { run := .running, ops := List.replicate 32 {}, g := g }

/-- A context of a machine with the page of `tables`. -/
def onPage (x : CtxId) (g : Tab Word := []) (k : Core := {}) : State :=
  { stCore x (k.setCtx x { run := .running, g := g }) with mem := tables }

/-- The one byte of a window's end that an access of 32 bytes reaches last. -/
theorem window_edge (s : State) : InWindow s 0x17FFE0 32 := .inl (by decide)

theorem witness_QueueTransfers :
    (∃ (f : LF) (s : State), Usable s [f.y, f.z.extractLsb' 5 5] ∧ s.ctx = .ld ∧ f.x.toNat ≤ 3 ∧ StreamRoom s f ∧ (s.curCore.loadQ f.x.toNat).length < 8 ∧
      (∀ o ∈ s.cur.ops, o.code = 0x15 → o.st = .done) ∧
      (∀ j, j < 8 → ((0 : Word) + 32 * BitVec.ofNat 64 j).toNat % 32 = 0 ∧ InWindow s ((0 : Word) + 32 * BitVec.ofNat 64 j).toNat 32) ∧
      s.G f.y + f.z.signExtend 64 * 256 = 0 ∧ s.G (f.z.extractLsb' 5 5) = 0 ∧ InWindow s 0 24 ∧ InWindow s 0 16) ∧
    (∃ (f : LF) (s : State), Usable s [f.y, f.z.extractLsb' 5 5] ∧ s.ctx = .ld ∧ f.x.toNat ≤ 3 ∧ StreamRoom s f ∧ (s.curCore.loadQ f.x.toNat).length < 8 ∧
      (∀ o ∈ s.cur.ops, o.code = 0x15 → o.st = .done) ∧ (s.G f.y).toNat = 2 ^ 64 - 16 ∧ (s.G (f.z.extractLsb' 5 5)).toNat = 128 ∧
      InWindow s ((2 ^ 64 - 16 + 3 * 128 / 8) % 2 ^ 64) ((3 * 128 + 191) / 8 - 3 * 128 / 8 + 1)) ∧
    (∃ (f : LF) (s : State), Usable s [f.y] ∧ s.ctx = .ld ∧ f.x.toNat ≤ 3 ∧ ¬ StreamRoom s f) ∧
    (∃ (f : LF) (s : State), Usable s [f.y] ∧ s.ctx = .ld ∧ f.x.toNat = 3 ∧ 8 ≤ (s.curCore.loadQ f.x.toNat).length) ∧
    (∃ (f : LF) (s : State), Usable s [f.y, f.z.extractLsb' 5 5] ∧ s.ctx = .st ∧ f.x.toNat ≤ 1 ∧ StreamRoom s f ∧
      s.curCore.storeQ f.x.toNat = [⟨5, some [1]⟩]) ∧
    (∃ (f : LF) (s : State), Usable s [f.y] ∧ s.ctx = .st ∧ f.x.toNat = 1 ∧ s.curCore.storeQ f.x.toNat = []) ∧
    (∃ (f : LF) (s : State), Usable s [f.y] ∧ s.ctx = .st ∧ f.x.toNat = 1 ∧ s.curCore.storeQ f.x.toNat = [⟨5, none⟩]) ∧
    (∃ (b d : Word) (s : State), ¬ ((b + d * BitVec.ofNat 64 0).toNat % 32 = 0 ∧ InWindow s (b + d * BitVec.ofNat 64 0).toNat 32)) ∧
    (∃ (f : LF) (s : State), s.ctx = .ld ∧ f.x.toNat = 4) ∧ (∃ (f : LF) (s : State), s.ctx = .st ∧ f.x.toNat = 2) := by
  refine ⟨⟨{}, st .ld, ?_⟩,
    ⟨{ y := 1, z := 0x40 }, st .ld [(1, BitVec.ofInt 64 (-16)), (2, 128)], ?_⟩, ⟨{}, full .ld, ?_⟩, ⟨{ x := 3 }, stCore .ld { lq := [(3, List.replicate 8 {})] }, ?_⟩,
    ⟨{ x := 1 }, stCore .st { sq := [(1, [⟨5, some [1]⟩])] }, ?_⟩, ⟨{ x := 1 }, st .st, ?_⟩,
    ⟨{ x := 1 }, stCore .st { sq := [(1, [⟨5, none⟩])] }, ?_⟩, ⟨1, 0, st .ld, by unfold InWindow; decide⟩, ⟨{ x := 4 }, st .ld, by decide⟩,
    ⟨{ x := 2 }, st .st, by decide⟩⟩
  · refine ⟨by unfold Usable; decide, by decide, by decide, by unfold StreamRoom; decide, by decide, by decide, ?_, by decide, by decide,
      .inl (by decide), .inl (by decide)⟩
    unfold InWindow; decide
  · unfold Usable StreamRoom InWindow; decide
  · unfold Usable StreamRoom; decide
  · unfold Usable; decide
  · unfold Usable StreamRoom; decide
  · unfold Usable; decide
  · unfold Usable; decide

theorem witness_ScratchpadIssues :
    (∃ (f : LF) (s : State), s.ctx = .ld ∧ Usable s [f.x, f.y] ∧ InWindow s (s.G f.y + f.z.signExtend 64 * 8).toNat 8 ∧ StreamRoom s f) ∧
    (∃ (f : LF) (s : State), s.ctx = .st ∧ Usable s [f.x, f.y] ∧ InWindow s (s.G f.y + f.z.signExtend 64 * 1).toNat 1 ∧ ¬ StreamRoom s f) ∧
    (∃ (f : LF) (s : State), s.ctx = .st ∧ Usable s [f.x, f.y] ∧ ¬ InWindow s (s.G f.y + f.z.signExtend 64 * 2).toNat 2) ∧
    (∃ (f : LF) (s : State), s.ctx = .ld ∧ Usable s [f.y, f.z.extractLsb' 4 5] ∧ StreamRoom s f ∧ PastBody s s.pc ∧
      (let d := (f.x.extractLsb' 1 4).toNat
       let g := 2 ^ (f.z.extractLsb' 2 2).toNat
       d % g = 0 ∧ d + g = 16 ∧ d + g ≤ (s.teamOf s.core).malloc)) ∧
    (∃ (f : LF) (s : State), s.ctx = .st ∧ Usable s [f.y, f.z.extractLsb' 4 5] ∧ StreamRoom s f ∧ PastBody s s.pc ∧
      (f.x.extractLsb' 1 4).toNat % 2 ^ (f.z.extractLsb' 2 2).toNat ≠ 0) := by
  refine ⟨⟨{ y := 1 }, st .ld [(1, 0x10000000)], ?_⟩, ⟨{}, full .st, ?_⟩, ⟨{ y := 1 }, st .st [(1, 0x17FFFF)], ?_⟩,
    ⟨{ x := 24, z := 8 }, st .ld, ?_⟩, ⟨{ x := 2, z := 4 }, st .st, ?_⟩⟩
  · refine ⟨by decide, by unfold Usable; decide, .inr ⟨0, by decide⟩, by unfold StreamRoom; decide⟩
  · refine ⟨by decide, by unfold Usable; decide, .inl (by decide), by unfold StreamRoom; decide⟩
  · unfold Usable InWindow; decide
  · refine ⟨by decide, by unfold Usable; decide, by unfold StreamRoom; decide, (fun e r h => absurd h (by simp [stCore, stCtx, st, State.cur, State.ctxAt, State.coreAt, Tab.get, Core.ctxOf, Core.setCtx])), by decide⟩
  · refine ⟨by decide, by unfold Usable; decide, by unfold StreamRoom; decide, (fun e r h => absurd h (by simp [stCore, stCtx, st, State.cur, State.ctxAt, State.coreAt, Tab.get, Core.ctxOf, Core.setCtx])), by decide⟩

theorem witness_TokenAndBarrierIssues :
    (∃ (f : LF) (s : State), StreamRoom s f ∧ f.x.toNat = 7 ∧ f.z.extractLsb' 0 6 ≠ 0 ∧ f.z.extractLsb' 1 6 ≠ 0 ∧ Usable s [f.x, f.y] ∧
      s.ctx = .cmp) ∧
    (∃ (f : LF) (s : State), StreamRoom s f ∧ OnCtl s ∧ s.ctx ≠ .cmp ∧ Usable s [f.y] ∧ f.x.toNat = 3 ∧ (s.G f.y).toNat = 65535) ∧
    (∃ (f : LF) (s : State), ¬ StreamRoom s f ∧ f.x.toNat = 7 ∧ f.z.extractLsb' 0 6 ≠ 0) ∧
    (∃ f : LF, f.x.toNat = 8) ∧ (∃ f : LF, f.x.toNat = 7 ∧ f.z.extractLsb' 0 6 = 0) ∧
    (∃ (f : LF) (s : State), OnCtl s ∧ f.x.toNat = 4) ∧
    (∃ (f : LF) (s : State), OnCtl s ∧ Usable s [f.y] ∧ f.x.toNat = 3 ∧ s.G f.y = 0) ∧
    (∃ (f : LF) (s : State), OnCtl s ∧ Usable s [f.y] ∧ f.x.toNat = 3 ∧ (s.G f.y).toNat = 65536) := by
  refine ⟨⟨{ x := 7, z := 3 }, st .cmp, ?_⟩, ⟨{ x := 3, y := 1 }, st .biv [(1, 65535)], ?_⟩, ⟨{ x := 7, z := 1 }, full .ctl, ?_⟩,
    ⟨{ x := 8 }, by decide⟩, ⟨{ x := 7 }, by decide⟩, ⟨{ x := 4 }, st .ctl, ?_⟩, ⟨{ x := 3 }, st .ctl, ?_⟩,
    ⟨{ x := 3, y := 1 }, st .ctl [(1, 65536)], ?_⟩⟩ <;>
  ((try unfold StreamRoom); (try unfold OnCtl); (try unfold Usable); decide)

theorem witness_AtomicIssues :
    (∃ (f : LF) (s : State), s.ctx ≠ .cmp ∧ Usable s [f.x, f.y, f.z.extractLsb' 3 5] ∧ f.z.getLsbD 9 = true ∧
      InWindow s (s.G f.y).toNat 8 ∧ (s.G f.y).toNat % 8 = 0 ∧ f.z.getLsbD 8 = true ∧ StreamRoom s f) ∧
    (∃ (f : LF) (s : State), s.ctx ≠ .cmp ∧ Usable s [f.x, f.y, f.z.extractLsb' 3 5] ∧ f.z.getLsbD 9 = true ∧ ¬ InWindow s (s.G f.y).toNat 4) ∧
    (∃ (f : LF) (s : State), s.ctx ≠ .cmp ∧ Usable s [f.x, f.y, f.z.extractLsb' 3 5] ∧ f.z.getLsbD 9 = true ∧ InWindow s (s.G f.y).toNat 4 ∧
      (s.G f.y).toNat % 4 ≠ 0) ∧
    (∃ (f : LF) (s : State), s.ctx ≠ .cmp ∧ Usable s [f.x, f.y, f.z.extractLsb' 3 5] ∧ f.z.getLsbD 9 = false ∧ StreamRoom s f ∧
      PastBody s s.pc) ∧
    (∃ (f : LF) (s : State), s.ctx ≠ .cmp ∧ Usable s [f.x, f.y, f.z.extractLsb' 3 5] ∧ f.z.getLsbD 9 = false ∧ ¬ StreamRoom s f) := by
  refine ⟨⟨{ y := 1, z := 0x300 }, st .st [(1, 0x17FFF8)], ?_⟩, ⟨{ y := 1, z := 0x200 }, st .ctl [(1, 0x180000)], ?_⟩,
    ⟨{ y := 1, z := 0x200 }, st .ld [(1, 2)], ?_⟩, ⟨{ y := 1 }, onPage .ld [(1, 8)], ?_⟩, ⟨{ y := 1 }, full .ld, ?_⟩⟩
  · refine ⟨by decide, by unfold Usable; decide, by decide, .inl (by decide), by decide, by decide, by unfold StreamRoom; decide⟩
  · unfold Usable InWindow; decide
  · refine ⟨by decide, by unfold Usable; decide, by decide, .inl (by decide), by decide⟩
  · refine ⟨by decide, by unfold Usable; decide, by decide, by unfold StreamRoom; decide, fun e r h => absurd h (by simp [onPage, stCore, State.cur, State.ctxAt, State.coreAt, Tab.get, Core.ctxOf, Core.setCtx])⟩
  · unfold Usable StreamRoom; decide

theorem witness_SynchronisationIssues :
    (∃ (f : LF) (s : State), OnCtl s ∧ StreamRoom s f ∧ Usable s [f.x, f.y, f.z.extractLsb' 5 5] ∧
      (s.G f.y).extractLsb' 0 16 ≠ 0 ∧ f.z.getLsbD 1 = false ∧ (s.G f.x).toNat = 65535 ∧ (f.z.extractLsb' 0 5).toNat < 20 ∧
      (s.G (f.z.extractLsb' 5 5)).toNat = 63 ∧
      (s.checkPlane (s.teamOf s.core).vf (s.G f.y) = none →
        (s.planeDesc (s.teamOf s.core).vf (s.G f.y)).byteOf ((s.G f.y).extractLsb' 0 48).toNat % 8 = 0)) ∧
    (∃ (f : LF) (s : State), OnCtl s ∧ Usable s [f.x, f.y, f.z.extractLsb' 5 5] ∧ (s.G f.y).extractLsb' 0 16 ≠ 0 ∧ f.z.getLsbD 1 = true ∧
      (s.G f.x).toNat = 2047) ∧
    (∃ (f : LF) (s : State), OnCtl s ∧ Usable s [f.x, f.y, f.z.extractLsb' 5 5] ∧ (s.G f.y).extractLsb' 0 16 = 0 ∧ f.z.getLsbD 1 = true ∧
      (s.G f.x).toNat = 2048) ∧
    (∃ (f : LF) (s : State), OnCtl s ∧ Usable s [f.x, f.y, f.z.extractLsb' 5 5] ∧ s.G f.x = 0 ∧ (f.z.extractLsb' 0 5).toNat = 20 ∧
      (s.G (f.z.extractLsb' 5 5)).toNat = 2 ^ 35 ∧ (s.G f.y).extractLsb' 0 16 = 0 ∧ f.z.getLsbD 1 = false) ∧
    (∃ (f : LF) (s : State), OnCtl s ∧ Usable s [f.x, f.y, f.z.extractLsb' 5 5] ∧
      s.checkPlane (s.teamOf s.core).vf (s.G f.y) = none ∧
      (s.planeDesc (s.teamOf s.core).vf (s.G f.y)).byteOf ((s.G f.y).extractLsb' 0 48).toNat % 8 ≠ 0 ∧
      (s.G (f.z.extractLsb' 5 5)).toNat < 2 ^ 35) ∧
    (∃ (f : LF) (s : State), OnCtl s ∧ StreamRoom s f ∧ Usable s [f.x, f.y, f.z.extractLsb' 5 5] ∧
      (s.checkPlane (s.teamOf s.core).vf (s.G f.y) = none →
        (s.planeDesc (s.teamOf s.core).vf (s.G f.y)).byteOf ((s.G f.y).extractLsb' 0 48).toNat % 8 = 0) ∧
      s.checkPlane (s.teamOf s.core).vf (s.G (f.z.extractLsb' 5 5)) = none ∧
      (s.planeDesc (s.teamOf s.core).vf (s.G (f.z.extractLsb' 5 5))).byteOf ((s.G (f.z.extractLsb' 5 5)).extractLsb' 0 48).toNat % 8 ≠ 0) := by
  refine ⟨⟨{ x := 1, y := 2, z := 0x60 }, onPage .biv [(1, 65535), (2, 8), (3, 63)], ?_⟩,
    ⟨{ x := 1, y := 2, z := 2 }, onPage .ctl [(1, 2047), (2, 8)], ?_⟩, ⟨{ x := 1, y := 2, z := 2 }, onPage .ctl [(1, 2048)], ?_⟩,
    ⟨{ x := 1, y := 2, z := 0x74 }, onPage .ctl [(3, 0x800000000)], ?_⟩, ⟨{ y := 2 }, onPage .ctl [(2, 4)], ?_⟩,
    ⟨{ y := 2, z := 0x60 }, onPage .ctl [(2, 8), (3, 4)], ?_⟩⟩ <;>
  ((try unfold StreamRoom); unfold OnCtl Usable; decide +kernel)

theorem witness_EngineAndPlaneIssues :
    (∃ (f : LF) (s : State), Usable s [f.x, f.y] ∧ StreamRoom s f ∧ f.x.toNat = 11 ∧ OnCtl s ∧ s.ctx ≠ .cmp ∧ (s.G f.y).toNat = 256) ∧
    (∃ (f : LF) (s : State), Usable s [f.x, f.y] ∧ OnCtl s ∧ (f.x.toNat = 12 ∨ f.x.toNat = 31)) ∧
    (∃ (f : LF) (s : State), Usable s [f.x, f.y] ∧ StreamRoom s f ∧ OnCtl s ∧ (s.G f.x).toNat = 255) ∧
    (∃ (f : LF) (s : State), Usable s [f.x, f.y] ∧ StreamRoom s f ∧ OnCtl s ∧ s.descValid (s.teamOf s.core).vf (s.G f.y) = true ∧
      s.planeOn (s.teamOf s.core).vf (s.G f.y) = true ∧ (s.G f.x).toNat = 0x409) ∧
    (∃ (f : LF) (s : State), Usable s [f.y] ∧ s.ctx ≠ .cmp ∧
      ∀ c e, s.place (s.teamOf s.core).vf (s.G f.y + f.z.signExtend 64 * 64) .read ≠ .fault c e) ∧
    (∃ (f : LF) (s : State), Usable s [f.y] ∧ s.ctx ≠ .cmp ∧ s.cur.hintDrop ≠ BitVec.allOnes 64 ∧
      ∃ c e, s.place (s.teamOf s.core).vf (s.G f.y + f.z.signExtend 64 * 64) .read = .fault c e) ∧
    (∃ (f : LF) (s : State), Usable s [f.x, f.y] ∧ s.ctx ≠ .cmp ∧ 0 < s.curCore.probeLimit ∧ (s.curCore.slotAt 0).valid = true ∧
      (s.curCore.slotAt 0).fill = false ∧ (s.curCore.slotAt 0).tag = probeTag s (s.G f.y)) ∧
    (∃ (f : LF) (s : State), Usable s [f.x, f.y] ∧ OnCtl s ∧
      ¬ (s.descValid (s.teamOf s.core).vf (s.G f.y) = true ∧ s.planeOn (s.teamOf s.core).vf (s.G f.y) = true)) := by
  refine ⟨⟨{ x := 11, y := 1 }, onPage .ctl [(1, 256)], ?_⟩, ⟨{ x := 12 }, onPage .ctl, ?_⟩, ⟨{ x := 1 }, onPage .biv [(1, 255)], ?_⟩,
    ⟨{ x := 1, y := 2 }, onPage .ctl [(1, 0x409), (2, 8)], ?_⟩, ⟨{ y := 1 }, onPage .ld [(1, 8)], ?_⟩, ⟨{}, st .st, ?_⟩,
    ⟨{ y := 1 }, onPage .ld [(1, 8)] { probe := [(0, { valid := true, tag := probeTag (onPage .ld [(1, 8)]) 8 })], probeP := 32 }, ?_⟩,
    ⟨{}, st .ctl, ?_⟩⟩
  · unfold Usable StreamRoom OnCtl; decide +kernel
  · unfold Usable OnCtl; decide +kernel
  · unfold Usable StreamRoom OnCtl; decide +kernel
  · unfold Usable StreamRoom OnCtl; decide +kernel
  · refine ⟨by unfold Usable; decide, by decide, fun c e h => ?_⟩
    have k : (onPage .ld [(1, 8)]).place 0 8 .read = .frame 0x6000 12 (3 * 2 ^ 60 + 0x180) := by decide +kernel
    cases k.symm.trans h
  · exact ⟨by unfold Usable; decide, by decide, by decide, _, _, rfl⟩
  · unfold Usable; decide +kernel
  · unfold Usable OnCtl; decide +kernel

/-! ### Witnesses: performance, tokens, events, engine commands -/

/-- Context `x` of core 0 with one listed operation, and an empty coherence log. -/
def waiting (x : CtxId) (o : Op) (k : Core := {}) : State :=
  stCore x (k.setCtx x { run := .running, ops := [o] })

/-- The same with the page of `tables` and the cells given. -/
def acting (x : CtxId) (o : Op) (cells : List Host.Cell := []) (k : Core := {}) : State := { waiting x o k with mem := tables ++ cells }

theorem waiting_may (x : CtxId) (o : Op) (k : Core) (h1 : o.st ≠ .done) (h2 : o.eng.fault = none) (h3 : o.id = 0) :
    MayPerform (waiting x o k) 0 x o := by
  refine ⟨?_, h1, h2, fun y _ hlt => absurd hlt (by omega)⟩
  cases x <;> simp [State.opAt, waiting, stCore, State.ctxAt, State.coreAt, Tab.get, Core.ctxOf, Core.setCtx]

theorem acting_may (x : CtxId) (o : Op) (cells : List Host.Cell) (k : Core) (h1 : o.st ≠ .done) (h2 : o.eng.fault = none) (h3 : o.id = 0) :
    MayPerform (acting x o cells k) 0 x o := by
  refine ⟨?_, h1, h2, fun y _ hlt => absurd hlt (by omega)⟩
  cases x <;> simp [State.opAt, acting, waiting, stCore, State.ctxAt, State.coreAt, Tab.get, Core.ctxOf, Core.setCtx]

theorem witness_ReadsTakeAWrite :
    (∃ s : State, LogOk s ∧ s.log ≠ [] ∧ 4 < s.nextSeq ∧
      ∀ a ∈ [8, 15], a / 8 = 1 ∧ (s.imageIn 0 2 a).1 ≤ 4 ∧ (s.ctxAt 0 .ld).seen.get 0 a ≤ 4) ∧
    (rowOf 3 = rowOf (3 + 8 - 1) ∧ 3 / 8 ≠ (3 + 8 - 1) / 8) := by
  refine ⟨⟨{ log := [⟨1, [(8, 1), (9, 0)], 0, 0⟩, ⟨4, [(15, 1)], 9, 1⟩], nextSeq := 5 }, ⟨by decide, by decide⟩, by decide, by decide, by decide⟩, by decide⟩

theorem witness_ScalarAccessesPerform :
    (∃ (o : Op) (s : State), MayPerform s 0 .ld o ∧ o.got = [] ∧ o.dst = some 0 ∧ s.scratch 0 o.y.toNat 8 = some (scratchLoc 0 0x17FFF8) ∧
      o.code = 0x03) ∧
    (∃ (o : Op) (s : State), LogOk s ∧ MayPerform s 0 .st o ∧ o.left = [] ∧ o.dst = none ∧ s.scratch 0 o.y.toNat 2 = some (scratchLoc 0 3) ∧
      o.code = 0x09) := by
  exact ⟨⟨{ code := 3, y := 0x17FFF8, dst := some 0 }, waiting .ld _, waiting_may _ _ _ (by decide) rfl rfl, by decide⟩,
    ⟨{ code := 9, y := 0x10000003 }, waiting .st _, logOk_empty rfl, waiting_may _ _ _ (by decide) rfl rfl, by decide⟩⟩

/-- The bytes of a shape record at scratchpad address 0: elements at 0x100, of 32-bit floating point, so many rows and columns, a row
64 elements on. -/
def shapeBytes (base rows cols : Nat) : List Byte :=
  leBytes 4 base ++ [0, 0] ++ leBytes 2 rows ++ leBytes 2 cols ++ [0, 0, 64, 0, 0, 0, 1, 0, 0, 0] ++ List.replicate 12 0

/-- An `LDM`, `STM` or `LDB` of register `m0`, its group as given, with a record in scratchpad at address 0. -/
def matrixOp (code : Nat) (z : BitVec 10) (st : OpSt) (data : List Byte) : Op := { code := code, f := { z := z }, st := st, data := data }

/-- The record that the check step of such an operation reads, in a scratchpad that holds some bytes from its start. -/
def recordRead (o : Op) (s : State) : Shape :=
  shapeOf ((s.readLocs 0 .ld (windowScope o.y (BitVec.ofNat 2 o.scope)) [] (span (scratchLoc 0 0) 32)).map (·.2))

/-- Every element of a shape lies in scratchpad, where its address says. -/
def elementsAt (s : State) (r : Shape) : Bool :=
  (List.range r.rows).all (fun i => (List.range r.cols).all (fun j =>
    decide (0 ≤ r.addr 0 i j ∧ s.scratch 0 (r.addr 0 i j).toNat r.bytes = some (scratchLoc 0 (r.addr 0 i j).toNat))))

theorem witness_ScalarAccessesPerform_rest :
    (∃ (o : Op) (s : State), LogOk s ∧ MayPerform s 0 .ld o ∧ o.got = [] ∧ o.dst = none ∧ o.code = 0x10 ∧
      ∀ j, j < 8 → s.scratch 0 (o.y + o.z * BitVec.ofNat 64 j).toNat 32 = some (scratchLoc 0 (32 * j))) ∧
    (∃ (o : Op) (s : State), LogOk s ∧ MayPerform s 0 .st o ∧ o.left = [] ∧ o.dst = none ∧ o.code = 0x13 ∧ o.data.length = 256 ∧
      ∀ j, j < 8 → s.scratch 0 (o.y + o.z * BitVec.ofNat 64 j).toNat 32 = some (scratchLoc 0 0)) ∧
    (∃ (o : Op) (s : State), LogOk s ∧ MayPerform s 0 .ld o ∧ o.dst = none ∧ o.code = 0x15 ∧ s.scratch 0 o.y.toNat 16 = some (scratchLoc 0 0x17FFF0)) ∧
    (∃ (o : Op) (s : State), LogOk s ∧ MayPerform s 0 .ld o ∧ o.dst = none ∧ o.code = 0x14 ∧
      s.scratch 0 (o.y.toNat + 3 * o.z.toNat / 8) ((3 * o.z.toNat + 191) / 8 - 3 * o.z.toNat / 8 + 1) = some (scratchLoc 0 2)) ∧
    -- the check step
    (∃ (o : Op) (s : State), MayPerform s 0 .ld o ∧ o.st = .issued ∧ o.away = [] ∧ o.code = 0x16 ∧ o.f.z.getLsbD 9 = true ∧ o.y.toNat % 8 = 0 ∧
      s.scratch 0 o.y.toNat 32 = some (scratchLoc 0 0) ∧ (recordRead o s).okFor o.code (matGroup o.f) = false) ∧
    (∃ (o : Op) (s : State), MayPerform s 0 .ld o ∧ o.st = .issued ∧ o.code = 0x16 ∧ o.f.z.getLsbD 9 = true ∧
      (recordRead o s).okFor o.code (matGroup o.f) = true ∧ Shape.outside s 0 (recordRead o s) o.x = some 0x180000) ∧
    (∃ (o : Op) (s : State), MayPerform s 0 .ld o ∧ o.st = .issued ∧ o.code = 0x16 ∧ o.f.z.getLsbD 9 = true ∧
      (recordRead o s).okFor o.code (matGroup o.f) = true ∧ Shape.outside s 0 (recordRead o s) o.x = none) ∧
    -- the performance after it
    (∃ (o : Op) (s : State), LogOk s ∧ MayPerform s 0 .ld o ∧ o.st = .started ∧ o.dst = none ∧ o.code = 0x16 ∧ (shapeOf o.data).rows = 2 ∧
      (shapeOf o.data).cols ≤ 64 * matGroup o.f ∧ elementsAt s (shapeOf o.data) = true) ∧
    (∃ (o : Op) (s : State), LogOk s ∧ MayPerform s 0 .ld o ∧ o.st = .started ∧ o.code = 0x18 ∧ (∀ e ∈ (s.coreAt 0).flight, e.slot ≠ some (ldbSlot o.f)) ∧
      (shapeOf o.data).rows ≤ 256 ∧ (shapeOf o.data).cols ≤ 256 ∧ elementsAt s (shapeOf o.data) = true) ∧
    (∃ (o : Op) (s : State), LogOk s ∧ MayPerform s 0 .ld o ∧ o.st = .started ∧ o.code = 0x18 ∧ (∃ e ∈ (s.coreAt 0).flight, e.slot = some (ldbSlot o.f)) ∧
      elementsAt s (shapeOf o.data) = true) ∧
    (∃ (o : Op) (s : State), LogOk s ∧ MayPerform s 0 .st o ∧ o.st = .started ∧ o.dst = none ∧ o.code = 0x17 ∧ o.f.z.getLsbD 1 = true ∧
      ((s.coreAt 0).tstat.get 0 0).getLsbD 1 = true ∧ elementsAt s (shapeOf o.data) = true) := by
  refine ⟨⟨{ code := 0x10, z := 32 }, waiting .ld _, logOk_empty rfl, waiting_may _ _ _ (by decide) rfl rfl, by decide⟩,
    ⟨{ code := 0x13, data := List.replicate 256 1 }, waiting .st _, logOk_empty rfl, waiting_may _ _ _ (by decide) rfl rfl, by decide +kernel⟩,
    ⟨{ code := 0x15, y := 0x17FFF0 }, waiting .ld _, logOk_empty rfl, waiting_may _ _ _ (by decide) rfl rfl, by decide⟩,
    ⟨{ code := 0x14, z := 7 }, waiting .ld _, logOk_empty rfl, waiting_may _ _ _ (by decide) rfl rfl, by decide⟩,
    ⟨matrixOp 0x16 0x200 .issued [], acting .ld _, acting_may _ _ _ _ (by decide) rfl rfl, by decide +kernel⟩,
    ⟨matrixOp 0x16 0x200 .issued [], acting .ld _ (cellsFrom (scratchLoc 0 0) (shapeBytes 0x17FFFC 1 2)), acting_may _ _ _ _ (by decide) rfl rfl,
      by decide +kernel⟩,
    ⟨matrixOp 0x16 0x200 .issued [], acting .ld _ (cellsFrom (scratchLoc 0 0) (shapeBytes 0x17FFFC 1 1)), acting_may _ _ _ _ (by decide) rfl rfl,
      by decide +kernel⟩,
    ⟨matrixOp 0x16 0x200 .started (shapeBytes 0x100 2 2), acting .ld _, logOk_empty rfl, acting_may _ _ _ _ (by decide) rfl rfl, by decide +kernel⟩,
    ⟨matrixOp 0x18 0x200 .started (shapeBytes 0x100 2 2), acting .ld _ [] { flight := [{ slot := some 1 }] }, logOk_empty rfl,
      acting_may _ _ _ _ (by decide) rfl rfl, by decide +kernel⟩,
    ⟨matrixOp 0x18 0x200 .started (shapeBytes 0x100 2 2), acting .ld _ [] { flight := [{ slot := some 0 }] }, logOk_empty rfl,
      acting_may _ _ _ _ (by decide) rfl rfl, by decide +kernel⟩,
    ⟨matrixOp 0x17 0x202 .started (shapeBytes 0x100 2 2), acting .st _ [] { tstat := [(0, 2)] }, logOk_empty rfl,
      acting_may _ _ _ _ (by decide) rfl rfl, by decide +kernel⟩⟩

/-- An `AADD` of 4 bytes on plane 0, at a position of the page. -/
def planeAtomic (y : Word) (st : OpSt) : Op := { code := 0x40, dst := some 4, y := y, st := st }

/-- The plane and the position have what an atomic of 4 bytes asks for. -/
def atomicFits (s : State) (y : Word) : Bool :=
  let d := s.planeDesc 0 y
  s.checkPlane 0 y == none && !d.gran && (d.width == 3 || d.width == 4 || d.width == 5 || d.width == 6) &&
    (y.extractLsb' 0 48).toNat * 2 ^ d.width / 8 % 4 == 0

theorem witness_AtomicIssues_perform :
    (∃ (o : Op) (s : State), LogOk s ∧ MayPerform s 0 .st o ∧ o.away = [] ∧ o.code = 0x4A ∧ o.f.z.getLsbD 9 = true ∧ o.f.z.getLsbD 8 = true ∧
      s.scratch 0 o.y.toNat 8 = some (scratchLoc 0 0x17FFF8)) ∧
    (∃ (o : Op) (s : State), LogOk s ∧ MayPerform s 0 .ld o ∧ o.away = [] ∧ o.code = 0x40 ∧ o.f.z.getLsbD 9 = false ∧ o.st = .started ∧
      atomicFits s o.y = true ∧ 0xFFC + (8 * 4 / 2 ^ (s.planeDesc 0 o.y).width - 1) < s.descLimit 0 o.y ∧ LiesAt s 0 o.y .both 4 0x6FFC) ∧
    (∃ (o : Op) (s : State), LogOk s ∧ MayPerform s 0 .ld o ∧ o.away = [] ∧ o.code = 0x40 ∧ o.f.z.getLsbD 9 = false ∧ o.st = .issued ∧
      atomicFits s o.y = true ∧ LiesAt s 0 o.y .both 4 0x6FFC) ∧
    (∃ (o : Op) (s : State), LogOk s ∧ MayPerform s 0 .ld o ∧ o.away = [] ∧ o.code = 0x40 ∧ o.f.z.getLsbD 9 = false ∧ o.st = .issued ∧
      s.checkPlane 0 o.y = none ∧ atomicFits s o.y = false) := by
  refine ⟨⟨{ code := 0x4A, f := { z := 0x300 }, y := 0x17FFF8 }, waiting .st _, logOk_empty rfl, waiting_may _ _ _ (by decide) rfl rfl, by decide⟩,
    ⟨planeAtomic 0xFFC .started, acting .ld _, logOk_empty rfl, acting_may _ _ _ _ (by decide) rfl rfl, by decide, by decide, by decide, by decide,
      by decide +kernel, by decide +kernel, lies (a := 0xFFC) (by decide +kernel) (by decide) _ _⟩,
    ⟨planeAtomic 0xFFC .issued, acting .ld _, logOk_empty rfl, acting_may _ _ _ _ (by decide) rfl rfl, by decide, by decide, by decide, by decide,
      by decide +kernel, lies (a := 0xFFC) (by decide +kernel) (by decide) _ _⟩,
    ⟨planeAtomic 0xFFE .issued, acting .ld _, logOk_empty rfl, acting_may _ _ _ _ (by decide) rfl rfl, by decide +kernel⟩⟩

/-- A synchronisation operation that may perform, on a machine that holds some cells of the page. -/
def syncs (o : Op) (cells : List Host.Cell := []) (k : Core := {}) : Prop :=
  LogOk (acting .ctl o cells k) ∧ MayPerform (acting .ctl o cells k) 0 .ctl o ∧ o.away = [] ∧ o.lines = []

theorem syncs_of (o : Op) (cells : List Host.Cell) (k : Core) (h1 : o.st ≠ .done) (h2 : o.eng.fault = none) (h3 : o.id = 0)
    (h4 : o.away = []) (h5 : o.lines = []) : syncs o cells k := ⟨logOk_empty rfl, acting_may _ _ _ _ h1 h2 h3, h4, h5⟩

/-- A barrier object at address 0x400 of the page: two members of one device, ID width and place 1, group scope, a threshold, and their
status words, arrivals, and epoch. -/
def barrierCells (m0 m1 : Nat) (arrived : Byte) (joined epoch : Nat) : List Host.Cell :=
  cellsFrom 0x6400 ([2, 1, 1, 1, 1, 0, 0, 0] ++ leBytes 4 epoch ++ [arrived, 0, 0, 0] ++ List.replicate 16 0 ++ leBytes 8 joined
    ++ List.replicate 56 0 ++ leBytes 8 m0 ++ List.replicate 32 0 ++ leBytes 8 m1)

/-- A barrier operation on that object. -/
def barrierOp (code : Nat) (x z : Word) : Op := { code := code, y := 0x400, x := x, z := z, dst := if code = 0x59 then none else some 4 }

/-- The object's bytes: the newest for a join, else those at the scope its header widens the operation to. -/
def objectAt (o : Op) (cells : List Host.Cell) : List Byte :=
  let s := acting .ctl o cells
  let wide := max o.f.t.scope.toNat (s.imageIn 0 o.f.t.scope.toNat (0x6400 + 3)).2.toNat
  (span 0x6400 2624).map (fun a => if o.code = 0x58 then (s.newestAt a).2 else (s.imageIn 0 wide a).2)

/-- A member's lag, as the last join of an episode at a time finds it, and its status before. -/
def lagOf (o : Op) (cells : List Host.Cell) (time i : Nat) : Nat × Nat :=
  let b := objectAt o cells
  (min 65535 (((if i = o.z.toNat then time else (acting .ctl o cells).tjoin.get 0 (0x6400 + i)) - (if leAt b 12 1 = 0 then time else leAt b 24 8)) / 1000),
   memberStatus b i)

/-- The event `EVWAIT` names. -/
def waitsOn (e : Event) (room : Nat) : State :=
  { acting .ctl { code := 0x53, y := 5, dst := some 4 } with events := [(5, e)], tenants := atZero { chainRoom := room } }

theorem witness_SynchronisationIssues_perform :
    (∃ o : Op, syncs o ∧ o.code = 0x52 ∧ o.dst = none ∧ o.f.z.getLsbD 1 = false) ∧
    (∃ o : Op, syncs o ∧ o.code = 0x53 ∧ o.dst = some 4 ∧ o.woken = some 1) ∧
    (let me : Waiter := .op 0 .ctl 0
     let w (e : Event) (room : Nat) : Event := (waitsOn e room).event 0 5
     (w { failed := true } 0).failed = true ∧ (w { target := 65535, count := 65535 } 0).target ≤ (w { target := 65535, count := 65535 } 0).count ∧
     (∃ e : Event, w e 0 = e ∧ e.failed = false ∧ e.count < e.target ∧ me ∉ e.slots ∧ me ∉ e.chain ∧ e.slots.length = 3) ∧
     ∃ e : Event, w e 1 = e ∧ e.failed = false ∧ e.count < e.target ∧ me ∉ e.slots ∧ me ∉ e.chain ∧ e.slots.length = 4 ∧
       ((waitsOn e 1).tenant 0).chainRoom = 1 ∧ ((waitsOn e 0).tenant 0).chainRoom = 0) ∧
    (∃ o : Op, syncs o ∧ o.code = 0x54 ∧ o.dst = none) ∧
    (∃ o : Op, syncs o ∧ o.code = 0x55 ∧ o.dst = none ∧ LiesAt (acting .ctl o) 0 o.y .read 64 0x6040) ∧
    (∃ o : Op, syncs o ∧ o.code = 0x57 ∧ o.f.z.getLsbD 0 = false ∧ LiesAt (acting .ctl o) 0 o.y .read 8 0x6100) ∧
    (∃ o : Op, syncs o ∧ o.code = 0x57 ∧ o.f.z.getLsbD 0 = true ∧ LiesAt (acting .ctl o) 0 ((acting .ctl o).recAt 0 o.y 72) .read 4 0x6148) ∧
    (∃ (o : Op) (cells : List Host.Cell), syncs o cells ∧ o.code = 0x56 ∧ LiesAt (acting .ctl o cells) 0 o.y .both 128 0x6100 ∧
      LiesAt (acting .ctl o cells) 0 o.z .read 2624 0x6400 ∧ (acting .ctl o cells).imageNat 0x6100 8 = 0x8001 ∧
      barrierMalformed ((acting .ctl o cells).imageBytes 0x6400 2624) = false ∧
      stealOk 0x8001 0 0 ((acting .ctl o cells).imageBytes 0x6400 2624) = true ∧ (acting .ctl o cells).tasks = []) ∧
    (∃ (o : Op) (cells : List Host.Cell), syncs o cells ∧ o.code = 0x56 ∧ LiesAt (acting .ctl o cells) 0 o.y .both 128 0x6100 ∧
      LiesAt (acting .ctl o cells) 0 o.z .read 2624 0x6400 ∧ (acting .ctl o cells).imageNat 0x6100 8 = 0 ∧
      barrierMalformed ((acting .ctl o cells).imageBytes 0x6400 2624) = false) ∧
    (∃ (o : Op) (cells : List Host.Cell), syncs o cells ∧ o.code = 0x5B ∧ o.dst = none ∧ LiesAt (acting .ctl o cells) 0 o.y .read 8 0x6100 ∧
      leNat (((acting .ctl o cells).readLocs 0 .ctl 0 [] (span 0x6100 8)).map (·.2)) = 0) ∧
    (∃ (o : Op) (cells : List Host.Cell) (k : Core), syncs o cells k ∧ o.code = 0x5B ∧ LiesAt (acting .ctl o cells k) 0 o.y .read 8 0x6000 ∧
      leNat (((acting .ctl o cells k).readLocs 0 .ctl 0 [] (span 0x6000 8)).map (·.2)) = 2 ∧
      ((acting .ctl o cells k).teamRunning 0 o.y (some (0, 0x6000))).map (·.cores) = some [0] ∧ field o.z.toNat 32 3 = 0 ∧
      ((acting .ctl o cells k).coreAt 0).biv.run = .running ∧
      (((acting .ctl o cells k).coreAt 0).pend.filter (fun q => 9 < q.cause)).length = 4 ∧ ((acting .ctl o cells k).coreAt 0).pend.length = 7) ∧
    (∃ k : Core, k.biv.run = .running ∧ k.pend.length = 8) ∧
    -- no team at the record; the bivouac context idle
    (∃ (o : Op) (cells : List Host.Cell), syncs o cells ∧ o.code = 0x5B ∧ o.dst = none ∧ LiesAt (acting .ctl o cells) 0 o.y .read 8 0x6100 ∧
      leNat (((acting .ctl o cells).readLocs 0 .ctl 0 [] (span 0x6100 8)).map (·.2)) = 2 ∧
      (acting .ctl o cells).teamRunning 0 o.y (some (0, 0x6100)) = none) ∧
    (∃ (o : Op) (cells : List Host.Cell), syncs o cells ∧ o.code = 0x5B ∧ o.dst = none ∧ LiesAt (acting .ctl o cells) 0 o.y .read 8 0x6000 ∧
      leNat (((acting .ctl o cells).readLocs 0 .ctl 0 [] (span 0x6000 8)).map (·.2)) = 2 ∧
      ((acting .ctl o cells).teamRunning 0 o.y (some (0, 0x6000))).map (·.cores) = some [0] ∧ field o.z.toNat 32 3 = 0 ∧
      let k := (acting .ctl o cells).coreAt 0
      k.biv.run ≠ .running ∧ k.pend = [] ∧ k.msgHold = false ∧ k.ctl.run ≠ .trapped) := by
  refine ⟨⟨{ code := 0x52 }, syncs_of _ _ _ (by decide) rfl rfl rfl rfl, by decide⟩,
    ⟨{ code := 0x53, dst := some 4, woken := some 1 }, syncs_of _ _ _ (by decide) rfl rfl rfl rfl, by decide⟩,
    ⟨by decide +kernel, by decide +kernel,
      ⟨{ slots := List.replicate 3 (.task 0 0) }, by decide +kernel⟩, ⟨{ slots := List.replicate 4 (.task 0 0) }, by decide +kernel⟩⟩,
    ⟨{ code := 0x54 }, syncs_of _ _ _ (by decide) rfl rfl rfl rfl, by decide⟩,
    ⟨{ code := 0x55, y := 0x40 }, syncs_of _ _ _ (by decide) rfl rfl rfl rfl, by decide, by decide,
      lies (a := 0x40) (by decide +kernel) (by decide) _ _⟩,
    ⟨{ code := 0x57, y := 0x100 }, syncs_of _ _ _ (by decide) rfl rfl rfl rfl, by decide, by decide,
      lies (a := 0x100) (by decide +kernel) (by decide) _ _⟩,
    ⟨{ code := 0x57, y := 0x100, f := { z := 1 } }, syncs_of _ _ _ (by decide) rfl rfl rfl rfl, by decide, by decide, ?_⟩,
    ⟨{ code := 0x56, y := 0x100, z := 0x400 }, [(0x6100, 1), (0x6101, 0x80)] ++ barrierCells 0x410 0x10 0 0 0, syncs_of _ _ _ (by decide) rfl rfl rfl rfl,
      by decide, lies (a := 0x100) (by decide +kernel) (by decide) _ _, lies (a := 0x400) (by decide +kernel) (by decide) _ _, by decide +kernel⟩,
    ⟨{ code := 0x56, y := 0x100, z := 0x400 }, barrierCells 0x410 0x10 0 0 0, syncs_of _ _ _ (by decide) rfl rfl rfl rfl,
      by decide, lies (a := 0x100) (by decide +kernel) (by decide) _ _, lies (a := 0x400) (by decide +kernel) (by decide) _ _, by decide +kernel⟩,
    ⟨{ code := 0x5B, y := 0x100 }, [], syncs_of _ _ _ (by decide) rfl rfl rfl rfl, by decide, by decide,
      lies (a := 0x100) (by decide +kernel) (by decide) _ _, by decide +kernel⟩,
    ⟨{ code := 0x5B }, [(0x6000, 2)], { biv := { run := .running }, pend := List.replicate 3 {} ++ List.replicate 4 { cause := 0x11 } },
      syncs_of _ _ _ (by decide) rfl rfl rfl rfl, by decide, lies (a := 0) (by decide +kernel) (by decide) _ _, by decide +kernel⟩,
    ⟨{ biv := { run := .running }, pend := List.replicate 8 {} }, by decide⟩,
    ⟨{ code := 0x5B, y := 0x100 }, [(0x6100, 2)], syncs_of _ _ _ (by decide) rfl rfl rfl rfl, by decide, by decide,
      lies (a := 0x100) (by decide +kernel) (by decide) _ _, by decide +kernel⟩,
    ⟨{ code := 0x5B }, [(0x6000, 2)], syncs_of _ _ _ (by decide) rfl rfl rfl rfl, by decide, by decide,
      lies (a := 0) (by decide +kernel) (by decide) _ _, by decide +kernel⟩⟩
  have e : (acting .ctl { code := 0x57, y := 0x100, f := { z := 1 } }).recAt 0 0x100 72 = BitVec.ofNat 64 0x148 := by decide +kernel
  exact e ▸ lies (a := 0x148) (by decide +kernel) (by decide) _ _

/-- What the barrier operations ask of the object at 0x400. -/
def onBarrier (o : Op) (cells : List Host.Cell) : Prop :=
  syncs o cells ∧ ((acting .ctl o cells).planeDesc 0 o.y).byteOf (o.y.extractLsb' 0 48).toNat % 64 = 0 ∧
    LiesAt (acting .ctl o cells) 0 o.y (if o.code = 0x58 then .both else .read) 2624 0x6400 ∧ ((acting .ctl o cells).ctxAt 0 .ctl).ops = [o]

theorem witness_SynchronisationIssues_barriers :
    (∃ (o : Op) (cells : List Host.Cell), onBarrier o cells ∧ o.code = 0x59 ∧ o.dst = none ∧
      1 ≤ (leAt (objectAt o cells) 8 4 + 2 ^ 32 - o.x.toNat % 2 ^ 32) % 2 ^ 32 ∧
      (leAt (objectAt o cells) 8 4 + 2 ^ 32 - o.x.toNat % 2 ^ 32) % 2 ^ 32 < 2 ^ 31) ∧
    (∃ (o : Op) (cells : List Host.Cell), onBarrier o cells ∧ o.code = 0x59 ∧ o.dst = none ∧
      (leAt (objectAt o cells) 8 4 + 2 ^ 32 - o.x.toNat % 2 ^ 32) % 2 ^ 32 = 0) ∧
    (∃ (o : Op) (cells : List Host.Cell), onBarrier o cells ∧ o.code = 0x5A ∧ o.dst = some 4) ∧
    (∃ (o : Op) (cells : List Host.Cell), onBarrier o cells ∧ o.code = 0x58 ∧ barrierMalformed (objectAt o cells) = true) ∧
    (∃ (o : Op) (cells : List Host.Cell), onBarrier o cells ∧ o.code = 0x58 ∧ barrierMalformed (objectAt o cells) = false ∧
      leAt (objectAt o cells) 0 1 = o.z.toNat) ∧
    (∃ (o : Op) (cells : List Host.Cell), onBarrier o cells ∧ o.code = 0x58 ∧ barrierMalformed (objectAt o cells) = false ∧
      o.z.toNat < leAt (objectAt o cells) 0 1 ∧ bitAt (leAt (objectAt o cells) 32 8) o.z.toNat = true) ∧
    (∃ (o : Op) (cells : List Host.Cell), onBarrier o cells ∧ o.code = 0x58 ∧ barrierMalformed (objectAt o cells) = false ∧
      o.z.toNat < leAt (objectAt o cells) 0 1 ∧ bitAt (leAt (objectAt o cells) 32 8) o.z.toNat = false ∧
      leAt (objectAt o cells) 12 1 + 1 < leAt (objectAt o cells) 0 1) ∧
    (∃ (o : Op) (cells : List Host.Cell), onBarrier o cells ∧ o.code = 0x58 ∧ barrierMalformed (objectAt o cells) = false ∧
      o.z.toNat < leAt (objectAt o cells) 0 1 ∧ bitAt (leAt (objectAt o cells) 32 8) o.z.toNat = false ∧
      leAt (objectAt o cells) 12 1 + 1 = leAt (objectAt o cells) 0 1 ∧ (acting .ctl o cells).joins = []) ∧
    -- the last join, of member 1: its lag over the threshold or not, its mark as it was
    (let late (m1 time : Nat) : Bool × Bool × Nat :=
       let l := lagOf (barrierOp 0x58 0 1) (barrierCells 0 m1 1 1 0) time 1
       (decide (leAt (objectAt (barrierOp 0x58 0 1) (barrierCells 0 m1 1 1 0)) 4 2 < l.1), bitAt l.2 10, field l.2 5 5)
     late 0 2000 = (true, false, 0) ∧ late 0 1999 = (false, false, 0) ∧ late 0x400 2000 = (true, true, 0) ∧
       late 0x400 1999 = (false, true, 0) ∧ late 0x420 1999 = (false, true, 1)) := by
  have on (code : Nat) (x z : Word) (cells : List Host.Cell) (h : tablesOk (acting .ctl (barrierOp code x z) cells) = true)
      (hb : (((acting .ctl (barrierOp code x z) cells).planeDesc 0 0x400).byteOf 0x400) % 64 = 0) :
      onBarrier (barrierOp code x z) cells := by
    refine ⟨syncs_of _ _ _ (by simp [barrierOp]) rfl rfl rfl rfl, hb, ?_, ?_⟩
    · split
      · exact lies (a := 0x400) h (by decide) _ _
      · exact lies (a := 0x400) h (by decide) _ _
    · simp [acting, waiting, stCore, State.ctxAt, State.coreAt, Tab.get, Core.ctxOf, Core.setCtx]
  refine ⟨⟨barrierOp 0x59 0xFFFFFFFF 0, barrierCells 0 0 0 0 0, on _ _ _ _ (by decide +kernel) (by decide +kernel), by decide +kernel⟩,
    ⟨barrierOp 0x59 7 0, barrierCells 0 0 0 0 7, on _ _ _ _ (by decide +kernel) (by decide +kernel), by decide +kernel⟩,
    ⟨barrierOp 0x5A 0 1, barrierCells 0 0 0 0 0, on _ _ _ _ (by decide +kernel) (by decide +kernel), by decide +kernel⟩,
    ⟨barrierOp 0x58 0 1, [], on _ _ _ _ (by decide +kernel) (by decide +kernel), by decide +kernel⟩,
    ⟨barrierOp 0x58 0 2, barrierCells 0 0 0 0 0, on _ _ _ _ (by decide +kernel) (by decide +kernel), by decide +kernel⟩,
    ⟨barrierOp 0x58 0 1, barrierCells 0 0 1 2 0, on _ _ _ _ (by decide +kernel) (by decide +kernel), by decide +kernel⟩,
    ⟨barrierOp 0x58 0 1, barrierCells 0 0 0 0 0, on _ _ _ _ (by decide +kernel) (by decide +kernel), by decide +kernel⟩,
    ⟨barrierOp 0x58 0 1, barrierCells 0 0 1 1 0, on _ _ _ _ (by decide +kernel) (by decide +kernel), by decide +kernel⟩, by decide +kernel⟩

theorem witness_EngineAndPlaneIssues_perform :
    (∃ (o : Op) (k : Core), MayPerform (acting .ctl o [] k) 0 .ctl o ∧ o.code = 0x23 ∧ o.dst = none ∧ o.x.toNat + 1 = k.probeP ∧
      (k.slotAt o.x.toNat).pin = true) ∧
    (∃ (o : Op) (k : Core), MayPerform (acting .ctl o [] k) 0 .ctl o ∧ o.code = 0x23 ∧ o.dst = none ∧ o.x.toNat = k.probeP) ∧
    (∃ o : Op, MayPerform (acting .ctl o) 0 .ctl o ∧ o.code = 0x27 ∧ ((acting .ctl o).setOp 0 .ctl o).quietPlane 0 o.y = true ∧
      (acting .ctl o).moves = []) ∧
    (∃ o q : Op, let s := stCtx .ctl { run := .running, ops := [o, q] }
      MayPerform s 0 .ctl o ∧ o.code = 0x25 ∧ (s.setOp 0 .ctl o).quietPlane 0 o.y = false) := by
  refine ⟨⟨{ code := 0x23, x := 31 }, { probeP := 32, probe := [(31, { pin := true })] }, acting_may _ _ _ _ (by decide) rfl rfl, by decide⟩,
    ⟨{ code := 0x23, x := 32 }, { probeP := 32 }, acting_may _ _ _ _ (by decide) rfl rfl, by decide⟩,
    ⟨{ code := 0x27 }, acting_may _ _ _ _ (by decide) rfl rfl, by decide +kernel⟩,
    ⟨{ code := 0x25 }, { id := 1, code := 0x20, st := .started, eng := { total := 1 }, got := [(0, 0, 0, 0)] }, ⟨by decide, by decide, rfl, ?_⟩, by decide +kernel⟩⟩
  intro y _ h; exact absurd h (by simp)

theorem witness_OrderAndPropagation :
    (∃ s : State, LogOk s ∧ s.opAt 0 .ld 3 = none ∧ ∃ e ∈ s.log, e.seq = 1 ∧ e.level = 0) ∧
    (∃ s : State, LogOk s ∧ ∃ e ∈ s.log, e.seq = 1 ∧ 1 ≤ e.level) ∧
    (∃ (o : Op) (s : State), LogOk s ∧ s.opAt 0 .ld o.id = some o ∧ o.code < 0x20 ∧ o.eng.fault = none ∧
      ∃ y ∈ (s.ctxAt 0 .ld).ops, y.id < o.id ∧ s.performedAt 0 y o.scope = false ∧ o.f.t.rel = true) ∧
    (∃ (o : Op) (s : State), LogOk s ∧ s.opAt 0 .ctl o.id = some o ∧ o.code = 0x40 ∧ o.f.z.getLsbD 9 = false ∧ o.st = .issued ∧
      o.eng.fault = none ∧ ∃ y ∈ (s.ctxAt 0 .ctl).ops, y.id < o.id ∧ s.performedAt 0 y o.scope = false ∧ y.code = 0x26 ∧
        o.f.t.mask.getLsbD y.f.t.stream.toNat = true) ∧
    (∃ (o : Op) (s : State), LogOk s ∧ s.opAt 0 .ctl o.id = some o ∧ o.code = 0x58 ∧ o.eng.fault = none ∧
      ∃ y ∈ (s.ctxAt 0 .ctl).ops, y.id < o.id ∧ s.performedAt 0 y o.f.t.scope.toNat = false ∧ y.f.t.acq = true) ∧
    (∃ (o : Op) (s : State), LogOk s ∧ s.opAt 0 .ld o.id = some o ∧ s.performedOwn 0 o = false) ∧
    (∃ (o : Op) (s : State), LogOk s ∧ s.opAt 0 .ld o.id = some o ∧ s.performedOwn 0 o = true) := by
  refine ⟨⟨{ log := [⟨1, [(8, 1)], 0, 0⟩], nextSeq := 2 }, ⟨by decide, by decide⟩, by decide⟩,
    ⟨{ log := [⟨1, [(8, 1)], 0, 1⟩], nextSeq := 2 }, ⟨by decide, by decide⟩, by decide⟩,
    ⟨{ id := 1, f := { t := { stream := 1, rel := true } } },
      stCtx .ld { run := .running, ops := [{}, { id := 1, f := { t := { stream := 1, rel := true } } }] }, logOk_empty rfl, by decide⟩,
    ⟨{ id := 1, code := 0x40, f := { t := { stream := 1, mask := 1 } } },
      stCtx .ctl { run := .running, ops := [{ code := 0x26 }, { id := 1, code := 0x40, f := { t := { stream := 1, mask := 1 } } }] }, logOk_empty rfl, by decide⟩,
    ⟨{ id := 1, code := 0x58, f := { t := { stream := 1, scope := 2 } } },
      stCtx .ctl { run := .running, ops := [{ f := { t := { acq := true } } }, { id := 1, code := 0x58, f := { t := { stream := 1, scope := 2 } } }] },
      logOk_empty rfl, by decide⟩,
    ⟨{}, waiting .ld {}, logOk_empty rfl, by decide⟩, ⟨{ st := .done }, waiting .ld { st := .done }, logOk_empty rfl, by decide⟩⟩

theorem witness_TokensAndTimeouts :
    (∃ (o : Op) (s : State), MayPerform s 0 .ld o ∧ o.code = 0x29 ∧ o.dst = none ∧ o.f.x.toNat = 7 ∧ (o.f.z.extractLsb' 0 6).toNat = 63 ∧
      63 ≤ ((s.coreAt 0).tokens 7).count) ∧
    (∃ (o : Op) (s : State), MayPerform s 0 .st o ∧ o.code = 0x28 ∧ o.dst = none ∧ o.f.x.toNat = 0 ∧ (o.f.z.extractLsb' 0 6).toNat = 3 ∧
      ((s.coreAt 0).tokens 0).waiting = [] ∧ ((s.coreAt 0).tokens 0).count + 3 = 63) ∧
    (∃ (o : Op) (s : State), MayPerform s 0 .st o ∧ o.code = 0x28 ∧ o.dst = none ∧ o.f.x.toNat = 0 ∧ (o.f.z.extractLsb' 0 6).toNat = 3 ∧
      ((s.coreAt 0).tokens 0).waiting = [] ∧ ((s.coreAt 0).tokens 0).count + 3 = 64) ∧
    (∃ s : State, ((s.coreAt 0).tokens 1).waiting = [.engine false] ∧ ((s.coreAt 0).tokens 1).count = 62) ∧
    (∃ s : State, ((s.coreAt 0).tokens 1).waiting = [.engine true] ∧ ((s.coreAt 0).tokens 1).count = 63) ∧
    (∃ (o : Op) (s : State), s.opAt 0 .ld o.id = some o ∧ o.code = 0x28 ∧ o.dst = none ∧ (o.f.z.extractLsb' 0 6).toNat = 3 ∧
      ((s.coreAt 0).tokens 1).waiting = [.ksig .ld o.id] ∧ ((s.coreAt 0).tokens 1).count + 3 = 63) ∧
    (∃ (o : Op) (s : State), s.opAt 0 .ld o.id = some o ∧ o.code = 0x28 ∧ o.dst = none ∧ (o.f.z.extractLsb' 0 6).toNat = 3 ∧
      ((s.coreAt 0).tokens 1).waiting = [.ksig .ld o.id] ∧ ((s.coreAt 0).tokens 1).count + 3 = 64) ∧
    (∃ (o : Op) (s : State), MayPerform s 0 .ctl o ∧ o.code = 0x2A ∧ o.dst = some 4 ∧ (o.f.z.extractLsb' 7 3).toNat = 2 ∧
      (o.f.z.extractLsb' 1 6).toNat = 1 ∧ ((s.coreAt 0).tokens 2).count = 1 ∧ o.y.toNat = 0) ∧
    (∃ (o : Op) (s : State), MayPerform s 0 .ctl o ∧ o.code = 0x2A ∧ o.dst = some 4 ∧ (o.f.z.extractLsb' 7 3).toNat = 2 ∧
      ((s.coreAt 0).tokens 2).count < (o.f.z.extractLsb' 1 6).toNat ∧ o.since = some 0 ∧ o.y.toNat = 1 ∧ 0 + 1000 * o.y.toNat = s.time) ∧
    (∃ (o : Op) (s : State), MayPerform s 0 .ctl o ∧ o.code = 0x50 ∧ o.dst = none ∧ o.f.x.toNat = 3 ∧ o.y.toNat = 65535 ∧
      o.y.toNat ≤ ((s.coreAt 0).abar 3).arr) ∧
    (∃ (o : Op) (s : State), MayPerform s 0 .ctl o ∧ o.code = 0x51 ∧ o.dst = some 4 ∧ (o.f.z.extractLsb' 8 2).toNat = 3 ∧
      (((s.coreAt 0).abar 3).ph != o.f.z.getLsbD 7) = true ∧ o.met = true) ∧
    (∃ (o : Op) (s : State), MayPerform s 0 .ctl o ∧ o.code = 0x51 ∧ o.dst = some 4 ∧
      (((s.coreAt 0).abar 0).ph != o.f.z.getLsbD 7) = false ∧ o.since = some 0 ∧ o.y.toNat = 1 ∧ 0 + 1000 * o.y.toNat = s.time) := by
  let push : Op := { code := 0x28, f := { z := 3 } }
  let take : Op := { code := 0x2A, dst := some 4, since := some 0, f := { z := 0x102 } }
  let late (o : Op) : State := { waiting .ctl o with time := 1000 }
  have may (o : Op) (h1 : o.st ≠ .done) (h2 : o.eng.fault = none) (h3 : o.id = 0) : MayPerform (late o) 0 .ctl o :=
    ⟨by simp [late, State.opAt, waiting, stCore, State.ctxAt, State.coreAt, Tab.get, Core.ctxOf, Core.setCtx], h1, h2,
      fun y _ hlt => absurd hlt (by omega)⟩
  exact ⟨⟨{ code := 0x29, f := { x := 7, z := 63 } }, waiting .ld _ { k := [(7, ⟨63, []⟩)] }, waiting_may _ _ _ (by decide) rfl rfl, by decide⟩,
    ⟨push, waiting .st _ { k := [(0, ⟨60, []⟩)] }, waiting_may _ _ _ (by decide) rfl rfl, by decide⟩,
    ⟨push, waiting .st _ { k := [(0, ⟨61, []⟩)] }, waiting_may _ _ _ (by decide) rfl rfl, by decide⟩,
    ⟨stCore .ctl { k := [(1, ⟨62, [.engine false]⟩)] }, by decide⟩, ⟨stCore .ctl { k := [(1, ⟨63, [.engine true]⟩)] }, by decide⟩,
    ⟨push, waiting .ld push { k := [(1, ⟨60, [.ksig .ld 0]⟩)] }, by decide⟩, ⟨push, waiting .ld push { k := [(1, ⟨61, [.ksig .ld 0]⟩)] }, by decide⟩,
    ⟨take, waiting .ctl _ { k := [(2, ⟨1, []⟩)] }, waiting_may _ _ _ (by decide) rfl rfl, by decide⟩,
    ⟨{ take with y := 1 }, late _, may _ (by decide) rfl rfl, by decide⟩,
    ⟨{ code := 0x50, y := 65535, f := { x := 3 } }, waiting .ctl _ { ab := [(3, ⟨0, 65535, false⟩)] }, waiting_may _ _ _ (by decide) rfl rfl, by decide⟩,
    ⟨{ code := 0x51, y := 1, dst := some 4, met := true, f := { z := 0x300 } }, waiting .ctl _ { ab := [(3, ⟨0, 0, true⟩)] },
      waiting_may _ _ _ (by decide) rfl rfl, by decide⟩,
    ⟨{ code := 0x51, y := 1, dst := some 4, since := some 0 }, late _, may _ (by decide) rfl rfl, by decide⟩⟩

theorem witness_EventEntry :
    (∃ s : State, (s.coreAt 0).pend = [{ cause := 0x11 }] ∧ (s.coreAt 0).demWait = [] ∧ (s.coreAt 0).biv.run = .running) ∧
    (∃ s : State, (s.coreAt 0).pend = [{ cause := 0x13 }] ∧ (s.coreAt 0).demWait = [] ∧ (s.coreAt 0).biv.run ≠ .running ∧
      (s.coreAt 0).ctl.run ≠ .trapped ∧ (s.coreAt 0).hotHold = false) ∧
    (∃ s : State, (s.coreAt 0).pend = [{ cause := 0x11 }, { cause := 0x12 }] ++ { cause := 0x13 } :: [{ cause := 0x11 }] ∧
      (s.coreAt 0).demWait = [] ∧ (s.coreAt 0).biv.run ≠ .running ∧ (s.coreAt 0).ctl.run ≠ .trapped ∧ (s.coreAt 0).msgHold = true ∧
      (s.coreAt 0).demHold = true ∧ (s.coreAt 0).hotHold = false) := by
  exact ⟨⟨stCore .ctl { pend := [{ cause := 0x11 }], biv := { run := .running } }, by decide⟩,
    ⟨stCore .ctl { pend := [{ cause := 0x13 }] }, by decide⟩,
    ⟨stCore .ctl { pend := [{ cause := 0x11 }, { cause := 0x12 }, { cause := 0x13 }, { cause := 0x11 }], msgHold := true, demHold := true }, by decide⟩⟩

/-- R35: an event abandons a plane atomic that waits for its check, which issues again after `RTE`. -/
theorem test_event_abandons_check :
    (let ops : List Op := [{ id := 2, code := 0x52 }, { id := 3, code := 0x49 }]
     match exec (.bivouacEntry 0) (stCore .ctl { pend := [{ cause := 0x13 }], ctl := { pc := 7, hold := some 3, ops := ops } }) with
      | .next t => decide ((t.coreAt 0).ctl.ops.map (·.id) = [2] ∧ (t.coreAt 0).ctl.hold = none ∧ (t.coreAt 0).frame.pc = 7)
      | _ => false) = true := by decide

/-- A pattern of one level of two 8-bit elements, scratchpad to scratchpad: from an address to 0x200. -/
def pattern (src : Nat) : List Byte :=
  leBytes 8 src ++ [0, 2, 0, 0, 0, 0, 0, 0, 5, 1, 0, 0, 0, 0, 0, 0, 2, 0, 0, 0, 1, 0, 0, 0, 1, 0, 0, 0] ++
    List.replicate 60 0

/-- An index record: table at position 0 of plane 0, list at 0x100, data at 0x200, two indices, rows of one element, and a format. -/
def ixRec (fmt : Byte) : List Byte :=
  List.replicate 8 0 ++ [0, 1, 0, 0, 0, 2, 0, 0, 2, 0, 0, 0, 1, 0, 0, 0, 1, 0, 0, 0, fmt, 0, 0, 0]

/-- A command that names a record at address `y` and signals nothing. -/
def command (code : Nat) (y : Word) (eng : Eng) (st : OpSt) : Op :=
  { code := code, f := { x := 31, z := 0x200 }, y := y, eng := eng, st := st }

/-- A core with it, and the cells given: the record, and the page of `tables` as 32-bit elements. -/
def commanding (o : Op) (cells : List Host.Cell) (k : Core := {}) : State :=
  { waiting .ctl o k with mem := tables.map (fun e => if e.1 = 32 then (32, 0x65) else e) ++ cells }

theorem commanding_may (o : Op) (cells : List Host.Cell) (h1 : o.st ≠ .done) (h2 : o.eng.fault = none) (h3 : o.id = 0) :
    MayPerform (commanding o cells) 0 .ctl o := by
  refine ⟨?_, h1, h2, fun y _ hlt => absurd hlt (by omega)⟩
  simp [State.opAt, commanding, waiting, stCore, State.ctxAt, State.coreAt, Tab.get, Core.ctxOf, Core.setCtx]

theorem commanding_going (o : Op) (k : Core) (h1 : isEngine o.code = true) (h2 : o.st = .started) (h3 : o.eng.fault = none)
    (h4 : o.pageWait = false) (h5 : o.away = [] ∧ o.got = [] ∧ o.left = []) : EngineGoing (commanding o [] k) 0 .ctl o :=
  ⟨by simp [State.opAt, commanding, waiting, stCore, State.ctxAt, State.coreAt, Tab.get, Core.ctxOf, Core.setCtx], h1, h2, h3, h4, h5⟩

/-- A started command with its record, element 1 as given. -/
def begun (code : Nat) (r : List Byte) (e : Elem) (checked : Nat := 1) : Op :=
  command code 0 { record := r, total := 2, checked := checked, elems := [(1, e)] } .started

theorem begun_going (code : Nat) (r : List Byte) (e : Elem) (checked : Nat) (h : isEngine code = true) :
    EngineGoing (commanding (begun code r e checked) []) 0 .ctl (begun code r e checked) :=
  commanding_going _ {} h rfl rfl rfl ⟨rfl, rfl, rfl⟩

/-- A command whose elements are all written. -/
def finished (code : Nat) (x : BitVec 5) (eng : Eng) : Op :=
  { command code 1 { eng with total := 1, checked := 1, elems := [(0, .done)] } .started with f := { x := x } }

theorem finished_going (code : Nat) (x : BitVec 5) (eng : Eng) (k : Core) (h : isEngine code = true) (h' : eng.fault = none) :
    EngineGoing (commanding (finished code x eng) [] k) 0 .ctl (finished code x eng) :=
  commanding_going _ k h rfl h' rfl ⟨rfl, rfl, rfl⟩

/-- What the start of a command asks of a state, the record's misalignment and fault apart. -/
def starts (o : Op) (s : State) : Bool :=
  decide (o.st = .issued ∧ o.away = [] ∧ (o.code = 0x20 ∨ 0x60 ≤ o.code ∧ o.code ≤ 0x63) ∧ (s.coreAt 0).engineTakes o = true ∧
    s.parkWaits 0 o = false ∧ o.f.z.getLsbD 9 = true ∧ o.scope < 4 ∧ ∀ p ∈ (s.ctxAt 0 .ctl).ops, o.id ≤ p.id)

/-- The record read at scratchpad address 0. -/
def readAt0 (o : Op) (s : State) (n : Nat) : List Byte :=
  (s.readLocs 0 .ctl (windowScope o.y (BitVec.ofNat 2 o.scope)) [] (span (scratchLoc 0 0) n)).map (·.2)

/-- A pattern of two elements from scratchpad to the page, of the page's own size. -/
def nibbles : List Byte :=
  leBytes 8 0x100 ++ leBytes 8 0 ++ [0xF1, 1, 0, 0, 0, 0, 0, 0, 2, 0, 0, 0, 1, 0, 0, 0, 1, 0, 0, 0] ++ List.replicate 60 0

/-- The machine of `commanding`, its page of 4-bit elements. -/
def halves (o : Op) : State := { commanding o [] with mem := tables.map (fun e => if e.1 = 32 then (32, 0x62) else e) }

theorem halves_going (o : Op) (h : EngineGoing (commanding o []) 0 .ctl o) : EngineGoing (halves o) 0 .ctl o :=
  ⟨by simpa [State.opAt, halves, commanding, State.ctxAt, State.coreAt] using h.here, h.engine, h.st, h.clear, h.page, h.idle⟩

theorem witness_EngineCommands :
    -- the start
    (∃ (o : Op) (s : State), MayPerform s 0 .ctl o ∧ starts o s = true ∧ o.y.toNat % 8 ≠ 0) ∧
    (∃ (o : Op) (s : State), MayPerform s 0 .ctl o ∧ starts o s = true ∧ o.code = 0x20 ∧ o.y.toNat % 8 = 0 ∧
      s.scratch 0 o.y.toNat 96 = some (scratchLoc 0 0) ∧ patMalformed s 0 (readAt0 o s 96) = true) ∧
    (∃ (o : Op) (s : State), MayPerform s 0 .ctl o ∧ starts o s = true ∧ o.code = 0x20 ∧ o.y.toNat % 8 = 0 ∧
      s.scratch 0 o.y.toNat 96 = some (scratchLoc 0 0) ∧ patMalformed s 0 (readAt0 o s 96) = false) ∧
    (∃ (o : Op) (s : State), MayPerform s 0 .ctl o ∧ starts o s = true ∧ o.code = 0x60 ∧ o.y.toNat % 8 = 0 ∧
      s.scratch 0 o.y.toNat 32 = some (scratchLoc 0 0) ∧ ixMalformed s 0 0x60 (readAt0 o s 32) = false) ∧
    -- the index, the check, the read and the write of element 1
    (∃ (o : Op) (s : State), LogOk s ∧ EngineGoing s 0 .ctl o ∧ o.code = 0x60 ∧ 1 < o.eng.total ∧ o.eng.checked ≤ 1 ∧
      o.eng.elems.get .todo 1 = .todo ∧ PieceAt s 0 .read (ixPiece o.eng.record (1 / ixL o.eng.record)) (scratchLoc 0 0x104) 4) ∧
    (∃ (o : Op) (s : State), LogOk s ∧ EngineGoing s 0 .ctl o ∧ o.code = 0x20 ∧ o.eng.checked = 1 ∧ 1 < o.eng.total ∧
      s.findPiece 0 0 .read (pieces s 0 o 1 0).1 = .bytes [.at (scratchLoc 0 0x101)] ∧
      s.findPiece 0 0 (destNeed o) (pieces s 0 o 1 0).2 = .bytes [.at (scratchLoc 0 0x201)]) ∧
    (∃ (o : Op) (s : State), LogOk s ∧ EngineGoing s 0 .ctl o ∧ o.code = 0x20 ∧ o.eng.checked = 1 ∧ 1 < o.eng.total ∧
      s.findPiece 0 0 .read (pieces s 0 o 1 0).1 = .fault 0x0B 0 0x180000) ∧
    (∃ (o : Op) (s : State), LogOk s ∧ EngineGoing s 0 .ctl o ∧ o.code = 0x60 ∧ o.eng.checked = 1 ∧ 1 < o.eng.total ∧
      o.eng.elems.get .todo 1 = .index 3 ∧ (ixTable o.eng.record).toNat % 2 ^ 48 + 3 * ixStride o.eng.record + 1 % ixL o.eng.record = 3 ∧
      s.findPiece 0 0 .read (pieces s 0 o 1 3).1 = .bytes ((span 0x600C 4).map .at) ∧
      s.findPiece 0 0 (destNeed o) (pieces s 0 o 1 3).2 = .bytes ((span (scratchLoc 0 0x204) 4).map .at)) ∧
    (∃ (o : Op) (s : State), LogOk s ∧ EngineGoing s 0 .ctl o ∧ o.code = 0x63 ∧ o.eng.checked = 1 ∧ 1 < o.eng.total ∧
      o.eng.elems.get .todo 1 = .index 0 ∧ 0 < ixL o.eng.record ∧
      s.findPiece 0 0 (destNeed o) (pieces s 0 o 1 0).2 = .bytes ((span 0x6000 4).map .at)) ∧
    (∃ o : Op, EngineGoing (commanding o []) 0 .ctl o ∧ o.code = 0x63 ∧ o.eng.checked = 1 ∧ o.eng.elems.get .todo 1 = .index 1 ∧
      ixL o.eng.record ≤ 1) ∧
    (∃ o : Op, EngineGoing (commanding o []) 0 .ctl o ∧ o.code = 0x62 ∧ o.eng.checked = 1 ∧ o.eng.elems.get .todo 1 = .index 0x80000000 ∧
      nzLive (ixFmt o.eng.record) 0x80000000 = false) ∧
    (∃ (o : Op) (s : State), LogOk s ∧ EngineGoing s 0 .ctl o ∧ o.code = 0x62 ∧ o.eng.checked = 1 ∧ o.eng.elems.get .todo 1 = .index 1 ∧
      nzLive (ixFmt o.eng.record) 1 = true ∧ o.eng.live = 0 ∧
      s.findPiece 0 0 .write (pieces s 0 o 1 0).2 = .bytes ((span (scratchLoc 0 0x200) 4).map .at) ∧
      (s.scratch 0 (leAt o.eng.record 0 4 + 4 * 0) 4).isSome) ∧
    (∃ (o : Op) (s : State), LogOk s ∧ EngineGoing s 0 .ctl o ∧ o.code = 0x60 ∧ o.eng.elems.get .todo 1 = .at 3 ∧
      PieceAt s 0 .read (pieces s 0 o 1 3).1 0x600C 4) ∧
    (∃ (o : Op) (s : State), LogOk s ∧ EngineGoing s 0 .ctl o ∧ o.code = 0x20 ∧ o.eng.elems.get .todo 1 = .got 0 [7] ∧
      earlierWrite o 1 0 = false ∧ PieceAt s 0 .write (pieces s 0 o 1 0).2 (scratchLoc 0 0x201) 1) ∧
    (∃ (o : Op) (s : State), LogOk s ∧ EngineGoing s 0 .ctl o ∧ o.code = 0x61 ∧ ixAdd o.eng.record = true ∧
      o.eng.elems.get .todo 1 = .got 3 [7] ∧ earlierWrite o 1 3 = false ∧ PieceAt s 0 .both (pieces s 0 o 1 3).2 0x600C 4) ∧
    (∃ (o : Op) (s : State), LogOk s ∧ EngineGoing s 0 .ctl o ∧ o.code = 0x63 ∧ o.eng.elems.get .todo 1 = .at 0 ∧
      earlierWrite o 1 0 = false ∧ PieceAt s 0 .both (pieces s 0 o 1 0).2 0x6000 4) ∧
    (∃ (o : Op) (s : State), LogOk s ∧ EngineGoing s 0 .ctl o ∧ o.code = 0x62 ∧ o.eng.elems.get .todo 1 = .got 1 [7] ∧
      s.scratch 0 (leAt o.eng.record 0 4 + 4 * 1) 4 = some (scratchLoc 0 4) ∧ leAt o.eng.record 0 4 + 4 * 1 < 0x10000000 ∧
      PieceAt s 0 .write (pieces s 0 o 1 1).2 (scratchLoc 0 0x204) 4 ∧ (pieces s 0 o 1 1).2.scope o.scope = o.scope) ∧
    -- the position of a live element of `XNZS`; half a byte; a record in a peer's scratchpad
    (∃ (o : Op) (s : State), LogOk s ∧ EngineGoing s 0 .ctl o ∧ o.code = 0x62 ∧ o.eng.total = 2 ∧ o.eng.elems.get .todo (2 + 1) = .got 1 [7] ∧
      earlierWrite o (2 + 1) 1 = false ∧ PieceAt s 0 .write (pieces s 0 o (2 + 1) 1).2 (scratchLoc 0 4) 4) ∧
    (∃ (o : Op) (s : State), LogOk s ∧ EngineGoing s 0 .ctl o ∧ o.code = 0x20 ∧ o.eng.elems.get .todo 1 = .got 0 [7] ∧
      earlierWrite o 1 0 = false ∧ (pieces s 0 o 1 0).2.shape = (4, 4) ∧
      s.findPiece 0 0 .write (pieces s 0 o 1 0).2 = .bytes [.at 0x6000]) ∧
    (∃ (o : Op) (s : State), MayPerform s 0 .ctl o ∧ starts o s = true ∧ o.code = 0x20 ∧ windowScope o.y (BitVec.ofNat 2 o.scope) = 1 ∧
      s.scratch 0 o.y.toNat 96 = some (scratchLoc 0 0) ∧ patMalformed s 0 (readAt0 o s 96) = true) := by
  have ok (o : Op) (cells : List Host.Cell) : LogOk (commanding o cells) := logOk_empty rfl
  refine ⟨⟨command 0x20 4 {} .issued, commanding _ [], commanding_may _ _ (by decide) rfl rfl, by decide⟩,
    ⟨command 0x20 0 {} .issued, commanding _ [], commanding_may _ _ (by decide) rfl rfl, by decide +kernel⟩,
    ⟨command 0x20 0 {} .issued, commanding _ (cellsFrom (scratchLoc 0 0) (pattern 0x100)), commanding_may _ _ (by decide) rfl rfl, by decide +kernel⟩,
    ⟨command 0x60 0 {} .issued, commanding _ (cellsFrom (scratchLoc 0 0) (ixRec 0)), commanding_may _ _ (by decide) rfl rfl, by decide +kernel⟩,
    ⟨begun 0x60 (ixRec 0) .todo, commanding _ [], ok _ _, begun_going _ _ _ _ rfl, by unfold PieceAt; decide +kernel⟩,
    ⟨begun 0x20 (pattern 0x100) .todo, commanding _ [], ok _ _, begun_going _ _ _ _ rfl, by decide +kernel⟩,
    ⟨begun 0x20 (pattern 0x17FFFF) .todo, commanding _ [], ok _ _, begun_going _ _ _ _ rfl, by decide +kernel⟩,
    ⟨begun 0x60 (ixRec 0) (.index 3), commanding _ [], ok _ _, begun_going _ _ _ _ rfl, by decide +kernel⟩,
    ⟨begun 0x63 (ixRec 0) (.index 0), commanding _ [], ok _ _, begun_going _ _ _ _ rfl, by decide +kernel⟩,
    ⟨begun 0x63 (ixRec 0) (.index 1), begun_going _ _ _ _ rfl, by decide +kernel⟩,
    ⟨begun 0x62 (ixRec 0) (.index 0x80000000), begun_going _ _ _ _ rfl, by decide +kernel⟩,
    ⟨begun 0x62 (ixRec 0) (.index 1), commanding _ [], ok _ _, begun_going _ _ _ _ rfl, by decide +kernel⟩,
    ⟨begun 0x60 (ixRec 0) (.at 3) 2, commanding _ [], ok _ _, begun_going _ _ _ _ rfl, by unfold PieceAt; decide +kernel⟩,
    ⟨begun 0x20 (pattern 0x100) (.got 0 [7]) 2, commanding _ [], ok _ _, begun_going _ _ _ _ rfl, by unfold PieceAt; decide +kernel⟩,
    ⟨begun 0x61 (ixRec 0x10) (.got 3 [7]) 2, commanding _ [], ok _ _, begun_going _ _ _ _ rfl, by unfold PieceAt; decide +kernel⟩,
    ⟨begun 0x63 (ixRec 0) (.at 0) 2, commanding _ [], ok _ _, begun_going _ _ _ _ rfl, by unfold PieceAt; decide +kernel⟩,
    ⟨begun 0x62 (ixRec 0) (.got 1 [7]) 2, commanding _ [], ok _ _, begun_going _ _ _ _ rfl, by unfold PieceAt; decide +kernel⟩,
    ⟨command 0x62 0 { record := ixRec 0, total := 2, checked := 2, elems := [(3, .got 1 [7])] } .started, commanding _ [], ok _ _,
      commanding_going _ _ rfl rfl rfl rfl ⟨rfl, rfl, rfl⟩, by unfold PieceAt; decide +kernel⟩,
    ⟨begun 0x20 nibbles (.got 0 [7]) 2, halves (begun 0x20 nibbles (.got 0 [7]) 2), logOk_empty rfl,
      halves_going _ (begun_going _ _ _ _ rfl), by decide +kernel⟩,
    ⟨command 0x20 0x10000000 {} .issued, commanding _ [], commanding_may _ _ (by decide) rfl rfl, by decide +kernel⟩⟩

/-- The ends of engine commands: each signal, the count of `XNZS`, the causes of `XHOT`, and `PCONV`. -/
theorem witness_EngineCommands_end :
    (∃ (o : Op) (k : Core), EngineGoing (commanding o [] k) 0 .ctl o ∧ o.code = 0x60 ∧ o.dst = none ∧ o.eng.checked = o.eng.total ∧
      (∀ e ∈ o.eng.elems, e.2 = .done) ∧ o.eng.hot = [] ∧ o.took ++ o.wrote = [] ∧ o.f.x.toNat = 7 ∧
      (((commanding o [] k).coreAt 0).tokens 7).waiting = [] ∧ (((commanding o [] k).coreAt 0).tokens 7).count = 62) ∧
    (∃ (o : Op) (k : Core), EngineGoing (commanding o [] k) 0 .ctl o ∧ o.code = 0x20 ∧ o.f.x.toNat = 0 ∧ o.eng.hot = [] ∧
      (((commanding o [] k).coreAt 0).tokens 0).count = 63) ∧
    (∃ o : Op, EngineGoing (commanding o []) 0 .ctl o ∧ o.f.x.toNat = 11) ∧ (∃ o : Op, EngineGoing (commanding o []) 0 .ctl o ∧ o.f.x.toNat = 31) ∧
    (∃ (o : Op) (k : Core), EngineGoing (commanding o [] k) 0 .ctl o ∧ o.code = 0x62 ∧ o.eng.pushed = false ∧
      ((commanding o [] k).coreAt 0).yq.length = 15) ∧
    (∃ (o : Op) (k : Core), EngineGoing (commanding o [] k) 0 .ctl o ∧ o.code = 0x62 ∧ o.eng.pushed = false ∧
      ((commanding o [] k).coreAt 0).yq.length = 16) ∧
    (∃ (o : Op) (k : Core), EngineGoing (commanding o [] k) 0 .ctl o ∧ o.code = 0x63 ∧ o.eng.hot = [5] ∧ k.hotHold = false ∧
      (k.pend.filter (fun q => 9 < q.cause)).length = 4 ∧ k.pend.length = 7 ∧ ((commanding o [] k).coreAt 0).biv.run = .running) ∧
    (∃ o : Op, EngineGoing (commanding o []) 0 .ctl o ∧ o.code = 0x24 ∧ o.eng.hot = [] ∧ o.dst = none ∧
      ∀ p ∈ ((commanding o []).coreAt 0).allOps, p.code = 0x22 → p.st ≠ .done → p.z.toNat < o.y.toNat) := by
  refine ⟨⟨finished 0x60 7 {}, { k := [(7, ⟨62, []⟩)] }, finished_going _ _ _ _ rfl rfl, by decide⟩,
    ⟨finished 0x20 0 {}, { k := [(0, ⟨63, []⟩)] }, finished_going _ _ _ _ rfl rfl, by decide⟩,
    ⟨finished 0x61 11 {}, finished_going _ _ _ _ rfl rfl, by decide⟩, ⟨finished 0x62 31 { pushed := true }, finished_going _ _ _ _ rfl rfl, by decide⟩,
    ⟨finished 0x62 31 {}, { yq := List.replicate 15 0 }, finished_going _ _ _ _ rfl rfl, by decide⟩,
    ⟨finished 0x62 31 {}, { yq := List.replicate 16 0 }, finished_going _ _ _ _ rfl rfl, by decide⟩,
    ⟨finished 0x63 31 { hot := [5] },
      { pend := List.replicate 3 {} ++ List.replicate 4 { cause := 0x13 }, biv := { run := .running } }, finished_going _ _ _ _ rfl rfl, by decide⟩,
    ⟨finished 0x24 31 {}, finished_going _ _ _ _ rfl rfl, by decide⟩⟩

/-! ### Witnesses: hosts, queues, launches, tasks -/

/-- A brought-up machine: function 0 enabled with its slice on partition 0 of group 0, its page in `tables`, work queue 0 its own. -/
def working (cells : List Host.Cell) : State :=
  { plain cells with module := { stage := 7 }, tenants := atZero { word := 0x10000, slice := true },
                     parts := [(0, ⟨{ cores := 0xFF, flags := 1 }, none⟩)], queues := [(0, { vf := some 0, enabled := true })] }

/-- A record at address 0x100 of the page: its STATE, a team of one, and 100 µs at most. -/
def recordCells (st : Byte) : List Host.Cell := [(0x6100, st), (0x6135, 1), (0x6144, 100)]

theorem witness_HostAccesses :
    (∃ s : State, LogOk s ∧ s.mailboxTakes 0 false = true ∧ (s.tenant 0).held = [] ∧ (s.tenant 0).away = [] ∧ 0x6020 % 64 + 32 ≤ 64 ∧
      LiesAt s 0 (BitVec.ofNat 64 0x20) .write 32 0x6020 ∧ LiesAt s 0 (BitVec.ofNat 64 0xFC0) .read 64 0x6FC0) ∧
    (∃ (s : State) (e : Nat), LogOk s ∧ s.mailboxTakes 0 false = true ∧ (s.tenant 0).held = [] ∧ (s.tenant 0).away = [] ∧
      s.findAt 0 0x10 .read 1 = .fault 6 e 0x10 ∧ s.findAt 0 0x1000 .read 1 = .fault 3 0 0x1000) ∧
    (∃ s : State, LogOk s ∧ (s.tenant 0).tdispOn = true ∧ (s.tenant 0).tdisp = .run) ∧
    (∃ s : State, LogOk s ∧ s.module.stage = 4) ∧ (∃ s : State, LogOk s ∧ s.module.stage = 15) ∧
    (∃ s : State, LogOk s ∧ (s.tenant 0).tdispOn = false ∧ (s.tenant 0).held = [.read 0 1]) ∧
    (∃ s : State, LogOk s ∧ s.ready = true ∧ (s.queue 0).enabled = true ∧ (s.queue 0).vf = some 0 ∧ (s.tenant 0).tdispOn = false) ∧
    (∃ s : State, LogOk s ∧ s.ready = true ∧ (s.queue 1).enabled = false) ∧
    (∃ s : State, LogOk s ∧ s.module.hostLink = true) ∧ (∃ s : State, LogOk s ∧ s.module.hostLink = false) := by
  refine ⟨⟨working [], logOk_empty rfl, by decide, by decide, by decide, by decide, lies (by decide +kernel) (by decide) _ _,
      lies (by decide +kernel) (by decide) _ _⟩,
    ⟨{ working [] with mem := tables.take 15 ++ [(0x5007, 0xA0)] }, 5 * 2 ^ 61 + 0x180, logOk_empty rfl, by decide +kernel⟩,
    ⟨{ tenants := [(0, { tdispOn := true, tdisp := .run })] }, logOk_empty rfl, by decide⟩,
    ⟨{ module := { stage := 4 } }, logOk_empty rfl, rfl⟩, ⟨{ module := { stage := 15 } }, logOk_empty rfl, rfl⟩,
    ⟨{ tenants := [(0, { held := [.read 0 1] })] }, logOk_empty rfl, by decide⟩,
    ⟨working [], logOk_empty rfl, by decide⟩, ⟨working [], logOk_empty rfl, by decide⟩,
    ⟨{ module := { hostLink := true } }, logOk_empty rfl, rfl⟩, ⟨{}, logOk_empty rfl, rfl⟩⟩

/-- A machine with one launch of one task as given. -/
def tasked (t : Tk) (st : Byte) : State := { working (recordCells st) with launches := [{}], tasks := [{ t with addr := 0x100 }] }

/-- A working machine with a READY task of eight cores handed to group 0, and another of the same class and later. -/
def rivals (r : State) (both : Bool) : State :=
  let k : Tk := { st := .ready, addr := 0x100, group := some 0, cls := 1, size := 8 }
  { working [] with launches := [{}], tasks := k :: if both then [{ k with idx := 1, readyAt := 5 }] else [],
                    reserved := r.reserved, cores := r.cores }

/-- A working machine with the queues given. -/
def queued (qs : Tab WorkQueue) : State := { working [] with queues := qs, quantumAt := 0, time := 100000, quantumNo := 3 }

theorem witness_QueuesAndSlices :
    (∃ s : State, s.ready = true ∧ s.slotFree = true ∧ s.nextQueue = some 0 ∧ Ordered s.queues) ∧
    (∃ s : State, s.ready = true ∧ s.quantumAt + s.module.quantum = s.time ∧ s.tasks = [] ∧ Ordered s.queues ∧
      (s.queue 0).st = .mapped ∧ (s.queue 0).unread = [] ∧
      (s.queue 1).st = .mapped ∧ (s.queue 1).unread ≠ [] ∧ (∀ e ∈ s.queues, e.2.st = .pending → (s.queue 1).cls < e.2.cls)) ∧
    (∃ s : State, s.ready = true ∧ s.quantumAt + s.module.quantum = s.time ∧ s.tasks = [] ∧ Ordered s.queues ∧
      (s.queue 1).st = .mapped ∧ (s.queue 1).unread ≠ [] ∧ (s.queue 1).mapped = s.quantumNo ∧
      ∃ e ∈ s.queues, e.2.st = .pending ∧ e.2.cls = (s.queue 1).cls) ∧
    (∃ s : State, ∀ k ∈ s.tasks, ∀ l, s.launch k.launch = some l → l.queue ≠ 0) ∧
    (∃ s : State, s.findTk 0 0 = some { st := .ready, cls := 3 } ∧ 0 + (s.tenant (s.tkVf { st := .ready, cls := 3 })).fillAge = s.time) ∧
    (∃ (s : State) (k : Tk), s.findTk 0 0 = some k ∧ k.st = .ready ∧ 0 ∈ s.groupsOf (s.part (s.tenant (s.tkVf k)).part).desc ∧
      1 ∉ s.groupsOf (s.part (s.tenant (s.tkVf k)).part).desc) ∧
    -- of two READY tasks of class 1 the earlier is first, unless cores are kept for the other, or that one may not start
    (∃ s : State, let k : Tk := { st := .ready, addr := 0x100, group := some 0, cls := 1, size := 8 }
      let u : Tk := { k with idx := 1, readyAt := 5 }
      s.tasks = [k, u] ∧ s.reserved = [] ∧ s.findTk 0 0 = some k ∧ s.isFirst k 0 0 = true ∧ s.isFirst u 0 0 = false ∧ k ∈ s.readyIn 0) ∧
    (∃ s : State, let k : Tk := { st := .ready, addr := 0x100, group := some 0, cls := 1, size := 8 }
      let u : Tk := { k with idx := 1, readyAt := 5 }
      s.tasks = [k, u] ∧ s.reserved.get [] 0 = [(0, 1, 5)] ∧ s.isFirst k 0 0 = false ∧ s.isFirst u 0 0 = true) ∧
    (∃ s : State, let k : Tk := { st := .ready, addr := 0x100, group := some 0, cls := 1, size := 8 }
      s.tasks = [k] ∧ s.isFirst k 0 0 = true ∧ s.readyIn 0 = [k] ∧
      ((s.groupCores (s.part 0).desc 0).filter (s.coreFree 0 (s.part 0).desc)).length = 7) ∧
    (∃ s : State, (s.tenant 0).en = true ∧ PartDesc.valid (s.part (s.tenant 0).part).desc = true ∧
      ∀ e ∈ s.tenants, e.1 ≠ 0 → e.2.part = (s.tenant 0).part → e.2.slice = false) := by
  refine ⟨⟨queued [(0, { st := .pending }), (1, { st := .pending, cls := 3 })], by decide, by decide, by decide, by unfold Ordered; decide⟩,
    ⟨queued [(0, { st := .mapped }), (1, { st := .mapped, unread := [{}] }), (2, { st := .pending, cls := 3 })], by decide, by decide, by decide,
      by unfold Ordered; decide, by decide⟩,
    ⟨queued [(1, { st := .mapped, unread := [{}], mapped := 3 }), (2, { st := .pending })], by decide, by decide, by decide,
      by unfold Ordered; decide, by decide⟩,
    ⟨{}, fun k h => absurd h (List.not_mem_nil)⟩, ⟨{ tasks := [{ st := .ready, cls := 3 }], time := 20000000 }, by decide⟩,
    ⟨tasked { st := .ready } 1, { st := .ready, addr := 0x100 }, by decide⟩,
    ⟨rivals {} true, by decide +kernel⟩, ⟨rivals { reserved := [(0, [(0, 1, 5)])] } true, by decide +kernel⟩,
    ⟨rivals { cores := [(0, { team := 9 })] } false, by decide +kernel⟩, ⟨working [], by decide⟩⟩

/-- A launch header of one record at address 0x100, class 2. -/
def header : List Byte := [0, 1, 0, 0, 0, 0, 0, 0, 1, 0, 0, 0, 4, 0, 0, 0, 0, 0, 2] ++ List.replicate 45 0

/-- A machine whose queue 0 is mapped with a launch of that header, its record in the STATE given. -/
def launching (h : List Byte) (st : Byte) : State :=
  { working (recordCells st) with queues := [(0, { vf := some 0, enabled := true, st := .mapped, unread := [{ bytes := some h }] })] }

/-- What the acceptance of one record asks of a machine and of the record's STATE. -/
def accepts (s : State) (st : Nat) : Prop :=
  (s.ready = true ∧ (s.queue 0).st = .mapped ∧ (s.queue 0).doomed = [] ∧ (s.queue 0).vf = some 0 ∧
    (s.queue 0).unread = [{ bytes := some header }] ∧ headerBad header = false ∧ (s.planeDesc 0 0).byteOf (vaPos 0) % 64 = 0 ∧
    s.tableBad 0 0x100 1 = false ∧ s.recAt 0 0x100 0 = 0x100 ∧ swState (s.imageNat 0x6100 8) = st) ∧
  ∀ r w, LiesAt s 0 0x100 ⟨r, w⟩ 128 0x6100 ∧ LiesAt s 0 0x100 ⟨r, w⟩ 8 0x6100

theorem accepts_of (s : State) (st : Nat) (h : tablesOk s = true)
    (h' : s.ready = true ∧ (s.queue 0).st = .mapped ∧ (s.queue 0).doomed = [] ∧ (s.queue 0).vf = some 0 ∧
      (s.queue 0).unread = [{ bytes := some header }] ∧ headerBad header = false ∧ (s.planeDesc 0 0).byteOf (vaPos 0) % 64 = 0 ∧
      s.tableBad 0 0x100 1 = false ∧ s.recAt 0 0x100 0 = 0x100 ∧ swState (s.imageNat 0x6100 8) = st) : accepts s st :=
  ⟨h', fun _ _ => ⟨lies (a := 0x100) h (by decide) _ _, lies (a := 0x100) h (by decide) _ _⟩⟩

/-- The same with a WAITING record on event 5, which has three waiters. -/
def waitingLaunch : State :=
  { launching header 0 with mem := tables ++ [(0x6100, 0), (0x6128, 5), (0x6135, 1), (0x6144, 100)],
                            events := [(5, { slots := List.replicate 3 (.task 9 9) })] }

theorem witness_LaunchesAndDispatch :
    (∃ s : State, s.ready = true ∧ (s.queue 0).st = .mapped ∧ (s.queue 0).doomed = [] ∧ (s.queue 0).vf = some 0 ∧
      (s.queue 0).unread = [{ bytes := some (List.replicate 64 0) }] ∧
      headerBad (List.replicate 64 0) = true ∧ leAt (List.replicate 64 (0 : Byte)) 20 2 = 0) ∧
    (∃ s : State, s.ready = true ∧ (s.queue 0).st = .mapped ∧ (s.queue 0).doomed = [] ∧ (s.queue 0).vf = some 0 ∧ (s.queue 0).unread = [{ bytes := some header }] ∧
      headerBad header = false ∧ (s.planeDesc 0 0).byteOf (vaPos 0) % 64 = 0 ∧ s.tableBad 0 (BitVec.ofNat 64 (leAt header 0 8)) 1 = false ∧
      leAt header 8 4 = 1 ∧ (∀ r w, LiesAt s 0 (s.recAt 0 (BitVec.ofNat 64 (leAt header 0 8)) 0) ⟨r, w⟩ 128 0x6100) ∧
      (∀ r w, LiesAt s 0 (s.recAt 0 (BitVec.ofNat 64 (leAt header 0 8)) 0) ⟨r, w⟩ 8 0x6100) ∧ swState (s.imageNat 0x6100 8) = 1 ∧
      recordMalformed (leBytes 8 (swAccept (s.imageNat 0x6100 8) s.module.devId (bitAt (leAt header 19 1) 0)) ++ (s.imageBytes 0x6100 128).drop 8) = false) ∧
    -- a header not yet read; a WAITING record with an event that is not satisfied; a STOLEN one
    (∃ s : State, s.ready = true ∧ (s.queue 0).st = .mapped ∧ (s.queue 0).doomed = [] ∧ (s.queue 0).vf = some 0 ∧
      (s.queue 0).unread = [{ va := 0x200 }] ∧ LiesAt s 0 0x200 .read 64 0x6200 ∧ headerBad (s.imageBytes 0x6200 64) = false ∧
      leAt (s.imageBytes 0x6200 64) 0 8 = 0x100 ∧ leAt (s.imageBytes 0x6200 64) 8 4 = 1) ∧
    (∃ s : State, accepts s 0 ∧ (waitNames (s.imageBytes 0x6100 128)).filter (· != 0) = [5] ∧ (s.event 0 5).failed = false ∧
      (s.event 0 5).count < (s.event 0 5).target ∧ (s.event 0 5).slots.length = 3 ∧ LogOk s ∧
      LiesAt (swapped s 0x6100 (swAccept 0 s.module.devId false)) 0 0x100 .read 128 0x6100) ∧
    (∃ s : State, accepts s 4) ∧
    (∃ s : State, s.launch 0 = some {} ∧ s.findTk 0 0 = some { st := .ready, addr := 0x100, group := some 0 } ∧ s.mayDispatch 0 = true ∧
      (∀ c ∈ [5], c / 8 = 5 / 8 ∧ s.coreFree 0 (s.part (s.tenant 0).part).desc c = true) ∧
      s.isFirst { st := .ready, addr := 0x100, group := some 0 } (s.tenant 0).part (5 / 8) = true ∧
      (∀ r w, LiesAt s 0 0x100 ⟨r, w⟩ 128 0x6100) ∧ swState (s.imageNat 0x6100 8) = 1) := by
  refine ⟨⟨launching (List.replicate 64 0) 1, by decide⟩,
    ⟨launching header 1, by decide, by decide, by decide, by decide, by decide, by decide, by decide +kernel, by decide +kernel, by decide,
      fun r w => ?_, fun r w => ?_, by decide +kernel, by decide +kernel⟩,
    ⟨{ launching header 1 with mem := tables ++ recordCells 1 ++ cellsFrom 0x6200 header,
                               queues := [(0, { vf := some 0, enabled := true, st := .mapped, unread := [{ va := 0x200 }] })] },
      by decide, by decide, by decide, by decide, by decide, lies (a := 0x200) (by decide +kernel) (by decide) _ _, by decide +kernel⟩,
    ⟨waitingLaunch, accepts_of _ _ (by decide +kernel) (by decide +kernel), by decide +kernel, by decide +kernel, by decide +kernel, by decide +kernel,
      logOk_empty rfl, lies (a := 0x100) (by decide +kernel) (by decide) _ _⟩,
    ⟨launching header 4, accepts_of _ _ (by decide +kernel) (by decide +kernel)⟩,
    ⟨tasked { st := .ready, group := some 0 } 1, by decide, by decide, by decide, by decide, by decide +kernel,
      fun r w => lies (a := 0x100) (by decide +kernel) (by decide) r w, by decide +kernel⟩⟩
  · have h := lies (s := launching header 1) (by decide +kernel) (a := 0x100) (n := 128) (by decide) r w
    have e : (launching header 1).recAt 0 (BitVec.ofNat 64 (leAt header 0 8)) 0 = BitVec.ofNat 64 0x100 := by decide +kernel
    rw [e]; exact h
  · have h := lies (s := launching header 1) (by decide +kernel) (a := 0x100) (n := 8) (by decide) r w
    have e : (launching header 1).recAt 0 (BitVec.ofNat 64 (leAt header 0 8)) 0 = BitVec.ofNat 64 0x100 := by decide +kernel
    rw [e]; exact h

/-- The same with a team of core 0 that runs it, its contexts ended. -/
def ending (tm : Team) : State :=
  let v : Ctx := { run := .ended }
  { tasked { st := .running } 2 with
    cores := [(0, { team := 1, ctl := v, ld := v, cmp := v, st := v })],
    teams := [(1, { tm with addr := 0x100, cores := [0], bytes := [2] ++ List.replicate 127 0 })], time := 10 }

theorem ending_lies (tm : Team) (n : Nat) (h : n ≤ 128) (r w : Bool) : LiesAt (ending tm) 0 0x100 ⟨r, w⟩ n 0x6100 := by
  have k : tablesOk (working (recordCells 2)) = true := by decide +kernel
  have k' : tablesOk (ending tm) = true := k
  exact lies (a := 0x100) k' (by omega) r w

/-- A stolen task's end can be signalled to its owner: this device, no event named, or one that a link leads to. -/
def hearsNow (s : State) (tm : Team) (owner : Nat) : Bool :=
  decide (owner = s.module.devId ∨ (leAt tm.bytes 48 2 = 0 ∧ leAt tm.bytes 50 2 = 0)) || s.canSend tm.vf owner

/-- The same team, its record naming event 5 for its end. -/
def signalling (tm : Team) : State :=
  { ending tm with teams := [(1, { tm with addr := 0x100, cores := [0], bytes := [2] ++ List.replicate 47 0 ++ [5] ++ List.replicate 79 0 })] }

theorem witness_TasksEnd :
    (∃ s : State, let tm := s.teamAt 1
      tm.stolen = none ∧ tm.cores ≠ [] ∧ (∀ c ∈ tm.cores, s.memberOver 2 c = true) ∧
      s.findTk tm.launch tm.idx = some { st := .running, addr := 0x100 } ∧ LiesAt s tm.vf tm.addr .both 8 0x6100 ∧
      s.imageNat 0x6100 8 = leAt tm.bytes 0 8 ∧ tm.start + 1000 * leAt tm.bytes 68 4 < s.time) ∧
    (∃ s : State, let tm := s.teamAt 1
      tm.stolen = some ⟨1, [], [], 2, false⟩ ∧ hearsNow s tm 1 = true ∧ tm.failed = none ∧ tm.cores ≠ [] ∧ (∀ c ∈ tm.cores, s.memberOver 3 c = true) ∧
      s.findTk tm.launch tm.idx = some { st := .running, addr := 0x100 } ∧ LiesAt s tm.vf tm.addr .both 8 0x6100 ∧
      s.imageNat 0x6100 8 = leAt tm.bytes 0 8) ∧
    (∃ s : State, let tm := s.teamAt 1
      tm.stolen = some ⟨1, [], [], 2, false⟩ ∧ hearsNow s tm 1 = false) ∧
    (∃ s : State, let tm := s.teamAt 1
      let s1 := s.writeDevice (cellsFrom (0x6100 + 72) (leBytes 4 9))
      tm.stolen = some ⟨1, [], [], 2, false⟩ ∧ hearsNow s tm 1 = true ∧ tm.failed = some 9 ∧
      s.findTk tm.launch tm.idx = some { st := .running, addr := 0x100 } ∧ LiesAt s tm.vf (s.recAt tm.vf tm.addr 72) .write 4 (0x6100 + 72) ∧
      LiesAt s1 tm.vf tm.addr .both 8 0x6100 ∧ s1.imageNat 0x6100 8 = leAt tm.bytes 0 8) ∧
    (∃ s : State, let t : Tk := { st := .away, addr := 0x100 }
      s.findTk 0 0 = some t ∧ t.st = .away ∧ s.tkVf t = 0 ∧ LiesAt s 0 t.addr .read 128 0x6100 ∧ leAt (s.imageBytes 0x6100 128) 0 8 % 16 = 4 ∧
      t.since + 1000 * leAt (s.imageBytes 0x6100 128) 68 4 + s.module.fabricTimeout < s.time ∧
      LiesAt s 0 (s.recAt 0 t.addr 72) .write 4 (0x6100 + 72) ∧
      let s1 := s.writeDevice (cellsFrom (0x6100 + 72) (leBytes 4 8))
      LiesAt s1 0 t.addr .both 8 0x6100 ∧ s1.imageNat 0x6100 8 = leAt (s.imageBytes 0x6100 128) 0 8) ∧
    (∃ s : State, let t : Tk := { st := .ready, addr := 0x100 }
      s.tasks.filter (fun k => k.launch == 0) = [t] ∧ s.findTk 0 0 = some t ∧ s.launch 0 = some {} ∧ swState (s.imageNat 0x6100 8) = 1 ∧
      LiesAt s 0 t.addr .read 128 0x6100 ∧ LiesAt s 0 t.addr .both 8 0x6100) ∧
    (∃ s : State, let t : Tk := { st := .waiting, addr := 0x100 }
      s.tasks.filter (fun k => k.launch == 0) = [t] ∧ s.findTk 0 0 = some t ∧ s.launch 0 = some {} ∧ swState (s.imageNat 0x6100 8) = 0 ∧
      LiesAt s 0 t.addr .read 128 0x6100 ∧ LiesAt s 0 t.addr .both 8 0x6100) ∧
    (∃ s : State, (s.coreAt 0).team = 0 ∧ (s.coreAt 0).lastVf = some 5 ∧ (s.tenant 5).slice = false) := by
  refine ⟨⟨ending {}, by decide, by decide, by decide, by decide, ending_lies _ 8 (by decide) _ _, by decide +kernel, by decide⟩,
    ⟨ending { stolen := some ⟨1, [], [], 2, false⟩ }, by decide, by decide, by decide, by decide, by decide, by decide,
      ending_lies _ 8 (by decide) _ _, by decide +kernel⟩,
    ⟨signalling { stolen := some ⟨1, [], [], 2, false⟩ }, by decide, by decide⟩,
    ⟨ending { stolen := some ⟨1, [], [], 2, false⟩, failed := some 9 }, by decide, by decide, by decide, by decide, ?_,
      lies (a := 0x100) (by decide +kernel) (by decide) _ _, by decide +kernel⟩,
    ⟨{ tasked { st := .away } 4 with time := 50100001 }, by decide, by decide, by decide,
      lies (a := 0x100) (by decide +kernel) (by decide) _ _, by decide +kernel, by decide +kernel, ?_,
      lies (a := 0x100) (by decide +kernel) (by decide) _ _, by decide +kernel⟩,
    ⟨tasked { st := .ready } 1, by decide, by decide, by decide, by decide +kernel, lies (a := 0x100) (by decide +kernel) (by decide) _ _,
      lies (a := 0x100) (by decide +kernel) (by decide) _ _⟩,
    ⟨tasked { st := .waiting } 0, by decide, by decide, by decide, by decide +kernel, lies (a := 0x100) (by decide +kernel) (by decide) _ _,
      lies (a := 0x100) (by decide +kernel) (by decide) _ _⟩, ⟨{ cores := [(0, { lastVf := some 5 })] }, by decide⟩⟩
  · have h := lies (s := ending { stolen := some ⟨1, [], [], 2, false⟩, failed := some 9 }) (by decide +kernel) (a := 0x148) (n := 4)
      (by decide) false true
    have e : (ending { stolen := some ⟨1, [], [], 2, false⟩, failed := some 9 }).recAt 0 0x100 72 = BitVec.ofNat 64 0x148 := by decide +kernel
    exact e ▸ h
  have h := lies (s := { tasked { st := .away } 4 with time := 50100001 }) (by decide +kernel) (a := 0x148) (n := 4) (by decide) false true
  have e : ({ tasked { st := .away } 4 with time := 50100001 } : State).recAt 0 0x100 72 = BitVec.ofNat 64 0x148 := by decide +kernel
  rw [e]; exact h

/-! ### Witnesses: frames, leases, the fabric -/

/-- The page of `tables` with another entry, an access parked on it, and lines allotted in the main tier. -/
def paging (cells : List Host.Cell) (write : Bool) (allot : Nat) : State :=
  { mem := tables.take 13 ++ cells, parks := [{ core := none, vf := 0, va := 8, write := write }], tenants := atZero { mainAllot := allot } }

/-- A frame for it, beyond the descriptor table's mebibyte. -/
def grant : FrameGrant := ⟨0x200000, false⟩

/-- Memory is in its canonical form, and frame `grant` may be taken for the page. -/
def pageFree (s : State) : Bool := s.mem.wf && s.grantOk 0 grant 4096 64 (placeSecond (s.planeDesc 0 8).place (vaPos 8 / 2 ^ 12))

/-- The page's entry names `grant`'s frame. -/
def granted : State := paging [(0x5001, 0x80), (0x5007, 0x30)] true 64

theorem memoryOk_of {s : State} (h : s.mem.wf = true) (h' : s.log = []) : MemoryOk s := ⟨h, logOk_empty h'⟩

theorem witness_FramesAndTables :
    (∃ s : State, MemoryOk s ∧ s.entryOf 0 8 = some (2 ^ 60, 12) ∧ s.entryWaits 0 8 = false ∧ peState (2 ^ 60) = 0 ∧ peSk (2 ^ 60) = false ∧
      s.parkedOn 0 8 12 true = true ∧ pageFree s = true) ∧
    (∃ s : State, MemoryOk s ∧ s.entryOf 0 8 = some (2 ^ 60, 12) ∧ s.entryWaits 0 8 = false ∧ s.parkedOn 0 8 12 true = true ∧
      s.noRoom 0 4096 = true) ∧
    (∃ s : State, MemoryOk s ∧ s.entryOf 0 8 = some (2 ^ 63, 12) ∧ s.entryWaits 0 8 = false ∧ peState (2 ^ 63) = 4 ∧ peSk (2 ^ 63) = false ∧
      s.parkedOn 0 8 12 false = true ∧ s.moves = [] ∧ pageFree s = true) ∧
    (∃ s : State, MemoryOk s ∧ s.entryOf 0 8 = some (2 ^ 63, 12) ∧ s.entryWaits 0 8 = false ∧ s.parkedOn 0 8 12 false = true ∧ s.moves = [] ∧
      s.noRoom 0 4096 = true) ∧
    (∃ s : State, MemoryOk s ∧ s.entryOf 0 8 = some (2 ^ 59, 12) ∧ s.entryWaits 0 8 = false ∧ peSk (2 ^ 59) = true) ∧
    (∃ s : State, MemoryOk s ∧ s.entryOf 0 8 = some (3 * 2 ^ 60 + 0x180, 12) ∧ s.entryWaits 0 8 = false ∧ peState (3 * 2 ^ 60 + 0x180) = 1 ∧
      s.leases = []) ∧
    (∃ s : State, MemoryOk s ∧ s.entryOf 0 8 = some (3 * 2 ^ 60 + 0x180, 12) ∧ s.entryWaits 0 8 = false ∧
      ∃ l ∈ s.leases, l.2.st ≠ .free ∧ meets (field (3 * 2 ^ 60 + 0x180) 0 48 * 64) 4096 (4096 * l.2.base) (4096 * l.2.len) = true) ∧
    (∃ s : State, MemoryOk s ∧ s.entryOf 0 8 = some (7 * 2 ^ 60, 12) ∧ s.entryWaits 0 8 = false ∧ peState (7 * 2 ^ 60) = 3) ∧
    (∃ s : State, MemoryOk s ∧ s.entryOf 0 8 = some (2 ^ 63, 12) ∧ s.entryWaits 0 8 = false ∧
      s.moves.find? (fun m => m.vf == 0 && m.va == 8) = some ⟨0, 8, 0⟩ ∧ peState (2 ^ 63) = 4 ∧ s.quietPage 0 8 12 = true ∧
      s.moveOk ⟨0, 8, 0⟩ grant 4096 = true) ∧
    (∃ s : State, MemoryOk s ∧ s.entryOf 0 8 = some (3 * 2 ^ 60 + 0x8000, 12) ∧ s.entryWaits 0 8 = false ∧
      s.entryAllowed 0 (3 * 2 ^ 60 + 0x8000) (2 ^ 61 + 0x8000) 4096 = true ∧ s.movingPage 0 8 12 = false ∧
      field (3 * 2 ^ 60 + 0x8000) 0 48 = field (2 ^ 61 + 0x8000) 0 48 ∧
      peState (2 ^ 61 + 0x8000) = 1 ∧ peSk (2 ^ 61 + 0x8000) = false ∧ s.ownRange 0 0x200000 4096 false = true) ∧
    (∃ s : State, MemoryOk s ∧ s.entryOf 0 8 = some (3 * 2 ^ 60 + 0x8000, 12) ∧ s.entryWaits 0 8 = false ∧
      s.entryAllowed 0 (3 * 2 ^ 60 + 0x8000) (2 ^ 61 + 0x8000) 4096 = true ∧ s.movingPage 0 8 12 = false ∧
      s.ownRange 0 0x200000 4096 false = false) ∧
    (∃ s : State, MemoryOk s ∧ s.entryOf 0 8 = some (5 * 2 ^ 61, 12) ∧ s.entryWaits 0 8 = false ∧ peState (5 * 2 ^ 61) = 5 ∧
      peState (2 ^ 61) ≠ 0 ∧ peSk (2 ^ 60 + 2 ^ 59) = true ∧ peWr (2 ^ 60 + 2 ^ 59) = true) ∧
    (grant.addr % 64 = 0 ∧ grant.addr < 2 ^ 42) ∧
    (∃ s : State, MemoryOk s ∧ s.missingAt (vaPos 8) 3 (s.descRoot 0 8) = some (0x4000, 0) ∧ s.parkedOn 0 8 12 true = true ∧
      s.grantOk 0 grant 128 128 false = true ∧ s.mustWait 0x4000 = false ∧ (s.tenant 0).tableBase ≠ none) ∧
    (∃ s : State, MemoryOk s ∧ s.frameFree 0 ⟨2 ^ 20, true⟩ (2 ^ 20) 64 = true ∧ s.deviceRoom (some true) (2 ^ 14) = true) ∧
    (∃ (s : State) (bytes : List Byte), MemoryOk s ∧ (s.tenant 0).tableBase = some 0 ∧ bytes.length = 256 ∧ s.descAllowed 0 bytes = true ∧
      s.rangeWaits (256 * 4095) 256 = false) ∧
    (∃ s : State, MemoryOk s ∧ (s.tenant 0).tableBase = none) ∧
    (∃ s : State, MemoryOk s ∧ s.grantOk 0 grant 4096 4096 false = true) ∧
    (∃ s : State, MemoryOk s ∧ s.tableSlot (vaPos 8) 0 3 (s.descRoot 0 8) = some 0x4000 ∧ s.tableSlot (vaPos 8) 3 3 (s.descRoot 0 8) = some 0x1000 ∧
      s.descValid 0 8 = true ∧ s.linkAllowed 0 (2 ^ 63 + 0x4000) = true ∧ s.mustWait 0x4000 = false) ∧
    (∃ s : State, MemoryOk s ∧ s.frameFree (1025 + 15) grant 64 64 = true ∧ s.deviceRoom (some grant.second) (linesIn 64) = true) ∧
    (∃ s : State, MemoryOk s ∧ s.ownRange 0 0x200000 65536 false = true) := by
  refine ⟨⟨paging [(0x5007, 0x10)] true 64, memoryOk_of (by decide) rfl, by decide +kernel⟩,
    ⟨paging [(0x5007, 0x10)] true 63, memoryOk_of (by decide) rfl, by decide +kernel⟩,
    ⟨paging [(0x5007, 0x80)] false 64, memoryOk_of (by decide) rfl, by decide +kernel⟩,
    ⟨paging [(0x5007, 0x80)] false 63, memoryOk_of (by decide) rfl, by decide +kernel⟩,
    ⟨paging [(0x5007, 0x08)] true 64, memoryOk_of (by decide) rfl, by decide +kernel⟩,
    ⟨plain [], memoryOk_of (by decide) rfl, by decide +kernel⟩,
    ⟨{ plain [] with leases := [(7, ⟨.active, 9, 100, false, 6, 1, 0, some 0⟩)] }, memoryOk_of (by decide) rfl, by decide +kernel⟩,
    ⟨paging [(0x5007, 0x70)] true 64, memoryOk_of (by decide) rfl, by decide +kernel⟩,
    ⟨{ paging [(0x5007, 0x80)] false 64 with moves := [⟨0, 8, 0⟩] }, memoryOk_of (by decide) rfl, by decide +kernel⟩,
    ⟨{ granted with frames := [⟨0x200000, 64, 0, false, false⟩] }, memoryOk_of (by decide) rfl, by decide +kernel⟩,
    ⟨granted, memoryOk_of (by decide) rfl, by decide +kernel⟩,
    ⟨paging [(0x5007, 0xA0)] false 64, memoryOk_of (by decide) rfl, by decide +kernel⟩, by decide,
    ⟨{ paging [] true 2 with mem := tables.take 11 }, memoryOk_of (by decide) rfl, by decide +kernel⟩,
    ⟨{ tenants := [(1, { tableBase := some (2 ^ 21) })] }, memoryOk_of rfl rfl, by decide +kernel⟩,
    ⟨{ tenants := atZero }, List.replicate 256 0, memoryOk_of rfl rfl, by decide +kernel⟩,
    ⟨{}, memoryOk_of rfl rfl, by decide⟩,
    ⟨paging [] true 64, memoryOk_of (by decide) rfl, by decide +kernel⟩,
    ⟨{ plain [] with frames := [⟨0x200000, 2, 0, false, true⟩] }, memoryOk_of (by decide) rfl, by decide +kernel⟩,
    ⟨{}, memoryOk_of rfl rfl, by decide +kernel⟩, ⟨{ frames := [⟨0x200000, 1024, 0, false, false⟩] }, memoryOk_of (by decide) (by decide), by decide +kernel⟩⟩

/-- Device 9 is reached by port 17, whose link is up. -/
def linked (permit : List Nat := [0]) (s : State := {}) : State :=
  { s with ports := [(17, { permit := permit })], routes := [(9, [17])], module := { s.module with avdexLink := true } }

/-- A device with lease 7 as given, lent to device 9. -/
def lending (st : LeaseSt) (rdonly : Bool := false) (peer : Option Nat := none) (permit : List Nat := [0]) : State :=
  linked permit { leases := [(7, ⟨st, 9, 100, rdonly, 8, 4, 0, peer⟩)], time := 100000 }

/-- A device that borrows lease 7 of device 9. -/
def borrowing (st : LeaseSt) (permit : List Nat := [0]) : State := linked permit { borrows := [⟨9, 7, st, 8, 4, 0, []⟩], time := 100000 }

/-- A message of the lease protocol can leave for device 9, and one of device 9 is heard. -/
def speaks (s : State) : Bool := s.portUp (s.routeTo 9) || (s.port (s.routeTo 9)).fenced
def hears (s : State) : Bool := s.portUp (s.routeTo 9) && (s.port (s.routeTo 9)).permit.contains 0

/-- A REMOTE entry that names lease 7 of device 9. -/
def movedEntry : Nat := 3 * 2 ^ 61 + 9 * 2 ^ 42 + 7 * 2 ^ 34

theorem noEntries (s : State) (h3 : s.tenants = []) (h4 : s.moves = []) (lender lease : Nat) :
    (∀ x ∈ s.allEntries, namesLease x.e lender lease = false) ∧ ∀ m ∈ s.moves, namesLease m.old.toNat lender lease = false := by
  constructor
  · simp [State.allEntries, h3]
  · simp [h4]

theorem witness_Leases :
    (∃ s : State, speaks s = true ∧ s.portUp (s.routeTo 9) = false) ∧
    (∃ s : State, (s.lease 7).st = .free ∧ 4096 * 1 * 1000 ≤ 2 ^ 26 * 100 ∧ 4096 * (2 ^ 30 - 1 + 1) ≤ 2 ^ 42 ∧ speaks s = true ∧
      s.shared = [(0x5000, 64, 0)] ∧ s.retired = [(0x6000, 64)] ∧ s.tenants = [(0, {}), (1, { tableBase := some 0 })] ∧
      s.frames = [⟨0x7000, 64, 0, false, true⟩] ∧
      let apart (a m : Nat) : Prop := meets (4096 * (2 ^ 30 - 1)) (4096 * 1) a m = false
      (∀ e ∈ s.leases, e.2.st = .free ∨ apart (4096 * e.2.base) (4096 * e.2.len)) ∧ (∀ r ∈ s.shared, apart r.1 r.2.1) ∧
      (∀ r ∈ s.retired, apart r.1 r.2) ∧ (∀ e ∈ s.tenants, ∀ b, e.2.tableBase = some b → apart b (2 ^ 20)) ∧
      (∀ f ∈ s.frames, apart f.addr (64 * f.len)) ∧ s.peerOf (2 ^ 30 - 1) 1 = none ∧
      s.offFenced (4096 * (2 ^ 30 - 1)) (4096 * 1) (Config.lentSecond (2 ^ 30 - 1)) = true ∧ s.deviceRoom none (64 * 1) = true) ∧
    (∃ s : State, (s.lease 7).st = .free ∧ 4096 * 1 * 1000 ≤ 2 ^ 26 * 100 ∧ 4096 * (6 + 1) ≤ 2 ^ 42 ∧ speaks s = true ∧ s.peerOf 6 1 = some 0) ∧
    (∃ s : State, (s.lease 7).st = .offered ∧ hears s = true ∧ (s.lease 7).peer = none ∧ s.lentWaits (1041 + 7) 7 = false ∧
      s.time < (s.lease 7).since + 10000000) ∧
    (∃ s : State, (s.lease 7).st = .offered ∧ hears s = true ∧ (s.lease 7).peer ≠ none) ∧
    (∃ s : State, (s.lease 7).st = .offered ∧ hears s = false ∧ (s.lease 7).since + 10000000 = s.time) ∧
    (∃ s : State, (s.lease 7).st = .active ∧ hears s = true ∧ speaks s = true ∧ s.lentWaits 0 7 = false) ∧
    (∃ s : State, (s.lease 7).st = .active ∧ hears s = false ∧ speaks s = true) ∧
    (∃ s : State, (s.lease 7).st = .active ∧ hears s = false ∧ speaks s = false) ∧
    (∃ s : State, (s.lease 7).st = .reclaiming ∧ hears s = true ∧ s.lentWaits 0 7 = false ∧
      (s.lease 7).since + 1000 * (s.lease 7).deadline = s.time) ∧
    (∃ s : State, (s.lease 7).st = .reclaiming ∧ hears s = false) ∧
    (∃ s : State, (s.lease 7).st = .frozen ∧ hears s = true ∧ speaks s = true ∧ s.lentWaits 0 7 = false ∧
      (s.lease 7).since + 1000 * (s.lease 7).deadline = s.time) ∧
    (∃ s : State, (s.lease 7).st = .revoked ∧ (s.lease 7).since + s.module.fabricTimeout = s.time ∧ s.lentWaits 0 7 = false) ∧
    (∃ s : State, (s.lease 7).st = .revoked ∧ s.time < (s.lease 7).since + s.module.fabricTimeout) ∧
    (∃ s : State, 9 ≠ s.module.devId ∧ s.borrow 9 7 = none ∧ s.borrows.length < 256 ∧ hears s = true) ∧
    (∃ s : State, 9 ≠ s.module.devId ∧ s.borrow 9 7 = none ∧ s.borrows.length = 256 ∧ hears s = true) ∧
    (∃ s : State, 9 ≠ s.module.devId ∧ s.borrow 9 7 = none ∧ hears s = false) ∧
    (∃ (s : State) (b : Borrow), 9 ≠ s.module.devId ∧ s.borrow 9 7 = some b ∧ b.st = .active ∧ speaks s = true ∧ hears s = true ∧
      (∀ x ∈ s.allEntries, namesLease x.e 9 7 = false) ∧ ∀ m ∈ s.moves, namesLease m.old.toNat 9 7 = false) ∧
    (∃ (s : State) (b : Borrow), 9 ≠ s.module.devId ∧ s.borrow 9 7 = some b ∧ b.st = .active ∧ hears s = false ∧
      ¬ ∀ m ∈ s.moves, namesLease m.old.toNat 9 7 = false) ∧
    (∃ (s : State) (b : Borrow), 9 ≠ s.module.devId ∧ s.borrow 9 7 = some b ∧ b.st ≠ .active ∧ b.moved = [] ∧ s.evictAll 9 7 [] = some s ∧
      speaks s = true ∧ hears s = true ∧ s.parks = [] ∧
      (∀ x ∈ s.allEntries, namesLease x.e 9 7 = false) ∧ ∀ m ∈ s.moves, namesLease m.old.toNat 9 7 = false) ∧
    (∃ (s : State) (b : Borrow), s.borrow 9 7 = some b ∧ b.st ≠ .active ∧ s.evictAll 9 7 [] = some s ∧ speaks s = true ∧
      ¬ ∀ m ∈ s.moves, namesLease m.old.toNat 9 7 = false) ∧
    (∃ (s : State) (b : Borrow), s.borrow 9 7 = some b ∧ b.st ≠ .active ∧ speaks s = false) := by
  refine ⟨⟨{ ports := [(17, { fenced := true })], routes := [(9, [17])] }, by decide⟩,
    ⟨{ lending .free with shared := [(0x5000, 64, 0)], retired := [(0x6000, 64)], tenants := [(0, {}), (1, { tableBase := some 0 })],
                          frames := [⟨0x7000, 64, 0, false, true⟩] },
      by decide, by decide, by decide, by decide, rfl, rfl, rfl, rfl, by decide, by decide, by decide, by decide +kernel, by decide, by decide +kernel, ?_, by decide +kernel⟩,
    ⟨linked [0] { plain [] with tenants := [(0, { word := BitVec.ofNat 64 (2 ^ 26) })] }, by decide, by decide, by decide, by decide, by decide +kernel⟩,
    ⟨lending .offered, by decide⟩, ⟨lending .offered false (some 0), by decide⟩, ⟨{ lending .offered (permit := []) with time := 10000000 }, by decide⟩,
    ⟨lending .active, by decide⟩, ⟨lending .active (permit := []), by decide⟩, ⟨{ lending .active with routes := [] }, by decide⟩,
    ⟨lending .reclaiming, by decide⟩, ⟨lending .reclaiming (permit := []), by decide⟩, ⟨lending .frozen, by decide⟩,
    ⟨{ lending .revoked with time := 50000000 }, by decide⟩, ⟨lending .revoked, by decide⟩, ⟨linked, by decide⟩,
    ⟨linked [0] { borrows := List.replicate 256 ⟨0, 0, .active, 0, 0, 0, []⟩ }, by decide +kernel⟩, ⟨linked [], by decide⟩,
    ⟨borrowing .active, ⟨9, 7, .active, 8, 4, 0, []⟩, by decide, by decide, rfl, by decide, by decide, noEntries _ rfl rfl 9 7⟩,
    ⟨{ borrowing .active [] with moves := [⟨0, 8, BitVec.ofNat 64 movedEntry⟩] }, ⟨9, 7, .active, 8, 4, 0, []⟩, by decide, by decide, rfl, by decide, by decide⟩,
    ⟨borrowing .reclaiming, ⟨9, 7, .reclaiming, 8, 4, 0, []⟩, by decide, by decide, by decide, rfl, rfl, by decide, by decide, rfl, noEntries _ rfl rfl 9 7⟩,
    ⟨{ borrowing .reclaiming with moves := [⟨0, 8, BitVec.ofNat 64 movedEntry⟩] }, ⟨9, 7, .reclaiming, 8, 4, 0, []⟩, by decide, by decide, rfl, by decide, by decide⟩,
    ⟨{ borrowing .reclaiming with routes := [] }, ⟨9, 7, .reclaiming, 8, 4, 0, []⟩, by decide⟩⟩
  simp [State.offFenced, lending, linked]

/-- What the access of a lent line asks, up to its state and its writability. -/
def lentAt (s : State) (addr : Nat) : Bool :=
  let l := s.lease 7
  let a := addr / 64 * 64
  decide (l.borrower = 9 ∧ (l.st = .active ∨ l.st = .reclaiming ∨ l.st = .frozen) ∧ 4096 * l.base ≤ a ∧ a + 64 ≤ 4096 * (l.base + l.len))

/-- Some byte of the line is lost; some byte waits for a read, or for a write, by its channel or its counters. -/
def lostAt (s : State) (addr : Nat) : Bool := (List.range 64).any (fun i => s.lentLost 7 (addr / 64 * 64 + i))
def waitsAt (s : State) (addr : Nat) (wr : Bool) : Bool :=
  (List.range 64).any (fun i => (s.lentMain 7 (addr / 64 * 64 + i) && s.channelWaits (addr / 64 * 64 + i)) || (wr && s.mustWait (addr / 64 * 64 + i)))

/-- The device that lends, its port 17 permitting tag 5, and function 0 in a partition of that tag. -/
def lendingBy (st : LeaseSt) (rdonly : Bool := false) : State :=
  { lending st rdonly (some 0) [5] with tenants := atZero { word := BitVec.ofNat 64 (0x10000 + 3 * 2 ^ 26) },
                                        frames := [⟨0x8000, 256, 0, false, false⟩], parts := [(0, ⟨{ tag := 5, flags := 1 }, none⟩)] }

/-- Such a device with a task whose record lies at 0x6000. -/
def taskAt : State :=
  { lendingBy .active with mem := tables, frames := [pageFrame], leases := [], launches := [{}], tasks := [{}] }

/-- The port works. -/
def portWorks (s : State) (port : Nat) : Bool :=
  decide (port < 18) && s.module.avdexLink && !(s.port port).fenced && !(s.port port).retrain

/-- A request sent at time 0. -/
def asked (sent : Nat := 0) : Fwd := { dev := 3, lease := 9, addr := 0, sent := sent }

theorem witness_FabricAndLinks :
    (∃ s : State, LogOk s ∧ portWorks s 17 = true ∧ 5 ∈ (s.port 17).permit ∧ lentAt s 0xBFFF = true ∧ lostAt s 0xBFFF = false ∧
      waitsAt s 0xBFFF true = false ∧ (s.lease 7).rdonly = false ∧ (s.lease 7).st ≠ .frozen ∧ s.functionOf 3 5 = some 0 ∧
      s.functionOf 4 5 = none ∧ s.launchAt 0 s.module.devId 0 = none ∧ s.ownBarrier 0 0x8000 = false) ∧
    (∃ s : State, LogOk s ∧ portWorks s 17 = true ∧ 5 ∈ (s.port 17).permit ∧ s.functionOf 3 5 = some 0 ∧
      (s.launchAt 0 s.module.devId 0x6000).isSome = true) ∧
    (∃ s : State, LogOk s ∧ portWorks s 17 = true ∧ 5 ∈ (s.port 17).permit ∧ lentAt s 0x8000 = true ∧ lostAt s 0x8000 = false ∧
      waitsAt s 0x8000 true = true ∧ (s.lease 7).rdonly = false ∧ (s.lease 7).st ≠ .frozen) ∧
    (∃ s : State, LogOk s ∧ portWorks s 17 = true ∧ 5 ∈ (s.port 17).permit ∧ lentAt s 0x8000 = true ∧ (s.lease 7).rdonly = true) ∧
    (∃ s : State, LogOk s ∧ portWorks s 17 = true ∧ 5 ∈ (s.port 17).permit ∧ lentAt s 0x8000 = true ∧ (s.lease 7).rdonly = false ∧
      (s.lease 7).st = .frozen) ∧
    (∃ s : State, LogOk s ∧ portWorks s 17 = true ∧ 5 ∈ (s.port 17).permit ∧ lentAt s 0x8000 = true ∧ 0x8000 / 64 ∈ s.badLines ∧
      lostAt s 0x8000 = true ∧ (s.lease 7).rdonly = false ∧ (s.lease 7).st ≠ .frozen) ∧
    (∃ s : State, LogOk s ∧ portWorks s 17 = true ∧ 5 ∈ (s.port 17).permit ∧ lentAt s 0xC000 = false ∧ lentAt s 0x7FFF = false) ∧
    (∃ s : State, LogOk s ∧ portWorks s 17 = true ∧ 6 ∉ (s.port 17).permit ∧ isTransit (.event 0 false) = false) ∧
    (∃ s : State, LogOk s ∧ portWorks s 0 = true ∧ 0 ∈ (s.port 0).permit ∧ portWorks s 17 = true ∧ 0 ∈ (s.port 17).permit) ∧
    (∃ s : State, LogOk s ∧ portWorks s 0 = true ∧ 0 ∈ (s.port 0).permit ∧ (s.port 17).fenced = true ∧ 0 ∉ (s.port 16).permit) ∧
    (∃ s : State, LogOk s ∧ portWorks s 0 = false) ∧
    (∃ (s : State) (o : Op), LogOk s ∧ s.opAt 0 .ld 0 = some o ∧ ∃ f ∈ o.lines, f.ans = .none ∧ f.sent + s.module.fabricTimeout = s.time) ∧
    (∃ (s : State) (o : Op), LogOk s ∧ s.opAt 0 .ld 0 = some o ∧ ¬ ∃ f ∈ o.lines, f.ans = .none ∧ f.sent + s.module.fabricTimeout ≤ s.time) ∧
    (∃ s : State, LogOk s ∧ s.opAt 0 .ld 0 = none ∧
      ∃ f ∈ (s.ctxAt 0 .ld).lines, f.ans = .none ∧ f.sent + s.module.fabricTimeout = s.time) ∧
    (∃ s : State, LogOk s ∧ (s.port 0).retrain = true) ∧
    (∃ s : State, LogOk s ∧ s.routes.get [] 9 = [16, 17] ∧ (s.port 16).fenced = true ∧ (s.port 17).fenced = false) := by
  refine ⟨⟨lendingBy .active, logOk_empty rfl, by decide +kernel⟩, ⟨taskAt, logOk_empty rfl, by decide +kernel⟩,
    ⟨{ lendingBy .active with counters := [(16, { dom := 1, ver := 3, minor := [(0, 4095)], major := 2 ^ 48 - 1 })], domains := [(1, { newest := 3 })] },
      logOk_empty rfl, by decide +kernel⟩,
    ⟨lendingBy .reclaiming true, logOk_empty rfl, by decide +kernel⟩,
    ⟨lendingBy .frozen, logOk_empty rfl, by decide +kernel⟩, ⟨{ lendingBy .active with badLines := [0x200] }, logOk_empty rfl, by decide +kernel⟩,
    ⟨lendingBy .active, logOk_empty rfl, by decide +kernel⟩, ⟨lendingBy .active, logOk_empty rfl, by decide +kernel⟩,
    ⟨{ ports := [(0, { permit := [0] }), (17, { permit := [0] })], module := { avdexLink := true } }, logOk_empty rfl, by decide⟩,
    ⟨{ ports := [(0, { permit := [0] }), (17, { fenced := true })], module := { avdexLink := true } }, logOk_empty rfl, by decide⟩,
    ⟨{ ports := [(0, { fenced := true })] }, logOk_empty rfl, by decide⟩,
    ⟨{ waiting .ld { lines := [asked] } with time := 50000000 }, { lines := [asked] }, logOk_empty rfl, by decide⟩,
    ⟨{ waiting .ld { lines := [asked 1] } with time := 50000000 }, { lines := [asked 1] }, logOk_empty rfl, by decide⟩,
    ⟨{ stCtx .ld { run := .running, lines := [asked] } with time := 50000000 }, logOk_empty rfl, by decide⟩,
    ⟨{ ports := [(0, { retrain := true })] }, logOk_empty rfl, by decide⟩,
    ⟨{ ports := [(16, { fenced := true })], routes := [(9, [16, 17])] }, logOk_empty rfl, by decide⟩⟩

/-! ### Witnesses: partitions, trust, management -/

/-- A valid partition of group 0. -/
def part0 : PartDesc := { cores := 0xFF, tag := 1, flags := 1 }

theorem witness_PartitionsAndTenants :
    (∃ (d : PartDesc) (s : State), descBad d = true ∧ s.descClash 0 d = false) ∧
    (∃ s : State, descBad part0 = false ∧ s.descClash 1 part0 = true) ∧
    (∃ s : State, descBad part0 = false ∧ s.descClash 0 part0 = false ∧ PartDesc.valid (s.part 0).desc = true ∧ s.partBusy 0 = true) ∧
    (∃ s : State, descBad part0 = false ∧ s.descClash 63 part0 = false ∧ s.partBusy 63 = false ∧ (s.part 63).desc ≠ part0) ∧
    (∃ s : State, (s.part 0).held = some part0 ∧ s.descClash 0 part0 = false ∧ s.partBusy 0 = false ∧ (s.part 0).desc ≠ part0) ∧
    (∃ s : State, (s.part 0).held = some part0 ∧ s.descClash 0 part0 = false ∧ s.partBusy 0 = true) ∧
    (∃ (w : Word) (s : State), (s.tenant 1023).en = true ∧ (s.tenant 1023).moves w = true ∧ (s.tenant 1023).frozen = false) ∧
    (∃ (w : Word) (s : State), s.wordRefused 1023 w = false ∧ (s.tenant 1023).shmask = (ofWord w).shmask ∧ (ofWord w).en = true) ∧
    (∃ (r : Lane) (s : State), field r.toNat 11 21 = 0 ∧ s.way 15 ≠ r ∧ (wayExcl r = true → ∀ e ∈ s.tenants, e.1 ≠ wayOwner r → bitAt e.2.ways 15 = false)) ∧
    (∃ s : State, s.tenantOver 0 = false) ∧ (∃ s : State, s.tenantOver 0 = true ∧ (s.coreAt 3).lastVf = some 0) := by
  refine ⟨⟨{}, {}, by decide⟩, ⟨{ parts := [(0, ⟨part0, none⟩)] }, by decide⟩,
    ⟨{ parts := [(0, ⟨part0, none⟩)], teams := [(1, { cores := [0] })] }, by decide⟩, ⟨{}, by decide⟩,
    ⟨{ parts := [(0, ⟨{}, some part0⟩)] }, by decide⟩, ⟨{ parts := [(0, ⟨{}, some part0⟩)], teams := [(1, { cores := [0] })] }, by decide⟩,
    ⟨BitVec.ofNat 64 (2 ^ 48), { tenants := [(1023, { word := 0x10000 })] }, by decide +kernel⟩, ⟨0x10000, {}, by decide +kernel⟩,
    ⟨0x7FF, {}, by decide⟩, ⟨{ launches := [{}] }, by decide⟩, ⟨{ cores := [(3, { lastVf := some 0 })] }, by decide⟩⟩

theorem witness_TrustMessages :
    (∃ s : State, 4 ∈ s.module.sessions ∧ (s.tenant 0).tdispOn = true ∧ (s.tenant 0).tdisp = .unlocked ∧ s.tenantOver 0 = true) ∧
    (∃ s : State, 4 ∈ s.module.sessions ∧ (s.tenant 0).tdispOn = true ∧ (s.tenant 0).tdisp = .locked ∧ s.tenantOver 0 = false ∧ s.queuesOf 0 = []) ∧
    (∃ s : State, 4 ∉ s.module.sessions ∧ s.module.identity = false) ∧
    (∃ s : State, s.module.identity = true ∧ s.measurement 0 3 = some [0] ∧ s.measurement 0 4 = none ∧ 0 ∉ s.module.exchanged) ∧
    (∃ s : State, s.module.identity = true ∧ 4 ∈ s.module.exchanged) := by
  refine ⟨⟨{ module := { sessions := [4] }, tenants := [(0, { tdispOn := true })] }, by decide⟩,
    ⟨{ module := { sessions := [4] }, tenants := [(0, { tdispOn := true, tdisp := .locked })], launches := [{}] }, by decide⟩,
    ⟨{}, by decide⟩, ⟨{ module := { identity := true } }, by decide, rfl, rfl, by decide⟩,
    ⟨{ module := { identity := true, exchanged := [4] } }, by decide⟩⟩

theorem witness_ManagementAndBringUp :
    (∃ s : State, s.module.stage = 1 ∧ s.stageLate = false ∧ s.module.image.signed = true ∧ s.module.fuseMin = s.module.image.security) ∧
    (∃ s : State, s.module.stage = 1 ∧ s.stageLate = false ∧ s.module.image.security < s.module.fuseMin) ∧
    (∃ s : State, s.module.stage = 4 ∧ s.stageLate = false) ∧ (∃ s : State, s.module.stage = 5 ∧ s.stageLate = false) ∧
    (∃ s : State, s.module.stage = 6) ∧
    (∃ s : State, s.module.stage < 7 ∧ s.stageLate = true) ∧ (∃ s : State, s.module.stage = 7) ∧
    (1200 % 25 = 0 ∧ 3200 % 25 = 0 ∧ (1201 % 25 ≠ 0)) := by
  refine ⟨⟨{ module := { stage := 1 } }, by decide⟩, ⟨{ module := { stage := 1, fuseMin := 1 } }, by decide⟩, ⟨{ module := { stage := 4 } }, by decide⟩,
    ⟨{ module := { stage := 5 } }, by decide⟩, ⟨{ module := { stage := 6 } }, rfl⟩,
    ⟨{ module := { stage := 1 }, time := 10 ^ 12 }, by decide⟩, ⟨{ module := { stage := 7 } }, rfl⟩, by decide⟩

/-- A block of domain 1 whose line 7 cannot be written again before its domain retires a version. -/
def spent : State :=
  { plain [] with counters := [(12, { dom := 1, ver := 3, minor := [(7, 4095)], major := 2 ^ 48 - 1 }),
      (10, { dom := 0, ver := 3, minor := [(0, 4095)], major := 2 ^ 48 - 1 })], domains := [(0, { newest := 3 }), (1, { newest := 3 })] }

theorem witness_ErrorsAndPatrol :
    (∃ s : State, (s.channel 3).fenced = false ∧ (s.channel 3).retrain = false) ∧
    (∃ s : State, (s.channel 3).retrain = true ∧ s.poisonWaits true (onChannel 3) = false) ∧
    (∃ s : State, s.patrol.running = false ∧ s.mustWait (64 * 7) = false ∧ s.poisonWaits false (fun a => a / 64 == 7) = false ∧
      s.readFails 7 none = false ∧ s.domainOf (64 * 7) = 0) ∧
    (∃ s : State, s.mustWait (64 * (32 * 12 + 7)) = true) ∧
    (∃ s : State, s.poisonWaits false (fun a => a / 64 == 32 * 12 + 7) = true) ∧
    (∃ s : State, s.readFails (32 * 12 + 7) (some 0) = false ∧ s.domainOf (64 * (32 * 12 + 7)) = 1) ∧
    (∃ s : State, s.readFails (32 * 12 + 7) (some 1) = true ∧ s.poisonWaits false (fun a => a / 64 == 32 * 12 + 7) = false) ∧
    (∃ s : State, s.domainOf (64 * 7) = 1024) ∧
    (∃ (s : State) (l : CacheLine), s.cache.find? (fun l => l.way == 15 && l.addr / 4096 == 64 * 70 / 4096) = some l ∧ wayExcl (s.way l.way) = false) ∧
    (∃ s : State, s.patrol.running = false ∧ s.fourHeld = false) ∧ (∃ s : State, s.fourHeld = true) ∧
    (∃ s : State, s.patrol.running = true ∧ 2 ^ 31 - 2 = s.patrol.next ∧ 2048 * (2 ^ 31 - 2 + 1) < 2 ^ 42 ∧
      (∀ i, i < 32 → s.patrolFails (32 * (2 ^ 31 - 2) + i) = false) ∧ s.fullNode (2 ^ 31 - 2) = none ∧
      (s.counters.get {} (2 ^ 31 - 2)).ver < s.patrol.target.get 0 (s.counters.get {} (2 ^ 31 - 2)).dom) ∧
    (∃ s : State, s.patrol.running = true ∧ 12 = s.patrol.next ∧ (s.counters.get {} 12).ver < s.patrol.target.get 0 (s.counters.get {} 12).dom ∧
      s.nodeWaits 12 = true) := by
  refine ⟨⟨{}, by decide⟩, ⟨{ channels := [(3, { retrain := true })] }, by decide⟩, ⟨{}, by decide +kernel⟩, ⟨spent, by decide +kernel⟩,
    ⟨spent, by decide +kernel⟩, ⟨plain [], by decide +kernel⟩, ⟨plain [], by decide +kernel⟩,
    ⟨{ frames := [⟨0, 8, 1023, false, false⟩] }, by decide +kernel⟩,
    ⟨{ cache := [⟨15, 0x1000, 0, [], []⟩] }, ⟨15, 0x1000, 0, [], []⟩, by decide +kernel⟩, ⟨{}, by decide, by decide +kernel⟩,
    ⟨{ domains := [(1, { newest := 3 })] }, by decide +kernel⟩,
    ⟨{ patrol := { running := true, next := 2 ^ 31 - 2, target := [(0, 1)] } }, by decide, by decide, by decide,
      fun i h => by simp [State.patrolFails, State.blockFails, Tab.get], by decide +kernel, by decide⟩,
    ⟨{ spent with patrol := { running := true, next := 12, target := [(1, 4)] }, nodes := [(12, 2 ^ 56 - 1)] }, by decide +kernel⟩⟩

theorem witness_ResetLadder :
    (∃ s : State, ∀ k ∈ s.tasks, ∀ l, s.launch k.launch = some l → l.queue ≠ 0) ∧
    (∃ s : State, let tm := s.teamAt 1
      let s0 : State := { (s.releaseCores tm.cores).dropWaiters tm.cores with teams := s.teams.erase 1 }
      let s1 := s0.writeDevice (cellsFrom (0x6100 + 72) (leBytes 4 3))
      tm.cores ≠ [] ∧ s.rungOn 1 tm.cores = false ∧ tm.stolen = none ∧ s.findTk tm.launch tm.idx = some { st := .running, addr := 0x100 } ∧
      LiesAt s0 tm.vf 0x100 .read 128 0x6100 ∧ leAt (s0.imageBytes 0x6100 128) 0 8 % 16 = 2 ∧
      LiesAt s0 tm.vf (s0.recAt tm.vf 0x100 72) .write 4 (0x6100 + 72) ∧ LiesAt s1 tm.vf 0x100 .both 8 0x6100 ∧
      s1.imageNat 0x6100 8 = leAt (s0.imageBytes 0x6100 128) 0 8) ∧
    (∃ s : State, (s.teamAt 1).cores = []) ∧ (∃ s : State, s.rungOn 1 (s.teamAt 1).cores = true) ∧
    (∃ s : State, s.teamOf 0 = {} ∧ ∀ x ∈ s.rungs, x.kind ≠ 3) ∧
    (∃ (s : State) (r : Rung), s.teamOf 0 = {} ∧ s.rungs = [r] ∧ r.kind = 3 ∧ r.tested = false ∧ r.cores = [0]) ∧
    (∃ (s : State) (r : Rung), s.rungs[0]? = some r ∧ r.kind = 1 ∧ r.cls = 0 ∧ s.queueCleared r.target = true ∧ r.tasks = []) ∧
    (∃ (s : State) (r : Rung) (t : Tk), s.rungs[0]? = some r ∧ r.kind = 3 ∧ r.tested = true ∧ r.cls = 6 ∧ r.tasks = [(0, 0)] ∧
      s.findTk 0 0 = some t ∧ t.st ≠ .running ∧ (∀ a b c, t.st ≠ .owed a b c)) ∧
    (∃ (s : State) (r : Rung) (t : Tk), s.rungs[0]? = some r ∧ r.tasks = [(0, 0)] ∧ s.findTk 0 0 = some t ∧ t.st = .running) ∧
    (∃ (s : State) (r : Rung) (t : Tk), s.rungs[0]? = some r ∧ r.tasks = [(0, 0)] ∧ s.findTk 0 0 = some t ∧ t.st = .owed 2 5 3) ∧
    (∃ (s : State) (r : Rung), s.rungs[0]? = some r ∧ r.kind = 2 ∧ r.start + 10000000 = s.time ∧ s.rungDone r = false) ∧
    (∃ (s : State) (r : Rung), s.rungs[0]? = some r ∧ r.kind = 3 ∧ r.start + 50000000 = s.time ∧ s.rungDone r = false ∧
      s.partsOf r.cores = [63] ∧ ((List.range 256).filter (fun c => PartDesc.has (s.part 63).desc c)).head? = some 0) ∧
    (∃ (s : State) (r : Rung), s.rungs[0]? = some r ∧ r.kind = 4 ∧ r.start + 200000000 = s.time ∧ s.rungDone r = false) ∧
    (∃ (s : State) (r : Rung), s.rungs[0]? = some r ∧ s.time + 1 = r.start + 1000000) ∧
    (∃ (s : State) (r : Rung), s.rungs[0]? = some r ∧ r.start + 10000000 = s.time ∧ s.rungDone r = true) := by
  refine ⟨⟨{}, fun k h => absurd h List.not_mem_nil⟩, ⟨ending {}, by decide, by decide, by decide, by decide,
      lies (a := 0x100) (by decide +kernel) (by decide) _ _, by decide +kernel, ?_, lies (a := 0x100) (by decide +kernel) (by decide) _ _,
      by decide +kernel⟩,
    ⟨{}, by decide⟩, ⟨{ rungs := [{ kind := 2, target := 1 }] }, by decide⟩, ⟨{}, by decide, by decide⟩,
    ⟨{ rungs := [{ kind := 3, cores := [0] }] }, { kind := 3, cores := [0] }, by decide⟩,
    ⟨{ rungs := [{ kind := 1 }] }, { kind := 1 }, by decide⟩,
    ⟨{ rungs := [{ kind := 3, cls := 6, tested := true, tasks := [(0, 0)] }], tasks := [{ st := .counted false }] },
      { kind := 3, cls := 6, tested := true, tasks := [(0, 0)] }, { st := .counted false }, rfl, rfl, rfl, rfl, rfl, rfl, by decide,
      fun _ _ _ => by simp⟩,
    ⟨{ rungs := [{ tasks := [(0, 0)] }], tasks := [{ st := .running }] }, { tasks := [(0, 0)] }, { st := .running }, by decide⟩,
    ⟨{ rungs := [{ tasks := [(0, 0)] }], tasks := [{ st := .owed 2 5 3 }] }, { tasks := [(0, 0)] }, { st := .owed 2 5 3 }, by decide⟩,
    ⟨{ rungs := [{ kind := 2, tasks := [(0, 0)] }], tasks := [{ st := .running }], time := 10000000 }, { kind := 2, tasks := [(0, 0)] },
      by decide⟩,
    ⟨{ rungs := [{ kind := 3, cores := [7] }], time := 50000000, parts := [(63, ⟨part0, none⟩)] }, { kind := 3, cores := [7] }, by decide +kernel⟩,
    ⟨{ rungs := [{ kind := 4, tasks := [(0, 0)] }], tasks := [{ st := .running }], time := 200000000 }, { kind := 4, tasks := [(0, 0)] },
      by decide⟩, ⟨{ rungs := [{}], time := 999999 }, {}, by decide⟩, ⟨{ rungs := [{ kind := 2 }], time := 10000000 }, { kind := 2 }, by decide⟩⟩
  have h := lies (s := { ((ending {}).releaseCores [0]).dropWaiters [0] with teams := (ending {}).teams.erase 1 })
    (by decide +kernel) (a := 0x148) (n := 4) (by decide) false true
  have e : ({ ((ending {}).releaseCores [0]).dropWaiters [0] with teams := (ending {}).teams.erase 1 } : State).recAt 0 0x100 72
    = BitVec.ofNat 64 0x148 := by decide +kernel
  exact e ▸ h

/-! ### Witnesses: events, steps, the invariant -/

/-- A machine whose event 5 has the waiters given; its WAITING task's record, at 0x100 of the page, names event 5 and `other`. -/
def eventful (e : Event) (other : Byte) (es : Tab Event := []) (r : State := {}) : State :=
  { working ([(0x6100, 0), (0x6128, 5)] ++ (if other = 0 then [] else [(0x612A, other)]) ++ [(0x6135, 1), (0x6144, 100)]) with
    events := (5, e) :: es, launches := [{}], tasks := [{ st := .waiting, addr := 0x100 }], cores := r.cores }

/-- What `witness_EventSignals` asks of a WAITING task alone on event 5: its record can be read. -/
def waitsAlone (s : State) : Prop :=
  (s.event 0 5).slots ++ (s.event 0 5).chain = [.task 0 0] ∧ s.findTk 0 0 = some { st := .waiting, addr := 0x100 } ∧
    LiesAt s 0 0x100 .read 128 0x6100 ∧ leAt (s.imageBytes 0x6100 128) 0 8 % 16 = 0

theorem witness_EventSignals :
    -- below the target; at it with nobody; failed, with operations in a slot and in the chain
    (∃ s : State, let e := s.event 0 5
      (e.failed || false) = false ∧ min 65535 (e.count + 1) < e.target) ∧
    (∃ s : State, let e := s.event 0 5
      e.target ≤ min 65535 (e.count + 1) ∧ e.slots = [] ∧ e.chain = []) ∧
    (∃ (fail : Bool) (s : State), let e := s.event 0 5
      fail = true ∧ min 65535 (e.count + 1) < e.target ∧ e.slots = [.op 0 .ctl 0] ∧ e.chain = [.op 0 .ctl 1] ∧
      ∀ id ∈ [0, 1], ∃ o ∈ (s.ctxAt 0 .ctl).ops, o.id = id ∧ o.woken = none) ∧
    -- an operation and a task
    (∃ (w : Waiter) (r : List Waiter) (s : State), let e := s.event 0 5
      e.target ≤ min 65535 (e.count + 1) ∧ e.slots ++ e.chain = w :: r ∧ w = .op 0 .ctl 0 ∧ r = [.task 0 0]) ∧
    -- a task: every event satisfied, one failed, one not satisfied
    (∃ s : State, (s.event 0 5).target = 1 ∧ waitsAlone s ∧
      let s0 := s.setEvent 0 5 { s.event 0 5 with count := 1, slots := [] }
      let names := (waitNames (s0.imageBytes 0x6100 128)).filter (· != 0)
      (∀ n ∈ names, (s0.event 0 n).failed = false ∧ (s0.event 0 n).target ≤ (s0.event 0 n).count) ∧ names = [5] ∧
      LiesAt s0 0 0x100 .both 8 0x6100 ∧ recordMalformed (s0.imageBytes 0x6100 128) = false) ∧
    (∃ s : State, (s.event 0 5).target = 1 ∧ waitsAlone s ∧
      let s0 := s.setEvent 0 5 { s.event 0 5 with count := 1, failed := true, slots := [] }
      let s1 := s0.writeDevice (cellsFrom (0x6100 + 72) (leBytes 4 7))
      (∃ n ∈ (waitNames (s0.imageBytes 0x6100 128)).filter (· != 0), (s0.event 0 n).failed = true) ∧
      LiesAt s0 0 (s0.recAt 0 0x100 72) .write 4 (0x6100 + 72) ∧ LiesAt s1 0 0x100 .both 8 0x6100 ∧
      s1.imageNat 0x6100 8 = leAt (s0.imageBytes 0x6100 128) 0 8) ∧
    (∃ s : State, (s.event 0 5).target = 1 ∧ waitsAlone s ∧
      let s0 := s.setEvent 0 5 { s.event 0 5 with count := 1, slots := [] }
      let names := (waitNames (s0.imageBytes 0x6100 128)).filter (· != 0)
      names = [5, 6] ∧ (∀ n ∈ names, (s0.event 0 n).failed = false) ∧ (s0.event 0 6).count < (s0.event 0 6).target ∧
      (s0.event 0 6).slots.length < 4) := by
  have alone (o : Byte) (es : Tab Event) (h : tablesOk (eventful { slots := [.task 0 0] } o es) = true)
      (h' : leAt ((eventful { slots := [.task 0 0] } o es).imageBytes 0x6100 128) 0 8 % 16 = 0) :
      waitsAlone (eventful { slots := [.task 0 0] } o es) := by
    refine ⟨?_, rfl, lies (a := 0x100) h (by decide) _ _, h'⟩
    simp [State.event, eventful, Tab.get]
  refine ⟨⟨{ events := [(5, { target := 2 })] }, by decide +kernel⟩, ⟨{}, by decide +kernel⟩,
    ⟨true, { stCtx .ctl { run := .running, ops := [{ code := 0x53 }, { code := 0x53, id := 1 }] } with
      events := [(5, { count := 7, target := 65535, slots := [.op 0 .ctl 0], chain := [.op 0 .ctl 1] })] }, by decide +kernel⟩,
    ⟨_, _, eventful { slots := [.op 0 .ctl 0, .task 0 0] } 0 [] (waiting .ctl { code := 0x53 }), by decide +kernel, rfl, rfl, rfl⟩,
    ⟨eventful { slots := [.task 0 0] } 0, by decide +kernel, alone _ _ (by decide +kernel) (by decide +kernel), by decide +kernel, by decide +kernel,
      lies (a := 0x100) (by decide +kernel) (by decide) _ _, by decide +kernel⟩,
    ⟨eventful { slots := [.task 0 0] } 0, by decide +kernel, alone _ _ (by decide +kernel) (by decide +kernel), by decide +kernel, ?_,
      lies (a := 0x100) (by decide +kernel) (by decide) _ _, by decide +kernel⟩,
    ⟨eventful { slots := [.task 0 0] } 6 [(6, { target := 2, count := 1 })], by decide +kernel,
      alone _ _ (by decide +kernel) (by decide +kernel), by decide +kernel⟩⟩
  have h := lies (s := (eventful { slots := [.task 0 0] } 0).setEvent 0 5 { slots := [], count := 1, failed := true })
    (by decide +kernel) (a := 0x148) (n := 4) (by decide) false true
  have e : ((eventful { slots := [.task 0 0] } 0).setEvent 0 5 { slots := [], count := 1, failed := true }).recAt 0 0x100 72
    = BitVec.ofNat 64 0x148 := by decide +kernel
  exact e ▸ h

/-- The machine about to issue on the primary control context of core 0, at the first parcel of the page, with `ps` there. -/
def issuing (cells : List Host.Cell) (v : Ctx) : State :=
  { stCtx .ctl v with mem := tables ++ cells, agenda := [.issue 0 .ctl] }

theorem witness_StepRunsDecoded :
    (∃ s : State, s.agenda = [.issue 0 .ctl] ∧ ({ s.reserve.tick with agenda := [], core := 0, ctx := .ctl } : State).canIssue 0 .ctl = false) ∧
    (∃ s : State, let s1 : State := { s.reserve.tick with agenda := [], core := 0, ctx := .ctl }
      s.agenda = [.issue 0 .ctl] ∧ s1.canIssue 0 .ctl = true ∧ s1.atBodyEnd = true) ∧
    (∃ s : State, let s1 : State := { s.reserve.tick with agenda := [], core := 0, ctx := .ctl }
      s.agenda = [.issue 0 .ctl] ∧ s1.canIssue 0 .ctl = true ∧ s1.atBodyEnd = false ∧ s1.fetchNow = .parcels [0x2000] ∧
      decode (codeBytes [0x2000]) = .ok (.addk 0 0) ∧ crosses s1.cur.loops s1.pc.toNat 1 = false ∧ s1.cur.atEntry = false) ∧
    (∃ s : State, let s1 : State := { s.reserve.tick with agenda := [], core := 0, ctx := .ctl }
      s.agenda = [.issue 0 .ctl] ∧ s1.canIssue 0 .ctl = true ∧ s1.atBodyEnd = false ∧ s1.fetchNow = .parcels [0x7C00] ∧
      decode (codeBytes [0x7C00]) = .error .opcode ∧ s1.cur.atEntry = false) ∧
    (∃ s : State, let s1 : State := { s.reserve.tick with agenda := [], core := 0, ctx := .ctl }
      s.agenda = [.issue 0 .ctl] ∧ s1.canIssue 0 .ctl = true ∧ s1.atBodyEnd = false ∧ s1.fetchNow = .parcels [0x8000, 0] ∧
      crosses s1.cur.loops s1.pc.toNat 2 = true ∧ s1.cur.atEntry = false) ∧
    (∃ s : State, let s1 : State := { s.reserve.tick with agenda := [], core := 0, ctx := .ctl }
      s.agenda = [.issue 0 .ctl] ∧ s1.canIssue 0 .ctl = true ∧ s1.atBodyEnd = false ∧ s1.fetchNow = .parcels [0xF800, 0] ∧ s1.cur.atEntry = true) ∧
    (∃ s : State, let s1 : State := { s.reserve.tick with agenda := [], core := 0, ctx := .ctl }
      s.agenda = [.issue 0 .ctl] ∧ s1.canIssue 0 .ctl = true ∧ s1.atBodyEnd = false ∧ s1.fetchNow = .parcels [0x2000] ∧ s1.cur.atEntry = true) ∧
    (∃ s : State, let s1 : State := { s.reserve.tick with agenda := [], core := 0, ctx := .ctl }
      s.agenda = [.issue 0 .ctl] ∧ s1.canIssue 0 .ctl = true ∧ s1.atBodyEnd = false ∧ s1.fetchNow = .parcels [0xF400, 8] ∧
      decode (codeBytes [0xF400, 8]) = .ok (.blockHeader ⟨true, false, 0, 0, 8⟩) ∧ crosses s1.cur.loops s1.pc.toNat 2 = false ∧
      s1.cur.atEntry = true) ∧
    (∃ s : State, s.agenda = [.event .powerOn] ∧ Instr.powerOn.hasWord = false ∧ s.module.stage ≠ 15) ∧
    (∃ s : State, s.agenda = [.event .deviceReset] ∧ s.module.stage = 15 ∧ inRecovery .deviceReset = true) ∧
    (∃ s : State, s.agenda = [.event (.queueSlotMap 0)] ∧ s.module.stage = 15 ∧ inRecovery (.queueSlotMap 0) = false) ∧
    (∃ s : State, s.agenda = [] ∧ s.idle % 2 = 0) ∧ (∃ s : State, s.agenda = [] ∧ s.idle % 2 = 1) ∧
    (∃ s : State, let s1 : State := { s.reserve.tick with agenda := [], core := 0, ctx := .ctl }
      let tm := s1.teamOf 0
      let va := vaAt (BitVec.ofNat 64 (tm.code.toNat % 2 ^ 60)) (vaPos tm.code)
      s1.cur.fetched = none ∧ s1.checkPlane tm.vf va = none ∧
        s1.findBytes tm.vf va .read ((s1.planeDesc tm.vf va).byteOf (vaPos va) + 2 * s1.pc.toNat) 2 = .bytes [.at 0x6008, .at 0x6009]) := by
  refine ⟨⟨issuing [] {}, by decide +kernel⟩,
    ⟨issuing [] { run := .running, pc := 8, loops := [{ header := 2, len := 4 }] }, by decide +kernel⟩,
    ⟨issuing [(0x6009, 0x20)] { run := .running, pc := 4 }, by decide +kernel⟩,
    ⟨issuing [(0x6009, 0x7C)] { run := .running, pc := 4 }, by decide +kernel⟩,
    ⟨issuing [(0x6009, 0x80)] { run := .running, pc := 4, loops := [{ header := 0, len := 3 }] }, by decide +kernel⟩,
    ⟨issuing [(0x6009, 0xF8)] { run := .running, pc := 4, atEntry := true }, by decide +kernel⟩,
    ⟨issuing [(0x6009, 0x20)] { run := .running, pc := 4, atEntry := true }, by decide +kernel⟩,
    ⟨issuing [(0x6009, 0xF4), (0x600A, 8)] { run := .running, pc := 4, atEntry := true }, by decide +kernel⟩,
    ⟨{ agenda := [.event .powerOn] }, by decide⟩, ⟨{ agenda := [.event .deviceReset], module := { stage := 15 } }, by decide⟩,
    ⟨{ agenda := [.event (.queueSlotMap 0)], module := { stage := 15 } }, by decide⟩, ⟨{}, by decide⟩, ⟨{ idle := 1 }, by decide⟩,
    ⟨issuing [] { run := .running, pc := 4 }, by decide +kernel⟩⟩

/-- R302: an `ACAS` that another device asks for takes the expected word before the new one. -/
theorem test_served_acas :
    (let s : State := { leases := [(3, { st := .active, borrower := 1, len := 1, peer := some 0 })], frames := [⟨0, 64, 0, false, false⟩], mem := [(8, 4)] }
     decide ((s.serveAtomic 1 3 8 0x48 8 false 4 5).1.imageNat 8 8 = 5 ∧ (s.serveAtomic 1 3 8 0x48 8 false 5 4).1.imageNat 8 8 = 4)) =
      true := by decide +kernel

theorem witness_EncodeDecode : (Instr.addk 5 31).wf = true ∧ (Instr.addk 5 31).hasWord = true ∧
    decode (codeBytes [0x20BF]) = .ok (.addk 5 31) := by decide

theorem witness_MemoryInvariant : ∃ s t : State, MemoryOk s ∧ step s = .next t := by
  refine ⟨{ agenda := [.event .powerOn] }, _, ⟨by decide, logOk_empty rfl⟩, rfl⟩

/-! ### Decoding: a word of each constructor, its fields placed as R52 to R62 and R66 lay them out -/

/-- What the decoder reads from a word of `n` parcels. -/
def reads (n w : Nat) (i : Instr) : Bool := decide (decode (codeBytes (splitWord n w)) = .ok i)
/-- A C16 word (R53). -/
def c16 (op d s : Nat) : Nat := op * 2 ^ 10 + d * 2 ^ 5 + s
/-- An S32 word: opcode, W[21:17], W[16:12] and W[11:0] (R55). -/
def s32 (op d a low : Nat) : Nat := 2 * 2 ^ 30 + op * 2 ^ 22 + d * 2 ^ 17 + a * 2 ^ 12 + low
/-- A V48 word: opcode, d, a, b, predicate, invert, format, modifier (R57). -/
def v48 (op d a b p inv fmt m : Nat) : Nat :=
  12 * 2 ^ 44 + op * 2 ^ 36 + d * 2 ^ 29 + a * 2 ^ 22 + b * 2 ^ 14 + p * 2 ^ 9 + inv * 2 ^ 8 + fmt * 2 ^ 4 + m
/-- An L48 word: opcode, W[35:31], W[30:26], W[25:16], stream 5, mask 0xA1, scope 2, acquire, no release, hint (R60). -/
def l48 (op x y z : Nat) : Nat :=
  13 * 2 ^ 44 + op * 2 ^ 36 + x * 2 ^ 31 + y * 2 ^ 26 + z * 2 ^ 16 + 5 * 2 ^ 13 + 0xA1 * 2 ^ 5 + 2 * 2 ^ 3 + 2 ^ 2 + 1
/-- The fields of that word. -/
def l48F (x y z : Nat) : LF :=
  ⟨BitVec.ofNat 5 x, BitVec.ofNat 5 y, BitVec.ofNat 10 z, ⟨5, 0xA1, 2, true, false, true⟩⟩

theorem test_decode_c16 :
    (reads 1 (c16 0 0 0) .nop && reads 1 (c16 1 17 9) (.mov 17 9) && reads 1 (c16 2 17 9) (.addC 17 9) && reads 1 (c16 3 17 9) (.subC 17 9) &&
     reads 1 (c16 4 17 9) (.andC 17 9) && reads 1 (c16 5 17 9) (.orC 17 9) && reads 1 (c16 6 17 9) (.xorC 17 9) && reads 1 (c16 7 17 31) (.movk 17 31) &&
     reads 1 (c16 8 17 31) (.addk 17 31) && reads 1 (c16 9 17 15) (.shlk 17 15) && reads 1 (c16 10 17 15) (.shrk 17 15) && reads 1 (c16 11 0 0) .leave &&
     reads 1 (c16 12 0 0) .ret && reads 1 (c16 13 17 0) (.ypop 17) && reads 1 (c16 14 17 0) (.zpop 17) && reads 1 (c16 15 0 9) (.cput 9) &&
     reads 1 (c16 16 17 0) (.cget 17)) = true := by decide

theorem test_decode_s32_r :
    ([(0x00, Instr.add), (0x01, .sub), (0x02, .mul), (0x03, .mulhs), (0x04, .mulhu), (0x05, .divs), (0x06, .divu), (0x07, .rems), (0x08, .remu),
      (0x09, .and), (0x0A, .or), (0x0B, .xor), (0x0C, .andn), (0x0D, .shl), (0x0E, .shr), (0x0F, .sar), (0x10, .rot), (0x11, .min), (0x12, .max),
      (0x13, .minu), (0x14, .maxu), (0x15, .slt), (0x16, .sltu), (0x17, .seq), (0x18, .sel)].all
      (fun e => reads 2 (s32 e.1 17 9 (22 * 2 ^ 7)) (e.2 17 9 22)) &&
     [(0x19, Instr.clz), (0x1A, .ctz), (0x1B, .popc), (0x1C, .brev)].all (fun e => reads 2 (s32 e.1 17 9 0) (e.2 17 9)) &&
     [(0x1D, Instr.extu), (0x1E, .exts), (0x1F, .ins)].all (fun e => reads 2 (s32 e.1 17 9 (7 * 2 ^ 6 + 33)) (e.2 17 9 7 33)) &&
     reads 2 (s32 0x20 17 9 (22 * 2 ^ 7 + 5)) (.lea 17 9 22 5)) = true := by decide

theorem test_decode_s32_ibs :
    ([(0x21, Instr.addi), (0x22, .andi), (0x23, .ori), (0x24, .xori), (0x29, .movhi), (0x2A, .slti)].all
      (fun e => reads 2 (s32 e.1 17 9 0xABC) (e.2 17 9 0xABC)) &&
     [(0x25, Instr.shli), (0x26, .shri), (0x27, .sari)].all (fun e => reads 2 (s32 e.1 17 9 45) (e.2 17 9 45)) &&
     reads 2 (s32 0x28 17 0 0x5AB) (.movi 17 0x5AB) && reads 2 (s32 0x28 17 0 (0x800 + 22)) (.moviIc 17 22) &&
     [(0x40, Instr.beq), (0x41, .bne), (0x42, .blt), (0x43, .bge), (0x44, .bltu), (0x45, .bgeu)].all
      (fun e => reads 2 (s32 e.1 17 9 0xFFE) (e.2 17 9 0xFFE)) &&
     reads 2 (s32 0x46 0 0 0xFFE) (.br 0xFFE) && reads 2 (s32 0x47 0 0 7) (.brl 7) && reads 2 (s32 0x48 0 15 0) (.brx 15) &&
     reads 2 (s32 0x49 17 0 0xFFE) (.skipz 17 0xFFE) && reads 2 (s32 0x4A 17 0 3) (.skipnz 17 3) &&
     reads 2 (s32 0x60 0 0 0 + 0x1F00F) (.trap 0x1F00F) && reads 2 (s32 0x61 0 0 0) .rte && reads 2 (s32 0x62 4 0 1) (.mfs 4 1) &&
     reads 2 (s32 0x63 6 0 2) (.mts 6 2) && reads 2 (s32 0x64 6 0 7) (.id 6 7) && reads 2 (s32 0x65 6 0 0) (.time 6) &&
     reads 2 (s32 0x66 0 0 0) .endtask && reads 2 (s32 0x67 6 0 7) (.cfread 6 7) &&
     reads 2 (0xF * 2 ^ 28 + 1 * 2 ^ 26 + 0 * 2 ^ 25 + 1 * 2 ^ 23 + 21 * 2 ^ 14 + 99) (.blockHeader ⟨true, false, 1, 21, 99⟩) &&
     reads 2 (0xF * 2 ^ 28 + 2 * 2 ^ 26 + 99) (.dataHeader 99)) = true := by decide

theorem test_decode_v48_arithmetic :
    ([(0x00, Instr.vadd), (0x01, .vsub), (0x02, .vmul), (0x03, .vfma), (0x04, .vfms), (0x05, .vfnma), (0x06, .vmin), (0x07, .vmax), (0x0A, .vdiv)].all
      (fun e => reads 3 (v48 e.1 65 66 200 21 1 4 0) (e.2 ⟨65, 66, 200, 21, true, 4, 0⟩)) &&
     [(0x08, Instr.vabs), (0x09, .vneg), (0x0B, .vsqrt), (0x0C, .vrsqrt), (0x0D, .vrcp), (0x0E, .vexp2), (0x0F, .vlog2)].all
      (fun e => reads 3 (v48 e.1 65 66 0 21 1 3 0) (e.2 ⟨65, 66, 0, 21, true, 3, 0⟩)) &&
     [(0x10, Instr.viadd), (0x11, .visub), (0x12, .vimul), (0x13, .vimulh), (0x14, .vand), (0x15, .vor), (0x16, .vxor), (0x17, .vshl), (0x18, .vshr),
      (0x19, .vsar), (0x1A, .vimin), (0x1B, .vimax)].all
      (fun e => reads 3 (v48 e.1 65 66 200 21 0 10 0) (e.2 ⟨65, 66, 200, 21, false, 10, 0⟩))) = true := by decide

theorem test_decode_v48_rest :
    (reads 3 (v48 0x20 31 66 200 21 1 2 7) (.vcmp ⟨31, 66, 200, 21, true, 2, 7⟩) && reads 3 (v48 0x21 31 66 200 21 1 8 5) (.vicmp ⟨31, 66, 200, 21, true, 8, 5⟩) &&
     [(0x22, Instr.pand), (0x23, .por), (0x24, .pxor), (0x25, .pandn)].all (fun e => reads 3 (v48 e.1 1 2 3 0 0 0 0) (e.2 ⟨1, 2, 3, 0, false, 0, 0⟩)) &&
     reads 3 (v48 0x26 1 2 0 0 0 0 0) (.pnot ⟨1, 2, 0, 0, false, 0, 0⟩) && reads 3 (v48 0x27 1 0 192 0 0 0 1) (.pset ⟨1, 0, 192, 0, false, 0, 1⟩) &&
     reads 3 (v48 0x28 0 3 0 5 0 0 0) (.vsum ⟨0, 3, 0, 5, false, 0, 0⟩) && reads 3 (v48 0x30 8 0 70 5 0 10 0) (.vmov ⟨8, 0, 70, 5, false, 10, 0⟩) &&
     reads 3 (v48 0x31 8 9 10 5 0 7 0) (.vsel ⟨8, 9, 10, 5, false, 7, 0⟩) && reads 3 (v48 0x32 8 9 130 5 0 0 0) (.vbcast ⟨8, 9, 130, 5, false, 0, 0⟩) &&
     reads 3 (v48 0x33 8 0 130 5 0 6 0) (.viota ⟨8, 0, 130, 5, false, 6, 0⟩) && reads 3 (v48 0x34 8 9 10 5 0 0 0) (.vperm ⟨8, 9, 10, 5, false, 0, 0⟩) &&
     reads 3 (v48 0x35 8 9 130 5 0 0 1) (.vslide ⟨8, 9, 130, 5, false, 0, 1⟩) && reads 3 (v48 0x36 8 9 130 5 0 0 2) (.vline ⟨8, 9, 130, 5, false, 0, 2⟩) &&
     reads 3 (v48 0x37 8 9 130 5 0 0 2) (.vputl ⟨8, 9, 130, 5, false, 0, 2⟩) && reads 3 (v48 0x38 8 9 0 5 0 5 0) (.vreduce ⟨8, 9, 0, 5, false, 5, 0⟩) &&
     reads 3 (v48 0x40 8 9 0 5 0 3 2) (.vcvt ⟨8, 9, 0, 5, false, 3, 2⟩) && reads 3 (v48 0x41 8 9 2 5 0 14 0) (.vpackbx ⟨8, 9, 2, 5, false, 14, 0⟩) &&
     reads 3 (v48 0x42 8 9 12 5 0 1 0) (.vunpkbx ⟨8, 9, 12, 5, false, 1, 0⟩) && reads 3 (v48 0x43 0 0 9 5 0 0 0) (.vseed ⟨0, 0, 9, 5, false, 0, 0⟩)) = true := by decide

theorem test_decode_l48_scratchpad :
    ([(0x00, Instr.ldB), (0x01, .ldH), (0x02, .ldW), (0x03, .ldD), (0x04, .ldsB), (0x05, .ldsH), (0x06, .ldsW), (0x08, .stB), (0x09, .stH), (0x0A, .stW),
      (0x0B, .stD), (0x10, .ldq), (0x12, .stq), (0x21, .pref), (0x22, .probe), (0x5A, .blog)].all
      (fun e => reads 3 (l48 e.1 17 9 0x2FD) (e.2 (l48F 17 9 0x2FD))) &&
     [(0x11, Instr.ldqs), (0x13, .stqs), (0x14, .ldx), (0x56, .steal), (0x58, .bjoin), (0x5B, .msend)].all
      (fun e => reads 3 (l48 e.1 17 9 0x2E0) (e.2 (l48F 17 9 0x2E0))) &&
     reads 3 (l48 0x15 0 9 0x2FD) (.ldtab (l48F 0 9 0x2FD)) && reads 3 (l48 0x16 18 9 0x2F8) (.ldm (l48F 18 9 0x2F8)) &&
     reads 3 (l48 0x17 18 9 0x2FA) (.stm (l48F 18 9 0x2FA)) && reads 3 (l48 0x18 2 9 0x2F0) (.ldb (l48F 2 9 0x2F0))) = true := by decide

theorem test_decode_l48_rest :
    ([(0x20, Instr.xcopy), (0x60, .xgath), (0x61, .xscat), (0x62, .xnzs), (0x63, .xhot)].all (fun e => reads 3 (l48 e.1 17 9 0x200) (e.2 (l48F 17 9 0x200))) &&
     reads 3 (l48 0x23 17 0 0) (.prels (l48F 17 0 0)) && [(0x24, Instr.pconv), (0x25, .plnew), (0x50, .abarm), (0x53, .evwait), (0x54, .evreset), (0x59, .bwait)].all
      (fun e => reads 3 (l48 e.1 17 9 0) (e.2 (l48F 17 9 0))) &&
     reads 3 (l48 0x26 3 9 0) (.plprot (l48F 3 9 0)) && reads 3 (l48 0x27 0 9 0) (.pldrop (l48F 0 9 0)) && reads 3 (l48 0x55 0 9 0) (.launch (l48F 0 9 0)) &&
     reads 3 (l48 0x28 17 0 63) (.ksig (l48F 17 0 63)) && reads 3 (l48 0x29 17 0 63) (.ktake (l48F 17 0 63)) && reads 3 (l48 0x2A 17 9 0x3FE) (.ktaket (l48F 17 9 0x3FE)) &&
     [(0x40, Instr.aadd), (0x44, .aand), (0x45, .aor), (0x46, .axor), (0x47, .axchg), (0x48, .acas)].all (fun e => reads 3 (l48 e.1 17 9 0x3F8) (e.2 (l48F 17 9 0x3F8))) &&
     reads 3 (l48 0x41 17 9 0x2F8) (.afadd (l48F 17 9 0x2F8)) && [(0x42, Instr.amin), (0x43, .amax)].all (fun e => reads 3 (l48 e.1 17 9 0x3FC) (e.2 (l48F 17 9 0x3FC))) &&
     [(0x49, Instr.ald), (0x4A, .ast)].all (fun e => reads 3 (l48 e.1 17 9 0x300) (e.2 (l48F 17 9 0x300))) && reads 3 (l48 0x51 17 9 0x380) (.abwait (l48F 17 9 0x380)) &&
     reads 3 (l48 0x52 17 9 3) (.evsig (l48F 17 9 3)) && reads 3 (l48 0x57 17 9 1) (.tstate (l48F 17 9 1))) = true := by decide

/-- The words of the reference entries' own examples, parcel by parcel. -/
theorem test_decode_examples :
    (let word (ps : List Parcel) (i : Instr) : Bool := decide (decode (codeBytes ps) = .ok i)
     let own : Tail := ⟨0, 1, 0, false, false, false⟩
     word [0xD032, 0x1803, 0x0020] (.ldD ⟨4, 6, 3, own⟩) && word [0xC280, 0x00C0, 0x0A00] (.vsum ⟨0, 3, 0, 5, false, 0, 0⟩) &&
     word [0xE024, 0x8000, 0, 0] (.mzero { c := 4, cg := 2 }) && word [0xE035, 0x2480, 0, 0] (.mmov { c := 5, a := 9, tr := true }) &&
     word [0xE050, 0x0040, 0, 0x2000] (.mcheck { slot := true, fmt := 2 }) && word [0xD500, 0x9C00, 0x0020] (.abarm ⟨1, 7, 0, own⟩) &&
     word [0xD403, 0x0D38, 0x0010] (.aadd ⟨6, 3, 0x138, ⟨0, 0, 2, false, false, false⟩⟩) && word [0xD281, 0x0001, 0x0020] (.ksig ⟨2, 0, 1, own⟩) &&
     word [0x8A08, 0x0012] (.movi 4 0x12) && word [0x9888, 0x0001] (.mfs 4 1)) = true := by decide

theorem test_decode_mscale_mstat :
    (reads 4 (14 * 2 ^ 60 + 1 * 2 ^ 52 + 4 * 2 ^ 48 + 2 * 2 ^ 46 + 8 * 2 ^ 42 + 2 * 2 ^ 40 + 63 * 2 ^ 32 + 62 * 2 ^ 24 + 255 * 2 ^ 16)
       (.mscale ⟨4, 2, 8, 2, false, false, 63, 62, 255, 0, false, false⟩) &&
     reads 4 (14 * 2 ^ 60 + 4 * 2 ^ 52 + 4 * 2 ^ 48 + 1 * 2 ^ 46) (.mstat { c := 4, cg := 1 }) &&
     reads 4 (14 * 2 ^ 60 + 4 * 2 ^ 48 + 2 * 2 ^ 46 + 8 * 2 ^ 42 + 1 * 2 ^ 40 + 2 ^ 39 + 2 ^ 38 + 63 * 2 ^ 32 + 127 * 2 ^ 24 + 255 * 2 ^ 16 + 14 * 2 ^ 12 + 2 ^ 11 + 2 ^ 10)
       (.mma ⟨4, 2, 8, 1, true, true, 63, 127, 255, 14, true, true⟩)) = true := by decide

/-! ### Ill-formed instructions are refused -/

theorem test_wf_headers :
    ([⟨false, false, 3, 0, 8⟩, ⟨false, false, 0, 1, 0⟩, ⟨false, false, 1, 32, 8⟩, ⟨false, false, 2, 1, 8⟩].all (fun h => !(Instr.blockHeader h).wf) &&
     !(Instr.dataHeader 0).wf) = true := by decide

theorem test_wf_vector :
    ([Instr.vadd ⟨1, 2, 3, 0, false, 5, 0⟩, .vadd ⟨1, 2, 3, 0, false, 0, 1⟩, .vabs ⟨1, 2, 3, 0, false, 0, 0⟩, .viadd ⟨1, 2, 3, 0, false, 11, 0⟩,
      .viadd ⟨1, 2, 3, 0, false, 5, 1⟩, .vcmp ⟨1, 2, 3, 0, false, 0, 8⟩, .vcmp ⟨1, 2, 3, 0, false, 5, 0⟩, .vicmp ⟨1, 2, 3, 0, false, 5, 6⟩,
      .vicmp ⟨1, 2, 3, 0, false, 4, 0⟩, .pand ⟨1, 2, 3, 1, false, 0, 0⟩, .pand ⟨1, 2, 3, 0, true, 0, 0⟩, .pand ⟨1, 2, 3, 0, false, 1, 0⟩,
      .pand ⟨1, 2, 3, 0, false, 0, 1⟩, .pnot ⟨1, 2, 3, 0, false, 0, 0⟩, .pset ⟨1, 2, 3, 0, false, 0, 0⟩, .pset ⟨1, 0, 3, 0, false, 0, 2⟩,
      .vsum ⟨1, 2, 0, 0, false, 0, 0⟩, .vsum ⟨0, 2, 1, 0, false, 0, 0⟩, .vmov ⟨1, 2, 3, 0, false, 0, 0⟩, .vmov ⟨1, 0, 3, 0, false, 11, 0⟩,
      .vsel ⟨1, 2, 3, 0, false, 5, 0⟩, .vbcast ⟨1, 2, 3, 0, false, 5, 0⟩, .viota ⟨1, 0, 3, 0, false, 0, 0⟩, .vperm ⟨1, 2, 3, 0, false, 0, 1⟩,
      .vslide ⟨1, 2, 3, 0, false, 0, 2⟩, .vline ⟨1, 2, 3, 0, false, 0, 3⟩, .vputl ⟨1, 2, 3, 0, false, 0, 3⟩, .vreduce ⟨1, 2, 0, 0, false, 3, 0⟩,
      .vcvt ⟨1, 2, 0, 0, false, 12, 0⟩, .vcvt ⟨1, 2, 5, 0, false, 11, 0⟩, .vcvt ⟨1, 2, 11, 0, false, 5, 0⟩, .vcvt ⟨1, 2, 0, 0, false, 0, 2⟩,
      .vcvt ⟨1, 2, 0, 0, false, 5, 3⟩, .vcvt ⟨1, 2, 0, 0, false, 0, 4⟩, .vpackbx ⟨1, 2, 3, 0, false, 12, 0⟩, .vpackbx ⟨1, 2, 0, 0, false, 5, 0⟩,
      .vunpkbx ⟨1, 2, 11, 0, false, 0, 0⟩, .vunpkbx ⟨1, 2, 12, 0, false, 3, 0⟩, .vseed ⟨1, 0, 3, 0, false, 0, 0⟩, .vseed ⟨0, 1, 3, 0, false, 0, 0⟩].all
      (fun i => !i.wf)) = true := by decide

theorem test_wf_ordering_and_matrix :
    ([Instr.ldqs { z := 1 }, .stqs { z := 16 }, .ldx { z := 1 }, .ldtab { x := 1 }, .ldm { x := 1 }, .ldm { z := 12 }, .ldm { z := 2 }, .stm { x := 1 },
      .stm { z := 12 }, .stm { z := 1 }, .ldb { x := 1 }, .ldb { x := 4 }, .ldb { z := 8 }, .xcopy { z := 1 }, .prels { y := 1 }, .prels { z := 1 },
      .pconv { z := 1 }, .plnew { z := 1 }, .plprot { x := 4 }, .plprot { z := 1 }, .pldrop { x := 1 }, .pldrop { z := 1 }, .ksig { y := 1 },
      .ksig { z := 64 }, .ktake { y := 1 }, .ktake { z := 64 }, .ktaket { z := 1 }, .aadd { z := 4 }, .afadd { z := 1 }, .afadd { z := 256 },
      .amin { z := 2 }, .amax { z := 1 }, .aand { z := 1 }, .aor { z := 1 }, .axor { z := 1 }, .axchg { z := 1 }, .acas { z := 1 }, .ald { z := 8 },
      .ast { z := 8 }, .abarm { z := 1 }, .abwait { z := 1 }, .evsig { z := 4 }, .evsig { x := 1 }, .evwait { z := 1 }, .evreset { z := 1 },
      .launch { x := 1 }, .launch { z := 1 }, .steal { z := 1 }, .tstate { z := 2 }, .bjoin { z := 1 }, .bwait { z := 1 }, .msend { z := 1 },
      .xgath { z := 1 }, .xscat { z := 1 }, .xnzs { z := 1 }, .xhot { z := 1 }].all (fun i => !i.wf) &&
     [Instr.mma { cg := 3 }, .mma { ag := 3 }, .mma {}, .mscale { tr := true }, .mscale { slot := true }, .mscale { k := 64 }, .mscale { fmt := 1 },
      .mscale { neg := true }, .mscale { nacc := true }, .mzero { a := 1 }, .mzero { cg := 3 }, .mzero { m := 1 }, .mmov { slot := true }, .mmov { n := 1 },
      .mmov { ag := 3 }, .mstat { ag := 1 }, .mstat { tr := true }, .mstat { k := 1 }, .mcheck { c := 1, fmt := 1 }, .mcheck {}].all (fun i => !i.wf)) = true := by decide

/-! ### Single steps: expected values worked out by hand from the entries -/

/-- What `P` says of the state after an instruction. -/
def leaves (i : Instr) (s : State) (P : State → Bool) : Bool :=
  match exec i s with
  | .next t => P t
  | _ => false

theorem test_add_wraps : leaves (.add 4 5 5) (st .ctl [(5, 1 <<< 63)]) (fun t => t.G 4 == 0 && t.pc == 2) = true := by decide
theorem test_mulhs_signs : leaves (.mulhs 4 5 6) (st .ctl [(5, BitVec.allOnes 64), (6, 2)]) (fun t => t.G 4 == BitVec.allOnes 64) = true := by decide
theorem test_mulhu : leaves (.mulhu 4 5 6) (st .ctl [(5, BitVec.allOnes 64), (6, 2)]) (fun t => t.G 4 == 1) = true := by decide
theorem test_divs_truncates : leaves (.divs 4 5 6) (st .ctl [(5, BitVec.ofInt 64 (-7)), (6, 2)]) (fun t => t.G 4 == BitVec.ofInt 64 (-3)) = true := by decide
theorem test_rems_sign : leaves (.rems 4 5 6) (st .ctl [(5, BitVec.ofInt 64 (-7)), (6, 2)]) (fun t => t.G 4 == BitVec.ofInt 64 (-1)) = true := by decide
theorem test_divu_zero : leaves (.divu 4 5 0) (st .ctl [(5, 9)]) (fun t => t.G 4 == BitVec.allOnes 64) = true := by decide
theorem test_rot_right : leaves (.rot 4 5 6) (st .ctl [(5, 1), (6, 65)]) (fun t => t.G 4 == 1 <<< 63) = true := by decide
theorem test_sar : leaves (.sar 4 5 6) (st .ctl [(5, 1 <<< 63), (6, 63)]) (fun t => t.G 4 == BitVec.allOnes 64) = true := by decide
theorem test_andn : leaves (.andn 4 5 6) (st .ctl [(5, 0b1100), (6, 0b1010)]) (fun t => t.G 4 == 0b0100) = true := by decide
theorem test_exts : leaves (.exts 4 5 7 4) (st .ctl [(5, 0xF80)]) (fun t => t.G 4 == BitVec.ofInt 64 (-8)) = true := by decide
theorem test_ins : leaves (.ins 4 5 7 8) (st .ctl [(4, 0xFFFFFF), (5, 0x1AB)]) (fun t => t.G 4 == 0xFFABFF) = true := by decide
theorem test_lea : leaves (.lea 4 5 6 7) (st .ctl [(5, 3), (6, 2)]) (fun t => t.G 4 == 259) = true := by decide
theorem test_movhi : leaves (.movhi 4 4 0x678) (st .ctl [(4, 0x12)]) (fun t => t.G 4 == 0x12678) = true := by decide
theorem test_clz_zero : leaves (.clz 4 5) (st .ctl) (fun t => t.G 4 == 64) = true := by decide
theorem test_g0_discards : leaves (.addi 0 5 7) (st .ctl [(5, 9)]) (fun t => t.G 0 == 0 && t.pc == 2) = true := by decide
theorem test_shlk_negative_traps : leaves (.shlk 4 31) (st .ctl) (fun t => t.curCore.frame.cause == 2 && t.curCore.biv.run == .running) = true := by decide
theorem test_brl_no_header : leaves (.brl 10) (branching .ctl 0 []) (fun t => t.curCore.frame.cause == 4 && t.curCore.frame.info == 20) = true := by decide
theorem test_brl_links : leaves (.brl 10) (branching .ctl 0xF0004008 []) (fun t => t.G 15 == 12 && t.pc == 22 && t.cur.loops.length == 2) = true := by decide
theorem test_ret_zero_ends : leaves .ret (st .ld) (fun t => t.cur.run == .ended) = true := by decide
theorem test_endtask_bivouac : leaves .endtask (stCore .biv { biv := { run := .running } }) (fun t => t.rungs.length == 1) = true := by decide +kernel
theorem test_body_end_counts : leaves .bodyEnd
    (stCtx .cmp { run := .running, pc := 42, rb := 31, loops := [{ header := 0, remain := 2, rot := true, len := 40 }] })
    (fun t => t.pc == 2 && t.cur.rb == 0 && t.cur.loops.map (·.remain) == [1]) = true := by decide
theorem test_cput_fifo : leaves (.cput 5) (stCore .ctl { cq := [1], ctl := { run := .running, g := [(5, 2)] } }) (fun t => t.curCore.cq == [1, 2]) = true := by decide
theorem test_hold_bits : leaves (.mts 5 0) (st .ctl [(5, 0xE)])
    (fun t => t.curCore.msgHold && t.curCore.demHold && t.curCore.hotHold && t.curCore.pend == []) = true := by decide

/-- The lane of `v8` once every result has landed. -/
def lane8 (i : Nat) (t : State) : Lane := t.curCore.landAll.lane 8 i
/-- A compute core with one lane of two vector registers and of their pair halves. -/
def lanes (a b : Lane) : State := cmp { v := [(64 * 9, a), (64 * 10, b)] }

theorem test_vadd_rounds_to_even : leaves (.vadd ⟨8, 9, 10, 0, false, 0, 0⟩) (lanes 0x3F800000 0x33800000) (fun t => lane8 0 t == 0x3F800000) = true := by decide +kernel
theorem test_vmul_bf16 : leaves (.vmul ⟨8, 9, 10, 0, false, 2, 0⟩) (lanes 0x4040 0xC000) (fun t => lane8 0 t == 0xC0C0) = true := by decide +kernel
theorem test_viadd_i8 : leaves (.viadd ⟨8, 9, 10, 0, false, 9, 0⟩) (lanes 0x7F 0x02) (fun t => lane8 0 t &&& 0xFF == 0x81) = true := by decide +kernel
theorem test_vcvt_saturates : leaves (.vcvt ⟨8, 9, 0, 0, false, 3, 2⟩) (lanes 0x47C35000 0) (fun t => lane8 0 t == 0x7E) = true := by decide +kernel
theorem test_viota : leaves (.viota ⟨8, 0, 130, 0, false, 5, 0⟩) (cmp {}) (fun t => lane8 63 t == 65) = true := by decide +kernel
theorem test_ksig_issues : leaves (.ksig ⟨2, 0, 1, {}⟩) (st .cmp) (fun t => t.cur.ops.map (·.code) == [0x28] && t.pc == 3) = true := by decide
theorem test_load_outside_window : leaves (.ldD ⟨4, 6, 0, {}⟩) (st .ld [(6, 0x17FFF9)])
    (fun t => t.curCore.frame.cause == 7 && t.curCore.frame.info == 0x17FFF9) = true := by decide
theorem test_store_performs : leaves (.operationPerform 0 .st 0 {}) (waiting .st { code := 0x0A, x := 0x11223344, y := 0x10 })
    (fun t => (List.range 4).map (fun i => (t.imageIn 0 0 (scratchLoc 0 0x10 + i)).2) == [0x44, 0x33, 0x22, 0x11]) = true := by decide +kernel
theorem test_doorbell_unmapped : leaves (.doorbellWrite 3 0 0 false) (working []) (fun t => (t.tenant 3).lostBells == 1) = true := by decide
theorem test_power_limit_step : leaves (.powerLimitWrite 1210) {} (fun t => t.module.powerLimit == 3200) = true := by decide
theorem test_step_fetches_first : (match step (State.withFetchWord State.reset 16 0x2000) with
    | .next t => t.pc == 1
    | _ => false) = true := by decide +kernel

end Sys2Proof.Tests
end

section
/-! SUPPORT. Bring-up, the management settings and what holds the clock down: what each step leaves, case by case (R6, R14, R18, R20 to
R25). -/

namespace Sys2Proof.Machine

/-! ### Bring-up stages (R20, R21) -/

/-- What the boot ROM asks of an image: a signature, and a security version not below the fuses. -/
theorem Module.imageOk_iff (m : Module) : m.imageOk = true ↔ m.image.signed = true ∧ m.fuseMin ≤ m.image.security := by
  simp [Module.imageOk]

section
variable (s : State) (n k : Nat) (code : BitVec 16)

@[simp] theorem State.enterStage_module :
    (s.enterStage k code).module = { s.module with stage := k, stageAt := s.time, errcode := code } := rfl
@[simp] theorem State.enterStage_mem : (s.enterStage k code).mem = s.mem := rfl
@[simp] theorem State.enterStage_log : (s.enterStage k code).log = s.log := rfl
@[simp] theorem State.enterStage_image (a : Nat) : (s.enterStage k code).image a = s.image a := rfl

/-- Of the module, a stage's work sets two links and the identity alone. -/
theorem State.stageWork_module :
    (s.stageWork n).module =
      { s.module with hostLink := s.module.hostLink || n == 1, identity := s.module.identity || n == 2,
                      avdexLink := s.module.avdexLink || n == 5 } := by
  unfold State.stageWork
  split_ifs <;> simp [beq_false_of_ne, *]

@[simp] theorem State.stageWork_time : (s.stageWork n).time = s.time := by
  unfold State.stageWork
  split_ifs <;> rfl

/-- Every stage but stage 4 leaves memory and the coherence order. -/
theorem State.stageWork_mem_log (h : n ≠ 4) : (s.stageWork n).mem = s.mem ∧ (s.stageWork n).log = s.log := by
  unfold State.stageWork
  rw [if_neg h]
  split_ifs <;> exact ⟨rfl, rfl⟩

/-- Stage 4 leaves every location zero. -/
theorem State.stageWork_four_image (a : Nat) : (s.stageWork 4).image a = 0 := rfl

end

section
variable {s : State} {code : BitVec 16}

/-- A stage that is done in time, with an image the boot ROM accepts, gives way to the next. -/
theorem exec_bringUpStageComplete_done (hn : s.module.stage < 7) (hlate : s.stageLate = false)
    (himage : s.module.stage = 1 → s.module.imageOk = true) :
    exec (.bringUpStageComplete true code) s =
      .next ((s.stageWork s.module.stage).enterStage (s.module.stage + 1) s.module.errcode) := by
  have hdone : s.module.stage ≠ 1 ∨ s.module.imageOk = true := or_iff_not_imp_left.2 fun h => himage (not_not.1 h)
  simp [exec, execBringUpStageComplete, hn, hlate, hdone]

/-- One that fails, is late, or finds an image the boot ROM does not accept sends the module to stage 15. -/
theorem exec_bringUpStageComplete_failed {ok : Bool} (hn : s.module.stage < 7)
    (hfail : ok = false ∨ s.stageLate = true ∨ (s.module.stage = 1 ∧ s.module.imageOk = false)) :
    exec (.bringUpStageComplete ok code) s = .next (s.enterStage 15 code) := by
  have hnot : ¬ (ok = true ∧ (!s.stageLate) = true ∧ (s.module.stage ≠ 1 ∨ s.module.imageOk = true)) := by
    rintro ⟨hok, hlate, himage⟩
    rcases hfail with h | h | ⟨h1, h⟩
    · simp [h] at hok
    · simp [h] at hlate
    · simp [h1, h] at himage
  show execBringUpStageComplete ok code s = _
  rw [execBringUpStageComplete, if_neg (Nat.not_le.2 hn), if_neg hnot]

theorem exec_bringUpStageTimeout_late (hn : s.module.stage < 7) (hlate : s.stageLate = true) :
    exec (.bringUpStageTimeout code) s = .next (s.enterStage 15 code) := if_pos ⟨hn, hlate⟩

/-- Bring-up has ended: no stage completes any more, and none is late. -/
theorem exec_bringUp_ended {ok : Bool} (hn : 7 ≤ s.module.stage) :
    exec (.bringUpStageComplete ok code) s = .next s ∧ exec (.bringUpStageTimeout code) s = .next s :=
  ⟨if_pos hn, if_neg fun h => absurd h.1 (Nat.not_lt.2 hn)⟩

/-- What a stage that gives way to the next leaves: the links, the identity, and memory. -/
theorem bringUpStageComplete_leaves (hn : s.module.stage < 7) (hlate : s.stageLate = false)
    (himage : s.module.stage = 1 → s.module.image.signed = true ∧ s.module.fuseMin ≤ s.module.image.security) :
    ∃ u, exec (.bringUpStageComplete true code) s = .next u ∧ u.module.stage = s.module.stage + 1 ∧
      u.module.stageAt = s.time ∧ u.module.errcode = s.module.errcode ∧ (s.module.stage = 2 → u.module.identity = true) ∧
      u.module.hostLink = (s.module.hostLink || s.module.stage == 1) ∧
      u.module.avdexLink = (s.module.avdexLink || s.module.stage == 5) ∧
      (s.module.stage = 4 → ∀ a, u.image a = 0) ∧ (s.module.stage ≠ 4 → u.mem = s.mem ∧ u.log = s.log) := by
  refine ⟨_, exec_bringUpStageComplete_done hn hlate fun h => s.module.imageOk_iff.2 (himage h), ?_⟩
  simp only [State.enterStage_module, State.enterStage_mem, State.enterStage_log, State.enterStage_image,
    State.stageWork_module, State.stageWork_time, true_and]
  refine ⟨fun h2 => by simp [h2], fun h4 a => ?_, s.stageWork_mem_log _⟩
  rw [h4]
  exact s.stageWork_four_image a

end

/-! ### The status register (R23) -/

theorem toNat_append_eq_add {v w : Nat} (x : BitVec v) (y : BitVec w) : (x ++ y).toNat = x.toNat * 2 ^ w + y.toNat := by
  rw [BitVec.toNat_append, ← Nat.shiftLeft_add_eq_or_of_lt y.isLt, Nat.shiftLeft_eq]

/-- `DEVSTAT` is the error code, eleven reserved zeros, THROT and the stage. -/
theorem Module.devstat_eq_append (m : Module) (hn : m.stage < 16) :
    m.devstat = m.errcode ++ (BitVec.ofNat 11 0 ++ (BitVec.ofBool m.throt ++ BitVec.ofNat 4 m.stage)) := by
  have hthrot := Bool.toNat_lt m.throt
  have happend : (m.errcode ++ (BitVec.ofNat 11 0 ++ (BitVec.ofBool m.throt ++ BitVec.ofNat 4 m.stage))).toNat =
      m.errcode.toNat * 2 ^ 16 + (m.throt.toNat * 2 ^ 4 + m.stage) := by
    rw [toNat_append_eq_add, toNat_append_eq_add, toNat_append_eq_add]
    simp [Nat.mod_eq_of_lt hn]
  apply BitVec.eq_of_toNat_eq
  rw [happend, Module.devstat, BitVec.toNat_ofNat, Nat.mod_eq_of_lt hn, Nat.mod_eq_of_lt (by omega), Nat.add_assoc]

/-! ### Settings within their range (R6, R24, R145) -/

theorem inRange_iff (a b v : Nat) : inRange a b v = true ↔ a ≤ v ∧ v ≤ b := by
  simp [inRange]

theorem ite_of_inRange {α : Type} {a b v : Nat} {x y : α} (ha : a ≤ v) (hb : v ≤ b) : (if inRange a b v then x else y) = x :=
  if_pos ((inRange_iff a b v).2 ⟨ha, hb⟩)

theorem ite_of_not_inRange {α : Type} {a b v : Nat} {x y : α} (h : v < a ∨ b < v) : (if inRange a b v then x else y) = y := by
  refine if_neg fun hin => ?_
  obtain ⟨ha, hb⟩ := (inRange_iff a b v).1 hin
  omega

theorem exec_powerLimitWrite_inRange {v : Nat} {s : State} (hlo : 1200 ≤ v) (hhi : v ≤ 3200) (hstep : v % 25 = 0) :
    exec (.powerLimitWrite v) s = .next { s with module := { s.module with powerLimit := v } } :=
  if_pos ⟨hlo, hhi, hstep⟩

theorem exec_powerLimitWrite_ignored {v : Nat} {s : State} (h : v < 1200 ∨ 3200 < v ∨ v % 25 ≠ 0) :
    exec (.powerLimitWrite v) s = .next s :=
  if_neg fun ⟨hlo, hhi, hstep⟩ => by omega

/-- A queue that is there takes a class from 1 to 3. -/
theorem exec_registerWrite_queueClass_inRange {q v : Nat} {s : State} (hq : q < 4096) (hlo : 1 ≤ v) (hhi : v ≤ 3) :
    exec (.registerWrite (.queueClass q) v) s = .next (s.setQueue q { s.queue q with cls := v }) :=
  if_pos ⟨hq, (inRange_iff 1 3 v).2 ⟨hlo, hhi⟩⟩

theorem exec_registerWrite_queueClass_ignored {q v : Nat} {s : State} (h : 4096 ≤ q ∨ v < 1 ∨ 3 < v) :
    exec (.registerWrite (.queueClass q) v) s = .next s := by
  refine if_neg fun ⟨hq, hin⟩ => ?_
  have hq : q < 4096 := hq
  have hv := (inRange_iff 1 3 v).1 hin
  omega

/-- The driver loads a route's next port in stage 6, and later (log 4). -/
theorem exec_registerWrite_route_loads {dev v : Nat} {s : State} (hv : v < 18) (hn : s.module.stage = 6 ∨ s.module.stage = 7) :
    exec (.registerWrite (.route dev) v) s =
      .next { s with routes := s.routes.set dev ((s.routes.get [] dev).filter (· != v) ++ [v]) } :=
  if_pos ⟨hv, hn⟩

theorem exec_registerWrite_route_ignored {dev v : Nat} {s : State}
    (h : 18 ≤ v ∨ (s.module.stage ≠ 6 ∧ s.module.stage ≠ 7)) : exec (.registerWrite (.route dev) v) s = .next s := by
  refine if_neg fun ⟨hv, hn⟩ => ?_
  have hv : v < 18 := hv
  omega

/-! ### The obligation -/

/-- Settles O52: each step's cases are those of the lemmas above. -/
theorem managementAndBringUp : Obligations.ManagementAndBringUp := by
  unfold Obligations.ManagementAndBringUp
  intro v vf q dev die group ok hold code image s m n after sets
  have refused (h1 : n = 1) (himage : m.image.signed = false ∨ m.image.security < m.fuseMin) :
      s.module.stage = 1 ∧ s.module.imageOk = false := by
    refine ⟨h1, Bool.eq_false_iff.2 fun h => ?_⟩
    obtain ⟨hsigned, hmin⟩ := s.module.imageOk_iff.1 h
    rcases himage with h | h
    · simp [m, hsigned] at h
    · exact absurd hmin (Nat.not_le.2 h)
  refine ⟨rfl, rfl, rfl, ?completes, ?late, exec_bringUp_ended, rfl, rfl, rfl, rfl, rfl, rfl, rfl, ?devstat,
    exec_powerLimitWrite_inRange, exec_powerLimitWrite_ignored,
    ite_of_inRange, ite_of_not_inRange, ite_of_not_inRange, ite_of_inRange, ite_of_inRange, ite_of_not_inRange,
    ite_of_inRange, ite_of_not_inRange,
    rfl, exec_registerWrite_queueClass_inRange, exec_registerWrite_queueClass_ignored,
    exec_registerWrite_route_loads, exec_registerWrite_route_ignored, rfl⟩
  case completes =>
    intro hn hlate
    exact ⟨bringUpStageComplete_leaves hn hlate,
      fun h1 himage => exec_bringUpStageComplete_failed hn (.inr (.inr (refused h1 himage))),
      exec_bringUpStageComplete_failed hn (.inl rfl)⟩
  case late =>
    intro hn hlate
    exact ⟨exec_bringUpStageComplete_failed hn (.inr (.inl hlate)), exec_bringUpStageTimeout_late hn hlate⟩
  case devstat =>
    intro hn
    exact congrArg (fun d => Host.Outcome.next (s.send (.devstat d))) (m.devstat_eq_append hn)

end Sys2Proof.Machine
end

section
/-! SUPPORT. What the device image holds after a write of an agent outside the cores, what finding plane data reads of the machine, and
what a record that lies on this device gives (R46, R118, R127, R129). -/

namespace Sys2Proof.Machine

/-- Two machines in which an access of a tenant's plane data finds the same: the tenant's table, the device image, and what can make a
line wait are the same. -/
structure FindsAlike (v : Nat) (s t : State) : Prop where
  table : (t.tenant v).tableBase = (s.tenant v).tableBase
  image : ∀ a, t.image a = s.image a
  line  : ∀ e a need, t.lineFound v e a need = s.lineFound v e a need

/-! ### Consecutive bytes -/

theorem span_succ (a n : Nat) : span a (n + 1) = a :: span (a + 1) n := by
  simp [span, List.range_succ_eq_map, Function.comp_def, Nat.add_assoc, Nat.add_comm 1]

@[simp] theorem leBytes_length (n v : Nat) : (leBytes n v).length = n := by
  induction n generalizing v with
  | zero => rfl
  | succ n ih => simp [leBytes, ih]

@[simp] theorem State.imageBytes_length (s : State) (a n : Nat) : (s.imageBytes a n).length = n := by
  induction n generalizing a with
  | zero => rfl
  | succ n ih => simp [State.imageBytes, ih]

theorem State.imageBytes_eq_map (s : State) (a n : Nat) : s.imageBytes a n = (span a n).map s.image := by
  induction n generalizing a with
  | zero => rfl
  | succ n ih => rw [State.imageBytes, span_succ, List.map_cons, ih]

theorem State.imageBytes_congr {s t : State} (h : ∀ a, t.image a = s.image a) (a n : Nat) : t.imageBytes a n = s.imageBytes a n := by
  simp only [State.imageBytes_eq_map, funext h]

/-- The cells of consecutive bytes, as a table: the byte at each location among them, and none elsewhere. -/
theorem cellsFrom_lookup (bs : List Byte) (l a : Nat) : (cellsFrom l bs).lookup a = if l ≤ a then bs[a - l]? else none := by
  induction bs generalizing l with
  | nil => simp [cellsFrom]
  | cons b bs ih =>
    rw [cellsFrom, List.lookup_cons, ih]
    rcases Nat.lt_trichotomy a l with h | rfl | h
    · have hne : (a == l) = false := beq_false_of_ne (by omega)
      simp [hne, show ¬ l ≤ a by omega, show ¬ l + 1 ≤ a by omega]
    · simp
    · have hne : (a == l) = false := beq_false_of_ne (by omega)
      obtain ⟨k, rfl⟩ : ∃ k, a = l + 1 + k := ⟨a - (l + 1), by omega⟩
      simp [hne, show l ≤ l + 1 + k by omega, show l + 1 + k - l = k + 1 by omega]

theorem le_of_mem_cellsFrom {bs : List Byte} {l : Nat} {e : Host.Cell} (h : e ∈ cellsFrom l bs) : l ≤ e.1 := by
  induction bs generalizing l with
  | nil => simp [cellsFrom] at h
  | cons b bs ih =>
    rcases List.mem_cons.1 h with rfl | h
    · exact Nat.le_refl _
    · exact Nat.le_of_succ_le (ih h)

theorem cellsFrom_rising (bs : List Byte) (l : Nat) : (cellsFrom l bs).Pairwise (fun a b => a.1 < b.1) := by
  induction bs generalizing l with
  | nil => exact .nil
  | cons b bs ih => exact List.pairwise_cons.2 ⟨fun _ he => le_of_mem_cellsFrom he, ih _⟩

/-- Of places one after another on this device. -/
theorem remoteOf_map_at (ls : List Nat) : remoteOf (ls.map .at) = none := by
  induction ls with
  | nil => rfl
  | cons a r ih => simp [remoteOf, ih]

theorem State.imageOf_span (s : State) (l n : Nat) : s.imageOf ((span l n).map .at) = s.imageBytes l n := by
  simp [State.imageOf, State.imageBytes_eq_map, Function.comp_def]

theorem cellsAt_span (bs : List Byte) (l : Nat) : cellsAt ((span l bs.length).map .at) bs = cellsFrom l bs := by
  induction bs generalizing l with
  | nil => rfl
  | cons b bs ih => rw [List.length_cons, span_succ, List.map_cons, cellsAt, cellsFrom, ih]

/-! ### The image after a write -/

/-- Cells of distinct locations are found in one of two lists. -/
theorem lookup_append_rising {p q : List Host.Cell} (h : (p ++ q).Pairwise (fun a b => a.1 < b.1)) (a : Nat) :
    (p ++ q).lookup a = (q.lookup a).or (p.lookup a) := by
  rw [List.lookup_append]
  cases hp : p.lookup a with
  | none => simp
  | some b =>
    have hm : (a, b) ∈ p := by
      obtain ⟨l₁, l₂, rfl, -⟩ := List.lookup_eq_some_iff.1 hp
      simp
    rw [lookup_eq_none_of_not_mem fun e he => Nat.ne_of_gt ((List.pairwise_append.1 h).2.2 _ hm e he)]
    simp

/-- Of writes that a test accepts, which hold the parts of rising cells, the latest gives a location the cell that is there. -/
theorem latest_parts {test : WEntry → Bool} {ps : List (List Host.Cell)} {f : Nat → List Host.Cell → WEntry}
    (hf : ∀ i p, test (f i p) = true ∧ (f i p).cells = p) (h : ps.flatten.Pairwise (fun a b => a.1 < b.1)) (a : Nat) :
    (latest test a (ps.mapIdx f)).map (·.2) = ps.flatten.lookup a := by
  induction ps generalizing f with
  | nil => rfl
  | cons p ps ih =>
    rw [List.flatten_cons] at h ⊢
    rw [lookup_append_rising h, ← ih (f := fun i => f (i + 1)) (fun i => hf (i + 1)) (List.pairwise_append.1 h).2.1, List.mapIdx_cons]
    obtain ⟨htest, hcells⟩ := hf 0 p
    simp only [latest, htest, WEntry.byteAt, hcells, if_true]
    cases latest test a (ps.mapIdx fun i => f (i + 1)) <;> simp

theorem State.image_eq_latest (s : State) (a : Nat) :
    s.image a = ((latest (fun e => decide (2 ≤ e.level)) a s.log).map (·.2)).getD (s.mem.read a) := by
  rw [State.image]
  split <;> next h => simp [h]

/-- A write by an agent outside the cores: the device image holds its bytes at the locations it names, and is as before elsewhere. -/
theorem State.writeDevice_image {s : State} (hs : LogOk s) {cells : List Host.Cell} (hc : cells.Pairwise (fun a b => a.1 < b.1)) (a : Nat) :
    (s.writeDevice cells).image a = (cells.lookup a).getD (s.image a) := by
  obtain ⟨cs, ns, ds, hw⟩ := s.writeDevice_eq cells
  have hparts := latest_parts (test := fun e => decide (2 ≤ e.level)) (ps := atomicParts cells)
    (f := fun i p => ⟨s.nextSeq + i, p, 0, 2⟩) (fun _ _ => ⟨rfl, rfl⟩) (by rwa [atomicParts_flatten]) a
  rw [hw, State.image_eq_latest, settleLog_latest ?rising _ _ (fun _ _ => decide_eq_true), latest_append, State.image_eq_latest s]
  case rising =>
    intro e he
    rcases List.mem_append.1 he with he | he
    · exact (hs.2 e he).2.imp fun h => h.1
    · obtain ⟨i, hi, rfl⟩ := List.mem_mapIdx.1 he
      exact atomicParts_rising cells _ (List.getElem_mem hi)
  rw [atomicParts_flatten] at hparts
  rw [← hparts]
  cases latest _ a ((atomicParts cells).mapIdx _) <;> rfl

/-- The same of consecutive bytes. -/
theorem State.writeDevice_cellsFrom_image {s : State} (hs : LogOk s) (l : Nat) (bs : List Byte) :
    (∀ i, i < bs.length → (s.writeDevice (cellsFrom l bs)).image (l + i) = bs.getD i 0) ∧
    ∀ a, a < l ∨ l + bs.length ≤ a → (s.writeDevice (cellsFrom l bs)).image a = s.image a := by
  simp only [State.writeDevice_image hs (cellsFrom_rising bs l), cellsFrom_lookup]
  refine ⟨fun i hi => by simp [hi], fun a ha => ?_⟩
  split
  · rw [List.getElem?_eq_none (by omega)]
    rfl
  · rfl

/-! ### What finding plane data reads of the machine (R46) -/

namespace FindsAlike

theorem setTenant (s : State) (v : Nat) {t : Tenant} (h : t.tableBase = (s.tenant v).tableBase) : FindsAlike v s (s.setTenant v t) :=
  ⟨by rw [State.tenant_setTenant_self, h], fun _ => rfl, fun _ _ _ => rfl⟩

variable {v : Nat} {s t : State} (h : FindsAlike v s t)
include h

theorem imageNat (a n : Nat) : t.imageNat a n = s.imageNat a n := by
  rw [State.imageNat, State.imageNat, State.imageBytes_congr h.image]

theorem descAddr (va : Word) : t.descAddr v va = s.descAddr v va := by rw [State.descAddr, State.descAddr, h.table]

theorem planeDesc (va : Word) : t.planeDesc v va = s.planeDesc v va := by
  rw [State.planeDesc, State.planeDesc, h.imageNat, h.descAddr]

theorem descLimit (va : Word) : t.descLimit v va = s.descLimit v va := by
  rw [State.descLimit, State.descLimit, h.imageNat, h.descAddr]

theorem checkPlane (va : Word) : t.checkPlane v va = s.checkPlane v va := by
  rw [State.checkPlane, State.checkPlane, State.descValid, State.descValid, State.planeOn, State.planeOn, h.table, h.descAddr,
    h.imageNat, h.imageNat, h.planeDesc]

theorem walkFrom (pos levels table : Nat) : t.walkFrom pos levels table = s.walkFrom pos levels table := by
  induction levels generalizing table with
  | zero => simp only [State.walkFrom, h.imageNat]
  | succ n ih => simp only [State.walkFrom, h.imageNat, ih]

theorem walk (va : Word) : t.walk v va = s.walk v va := by
  rw [State.walk, State.walk, h.table, h.walkFrom, State.descRoot, State.descRoot, h.imageNat, h.descAddr]

theorem place (va : Word) (need : Need) : t.place v va need = s.place v va need := by
  simp only [State.place, h.checkPlane, h.planeDesc, h.descLimit, h.walk, h.imageNat]

theorem findByte (va : Word) (need : Need) (b : Nat) : t.findByte v va need b = s.findByte v va need b := by
  simp only [State.findByte, h.planeDesc, h.place, h.line]

theorem findBytes (va : Word) (need : Need) (b n : Nat) : t.findBytes v va need b n = s.findBytes v va need b n := by
  induction n generalizing b with
  | zero => rfl
  | succ n ih => simp only [State.findBytes, h.findByte, ih]

theorem findFrom (va : Word) (need : Need) (off n : Nat) : t.findFrom v va need off n = s.findFrom v va need off n := by
  simp only [State.findFrom, h.checkPlane, h.descLimit, h.planeDesc, h.findBytes]

theorem liesAt (va : Word) (need : Need) (n loc : Nat) : LiesAt t v va need n loc ↔ LiesAt s v va need n loc := by
  rw [LiesAt, LiesAt, State.findAt, State.findAt, h.findFrom]

end FindsAlike

/-! ### Bytes that lie on this device -/

/-- A byte that is found has one place. -/
theorem State.findByte_length {s : State} {v : Nat} {va : Word} {need : Need} {b : Nat} {bs : List Byte1}
    (h : s.findByte v va need b = .bytes bs) : bs.length = 1 := by
  have one {x y} (h : Found.bytes [x] = .bytes y) : y.length = 1 := by rw [← Found.bytes.inj h]; rfl
  unfold State.findByte at h
  dsimp only at h
  split at h
  · nomatch h
  · split at h
    case h_2 | h_6 => exact one h
    case h_5 =>
      unfold State.lineFound at h
      split at h
      · nomatch h
      · split at h
        · nomatch h
        · exact one h
    all_goals nomatch h

/-- Where bytes lie one after another, so does each of them. -/
theorem State.findByte_of_findBytes {s : State} {v : Nat} {va : Word} {need : Need} {b n loc : Nat}
    (h : s.findBytes v va need b n = .bytes ((span loc n).map .at)) {i : Nat} (hi : i < n) :
    s.findByte v va need (b + i) = .bytes [.at (loc + i)] := by
  induction n generalizing b loc i with
  | zero => omega
  | succ n ih =>
    rw [State.findBytes, span_succ, List.map_cons] at h
    split at h
    case h_2 hx => exact absurd h (hx _)
    case h_1 x hx =>
      split at h
      case h_2 hy => exact absurd h (hy _)
      case h_1 y hy =>
        obtain ⟨p, rfl⟩ := List.length_eq_one_iff.1 (State.findByte_length hx)
        obtain ⟨rfl, rfl⟩ := List.cons.inj (Found.bytes.inj h)
        cases i with
        | zero => exact hx
        | succ i =>
          have := ih hy (Nat.lt_of_succ_lt_succ hi)
          rwa [Nat.add_right_comm b, Nat.add_right_comm loc] at this

section
variable {s : State} {v loc n : Nat} {va : Word} {need : Need}

/-- An access that finds its bytes has passed the checks of R46 on its first element, and its bytes are found one by one. -/
theorem LiesAt.findBytes (h : LiesAt s v va need n loc) :
    s.findBytes v va need ((s.planeDesc v va).byteOf (vaPos va)) n = .bytes ((span loc n).map .at) := by
  unfold LiesAt State.findAt State.findFrom at h
  split at h
  · nomatch h
  · split at h
    · nomatch h
    · exact h

/-- A record here is read as the device image stands. -/
theorem LiesAt.recTake (h : LiesAt s v va .read n loc) (ans : Answer) : s.recTake v va n ans = (s, .data (s.imageBytes loc n)) := by
  rw [recTake_here h (remoteOf_map_at _), State.imageOf_span]

/-- A state word here is swapped where it is the one expected. -/
theorem LiesAt.swapWord (h : LiesAt s v va .both 8 loc) (new : Nat) (ans : Answer) :
    s.swapWord v va (s.imageNat loc 8) new ans = (swapped s loc new, .swapped) := by
  have hcells := cellsAt_span (leBytes 8 new) loc
  rw [leBytes_length] at hcells
  rw [swapWord_here h (remoteOf_map_at _), State.imageOf_span, hcells]
  exact if_pos rfl

end

end Sys2Proof.Machine
end

section
/-! SUPPORT. The mailbox engine and doorbells: what an access of a function with nothing held comes to (R13, R17, R22, R126, R176). -/

namespace Sys2Proof.Machine

/-! ### A write within one line is one write (R13) -/

theorem sameLine_replicate (l : Nat × Nat × Nat) (n : Nat) : sameLine (List.replicate n l) = n := by
  cases n with
  | zero => rfl
  | succ n => simp [List.replicate_succ, sameLine, Nat.add_comm]

section
variable {s : State} {vf loc : Nat} {va : Word} {data : List Byte}

theorem State.linesAt_of_line {n : Nat} (hl : LiesAt s vf va .write n loc) (hline : loc % 64 + n ≤ 64) :
    s.linesAt vf va 0 n = List.replicate n (0, 0, loc / 64) := by
  refine List.eq_replicate_iff.2 ⟨by simp [State.linesAt], fun l h => ?_⟩
  obtain ⟨i, hi, rfl⟩ := List.mem_map.1 h
  rw [List.mem_range] at hi
  have hb := State.findByte_of_findBytes hl.findBytes hi
  simp only [Nat.add_zero, hb]
  rw [show (loc + i) / 64 = loc / 64 by omega]

theorem State.cutWrite_of_line (hd : data ≠ []) (hl : LiesAt s vf va .write data.length loc) (hline : loc % 64 + data.length ≤ 64) :
    s.cutWrite vf va data.length 0 data = [.write va 0 data] := by
  obtain ⟨b, r, rfl⟩ := List.exists_cons_of_ne_nil hd
  have hrest (k off : Nat) : s.cutWrite vf va k off [] = [] := by cases k <;> rfl
  rw [List.length_cons, State.cutWrite, State.linesAt_of_line hl hline, sameLine_replicate,
    List.take_length, List.drop_length, hrest]
  simp

end

/-! ### One access of a function with nothing held (R126, R176) -/

/-- A function holds accesses. -/
def State.holding (s : State) (v : Nat) (as : List HostAcc) : State := s.setTenant v { s.tenant v with held := as }

@[simp] theorem State.holding_away (s : State) (v : Nat) (as : List HostAcc) : ((s.holding v as).tenant v).away = (s.tenant v).away := by
  simp [State.holding]

/-- The tenants after one function's own has been put. -/
theorem State.tenant_setTenant (s : State) (v w : Nat) (t : Tenant) : (s.setTenant v t).tenant w = if w = v then t else s.tenant w :=
  Tab.get_set _ _ _ _ _

theorem State.holding_tenant (s : State) (v w : Nat) (as : List HostAcc) :
    (s.holding v as).tenant w = if w = v then { s.tenant v with held := as } else s.tenant w := s.tenant_setTenant v w _

section
variable {s : State} {vf : Nat} {ch : Choice}

/-- An access that ends at once leaves nothing held. -/
theorem State.mailIn_over {a : HostAcc} {u : State} (hheld : (s.tenant vf).held = [])
    (h : (s.holding vf [a]).mail vf a ch = .over u) :
    s.mailIn vf [a] ch = u.holding vf [] := by
  rw [State.mailIn, hheld, List.nil_append, State.drainHost, State.tenant_setTenant_self]
  simp only [State.drainRun, show (s.setTenant vf { s.tenant vf with held := [a] }).mail vf a ch = _ from h]
  rfl

/-- Joining the order of a function changes nothing that an access finds. -/
theorem FindsAlike.holding (s : State) (vf : Nat) (as : List HostAcc) :
    FindsAlike vf s (s.holding vf as) := .setTenant s vf rfl

theorem zipWith_here (ls : List Nat) (bs : List Byte) (f : Byte1 → Byte → Byte) (hf : ∀ a b, f (.at a) b = b)
    (h : ls.length = bs.length) :
    List.zipWith f (ls.map .at) bs = bs := by
  induction ls generalizing bs with
  | nil => cases bs with
    | nil => rfl
    | cons b bs => nomatch h
  | cons a r ih => cases bs with
    | nil => nomatch h
    | cons b bs => rw [List.map_cons, List.zipWith_cons_cons, hf, ih bs (Nat.succ.inj h)]

/-- A write with nothing of its function on the way to another device, whose bytes lie here, is made. -/
theorem State.mail_write_lies {va : Word} {data : List Byte} {loc : Nat} (haway : (s.tenant vf).away = []) (hway : ch.way = none)
    (hl : LiesAt s vf va .write data.length loc) :
    s.mail vf (.write va 0 data) ch = .over ((s.writeDevice (cellsFrom loc data)).clearAway vf) := by
  have hl : s.findFrom vf va .write 0 data.length = _ := hl
  simp [State.mail, State.mailAccess, haway, hl, remoteOf_map_at, State.hostEnds, cellsAt_span, hway, State.touchCache]

/-- A read likewise is answered with the device image. -/
theorem State.mail_read_lies {va : Word} {n loc : Nat} (haway : (s.tenant vf).away = []) (hway : ch.way = none)
    (hl : LiesAt s vf va .read n loc) :
    s.mail vf (.read va n) ch = .over ((s.send (.hostData vf (s.imageBytes loc n))).clearAway vf) := by
  have hl : s.findFrom vf va .read 0 n = _ := hl
  have hlength : (span loc n).length = (s.imageBytes loc n).length := by simp [span]
  simp [State.mail, State.mailAccess, haway, hl, remoteOf_map_at, State.hostEnds, hway, State.touchCache, State.imageOf_span,
    zipWith_here, hlength]

/-- A read that a check stops has no effect but that failure. -/
theorem State.mail_read_fault {va a : Word} {n cause e : Nat} (haway : (s.tenant vf).away = [])
    (hl : s.findAt vf va .read n = .fault cause e a) :
    s.mail vf (.read va n) ch = .over (s.send (if cause = 6 then .hostAbort vf else .hostUnsupported vf)) := by
  have hl : s.findFrom vf va .read 0 n = _ := hl
  by_cases hc : cause = 6 <;> simp [State.mail, State.mailAccess, haway, hl, State.failHost, hc]

/-- An access that has ended leaves its function with nothing held, and nothing on the way to another device. -/
def State.mailDone (s : State) (v : Nat) : State := s.setTenant v { s.tenant v with held := [], away := [], lines := [] }

theorem State.mailDone_tenant (s : State) (v w : Nat) :
    (s.mailDone v).tenant w = if w = v then { s.tenant v with held := [], away := [], lines := [] } else s.tenant w :=
  s.tenant_setTenant v w _

theorem State.clearAway_held (s : State) (v : Nat) :
    (s.clearAway v).holding v [] = s.mailDone v := by
  simp [State.clearAway, State.mailDone, State.holding, State.setTenant, State.tenant]

/-- What `State.mailDone` leaves of a function that had nothing held. -/
theorem State.mailDone_holding {s u : State} {vf : Nat} {as : List HostAcc} (hheld : (s.tenant vf).held = [])
    (haway : (s.tenant vf).away = [])
    (hu : u.tenants = (s.holding vf as).tenants) (v : Nat) :
    (u.mailDone vf).tenant v = if v = vf then { s.tenant vf with lines := [] } else s.tenant v := by
  have hu (w : Nat) : u.tenant w = if w = vf then { s.tenant vf with held := as } else s.tenant w := by
    rw [State.tenant, hu]
    exact s.holding_tenant vf w as
  rw [State.mailDone_tenant, hu vf, if_pos rfl]
  split
  · simp only [← hheld, ← haway]
  · next hv => rw [hu, if_neg hv]

/-- A host write of bytes that lie within one line here is one write of the device, and leaves nothing held. -/
theorem exec_hostWrite_of_line {va : Word} {data : List Byte} {ide : Bool} {loc : Nat} (htakes : s.mailboxTakes vf ide = true)
    (hheld : (s.tenant vf).held = [])
    (haway : (s.tenant vf).away = []) (hway : ch.way = none) (hd : data ≠ [])
    (hline : loc % 64 + data.length ≤ 64) (hl : LiesAt s vf va .write data.length loc) :
    exec (.hostWrite vf va data ide ch) s =
      .next (((s.holding vf [.write va 0 data]).writeDevice (cellsFrom loc data)).mailDone vf) := by
  have hmail := State.mail_write_lies (s := s.holding vf [.write va 0 data]) (by simpa using haway) hway
    (((FindsAlike.holding s vf _).liesAt ..).2 hl)
  show execHostWrite vf va data ide ch s = _
  rw [execHostWrite, if_neg hd, if_neg (by simp [htakes]), State.cutWrite_of_line hd hl hline, State.mailIn_over hheld hmail,
    State.clearAway_held]

/-- A read that the mailbox takes joins its function's order. -/
theorem exec_hostRead_taken {va : Word} {n : Nat} {ide : Bool} (htakes : s.mailboxTakes vf ide = true) (hn : n ≠ 0) :
    exec (.hostRead vf va n ide ch) s = .next (s.mailIn vf [.read va n] ch) := by
  have hvf : vf ≠ Config.functions := by
    simp only [State.mailboxTakes, Bool.and_eq_true, decide_eq_true_eq] at htakes
    omega
  show execHostRead vf va n ide ch s = _
  rw [execHostRead, if_neg hvf, if_neg hn, if_neg (by simp [htakes])]

/-- A host read of bytes that lie here is answered with the device image, and leaves nothing held. -/
theorem exec_hostRead_lies {va : Word} {n : Nat} {ide : Bool} {loc : Nat} (htakes : s.mailboxTakes vf ide = true)
    (hheld : (s.tenant vf).held = [])
    (haway : (s.tenant vf).away = []) (hway : ch.way = none) (hn : n ≠ 0)
    (hl : LiesAt s vf va .read n loc) :
    exec (.hostRead vf va n ide ch) s =
      .next (((s.holding vf [.read va n]).send (.hostData vf (s.imageBytes loc n))).mailDone vf) := by
  have hmail := State.mail_read_lies (s := s.holding vf [.read va n]) (by simpa using haway) hway
    (((FindsAlike.holding s vf _).liesAt ..).2 hl)
  rw [State.imageBytes_congr (t := s.holding vf _) (s := s) fun _ => rfl] at hmail
  rw [exec_hostRead_taken htakes hn, State.mailIn_over hheld hmail, State.clearAway_held]

/-- A host read that a check stops is answered as that failure, and leaves the machine as it was. -/
theorem exec_hostRead_fault {va a : Word} {n cause e : Nat} {ide : Bool} (htakes : s.mailboxTakes vf ide = true)
    (hheld : (s.tenant vf).held = [])
    (haway : (s.tenant vf).away = []) (hn : n ≠ 0) (hl : s.findAt vf va .read n = .fault cause e a) :
    ∃ u, exec (.hostRead vf va n ide ch) s = .next u ∧ (∀ v, u.tenant v = s.tenant v) ∧
      u = { s with tenants := u.tenants, out := s.out ++ [if cause = 6 then .hostAbort vf else .hostUnsupported vf] } := by
  have hmail := State.mail_read_fault (ch := ch) (s := s.holding vf [.read va n]) (by simpa using haway)
    (((FindsAlike.holding s vf _).findFrom ..).trans hl)
  have hexec : exec (.hostRead vf va n ide ch) s = .next (s.mailIn vf [.read va n] ch) := exec_hostRead_taken htakes hn
  refine ⟨_, hexec.trans (congrArg _ (State.mailIn_over hheld hmail)), fun v => ?_, rfl⟩
  rw [State.holding_tenant]
  split
  · next hv =>
    rw [hv, show ((s.holding vf [.read va n]).send _).tenant vf = _ from State.tenant_setTenant_self ..]
    simp only [← hheld]
  · next hv => exact (s.holding_tenant vf v _).trans (if_neg hv)

end

end Sys2Proof.Machine
end

section
/-! SUPPORT. What the mailbox does not take, doorbells, and the physical function's reads; then the obligation (R17, R20, R22, R23, R145,
R176, R182). -/

namespace Sys2Proof.Machine

/-! ### What is not taken (R22, R182) -/

section
variable {s : State} {vf : Nat} {ide : Bool}

theorem State.mailboxTakes_eq_false (h : ((s.tenant vf).tdispOn = true ∧ (s.tenant vf).tdisp = .run ∧ ide = false) ∨
    s.module.stage < 5 ∨ s.module.stage = 15) : s.mailboxTakes vf ide = false := by
  rcases h with ⟨hon, hrun, hide⟩ | h | h
  · simp [State.mailboxTakes, hon, hrun, hide]
  · simp [State.mailboxTakes, h]
  · simp [State.mailboxTakes, h]

theorem exec_hostWrite_not_taken {va : Word} {data : List Byte} {ch : Choice} (h : s.mailboxTakes vf ide = false) (hd : data ≠ []) :
    exec (.hostWrite vf va data ide ch) s = .next (s.send (.hostUnsupported vf)) := by
  show execHostWrite vf va data ide ch s = _
  rw [execHostWrite, if_neg hd, if_pos (by simp [h])]

theorem exec_hostRead_not_taken {va : Word} {n : Nat} {ch : Choice} (h : s.mailboxTakes vf ide = false) (hn : n ≠ 0) (hvf : vf < 1024) :
    exec (.hostRead vf va n ide ch) s = .next (s.send (.hostUnsupported vf)) := by
  show execHostRead vf va n ide ch s = _
  rw [execHostRead, if_neg (show vf ≠ Config.functions from Nat.ne_of_lt hvf), if_neg hn, if_pos (by simp [h])]

/-! ### Doorbells (R17, R145, R176) -/

variable {q : Nat} {va : Word}

theorem exec_doorbellWrite_secret (h : (s.tenant vf).tdispOn = true ∧ (s.tenant vf).tdisp = .run ∧ ide = false) :
    exec (.doorbellWrite vf q va ide) s = .next (s.send (.hostUnsupported vf)) :=
  if_pos ⟨h.1, h.2.1, by simp [h.2.2]⟩

section
variable (hopen : ¬ ((s.tenant vf).tdispOn = true ∧ (s.tenant vf).tdisp = .run ∧ ide = false))
include hopen

theorem exec_doorbellWrite_bell (hheld : (s.tenant vf).held = []) :
    exec (.doorbellWrite vf q va ide) s = .next (s.bell vf q va) := by
  refine (if_neg fun h => hopen ⟨h.1, h.2.1, by simpa using h.2.2⟩).trans (if_pos ?_)
  rw [hheld]
  rfl

/-- A doorbell takes its place behind the accesses of its function that are held. -/
theorem exec_doorbellWrite_held (hheld : (s.tenant vf).held ≠ []) :
    exec (.doorbellWrite vf q va ide) s =
      .next (s.setTenant vf { s.tenant vf with held := (s.tenant vf).held ++ [.bell q va] }) :=
  (if_neg fun h => hopen ⟨h.1, h.2.1, by simpa using h.2.2⟩).trans (if_neg (by simpa using hheld))

end

/-- What a doorbell of an enabled queue of its function leaves: an EMPTY queue becomes PENDING, at the end of its rotation. -/
theorem State.bell_rung (hready : s.ready = true) (hen : (s.queue q).enabled = true) (hvf : (s.queue q).vf = some vf)
    (hrun : (s.tenant vf).tdispOn = true → (s.tenant vf).tdisp = .run) : s.bell vf q va = s.pushWork q { va := va } := by
  refine if_neg ?_
  rintro (h | h | h | ⟨hon, h⟩)
  · simp [hready] at h
  · simp [hen] at h
  · exact h hvf
  · exact h (hrun hon)

theorem State.bell_lost (h : s.ready = false ∨ (s.queue q).enabled = false ∨ (s.queue q).vf ≠ some vf ∨
    ((s.tenant vf).tdispOn = true ∧ (s.tenant vf).tdisp ≠ .run)) :
    s.bell vf q va = s.setTenant vf { s.tenant vf with lostBells := (s.tenant vf).lostBells + 1 } :=
  if_pos (by simpa using h)

/-- Of the machine, work given to a queue changes that queue and the rotation. -/
theorem State.pushWork_eq (i : QItem) :
    s.pushWork q i = { s with
      queues := s.queues.set q
        { s.queue q with unread := (s.queue q).unread ++ [i], st := if (s.queue q).st = .empty then .pending else (s.queue q).st,
                         turn := if (s.queue q).st = .empty then s.nextTurn else (s.queue q).turn },
      nextTurn := if (s.queue q).st = .empty then s.nextTurn + 1 else s.nextTurn } := by
  unfold State.pushWork
  by_cases h : (s.queue q).st = .empty <;> simp [h, State.setQueue]

end

/-! ### The physical function (R20, R23) -/

theorem leBytes_eq_map (n v : Nat) : leBytes n v = (List.range n).map fun i => BitVec.ofNat 8 (v / 2 ^ (8 * i)) := by
  induction n generalizing v with
  | zero => rfl
  | succ n ih =>
    rw [leBytes, ih, List.range_succ_eq_map]
    simp [Function.comp_def, Nat.div_div_eq_div_mul, Nat.mul_add, Nat.pow_add, Nat.mul_comm 256]

/-- `DEVSTAT` in the management register block. -/
theorem State.registerBytes_devstat (s : State) : s.registerBytes 0x10 8 = some (leBytes 8 s.module.devstat.toNat) := by
  rw [leBytes_eq_map]
  rfl

theorem exec_hostRead_physical (s : State) (va : Word) (n : Nat) (ide : Bool) (ch : Choice) :
    exec (.hostRead 1024 va n ide ch) s = .next (if s.module.hostLink then s.readBlock va.toNat n else s) := by
  show execHostRead 1024 va n ide ch s = _
  rw [execHostRead, if_pos (show 1024 = Config.functions from rfl)]

/-! ### The obligation -/

/-- Settles O43: each clause is a case of the accesses above. -/
theorem hostAccesses : Obligations.HostAccesses := by
  unfold Obligations.HostAccesses
  intro vf q n loc va data ide ch s hs t w secret
  refine ⟨?write, ?read, ?fault, ?unsupported, exec_doorbellWrite_secret, ?bell, exec_doorbellWrite_held, ?block, ?down⟩
  case write =>
    intro htakes hheld haway hway hd hline hl
    refine ⟨_, exec_hostWrite_of_line htakes hheld haway hway hd hline hl, ?_⟩
    obtain ⟨cs, ns, ds, hw⟩ := (s.holding vf [.write va 0 data]).writeDevice_eq (cellsFrom loc data)
    exact ⟨by rw [hw]; rfl, State.mailDone_holding hheld haway (by rw [hw]),
      State.writeDevice_cellsFrom_image (s := s.holding vf _) hs loc data⟩
  case read =>
    intro htakes hheld haway hway hn hl
    refine ⟨_, exec_hostRead_lies htakes hheld haway hway hn hl, State.mailDone_holding hheld haway rfl, ?_⟩
    rw [State.imageBytes_eq_map, span, List.map_map]
    rfl
  case fault =>
    intro htakes hheld haway hn cause e a hl
    exact exec_hostRead_fault htakes hheld haway hn hl
  case unsupported =>
    intro h
    exact ⟨exec_hostWrite_not_taken (State.mailboxTakes_eq_false h), exec_hostRead_not_taken (State.mailboxTakes_eq_false h)⟩
  case bell =>
    intro hopen hheld
    refine ⟨fun hready hen hvf hrun => ?_, fun h => ?_⟩
    · refine ⟨_, exec_doorbellWrite_bell hopen hheld, ?_⟩
      rw [State.bell_rung hready hen hvf hrun, State.pushWork_eq]
      refine ⟨?_, ?_, ?_⟩
      · simp [State.queue]
      · exact Tab.get_set_self _ _ _ _
      · intro h
        exact if_pos h
    · rw [exec_doorbellWrite_bell hopen hheld, State.bell_lost h]
  case block =>
    intro hlink
    rw [exec_hostRead_physical, if_pos hlink, State.readBlock, show BitVec.toNat (0x10 : Word) = 0x10 from rfl, State.registerBytes_devstat]
    rfl
  case down =>
    intro hlink
    rw [exec_hostRead_physical, if_neg (by simp [hlink])]

end Sys2Proof.Machine
end

section
/-! SUPPORT. What a lease lets through, what a port lets in, and what becomes of a link; then the obligation (R160, R163, R190, R191, R209,
R210, R334). -/

namespace Sys2Proof.Machine

/-! ### What a lease lets through (R163) -/

/-- The lease lends `n` bytes at an address to the borrower. -/
def State.lends (s : State) (borrower lease addr n : Nat) : Prop :=
  lease < 256 ∧ (s.lease lease).borrower = borrower ∧
    ((s.lease lease).st = .active ∨ (s.lease lease).st = .reclaiming ∨ (s.lease lease).st = .frozen) ∧
    4096 * (s.lease lease).base ≤ addr ∧ addr + n ≤ 4096 * ((s.lease lease).base + (s.lease lease).len)

section
variable {s : State} {borrower lease addr n : Nat} {wr : Bool}

theorem State.leaseCheck_of_not_lends (h : ¬ s.lends borrower lease addr n) : s.leaseCheck borrower lease addr n wr = some .lost := by
  refine if_pos ?_
  by_contra hno
  simp only [not_or, Nat.not_le, Nat.not_lt, Decidable.not_not] at hno
  obtain ⟨hid, hb, hfree, hoffered, hrevoked, hlo, hhi⟩ := hno
  refine h ⟨hid, hb, ?_, hlo, hhi⟩
  cases hst : (s.lease lease).st <;> simp [hst] at hfree hoffered hrevoked ⊢

/-- What the lease makes of an access within what it lends. -/
theorem State.leaseCheck_of_lends (h : s.lends borrower lease addr n) :
    s.leaseCheck borrower lease addr n wr =
      if wr ∧ (s.lease lease).rdonly then some .readOnly
      else if wr ∧ (s.lease lease).st = .frozen then some .refused
      else if (List.range n).any (fun i => s.lentLost lease (addr + i)) then some .poison
      else none := by
  obtain ⟨hid, hb, hst, hlo, hhi⟩ := h
  refine if_neg ?_
  rintro (h | h | h | h | h | h | h)
  · omega
  · exact h hb
  · simp [h] at hst
  · simp [h] at hst
  · simp [h] at hst
  · omega
  · omega

/-- A write is let through where the lease is not read only and not FROZEN; a read either way. -/
def State.letsWrite (s : State) (lease : Nat) (wr : Bool) : Prop :=
  wr = true → (s.lease lease).rdonly = false ∧ (s.lease lease).st ≠ .frozen

theorem State.leaseCheck_of_letsWrite (h : s.lends borrower lease addr n) (hwr : s.letsWrite lease wr) :
    s.leaseCheck borrower lease addr n wr =
      if (List.range n).any (fun i => s.lentLost lease (addr + i)) then some .poison else none := by
  have hro : ¬ (wr = true ∧ (s.lease lease).rdonly = true) := fun ⟨h1, h2⟩ => by simp [(hwr h1).1] at h2
  have hfr : ¬ (wr = true ∧ (s.lease lease).st = .frozen) := fun ⟨h1, h2⟩ => (hwr h1).2 h2
  rw [State.leaseCheck_of_lends h, if_neg hro, if_neg hfr]

/-- Of what is lent, a line that is lost is given to nobody. -/
theorem State.leaseCheck_lost (h : s.lends borrower lease addr n) (hwr : s.letsWrite lease wr)
    (hlost : ∃ i, i < n ∧ s.lentLost lease (addr + i) = true) : s.leaseCheck borrower lease addr n wr = some .poison := by
  rw [State.leaseCheck_of_letsWrite h hwr]
  exact if_pos (by simpa using hlost)

theorem State.leaseCheck_passes (h : s.lends borrower lease addr n) (hwr : s.letsWrite lease wr)
    (hlost : ¬ ∃ i, i < n ∧ s.lentLost lease (addr + i) = true) : s.leaseCheck borrower lease addr n wr = none := by
  rw [State.leaseCheck_of_letsWrite h hwr]
  exact if_neg (by simpa using hlost)

/-- An access that the lease lets through waits for a channel, or, a write, for counters (R202, R206). -/
theorem State.leaseWaits_iff (h : s.leaseCheck borrower lease addr n wr = none) :
    s.leaseWaits borrower lease addr n wr = true ↔ ∃ i, i < n ∧
      ((s.lentMain lease (addr + i) = true ∧ s.channelWaits (addr + i) = true) ∨ (wr = true ∧ s.mustWait (addr + i) = true)) := by
  simp [State.leaseWaits, h]

theorem State.leaseWaits_of_check {x : Answer} (h : s.leaseCheck borrower lease addr n wr = some x) :
    s.leaseWaits borrower lease addr n wr = false := by
  simp [State.leaseWaits, h]

end

/-! ### Bytes merged under a mask (R129, R160) -/

/-- The cells that a write under masks makes from an address on: `f` gives the byte that each is merged into. -/
def maskedCells (f : Nat → Byte) (a : Nat) (ms : List (Byte × Byte)) : List Host.Cell :=
  ((ms.mapIdx (fun i m => (a + i, m))).filter (fun x => x.2.1 != 0)).map (fun x => (x.1, mergeByte (f x.1) x.2.1 x.2.2))

theorem maskedCells_cons (f : Nat → Byte) (a : Nat) (m : Byte × Byte) (ms : List (Byte × Byte)) :
    maskedCells f a (m :: ms) = if m.1 = 0 then maskedCells f (a + 1) ms
      else (a, mergeByte (f a) m.1 m.2) :: maskedCells f (a + 1) ms := by
  by_cases h : m.1 = 0#8 <;> simp [maskedCells, List.mapIdx_cons, h, Nat.add_assoc, Nat.add_comm 1]

theorem le_of_mem_maskedCells {f : Nat → Byte} {a : Nat} {ms : List (Byte × Byte)} {e : Host.Cell} (h : e ∈ maskedCells f a ms) :
    a ≤ e.1 := by
  induction ms generalizing a with
  | nil => nomatch h
  | cons m ms ih =>
    rw [maskedCells_cons] at h
    split at h
    · exact Nat.le_of_succ_le (ih h)
    · rcases List.mem_cons.1 h with rfl | h
      · exact Nat.le_refl _
      · exact Nat.le_of_succ_le (ih h)

theorem maskedCells_rising (f : Nat → Byte) (a : Nat) (ms : List (Byte × Byte)) :
    (maskedCells f a ms).Pairwise (fun a b => a.1 < b.1) := by
  induction ms generalizing a with
  | nil => exact .nil
  | cons m ms ih =>
    rw [maskedCells_cons]
    split
    · exact ih _
    · exact List.pairwise_cons.2 ⟨fun _ he => le_of_mem_maskedCells he, ih _⟩

theorem maskedCells_lookup_outside (f : Nat → Byte) {a b : Nat} (ms : List (Byte × Byte)) (h : b < a ∨ a + ms.length ≤ b) :
    (maskedCells f a ms).lookup b = none := by
  induction ms generalizing a with
  | nil => rfl
  | cons m ms ih =>
    rw [List.length_cons] at h
    rw [maskedCells_cons]
    split
    · exact ih (by omega)
    · rw [List.lookup_cons, beq_false_of_ne (by omega)]
      exact ih (by omega)

theorem maskedCells_lookup (f : Nat → Byte) {a i : Nat} {ms : List (Byte × Byte)} (h : i < ms.length) :
    (maskedCells f a ms).lookup (a + i) =
      if (ms.getD i 0).1 = 0 then none else some (mergeByte (f (a + i)) (ms.getD i 0).1 (ms.getD i 0).2) := by
  induction ms generalizing a i with
  | nil => nomatch h
  | cons m ms ih =>
    rw [maskedCells_cons]
    cases i with
    | zero =>
      simp only [Nat.add_zero, List.getD_cons_zero]
      split
      · exact maskedCells_lookup_outside f ms (.inl (Nat.lt_succ_self a))
      · simp
    | succ i =>
      have hi := ih (a := a + 1) (Nat.lt_of_succ_lt_succ h)
      rw [Nat.add_assoc, Nat.add_comm 1] at hi
      rw [List.getD_cons_succ, ← hi]
      split
      · rfl
      · rw [List.lookup_cons, beq_false_of_ne (by omega)]

/-! ### Forwarded accesses (R160, R163, R190) -/

section
variable {s : State} {port tag borrower lease addr : Nat} {wr : Option (List (Byte × Byte))}

/-- A port whose link works is up. -/
theorem State.portUp_iff (s : State) (port : Nat) :
    s.portUp port = true ↔
      port < 18 ∧ s.module.avdexLink = true ∧ (s.port port).fenced = false ∧ (s.port port).retrain = false := by
  simp only [State.portUp, Bool.and_eq_true, decide_eq_true_eq, Bool.not_eq_true', and_assoc]
  rfl

theorem State.serveLine_checked {x : Answer} (h : s.leaseCheck borrower lease (lineBase addr) 64 wr.isSome = some x) :
    s.serveLine borrower lease addr wr = (s, x) := by
  simp only [State.serveLine, h]

theorem State.serveLine_read (h : s.leaseCheck borrower lease (lineBase addr) 64 false = none) :
    s.serveLine borrower lease addr none = (s, .data (s.imageBytes (lineBase addr) 64)) := by
  simp only [State.serveLine, Option.isSome_none, h]

/-- A write that the lease lets through merges its bits into each byte's latest write. -/
theorem State.serveLine_write {ms : List (Byte × Byte)} (h : s.leaseCheck borrower lease (lineBase addr) 64 true = none)
    (hms : ms.length = 64) :
    s.serveLine borrower lease addr (some ms) = (s.writeDevice (maskedCells s.newest (lineBase addr) ms), .ok) := by
  simp only [State.serveLine, Option.isSome_some, h, List.take_of_length_le hms.le]
  rfl

theorem exec_forwardedAccess_down (hup : ¬ s.portUp port = true) :
    exec (.forwardedAccess ⟨port, tag⟩ borrower lease addr wr) s = .next s := if_pos (by simpa using hup)

section
variable (hup : s.portUp port = true)
include hup

theorem exec_forwardedAccess_barred (htag : tag = 0 ∨ tag ∉ (s.port port).permit) :
    exec (.forwardedAccess ⟨port, tag⟩ borrower lease addr wr) s = .next (s.send (.refusedAt port tag)) := by
  show execForwardedAccess _ borrower lease addr wr s = _
  rw [execForwardedAccess, if_neg (by simp [hup]), if_pos (by simp [State.lets]; tauto)]

variable (htag : tag ≠ 0) (hpermit : tag ∈ (s.port port).permit)
include htag hpermit

/-- An access that a port lets in waits, or is answered. -/
theorem exec_forwardedAccess_let_in :
    exec (.forwardedAccess ⟨port, tag⟩ borrower lease addr wr) s =
      if s.leaseWaits borrower lease (lineBase addr) 64 wr.isSome then .next s
      else .next (answerTo borrower (s.serveLine borrower lease addr wr)) := by
  show execForwardedAccess _ borrower lease addr wr s = _
  rw [execForwardedAccess, if_neg (by simp [hup]), if_neg (by simp [State.lets, htag, hpermit])]

/-- One that the lease does not let through is answered so. -/
theorem exec_forwardedAccess_checked {x : Answer} (h : s.leaseCheck borrower lease (lineBase addr) 64 wr.isSome = some x) :
    exec (.forwardedAccess ⟨port, tag⟩ borrower lease addr wr) s = .next (s.send (.answer borrower x)) := by
  rw [exec_forwardedAccess_let_in hup htag hpermit, State.leaseWaits_of_check h, if_neg Bool.false_ne_true, State.serveLine_checked h]
  rfl

theorem exec_forwardedAccess_waits (h : s.leaseWaits borrower lease (lineBase addr) 64 wr.isSome = true) :
    exec (.forwardedAccess ⟨port, tag⟩ borrower lease addr wr) s = .next s := by
  rw [exec_forwardedAccess_let_in hup htag hpermit, if_pos h]

/-- A read that the lease lets through is answered with the line. -/
theorem exec_forwardedAccess_read (h : s.leaseCheck borrower lease (lineBase addr) 64 false = none)
    (hw : ¬ s.leaseWaits borrower lease (lineBase addr) 64 false = true) :
    exec (.forwardedAccess ⟨port, tag⟩ borrower lease addr none) s =
      .next (s.send (.answer borrower (.data (s.imageBytes (lineBase addr) 64)))) := by
  refine (exec_forwardedAccess_let_in hup htag hpermit).trans ((if_neg hw).trans ?_)
  rw [State.serveLine_read h]
  rfl

theorem exec_forwardedAccess_write {ms : List (Byte × Byte)} (h : s.leaseCheck borrower lease (lineBase addr) 64 true = none)
    (hw : ¬ s.leaseWaits borrower lease (lineBase addr) 64 true = true) (hms : ms.length = 64) :
    exec (.forwardedAccess ⟨port, tag⟩ borrower lease addr (some ms)) s =
      .next ((s.writeDevice (maskedCells s.newest (lineBase addr) ms)).send (.answer borrower .ok)) := by
  refine (exec_forwardedAccess_let_in hup htag hpermit).trans ((if_neg hw).trans ?_)
  rw [State.serveLine_write h hms]
  rfl

end
/-! ### Requests of the fabric (R190, R334) -/

variable {ftid : Nat} {q : FabricRequest} {ch : Choice}

theorem exec_avdexRequest_down (hup : ¬ s.portUp port = true) : exec (.avdexRequest port tag ftid q ch) s = .next s :=
  if_pos (by simpa using hup)

section
variable (hup : s.portUp port = true)
include hup

theorem exec_avdexRequest_barred (htag : tag ∉ (s.port port).permit ∨ (tag = 0 ∧ isTransit q = false)) :
    exec (.avdexRequest port tag ftid q ch) s = .next (s.send (.refusedAt port tag)) :=
  (if_neg (by simp [hup])).trans (if_pos (by simpa using htag))

/-- A request for another device is passed on where the port it leaves by permits its tag. -/
theorem exec_avdexRequest_transit (hpermit : tag ∈ (s.port port).permit) (out : Nat) :
    exec (.avdexRequest port tag ftid (.transit out) ch) s = .next (s.passOn port tag out) := by
  show execAvdexRequest port tag ftid (.transit out) ch s = _
  rw [execAvdexRequest, if_neg (by simp [hup]), if_neg (by simp [hpermit, isTransit]), if_neg (by simp [State.requestWaits])]

variable (htag : tag ≠ 0) (hpermit : tag ∈ (s.port port).permit)
include htag hpermit

/-- A line that is asked for is served as a forwarded access is. -/
theorem exec_avdexRequest_line :
    exec (.avdexRequest port tag ftid (.line borrower lease addr wr) ch) s =
      exec (.forwardedAccess ⟨port, tag⟩ borrower lease addr wr) s := by
  rw [exec_forwardedAccess_let_in hup htag hpermit]
  show execAvdexRequest port tag ftid (.line borrower lease addr wr) ch s = _
  rw [execAvdexRequest, if_neg (by simp [hup]), if_neg (by simp [hpermit, htag])]
  rfl

/-- A request of a tag and an FTID that no enabled function bears goes no further. -/
theorem exec_avdexRequest_no_function (hv : s.functionOf ftid tag = none) (name asker dev l a : Nat) (fail : Bool) :
    exec (.avdexRequest port tag ftid (.event name fail) ch) s = .next (s.send (.refusedAt port tag)) ∧
    exec (.avdexRequest port tag ftid (.fields asker dev a) ch) s = .next (s.send (.refusedAt port tag)) ∧
    exec (.avdexRequest port tag ftid (.object asker s.module.devId l a) ch) s = .next (s.send (.refusedAt port tag)) := by
  simp [exec, execAvdexRequest, hup, hpermit, htag, State.requestWaits, hv]

variable {v : Nat} (hv : s.functionOf ftid tag = some v)
include hv

theorem exec_avdexRequest_event (name : Nat) (fail : Bool) :
    exec (.avdexRequest port tag ftid (.event name fail) ch) s = .next ((s.signals [⟨v, name, fail⟩]).send (.accepted port tag)) := by
  simp [exec, execAvdexRequest, hup, hpermit, htag, State.requestWaits, hv]

theorem exec_avdexRequest_fields (asker dev a : Nat) :
    exec (.avdexRequest port tag ftid (.fields asker dev a) ch) s =
      .next (s.send (.answer asker (((s.launchAt v dev a).map (fun l => Answer.data l.info)).getD .lost))) := by
  simp [exec, execAvdexRequest, hup, hpermit, htag, State.requestWaits, hv, answerTo]

theorem exec_avdexRequest_object (asker l a : Nat) :
    exec (.avdexRequest port tag ftid (.object asker s.module.devId l a) ch) s =
      .next (s.send (.answer asker (if s.ownBarrier v a then .data (s.imageBytes a 2624) else .lost))) := by
  simp [exec, execAvdexRequest, hup, hpermit, htag, State.requestWaits, hv, answerTo]

end
end

/-! ### Answers that do not come, links, and routes (R191, R209, R210) -/

section
variable {s : State} {port : Nat}

theorem State.unansweredLate_iff (s : State) (fs : List Fwd) :
    s.unansweredLate fs = true ↔ ∃ f ∈ fs, f.ans = .none ∧ f.sent + s.module.fabricTimeout ≤ s.time := by
  simp [State.unansweredLate]

/-- An operation, or an instruction fetch where no operation is named, without an answer in time ends its context. -/
theorem exec_fabricRequesterTimeout_ends {c id : Nat} {x : CtxId} {fs : List Fwd}
    (h : (∃ o, s.opAt c x id = some o ∧ o.lines = fs) ∨ (s.opAt c x id = none ∧ (s.ctxAt c x).lines = fs)) :
    ((∃ f ∈ fs, f.ans = .none ∧ f.sent + s.module.fabricTimeout ≤ s.time) →
      exec (.fabricRequesterTimeout c x id) s = .next (s.contextRung (s.coreAt c).team 6 8 (s.teamOf c).addr.toNat [])) ∧
    ((¬ ∃ f ∈ fs, f.ans = .none ∧ f.sent + s.module.fabricTimeout ≤ s.time) →
      exec (.fabricRequesterTimeout c x id) s = .next s) := by
  rw [← s.unansweredLate_iff]
  show (_ → execFabricRequesterTimeout c x id s = _) ∧ (_ → execFabricRequesterTimeout c x id s = _)
  rcases h with ⟨o, ho, rfl⟩ | ⟨ho, rfl⟩
  · simp only [execFabricRequesterTimeout, ho]
    exact ⟨fun h => if_pos h, fun h => if_neg h⟩
  · simp only [execFabricRequesterTimeout, ho]
    exact ⟨fun h => if_pos h, fun h => if_neg h⟩

section
variable {fails : Nat} (hport : port < 18) (hfenced : (s.port port).fenced = false) (hretrain : (s.port port).retrain = false)
include hport hfenced hretrain

theorem exec_flitReplay_working :
    exec (.flitReplay port fails) s =
      if 16 ≤ fails then .next (s.setPort port { s.port port with fails := 16, retrain := true })
      else .next ((s.setPort port { s.port port with fails := 0 }).countError 7 0 0 4 none port) := by
  refine if_neg ?_
  rintro (h | h | h)
  · simp [hfenced] at h
  · simp [hretrain] at h
  · exact absurd hport (Nat.not_lt.2 h)

end

theorem exec_avdexLinkRetrain_retrained {ok : Bool} {routes : List (Nat × Nat)} (h : (s.port port).retrain = true) :
    exec (.avdexLinkRetrain port ok routes) s =
      if ok then .next ((s.setPort port { s.port port with fails := 0, retrain := false }).countError 7 1 0 4 none port)
      else .next (((s.setPort port { s.port port with retrain := false, fenced := true }).countError 7 2 0 4 none port).loadRoutes
        routes) :=
  if_neg (by simp [h])

/-- A route that is loaded with a next port of its entry that is not fenced leads there. -/
theorem State.loadRoutes_routeTo {dev out : Nat} (h : out ∈ s.routes.get [] dev) (hf : (s.port out).fenced = false) :
    (s.loadRoutes [(dev, out)]).routeTo dev = out := by
  have hfind (p : Nat) : ({ s with routes := s.routes.set dev (out :: (s.routes.get [] dev).filter (· != out)) } : State).port p =
      s.port p := rfl
  rw [State.loadRoutes, if_pos ⟨by simpa using h, by simp [hf]⟩, State.loadRoutes, State.routeTo]
  simp only [Tab.get_set_self, hfind]
  simp [hf]

/-- Any other load changes nothing. -/
theorem State.loadRoutes_ignored {dev out : Nat} (h : out ∉ s.routes.get [] dev ∨ (s.port out).fenced = true) :
    s.loadRoutes [(dev, out)] = s := by
  refine (congrArg (State.loadRoutes · []) (if_neg ?_)).trans rfl
  rintro ⟨hmem, hf⟩
  rcases h with h | h
  · exact h (by simpa using hmem)
  · simp [h] at hf

/-- A route avoids what is fenced while it can. -/
theorem State.routeTo_avoids {dev : Nat} (h : ∃ q ∈ s.routes.get [] dev, (s.port q).fenced = false) :
    s.routeTo dev ∈ s.routes.get [] dev ∧ (s.port (s.routeTo dev)).fenced = false := by
  obtain ⟨q, hq, hf⟩ := h
  obtain ⟨p, hp⟩ := Option.isSome_iff_exists.1 (List.find?_isSome.2 ⟨q, hq, by simp [hf]⟩ :
    ((s.routes.get [] dev).find? (fun p => !(s.port p).fenced)).isSome)
  rw [State.routeTo, hp, Option.getD_some]
  exact ⟨List.mem_of_find?_eq_some hp, by simpa using List.find?_some hp⟩

end

end Sys2Proof.Machine
end

section
/-! SUPPORT. What a port that works makes of the requests it is given, clause by clause, and the obligation about the fabric. -/

namespace Sys2Proof.Machine

section
variable {s : State} {port tag borrower lease addr : Nat}

/-- Failed lines are lost. -/
theorem State.lentLost_of_bad {a : Nat} (h : a / 64 ∈ s.badLines) : s.lentLost lease a = true := by
  simp [State.lentLost, State.lineFails, h]

theorem State.passOn_up {out : Nat} (hup : s.portUp out = true) (ht : tag ∈ (s.port out).permit) :
    s.passOn port tag out = s.send (.transit out tag) :=
  if_pos ⟨hup, by simpa using ht⟩

theorem State.passOn_barred {out : Nat}
    (h : ¬ out < 18 ∨ (s.port out).fenced = true ∨ (s.port out).retrain = true ∨ tag ∉ (s.port out).permit) :
    s.passOn port tag out = s.send (.refusedAt port tag) := by
  refine if_neg ?_
  rintro ⟨hup, ht⟩
  obtain ⟨hout, -, hf, hr⟩ := (s.portUp_iff out).1 hup
  simp_all

section
variable (hup : s.portUp port = true) (htag : tag ≠ 0) (hpermit : tag ∈ (s.port port).permit)
include hup htag hpermit

/-- A write of a lent line that is not lost and waits for nothing merges its bits into the line, and changes no other byte. -/
theorem exec_forwardedAccess_merges (hs : LogOk s) {ms : List (Byte × Byte)}
    (h : s.leaseCheck borrower lease (lineBase addr) 64 true = none)
    (hw : ¬ s.leaseWaits borrower lease (lineBase addr) 64 true = true) (hms : ms.length = 64) :
    ∃ u, exec (.forwardedAccess ⟨port, tag⟩ borrower lease addr (some ms)) s = .next u ∧
      u = { s with mem := u.mem, log := u.log, nextSeq := u.nextSeq, counters := u.counters, nodes := u.nodes,
                   domains := u.domains, out := s.out ++ [.answer borrower .ok] } ∧
      (∀ i, i < 64 → u.image (lineBase addr + i) = if (ms.getD i 0).1 = 0 then s.image (lineBase addr + i)
        else mergeByte (s.newest (lineBase addr + i)) (ms.getD i 0).1 (ms.getD i 0).2) ∧
      ∀ b, (b < lineBase addr ∨ lineBase addr + 64 ≤ b) → u.image b = s.image b := by
  have himage (b : Nat) := State.writeDevice_image hs (maskedCells_rising s.newest (lineBase addr) ms) b
  refine ⟨_, exec_forwardedAccess_write hup htag hpermit h hw hms, ?_, fun i hi => ?_, fun b hb => ?_⟩
  · obtain ⟨cs, ns, ds, hd⟩ := s.writeDevice_eq (maskedCells s.newest (lineBase addr) ms)
    rw [hd]
    rfl
  · refine (himage _).trans ?_
    rw [maskedCells_lookup _ (hms.symm ▸ hi)]
    split <;> rfl
  · refine (himage _).trans ?_
    rw [maskedCells_lookup_outside _ _ (hms.symm ▸ hb)]
    rfl

end
end

/-- Settles O49: each clause is a case of what a port lets in, of the lease, or of the link. -/
theorem fabricAndLinks : Obligations.FabricAndLinks := by
  unfold Obligations.FabricAndLinks
  intro borrower lease addr port tag ftid fails c id dev out x ms ch routes s hs l p a lent lost run answers asks working waits
  have hworks : working ↔ s.portUp port = true := (s.portUp_iff port).symm
  refine ⟨fun i _ => State.lentLost_of_bad, ?letIn, ?barred, ?refused, ?transit, ?down, ?timeout, ?replay, ?retrain, ?route, rfl⟩
  case letIn =>
    intro hw htag hpermit
    have hup := hworks.1 hw
    have hread : s.letsWrite lease false := fun h => nomatch h
    refine ⟨?reads, ?readWaits, ?writeWaits, ?writes, ?readOnly, ?frozen, ?lost, ?notLent,
      fun wr => exec_avdexRequest_line hup htag hpermit,
      fun name fail v hv => exec_avdexRequest_event hup htag hpermit hv name fail,
      fun name fail asker hv => exec_avdexRequest_no_function hup htag hpermit hv name asker dev lease addr fail, ?asked⟩
    case reads =>
      intro hl hlost hwaits
      have hcheck := State.leaseCheck_passes hl hread hlost
      exact exec_forwardedAccess_read hup htag hpermit hcheck fun h => hwaits ((State.leaseWaits_iff hcheck).1 h)
    case readWaits =>
      intro hl hlost hwaits
      have hcheck := State.leaseCheck_passes hl hread hlost
      exact exec_forwardedAccess_waits hup htag hpermit (wr := none) ((State.leaseWaits_iff hcheck).2 hwaits)
    case writeWaits =>
      intro hl hlost hro hfr hwaits
      have hcheck := State.leaseCheck_passes (wr := true) hl (fun _ => ⟨hro, hfr⟩) hlost
      exact exec_forwardedAccess_waits hup htag hpermit (wr := some ms) ((State.leaseWaits_iff hcheck).2 hwaits)
    case writes =>
      intro hl hlost hwaits hro hfr hms
      have hcheck := State.leaseCheck_passes (wr := true) hl (fun _ => ⟨hro, hfr⟩) hlost
      exact exec_forwardedAccess_merges hup htag hpermit hs hcheck (fun h => hwaits ((State.leaseWaits_iff hcheck).1 h)) hms
    case readOnly =>
      intro hl hro
      exact exec_forwardedAccess_checked hup htag hpermit ((State.leaseCheck_of_lends hl).trans (if_pos ⟨rfl, hro⟩))
    case frozen =>
      intro hl hro hfr
      have hno : ¬ (true = true ∧ (s.lease lease).rdonly = true) := fun h => Bool.false_ne_true (hro.symm.trans h.2)
      exact exec_forwardedAccess_checked hup htag hpermit
        ((State.leaseCheck_of_lends hl).trans ((if_neg hno).trans (if_pos ⟨rfl, hfr⟩)))
    case lost =>
      intro hl hlost
      exact ⟨exec_forwardedAccess_checked hup htag hpermit (State.leaseCheck_lost hl hread hlost), fun hro hfr =>
        exec_forwardedAccess_checked hup htag hpermit (State.leaseCheck_lost hl (fun _ => ⟨hro, hfr⟩) hlost)⟩
    case notLent =>
      intro hl
      exact ⟨exec_forwardedAccess_checked hup htag hpermit (State.leaseCheck_of_not_lends hl),
        exec_forwardedAccess_checked hup htag hpermit (State.leaseCheck_of_not_lends hl)⟩
    case asked =>
      intro asker v hv
      have hfields := exec_avdexRequest_fields (ch := ch) hup htag hpermit hv asker dev addr
      have hobject := exec_avdexRequest_object (ch := ch) hup htag hpermit hv asker lease addr
      exact ⟨fun h => hfields.trans (by rw [h]; rfl), fun f h => hfields.trans (by rw [h]; rfl),
        fun h => hobject.trans (by rw [h]; rfl)⟩
  case barred =>
    intro hw htag wr
    exact exec_forwardedAccess_barred (hworks.1 hw) htag
  case refused =>
    intro hw q htag
    exact exec_avdexRequest_barred (hworks.1 hw) htag
  case transit =>
    intro hw hpermit o
    have hpass : asks (.transit out) = .next (s.passOn port tag out) := exec_avdexRequest_transit (hworks.1 hw) hpermit out
    have hlink : s.module.avdexLink = true := hw.2.1
    exact ⟨fun hout hf hr ht => hpass.trans (congrArg _ (State.passOn_up ((s.portUp_iff out).2 ⟨hout, hlink, hf, hr⟩) ht)),
      fun h => hpass.trans (congrArg _ (State.passOn_barred (h.imp_left Nat.not_lt.2)))⟩
  case down =>
    intro hw q wr
    exact ⟨exec_avdexRequest_down fun h => hw (hworks.2 h), exec_forwardedAccess_down fun h => hw (hworks.2 h)⟩
  case timeout =>
    exact ⟨fun o ho => exec_fabricRequesterTimeout_ends (.inl ⟨o, ho, rfl⟩),
      fun ho => exec_fabricRequesterTimeout_ends (.inr ⟨ho, rfl⟩)⟩
  case replay =>
    intro ⟨hport, _, hfenced, hretrain⟩
    exact ⟨fun h => (exec_flitReplay_working hport hfenced hretrain).trans (if_neg (Nat.not_le.2 h)),
      fun h => (exec_flitReplay_working hport hfenced hretrain).trans (if_pos h)⟩
  case retrain =>
    intro h
    exact ⟨exec_avdexLinkRetrain_retrained h, exec_avdexLinkRetrain_retrained h⟩
  case route =>
    exact ⟨State.loadRoutes_routeTo, fun h => by rw [State.loadRoutes_ignored h], State.routeTo_avoids⟩

end Sys2Proof.Machine
end

section
/-! SUPPORT. What reset leaves (R19, R20, R23, R115). -/

namespace Sys2Proof.Machine

theorem State.reset_memoryOk : MemoryOk State.reset := ⟨State.reset_mem_wf, .nil, fun _ he => nomatch he⟩

/-- Reset lists no core, so every context reads as it is before any task. -/
theorem State.reset_ctxAt (c : Nat) (x : CtxId) : State.reset.ctxAt c x = {} := by
  cases x <;> rfl

/-- Settles O60: reset lists nothing, so every table reads as its default. -/
theorem resetHolds : Obligations.ResetHolds := by
  unfold Obligations.ResetHolds
  have contexts (c : Nat) (x : CtxId) : (State.reset.ctxAt c x).run = .idle ∧ ∀ n, (State.reset.ctxAt c x).reg n = 0 := by
    rw [State.reset_ctxAt]
    exact ⟨rfl, fun n => by simp [Ctx.reg]⟩
  have disabled : ({} : Tenant).en = false := by decide
  have invalid : PartDesc.valid ({} : PartDesc) = false := by decide
  exact ⟨State.reset_memoryOk, rfl, rfl, rfl, rfl, fun _ => rfl, contexts, rfl, rfl, fun _ => invalid, fun _ => rfl, fun _ => disabled,
    rfl, rfl, rfl, rfl⟩

end Sys2Proof.Machine
end

section
/-! SUPPORT. Records of launches: what stays the same while queues, launches and tasks change, and the bytes of a record around a swap
of its state word (R134 to R139). -/

namespace Sys2Proof.Machine

/-! ### Work changes nothing that memory reads -/

/-- A machine with the queues, launches and tasks of another. -/
def State.withWork (s u : State) : State :=
  { s with queues := u.queues, launches := u.launches, nextLaunch := u.nextLaunch, tasks := u.tasks }

theorem FindsAlike.withWork (s u : State) (v : Nat) : FindsAlike v s (s.withWork u) := ⟨rfl, fun _ => rfl, fun _ _ _ => rfl⟩

section
variable (s u : State)

@[simp] theorem State.withWork_time : (s.withWork u).time = s.time := rfl
@[simp] theorem State.withWork_event (v n : Nat) : (s.withWork u).event v n = s.event v n := rfl

theorem State.withWork_rekeyUnder (k level : Nat) : (s.withWork u).rekeyUnder k level = (s.rekeyUnder k level).withWork u := by
  unfold State.rekeyUnder
  dsimp only
  rw [List.foldl_hom (fun s : State => s.withWork u)
    (g₁ := fun u i => u.rekeyBlock (k / 8 ^ (level + 1) * 8 ^ (level + 1) + i)) (H := fun _ _ => rfl)]
  rfl

theorem State.withWork_freshNodes (k : Nat) : (s.withWork u).freshNodes k = (s.freshNodes k).withWork u := by
  unfold State.freshNodes
  rw [show (s.withWork u).fullNode k = s.fullNode k from rfl]
  split
  · exact s.withWork_rekeyUnder u k _
  · rfl

theorem State.withWork_freshBlock (k i d : Nat) : (s.withWork u).freshBlock k i d = (s.freshBlock k i d).withWork u := by
  unfold State.freshBlock
  simp only [State.withWork_freshNodes]
  generalize s.freshNodes k = t
  by_cases hd : (t.counters.get {} k).dom ≠ d
  · rw [if_pos hd, if_pos (show ((t.withWork u).counters.get {} k).dom ≠ d from hd)]
    rfl
  · rw [if_neg hd, if_neg (show ¬ ((t.withWork u).counters.get {} k).dom ≠ d from hd)]
    by_cases hb : t.blockSpent k i = true
    · rw [if_pos hb, if_pos (show (t.withWork u).blockSpent k i = true from hb)]
      rfl
    · rw [if_neg hb, if_neg (show ¬ (t.withWork u).blockSpent k i = true from hb)]

theorem State.withWork_bumpLine (a : Nat) : (s.withWork u).bumpLine a = (s.bumpLine a).withWork u := by
  unfold State.bumpLine
  by_cases ha : isDevice a = true
  · simp only [if_pos ha, show (s.withWork u).domainOf a = s.domainOf a from rfl, State.withWork_freshBlock]
    generalize s.freshBlock _ _ _ = t
    rfl
  · rw [if_neg ha, if_neg ha]

theorem State.withWork_bumpLines (l : List Nat) : (s.withWork u).bumpLines l = (s.bumpLines l).withWork u := by
  induction l generalizing s with
  | nil => rfl
  | cons a r ih => rw [State.bumpLines, State.bumpLines, State.withWork_bumpLine, ih]

theorem State.withWork_writeDevice (cells : List Host.Cell) :
    (s.withWork u).writeDevice cells = (s.writeDevice cells).withWork u := by
  rw [State.writeDevice, State.writeDevice, State.withWork_bumpLines, State.putWrites_eq, State.putWrites_eq]
  rfl

theorem State.withWork_swapped (loc w : Nat) : swapped (s.withWork u) loc w = (swapped s loc w).withWork u :=
  s.withWork_writeDevice u _

end

/-! ### The bytes of a record -/

section
variable {s t : State} {a m n o : Nat}

/-- A field of bytes that lie here. -/
theorem leAt_imageBytes (h : o + n ≤ m) : leAt (s.imageBytes a m) o n = s.imageNat (a + o) n := by
  have hspan : ((span a m).drop o).take n = span (a + o) n := by
    refine List.ext_getElem ?_ fun i _ _ => ?_
    · simp only [span, List.length_take, List.length_drop, List.length_map, List.length_range]
      omega
    · simp [span, Nat.add_assoc]
  rw [leAt, State.imageNat, State.imageBytes_eq_map, State.imageBytes_eq_map, ← List.map_drop, ← List.map_take, hspan]

theorem leAt_leBytes_append {k w : Nat} {bs : List Byte} (h : k ≤ o) :
    leAt (leBytes k w ++ bs.drop k) o n = leAt bs o n := by
  rw [leAt, leAt, List.drop_append, leBytes_length, List.drop_eq_nil_of_le (by simpa using h), List.nil_append, List.drop_drop]
  congr 3
  omega

theorem State.imageNat_congr_from (h : ∀ x, a ≤ x → t.image x = s.image x) (n : Nat) : t.imageNat a n = s.imageNat a n := by
  rw [State.imageNat, State.imageNat, State.imageBytes_eq_map, State.imageBytes_eq_map]
  refine congrArg _ (List.map_congr_left fun x hx => h x ?_)
  obtain ⟨i, -, rfl⟩ := List.mem_map.1 hx
  exact Nat.le_add_right a i

/-- A swap of a record's state word leaves the events it waits on. -/
theorem waitNames_swapped (hs : LogOk s) (loc w : Nat) :
    waitNames ((swapped s loc w).imageBytes loc 128) = waitNames (s.imageBytes loc 128) := by
  have himage (x : Nat) (hx : loc + 8 ≤ x) : (swapped s loc w).image x = s.image x :=
    (State.writeDevice_cellsFrom_image hs loc (leBytes 8 w)).2 x (.inr (by rwa [leBytes_length]))
  have hname (o : Nat) (ho : 8 ≤ o) := State.imageNat_congr_from (a := loc + o) (fun x hx => himage x (by omega)) 2
  simp only [waitNames, leAt_imageBytes (show 40 + 2 ≤ 128 by decide), leAt_imageBytes (show 42 + 2 ≤ 128 by decide),
    leAt_imageBytes (show 44 + 2 ≤ 128 by decide), leAt_imageBytes (show 46 + 2 ≤ 128 by decide),
    hname 40 (by decide), hname 42 (by decide), hname 44 (by decide), hname 46 (by decide)]

end

/-! ### Signals and tasks -/

theorem State.signals_nil (s : State) : s.signals [] = s := rfl

/-- A task that is put is listed, where a task of its launch and index was. -/
theorem State.mem_setTk {s : State} {t k : Tk} (h : t ∈ s.tasks) (hl : t.launch = k.launch) (hi : t.idx = k.idx) :
    k ∈ (s.setTk k).tasks :=
  List.mem_map.2 ⟨t, h, if_pos ⟨hl, hi⟩⟩

end Sys2Proof.Machine
end

section
/-! SUPPORT. The acceptance of a launch of one record that lies here (R134, R135, R137, R138). -/

namespace Sys2Proof.Machine

/-! ### The header (R134, R145) -/

section
variable {s : State} {q v hloc : Nat} {i : QItem} {r : List QItem} {h : List Byte} {ch : Choice}

theorem State.popWork_eq (hdoomed : (s.queue q).doomed = []) (hunread : (s.queue q).unread = i :: r) :
    s.popWork q = s.setQueue q { s.queue q with unread := r } := by
  simp [State.popWork, hdoomed, hunread]

/-- The header is that which a `LAUNCH` has read, or is read as the device image stands. -/
theorem State.readHeader_eq (hh : i.bytes = some h ∨ (i.bytes = none ∧ LiesAt s v i.va .read 64 hloc ∧ h = s.imageBytes hloc 64))
    (ans : Answer) : s.readHeader v i ans = (s, .data h) := by
  rcases hh with hb | ⟨hb, hl, rfl⟩
  · simp only [State.readHeader, hb]
  · simp only [State.readHeader, hb]
    exact hl.recTake ans

/-- What an accepting queue has at hand: it is mapped, and its first unread launch, no stolen task, has its header. -/
structure Launching (s : State) (q v : Nat) (i : QItem) (r : List QItem) (h : List Byte) : Prop where
  ready  : s.ready = true
  mapped : (s.queue q).st = .mapped
  doomed : (s.queue q).doomed = []
  vf     : (s.queue q).vf = some v
  unread : (s.queue q).unread = i :: r
  stolen : i.stolen = none
  header : ∀ ans, s.readHeader v i ans = (s, .data h)

section
variable (hw : Launching s q v i r h)
include hw

theorem Launching.head : (s.queue q).head = some (i, false) := by
  rw [WorkQueue.head, hw.doomed, hw.unread]
  exact if_pos hw.mapped

/-- A launch whose header breaks a rule of R134 is rejected: without a completion event, it is popped and that is all. -/
theorem exec_launchAccept_rejected (hbad : headerBad h = true) (hevent : leAt h 20 2 = 0) :
    exec (.launchAccept q ch) s = .next (s.setQueue q { s.queue q with unread := r }) := by
  show execLaunchAccept q ch s = _
  simp only [execLaunchAccept, hw.head, hw.ready, hw.stolen, hw.vf, hw.header, hbad, Option.getD_some, Bool.not_true, Bool.false_eq_true,
    if_false, Bool.true_or, if_true, State.rejectLaunch, hevent, State.signals_nil, State.popWork_eq hw.doomed hw.unread]

/-- A well-formed one whose one record is read, and can be swapped, is taken. -/
theorem exec_launchAccept_taken {loc : Nat} (hgood : headerBad h = false) (haligned : (s.planeDesc v i.va).byteOf (vaPos i.va) % 64 = 0)
    (htable : s.tableBad v (BitVec.ofNat 64 (leAt h 0 8)) 1 = false) (hcount : leAt h 8 4 = 1)
    (hread : LiesAt s v (s.recAt v (BitVec.ofNat 64 (leAt h 0 8)) 0) .read 128 loc)
    (hword : LiesAt s v (s.recAt v (BitVec.ofNat 64 (leAt h 0 8)) 0) .both 8 loc)
    (hcause : acceptCause (s.imageBytes loc 128) = none) :
    exec (.launchAccept q ch) s = .next ((s.takeLaunch q v h [s.imageBytes loc 128] (ch.ans.drop 2)).clearDenied) := by
  have hrecords : State.readRecords v (BitVec.ofNat 64 (leAt h 0 8)) ch.ans.tail 0 1 s = (s, .inr [s.imageBytes loc 128]) := by
    simp only [State.readRecords, State.readRecord, hread.recTake]
  have hswaps (ans : List Answer) : s.swapsReady v (BitVec.ofNat 64 (leAt h 0 8)) [s.imageBytes loc 128] ans = true := by
    have hput (a : Answer) : s.putReady v (s.recAt v (BitVec.ofNat 64 (leAt h 0 8)) 0) .both 8 a = true := by
      have hfind : s.findAt v _ .both 8 = _ := hword
      simp only [State.putReady, hfind, remoteOf_map_at]
    simp [State.swapsReady, acceptPuts, hcause, hput]
  show execLaunchAccept q ch s = _
  simp [execLaunchAccept, hw.head, hw.ready, hw.stolen, hw.vf, hw.header, hgood, haligned, htable, hcount, hrecords, hswaps, State.cancelIf]

end
end

/-! ### The record (R137, R138) -/

section
variable {s : State} {q v loc : Nat} {h bs : List Byte}

/-- The launch that a header of one record gives. -/
def launchOf (s : State) (q v : Nat) (h : List Byte) : Launch :=
  { id := s.nextLaunch, vf := v, queue := q, table := BitVec.ofNat 64 (leAt h 0 8), count := 1,
    widths := (List.range 6).map (fun i => leAt h (12 + i) 1), cls := leAt h 18 1, urgent := bitAt (leAt h 19 1) 1, event := leAt h 20 2 }

/-- The task of its record, as its bytes are read. -/
def taskOf (s : State) (v : Nat) (h bs : List Byte) : Tk :=
  { launch := s.nextLaunch, idx := 0, addr := s.recAt v (BitVec.ofNat 64 (leAt h 0 8)) 0, sigs := signalNames bs }

/-- The machine with that launch in flight, popped off its queue. -/
def launchedWork (s : State) (q v : Nat) (h bs : List Byte) : State :=
  { s.popWork q with launches := s.launches ++ [launchOf s q v h], nextLaunch := s.nextLaunch + 1, tasks := s.tasks ++ [taskOf s v h bs] }

theorem launchedWork_eq (s : State) (q v : Nat) (h bs : List Byte) : launchedWork s q v h bs = s.withWork (launchedWork s q v h bs) := rfl

@[simp] theorem launchOf_vf : (launchOf s q v h).vf = v := rfl
@[simp] theorem launchedWork_time : (launchedWork s q v h bs).time = s.time := rfl

/-- A launch of one record is taken as its record is. -/
theorem State.takeLaunch_one (ans : List Answer) :
    s.takeLaunch q v h [bs] ans =
      (((launchedWork s q v h bs).acceptRecord v (launchOf s q v h) (bitAt (leAt h 19 1) 0) (taskOf s v h bs) bs
          [ans.getD 1 .none, ans.headD .none]).1.signals
        ((launchedWork s q v h bs).acceptRecord v (launchOf s q v h) (bitAt (leAt h 19 1) 0) (taskOf s v h bs) bs
          [ans.getD 1 .none, ans.headD .none]).2) := by
  simp only [State.takeLaunch, List.mapIdx_cons, List.mapIdx_nil, List.map_cons, List.map_nil, State.acceptRecords, List.append_nil]
  rfl

/-- A WAITING, READY or STOLEN record has nothing in it that makes it fail. -/
theorem acceptCause_none {st : Nat} (hst : swState (leAt bs 0 8) = st) (h : st = 0 ∨ st = 1 ∨ st = 4) : acceptCause bs = none := by
  subst hst
  rw [acceptCause]
  rcases h with h | h | h <;> simp [h]

/-- A record in one of these states that lies here: its word is swapped, and its STATE says what it is to the dispatcher. -/
theorem State.acceptRecord_swapped {l : Launch} {stealable : Bool} {t : Tk} {st w : Nat} (hword : LiesAt s v t.addr .both 8 loc)
    (hbs : leAt bs 0 8 = s.imageNat loc 8) (hlen : bs.length = 128) (hst : swState (leAt bs 0 8) = st) (h : st = 0 ∨ st = 1 ∨ st = 4)
    (hw : w = swAccept (s.imageNat loc 8) s.module.devId stealable) (ans : List Answer) :
    s.acceptRecord v l stealable t bs ans =
      if st = 0 then (swapped s loc w).recheck t l.vf []
      else if st = 1 then (swapped s loc w).takeReady t l.vf (leBytes 8 w ++ bs.drop 8) []
      else ((swapped s loc w).setTk { t with st := .away, since := s.time }, []) := by
  have hswap := hword.swapWord w (ans.getD 1 .none)
  have hended : ¬ (st = 3 ∨ st = 5 ∨ st = 6) := by omega
  simp only [State.acceptRecord, acceptCause_none hst h, hbs ▸ hst, State.causeThenSwap, hbs, ← hw, Option.isSome_none,
    Bool.false_eq_true, if_false, hswap, if_neg hended, hlen, Nat.lt_irrefl]

end

end Sys2Proof.Machine
end

section
/-! SUPPORT. A record that waits on events, and the obligation's clauses about launches (R138, R139, R147, R148). -/

namespace Sys2Proof.Machine

/-! ### Waiting on events (R139, R148) -/

section
variable {s u : State} {v m n : Nat} {w : Waiter}

theorem State.event_setEvent (s : State) (v n m : Nat) (e : Event) :
    (s.setEvent v n e).event v m = if m = n then e else s.event v m := by
  rw [State.event, State.setEvent, Tab.get_set]
  exact if_congr (Nat.add_left_cancel_iff) rfl rfl

theorem State.event_setTenant (s : State) (v w m : Nat) (t : Tenant) : (s.setTenant w t).event v m = s.event v m := rfl

/-- What a dispatcher does for one event a record names: it waits there where the event is not satisfied. -/
def State.waitOn (v : Nat) (w : Waiter) (s : State) (n : Nat) : State :=
  if (s.event v n).satisfied then s else (s.addWaiter v n w).getD s

/-- Waiting touches events and the room of overflow areas alone. -/
theorem State.waitOn_frame (s : State) (v n : Nat) (w : Waiter) :
    ∃ es ts, s.waitOn v w n = { s with events := es, tenants := ts } := by
  unfold State.waitOn State.addWaiter
  dsimp only
  split
  · exact ⟨_, _, rfl⟩
  · split
    · exact ⟨_, _, rfl⟩
    · split
      · exact ⟨_, _, rfl⟩
      · split
        · exact ⟨_, _, rfl⟩
        · exact ⟨_, _, rfl⟩

/-- An event after one more may wait on it: it is as before, or it has one more waiter, in the chain only where its slots are full. -/
def Event.Waited (w : Waiter) (e f : Event) : Prop :=
  f = e ∨ f = { e with slots := e.slots ++ [w] } ∨ (4 ≤ e.slots.length ∧ f = { e with chain := e.chain ++ [w] })

theorem State.waitOn_waited (s : State) (v n m : Nat) (w : Waiter) : (s.event v m).Waited w ((s.waitOn v w n).event v m) := by
  unfold State.waitOn State.addWaiter
  dsimp only
  split
  · exact .inl rfl
  · split
    · exact .inl rfl
    · split
      · rw [Option.getD_some, State.event_setEvent]
        split
        · next hm => exact .inr (.inl (by rw [hm]))
        · exact .inl rfl
      · next hfull =>
        split
        · rw [Option.getD_some, State.event_setTenant, State.event_setEvent]
          split
          · next hm => exact .inr (.inr ⟨by rw [hm]; omega, by rw [hm]⟩)
          · exact .inl rfl
        · exact .inl rfl

/-- One that waits on an event that is not satisfied has a slot of it, unless it is in its chain or the slots are full. -/
theorem State.waitOn_slot (hsat : (s.event v n).satisfied = false) (hroom : (s.event v n).slots.length < 4) :
    w ∈ ((s.waitOn v w n).event v n).slots ∨ w ∈ (s.event v n).chain := by
  unfold State.waitOn State.addWaiter
  dsimp only
  rw [if_neg (by simp [hsat])]
  by_cases hw : w ∈ (s.event v n).slots ∨ w ∈ (s.event v n).chain
  · rwa [if_pos hw]
  · rw [if_neg hw, if_pos hroom, Option.getD_some, State.event_setEvent, if_pos rfl]
    exact .inl (by simp)

theorem Event.Waited.slots {e f : Event} (h : e.Waited w f) (hw : w ∈ e.slots) : w ∈ f.slots := by
  rcases h with rfl | rfl | ⟨-, rfl⟩
  · exact hw
  · exact List.mem_append_left _ hw
  · exact hw

/-- Where an event has a slot free, it is as before or the waiter has one. -/
theorem Event.Waited.free {e f : Event} (h : e.Waited w f) (hroom : e.slots.length < 4) : f = e ∨ w ∈ f.slots := by
  rcases h with rfl | rfl | ⟨hfull, -⟩
  · exact .inl rfl
  · exact .inr (by simp)
  · omega

/-- A waiter that has a slot keeps it. -/
theorem waitOn_foldl_slots (ns : List Nat) {s : State} (hw : w ∈ (s.event v m).slots) :
    w ∈ ((ns.foldl (State.waitOn v w) s).event v m).slots := by
  induction ns generalizing s with
  | nil => exact hw
  | cons n r ih => exact ih ((s.waitOn_waited v n m w).slots hw)

/-- Of the events that some names give, each that is not satisfied and has a slot free has the waiter in the end, unless its chain had
it. -/
theorem waitOn_foldl_waits {e : Event} (hsat : e.satisfied = false) (hroom : e.slots.length < 4) (ns : List Nat) (hn : n ∈ ns) {s : State}
    (hk : s.event v n = e ∨ w ∈ (s.event v n).slots) :
    w ∈ ((ns.foldl (State.waitOn v w) s).event v n).slots ∨ w ∈ e.chain := by
  induction ns generalizing s with
  | nil => nomatch hn
  | cons m r ih =>
    rcases hk with rfl | hw
    · rcases List.mem_cons.1 hn with rfl | hn
      · exact (State.waitOn_slot hsat hroom).imp_left (waitOn_foldl_slots r)
      · exact ih hn ((s.waitOn_waited v m n w).free hroom)
    · exact .inl (waitOn_foldl_slots (m :: r) hw)

theorem waitOn_foldl_frame (v : Nat) (w : Waiter) (ns : List Nat) (s : State) :
    ∃ es ts, ns.foldl (State.waitOn v w) s = { s with events := es, tenants := ts } := by
  induction ns generalizing s with
  | nil => exact ⟨_, _, rfl⟩
  | cons n r ih =>
    obtain ⟨es, ts, hs⟩ := s.waitOn_frame v n w
    obtain ⟨es', ts', hr⟩ := ih (s.waitOn v w n)
    exact ⟨es', ts', by rw [List.foldl_cons, hr, hs]⟩

/-- A WAITING record here that names an event not satisfied, and none that is failed, waits on. -/
theorem State.recheck_waits {t : Tk} {loc : Nat} {names : List Nat} (ht : t.st = .waiting) (hread : LiesAt s v t.addr .read 128 loc)
    (hnames : (waitNames (s.imageBytes loc 128)).filter (· != 0) = names) (hfail : ∀ n ∈ names, (s.event v n).failed = false)
    (hsome : ∃ n ∈ names, (s.event v n).count < (s.event v n).target) :
    s.recheck t v [] = (names.foldl (State.waitOn v (.task t.launch t.idx)) s, []) := by
  have hany : names.any (fun n => (s.event v n).isFailed) = false := by simpa [Event.isFailed] using hfail
  have hall : names.all (fun n => (s.event v n).satisfied) = false := by
    obtain ⟨n, hn, hlt⟩ := hsome
    exact List.all_eq_false.2 ⟨n, hn, by simp [Event.satisfied, hlt]⟩
  simp only [State.recheck, ht, ne_eq, not_true_eq_false, if_false, hread.recTake, hnames, hany, hall, Bool.false_eq_true]
  rfl

end

/-! ### What acceptance leaves -/

section
variable (s : State) (cells : List Host.Cell)

/-- A write of an agent outside the cores touches memory and what counts its lines alone. -/
theorem State.writeDevice_rest : s.writeDevice cells =
    { s with mem := (s.writeDevice cells).mem, log := (s.writeDevice cells).log, nextSeq := (s.writeDevice cells).nextSeq,
             counters := (s.writeDevice cells).counters,
             nodes := (s.writeDevice cells).nodes, domains := (s.writeDevice cells).domains } := by
  obtain ⟨cs, ns, ds, hw⟩ := s.writeDevice_eq cells
  rw [hw]

@[simp] theorem State.writeDevice_cores : (s.writeDevice cells).cores = s.cores := by rw [State.writeDevice_rest]
@[simp] theorem State.writeDevice_time : (s.writeDevice cells).time = s.time := by rw [State.writeDevice_rest]
@[simp] theorem State.writeDevice_cycles : (s.writeDevice cells).cycles = s.cycles := by rw [State.writeDevice_rest]
@[simp] theorem State.writeDevice_tasks : (s.writeDevice cells).tasks = s.tasks := by rw [State.writeDevice_rest]
@[simp] theorem State.writeDevice_nextTeam : (s.writeDevice cells).nextTeam = s.nextTeam := by rw [State.writeDevice_rest]
@[simp] theorem State.writeDevice_event (v n : Nat) : (s.writeDevice cells).event v n = s.event v n := by rw [State.writeDevice_rest]; rfl
@[simp] theorem State.writeDevice_coreAt (c : Nat) : (s.writeDevice cells).coreAt c = s.coreAt c := by
  rw [State.coreAt, State.writeDevice_cores]; rfl

end

/-- A launch of one record has been accepted: its queue is popped, its task is `k`, of the STATE given, and its record's word is `w`. -/
def AcceptedAs (s u : State) (q v loc w : Nat) (r : List QItem) (h : List Byte) (st : TaskSt) (k : Tk) : Prop :=
  u.queue q = { s.queue q with unread := r } ∧ k ∈ u.tasks ∧
    k.launch = s.nextLaunch ∧ k.idx = 0 ∧ k.addr = s.recAt v (BitVec.ofNat 64 (leAt h 0 8)) 0 ∧ k.st = st ∧
    u.nextLaunch = s.nextLaunch + 1 ∧ u.cores = s.cores ∧
    u.mem = (swapped s loc w).mem ∧ u.log = (swapped s loc w).log

section
variable {s u : State} {q v loc w : Nat} {i : QItem} {r : List QItem} {h bs : List Byte}

theorem FindsAlike.launchedWork (s : State) (q v : Nat) (h bs : List Byte) : FindsAlike v s (launchedWork s q v h bs) :=
  ⟨rfl, fun _ => rfl, fun _ _ _ => rfl⟩

/-- Of memory, the swap of a record does the same whatever work there is. -/
theorem swapped_launchedWork : swapped (launchedWork s q v h bs) loc w = (swapped s loc w).withWork (launchedWork s q v h bs) :=
  (congrArg (swapped · loc w) (launchedWork_eq s q v h bs)).trans (s.withWork_swapped _ loc w)

/-- What the dispatcher does with a record that it has read and swapped touches tasks, events, tenants' rooms and parked accesses alone. -/
def State.Recorded (m u : State) : Prop := ∃ ts es vs ps, u = { m with tasks := ts, events := es, tenants := vs, parks := ps }

theorem State.recorded_setTk (m : State) (k : Tk) : m.Recorded (m.setTk k).clearDenied := ⟨_, _, _, _, rfl⟩

theorem State.recorded_waitOn (m : State) (v : Nat) (w : Waiter) (ns : List Nat) :
    m.Recorded (ns.foldl (State.waitOn v w) m).clearDenied := by
  obtain ⟨es, ts, h⟩ := waitOn_foldl_frame v w ns m
  rw [h]
  exact ⟨_, _, _, _, rfl⟩

theorem taskOf_mem (m : State) : taskOf s v h bs ∈ (m.withWork (launchedWork s q v h bs)).tasks :=
  List.mem_append_right _ (List.mem_singleton_self _)

/-- After the swap of its record, acceptance touches no queue, no core and no memory. -/
theorem acceptedAs_of {st : TaskSt} {k : Tk} {m : State} (hm : (swapped s loc w).withWork (launchedWork s q v h bs) = m)
    (hdoomed : (s.queue q).doomed = []) (hunread : (s.queue q).unread = i :: r) (hu : m.Recorded u)
    (hk : k ∈ u.tasks ∧ k.launch = s.nextLaunch ∧ k.idx = 0 ∧ k.addr = s.recAt v (BitVec.ofNat 64 (leAt h 0 8)) 0 ∧ k.st = st) :
    AcceptedAs s u q v loc w r h st k := by
  obtain ⟨hmem, hlaunch, hidx, haddr, hst⟩ := hk
  have hcores : (swapped s loc w).cores = s.cores := s.writeDevice_cores _
  obtain ⟨ts, es, vs, ps, rfl⟩ := hu
  subst hm
  unfold AcceptedAs
  generalize swapped s loc w = m at hcores hmem ⊢
  refine ⟨?_, hmem, hlaunch, hidx, haddr, hst, rfl, hcores, rfl, rfl⟩
  show (s.popWork q).queue q = _
  rw [State.popWork_eq hdoomed hunread, State.queue_setQueue_self]

section
variable {ch : Choice} {st : Nat} (hw : Launching s q v i r h) (hgood : headerBad h = false)
  (haligned : (s.planeDesc v i.va).byteOf (vaPos i.va) % 64 = 0) (htable : s.tableBad v (BitVec.ofNat 64 (leAt h 0 8)) 1 = false)
  (hcount : leAt h 8 4 = 1) (hread : LiesAt s v (s.recAt v (BitVec.ofNat 64 (leAt h 0 8)) 0) .read 128 loc)
  (hword : LiesAt s v (s.recAt v (BitVec.ofNat 64 (leAt h 0 8)) 0) .both 8 loc) (hst : swState (s.imageNat loc 8) = st)
include hw hgood haligned htable hcount hread hword hst

/-- A launch of one record that is not over and has not failed: the record's word is swapped, and its STATE says what it is to the
dispatcher. -/
theorem exec_launchAccept_record (hopen : st = 0 ∨ st = 1 ∨ st = 4) {bs : List Byte} (hbs : bs = s.imageBytes loc 128)
    (hwd : w = swAccept (s.imageNat loc 8) s.module.devId (bitAt (leAt h 19 1) 0)) {m : State}
    (hm : (if st = 0 then ((swapped s loc w).withWork (launchedWork s q v h bs)).recheck (taskOf s v h bs) v []
      else if st = 1 then
        ((swapped s loc w).withWork (launchedWork s q v h bs)).takeReady (taskOf s v h bs) v (leBytes 8 w ++ bs.drop 8) []
      else (((swapped s loc w).withWork (launchedWork s q v h bs)).setTk { taskOf s v h bs with st := .away, since := s.time }, [])) =
        (m, [])) :
    exec (.launchAccept q ch) s = .next m.clearDenied := by
  have hlow : leAt bs 0 8 = s.imageNat loc 8 := by rw [hbs, leAt_imageBytes (by decide), Nat.add_zero]
  have hcause : acceptCause bs = none := acceptCause_none (hlow ▸ hst) hopen
  have halike := FindsAlike.launchedWork s q v h bs
  have hlies : LiesAt (launchedWork s q v h bs) v (taskOf s v h bs).addr .both 8 loc := (halike.liesAt ..).2 hword
  have himage : (launchedWork s q v h bs).imageNat loc 8 = s.imageNat loc 8 := halike.imageNat loc 8
  have hrecord (ans : List Answer) :
      (launchedWork s q v h bs).acceptRecord v (launchOf s q v h) (bitAt (leAt h 19 1) 0) (taskOf s v h bs) bs ans = (m, []) := by
    rw [State.acceptRecord_swapped (w := w) hlies (hlow.trans himage.symm) (by simp [hbs]) (hlow ▸ hst) hopen (himage.symm ▸ hwd) ans,
      swapped_launchedWork, launchOf_vf, launchedWork_time, hm]
  rw [exec_launchAccept_taken hw hgood haligned htable hcount hread hword (hbs ▸ hcause), ← hbs, State.takeLaunch_one, hrecord,
    State.signals_nil]

variable (hwd : w = swAccept (s.imageNat loc 8) s.module.devId (bitAt (leAt h 19 1) 0))
include hwd

/-- A READY record is READY to the dispatcher from now, with its team size. -/
theorem exec_launchAccept_ready (h1 : st = 1)
    (hformed : recordMalformed (leBytes 8 w ++ (s.imageBytes loc 128).drop 8) = false) :
    ∃ u k, exec (.launchAccept q ch) s = .next u ∧ AcceptedAs s u q v loc w r h .ready k ∧
      k.readyAt = s.time ∧ k.group = none ∧ k.size = leAt (s.imageBytes loc 128) 53 1 := by
  subst h1
  generalize hbs : s.imageBytes loc 128 = bs at hformed ⊢
  generalize hm : (swapped s loc w).withWork (launchedWork s q v h bs) = m
  have htime : m.time = s.time := by rw [← hm, State.withWork_time, swapped, State.writeDevice_time]
  have htake : m.takeReady (taskOf s v h bs) v (leBytes 8 w ++ bs.drop 8) [] =
      (m.setTk (m.readyTk (taskOf s v h bs) (leBytes 8 w ++ bs.drop 8)), []) := if_neg (by simp [hformed])
  refine ⟨_, m.readyTk (taskOf s v h bs) (leBytes 8 w ++ bs.drop 8),
    exec_launchAccept_record hw hgood haligned htable hcount hread hword hst (by simp) hbs.symm hwd (by rw [hm]; exact htake), ?_,
    htime, rfl, leAt_leBytes_append (by decide)⟩
  have hmem : taskOf s v h bs ∈ m.tasks := hm ▸ taskOf_mem _
  exact acceptedAs_of hm hw.doomed hw.unread (m.recorded_setTk _) ⟨State.mem_setTk hmem rfl rfl, rfl, rfl, rfl, rfl⟩

/-- A STOLEN record is left to its thief. -/
theorem exec_launchAccept_stolen (h4 : st = 4) :
    ∃ u k, exec (.launchAccept q ch) s = .next u ∧ AcceptedAs s u q v loc w r h .away k ∧ k.since = s.time := by
  subst h4
  generalize hbs : s.imageBytes loc 128 = bs
  generalize hm : (swapped s loc w).withWork (launchedWork s q v h bs) = m
  refine ⟨_, { taskOf s v h bs with st := .away, since := s.time },
    exec_launchAccept_record hw hgood haligned htable hcount hread hword hst (by simp) hbs.symm hwd (by rw [hm]; rfl), ?_, rfl⟩
  have hmem : taskOf s v h bs ∈ m.tasks := hm ▸ taskOf_mem _
  exact acceptedAs_of hm hw.doomed hw.unread (m.recorded_setTk _) ⟨State.mem_setTk hmem rfl rfl, rfl, rfl, rfl, rfl⟩

/-- A WAITING record that names an event not satisfied, and none that is failed, waits on each that is not satisfied. -/
theorem exec_launchAccept_waiting (h0 : st = 0) (hs : LogOk s) {names : List Nat}
    (hread' : LiesAt (swapped s loc w) v (s.recAt v (BitVec.ofNat 64 (leAt h 0 8)) 0) .read 128 loc)
    (hnames : (waitNames (s.imageBytes loc 128)).filter (· != 0) = names) (hfail : ∀ n ∈ names, (s.event v n).failed = false)
    (hsome : ∃ n ∈ names, (s.event v n).count < (s.event v n).target) :
    ∃ u k, exec (.launchAccept q ch) s = .next u ∧ AcceptedAs s u q v loc w r h .waiting k ∧
      ∀ n ∈ names, (s.event v n).count < (s.event v n).target → (s.event v n).slots.length < 4 →
        Waiter.task s.nextLaunch 0 ∈ (u.event v n).slots ++ (s.event v n).chain := by
  subst h0
  have hnames' : (waitNames ((swapped s loc w).imageBytes loc 128)).filter (· != 0) = names := by rw [waitNames_swapped hs, hnames]
  generalize hbs : s.imageBytes loc 128 = bs
  have halike := FindsAlike.withWork (swapped s loc w) (launchedWork s q v h bs) v
  have hevent (n : Nat) : ((swapped s loc w).withWork (launchedWork s q v h bs)).event v n = s.event v n := by
    rw [State.withWork_event, swapped, State.writeDevice_event]
  have hmem := taskOf_mem (s := s) (q := q) (v := v) (h := h) (bs := bs) (swapped s loc w)
  rw [← halike.liesAt] at hread'
  rw [← State.imageBytes_congr halike.image] at hnames'
  generalize hm : (swapped s loc w).withWork (launchedWork s q v h bs) = m at hevent hmem hread' hnames'
  have hcheck : m.recheck (taskOf s v h bs) v [] = (names.foldl (State.waitOn v (.task s.nextLaunch 0)) m, []) :=
    State.recheck_waits rfl hread' hnames' (by simpa only [hevent] using hfail) (by simpa only [hevent] using hsome)
  refine ⟨_, taskOf s v h bs,
    exec_launchAccept_record hw hgood haligned htable hcount hread hword hst (by simp) hbs.symm hwd (by rw [hm]; exact hcheck), ?_,
    fun n hn hlt hroom => ?_⟩
  · refine acceptedAs_of hm hw.doomed hw.unread (m.recorded_waitOn ..) ⟨?_, rfl, rfl, rfl, rfl⟩
    obtain ⟨es, ts, hframe⟩ := waitOn_foldl_frame v (.task s.nextLaunch 0) names m
    rw [hframe]
    exact hmem
  · exact List.mem_append.2 (waitOn_foldl_waits (by simp [Event.satisfied, hlt]) hroom names hn (.inl (hevent n)))

end
end

end Sys2Proof.Machine
end

section
/-! SUPPORT. The dispatch of a task whose record lies here; then the obligation about launches and dispatch (R39, R139, R141, R142). -/

namespace Sys2Proof.Machine

/-! ### The cores of a team start (R39, R141) -/

section
variable {s : State} {team : Nat} {tm : Team}

theorem State.startCores_rest (i : Nat) (cs : List Nat) (s : State) :
    ∃ ks, s.startCores team tm i cs = { s with cores := ks } := by
  induction cs generalizing i s with
  | nil => exact ⟨_, rfl⟩
  | cons c r ih => exact ih (i + 1) _

/-- No other core changes. -/
theorem State.startCores_coreAt_ne {c : Nat} {cs : List Nat} (h : c ∉ cs) (i : Nat) :
    (s.startCores team tm i cs).coreAt c = s.coreAt c := by
  induction cs generalizing i s with
  | nil => rfl
  | cons d r ih =>
    obtain ⟨hd, hr⟩ := List.ne_and_not_mem_of_not_mem_cons h
    exact (ih hr (i + 1)).trans (s.coreAt_setCore_ne _ hd)

/-- Each core of the team starts with its rank. -/
theorem State.startCores_coreAt {cs : List Nat} (hnodup : cs.Nodup) {n : Nat} (hn : n < cs.length) (i : Nat) :
    (s.startCores team tm i cs).coreAt (cs.getD n 0) = (s.coreAt (cs.getD n 0)).dispatched team (i + n) tm.vf s.cycles tm := by
  induction cs generalizing i n s with
  | nil => nomatch hn
  | cons c r ih =>
    obtain ⟨hc, hr⟩ := List.nodup_cons.1 hnodup
    cases n with
    | zero => exact (State.startCores_coreAt_ne hc (i + 1)).trans (s.coreAt_setCore_self c _)
    | succ n =>
      have hn : n < r.length := Nat.lt_of_succ_lt_succ hn
      have hmem : r.getD n 0 ∈ r := List.getD_eq_getElem _ _ hn ▸ List.getElem_mem hn
      have hne : r.getD n 0 ≠ c := fun h => hc (h ▸ hmem)
      rw [List.getD_cons_succ, State.startCores, ih hr hn, State.coreAt_setCore_ne _ _ hne, State.setCore_cycles]
      congr 1
      omega

end

/-! ### Dispatch (R139, R141, R142) -/

section
variable {s : State} {launch idx loc : Nat} {cores : List Nat} {ch : Choice} {l : Launch} {k : Tk}

/-- A scheduler may bind cores to a READY task of a launch of this device: they are free, of one group, as many as the team's size, and the
task is the group's next. -/
structure Binds (s : State) (cores : List Nat) (l : Launch) (k : Tk) : Prop where
  own    : l.stolen = none
  ready  : k.st = .ready
  may    : s.mayDispatch l.vf = true
  size   : cores.length = k.size
  nodup  : cores.Nodup
  some   : cores ≠ []
  free   : ∀ c ∈ cores, c / 8 = cores.headD 0 / 8 ∧ s.coreFree l.vf (s.part (s.tenant l.vf).part).desc c = true
  first  : s.isFirst k (s.tenant l.vf).part (cores.headD 0 / 8) = true

/-- The task is dispatched: its record's word is swapped to DISPATCHED, and its team starts. -/
theorem exec_taskDispatch_starts (hl : s.launch launch = some l) (hk : s.findTk launch idx = some k) (hb : Binds s cores l k)
    (hread : LiesAt s l.vf k.addr .read 128 loc) (hword : LiesAt s l.vf k.addr .both 8 loc) (hst : swState (s.imageNat loc 8) = 1) :
    exec (.taskDispatch launch idx cores ch) s =
      .next ((swapped s loc (wordWith s loc 2)).startTeam l k (leBytes 8 (wordWith s loc 2) ++ (s.imageBytes loc 128).drop 8) cores) := by
  have hlow : leAt (s.imageBytes loc 128) 0 8 = s.imageNat loc 8 := by rw [leAt_imageBytes (by decide), Nat.add_zero]
  have hall : cores.all (fun c => c / Config.groupCores == cores.headD 0 / Config.groupCores &&
      s.coreFree l.vf (s.part (s.tenant l.vf).part).desc c) = true :=
    List.all_eq_true.2 fun c hc => Bool.and_eq_true_iff.2 ⟨beq_iff_eq.2 (hb.free c hc).1, (hb.free c hc).2⟩
  have hswap := hword.swapWord (wordWith s loc 2) (ch.ans.getD 1 .none)
  show execTaskDispatch launch idx cores ch s = _
  simp only [execTaskDispatch, hl, hk]
  rw [if_pos ⟨hb.ready, hb.may, hb.size, hb.nodup, hb.some, hall, hb.first⟩]
  simp only [hb.own, hread.recTake, hlow, hst, ne_eq, not_true_eq_false, if_false]
  rw [show swSetState (s.imageNat loc 8) 2 = wordWith s loc 2 from rfl, hswap]
  rfl

/-- The team that a task of this device's own launch is bound to. -/
def boundTeam (s : State) (l : Launch) (k : Tk) (bytes : List Byte) (cores : List Nat) : Team :=
  { vf := l.vf, queue := l.queue, launch := l.id, idx := k.idx, addr := k.addr, bytes := bytes, widths := l.widths, cores := cores,
    start := s.time }

/-- What the start of a team leaves: the team, its task running, its cores started, and no other core changed. -/
theorem State.startTeam_leaves (hown : l.stolen = none) {t : Tk} (ht : t ∈ s.tasks) (hlt : t.launch = k.launch) (hit : t.idx = k.idx)
    (bytes : List Byte) (hnodup : cores.Nodup) :
    (s.startTeam l k bytes cores).teamAt s.nextTeam = boundTeam s l k bytes cores ∧
    (s.startTeam l k bytes cores).nextTeam = s.nextTeam + 1 ∧
    (s.startTeam l k bytes cores).mem = s.mem ∧ (s.startTeam l k bytes cores).log = s.log ∧
    (∀ n, n < cores.length → (s.startTeam l k bytes cores).coreAt (cores.getD n 0) =
      (s.coreAt (cores.getD n 0)).dispatched s.nextTeam n l.vf s.cycles (boundTeam s l k bytes cores)) ∧
    (∀ c, c ∉ cores → (s.startTeam l k bytes cores).coreAt c = s.coreAt c) ∧
    ∃ k' ∈ (s.startTeam l k bytes cores).tasks, k'.launch = k.launch ∧ k'.idx = k.idx ∧ k'.st = .running := by
  let tk : Tk := { k with st := .running, sigs := signalNames bytes }
  let s1 : State := { s.setTk tk with teams := s.teams.set s.nextTeam (boundTeam s l k bytes cores), nextTeam := s.nextTeam + 1 }
  have hstart : s.startTeam l k bytes cores = s1.startCores s.nextTeam (boundTeam s l k bytes cores) 0 cores := by
    unfold State.startTeam
    rw [hown]
    rfl
  have hmem : tk ∈ s1.tasks := State.mem_setTk ht hlt hit
  obtain ⟨ks, hks⟩ := State.startCores_rest (team := s.nextTeam) (tm := boundTeam s l k bytes cores) 0 cores s1
  refine ⟨?_, ?_, ?_, ?_, fun n hn => ?_, fun c hc => ?_, tk, ?_, rfl, rfl, rfl⟩
  · rw [hstart, hks]
    exact Tab.get_set_self _ _ _ _
  · rw [hstart, hks]
  · rw [hstart, hks]
    rfl
  · rw [hstart, hks]
    rfl
  · rw [hstart, State.startCores_coreAt hnodup hn, Nat.zero_add]
    rfl
  · rw [hstart, State.startCores_coreAt_ne hc]
    rfl
  · rw [hstart, hks]
    exact hmem

end

/-! ### The obligation -/

theorem State.findTk_some {s : State} {launch idx : Nat} {k : Tk} (h : s.findTk launch idx = some k) :
    k ∈ s.tasks ∧ k.launch = launch ∧ k.idx = idx :=
  ⟨List.mem_of_find?_eq_some h, by simpa using List.find?_some h⟩

/-- A core that is dispatched starts with everything zero but its sequencers at the entry points that the record gives. -/
theorem Core.dispatched_eq {s : State} {l : Launch} {k : Tk} {cores : List Nat} {w : Nat} {bs : List Byte}
    (c : Core) (team rank vf cycles : Nat) :
    c.dispatched team rank vf cycles (boundTeam s l k (leBytes 8 w ++ bs.drop 8) cores) =
      { team := team, rank := rank, lastVf := some vf, clean := false, start := cycles, fenced := c.fenced,
        ctl := { run := .running, atEntry := true, pc := BitVec.ofNat 64 (leAt bs (16 + 4 * 0) 4) },
        ld := { run := .running, atEntry := true, pc := BitVec.ofNat 64 (leAt bs (16 + 4 * 1) 4) },
        cmp := { run := .running, atEntry := true, pc := BitVec.ofNat 64 (leAt bs (16 + 4 * 2) 4) },
        st := { run := .running, atEntry := true, pc := BitVec.ofNat 64 (leAt bs (16 + 4 * 3) 4) } } := by
  have hentry (n : Nat) : leAt (leBytes 8 w ++ bs.drop 8) (16 + 4 * n) 4 = leAt bs (16 + 4 * n) 4 := leAt_leBytes_append (by omega)
  simp only [← hentry]
  rfl

/-- Settles O45: a launch by what its one record's STATE says once its word is swapped, a dispatch by the start of its team. -/
theorem launchesAndDispatch : Obligations.LaunchesAndDispatch := by
  intro q v launch idx loc hloc i r h bs cores ch s w table aligned word accepted names
  refine ⟨fun hready hst hdoomed hvf hunread hstolen hheader => ?launch, ?dispatch⟩
  case launch =>
    have hw : Launching s q v i r h := ⟨hready, hst, hdoomed, hvf, hunread, hstolen, State.readHeader_eq hheader⟩
    refine ⟨exec_launchAccept_rejected hw, ?_⟩
    intro hgood haligned htable hcount _ hread hword takes
    have htakes {st : TaskSt} {P : State → Tk → Prop}
        (ht : ∃ u k, exec (.launchAccept q ch) s = .next u ∧ AcceptedAs s u q v loc accepted r h st k ∧ P u k) : takes st P := by
      obtain ⟨u, k, hexec, ⟨hqueue, hmem, hlaunch, hidx, haddr, hst, hnext, hcores, hmemory, hlog⟩, hP⟩ := ht
      exact ⟨u, k, hexec, hqueue, hmem, hlaunch, hidx, haddr, hst, hnext, hcores, hmemory, hlog, hP⟩
    refine ⟨fun h1 hformed => ?_, fun h0 hs hread' hfail hsome => ?_, fun h4 => ?_⟩
    · exact htakes (exec_launchAccept_ready hw hgood haligned htable hcount hread hword h1 rfl rfl hformed)
    · exact htakes (exec_launchAccept_waiting hw hgood haligned htable hcount hread hword h0 rfl rfl hs hread' rfl hfail hsome)
    · exact htakes (exec_launchAccept_stolen hw hgood haligned htable hcount hread hword h4 rfl rfl)
  case dispatch =>
    intro l k hl hk hown hkst hmay hsize hnodup hne hfree hfirst hread hword hbs hst tm start
    obtain ⟨hmem, hlaunch, hidx⟩ := State.findTk_some hk
    have hexec := exec_taskDispatch_starts (ch := ch) hl hk ⟨hown, hkst, hmay, hsize, hnodup, hne, hfree, hfirst⟩ hread hword hst
    rw [← hbs] at hexec
    have htime : (swapped s loc (wordWith s loc 2)).time = s.time := s.writeDevice_time _
    have hcycles : (swapped s loc (wordWith s loc 2)).cycles = s.cycles := s.writeDevice_cycles _
    have hteams : (swapped s loc (wordWith s loc 2)).nextTeam = s.nextTeam := s.writeDevice_nextTeam _
    have htasks : (swapped s loc (wordWith s loc 2)).tasks = s.tasks := s.writeDevice_tasks _
    have hcore (c : Nat) : (swapped s loc (wordWith s loc 2)).coreAt c = s.coreAt c := s.writeDevice_coreAt _ c
    generalize swapped s loc (wordWith s loc 2) = m at hexec htime hcycles hteams htasks hcore ⊢
    have htm : boundTeam m l k (leBytes 8 (wordWith s loc 2) ++ bs.drop 8) cores = tm := by rw [boundTeam, htime]
    obtain ⟨hteam, hnext, hmemory, hlog, hstart, hothers, htask⟩ :=
      m.startTeam_leaves hown (htasks ▸ hmem) rfl rfl (leBytes 8 (wordWith s loc 2) ++ bs.drop 8) hnodup
    rw [hteams] at hteam hnext hstart
    refine ⟨_, hexec, hteam.trans htm, hnext, hmemory, hlog, fun n hn => ?_, fun c hc => (hothers c hc).trans (hcore c),
      hlaunch ▸ hidx ▸ htask⟩
    rw [hstart n hn, Core.dispatched_eq, hcore, hcycles]

end Sys2Proof.Machine
end

section
/-! SUPPORT. Entering the bivouac context: which cause enters, what a trap leaves where it enters at once and where it waits (R35, R36,
R130). -/

namespace Sys2Proof.Machine

/-! ### The pending queue (R36) -/

/-- With nothing pending, nothing enters. -/
theorem State.enter_of_pend_nil {s : State} {c : Nat} (h : (s.coreAt c).pend = []) : s.enter c = s := by
  unfold State.enter
  rw [h]
  rfl

/-- The first cause that can be taken enters. -/
theorem State.enter_of_find {s : State} {c : Nat} {p : Pending} (h : (s.coreAt c).pend.find? (s.takeable c) = some p) :
    s.enter c = s.enterWith c p := by
  unfold State.enter
  rw [h]

/-- A lone cause that cannot be taken stays. -/
theorem State.enter_of_not_takeable {s : State} {c : Nat} {p : Pending} (hp : (s.coreAt c).pend = [p])
    (h : s.takeable c p = false) : s.enter c = s := by
  unfold State.enter
  rw [hp, List.find?_cons_of_neg (by simp [h])]
  rfl

/-- A context that no operation holds is suspended as it stands. -/
theorem Ctx.suspend_of_hold {k : Ctx} (h : k.hold = none) : k.suspend = k := by
  cases k
  simp_all [Ctx.suspend]

/-! ### A trap outside the bivouac context (R35) -/

/-- The cause a trap queues. -/
def trapCause (s : State) (cause : Nat) (info pc : Word) : Pending :=
  { cause := cause, seq := seqCode s.ctx, info := info, pc := pc }

/-- The core of a trap whose cause has joined an empty queue. -/
def trapQueued (s : State) (cause : Nat) (info pc : Word) : Core :=
  { (trapCore s).setCtx s.ctx (trapCtx s) with pend := [trapCause s cause info pc] }

/-- The frame that a trap writes where it enters. -/
def trapFrame (s : State) (cause : Nat) (info pc : Word) : Frame :=
  { cause := cause, seq := seqCode s.ctx, pc := pc, info := info, loops := saveLoops s.cur.loops,
    rotbase := s.cur.rb.zeroExtend 64, streams := s.engineCounts s.core s.ctx }

/-- The bivouac context as it starts at the task's fault handler. -/
def handlerCtx (s : State) : Ctx :=
  { s.curCore.biv with run := .running, atEntry := true, pc := (s.teamOf s.core).handler, loops := [], hold := none,
                       fetched := none, want := none, ahead := none, lines := [] }

section
variable {s : State} {cause : Nat} {info pc : Word}

theorem trapQueued_ctxOf : (trapQueued s cause info pc).ctxOf s.ctx = trapCtx s := by
  unfold trapQueued
  cases s.ctx <;> rfl

theorem trapQueued_biv (hx : s.ctx ≠ .biv) : (trapQueued s cause info pc).biv = s.curCore.biv := by
  rw [← trapCore_biv]
  unfold trapQueued
  cases h : s.ctx with
  | biv => exact absurd h hx
  | _ => rfl

theorem trapQueued_team : (trapQueued s cause info pc).team = s.curCore.team := by
  rw [← trapCore_team]
  exact Core.setCtx_team ..

theorem takeTrapAt_queued (hx : s.ctx ≠ .biv) (hp : s.curCore.pend = []) :
    s.takeTrapAt cause info pc = (s.setCurCore (trapQueued s cause info pc)).enter s.core := by
  rw [takeTrapAt_eq s hx, trapCore_pend, hp]
  rfl

/-- A trap can be taken where the bivouac context does not run and the trapping context has drained. -/
theorem takeable_trap (hx : s.ctx ≠ .biv) (hc : cause ≤ 9) :
    (s.setCurCore (trapQueued s cause info pc)).takeable s.core (trapCause s cause info pc) =
      (s.curCore.biv.run != .running && s.drained s.core s.ctx) := by
  have hcore : (s.setCurCore (trapQueued s cause info pc)).coreAt s.core = trapQueued s cause info pc := s.coreAt_setCore_self _ _
  have hdrained : (s.setCurCore (trapQueued s cause info pc)).drained s.core s.ctx = s.drained s.core s.ctx :=
    drained_trap s _ (by rw [trapQueued_ctxOf]; rfl)
  simp only [State.takeable, hcore, trapQueued_biv hx, trapCause, seqOf_seqCode hx, hdrained, if_pos hc]

/-- A trap that can be taken enters at once. -/
theorem takeTrapAt_enters (hx : s.ctx ≠ .biv) (hc : cause ≤ 9) (hd : s.drained s.core s.ctx = true)
    (hb : s.curCore.biv.run ≠ .running) (hp : s.curCore.pend = []) :
    s.takeTrapAt cause info pc = s.setCurCore { trapQueued s cause info pc with
      frame := trapFrame s cause info pc, pend := [], ctl := (trapQueued s cause info pc).ctl.suspend, biv := handlerCtx s } := by
  have hcore : (s.setCurCore (trapQueued s cause info pc)).coreAt s.core = trapQueued s cause info pc := s.coreAt_setCore_self _ _
  have htake : (s.setCurCore (trapQueued s cause info pc)).takeable s.core (trapCause s cause info pc) = true := by
    rw [takeable_trap hx hc, hd, Bool.and_true, bne_iff_ne]
    exact hb
  have hcounts : (s.setCurCore (trapQueued s cause info pc)).engineCounts s.core s.ctx = s.engineCounts s.core s.ctx :=
    engineCounts_trap s _ (by rw [trapQueued_ctxOf]; rfl)
  have hteam : (s.setCurCore (trapQueued s cause info pc)).teamOf s.core = s.teamOf s.core := by
    rw [State.teamOf, hcore, trapQueued_team]
    rfl
  rw [takeTrapAt_queued hx hp, State.enter_of_find (p := trapCause s cause info pc)
    (by rw [hcore]; exact List.find?_cons_of_pos htake)]
  have herase : (trapQueued s cause info pc).pend.erase (trapCause s cause info pc) = [] := List.erase_cons_head ..
  simp only [State.enterWith, hcore, hteam, herase]
  simp only [trapCause, hc, if_true, seqOf_seqCode hx, hcounts, trapQueued_ctxOf, trapQueued_biv hx]
  exact s.setCurCore_setCurCore _ _

/-- A trap that cannot be taken waits in the queue. -/
theorem takeTrapAt_waits (hx : s.ctx ≠ .biv) (hc : cause ≤ 9) (hp : s.curCore.pend = [])
    (h : s.drained s.core s.ctx = false ∨ s.curCore.biv.run = .running) :
    s.takeTrapAt cause info pc = s.setCurCore (trapQueued s cause info pc) := by
  have hcore : (s.setCurCore (trapQueued s cause info pc)).coreAt s.core = trapQueued s cause info pc := s.coreAt_setCore_self _ _
  rw [takeTrapAt_queued hx hp, State.enter_of_not_takeable (p := trapCause s cause info pc) (by rw [hcore]; rfl)]
  rw [takeable_trap hx hc]
  rcases h with h | h <;> simp [h]

end

/-- An empty queue put in place of an empty one is no change. -/
theorem Core.eq_with_pend {j : Core} (h : j.pend = []) : { j with pend := [] } = j := by
  rw [← h]

/-- Settles O13: a trap enters where it can be taken, and waits where it cannot. -/
theorem takingAnException : Obligations.TakingAnException := by
  unfold Obligations.TakingAnException
  refine ⟨fun cause info pc s hc hx hd hb hp => ?enters, fun cause info pc s hc hx hp h => ?waits⟩
  case enters =>
    intro k t
    have ht : t = _ := takeTrapAt_enters hx hc hd hb hp
    have hcur : t.cur = trapCtx s := by
      rw [ht, State.cur_eq, State.curCore_setCurCore, State.setCurCore_ctx]
      have hctx := trapQueued_ctxOf (s := s) (cause := cause) (info := info) (pc := pc)
      cases h : s.ctx <;> rw [h] at hctx
      case ctl => exact (Ctx.suspend_of_hold (by rw [← Core.ctxOf, hctx]; rfl)).trans hctx
      case biv => exact absurd h hx
      all_goals exact hctx
    rw [hcur, ht, State.curCore_setCurCore]
    refine ⟨.setCurCore s _, rfl, rfl, rfl, ?_⟩
    exact congrArg (fun j : Core => { j with
      frame := trapFrame s cause info pc, biv := handlerCtx s,
      ctl := { j.ctl with hold := none, ops := j.ctl.ops.filter (fun o => j.ctl.hold != some o.id) } })
      (Core.eq_with_pend (j := k.setCtx s.ctx (trapCtx s)) (by rw [Core.setCtx_pend]; exact (trapCore_pend s).trans hp))
  case waits =>
    intro k t
    have ht : t = _ := takeTrapAt_waits hx hc hp h
    have hcur : t.cur = trapCtx s := by
      rw [ht, State.cur_eq, State.curCore_setCurCore, State.setCurCore_ctx, trapQueued_ctxOf]
    rw [hcur, ht, State.curCore_setCurCore]
    exact ⟨.setCurCore s _, rfl, rfl⟩

end Sys2Proof.Machine
end

section
/-! SUPPORT. The return from the bivouac context: what a saved loop stack restores, which loop state is legal, and `RTE` after `TRAP` (R36 to
R39, R238, R239). -/

namespace Sys2Proof.Machine

/-! ### Saved loop state (R37, R38) -/

/-- LOOPSTATE is its fields side by side. -/
theorem LoopEntry.save_toNat (e : LoopEntry) : e.save.toNat =
    2 ^ 63 + e.rot.toNat * 2 ^ 62 + e.inter.toNat * 2 ^ 61 + e.leave.toNat * 2 ^ 60 + e.remain.toNat * 2 ^ 32 + e.header.toNat := by
  have hrot := Bool.toNat_lt e.rot
  have hinter := Bool.toNat_lt e.inter
  have hleave := Bool.toNat_lt e.leave
  have hremain := e.remain.isLt
  have hheader := e.header.isLt
  rw [LoopEntry.save, BitVec.toNat_ofNat, Nat.mod_eq_of_lt (by omega)]

/-- A saved entry is valid. -/
@[simp] theorem LoopEntry.save_valid (e : LoopEntry) : bitAt e.save.toNat 63 = true := by
  have := e.save.isLt
  have := e.save_toNat
  simp only [bitAt, beq_iff_eq]
  omega

/-- Its reserved bits are zero. -/
@[simp] theorem LoopEntry.save_reserved (e : LoopEntry) : field e.save.toNat 56 4 = 0 := by
  have hremain := e.remain.isLt
  have hheader := e.header.isLt
  rw [e.save_toNat, field]
  omega

/-- A table of a list by position reads as the list, and as the default beyond it. -/
theorem Tab.get_mapIdx {α β : Type} (f : α → β) (d : β) (l : List α) (i : Nat) :
    Tab.get d (l.mapIdx (fun i a => (i, f a))) i = (l[i]?.map f).getD d := by
  have from_ : ∀ (l : List α) (n : Nat), n ≤ i → Tab.get d (l.mapIdx (fun i a => (n + i, f a))) i = (l[i - n]?.map f).getD d := by
    intro l
    induction l with
    | nil => intro n _; rfl
    | cons a l ih =>
      intro n hn
      rw [List.mapIdx_cons, Tab.get]
      split
      · next h =>
        subst h
        simp
      · next h =>
        have hrest := ih (n + 1) (by omega)
        rw [show i - n = (i - (n + 1)) + 1 by omega, List.getElem?_cons_succ, ← hrest]
        congr 2
        funext j b
        rw [Nat.add_assoc, Nat.add_comm 1]
  simpa using from_ l 0 (Nat.zero_le i)

/-- LOOPSTATE registers hold the entries of the stack, outermost first, and zero beyond them. -/
theorem saveLoops_get (ls : List LoopEntry) (i : Nat) :
    (saveLoops ls).get 0 i = (ls.reverse[i]?.map LoopEntry.save).getD 0 := Tab.get_mapIdx LoopEntry.save 0 ls.reverse i

/-- Positions below a bound at which a list has an element are those of the list. -/
theorem filterMap_range_getElem? {α β : Type} (l : List α) (f : Nat → α → β) (n : Nat) (h : l.length ≤ n) :
    (List.range n).filterMap (fun i => l[i]?.map (f i)) = l.mapIdx f := by
  induction l generalizing n f with
  | nil => simp
  | cons a l ih =>
    obtain ⟨n, rfl⟩ : ∃ m, n = m + 1 := ⟨n - 1, by simp at h; omega⟩
    rw [List.range_succ_eq_map, List.filterMap_cons_some (f := fun i => (a :: l)[i]?.map (f i)) (b := f 0 a) rfl,
      List.mapIdx_cons, List.filterMap_map,
      ← ih (fun i => f (i + 1)) n (by simpa using h)]
    rfl

/-- A frame that holds a context's loop stack restores it. -/
theorem restoreLoops_saveLoops {s : State} {c : Nat} {x : CtxId} {f : Frame} (hf : f.loops = saveLoops (s.ctxAt c x).loops)
    (hlen : (s.ctxAt c x).loops.length ≤ 4) : restoreLoops s c x f = (s.ctxAt c x).loops := by
  set ls := (s.ctxAt c x).loops with hls
  have hvalid : (List.range 4).filterMap (fun i => if bitAt (f.loops.get 0 i).toNat 63 then some (i, f.loops.get 0 i) else none)
      = ls.reverse.mapIdx (fun i e => (i, e.save)) := by
    rw [← filterMap_range_getElem? ls.reverse (fun i e => (i, e.save)) 4 (by simpa using hlen)]
    congr 1
    funext i
    rw [hf, saveLoops_get]
    cases ls.reverse[i]? with
    | none => rfl
    | some e => simp
  have hrestore : (ls.reverse.mapIdx (fun i e => (i, e.save))).map (fun e => restoreLoop s c x ls.reverse e.1 e.2) = ls.reverse := by
    refine List.ext_getElem (by simp) fun i h _ => ?_
    have hi : i < ls.reverse.length := by simpa using h
    rw [List.getElem_map, List.getElem_mapIdx, restoreLoop, List.getElem?_eq_getElem hi]
    exact if_pos rfl
  rw [restoreLoops]
  dsimp only
  rw [hvalid, ← hls, hrestore, List.reverse_reverse]

/-- Loop state is legal where its reserved bits are zero and no valid entry stands above an invalid one (R38). -/
theorem loopsLegal_iff (f : Frame) : loopsLegal f = true ↔
    (∀ i < 4, (f.loops.get 0 i).extractLsb' 56 4 = 0) ∧
      ∀ i < 3, (f.loops.get 0 (i + 1)).getLsbD 63 = true → (f.loops.get 0 i).getLsbD 63 = true := by
  have hzero (w : Word) : (field w.toNat 56 4 == 0) = true ↔ w.extractLsb' 56 4 = 0 := by
    rw [field_eq_extract, beq_iff_eq, BitVec.toNat_eq]
    rfl
  have hstep (a b : Bool) : (!(!a && b)) = true ↔ (b = true → a = true) := by revert a b; decide
  have hfour (P : Nat → Prop) : (∀ i < 3, P i) ↔ P 0 ∧ P 1 ∧ P 2 :=
    ⟨fun h => ⟨h 0 (by omega), h 1 (by omega), h 2 (by omega)⟩, fun ⟨h0, h1, h2⟩ i hi => by
      obtain rfl | rfl | rfl : i = 0 ∨ i = 1 ∨ i = 2 := by omega
      · exact h0
      · exact h1
      · exact h2⟩
  simp only [loopsLegal, Bool.and_eq_true, hstep, hfour, List.all_eq_true, List.mem_range, hzero, bitAt_eq_getLsbD, and_assoc]

/-- Saved loop state is legal. -/
theorem loopsLegal_saveLoops {f : Frame} {ls : List LoopEntry} (hf : f.loops = saveLoops ls) : loopsLegal f = true := by
  rw [loopsLegal_iff, hf]
  refine ⟨fun i _ => ?_, fun i _ => ?_⟩ 
  · rw [saveLoops_get]
    cases ls.reverse[i]? with
    | none => rfl
    | some e => exact BitVec.eq_of_toNat_eq ((field_eq_extract e.save 56 4).symm.trans e.save_reserved)
  · rw [saveLoops_get, saveLoops_get]
    cases h : ls.reverse[i]? with
    | none => rw [List.getElem?_eq_none (by have := List.getElem?_eq_none_iff.1 h; omega)]; exact id
    | some e => exact fun _ => (bitAt_eq_getLsbD e.save 63).symm.trans e.save_valid

/-! ### `RTE` (R239) -/

section
variable {s : State}

/-- `RTE` where nothing of the bivouac context is outstanding and the loop state is legal. -/
theorem exec_rte_returns (hx : s.ctx = .biv) (hops : ∀ o ∈ s.cur.ops, s.performedOwn s.core o = true)
    (hl : loopsLegal s.curCore.frame = true) : exec .rte s = .next s.returnFromBivouac := by
  have hall : s.cur.ops.all (s.performedOwn s.core) = true := List.all_eq_true.2 hops
  show execRte s = _
  rw [execRte, if_neg (not_not.2 hx), hall, hl]
  rfl

theorem exec_rte_illegal (hx : s.ctx = .biv) (hops : ∀ o ∈ s.cur.ops, s.performedOwn s.core o = true)
    (hl : loopsLegal s.curCore.frame = false) : exec .rte s = .next (s.takeTrap 2 0) := by
  have hall : s.cur.ops.all (s.performedOwn s.core) = true := List.all_eq_true.2 hops
  show execRte s = _
  rw [execRte, if_neg (not_not.2 hx), hall, hl]
  rfl

theorem exec_rte_waits (hx : s.ctx = .biv) (hops : ∃ o ∈ s.cur.ops, s.performedOwn s.core o = false) :
    exec .rte s = .next s := by
  have hall : s.cur.ops.all (s.performedOwn s.core) = false := by
    obtain ⟨o, ho, hf⟩ := hops
    exact List.all_eq_false.2 ⟨o, ho, by simp [hf]⟩
  show execRte s = _
  rw [execRte, if_neg (not_not.2 hx), hall]
  rfl

end

/-- A trap in the bivouac context ends the task at the context rung (R36). -/
theorem takeTrapAt_biv {s : State} (hx : s.ctx = .biv) (cause : Nat) (info pc : Word) :
    s.takeTrapAt cause info pc = s.contextRung s.curCore.team 4 0 0 [] := by
  unfold State.takeTrapAt
  rw [hx]

/-- Settles O15: in the bivouac context every trap is the context rung, and `RTE` makes its checks in turn. -/
theorem bivouacTrapsAndReturnChecks : Obligations.BivouacTrapsAndReturnChecks := by
  unfold Obligations.BivouacTrapsAndReturnChecks
  refine ⟨fun code cause info pc s hx => ⟨takeTrapAt_biv hx .., ?trap, ?endtask⟩,
    fun s => ⟨fun hx => ?outside, exec_rte_waits, fun hx hops hbad => ?illegal⟩⟩
  case trap =>
    show execTrap code s = _
    rw [execTrap, if_pos (onControl_of (.inr hx)), takeTrapAt_biv hx]
  case endtask =>
    show execEndtask s = _
    rw [execEndtask, hx, ← takeTrapAt_biv hx]
    rfl
  case outside =>
    show execRte s = _
    rw [execRte, if_pos hx]
    rfl
  case illegal =>
    rw [exec_rte_illegal hx hops, State.takeTrap, takeTrapAt_biv hx]
    obtain ⟨i, hi, hbad⟩ := hbad
    refine Bool.eq_false_iff.2 fun hl => ?_
    obtain ⟨hzero, hstep⟩ := (loopsLegal_iff _).1 hl
    rcases hbad with hbad | ⟨hi0, hi3, hi1⟩
    · exact hbad (hzero i hi)
    · exact Bool.false_ne_true (hi0.symm.trans (hstep i hi3 hi1))

/-! ### `TRAP`, and the return after it (R238, R239) -/

/-- The return to the primary control context after a trap of its own, as `RTE` leaves the core. -/
theorem returnFromBivouac_ctl {s : State} (hcause : s.curCore.frame.cause ≤ 9) (hseq : s.curCore.frame.seq = 0)
    (hrun : s.curCore.ctl.run = .trapped) (hloops : s.curCore.frame.loops = saveLoops s.curCore.ctl.loops)
    (hlen : s.curCore.ctl.loops.length ≤ 4) (hpend : s.curCore.pend = [])
    (hpast : ∀ e r, s.curCore.ctl.loops = e :: r → s.curCore.frame.pc.toNat ≠ e.bodyEnd) :
    s.returnFromBivouac = s.setCurCore { s.curCore with
      ctl := { s.curCore.ctl with
        rb := s.curCore.frame.rotbase.truncate 5, pc := s.curCore.frame.pc, run := .running, fetched := none,
        atEntry := s.curCore.ctl.atEntry && s.curCore.ctl.pc == s.curCore.frame.pc, want := none, ahead := none, lines := [] },
      biv := { s.curCore.biv with run := .idle } } := by
  have hctl : s.ctxAt s.core .ctl = s.curCore.ctl := rfl
  have hrestore : restoreLoops s s.core .ctl s.curCore.frame = s.curCore.ctl.loops := restoreLoops_saveLoops hloops hlen
  have hrecords : s.curCore.frame.cause ≠ 0x10 := by omega
  unfold State.returnFromBivouac
  simp only [hcause, if_true, hseq, show seqOf 0 = .ctl from rfl, Core.ctxOf, Core.setCtx, hrestore, hrun, if_neg hrecords]
  rw [Ctx.arrive_past hpast]
  exact State.enter_of_pend_nil (by rw [show ∀ k, (s.setCurCore k).coreAt s.core = k from fun k => s.coreAt_setCore_self _ k]; exact hpend)

/-- The core of the primary control context's own trap, once it has entered. -/
def ctlTrapped (s : State) (cause : Nat) (info pc : Word) : Core :=
  { s.curCore with ctl := trapCtx s, frame := trapFrame s cause info pc, biv := handlerCtx s }

theorem takeTrapAt_ctl {s : State} {cause : Nat} {info pc : Word} (hx : s.ctx = .ctl) (hc : cause ≤ 9)
    (hd : s.drained s.core .ctl = true) (hb : s.curCore.biv.run ≠ .running) (hp : s.curCore.pend = []) :
    s.takeTrapAt cause info pc = s.setCurCore (ctlTrapped s cause info pc) := by
  have hqueued : trapQueued s cause info pc = { s.curCore with ctl := trapCtx s, pend := [trapCause s cause info pc] } := by
    rw [trapQueued, trapCore, hx]
    rfl
  have hctl : (trapQueued s cause info pc).ctl.suspend = trapCtx s := by
    rw [hqueued]
    exact Ctx.suspend_of_hold rfl
  rw [takeTrapAt_enters (by rw [hx]; decide) hc (by rw [hx]; exact hd) hb hp, hctl, hqueued]
  exact congrArg (fun j : Core => s.setCurCore { j with ctl := trapCtx s, frame := trapFrame s cause info pc, biv := handlerCtx s })
    (Core.eq_with_pend hp)

/-- Settles O14: `TRAP` enters with the loop state that `RTE` restores. -/
theorem trapThenReturn : Obligations.TrapThenReturn := by
  unfold Obligations.TrapThenReturn
  intro code s hx hd hb hp hbops hlen hpast
  have hcur : s.cur = s.curCore.ctl := by rw [State.cur_eq, hx]; rfl
  set k := ctlTrapped s 9 (code.zeroExtend 64) (s.pc + 2) with hk
  set v : State := { s.setCurCore k with ctx := .biv } with hv
  have hvcore : v.curCore = k := s.curCore_setCurCore k
  have hops : ∀ o ∈ v.cur.ops, v.performedOwn v.core o = true := by
    have hnone : v.curCore.biv.ops = [] := by rw [hvcore]; exact hbops
    rw [State.cur_eq, show v.curCore.ctxOf v.ctx = v.curCore.biv from rfl, hnone]
    exact fun o ho => absurd ho List.not_mem_nil
  have hseq : k.frame.seq = 0 := by
    rw [hk, ctlTrapped, trapFrame, hx]
    rfl
  have hreturn := returnFromBivouac_ctl (s := v) (by rw [hvcore]; exact Nat.le_refl 9) (by rw [hvcore]; exact hseq)
    (by rw [hvcore]; rfl) (by rw [hvcore]; rfl) (by rw [hvcore]; exact hlen) (by rw [hvcore]; exact hp) (by rw [hvcore]; exact hpast)
  rw [hvcore] at hreturn
  have hleft (j : Core) : (v.setCurCore j).coreAt s.core = j := v.coreAt_setCore_self s.core j
  have hentry : (s.cur.atEntry && s.cur.pc == s.pc + 2) = false := by
    simp [State.pc]
  have hrb : k.frame.rotbase.truncate 5 = s.cur.rb := by
    rw [show k.frame.rotbase = s.cur.rb.zeroExtend 64 from rfl]
    simp
  refine ⟨s.setCurCore k, v.returnFromBivouac, ?traps, ?hasCause, ?hasSeq, ?hasInfo, ?hasPc,
    exec_rte_returns rfl hops (loopsLegal_saveLoops (ls := s.cur.loops) (by rw [hvcore]; rfl)), ?only, ?ctl, ?core, ?idle⟩
  case traps =>
    show execTrap code s = _
    rw [execTrap, if_pos (onControl_of (.inl hx)), takeTrapAt_ctl hx (Nat.le_refl 9) hd hb hp]
  case hasCause => rw [State.curCore_setCurCore]; rfl
  case hasSeq => rw [State.curCore_setCurCore]; exact hseq
  case hasInfo => rw [State.curCore_setCurCore]; rfl
  case hasPc => rw [State.curCore_setCurCore]; rfl
  case only =>
    rw [hreturn]
    exact ⟨rfl, fun c hc => (v.coreAt_setCore_ne _ hc).trans (s.coreAt_setCore_ne k hc)⟩
  case ctl =>
    rw [hreturn, State.ctxAt, hleft, hrb, ← hentry]
    rfl
  case core =>
    rw [hreturn, State.curCore_setCurCore, State.curCore_setCurCore]
    rfl
  case idle => rw [hreturn, State.curCore_setCurCore]

end Sys2Proof.Machine
end

section
/-! SUPPORT. The system registers (R37, R38, R241), and an event that enters (R34 to R37). -/

namespace Sys2Proof.Machine

/-! ### `MFS` (R241) -/

section
variable {s : State} {d r : Reg} {n : BitVec 17}

/-- `MFS` writes the value of the register it names. -/
theorem exec_mfs_wrote (hx : OnCtl s) (hd : Usable s [d]) {v : Word} (hv : sysRead s n.toNat = some v) :
    Completes (.mfs d n) s (fun t => WroteReg s t d v 2) := by
  have h : exec (.mfs d n) s = finish 2 1 s (.ok (s.setG d v)) := by
    show execMfs d n s = _
    rw [execMfs, onControl_of hx, guardCtx_true, hv]
    simp only [guardHazard_pass hd]
  obtain ⟨t, ht, hw⟩ := wroteReg_of_ok s d v 2
  exact ⟨t, h.trans ht, hw⟩

/-- A number that it may not read traps. -/
theorem exec_mfs_traps (hx : OnCtl s) (hv : sysRead s n.toNat = none) : exec (.mfs d n) s = .next (s.takeTrap 2 2) := by
  show execMfs d n s = _
  rw [execMfs, onControl_of hx, guardCtx_true, hv]
  rfl

/-- STATUS is its fields side by side. -/
theorem statusWord_eq {x : CtxId} {k : Core} {v : Word} (h0 : v.getLsbD 0 = (x == .biv)) (h1 : v.getLsbD 1 = k.msgHold)
    (h2 : v.getLsbD 2 = k.demHold) (h3 : v.getLsbD 3 = k.hotHold) (hn : v.toNat / 16 = k.pend.length) :
    statusWord x k = v := by
  have bit (i : Nat) : (v.getLsbD i).toNat = v.toNat / 2 ^ i % 2 := by
    rw [← bitAt_eq_getLsbD, bitAt]
    rcases Nat.mod_two_eq_zero_or_one (v.toNat / 2 ^ i) with h | h <;> rw [h] <;> rfl
  apply BitVec.eq_of_toNat_eq
  have b0 := bit 0
  have b1 := bit 1
  have b2 := bit 2
  have b3 := bit 3
  rw [h0] at b0
  rw [h1] at b1
  rw [h2] at b2
  rw [h3] at b3
  rw [statusWord, BitVec.toNat_ofNat, b0, b1, b2, b3]
  omega

end

theorem sysRead_none_of_lt {s : State} {n : Nat} (h : 0x10 < n) : sysRead s n = none := by
  obtain ⟨m, rfl⟩ : ∃ m, n = m + 0x11 := ⟨n - 0x11, by omega⟩
  rfl

/-- Settles O16: each register is the value its number names, and a trap-frame register one of the bivouac context alone. -/
theorem specialRegisterReads : Obligations.SpecialRegisterReads := by
  unfold Obligations.SpecialRegisterReads
  intro d n s hx hd k tm gives frame
  have reads (n : BitVec 17) {v : Word} (hv : sysRead s n.toNat = some v) : gives n v := exec_mfs_wrote hx hd hv
  have frames (n : BitVec 17) (v : Word) (hv : sysRead s n.toNat = if s.ctx = .biv then some v else none) : frame n v :=
    ⟨fun hb => reads n (by rw [hv, if_pos hb]), fun hc => exec_mfs_traps hx (by rw [hv, hc]; rfl)⟩
  refine ⟨fun v h0 h1 h2 h3 hn _ => reads 0 (congrArg some (statusWord_eq h0 h1 h2 h3 hn)), frames 1 _ ?_, frames 2 _ rfl,
    frames 3 _ rfl, frames 4 _ rfl, frames 5 _ rfl, frames 6 _ rfl, frames 7 _ rfl, frames 8 _ rfl, frames 9 _ rfl, reads 0xA rfl,
    reads 0xB rfl, reads 0xC rfl, reads 0xD rfl, reads 0xE rfl, reads 0xF rfl, reads 0x10 rfl,
    fun hn => exec_mfs_traps hx (sysRead_none_of_lt hn)⟩
  rw [Nat.mul_comm]
  rfl

/-! ### An event that enters (R34 to R37) -/

/-- A core whose pending queue holds a copy fault with the number of its record. -/
def faultPending : State := { cores := [(0, { pend := [{ cause := 0x10, record := 1 }] })] }

/-- The fault enters, and the frame it writes has that number. -/
theorem faultPending_enters : ∃ t, exec (.bivouacEntry 0) faultPending = .next t ∧ (t.coreAt 0).frame.record = 1 :=
  ⟨_, rfl, rfl⟩

/-- Refutes O41: the frame of a copy fault keeps the number of the fault's record as well (R258), which the statement's frame leaves 0. -/
theorem not_eventEntry : ¬ Obligations.EventEntry := by
  unfold Obligations.EventEntry
  intro h
  obtain ⟨-, henter⟩ := h 0 { cause := 0x10, record := 1 } [] [] faultPending rfl rfl (by simp)
  obtain ⟨t, ht, -, hframe, -⟩ := henter (by decide) (by decide) (by decide) (by decide) (by decide) (by decide)
  obtain ⟨u, hu, hrecord⟩ := faultPending_enters
  obtain rfl : t = u := Host.Outcome.next.inj (ht.symm.trans hu)
  rw [hframe] at hrecord
  exact absurd hrecord (by decide)

end Sys2Proof.Machine
end

section
/-! SUPPORT. Registers that a context may not name, or may not name yet: what the checks answer, and the obligation about them (R26, R73, R121,
R216, R247). -/

namespace Sys2Proof.Machine

/-! ### The register checks (R26, R121) -/

section
variable {s : State} {r : Reg} {n : Nat} {l : List (Reg × Nat)}

/-- A sequencer with sixteen registers lacks those above. -/
theorem badReg_true (hx : s.ctx = .ld ∨ s.ctx = .cmp ∨ s.ctx = .st) (hr : 16 ≤ r.toNat) : badReg s.ctx r = true := by
  rcases hx with h | h | h <;> rw [h] <;> simpa [badReg] using hr

theorem badReg_of_lt (hr : r.toNat < 16) : badReg s.ctx r = false := badReg_false (.inr (.inr hr))

theorem badReg_of_has (hr : OnCtl s ∨ r.toNat < 16) : badReg s.ctx r = false := badReg_false (or_assoc.1 hr)

theorem firstBad_head {x : CtxId} (h : badReg x r = true) : firstBad x ((r, n) :: l) = some n := if_pos h

theorem firstBad_tail {x : CtxId} (h : badReg x r = false) : firstBad x ((r, n) :: l) = firstBad x l := by
  rw [firstBad, h]
  rfl

theorem firstBad_nil {x : CtxId} : firstBad x [] = none := rfl

/-- An operation that has not performed owes the register it is to write. -/
theorem pendingReg_of_owed {k : Ctx} {o : Op} (ho : o ∈ k.ops) (hst : o.st ≠ .done) (hdst : o.dst = some r.toNat) (hr : r ≠ 0) :
    k.pendingReg r.toNat = true := by
  have hr0 : r.toNat ≠ 0 := fun h => hr (BitVec.eq_of_toNat_eq h)
  exact List.any_eq_true.2 ⟨o, ho, by simp [Op.owes, hst, hdst, hr0]⟩

theorem guardRegs_bad {a : Act} {rs : List (Reg × Nat)} (h : firstBad s.ctx rs = some n) :
    guardRegs s rs a = .trap 2 (BitVec.ofNat 64 n) := by
  rw [guardRegs, h]

theorem guardRegs_good {a : Act} {rs : List (Reg × Nat)} (h : firstBad s.ctx rs = none) : guardRegs s rs a = a := by
  rw [guardRegs, h]

theorem guardHazard_owed {a : Act} {rs : List Reg} (hr : r ∈ rs) (h : s.cur.pendingReg r.toNat = true) :
    guardHazard s rs a = .wait := if_pos (List.any_eq_true.2 ⟨r, hr, h⟩)

/-- A result whose register fields name one the context lacks. -/
theorem scalar_traps {rs : List (Reg × Nat)} {d : Reg} {v : Word} (len : Nat) (h : firstBad s.ctx rs = some n) :
    scalar len rs d v s = .next (s.takeTrap 2 (BitVec.ofNat 64 n)) := by
  rw [scalar, guardRegs_bad h]
  rfl

/-- A result whose register fields name one that is owed. -/
theorem scalar_waits {rs : List (Reg × Nat)} {d : Reg} {v : Word} (len : Nat) (h : firstBad s.ctx rs = none)
    (hr : r ∈ rs.map (·.1)) (hp : s.cur.pendingReg r.toNat = true) : scalar len rs d v s = .next s.freeze := by
  rw [scalar, guardRegs_good h, guardHazard_owed hr hp]
  rfl

variable {allowed : Bool} {code : Nat} {f : LF} {rs : List (Reg × Nat)} {fs : List (Nat × Bool)} {body : Act}

/-- An L48 instruction whose register fields name one the context lacks. -/
theorem ordering_traps (ha : allowed = true) (hf : ∀ f ∈ fs, f.2 = false) (h : firstBad s.ctx rs = some n) :
    ordering allowed code f rs fs body s = .next (s.takeTrap 2 (BitVec.ofNat 64 n)) := by
  rw [ordering, ha, guardCtx_true, guardFields_pass hf, guardRegs_bad h]
  rfl

/-- An L48 instruction whose register fields name one that is owed. -/
theorem ordering_waits (ha : allowed = true) (hf : ∀ f ∈ fs, f.2 = false) (h : firstBad s.ctx rs = none)
    (hr : r ∈ rs.map (·.1)) (hp : s.cur.pendingReg r.toNat = true) : ordering allowed code f rs fs body s = .next s.freeze := by
  rw [ordering, ha, guardCtx_true, guardFields_pass hf, guardRegs_good h, guardHazard_owed hr hp]
  rfl

/-- An L48 instruction a field of which fails its own check. -/
theorem ordering_field (ha : allowed = true) (h : firstField fs = some n) :
    ordering allowed code f rs fs body s = .next (s.takeTrap 2 (BitVec.ofNat 64 n)) := by
  rw [ordering, ha, guardCtx_true, guardFields, h]
  rfl

end

/-- Off the compute sequencer nothing freezes (R73). -/
theorem freeze_of_ne_cmp {s : State} (h : s.ctx ≠ .cmp) : s.freeze = s := by
  unfold State.freeze
  cases hx : s.ctx with
  | cmp => exact absurd hx h
  | _ => rfl

/-! ### The fields of some L48 instructions -/

/-- No field. -/
theorem noFields : ∀ f ∈ ([] : List (Nat × Bool)), f.2 = false := fun _ h => absurd h List.not_mem_nil

/-- One field that passes. -/
theorem oneField {n : Nat} {b : Bool} (h : b = false) : ∀ f ∈ [(n, b)], f.2 = false := by
  simpa using h

theorem queue_le {n m : Nat} (h : n ≤ m) : decide (m < n) = false := decide_eq_false (Nat.not_lt.2 h)

theorem count_ne_zero {f : LF} (h : f.z.extractLsb' 1 6 ≠ 0) : (field f.z.toNat 1 6 == 0) = false := by
  rw [field_eq_extract, beq_eq_false_iff_ne]
  exact fun h0 => h (BitVec.eq_of_toNat_eq h0)

theorem signal_le {f : LF} (h : f.x.toNat ≤ 11) : (!signalOk f.x.toNat) = false := by
  simp [signalOk, h]

end Sys2Proof.Machine
end

section
/-! SUPPORT. The obligation about registers a context lacks or waits for, instruction by instruction (R26, R121, R216, R247). -/

namespace Sys2Proof.Machine

section
variable {s : State} (hx : s.ctx = .ld ∨ s.ctx = .cmp ∨ s.ctx = .st)
include hx

/-- A scalar instruction's register fields, the first above 15 in each place. -/
theorem scalar_register_traps (d a b : Reg) (imm : BitVec 12) :
    let traps (i : Instr) (n : Word) : Prop := exec i s = .next (s.takeTrap 2 n)
    (16 ≤ d.toNat → traps (.add d a b) 0 ∧ traps (.sel d a b) 0 ∧ traps (.addi d a imm) 0 ∧ traps (.mov d a) 0 ∧
      traps (.movk d a) 0 ∧ traps (.clz d a) 0 ∧ traps (.beq d a imm) 0 ∧ traps (.skipz d imm) 0) ∧
    (d.toNat < 16 → 16 ≤ a.toNat → traps (.add d a b) 1 ∧ traps (.sel d a b) 1 ∧ traps (.addi d a imm) 1 ∧
      traps (.mov d a) 1 ∧ traps (.clz d a) 1 ∧ traps (.beq d a imm) 1) ∧
    (d.toNat < 16 → a.toNat < 16 → 16 ≤ b.toNat → traps (.add d a b) 2 ∧ traps (.sel d a b) 2) := by
  intro traps
  have first {n : Nat} {l : List (Reg × Nat)} {r : Reg} (hr : 16 ≤ r.toNat) : firstBad s.ctx ((r, n) :: l) = some n :=
    firstBad_head (badReg_true hx hr)
  have branchTraps {n : Nat} (h : firstBad s.ctx [(d, 0), (a, 1)] = some n) : traps (.beq d a imm) (BitVec.ofNat 64 n) := by
    show condBranch .eq d a imm s = _
    rw [condBranch, guardRegs_bad h]
    rfl
  refine ⟨fun hd => ?_, fun hd ha => ?_, fun hd ha hb => ?_⟩
  · refine ⟨scalar_traps 2 (first hd), scalar_traps 2 (first hd), scalar_traps 2 (first hd), scalar_traps 1 (first hd),
      scalar_traps 1 (first hd), scalar_traps 2 (first hd), branchTraps (first hd), ?_⟩
    show skip true d imm s = _
    rw [skip, guardRegs_bad (first hd)]
    rfl
  · have second {l : List (Reg × Nat)} : firstBad s.ctx ((d, 0) :: (a, 1) :: l) = some 1 :=
      (firstBad_tail (badReg_of_lt hd)).trans (first ha)
    exact ⟨scalar_traps 2 second, scalar_traps 2 second, scalar_traps 2 second, scalar_traps 1 second, scalar_traps 2 second,
      branchTraps second⟩
  · have third : firstBad s.ctx [(d, 0), (a, 1), (b, 2)] = some 2 :=
      (firstBad_tail (badReg_of_lt hd)).trans ((firstBad_tail (badReg_of_lt ha)).trans (first hb))
    exact ⟨scalar_traps 2 third, scalar_traps 2 third⟩

variable (f : LF)

/-- The register fields of an L48 instruction, the first above 15 in each place: the forms of the load sequencer. -/
theorem load_register_traps (hld : s.ctx = .ld) :
    let traps (i : Instr) (n : Word) : Prop := exec i s = .next (s.takeTrap 2 n)
    let x := 16 ≤ f.x.toNat
    let y := 16 ≤ f.y.toNat
    (x → traps (.ldB f) 0 ∧ traps (.ldD f) 0 ∧ traps (.ldsW f) 0) ∧
      (¬ x → y → traps (.ldB f) 1 ∧ traps (.ldD f) 1 ∧ traps (.ldsW f) 1) ∧
      (y → traps (.ldtab f) 1 ∧ traps (.ldm f) 1 ∧ traps (.ldb f) 1 ∧
        (f.x.toNat ≤ 3 → traps (.ldq f) 1 ∧ traps (.ldqs f) 1 ∧ traps (.ldx f) 1)) ∧
      (¬ y → 16 ≤ (f.z.extractLsb' 5 5).toNat → f.x.toNat ≤ 3 → traps (.ldqs f) 2 ∧ traps (.ldx f) 2) := by
  intro traps x y
  have here : (s.ctx == .ld) = true := by rw [hld]; rfl
  have first {n : Nat} {l : List (Reg × Nat)} {r : Reg} (hr : 16 ≤ r.toNat) : firstBad s.ctx ((r, n) :: l) = some n :=
    firstBad_head (badReg_true hx hr)
  refine ⟨fun h => ?_, fun h hy => ?_, fun hy => ?_, fun hy hz hq => ?_⟩
  · exact ⟨ordering_traps here noFields (first h), ordering_traps here noFields (first h), ordering_traps here noFields (first h)⟩
  · have second : firstBad s.ctx [(f.x, 0), (f.y, 1)] = some 1 := (firstBad_tail (badReg_of_lt (not_le.1 h))).trans (first hy)
    exact ⟨ordering_traps here noFields second, ordering_traps here noFields second, ordering_traps here noFields second⟩
  · exact ⟨ordering_traps here noFields (first hy), ordering_traps here noFields (first hy), ordering_traps here noFields (first hy),
      fun hq => ⟨ordering_traps here (oneField (queue_le hq)) (first hy), ordering_traps here (oneField (queue_le hq)) (first hy),
        ordering_traps here (oneField (queue_le hq)) (first hy)⟩⟩
  · have second : firstBad s.ctx [(f.y, 1), (zReg f 5, 2)] = some 2 :=
      (firstBad_tail (badReg_of_lt (not_le.1 hy))).trans (first (by rw [zReg_eq]; exact hz))
    exact ⟨ordering_traps here (oneField (queue_le hq)) second, ordering_traps here (oneField (queue_le hq)) second⟩

/-- The same of the store sequencer. -/
theorem store_register_traps (hst : s.ctx = .st) :
    let traps (i : Instr) (n : Word) : Prop := exec i s = .next (s.takeTrap 2 n)
    let x := 16 ≤ f.x.toNat
    let y := 16 ≤ f.y.toNat
    (x → traps (.stB f) 0 ∧ traps (.stD f) 0) ∧ (¬ x → y → traps (.stB f) 1 ∧ traps (.stD f) 1) ∧
      (y → traps (.stm f) 1 ∧ (f.x.toNat ≤ 1 → traps (.stq f) 1 ∧ traps (.stqs f) 1)) ∧
      (¬ y → 16 ≤ (f.z.extractLsb' 5 5).toNat → f.x.toNat ≤ 1 → traps (.stqs f) 2) := by
  intro traps x y
  have here : (s.ctx == .st) = true := by rw [hst]; rfl
  have first {n : Nat} {l : List (Reg × Nat)} {r : Reg} (hr : 16 ≤ r.toNat) : firstBad s.ctx ((r, n) :: l) = some n :=
    firstBad_head (badReg_true hx hr)
  refine ⟨fun h => ?_, fun h hy => ?_, fun hy => ?_, fun hy hz hq => ?_⟩
  · exact ⟨ordering_traps here noFields (first h), ordering_traps here noFields (first h)⟩
  · have second : firstBad s.ctx [(f.x, 0), (f.y, 1)] = some 1 := (firstBad_tail (badReg_of_lt (not_le.1 h))).trans (first hy)
    exact ⟨ordering_traps here noFields second, ordering_traps here noFields second⟩
  · exact ⟨ordering_traps here noFields (first hy), fun hq =>
      ⟨ordering_traps here (oneField (queue_le hq)) (first hy), ordering_traps here (oneField (queue_le hq)) (first hy)⟩⟩
  · exact ordering_traps here (oneField (queue_le hq))
      ((firstBad_tail (badReg_of_lt (not_le.1 hy))).trans (first (by rw [zReg_eq]; exact hz)))

/-- The same of the forms that the compute sequencer alone does not run. -/
theorem plane_register_traps (hcmp : s.ctx ≠ .cmp) :
    let traps (i : Instr) (n : Word) : Prop := exec i s = .next (s.takeTrap 2 n)
    let x := 16 ≤ f.x.toNat
    let y := 16 ≤ f.y.toNat
    (x → traps (.aadd f) 0 ∧ traps (.ald f) 0 ∧ traps (.ast f) 0 ∧ traps (.probe f) 0) ∧
      (¬ x → y → traps (.aadd f) 1 ∧ traps (.ald f) 1 ∧ traps (.ast f) 1 ∧ traps (.probe f) 1) ∧
      (¬ x → ¬ y → 16 ≤ (f.z.extractLsb' 3 5).toNat → traps (.aadd f) 2 ∧ traps (.acas f) 2) ∧
      (y → traps (.pref f) 1 ∧ (f.x.toNat ≤ 11 → traps (.xcopy f) 1)) := by
  intro traps x y
  have here : (s.ctx != .cmp) = true := bne_iff_ne.2 hcmp
  have first {n : Nat} {l : List (Reg × Nat)} {r : Reg} (hr : 16 ≤ r.toNat) : firstBad s.ctx ((r, n) :: l) = some n :=
    firstBad_head (badReg_true hx hr)
  refine ⟨fun h => ?_, fun h hy => ?_, fun h hy hz => ?_, fun hy => ?_⟩
  · exact ⟨ordering_traps here noFields (first h), ordering_traps here noFields (first h), ordering_traps here noFields (first h),
      ordering_traps here noFields (first h)⟩
  · have second {l : List (Reg × Nat)} : firstBad s.ctx ((f.x, 0) :: (f.y, 1) :: l) = some 1 :=
      (firstBad_tail (badReg_of_lt (not_le.1 h))).trans (first hy)
    exact ⟨ordering_traps here noFields second, ordering_traps here noFields second, ordering_traps here noFields second,
      ordering_traps here noFields second⟩
  · have third : firstBad s.ctx [(f.x, 0), (f.y, 1), (atomicA f, 2)] = some 2 :=
      (firstBad_tail (badReg_of_lt (not_le.1 h))).trans ((firstBad_tail (badReg_of_lt (not_le.1 hy))).trans
        (first (by rw [atomicA, zReg_eq]; exact hz)))
    exact ⟨ordering_traps here noFields third, ordering_traps here noFields third⟩
  · exact ⟨ordering_traps here noFields (first hy), fun hs => ordering_traps here (oneField (signal_le hs)) (first hy)⟩

/-- The same of `KTAKET`, whose count is none of its registers. -/
theorem ktaket_register_traps (hcount : f.z.extractLsb' 1 6 ≠ 0) :
    (16 ≤ f.x.toNat → exec (.ktaket f) s = .next (s.takeTrap 2 0)) ∧
      (¬ 16 ≤ f.x.toNat → 16 ≤ f.y.toNat → exec (.ktaket f) s = .next (s.takeTrap 2 1)) :=
  ⟨fun h => ordering_traps rfl (oneField (count_ne_zero hcount)) (firstBad_head (badReg_true hx h)),
    fun h hy => ordering_traps rfl (oneField (count_ne_zero hcount))
      ((firstBad_tail (badReg_of_lt (not_le.1 h))).trans (firstBad_head (badReg_true hx hy)))⟩

end

/-- Settles O4: a field above 15 is the first that the check of registers names, and an owed register holds the instruction back. -/
theorem registerChecks : Obligations.RegisterChecks := by
  unfold Obligations.RegisterChecks
  refine ⟨fun d a b imm s hx => scalar_register_traps hx d a b imm, ?ordering, ?waiting⟩
  case ordering =>
    intro f s hx traps x y z z3 count
    exact ⟨load_register_traps hx f, store_register_traps hx f, plane_register_traps hx f, ktaket_register_traps hx f⟩
  intro d a b r imm f o s ho hst hdst hr has waits
  have hp : s.cur.pendingReg r.toNat = true := pendingReg_of_owed ho hst hdst hr
  have one {n : Nat} {r : Reg} (h : has r) : firstBad s.ctx [(r, n)] = none := firstBad_tail (badReg_of_has h)
  have two {n m : Nat} {q r : Reg} (h : has q) (h' : has r) : firstBad s.ctx [(q, n), (r, m)] = none :=
    (firstBad_tail (badReg_of_has h)).trans (one h')
  refine ⟨fun hd ha hb hin => ?_, fun hd ha hin => ?_, fun hd hin => ?_, fun hfx hfy hin => ?_, fun hfy hin hcmp => ?_,
    freeze_of_ne_cmp⟩
  · have hregs : firstBad s.ctx [(d, 0), (a, 1), (b, 2)] = none := (firstBad_tail (badReg_of_has hd)).trans (two ha hb)
    have hr : r ∈ [d, a, b] := by simpa using hin
    exact ⟨scalar_waits 2 hregs hr hp, scalar_waits 2 hregs hr hp, scalar_waits 2 hregs hr hp⟩
  · have hr : r ∈ [d, a] := by simpa using hin
    refine ⟨scalar_waits 2 (two hd ha) hr hp, scalar_waits 1 (two hd ha) hr hp, ?_⟩
    show condBranch .eq d a imm s = _
    rw [condBranch, guardRegs_good (two hd ha), guardHazard_owed hr hp]
    rfl
  · have hr : r ∈ [d] := by simpa using hin
    refine ⟨scalar_waits 1 (one hd) hr hp, scalar_waits 2 (one hd) hr hp, fun hx => ?_⟩
    show execTime d s = _
    rw [execTime, onControl_of hx, guardCtx_true, guardHazard_owed hr hp]
    rfl
  · have hregs : firstBad s.ctx [(f.x, 0), (f.y, 1)] = none := two hfx hfy
    have hr : r ∈ [f.x, f.y] := by simpa using hin
    exact ⟨fun hcount => ordering_waits rfl (oneField (count_ne_zero hcount)) hregs hr hp,
      fun hx => ordering_waits (by rw [hx]; rfl) noFields hregs hr hp, fun hx => ordering_waits (by rw [hx]; rfl) noFields hregs hr hp,
      fun hx => ordering_waits (bne_iff_ne.2 hx) noFields hregs hr hp,
      fun hx => ⟨ordering_waits (onControl_of hx) noFields hregs hr hp, ordering_waits (onControl_of hx) noFields hregs hr hp,
        ordering_waits (onControl_of hx) noFields hregs hr hp⟩⟩
  · have hr : r ∈ [f.y] := by simpa using hin
    exact ⟨ordering_waits (bne_iff_ne.2 hcmp) noFields (one hfy) hr hp,
      fun hs => ordering_waits (bne_iff_ne.2 hcmp) (oneField (signal_le hs)) (one hfy) hr hp⟩

end Sys2Proof.Machine
end

section
/-! SUPPORT. The end of a task leaves no cause waiting where none waited, and `MTS` (R37, R38, R139, R147, R199, R241). -/

namespace Sys2Proof.Machine

/-! ### Work on records touches no core (R134 to R139) -/

section
variable (s : State) (v n : Nat) (va : Word) (ans : Answer)

@[simp] theorem State.parkAt_cores (wr : Bool) : (s.parkAt v va wr).cores = s.cores := by
  unfold State.parkAt
  split <;> rfl

@[simp] theorem State.sendLines_cores (ls : List Byte1) (wr : Option (List Byte)) : (s.sendLines v ls wr).cores = s.cores := by
  obtain ⟨o, h⟩ := sendLines_out s v ls wr
  rw [h]

@[simp] theorem State.recTake_cores : (s.recTake v va n ans).1.cores = s.cores := by
  unfold State.recTake
  repeat' split
  all_goals simp

@[simp] theorem State.recPut_cores (bs : List Byte) : (s.recPut v va bs ans).1.cores = s.cores := by
  unfold State.recPut
  repeat' split
  all_goals simp

@[simp] theorem State.swapWord_cores (old new : Nat) : (s.swapWord v va old new ans).1.cores = s.cores := by
  unfold State.swapWord
  repeat' split
  all_goals simp [State.request]

@[simp] theorem State.causeThenSwap_cores (cause : Option Nat) (w w' : Nat) (as : List Answer) :
    (s.causeThenSwap v va cause w w' as).1.cores = s.cores := by
  unfold State.causeThenSwap
  split
  · simp
  · next c =>
    have h := s.recPut_cores v (s.recAt v va 72) (as.getD 0 .none) (leBytes 4 c)
    split <;> next heq => rw [heq] at h; simpa using h

@[simp] theorem State.countOnly_cores (cls die : Nat) (v : Option Nat) : (s.countOnly cls die v).1.cores = s.cores := by
  cases v <;> rfl

@[simp] theorem State.countMet_cores (cause : Nat) : (s.countMet v va cause).cores = s.cores := by
  unfold State.countMet State.countError
  split
  · exact s.countOnly_cores 3 4 _
  · split
    · exact s.countOnly_cores 0x0A 4 _
    · rfl

@[simp] theorem State.countTask_cores (t : Tk) (ok : Bool) : (s.countTask t ok).1.cores = s.cores := by
  unfold State.countTask
  dsimp only
  repeat' split
  all_goals rfl

@[simp] theorem State.lostTk_cores (t : Tk) (cause : Nat) (names : List Nat) : (s.lostTk v t cause names).1.cores = s.cores := by
  simp [State.lostTk]

@[simp] theorem State.setTk_cores (t : Tk) : (s.setTk t).cores = s.cores := rfl

@[simp] theorem State.loseTk_cores (t : Tk) (old cause : Nat) (as : List Answer) : (s.loseTk v t old cause as).1.cores = s.cores := by
  unfold State.loseTk
  split
  · simp
  have hread := s.recTake_cores v 8 t.addr (as.getD 0 .none)
  generalize s.recTake v t.addr 8 (as.getD 0 .none) = r at hread ⊢
  obtain ⟨s1, got⟩ := r
  cases got with
  | data w =>
    dsimp only
    split
    · simpa using hread
    · have hswap := s1.causeThenSwap_cores v t.addr (some 1) (leNat w) (swSetState (leNat w) 5) as.tail
      generalize s1.causeThenSwap _ _ _ _ _ _ = p at hswap ⊢
      obtain ⟨s2, done⟩ := p
      cases done <;> simpa using hswap.trans hread
  | _ => simpa using hread

@[simp] theorem State.endTk_cores (t : Tk) (old new cause : Nat) (as : List Answer) :
    (s.endTk v t old new cause as).1.cores = s.cores := by
  unfold State.endTk
  have hread := s.recTake_cores v 128 t.addr (as.headD .none)
  generalize s.recTake v t.addr 128 (as.headD .none) = r at hread ⊢
  obtain ⟨s1, got⟩ := r
  cases got with
  | data bs =>
    have hswap := s1.causeThenSwap_cores v t.addr (if new = 5 then some cause else none) (swSetState (leAt bs 0 8) old)
      (if new = 6 then swNextGen (swSetState (leAt bs 0 8) 6) else swSetState (leAt bs 0 8) 5) as.tail
    dsimp only
    generalize s1.causeThenSwap _ _ _ _ _ _ = p at hswap ⊢
    obtain ⟨s2, done⟩ := p
    cases done <;> simpa using hswap.trans hread
  | _ => simpa using hread

@[simp] theorem State.failTk_cores (t : Tk) (old cause : Nat) (as : List Answer) : (s.failTk v t old cause as).1.cores = s.cores :=
  s.endTk_cores v t old 5 cause as

theorem State.addWaiter_cores {w : Waiter} {u : State} (h : s.addWaiter v n w = some u) : u.cores = s.cores := by
  unfold State.addWaiter at h
  dsimp only at h
  split at h
  · rw [Option.some.inj h]
  · split at h
    · rw [← Option.some.inj h]
      rfl
    · split at h
      · rw [← Option.some.inj h]
        rfl
      · exact nomatch h

/-- A waiter is added to each event that is not satisfied yet. -/
theorem State.addWaiters_cores (w : Waiter) (ns : List Nat) (s : State) : (ns.foldl (fun s n =>
    if (s.event v n).satisfied then s else (s.addWaiter v n w).getD s) s).cores = s.cores := by
  induction ns generalizing s with
  | nil => rfl
  | cons n r ih =>
    rw [List.foldl_cons, ih]
    split
    · rfl
    · cases h : s.addWaiter v n w with
      | none => rfl
      | some u => exact s.addWaiter_cores v n h

@[simp] theorem State.recheck_cores (t : Tk) (as : List Answer) : (s.recheck t v as).1.cores = s.cores := by
  unfold State.recheck
  split
  · rfl
  have hread := s.recTake_cores v 128 t.addr (as.headD .none)
  generalize s.recTake v t.addr 128 (as.headD .none) = r at hread ⊢
  obtain ⟨s1, got⟩ := r
  cases got with
  | data bs =>
    dsimp only
    split
    · simpa using hread
    split
    · split
      · exact hread
      · have hswap := s1.swapWord_cores v t.addr (as.getD 1 .none) (leAt bs 0 8) (swSetState (leAt bs 0 8) 1)
        generalize s1.swapWord _ _ _ _ _ = p at hswap ⊢
        obtain ⟨s2, done⟩ := p
        cases done with
        | swapped =>
          dsimp only
          split <;> simpa using hswap.trans hread
        | _ => simpa using hswap.trans hread
    · exact (s1.addWaiters_cores v _ _).trans hread
  | _ => simpa using hread

end

/-! ### No cause comes to wait where none waited -/

/-- A core with nothing pending still has nothing pending. -/
def QuietQueues (s t : State) : Prop := ∀ c, (s.coreAt c).pend = [] → (t.coreAt c).pend = []

theorem QuietQueues.refl (s : State) : QuietQueues s s := fun _ h => h

theorem QuietQueues.trans {s t u : State} (h : QuietQueues s t) (h' : QuietQueues t u) : QuietQueues s u := fun c hc => h' c (h c hc)

theorem QuietQueues.of_cores {s t : State} (h : t.cores = s.cores) : QuietQueues s t := fun c hc => by
  rwa [State.coreAt, h]

theorem QuietQueues.setCore {s : State} {c : Nat} {k : Core} (h : (s.coreAt c).pend = [] → k.pend = []) :
    QuietQueues s (s.setCore c k) := by
  intro d hd
  by_cases hc : d = c
  · subst hc
    rw [State.coreAt_setCore_self]
    exact h hd
  · rwa [State.coreAt_setCore_ne _ _ hc]

theorem State.wakeOp_quiet (s : State) (c : Nat) (x : CtxId) (id : Nat) (v : Word) : QuietQueues s (s.wakeOp c x id v) :=
  .setCore fun h => by rwa [Core.setCtx_pend]

theorem State.wakeAll_quiet (v : Nat) (status : Word) (ws : List Waiter) (s : State) : QuietQueues s (s.wakeAll v status ws).1 := by
  induction ws generalizing s with
  | nil => exact .refl s
  | cons w r ih =>
    cases w with
    | op c x id => exact (s.wakeOp_quiet c x id status).trans (ih _)
    | task l i =>
      refine QuietQueues.trans ?_ (ih _)
      split
      · exact .of_cores (s.recheck_cores v _ _)
      · exact .refl s

theorem State.signalOne_quiet (s : State) (g : Sig) : QuietQueues s (s.signalOne g).1 := by
  unfold State.signalOne
  dsimp only
  split
  · exact .refl s
  · split
    · refine QuietQueues.trans ?_ (State.wakeAll_quiet _ _ _ _)
      exact .of_cores rfl
    · exact .of_cores rfl

theorem State.signals_quiet (s : State) (gs : List Sig) : QuietQueues s (s.signals gs) := by
  have run : ∀ (n : Nat) (gs : List Sig) (s : State), QuietQueues s (s.signalRun n gs) := by
    intro n
    induction n with
    | zero => exact fun _ s => .refl s
    | succ n ih =>
      intro gs s
      cases gs with
      | nil => exact .refl s
      | cons g r => exact (s.signalOne_quiet g).trans (ih _ _)
  exact run _ _ _

theorem State.releaseCores_quiet (cs : List Nat) (s : State) : QuietQueues s (s.releaseCores cs) := by
  induction cs generalizing s with
  | nil => exact .refl s
  | cons c r ih => exact (QuietQueues.setCore fun _ => rfl).trans (ih _)

theorem State.dropWaiters_cores (s : State) (cs : List Nat) : (s.dropWaiters cs).cores = s.cores := by
  have chains : ∀ (es : Tab Event) (u : State), (es.foldl (fun u e =>
      let n := (e.2.chain.filter (Waiter.ofCores cs)).length
      if n = 0 then u
      else u.setTenant (e.1 / 65536) { u.tenant (e.1 / 65536) with chainRoom := (u.tenant (e.1 / 65536)).chainRoom + n }) u).cores
        = u.cores := by
    intro es
    induction es with
    | nil => exact fun _ => rfl
    | cons e r ih =>
      intro u
      rw [List.foldl_cons, ih]
      dsimp only
      split <;> rfl
  exact chains s.events s

theorem State.failTeam_quiet (s : State) (t cause : Nat) (ans : List Answer) : QuietQueues s (s.failTeam t cause ans) := by
  unfold State.failTeam
  dsimp only
  split
  · exact .refl s
  have hdrop := (State.releaseCores_quiet (s.teamAt t).cores s).trans
    (.of_cores (State.dropWaiters_cores _ (s.teamAt t).cores))
  refine hdrop.trans ?_
  generalize (s.releaseCores (s.teamAt t).cores).dropWaiters (s.teamAt t).cores = u
  split
  · refine QuietQueues.trans (.of_cores ?_) (State.signals_quiet _ _)
    rw [State.failTk_cores]
  · exact .of_cores rfl
  · exact .of_cores rfl

/-- The end of a task at the context rung leaves nothing pending where nothing was (R36, R199). -/
theorem State.contextRung_quiet (s : State) (t cause cls res : Nat) (ans : List Answer) :
    QuietQueues s (s.contextRung t cause cls res ans) := by
  unfold State.contextRung
  dsimp only
  split
  · exact .refl s
  split
  · split
    · exact .refl s
    · exact .of_cores (s.countOnly_cores _ _ _)
  · split
    · exact (s.failTeam_quiet t cause ans).trans (.of_cores rfl)
    · exact (QuietQueues.of_cores (s.countOnly_cores _ _ _)).trans ((State.failTeam_quiet _ t cause ans).trans (.of_cores rfl))

/-! ### `MTS` (R241) -/

/-- A context of the core put in place is no other effect than the context left. -/
theorem Ran.of_setCtx {s t : State} {k : Core} {v w : Ctx} {len : Nat} (h : Ran s t (k.setCtx s.ctx w) v len) : Ran s t k v len :=
  ⟨h.only, h.goes, h.core.trans (coreAfter_setCtx ..)⟩

section
variable {s : State} {r : Reg} {n : BitVec 17} (hx : OnCtl s)
include hx

/-- A write that is allowed goes on, and no cause enters after it where none is pending. -/
theorem exec_mts_ran (hr : Usable s [r]) {u : State} (hu : sysWrite s n.toNat (s.G r) = some u) (ho : OnlyCore s u)
    (hpc : u.cur.pc = s.cur.pc) (hl : u.cur.loops = s.cur.loops) (hrb : u.cur.rb = s.cur.rb) (hup : u.curCore.pend = []) :
    Completes (.mts r n) s (fun t => Ran s t u.curCore u.cur 2) := by
  obtain ⟨t, ht, hran⟩ := ran_of_ok ho hpc hl hrb 2
  have hafter (v : Ctx) : (coreAfter s u.curCore v 1).pend = [] := by
    rw [coreAfter]
    rcases hx with h | h <;> rw [h] <;> exact hup
  have henter : t.enter s.core = t := by
    refine State.enter_of_pend_nil ?_
    rw [← hran.only.core_eq]
    exact (congrArg Core.pend hran.core).trans (hafter _)
  refine ⟨t, ?_, hran⟩
  show execMts r n s = _
  rw [execMts, onControl_of hx, guardCtx_true, hu]
  simp only [guardHazard_pass hr, ht, henter]

/-- A write of the core alone. -/
theorem exec_mts_core (hr : Usable s [r]) {k : Core} (hk : sysWrite s n.toNat (s.G r) = some (s.setCurCore k))
    (hctx : k.ctxOf s.ctx = s.cur) (hkp : k.pend = []) : Completes (.mts r n) s (fun t => Ran s t k s.cur 2) := by
  have hcur : (s.setCurCore k).cur = s.cur := by
    rw [State.cur_eq, State.curCore_setCurCore]
    exact hctx
  have h := exec_mts_ran hx hr hk (.setCurCore s k) (by rw [hcur]) (by rw [hcur]) (by rw [hcur])
    (by rw [State.curCore_setCurCore]; exact hkp)
  rwa [hcur, State.curCore_setCurCore] at h

/-- A number that it may not write traps. -/
theorem exec_mts_traps (hp : s.curCore.pend = []) (hn : sysWrite s n.toNat (s.G r) = none) : exec (.mts r n) s = .next (s.takeTrap 2 2) := by
  have henter : (s.takeTrap 2 2).enter s.core = s.takeTrap 2 2 := by
    rcases hx with h | h
    · have hctl : s.ctx ≠ .biv := by rw [h]; decide
      rw [State.takeTrap]
      by_cases hready : s.drained s.core s.ctx = true ∧ s.curCore.biv.run ≠ .running
      · rw [takeTrapAt_enters hctl (by decide) hready.1 hready.2 hp]
        exact State.enter_of_pend_nil (congrArg Core.pend (s.coreAt_setCore_self _ _))
      · have hwait : s.drained s.core s.ctx = false ∨ s.curCore.biv.run = .running := by
          by_cases hd : s.drained s.core s.ctx = true
          · exact .inr (not_not.1 fun hb => hready ⟨hd, hb⟩)
          · exact .inl (Bool.eq_false_iff.2 hd)
        rw [takeTrapAt_waits hctl (by decide) hp hwait, ← takeTrapAt_queued hctl hp, takeTrapAt_waits hctl (by decide) hp hwait]
    · rw [State.takeTrap, takeTrapAt_biv h]
      exact State.enter_of_pend_nil (s.contextRung_quiet _ _ _ _ _ _ hp)
  show execMts r n s = _
  rw [execMts, onControl_of hx, guardCtx_true, hn]
  simp only [finish, henter]

end

theorem sysWrite_none {s : State} {n : Nat} {v : Word} (h : n = 1 ∨ n = 3 ∨ n = 9 ∨ n = 0xA ∨ 0xC ≤ n) : sysWrite s n v = none := by
  rcases h with rfl | rfl | rfl | rfl | h
  · rfl
  · rfl
  · rfl
  · rfl
  · obtain ⟨m, rfl⟩ : ∃ m, n = m + 0xC := ⟨n - 0xC, by omega⟩
    rfl

/-- Settles O17: what each number lets `MTS` write, and the numbers that name nothing it may write. -/
theorem specialRegisterWrites : Obligations.SpecialRegisterWrites := by
  unfold Obligations.SpecialRegisterWrites
  intro r n s hx hr hp k v writes frame
  have framed (n : BitVec 17) (f : Frame)
      (h : sysWrite s n.toNat v = if s.ctx = .biv then some (s.setCurCore { k with frame := f }) else none) : frame n f :=
    ⟨fun hb => exec_mts_core hx hr (h.trans (if_pos hb)) (by rw [hb, State.cur_eq, hb]; rfl) hp,
      fun hc => exec_mts_traps hx hp (h.trans (by rw [hc]; rfl))⟩
  refine ⟨?status, ?hint, framed 2 _ rfl, framed 4 _ rfl, framed 5 _ rfl, framed 6 _ rfl, framed 7 _ rfl, framed 8 _ rfl,
    fun hn => exec_mts_traps hx hp (sysWrite_none ?_)⟩
  case status =>
    refine exec_mts_core hx hr (congrArg (fun k => some (s.setCurCore k)) ?_) (by cases h : s.ctx <;> rw [State.cur_eq, h] <;> rfl) hp
    simp only [bitAt_eq_getLsbD]
    rfl
  case hint =>
    obtain ⟨t, ht, hran⟩ := exec_mts_ran hx hr (n := 0xB) (u := s.setCur { s.cur with hintDrop := v }) rfl (.setCur s _)
      (by rw [State.cur_setCur]) (by rw [State.cur_setCur]) (by rw [State.cur_setCur])
      (by rw [State.curCore_setCur, Core.setCtx_pend]; exact hp)
    rw [State.curCore_setCur, State.cur_setCur] at hran
    exact ⟨t, ht, hran.of_setCtx⟩
  rcases hn with rfl | rfl | rfl | rfl | hn
  · exact .inl rfl
  · exact .inr (.inl rfl)
  · exact .inr (.inr (.inl rfl))
  · exact .inr (.inr (.inr (.inl rfl)))
  · exact .inr (.inr (.inr (.inr hn)))

end Sys2Proof.Machine
end

section
/-! SUPPORT. Scratchpad accesses at issue: scalar and matrix accesses, then queue transfers and the expander (R31, R34, R40, R247 to R252). -/

namespace Sys2Proof.Machine

/-! ### Scalar accesses (R249) -/

/-- The operation a scalar access of `size` bytes issues. -/
def accessOp (store : Bool) (code size : Nat) (f : LF) (s : State) : Op :=
  let a := scaledAddr (s.G f.y) f.z size
  { code := code, f := f, x := if store then s.G f.x else 0, y := a, dst := if store then none else some f.x.toNat,
    scope := windowScope a f.t.scope }

section
variable {s : State} {f : LF} {store : Bool} {code size : Nat} (hx : (s.ctx == if store then .st else .ld) = true)
  (hu : Usable s [f.x, f.y])
include hx hu

/-- A scalar access after its checks. -/
theorem scalarAccess_eq : scalarAccess store code size f s = finish 3 1 s
    (match s.scratch s.core (scaledAddr (s.G f.y) f.z size).toNat size with
      | none => .trap 7 (scaledAddr (s.G f.y) f.z size)
      | some _ => s.issueOp (accessOp store code size f s)) := by
  rw [scalarAccess, ordering_pass hx (rs := [(f.x, 0), (f.y, 1)]) hu noFields]
  simp only [scratchScope_eq]
  rfl

/-- It issues, waits for its stream, or traps for its address. -/
theorem scalarAccess_acts {i : Instr} (hi : exec i s = scalarAccess store code size f s) :
    (InWindow s (scaledAddr (s.G f.y) f.z size).toNat size → StreamRoom s f →
      Completes i s (fun t => Issued s t (accessOp store code size f s))) ∧
    (InWindow s (scaledAddr (s.G f.y) f.z size).toNat size → ¬ StreamRoom s f → exec i s = .next s) ∧
    (¬ InWindow s (scaledAddr (s.G f.y) f.z size).toNat size →
      exec i s = .next (s.takeTrap 7 (scaledAddr (s.G f.y) f.z size))) := by
  have hcmp : s.ctx ≠ .cmp := by
    rw [beq_iff_eq.1 hx]
    cases store <;> decide
  rw [scalarAccess_eq hx hu] at hi
  refine ⟨fun hw hroom => completes_issued ?_, fun hw hroom => ?_, fun hw => ?_⟩
  · obtain ⟨l, hl⟩ := scratch_some hw
    rw [hi, hl, issueOp_room hroom _ rfl]
  · obtain ⟨l, hl⟩ := scratch_some hw
    rw [hi, hl, issueOp_full hroom _ rfl, finish, freeze_of_ne_cmp hcmp]
  · rw [hi, scratch_none hw]
    rfl

end

/-! ### Matrix accesses (R252) -/

/-- The operation a matrix access issues, with the record's address and the displacement as they are then. -/
def shapeOp (code : Nat) (f : LF) (s : State) : Op :=
  { code := code, f := f, x := s.G (zReg f 4), y := s.G f.y, scope := f.t.scope.toNat }

section
variable {s : State} {f : LF} {code : Nat} {x : CtxId} (hx : s.ctx = x) (hu : Usable s [f.y, f.z.extractLsb' 4 5])
include hx hu

theorem shapeIssue_eq : shapeIssue code x f s = finish 3 1 s
    (if code = 0x18 then s.issueHold (shapeOp code f s) true
     else match groupFail (s.teamOf s.core).malloc (matReg f) (matGroup f) with
      | some r => .trap 3 (BitVec.ofNat 64 r)
      | none => s.issueHold (shapeOp code f s) true) :=
  ordering_pass (beq_iff_eq.2 hx) (rs := [(f.y, 1), (zReg f 4, 2)]) (by rw [← zReg_eq] at hu; exact hu) noFields ..

/-- It holds the issue of its context, which stays at it. -/
theorem shapeIssue_holds {i : Instr} (hi : exec i s = shapeIssue code x f s) (hroom : StreamRoom s f) (hpast : PastBody s s.pc)
    (hg : code = 0x18 ∨ groupFail (s.teamOf s.core).malloc (matReg f) (matGroup f) = none) :
    Completes i s (fun t => IssuedHolding s t (shapeOp code f s)) := by
  obtain ⟨t, ht, hplaced, -⟩ := placed s { joined s (shapeOp code f s) with hold := some s.cur.nextOp } s.pc s.cur.loops rfl
    hpast 3 1
  have hhold : s.issueHold (shapeOp code f s) true =
      .go (s.setCur { joined s (shapeOp code f s) with hold := some s.cur.nextOp }) := issueHold_room hroom _ rfl true
  refine ⟨t, ?_, hplaced⟩
  rw [hi, shapeIssue_eq hx hu, ← ht]
  rcases hg with hg | hg
  · rw [if_pos hg, hhold]
    rfl
  · rw [hg]
    split <;> rw [hhold] <;> rfl

/-- A group that is misaligned traps for its first register. -/
theorem shapeIssue_misaligned {i : Instr} (hi : exec i s = shapeIssue code x f s) (hcode : code ≠ 0x18)
    (hg : matReg f % matGroup f ≠ 0) : exec i s = .next (s.takeTrap 3 (BitVec.ofNat 64 (matReg f))) := by
  rw [hi, shapeIssue_eq hx hu, if_neg hcode, groupFail, if_pos hg]
  rfl

end

/-- An aligned group within the sixteen registers and the allocation passes. -/
theorem groupFail_none {malloc first size : Nat} (ha : first % size = 0) (h16 : first + size ≤ 16) (hm : first + size ≤ malloc) :
    groupFail malloc first size = none := by
  rw [groupFail, if_neg (not_not.2 ha), if_neg (by omega)]

/-- Settles O32: each access is one of the two forms above. -/
theorem scratchpadIssues : Obligations.ScratchpadIssues := by
  unfold Obligations.ScratchpadIssues
  refine ⟨fun f s hu => ?scalar, fun f s hu hroom hpast => ?matrix⟩
  case scalar =>
    intro addr scope acts loads stores
    refine ⟨fun hx => ?_, fun hx => ?_⟩
    · have here : (s.ctx == if false = true then .st else .ld) = true := by rw [hx]; rfl
      exact ⟨scalarAccess_acts here hu rfl, scalarAccess_acts here hu rfl, scalarAccess_acts here hu rfl, scalarAccess_acts here hu rfl,
        scalarAccess_acts here hu rfl, scalarAccess_acts here hu rfl, scalarAccess_acts here hu rfl⟩
    · have here : (s.ctx == if true = true then .st else .ld) = true := by rw [hx]; rfl
      exact ⟨scalarAccess_acts here hu rfl, scalarAccess_acts here hu rfl, scalarAccess_acts here hu rfl, scalarAccess_acts here hu rfl⟩
  case matrix =>
    intro d g o fits
    have hd : matReg f = d := field_eq_extract f.x 1 4
    have hg : matGroup f = g := congrArg (2 ^ ·) (field_eq_extract f.z 2 2)
    have ho (code : Nat) : shapeOp code f s = o code := by rw [shapeOp, zReg_eq]
    have passes (h : fits) : groupFail (s.teamOf s.core).malloc (matReg f) (matGroup f) = none := by
      rw [hd, hg]
      exact groupFail_none h.1 h.2.1 h.2.2
    have misaligned (h : d % g ≠ 0) : matReg f % matGroup f ≠ 0 := by rwa [hd, hg]
    refine ⟨fun hx h => ?_, fun hx h => ?_, fun hx => ?_, fun hx h => ?_, fun hx h => ?_⟩
    · rw [← ho]
      exact shapeIssue_holds hx hu rfl hroom hpast (.inr (passes h))
    · rw [← ho]
      exact shapeIssue_holds hx hu rfl hroom hpast (.inr (passes h))
    · rw [← ho]
      exact shapeIssue_holds hx hu rfl hroom hpast (.inl rfl)
    · rw [← hd]
      exact shapeIssue_misaligned (code := 0x16) hx hu rfl (by decide) (misaligned h)
    · rw [← hd]
      exact shapeIssue_misaligned (code := 0x17) hx hu rfl (by decide) (misaligned h)


/-! ### Queue transfers (R250) -/

/-- Chunk `j` of a transfer from a base, a stride apart. -/
def chunkAt (b d : Word) (j : Nat) : Word := b + d * BitVec.ofNat 64 j

/-- Chunk `j` is a multiple of 32 in a window. -/
def ChunkGood (s : State) (b d : Word) (j : Nat) : Prop := (chunkAt b d j).toNat % 32 = 0 ∧ InWindow s (chunkAt b d j).toNat 32

/-- The test of `badChunk` fails exactly the chunks that are not good. -/
theorem chunk_test (s : State) (b d : Word) (j : Nat) :
    ((chunkAt b d j).toNat % 32 != 0 || (s.scratch s.core (chunkAt b d j).toNat 32).isNone) = true ↔ ¬ ChunkGood s b d j := by
  rw [ChunkGood, ← scratch_isSome]
  cases s.scratch s.core (chunkAt b d j).toNat 32 <;> simp

theorem badChunk_none {s : State} {b d : Word} (h : ∀ j, j < 8 → ChunkGood s b d j) :
    badChunk s s.core (chunkAddrs b d) = none := by
  refine List.find?_eq_none.2 fun a ha => ?_
  obtain ⟨j, hj, rfl⟩ := List.mem_map.1 ha
  exact fun bad => (chunk_test s b d j).1 bad (h j (List.mem_range.1 hj))

theorem badChunk_some {s : State} {b d : Word} {j : Nat} (hj : j < 8) (before : ∀ n, n < j → ChunkGood s b d n)
    (bad : ¬ ChunkGood s b d j) : badChunk s s.core (chunkAddrs b d) = some (chunkAt b d j).toNat := by
  have first : (List.range 8).find? ((fun a => a % 32 != 0 || (s.scratch s.core a 32).isNone) ∘ fun n => (chunkAt b d n).toNat)
      = some j := by
    refine List.find?_range_eq_some.2 ⟨(chunk_test s b d j).2 bad, List.mem_range.2 hj, fun n hn => ?_⟩
    rw [Bool.not_eq_true']
    exact Bool.eq_false_iff.2 fun h => (chunk_test s b d n).1 h (before n hn)
  exact List.find?_map.trans (congrArg (Option.map fun n => (chunkAt b d n).toNat) first)

/-- The scope of a transfer. -/
theorem chunkScope_eq (b d : Word) (c : BitVec 2) : chunkScope (chunkAddrs b d) c.toNat =
    if (List.range 8).any (fun j => decide (0x10000000 ≤ (chunkAt b d j).toNat)) = true ∧ c = 0 then 1 else c.toNat := by
  have zero : c.toNat = 0 ↔ c = 0 := by simp [BitVec.toNat_eq]
  simp only [chunkScope, chunkAddrs, List.any_map, zero]
  rfl

/-- The operation a queue transfer issues, but for what it takes from its queue. -/
def chunkOp (code : Nat) (f : LF) (b d : Word) : Op :=
  { code := code, f := f, y := b, z := d, scope := chunkScope (chunkAddrs b d) f.t.scope.toNat }

section
variable {s : State} {i : Instr} {code : Nat} {f : LF} {b d : Word}

/-- The first chunk that fails traps. -/
theorem queueIssue_fails {store : Bool} (hi : exec i s = finish 3 1 s (queueIssue store code f b d s)) {j : Nat} (hj : j < 8)
    (before : ∀ n, n < j → ChunkGood s b d n) (bad : ¬ ChunkGood s b d j) : exec i s = .next (s.takeTrap 7 (chunkAt b d j)) := by
  rw [hi, queueIssue, badChunk_some hj before bad]
  simp only [finish, BitVec.ofNat_toNat, BitVec.setWidth_eq]

/-- A load form with room in its stream and its queue. -/
theorem queueIssue_loads (hi : exec i s = finish 3 1 s (queueIssue false code f b d s)) (good : ∀ j, j < 8 → ChunkGood s b d j)
    (hroom : StreamRoom s f) (hq : (s.curCore.loadQ f.x.toNat).length < 8) :
    Completes i s (fun t => IssuedIn s t (s.curCore.reserveLoad f.x.toNat)
      { chunkOp code f b d with tag := s.curCore.nextTag }) := by
  have hk : (s.curCore.reserveLoad f.x.toNat).ctxOf s.ctx = s.cur := rfl
  refine completes_issuedIn hk ?_
  rw [hi, queueIssue, badChunk_none good]
  simp only [streamFull_false hroom, Bool.false_eq_true, if_false, if_neg (Nat.not_le.2 hq : ¬ queueDepth ≤ _)]
  rw [issueOp_in hroom hk _ rfl]
  rfl

/-- A load form without. -/
theorem queueIssue_loads_waits (hcmp : s.ctx ≠ .cmp) (hi : exec i s = finish 3 1 s (queueIssue false code f b d s))
    (good : ∀ j, j < 8 → ChunkGood s b d j) (h : ¬ StreamRoom s f ∨ 8 ≤ (s.curCore.loadQ f.x.toNat).length) :
    exec i s = .next s := by
  have waits : queueIssue false code f b d s = .wait := by
    rw [queueIssue, badChunk_none good]
    by_cases hroom : StreamRoom s f
    · simp only [streamFull_false hroom, Bool.false_eq_true, if_false]
      exact if_pos (h.resolve_left (not_not.2 hroom))
    · exact if_pos (streamFull_true hroom)
  rw [hi, waits, finish, freeze_of_ne_cmp hcmp]

/-- A store form with room in its stream and a filled entry at the head of its queue. -/
theorem queueIssue_stores (hi : exec i s = finish 3 1 s (queueIssue true code f b d s)) {tag : Nat} {bs : List Byte} {r : List QEntry}
    (good : ∀ j, j < 8 → ChunkGood s b d j) (hroom : StreamRoom s f) (hq : s.curCore.storeQ f.x.toNat = ⟨tag, some bs⟩ :: r) :
    Completes i s (fun t => IssuedIn s t (s.curCore.setStoreQ f.x.toNat r) { chunkOp code f b d with data := bs }) := by
  have hk : (s.curCore.setStoreQ f.x.toNat r).ctxOf s.ctx = s.cur := rfl
  refine completes_issuedIn hk ?_
  rw [hi, queueIssue, badChunk_none good]
  simp only [streamFull_false hroom, Bool.false_eq_true, if_false, if_true, hq]
  rw [issueOp_in hroom hk _ rfl]
  rfl

/-- A store form without. -/
theorem queueIssue_stores_waits (hcmp : s.ctx ≠ .cmp) (hi : exec i s = finish 3 1 s (queueIssue true code f b d s))
    (good : ∀ j, j < 8 → ChunkGood s b d j) (h : ¬ StreamRoom s f ∨ s.curCore.storeQ f.x.toNat = [] ∨
      ∃ tag r, s.curCore.storeQ f.x.toNat = ⟨tag, none⟩ :: r) : exec i s = .next s := by
  have waits : queueIssue true code f b d s = .wait := by
    rw [queueIssue, badChunk_none good]
    by_cases hroom : StreamRoom s f
    · simp only [streamFull_false hroom, Bool.false_eq_true, if_false, if_true]
      rcases h.resolve_left (not_not.2 hroom) with hq | ⟨tag, r, hq⟩ <;> rw [hq]
    · exact if_pos (streamFull_true hroom)
  rw [hi, waits, finish, freeze_of_ne_cmp hcmp]

end

/-! ### The expander (R251) -/

/-- The first byte `LDX` reads from an address and an index register. -/
def ldxFirst (s : State) (f : LF) : Nat := ((s.G f.y).toNat + 3 * (s.G (f.z.extractLsb' 5 5)).toNat / 8) % 2 ^ 64

/-- The number of bytes it reads. -/
def ldxBytes (s : State) (f : LF) : Nat :=
  (3 * (s.G (f.z.extractLsb' 5 5)).toNat + 191) / 8 - 3 * (s.G (f.z.extractLsb' 5 5)).toNat / 8 + 1

/-- The scope of a scratchpad access from its address. -/
theorem scratchScope_first (a : Nat) (c : BitVec 2) :
    scratchScope a c.toNat = if 0x10000000 ≤ a ∧ c = 0 then 1 else c.toNat := by
  have zero : c.toNat = 0 ↔ c = 0 := by simp [BitVec.toNat_eq]
  simp only [scratchScope, isPeer, decide_eq_true_eq, zero]

theorem ldx_issues {s : State} {f : LF} (hx : s.ctx = .ld) (hq3 : f.x.toNat ≤ 3) (hu : Usable s [f.y, f.z.extractLsb' 5 5])
    (hw : InWindow s (ldxFirst s f) (ldxBytes s f)) (hroom : StreamRoom s f) (hq : (s.curCore.loadQ f.x.toNat).length < 8)
    (tables : ∀ o ∈ s.cur.ops, o.code = 0x15 → o.st = .done) :
    Completes (.ldx f) s (fun t => IssuedIn s t (s.curCore.reserveLoad f.x.toNat)
      { code := 0x14, f := f, y := s.G f.y, z := s.G (f.z.extractLsb' 5 5), tag := s.curCore.nextTag, data := s.curCore.table,
        scope := if 0x10000000 ≤ ldxFirst s f ∧ f.t.scope = 0 then 1 else f.t.scope.toNat }) := by
  have hk : (s.curCore.reserveLoad f.x.toNat).ctxOf s.ctx = s.cur := rfl
  have noTable : s.cur.ops.any (fun o => o.code == 0x15 && o.st != .done) = false := by
    refine List.any_eq_false.2 fun o ho => ?_
    simpa using tables o ho
  obtain ⟨l, hl⟩ := scratch_some hw
  have first : (ldxSpan (s.G f.y).toNat (s.G (f.z.extractLsb' 5 5)).toNat).1 = ldxFirst s f := rfl
  have bytes : (ldxSpan (s.G f.y).toNat (s.G (f.z.extractLsb' 5 5)).toNat).2 = ldxBytes s f := rfl
  refine completes_issuedIn hk (?_ : execLdx f s = _)
  rw [execLdx, ordering_pass (beq_iff_eq.2 hx) (rs := [(f.y, 1), (zReg f 5, 2)]) (by rw [zReg_eq]; exact hu) (oneField (queue_le hq3))]
  simp only [zReg_eq, first, bytes, hl, noTable, streamFull_false hroom, decide_eq_false (Nat.not_le.2 hq : ¬ queueDepth ≤ _),
    Bool.or_self, Bool.false_eq_true, if_false, scratchScope_first]
  rw [issueOp_in hroom hk _ rfl]

theorem ldtab_issues {s : State} {f : LF} (hx : s.ctx = .ld) (hu : Usable s [f.y])
    (hw : InWindow s (s.G f.y + f.z.signExtend 64 * 16).toNat 16) (hroom : StreamRoom s f) :
    Completes (.ldtab f) s (fun t => Issued s t
      { code := 0x15, f := f, y := s.G f.y + f.z.signExtend 64 * 16, scope := windowScope (s.G f.y + f.z.signExtend 64 * 16) f.t.scope }) := by
  obtain ⟨l, hl⟩ := scratch_some hw
  have addr : scaledAddr (s.G f.y) f.z 16 = s.G f.y + f.z.signExtend 64 * 16 := rfl
  refine completes_issued (?_ : execLdtab f s = _)
  rw [execLdtab, ordering_pass (beq_iff_eq.2 hx) (rs := [(f.y, 1)]) hu noFields]
  simp only [addr, hl, scratchScope_eq]
  rw [issueOp_room hroom _ rfl]

/-- Settles O31: each form after its checks is `queueIssue` with its base and stride, or the expander's own. -/
theorem queueTransfers : Obligations.QueueTransfers := by
  unfold Obligations.QueueTransfers
  intro f s hu k q sums stride chunk good scope reserved both fails loads stores table first bytes
  have scope_eq (b d : Word) : chunkScope (chunkAddrs b d) f.t.scope.toNat = scope b d := chunkScope_eq b d f.t.scope
  have asLoads {i : Instr} {code : Nat} {b d : Word} (hx : s.ctx = .ld)
      (hi : exec i s = finish 3 1 s (queueIssue false code f b d s)) : loads i code b d := by
    refine ⟨fun j => queueIssue_fails hi, fun good hroom hq => ?_, fun good => queueIssue_loads_waits (by rw [hx]; decide) hi good⟩
    rw [← scope_eq]
    exact queueIssue_loads hi good hroom hq
  have asStores {i : Instr} {code : Nat} {b d : Word} (hx : s.ctx = .st)
      (hi : exec i s = finish 3 1 s (queueIssue true code f b d s)) : stores i code b d := by
    refine ⟨fun j => queueIssue_fails hi, fun tag bs r good hroom hq => ?_,
      fun good => queueIssue_stores_waits (by rw [hx]; decide) hi good⟩
    rw [← scope_eq]
    exact queueIssue_stores hi good hroom hq
  have two (h : both) : Usable s [f.y, zReg f 5] := by
    rw [zReg_eq]
    exact h
  have stride_eq : s.G (zReg f 5) = stride := by rw [zReg_eq]
  refine ⟨fun hx hq => ⟨?ldq, fun h => ?ldqs, fun h => ldx_issues hx hq h⟩, fun hx => ldtab_issues hx hu,
    fun hx hq => ⟨?stq, fun h => ?stqs⟩, fun hx hq => ?badLoad, fun hx hq => ?badStore⟩
  case ldq => exact asLoads hx (ordering_pass (beq_iff_eq.2 hx) (rs := [(f.y, 1)]) hu (oneField (queue_le hq)) ..)
  case ldqs =>
    rw [← stride_eq]
    exact asLoads hx (ordering_pass (beq_iff_eq.2 hx) (rs := [(f.y, 1), (zReg f 5, 2)]) (two h) (oneField (queue_le hq)) ..)
  case stq => exact asStores hx (ordering_pass (beq_iff_eq.2 hx) (rs := [(f.y, 1)]) hu (oneField (queue_le hq)) ..)
  case stqs =>
    rw [← stride_eq]
    exact asStores hx (ordering_pass (beq_iff_eq.2 hx) (rs := [(f.y, 1), (zReg f 5, 2)]) (two h) (oneField (queue_le hq)) ..)
  case badLoad =>
    have bad : firstField [(0, decide (3 < f.x.toNat))] = some 0 := by simp [firstField, Nat.lt_of_succ_le hq]
    exact ⟨ordering_field (beq_iff_eq.2 hx) bad, ordering_field (beq_iff_eq.2 hx) bad, ordering_field (beq_iff_eq.2 hx) bad⟩
  case badStore =>
    have bad : firstField [(0, decide (1 < f.x.toNat))] = some 0 := by simp [firstField, Nat.lt_of_succ_le hq]
    exact ⟨ordering_field (beq_iff_eq.2 hx) bad, ordering_field (beq_iff_eq.2 hx) bad⟩

end Sys2Proof.Machine
end

section
/-! SUPPORT. What one landing writes, and what the checks of a matrix drain do (R28, R30, R73, R111, R112). -/

namespace Sys2Proof.Machine

/-! ### The writes of a landing -/

/-- A table filtered by its keys. -/
theorem Tab.get_filter {α : Type} (d : α) (test : Nat → Bool) (m : Tab α) (x : Nat) :
    Tab.get d (m.filter (fun e => test e.1)) x = if test x = true then m.get d x else d := by
  induction m with
  | nil => simp
  | cons e r ih =>
    obtain ⟨k, v⟩ := e
    rw [List.filter_cons]
    by_cases hx : x = k
    · subst hx
      by_cases ht : test x = true
      · simp [ht, Tab.get]
      · simp [ht, ih]
    · by_cases ht : test k = true
      · simp [ht, Tab.get, hx, ih]
      · simp [ht, Tab.get, hx, ih]

/-- Two cells of the vector file are one cell only if register and lane agree. -/
theorem laneCell_inj {n r i j : Nat} (hi : i < 64) (hj : j < 64) (h : 64 * n + i = 64 * r + j) : (n, i) = (r, j) := by
  rw [Prod.mk.injEq]
  omega

/-- The matrix register of an element's key. -/
theorem elemKey_reg {n i j : Nat} (hi : i < 64) (hj : j < 64) : elemKey n i j / 4096 = n := by
  unfold elemKey
  omega

section
variable (k : Core) (r : Nat)

/-- One lane is written, and no other. -/
theorem applyWrite_vec {lane : Nat × Lane} (hl : lane.1 < 64) :
    (k.applyWrite (.vec r [lane])).lane r lane.1 = lane.2 ∧
    ∀ n i, i < 64 → (n, i) ≠ (r, lane.1) → (k.applyWrite (.vec r [lane])).lane n i = k.lane n i :=
  ⟨Tab.get_set_self 0 k.v _ _, fun _ _ hi hne => Tab.get_set_ne 0 k.v _ fun h => hne (laneCell_inj hi hl h)⟩

/-- The masked bits of a predicate are written, and `p0` never. -/
theorem applyWrite_pred (mask val : Word) :
    (r ≠ 0 → (k.applyWrite (.pred r mask val)).pred r = (k.pred r &&& ~~~mask) ||| (val &&& mask)) ∧
    (k.applyWrite (.pred r mask val)).pred 0 = BitVec.allOnes 64 ∧
    ∀ n, n ≠ r → (k.applyWrite (.pred r mask val)).pred n = k.pred n := by
  refine ⟨fun hr => ?_, rfl, fun n hn => ?_⟩
  · exact (Core.pred_setPred ..).trans (if_pos ⟨rfl, hr⟩)
  · exact (Core.pred_setPred ..).trans (if_neg fun h => hn h.1)

/-- A reserved entry is filled, in its own queue alone. -/
theorem applyWrite_store (tag : Nat) (bs : List Byte) :
    (k.applyWrite (.store r tag bs)).storeQ r = (k.storeQ r).map (fun e => if e.tag = tag then { e with data := some bs } else e) ∧
    ∀ n, n ≠ r → (k.applyWrite (.store r tag bs)).storeQ n = k.storeQ n :=
  ⟨Tab.get_set_self [] k.sq _ _, fun _ hn => Tab.get_set_ne [] k.sq _ hn⟩

/-- One element is written, and no other. -/
theorem applyWrite_elems (cell : Nat × Lane) :
    (k.applyWrite (.elems [cell])).m.get 0 cell.1 = cell.2 ∧
    ∀ n, n ≠ cell.1 → (k.applyWrite (.elems [cell])).m.get 0 n = k.m.get 0 n :=
  ⟨Tab.get_set_self 0 k.m _ _, fun _ hn => Tab.get_set_ne 0 k.m _ hn⟩

/-- Status bits are added to one word, and no other. -/
theorem applyWrite_status (b : Lane) :
    (k.applyWrite (.status r b)).tstat.get 0 r = k.tstat.get 0 r ||| b ∧
    ∀ n, n ≠ r → (k.applyWrite (.status r b)).tstat.get 0 n = k.tstat.get 0 n :=
  ⟨Tab.get_set_self 0 k.tstat _ _, fun _ hn => Tab.get_set_ne 0 k.tstat _ hn⟩

/-- A register is cleared with its status word, and no other. -/
theorem applyWrite_clear :
    (∀ i j, i < 64 → j < 64 → (k.applyWrite (.clear r)).elem r i j = 0) ∧ (k.applyWrite (.clear r)).tstat.get 0 r = 0 ∧
    ∀ n i j, i < 64 → j < 64 → n ≠ r →
      (k.applyWrite (.clear r)).elem n i j = k.elem n i j ∧ (k.applyWrite (.clear r)).tstat.get 0 n = k.tstat.get 0 n := by
  have elem_eq (n i j : Nat) (hi : i < 64) (hj : j < 64) :
      (k.applyWrite (.clear r)).elem n i j = if (n != r) = true then k.elem n i j else 0 := by
    refine (Tab.get_filter 0 (fun x => x / 4096 != r) k.m (elemKey n i j)).trans ?_
    rw [elemKey_reg hi hj]
    rfl
  refine ⟨fun i j hi hj => ?_, Tab.get_set_self 0 k.tstat _ _, fun n i j hi hj hn => ⟨?_, Tab.get_set_ne 0 k.tstat _ hn⟩⟩
  · rw [elem_eq r i j hi hj, if_neg (by simp)]
  · rw [elem_eq n i j hi hj, if_pos (bne_iff_ne.2 hn)]

end

/-! ### A drain that failed twice -/

/-- The writes of status bits `b` to registers. -/
def bitWrites (b : Lane) (rs : List Nat) : List LWrite := rs.map (fun r => .status r b)

/-- Status writes leave every element alone. -/
theorem applyWrites_status_m (b : Lane) (rs : List Nat) (k : Core) : (k.applyWrites (bitWrites b rs)).m = k.m := by
  induction rs generalizing k with
  | nil => rfl
  | cons r rs ih => exact ih _

/-- A status bit that is set stays set. -/
theorem applyWrites_status_keeps (b : Lane) (rs : List Nat) {k : Core} {r n : Nat} (h : (k.tstat.get 0 r).getLsbD n = true) :
    ((k.applyWrites (bitWrites b rs)).tstat.get 0 r).getLsbD n = true := by
  induction rs generalizing k with
  | nil => exact h
  | cons q rs ih =>
    refine ih ?_
    rw [Core.applyWrite, Tab.get_set]
    split
    · next hq => rw [BitVec.getLsbD_or, ← hq, h, Bool.true_or]
    · exact h

/-- Every bit of `b` is set in every register written. -/
theorem applyWrites_status_sets {b : Lane} {n : Nat} (hb : b.getLsbD n = true) {rs : List Nat} (k : Core) {r : Nat} (h : r ∈ rs) :
    ((k.applyWrites (bitWrites b rs)).tstat.get 0 r).getLsbD n = true := by
  induction rs generalizing k with
  | nil => exact absurd h List.not_mem_nil
  | cons q rs ih =>
    rcases List.mem_cons.1 h with rfl | h
    · refine applyWrites_status_keeps b rs ?_
      rw [(applyWrite_status k r b).1, BitVec.getLsbD_or, hb, Bool.or_true]
    · exact ih _ h

/-- The registers of a drain's group. -/
def Landing.group_regs (l : Landing) : List Nat := (List.range l.group).map (l.acc + ·)

/-- A drain that failed twice lands as its CKFAIL bits and the fence (R112). -/
theorem land_failed (k : Core) {l : Landing} (hd : l.drain = true) : k.land { l with fails := 2 } =
    { k.applyWrites (bitWrites 0x40 l.group_regs) with fenced := true } := by
  have writes : ckWrites { l with fails := 2 } = bitWrites 0x40 l.group_regs := by
    rw [ckWrites, if_pos ⟨hd, two_ne_zero⟩, bitWrites, Landing.group_regs, List.map_map]
    rfl
  rw [Core.land, if_pos ⟨hd, Nat.le_refl 2⟩, writes]

/-! ### The checks of a drain -/

section
variable {c : Nat} {l : Landing} {s : State} (hf : (s.coreAt c).flight = [l])
include hf

/-- The one result in flight lands where the compute sequencer is interlocked or stopped. -/
theorem landFirst_one (hr : (s.coreAt c).cmp.run ≠ .running ∨ (s.coreAt c).cmp.exposed = false) {test : Landing → Bool}
    (ht : test l = true) : s.landFirst c test = s.setCore c (Core.land { s.coreAt c with flight := [], slot := max (s.coreAt c).slot l.due } l) := by
  have alone : (s.coreAt c).landsAlone = true := by simpa [Core.landsAlone] using hr
  have order : dueOrder (s.coreAt c).flight = [l] := by
    rw [hf]
    rfl
  have rest : (s.coreAt c).flight.erase l = [] := by rw [hf, List.erase_cons_head]
  simp only [State.landFirst, order, alone, ht, Bool.and_self, if_true, rest]

/-- A checked drain none of whose checks failed yet is the one a failure is of. -/
theorem find_checked (hc : l.checked = true) (h0 : l.fails = 0) :
    (s.coreAt c).flight.find? (fun l => l.checked && l.fails == 0) = some l := by
  rw [hf, List.find?_cons_of_pos]
  rw [hc, h0]
  rfl

/-- The first failure: the drain is run again, and counted. -/
theorem execMmaDrain_one (hc : l.checked = true) (h0 : l.fails = 0) : execMmaDrain c 1 s =
    .next ((s.setCore c { s.coreAt c with flight := [{ l with fails := 1 }] }).countError 6 0 0 (c / 64)
      (some (s.teamOf c).vf) c) := by
  simp only [execMmaDrain, Nat.one_ne_zero, if_false, find_checked hf hc h0, if_true]
  rw [hf, List.map_singleton, if_pos rfl]
  rfl

/-- The second failure: the drain lands as failed, and the engine rung acts. -/
theorem execMmaDrain_two (hc : l.checked = true) (h0 : l.fails = 0) : execMmaDrain c 2 s =
    .next ((s.setCore c (Core.land { s.coreAt c with flight := [] } { l with fails := 2 })).fenceRung c) := by
  have rest : (s.coreAt c).flight.erase l = [] := by rw [hf, List.erase_cons_head]
  simp only [execMmaDrain, find_checked hf hc h0, rest]
  rfl

/-- A drain with no checked group fails none. -/
theorem execMmaDrain_unchecked (hc : l.checked = false) {n : Nat} (hn : n ≠ 0) : execMmaDrain c n s = .next s := by
  have none : (s.coreAt c).flight.find? (fun l => l.checked && l.fails == 0) = none := by
    rw [hf, List.find?_cons_of_neg, List.find?_nil]
    rw [hc, Bool.false_and]
    decide
  simp only [execMmaDrain, if_neg hn, none]

end

/-- The engine rung of core `c`, its error counted, its task of team `t` ended with cause 0x03 (R112, R200). -/
def engineRung (s : State) (c t : Nat) : State :=
  let tm := s.teamAt t
  let p := s.countOnly 6 (c / 64) (some tm.vf)
  let u := p.1.failTeam t 3 []
  { u with rungs := u.rungs ++
    [⟨3, c, [c], s.time, 6, c / 64, some tm.vf, c, s.time, p.2, 2, [(tm.launch, tm.idx)], false⟩] }

/-- Where no rung stands, the engine rung starts. -/
theorem fenceRung_first {s : State} (c : Nat) (h : s.rungs = []) : s.fenceRung c = engineRung s c (s.coreAt c).team := by
  have free : s.rungOn (s.coreAt c).team [c] = false := by rw [State.rungOn, h, List.any_nil]
  rw [State.fenceRung]
  simp only [free, Bool.false_eq_true, if_false]
  rfl

/-- Settles O27: the writes one by one, then the one result in flight. -/
theorem resultsLand : Obligations.ResultsLand := by
  unfold Obligations.ResultsLand
  refine ⟨fun k r tag mask val b bs lane cell hl => ?writes, fun c l s => ?checks⟩
  case writes =>
    obtain ⟨masked, p0, others⟩ := applyWrite_pred k r mask val
    exact ⟨applyWrite_vec k r hl, masked, p0, others, applyWrite_store k r tag bs, applyWrite_elems k cell, applyWrite_status k r b,
      applyWrite_clear k r⟩
  case checks =>
    intro k hf
    refine ⟨fun hr => ⟨congrArg _ (landFirst_one hf hr rfl), fun hd => congrArg _ (landFirst_one hf hr hd)⟩,
      fun hd hc h0 => ⟨execMmaDrain_one hf hc h0, _, rfl, ?fenced, ?m, fun i hi => ?bit, execMmaDrain_two hf hc h0, fun hrungs => ?rung⟩,
      fun hc => ⟨execMmaDrain_unchecked hf hc Nat.one_ne_zero, execMmaDrain_unchecked hf hc two_ne_zero⟩⟩
    case fenced => rw [land_failed _ hd]
    case m =>
      rw [land_failed _ hd]
      exact applyWrites_status_m ..
    case bit =>
      rw [land_failed _ hd]
      exact applyWrites_status_sets (by decide) _ (List.mem_map.2 ⟨i, List.mem_range.2 hi, rfl⟩)
    case rung =>
      have team : (Core.land { k with flight := [] } { l with fails := 2 }).team = k.team := by
        rw [(Core.land_frame ..).rest]
      have first := fenceRung_first (s := s.setCore c (Core.land { k with flight := [] } { l with fails := 2 })) c hrungs
      rw [State.coreAt_setCore_self, team] at first
      exact (execMmaDrain_two hf hc h0).trans (congrArg _ first)

end Sys2Proof.Machine
end

section
/-! SUPPORT. How a token operation performs: what a performance leaves of its context, the queue or barrier it changes, and the end of its
timeout (R31, R33, R120, R161, R267, R305, R306). -/

namespace Sys2Proof.Machine

/-! ### What a performance leaves of its context -/

/-- The context with an operation put in the place of those of its number. -/
def Ctx.put (v : Ctx) (o : Op) : Ctx := { v with ops := v.ops.map (fun p => if p.id = o.id then o else p) }

/-- The register a performance writes, with its value. -/
def writtenReg (o : Op) : Option Word → Option (Nat × Word)
  | some w => o.dst.map (·, w)
  | none => none

/-- The context a performance leaves: its operations, what it has read, the hold on issue, and the register written apart, it is as
before, and the operation, where still listed, is performed. -/
structure Finished (v v' : Ctx) (o : Op) (d : Option (Nat × Word)) : Prop where
  rest  : { v' with ops := [], seen := [], hold := none, g := [] } = ({ v with ops := [], seen := [], hold := none, g := [] } : Ctx)
  value : ∀ n w, d = some (n, w) → n ≠ 0 → v'.reg n = w
  regs  : ∀ n, (∀ w, d ≠ some (n, w)) → v'.reg n = v.reg n
  st    : ∀ p ∈ v'.ops, p.id = o.id → p.st = .done

/-- Dropping operations keeps that. -/
theorem Finished.drop {v v' : Ctx} {o : Op} {d : Option (Nat × Word)} (h : Finished v v' o d) (keep : Op → Bool) :
    Finished v { v' with ops := v'.ops.filter keep } o d :=
  ⟨h.rest, h.value, h.regs, fun p hp => h.st p (List.mem_of_mem_filter hp)⟩

/-- The operation put first is put last. -/
theorem Finished.of_put {v v' : Ctx} {o : Op} {d : Option (Nat × Word)} (h : Finished (v.put o) v' o d) : Finished v v' o d :=
  ⟨h.rest, h.value, h.regs, h.st⟩

theorem Finished.performedOp {u : State} {c : Nat} {x : CtxId} {v' : Ctx} {o : Op} {d : Option (Nat × Word)}
    (h : Finished (u.ctxAt c x) v' o d) : PerformedOp u (u.setCtx c x v') c x o d := by
  have at_ : (u.setCtx c x v').ctxAt c x = v' := State.ctxAt_setCtx_self ..
  refine ⟨?_, ?_, ?_, ?_, ?_⟩ <;> rw [at_]
  · exact State.coreAt_setCore_self ..
  · exact h.rest
  · exact h.value
  · exact h.regs
  · exact h.st

theorem setOp_eq (s : State) (c : Nat) (x : CtxId) (o : Op) : s.setOp c x o = s.setCtx c x ((s.ctxAt c x).put o) := rfl

/-- An operation that is put is found, where one of its number was. -/
theorem find_put {v : Ctx} {o p : Op} (h : v.ops.find? (fun q => q.id == o.id) = some p) :
    (v.put o).ops.find? (fun q => q.id == o.id) = some o := by
  have same : ((fun q : Op => q.id == o.id) ∘ fun q => if q.id = o.id then o else q) = fun q => q.id == o.id := by
    funext q
    by_cases hq : q.id = o.id
    · simp [hq]
    · simp [hq]
  have here : p.id = o.id := beq_iff_eq.1 (List.find?_some (p := fun q : Op => q.id == o.id) h)
  rw [Ctx.put, List.find?_map, same, h, Option.map_some, if_pos here]

/-- An operation that is put stands for its number alone. -/
theorem eq_of_mem_put {v : Ctx} {o p : Op} (hp : p ∈ (v.put o).ops) (hid : p.id = o.id) : p = o := by
  obtain ⟨q, -, rfl⟩ := List.mem_map.1 hp
  by_cases hq : q.id = o.id
  · exact if_pos hq
  · rw [if_neg hq] at hid
    exact absurd hid hq

/-- An operation that has performed. -/
def Op.finish (o : Op) (took wrote : List Nat) : Op :=
  { o with st := .done, took := o.took ++ took, wrote := o.wrote ++ wrote, away := [], lines := [], got := [], left := [] }

/-- The context after operation `o` of it has performed. -/
def Ctx.finish (v : Ctx) (o : Op) (val : Option Word) (took wrote : List Nat) : Ctx :=
  let v1 := v.put (o.finish took wrote)
  let v2 := match o.dst, val with
    | some d, some w => v1.setReg d w
    | _, _ => v1
  { v2 with hold := if v2.hold = some o.id then none else v2.hold }

theorem finishOp_eq {s : State} {c : Nat} {x : CtxId} {o : Op} (h : s.opAt c x o.id = some o) (val : Option Word)
    (took wrote : List Nat) :
    s.finishOp c x o.id val took wrote = s.setCtx c x ((s.ctxAt c x).finish o val took wrote) := by
  unfold State.finishOp
  rw [h]
  simp only [setOp_eq, State.ctxAt_setCtx_self]
  simp only [State.setCtx, State.coreAt_setCore_self, Core.setCtx_setCtx, State.setCore_setCore]
  rfl

theorem finish_finished (v : Ctx) (o : Op) (val : Option Word) (took wrote : List Nat) :
    Finished v (v.finish o val took wrote) o (writtenReg o val) := by
  have put (p : Op) (hp : p ∈ (v.put (o.finish took wrote)).ops) (hid : p.id = o.id) : p.st = .done := by
    rw [eq_of_mem_put (o := o.finish took wrote) hp hid]
    rfl
  unfold Ctx.finish writtenReg
  cases hd : o.dst with
  | none =>
    refine ⟨rfl, fun n w h => ?_, fun n _ => rfl, put⟩
    cases val <;> simp at h
  | some d =>
    cases val with
    | none => exact ⟨rfl, fun n w h => by simp at h, fun n _ => rfl, put⟩
    | some w =>
      refine ⟨?_, fun n w' h hn => ?_, fun n h => ?_, fun p hp => put p ?_⟩
      · simp [Ctx.put]
      · obtain ⟨rfl, rfl⟩ : d = n ∧ w = w' := by simpa using h
        exact (Ctx.reg_setReg ..).trans (if_pos ⟨rfl, hn⟩)
      · refine (Ctx.reg_setReg ..).trans (if_neg fun hn => h w ?_)
        rw [hn.1]
        rfl
      · simpa using hp

/-! ### Performing and timing out, from the operation's condition -/

theorem OnlyCoreOf.refl (s : State) (c : Nat) : OnlyCoreOf s s c := ⟨rfl, fun _ _ => rfl⟩

theorem OnlyCoreOf.setCore {s u : State} {c : Nat} (h : OnlyCoreOf s u c) (k : Core) : OnlyCoreOf s (u.setCore c k) c := by
  refine ⟨?_, fun d hd => (State.coreAt_setCore_ne u k hd).trans (h.others d hd)⟩
  rw [h.rest]
  rfl

/-- The last of two puts of one context stands. -/
theorem setCtx_setCtx (s : State) (c : Nat) (x : CtxId) (v w : Ctx) : (s.setCtx c x v).setCtx c x w = s.setCtx c x w := by
  simp [State.setCtx]

/-- A sweep drops operations of one context. -/
theorem sweep_setCtx (s : State) (c : Nat) (x : CtxId) (v : Ctx) : (s.setCtx c x v).sweep c x =
    s.setCtx c x { v with ops := v.ops.filter (fun o => !(o.retired && o.st == .done && (s.setCtx c x v).performedAt c o 3)) } := by
  rw [State.sweep, State.ctxAt_setCtx_self, setCtx_setCtx]

/-- The codes of the token and barrier operations. -/
def tokenCodes : List Nat := [0x28, 0x29, 0x2A, 0x50, 0x51]

section
variable {c : Nat} {x : CtxId} {o : Op} {s : State}

/-- The predecessors of an operation that may perform are performed. -/
theorem mayPerform_of (h : MayPerform s c x o) : s.mayPerform c x o o.scope = true := by
  refine List.all_eq_true.2 fun y hy => ?_
  obtain ⟨hmem, hlt⟩ := List.mem_filter.1 hy
  by_cases hp : mustPrecede y o = true
  · rw [h.first y hmem (of_decide_eq_true hlt) (by simpa [mustPrecede, or_assoc] using hp), Bool.or_true]
  · rw [Bool.eq_false_iff.2 hp]
    rfl

/-- A token operation that may perform does what `performOp` says. -/
theorem exec_operationPerform (h : MayPerform s c x o) (hcode : o.code ∈ tokenCodes) (ch : Choice) :
    exec (.operationPerform c x o.id ch) s = (s.setOp c x o).settlePerf c x o (performOp (s.setOp c x o) c x o ch) := by
  have code : o.code = 0x28 ∨ o.code = 0x29 ∨ o.code = 0x2A ∨ o.code = 0x50 ∨ o.code = 0x51 := by
    simpa [tokenCodes] using hcode
  have engine : isEngine o.code = false := by
    rcases code with h | h | h | h | h <;> rw [h] <;> rfl
  have scope : performScope s c o = o.scope := by
    rcases code with h | h | h | h | h <;> simp [performScope, h]
  have checks : o.checks = false := by
    rcases code with h | h | h | h | h <;> simp [Op.checks, h]
  have order : s.inOrder c x o = true := by
    rw [State.inOrder, checks]
    exact mayPerform_of h
  have going : (o.st == .done) = false := beq_eq_false_iff_ne.2 h.fresh
  show execOperationPerform c x o.id ch s = _
  simp only [execOperationPerform, h.here, going, engine, h.clear, scope, order, checks, Bool.or_self, Bool.false_eq_true,
    if_false, Bool.not_true]

/-- What comes of a performance, where all else that changed is core `c` as `u` has it. -/
theorem performs_of_done {u : State} (hu : OnlyCoreOf s u c) (hx : u.ctxAt c x = s.ctxAt c x) (h : MayPerform s c x o)
    (hcode : o.code ∈ tokenCodes) {ch : Choice} {val : Option Word}
    (hp : performOp (s.setOp c x o) c x o ch = .done (u.setCtx c x ((s.ctxAt c x).put o)) val [] []) :
    ∃ t, exec (.operationPerform c x o.id ch) s = .next t ∧ OnlyCoreOf s t c ∧ PerformedOp u t c x o (writtenReg o val) := by
  have there : (u.setCtx c x ((s.ctxAt c x).put o)).opAt c x o.id = some o := by
    rw [State.opAt, State.ctxAt_setCtx_self]
    exact find_put h.here
  have done : Finished (u.ctxAt c x) (((s.ctxAt c x).put o).finish o val [] []) o (writtenReg o val) := by
    rw [hx]
    exact (finish_finished ..).of_put
  refine ⟨_, (exec_operationPerform h hcode ch).trans (by rw [hp]; rfl), ?_, ?_⟩ <;>
    rw [finishOp_eq there, State.ctxAt_setCtx_self, setCtx_setCtx, sweep_setCtx]
  · exact hu.setCore _
  · exact (done.drop _).performedOp

/-- A wait whose time is up and whose condition is not met. -/
theorem timesOut_of_ends (h : MayPerform s c x o) (hcode : o.code = 0x2A ∨ o.code = 0x51) (unmet : waitSatisfied s c o = false)
    {since : Nat} (hs : o.since = some since) (hend : since + 1000 * o.y.toNat ≤ s.time) :
    ∃ t, exec (.waitTimeout c x o.id) s = .next t ∧ OnlyCoreOf s t c ∧ PerformedOp s t c x o (writtenReg o (some 1)) := by
  have going : (o.st != .done) = true := bne_iff_ne.2 h.fresh
  have timed : (o.code == 0x2A || o.code == 0x51) = true := by simpa using hcode
  have waits : s.waits c x o = true := by rw [State.waits, timed, going, mayPerform_of h]; rfl
  refine ⟨s.finishOp c x o.id (some 1) [] [], ?_, ?_⟩
  · show execWaitTimeout c x o.id s = _
    simp only [execWaitTimeout, h.here, waits, unmet, hs, Bool.false_and, Bool.not_true, Bool.or_self, Bool.false_eq_true, if_false,
      if_pos hend]
  · rw [finishOp_eq h.here]
    exact ⟨(OnlyCoreOf.refl s c).setCore _, (finish_finished ..).performedOp⟩

end

/-! ### The token queues and barriers of a core -/

section
variable (s : State) (c : Nat) (x : CtxId) (v : Ctx)

theorem coreAt_setCtx : (s.setCtx c x v).coreAt c = (s.coreAt c).setCtx x v := State.coreAt_setCore_self ..

theorem tokens_setCtx (q : Nat) : ((s.setCtx c x v).coreAt c).tokens q = (s.coreAt c).tokens q := by
  rw [coreAt_setCtx]
  cases x <;> rfl

theorem abar_setCtx (q : Nat) : ((s.setCtx c x v).coreAt c).abar q = (s.coreAt c).abar q := by
  rw [coreAt_setCtx]
  cases x <;> rfl

theorem setTokens_setCtx (q : Nat) (t : TokenQ) : (s.setCtx c x v).setCore c (((s.setCtx c x v).coreAt c).setTokens q t) =
    (s.setCore c ((s.coreAt c).setTokens q t)).setCtx c x v := by
  have comm : ((s.coreAt c).setCtx x v).setTokens q t = ((s.coreAt c).setTokens q t).setCtx x v := by cases x <;> rfl
  simp only [State.setCtx, State.coreAt_setCore_self, State.setCore_setCore, comm]

theorem setAbar_setCtx (q : Nat) (b : ABar) : (s.setCtx c x v).setCore c (((s.setCtx c x v).coreAt c).setAbar q b) =
    (s.setCore c ((s.coreAt c).setAbar q b)).setCtx c x v := by
  have comm : ((s.coreAt c).setCtx x v).setAbar q b = ((s.coreAt c).setAbar q b).setCtx x v := by cases x <;> rfl
  simp only [State.setCtx, State.coreAt_setCore_self, State.setCore_setCore, comm]

theorem ctxAt_setTokens (q : Nat) (t : TokenQ) : (s.setCore c ((s.coreAt c).setTokens q t)).ctxAt c x = s.ctxAt c x := by
  rw [State.ctxAt, State.coreAt_setCore_self]
  cases x <;> rfl

theorem ctxAt_setAbar (q : Nat) (b : ABar) : (s.setCore c ((s.coreAt c).setAbar q b)).ctxAt c x = s.ctxAt c x := by
  rw [State.ctxAt, State.coreAt_setCore_self]
  cases x <;> rfl

end

/-! ### Each operation's condition -/

section
variable {c : Nat} {x : CtxId} {o : Op} {s : State}

/-- Queue and count of a `KSIG` or `KTAKE`. -/
theorem tokenArgs_plain (h : o.code ≠ 0x2A) : tokenArgs o = (o.f.x.toNat, (o.f.z.extractLsb' 0 6).toNat) := by
  rw [tokenArgs, if_neg h, field_eq_extract]

/-- Queue and count of a `KTAKET`. -/
theorem tokenArgs_timed (h : o.code = 0x2A) : tokenArgs o = ((o.f.z.extractLsb' 7 3).toNat, (o.f.z.extractLsb' 1 6).toNat) := by
  rw [tokenArgs, if_pos h, field_eq_extract, field_eq_extract]

/-- The queue a token operation names. -/
def namedQueue (s : State) (c : Nat) (o : Op) : TokenQ := (s.coreAt c).tokens (tokenArgs o).1

/-- The core after the named queue is put. -/
def withQueue (s : State) (c : Nat) (o : Op) (t : TokenQ) : State := s.setCore c ((s.coreAt c).setTokens (tokenArgs o).1 t)

/-- Tokens that are present are taken. -/
theorem performKtake_present (h : (tokenArgs o).2 ≤ (namedQueue s c o).count) : performKtake (s.setOp c x o) c o =
    .done ((withQueue s c o { namedQueue s c o with count := (namedQueue s c o).count - (tokenArgs o).2 }).setCtx c x
      ((s.ctxAt c x).put o)) (some 0) [] [] := by
  rw [setOp_eq, performKtake]
  simp only [tokens_setCtx, setTokens_setCtx]
  exact if_pos h

theorem performKtake_absent {u : State} (hu : (u.coreAt c).tokens (tokenArgs o).1 = namedQueue s c o)
    (h : (namedQueue s c o).count < (tokenArgs o).2) : performKtake u c o = .held u := by
  rw [performKtake]
  simp only [hu]
  exact if_neg (Nat.not_le.2 h)

/-- A push that fits, with none before it. -/
theorem performKsig_fits (hw : (namedQueue s c o).waiting = []) (h : (namedQueue s c o).count + (tokenArgs o).2 ≤ 63) :
    performKsig (s.setOp c x o) c x o =
      .done ((withQueue s c o ⟨(namedQueue s c o).count + (tokenArgs o).2, []⟩).setCtx c x ((s.ctxAt c x).put o)) none [] [] := by
  have fits : decide ((namedQueue s c o).count + (tokenArgs o).2 ≤ tokenDepth) = true := decide_eq_true h
  rw [namedQueue] at hw fits
  rw [setOp_eq, performKsig]
  simp only [tokens_setCtx, setTokens_setCtx, hw, fits, List.isEmpty_nil, Bool.true_or, Bool.and_self, if_true, List.head?_nil,
    List.tail_nil, ite_self]
  rfl

/-- A push that does not fit, with none before it. -/
theorem performKsig_joins (hw : (namedQueue s c o).waiting = []) (h : 63 < (namedQueue s c o).count + (tokenArgs o).2) :
    performKsig (s.setOp c x o) c x o =
      .held ((withQueue s c o ⟨(namedQueue s c o).count, [.ksig x o.id]⟩).setCtx c x ((s.ctxAt c x).put o)) := by
  have full : decide ((namedQueue s c o).count + (tokenArgs o).2 ≤ tokenDepth) = false := decide_eq_false (Nat.not_le.2 h)
  rw [namedQueue] at hw full
  rw [setOp_eq, performKsig]
  simp only [tokens_setCtx, setTokens_setCtx, hw, full, Bool.and_false, Bool.false_eq_true, if_false, List.contains_nil,
    List.nil_append]
  rfl

/-- The barrier after its target is set and one completion test is made. -/
def armed (b : ABar) (y : Nat) : ABar := if y ≤ b.arr then ⟨y, b.arr - y, !b.ph⟩ else ⟨y, b.arr, b.ph⟩

theorem test_armed (b : ABar) {y : Nat} (hy : 1 ≤ y) : ({ b with target := y } : ABar).test = armed b y := by
  unfold ABar.test armed
  by_cases h : y ≤ b.arr
  · rw [if_pos ⟨Nat.one_le_iff_ne_zero.1 hy, h⟩, if_pos h]
  · rw [if_neg fun hn => h hn.2, if_neg h]

theorem performAbarm_eq (hy : 1 ≤ o.y.toNat) : performAbarm (s.setOp c x o) c o =
    .done ((s.setCore c ((s.coreAt c).setAbar o.f.x.toNat (armed ((s.coreAt c).abar o.f.x.toNat) o.y.toNat))).setCtx c x
      ((s.ctxAt c x).put o)) none [] [] := by
  rw [setOp_eq, performAbarm]
  simp only [abar_setCtx, setAbar_setCtx, test_armed _ hy]

/-- An `ABWAIT` is satisfied where the phase differs. -/
theorem performAbwait_eq {u : State} {b : ABar} (hu : (u.coreAt c).abar (o.f.z.extractLsb' 8 2).toNat = b) : performAbwait u c o =
    if (b.ph != o.f.z.getLsbD 7) = true then .done u (some 0) [] [] else .held u := by
  rw [performAbwait, field_eq_extract, bitAt_eq_getLsbD, hu]

/-- A wait whose condition is met in time. -/
theorem timedWait_met {w : State} {val : Option Word} {took wrote : List Nat}
    (h : o.y.toNat = 0 ∨ o.met = true ∨ ∀ since, o.since = some since → s.time ≤ since + 1000 * o.y.toNat) :
    timedWait s c x o (.done w val took wrote) = .done w val took wrote := by
  refine if_neg fun ⟨hy, hlate, hmet⟩ => ?_
  rcases h with h0 | hm | hin
  · exact hy (BitVec.eq_of_toNat_eq h0)
  · rw [hm] at hmet
    exact absurd hmet (by decide)
  · rw [Op.limit] at hlate
    cases hs : o.since with
    | none =>
      rw [hs] at hlate
      exact absurd hlate (by simp)
    | some since =>
      rw [hs] at hlate
      exact absurd (hin since hs) (Nat.not_le.2 hlate)

/-- A timeout of 0 tests once. -/
theorem timedWait_once {w : State} (h : o.y.toNat = 0) : timedWait s c x o (.held w) = .done w (some 1) [] [] :=
  if_pos (.inl (BitVec.eq_of_toNat_eq h))

/-- Time is up only where a condition is not met. -/
theorem unmet_of_held {u : State} (hp : (if o.code = 0x2A then performKtake s c o else performAbwait s c o) = .held u) :
    waitSatisfied s c o = false := by
  rw [waitSatisfied, hp]

end

/-! ### Held pushes (R33) -/

/-- A held signal of an engine is delivered where it fits. -/
theorem heldSignal_engine {s : State} {c q : Nat} {index : Bool} {r : List TokenWait}
    (hw : ((s.coreAt c).tokens q).waiting = .engine index :: r) : execHeldSignalDelivery c q s =
      if ((s.coreAt c).tokens q).count < 63 then
        .next (s.setCore c ((s.coreAt c).setTokens q ⟨((s.coreAt c).tokens q).count + 1, r⟩))
      else .next s := by
  simp only [execHeldSignalDelivery, hw]
  rfl

/-- A held push is delivered where it fits, and its operation performs. -/
theorem heldSignal_push {s : State} {c q id : Nat} {x : CtxId} {o : Op} {r : List TokenWait}
    (hw : ((s.coreAt c).tokens q).waiting = .ksig x id :: r) (ho : s.opAt c x id = some o) : execHeldSignalDelivery c q s =
      if ((s.coreAt c).tokens q).count + (tokenArgs o).2 ≤ 63 then
        .next ((s.setCore c ((s.coreAt c).setTokens q ⟨((s.coreAt c).tokens q).count + (tokenArgs o).2, r⟩)).finishOp c x id none [] [])
      else .next s := by
  simp only [execHeldSignalDelivery, hw, ho]
  rfl

/-! ### Which condition a code has (R120) -/

section
variable (s : State) (c : Nat) (x : CtxId) {o : Op} (ch : Choice)

theorem performOp_ksig (h : o.code = 0x28) : performOp s c x o ch = performKsig s c x o := by
  rw [performOp, h]
  rfl

theorem performOp_ktake (h : o.code = 0x29) : performOp s c x o ch = performKtake s c o := by
  rw [performOp, h]
  rfl

theorem performOp_ktaket (h : o.code = 0x2A) : performOp s c x o ch = timedWait s c x o (performKtake s c o) := by
  rw [performOp, h]
  rfl

theorem performOp_abarm (h : o.code = 0x50) : performOp s c x o ch = performAbarm s c o := by
  rw [performOp, h]
  rfl

theorem performOp_abwait (h : o.code = 0x51) : performOp s c x o ch = timedWait s c x o (performAbwait s c o) := by
  rw [performOp, h]
  rfl

end

/-! ### The obligation -/

section
variable {c : Nat} {x : CtxId} {o : Op} {ch : Choice} {s : State}

/-- A performance that puts the named queue. -/
theorem performs_withQueue (h : MayPerform s c x o) (hcode : o.code ∈ tokenCodes) {t : TokenQ} {val : Option Word}
    (hp : performOp (s.setOp c x o) c x o ch = .done ((withQueue s c o t).setCtx c x ((s.ctxAt c x).put o)) val [] []) :
    ∃ t', exec (.operationPerform c x o.id ch) s = .next t' ∧ OnlyCoreOf s t' c ∧
      PerformedOp (withQueue s c o t) t' c x o (writtenReg o val) :=
  performs_of_done ((OnlyCoreOf.refl s c).setCore _) (ctxAt_setTokens ..) h hcode hp

/-- A performance that changes no queue. -/
theorem performs_alone (h : MayPerform s c x o) (hcode : o.code ∈ tokenCodes) {val : Option Word}
    (hp : performOp (s.setOp c x o) c x o ch = .done (s.setOp c x o) val [] []) :
    ∃ t, exec (.operationPerform c x o.id ch) s = .next t ∧ OnlyCoreOf s t c ∧ PerformedOp s t c x o (writtenReg o val) :=
  performs_of_done (OnlyCoreOf.refl s c) rfl h hcode hp

/-- `KTAKE` takes tokens that are present. -/
theorem ktake_performs (h : MayPerform s c x o) (hcode : o.code = 0x29) (hn : (tokenArgs o).2 ≤ (namedQueue s c o).count) :
    ∃ t, exec (.operationPerform c x o.id ch) s = .next t ∧ OnlyCoreOf s t c ∧
      PerformedOp (withQueue s c o { namedQueue s c o with count := (namedQueue s c o).count - (tokenArgs o).2 }) t c x o
        (writtenReg o (some 0)) := by
  refine performs_withQueue h (by simp [tokenCodes, hcode]) ?_
  rw [performOp_ktake _ _ _ _ hcode]
  exact performKtake_present hn

/-- `KSIG` adds tokens that fit. -/
theorem ksig_performs (h : MayPerform s c x o) (hcode : o.code = 0x28) (hw : (namedQueue s c o).waiting = [])
    (hn : (namedQueue s c o).count + (tokenArgs o).2 ≤ 63) :
    ∃ t, exec (.operationPerform c x o.id ch) s = .next t ∧ OnlyCoreOf s t c ∧
      PerformedOp (withQueue s c o ⟨(namedQueue s c o).count + (tokenArgs o).2, []⟩) t c x o none := by
  refine performs_withQueue h (by simp [tokenCodes, hcode]) (val := none) ?_
  rw [performOp_ksig _ _ _ _ hcode]
  exact performKsig_fits hw hn

/-- `KSIG` joins the waiting pushes where its tokens do not fit. -/
theorem ksig_joins (h : MayPerform s c x o) (hcode : o.code = 0x28) (hw : (namedQueue s c o).waiting = [])
    (hn : 63 < (namedQueue s c o).count + (tokenArgs o).2) :
    ∃ t, exec (.operationPerform c x o.id ch) s = .next t ∧ OnlyCoreOf s t c ∧
      (t.coreAt c).tokens (tokenArgs o).1 = ⟨(namedQueue s c o).count, [.ksig x o.id]⟩ ∧
      ∀ m, m ≠ (tokenArgs o).1 → (t.coreAt c).tokens m = (s.coreAt c).tokens m := by
  have held : performOp (s.setOp c x o) c x o ch = .held
      ((withQueue s c o ⟨(namedQueue s c o).count, [.ksig x o.id]⟩).setCtx c x ((s.ctxAt c x).put o)) := by
    rw [performOp_ksig _ _ _ _ hcode]
    exact performKsig_joins hw hn
  refine ⟨(withQueue s c o ⟨(namedQueue s c o).count, [.ksig x o.id]⟩).setCtx c x ((s.ctxAt c x).put o),
    (exec_operationPerform h (by simp [tokenCodes, hcode]) ch).trans (by rw [held]; rfl),
    ((OnlyCoreOf.refl s c).setCore _).setCore _, ?_, fun m hm => ?_⟩ <;>
    rw [tokens_setCtx, withQueue, State.coreAt_setCore_self]
  · exact Tab.get_set_self ..
  · exact Tab.get_set_ne _ _ _ hm

end

section
variable {c d : Nat} {x : CtxId} {o : Op} {ch : Choice} {s : State} (h : MayPerform s c x o)

/-- The wait's condition is met in time (R161). -/
def InTime (s : State) (o : Op) : Prop :=
  o.y.toNat = 0 ∨ o.met = true ∨ ∀ since, o.since = some since → s.time ≤ since + 1000 * o.y.toNat

include h

/-- `KTAKET` takes tokens that are present in time, and writes 0. -/
theorem ktaket_performs (hcode : o.code = 0x2A) (hn : (tokenArgs o).2 ≤ (namedQueue s c o).count) (hin : InTime s o) :
    ∃ t, exec (.operationPerform c x o.id ch) s = .next t ∧ OnlyCoreOf s t c ∧
      PerformedOp (withQueue s c o { namedQueue s c o with count := (namedQueue s c o).count - (tokenArgs o).2 }) t c x o
        (writtenReg o (some 0)) := by
  refine performs_withQueue h (by simp [tokenCodes, hcode]) ?_
  rw [performOp_ktaket _ _ _ _ hcode]
  rw [performKtake_present hn]
  exact timedWait_met hin

/-- With a timeout of 0 it tests once, and writes 1 where they are not. -/
theorem ktaket_once (hcode : o.code = 0x2A) (hn : (namedQueue s c o).count < (tokenArgs o).2) (h0 : o.y.toNat = 0) :
    ∃ t, exec (.operationPerform c x o.id ch) s = .next t ∧ OnlyCoreOf s t c ∧ PerformedOp s t c x o (writtenReg o (some 1)) := by
  refine performs_alone h (by simp [tokenCodes, hcode]) ?_
  rw [performOp_ktaket _ _ _ _ hcode]
  rw [performKtake_absent (u := s.setOp c x o) (tokens_setCtx ..) hn]
  exact timedWait_once h0

/-- `ABARM` sets the target and makes one completion test. -/
theorem abarm_performs (hcode : o.code = 0x50) (hy : 1 ≤ o.y.toNat) :
    ∃ t, exec (.operationPerform c x o.id ch) s = .next t ∧ OnlyCoreOf s t c ∧ PerformedOp
      (s.setCore c ((s.coreAt c).setAbar o.f.x.toNat (armed ((s.coreAt c).abar o.f.x.toNat) o.y.toNat))) t c x o none := by
  refine performs_of_done (val := none) ((OnlyCoreOf.refl s c).setCore _) (ctxAt_setAbar ..) h (by simp [tokenCodes, hcode]) ?_
  rw [performOp_abarm _ _ _ _ hcode]
  exact performAbarm_eq hy

/-- `ABWAIT` writes 0 where the phase differs in time. -/
theorem abwait_performs (hcode : o.code = 0x51)
    (hm : (((s.coreAt c).abar (o.f.z.extractLsb' 8 2).toNat).ph != o.f.z.getLsbD 7) = true) (hin : InTime s o) :
    ∃ t, exec (.operationPerform c x o.id ch) s = .next t ∧ OnlyCoreOf s t c ∧ PerformedOp s t c x o (writtenReg o (some 0)) := by
  refine performs_alone h (by simp [tokenCodes, hcode]) ?_
  rw [performOp_abwait _ _ _ _ hcode]
  rw [performAbwait_eq (u := s.setOp c x o) (abar_setCtx ..), if_pos hm]
  exact timedWait_met hin

/-- With a timeout of 0 it tests once, and writes 1 where it does not. -/
theorem abwait_once (hcode : o.code = 0x51)
    (hm : (((s.coreAt c).abar (o.f.z.extractLsb' 8 2).toNat).ph != o.f.z.getLsbD 7) = false) (h0 : o.y.toNat = 0) :
    ∃ t, exec (.operationPerform c x o.id ch) s = .next t ∧ OnlyCoreOf s t c ∧ PerformedOp s t c x o (writtenReg o (some 1)) := by
  refine performs_alone h (by simp [tokenCodes, hcode]) ?_
  rw [performOp_abwait _ _ _ _ hcode]
  rw [performAbwait_eq (u := s.setOp c x o) (abar_setCtx ..), if_neg (by rw [hm]; decide)]
  exact timedWait_once h0

end

/-- Settles O40: a case for each operation, and the two ways a push is delivered. -/
theorem tokensAndTimeouts : Obligations.TokensAndTimeouts := by
  unfold Obligations.TokensAndTimeouts
  intro c q n x o ch s k tq y performs inTime ends timesOut
  have noReg (hd : o.dst = none) (val : Option Word) : writtenReg o val = none := by
    cases val with
    | none => rfl
    | some w =>
      rw [writtenReg, hd]
      rfl
  have reg {d : Nat} (hd : o.dst = some d) (w : Word) : writtenReg o (some w) = some (d, w) := by
    rw [writtenReg, hd]
    rfl
  refine ⟨fun h hcode hd hq hn hle => ?ktake, fun h hcode hd hq hn hw => ⟨fun hfit => ?fits, fun hfull => ?joins⟩,
    fun index r hw => ⟨fun hfit => ?engine, fun hfull => ?engineFull⟩,
    fun r hw ho hcode hd hn => ⟨fun hfit => ?push, fun hfull => ?pushFull⟩,
    fun d h hcode hd hq hn => ⟨fun hle hin => ?ktaket, fun hlt h0 => ?once, fun hlt hends => ?late⟩,
    fun h hcode hd hq hy _ => ?abarm,
    fun d h hcode hd hq => ⟨fun hm hin => ?abwait, fun hm h0 => ?abOnce, fun hm hends => ?abLate⟩⟩
  case ktake =>
    have args : tokenArgs o = (q, n) := by rw [tokenArgs_plain (by rw [hcode]; decide), hq, hn]
    have := ktake_performs (ch := ch) h hcode (by rw [namedQueue, args]; exact hle)
    rwa [noReg hd, namedQueue, withQueue, args] at this
  case fits =>
    have args : tokenArgs o = (q, n) := by rw [tokenArgs_plain (by rw [hcode]; decide), hq, hn]
    have := ksig_performs (ch := ch) h hcode (by rw [namedQueue, args]; exact hw) (by rw [namedQueue, args]; exact hfit)
    rwa [namedQueue, withQueue, args] at this
  case joins =>
    have args : tokenArgs o = (q, n) := by rw [tokenArgs_plain (by rw [hcode]; decide), hq, hn]
    have := ksig_joins (ch := ch) h hcode (by rw [namedQueue, args]; exact hw) (by rw [namedQueue, args]; exact hfull)
    rwa [namedQueue, args] at this
  case engine => exact (heldSignal_engine hw).trans (if_pos hfit)
  case engineFull => exact (heldSignal_engine hw).trans (if_neg (Nat.not_lt.2 hfull))
  case push =>
    have args : (tokenArgs o).2 = n := by rw [tokenArgs_plain (by rw [hcode]; decide)]; exact hn
    have here : (s.setCore c (k.setTokens q ⟨tq.count + n, r⟩)).opAt c x o.id = some o := by
      rw [State.opAt, ctxAt_setTokens]
      exact ho
    refine ⟨_, (heldSignal_push hw ho).trans (if_pos (by rw [args]; exact hfit)), ?_⟩
    rw [args, finishOp_eq here, ← noReg hd none]
    exact ⟨((OnlyCoreOf.refl s c).setCore _).setCore _, (finish_finished ..).performedOp⟩
  case pushFull =>
    have args : (tokenArgs o).2 = n := by rw [tokenArgs_plain (by rw [hcode]; decide)]; exact hn
    exact (heldSignal_push hw ho).trans (if_neg (by rw [args]; exact Nat.not_le.2 hfull))
  case ktaket =>
    have args : tokenArgs o = (q, n) := by rw [tokenArgs_timed hcode, hq, hn]
    have := ktaket_performs (ch := ch) h hcode (by rw [namedQueue, args]; exact hle) hin
    rwa [reg hd, namedQueue, withQueue, args] at this
  case once =>
    have args : tokenArgs o = (q, n) := by rw [tokenArgs_timed hcode, hq, hn]
    have := ktaket_once (ch := ch) h hcode (by rw [namedQueue, args]; exact hlt) h0
    rwa [reg hd] at this
  case late =>
    have args : tokenArgs o = (q, n) := by rw [tokenArgs_timed hcode, hq, hn]
    obtain ⟨since, hs, hend⟩ := hends
    have unmet := performKtake_absent (s := s) (u := s) (c := c) (o := o) rfl (by rw [namedQueue, args]; exact hlt)
    have := timesOut_of_ends h (.inl hcode) (unmet_of_held ((if_pos hcode).trans unmet)) hs hend
    rwa [reg hd] at this
  case abarm =>
    have := abarm_performs (ch := ch) h hcode hy
    rwa [hq] at this
  case abwait =>
    have := abwait_performs (ch := ch) h hcode (by rw [hq]; exact hm) hin
    rwa [reg hd] at this
  case abOnce =>
    have := abwait_once (ch := ch) h hcode (by rw [hq]; exact hm) h0
    rwa [reg hd] at this
  case abLate =>
    obtain ⟨since, hs, hend⟩ := hends
    have unmet : performAbwait s c o = .held s :=
      (performAbwait_eq (b := k.abar q) (by rw [hq])).trans (if_neg (Bool.eq_false_iff.1 hm))
    have := timesOut_of_ends h (.inr hcode) (unmet_of_held ((if_neg (by rw [hcode]; decide)).trans unmet)) hs hend
    rwa [reg hd] at this

end Sys2Proof.Machine
end

section
/-! SUPPORT. What firmware's work on frames leaves of memory: a range written as zero, a frame's contents in another, a number in a table,
the fields of a plane entry (R48, R49, R157, R159, R183). -/

namespace Sys2Proof.Machine

/-! ### Cells whose locations are filtered or moved -/

theorem lookup_filter (test : Nat → Bool) (cs : List Host.Cell) (x : Nat) :
    (cs.filter (fun e => test e.1)).lookup x = if test x = true then cs.lookup x else none := by
  induction cs with
  | nil => simp
  | cons e r ih =>
    obtain ⟨k, v⟩ := e
    rw [List.filter_cons, List.lookup_cons]
    by_cases hx : x = k
    · subst hx
      by_cases ht : test x = true
      · simp [ht]
      · simp [ht, ih]
    · have ne : (x == k) = false := beq_false_of_ne hx
      by_cases ht : test k = true
      · simp [ht, ne, ih, List.lookup_cons]
      · simp [ht, ne, ih]

/-- A moved location is found where it has gone. -/
theorem lookup_map_key {go : Nat → Nat} {x y : Nat} {cs : List Host.Cell} (h : ∀ e ∈ cs, go e.1 = y ↔ e.1 = x) :
    (cs.map (fun e => (go e.1, e.2))).lookup y = cs.lookup x := by
  induction cs with
  | nil => rfl
  | cons e r ih =>
    obtain ⟨k, v⟩ := e
    have here : (y == go k) = (x == k) := by
      rw [Bool.eq_iff_iff, beq_iff_eq, beq_iff_eq, eq_comm, h (k, v) List.mem_cons_self, eq_comm]
    rw [List.map_cons, List.lookup_cons, List.lookup_cons, here, ih fun e he => h e (List.mem_cons_of_mem _ he)]

/-- Memory is a table of its cells. -/
theorem read_eq_lookup (m : Memory) (x : Nat) : Memory.read m x = (List.lookup x m).getD Memory.unlisted := by
  induction m with
  | nil => rfl
  | cons e r ih =>
    obtain ⟨k, v⟩ := e
    rw [Memory.read, List.lookup_cons, ih]
    by_cases hx : x = k
    · simp [hx]
    · simp [hx, beq_false_of_ne hx]

theorem read_filter (test : Nat → Bool) (m : Memory) (x : Nat) :
    Memory.read (m.filter (fun e => test e.1)) x = if test x = true then Memory.read m x else Memory.unlisted := by
  rw [read_eq_lookup, lookup_filter, read_eq_lookup]
  split <;> rfl

/-- A log whose entries keep their levels and numbers, with other cells. -/
def recell (f : List Host.Cell → List Host.Cell) (l : List WEntry) : List WEntry :=
  l.map (fun e => { e with cells := f e.cells })

/-- Where the cells have at `y` what they had at `x`, the latest write to `y` is the one to `x`. -/
theorem latest_recell {f : List Host.Cell → List Host.Cell} {l : List WEntry} {x y : Nat}
    (h : ∀ e ∈ l, (f e.cells).lookup y = e.cells.lookup x) :
    latest (fun e => decide (2 ≤ e.level)) y (recell f l) = latest (fun e => decide (2 ≤ e.level)) x l := by
  induction l with
  | nil => rfl
  | cons e r ih =>
    have rest := ih fun e he => h e (List.mem_cons_of_mem _ he)
    have here : ({ e with cells := f e.cells } : WEntry).byteAt y = e.byteAt x := h e List.mem_cons_self
    rw [recell, List.map_cons, latest, ← recell, rest, here]
    rfl

/-! ### A range written as zero -/

/-- A location lies outside a range. -/
def outside (a n x : Nat) : Bool := decide (x < a) || decide (a + n ≤ x)

theorem outside_true {a n x : Nat} : outside a n x = true ↔ x < a ∨ a + n ≤ x := by simp [outside]

theorem zeroRange_mem (s : State) (a n : Nat) : (s.zeroRange a n).mem = s.mem.filter (fun e => outside a n e.1) := by
  obtain ⟨cs, ns, ds, h⟩ := State.bumpLines_only ((List.range (linesIn n)).map (fun i => a + 64 * i)) _
  rw [State.zeroRange, h]
  rfl

theorem zeroRange_log (s : State) (a n : Nat) :
    (s.zeroRange a n).log = recell (fun cs => cs.filter (fun e => outside a n e.1)) s.log := by
  obtain ⟨cs, ns, ds, h⟩ := State.bumpLines_only ((List.range (linesIn n)).map (fun i => a + 64 * i)) _
  rw [State.zeroRange, h]
  rfl

/-- Nothing outside the range changes. -/
theorem zeroRange_image_outside (s : State) {a n x : Nat} (h : x < a ∨ a + n ≤ x) : (s.zeroRange a n).image x = s.image x := by
  have out := outside_true.2 h
  rw [State.image_eq_latest, State.image_eq_latest, zeroRange_mem, zeroRange_log, read_filter, if_pos out,
    latest_recell fun e _ => (lookup_filter ..).trans (if_pos out)]

/-- All of it reads zero. -/
theorem zeroRange_image_inside (s : State) {a n x : Nat} (h : a ≤ x) (h' : x < a + n) : (s.zeroRange a n).image x = 0 := by
  have out : ¬ outside a n x = true := fun ho => by
    have := outside_true.1 ho
    omega
  have gone : latest (fun e => decide (2 ≤ e.level)) x (recell (fun cs => cs.filter (fun e => outside a n e.1)) s.log) = none := by
    refine latest_none fun e he _ => ?_
    obtain ⟨d, -, rfl⟩ := List.mem_map.1 he
    exact (lookup_filter ..).trans (if_neg out)
  rw [State.image_eq_latest, zeroRange_mem, zeroRange_log, read_filter, if_neg out, gone]
  rfl

/-! ### A frame's contents in another frame (R159) -/

theorem relocate_inside {a b n x : Nat} (h : a ≤ x ∧ x < a + n) : relocate a b n x = b + (x - a) := if_pos h

theorem relocate_outside {a b n x : Nat} (h : ¬ (a ≤ x ∧ x < a + n)) : relocate a b n x = x := if_neg h

/-- A location lies in a range. -/
def inside (a n x : Nat) : Bool := decide (a ≤ x) && decide (x < a + n)

theorem inside_true {a n x : Nat} : inside a n x = true ↔ a ≤ x ∧ x < a + n := by simp [inside]

/-- The cells a copy puts in the new frame. -/
def copiedCells (s : State) (a b n : Nat) : List Host.Cell :=
  (s.mem.filter (fun e => inside a n e.1)).map (fun e => (relocate a b n e.1, e.2))

theorem copyFrame_mem (s : State) (a b n : Nat) : (s.copyFrame a b n).mem =
    Memory.writeAll (s.mem.filter (fun e => outside b n e.1)) (copiedCells s a b n) := by
  rw [State.copyFrame, ← zeroRange_mem]
  rfl

/-- The cells of a logged write after a copy. -/
def movedLog (a b n : Nat) (cs : List Host.Cell) : List Host.Cell :=
  (cs.filter (fun e => outside b n e.1)).map (fun e => (relocate a b n e.1, e.2))

theorem copyFrame_log (s : State) (a b n : Nat) : (s.copyFrame a b n).log = recell (movedLog a b n) s.log := by
  have : (s.copyFrame a b n).log = recell (fun cs => cs.map (fun e => (relocate a b n e.1, e.2))) (s.zeroRange b n).log := rfl
  rw [this, zeroRange_log, recell, recell, List.map_map]
  rfl

/-- The copied cells rise as those of memory do. -/
theorem copiedCells_rising {s : State} (hs : s.mem.wf = true) (a b n : Nat) :
    (copiedCells s a b n).Pairwise (fun x y => x.1 < y.1) := by
  refine List.pairwise_map.2 (List.Pairwise.imp_of_mem ?_ (((Memory.wf_iff s.mem).1 hs).1.filter _))
  intro x y hx hy hlt
  have inx := inside_true.1 (List.mem_filter.1 hx).2
  have iny := inside_true.1 (List.mem_filter.1 hy).2
  rw [relocate_inside inx, relocate_inside iny]
  omega

section
variable {s : State} {a b n : Nat} (hs : s.mem.wf = true)
include hs

/-- The new frame holds what the old one did. -/
theorem copyFrame_image_inside (hd : a + n ≤ b ∨ b + n ≤ a) {x : Nat} (hx : x < n) :
    (s.copyFrame a b n).image (b + x) = s.image (a + x) := by
  have inA : inside a n (a + x) = true := inside_true.2 (by omega)
  have outB : outside b n (a + x) = true := outside_true.2 (by omega)
  have notOutB : ¬ outside b n (b + x) = true := fun ho => by
    have := outside_true.1 ho
    omega
  have mem : (copiedCells s a b n).lookup (b + x) = List.lookup (a + x) s.mem := by
    refine (lookup_map_key (x := a + x) fun e he => ?_).trans ((lookup_filter ..).trans (if_pos inA))
    have ine := inside_true.1 (List.mem_filter.1 he).2
    rw [relocate_inside ine]
    omega
  have log (e : WEntry) : (movedLog a b n e.cells).lookup (b + x) = e.cells.lookup (a + x) := by
    refine (lookup_map_key (x := a + x) fun c hc => ?_).trans ((lookup_filter ..).trans (if_pos outB))
    have outc := outside_true.1 (List.mem_filter.1 hc).2
    by_cases inc : a ≤ c.1 ∧ c.1 < a + n
    · rw [relocate_inside inc]
      omega
    · rw [relocate_outside inc]
      omega
  rw [State.image_eq_latest, State.image_eq_latest, copyFrame_log, copyFrame_mem, latest_recell fun e _ => log e,
    read_writeAll_rising (copiedCells_rising hs a b n), mem, read_filter, if_neg notOutB, ← read_eq_lookup]

/-- What lies in neither frame is as before. -/
theorem copyFrame_image_outside {x : Nat} (hb : x < b ∨ b + n ≤ x) (ha : x < a ∨ a + n ≤ x) :
    (s.copyFrame a b n).image x = s.image x := by
  have outB : outside b n x = true := outside_true.2 hb
  have mem : (copiedCells s a b n).lookup x = none := by
    refine lookup_eq_none_of_not_mem fun e he => ?_
    obtain ⟨c, hc, rfl⟩ := List.mem_map.1 he
    have inc := inside_true.1 (List.mem_filter.1 hc).2
    show relocate a b n c.1 ≠ x
    rw [relocate_inside inc]
    omega
  have log (e : WEntry) : (movedLog a b n e.cells).lookup x = e.cells.lookup x := by
    refine (lookup_map_key (x := x) fun c hc => ?_).trans ((lookup_filter ..).trans (if_pos outB))
    by_cases inc : a ≤ c.1 ∧ c.1 < a + n
    · rw [relocate_inside inc]
      omega
    · rw [relocate_outside inc]
  rw [State.image_eq_latest, State.image_eq_latest, copyFrame_log, copyFrame_mem, latest_recell fun e _ => log e,
    read_writeAll_rising (copiedCells_rising hs a b n), mem, read_filter, if_pos outB]
  rfl

end

/-! ### A number in a table -/

/-- The bytes of a number hold it. -/
theorem leNat_leBytes {n v : Nat} (h : v < 256 ^ n) : leNat (leBytes n v) = v := by
  induction n generalizing v with
  | zero =>
    rw [Nat.pow_zero] at h
    rw [leBytes, leNat]
    omega
  | succ n ih =>
    have top : v / 256 < 256 ^ n := Nat.div_lt_of_lt_mul (by rw [← Nat.pow_succ']; exact h)
    rw [leBytes, leNat, ih top, BitVec.toNat_ofNat]
    omega

/-- Firmware's write of a word is the word at its place, and nothing elsewhere. -/
theorem writeTable_image {s : State} (hs : LogOk s) (a : Nat) (w : Word) :
    (s.writeTable a 8 w.toNat).imageNat a 8 = w.toNat ∧
    ∀ b, (b < a ∨ a + 8 ≤ b) → (s.writeTable a 8 w.toNat).image b = s.image b := by
  obtain ⟨inside, outside⟩ := State.writeDevice_cellsFrom_image hs a (leBytes 8 w.toNat)
  rw [leBytes_length] at inside outside
  have bytes : (s.writeTable a 8 w.toNat).imageBytes a 8 = leBytes 8 w.toNat := by
    refine List.ext_getElem (by simp) fun i hi hi' => ?_
    have h8 : i < 8 := by simpa using hi
    have := inside i h8
    simp only [State.imageBytes_eq_map, span, List.getElem_map, List.getElem_range]
    rw [State.writeTable, this, List.getD_eq_getElem]
  refine ⟨?_, outside⟩
  rw [State.imageNat, bytes, leNat_leBytes w.isLt]

/-! ### The fields of a plane entry (R49) -/

section
variable (st acc frame : Nat) (wr sk : Bool)

theorem mkEntry_state (h : st < 8) : peState (mkEntry st wr sk acc frame) = st := by
  have := wr.toNat_le
  have := sk.toNat_le
  unfold peState field mkEntry
  omega

theorem mkEntry_wr : peWr (mkEntry st wr sk acc frame) = wr := by
  have := sk.toNat_le
  have bit : mkEntry st wr sk acc frame / 2 ^ 60 % 2 = wr.toNat := by
    have := wr.toNat_le
    unfold mkEntry
    omega
  rw [peWr, bitAt, bit]
  cases wr <;> rfl

theorem mkEntry_sk : peSk (mkEntry st wr sk acc frame) = sk := by
  have bit : mkEntry st wr sk acc frame / 2 ^ 59 % 2 = sk.toNat := by
    have := sk.toNat_le
    unfold mkEntry
    omega
  rw [peSk, bitAt, bit]
  cases sk <;> rfl

theorem mkEntry_frame (h : frame < 2 ^ 48) : field (mkEntry st wr sk acc frame) 0 48 = frame := by
  unfold field mkEntry
  omega

end

/-- A RESIDENT entry names its frame, in its tier, with WR and SK kept. -/
theorem resident_fields (e : Nat) (g : FrameGrant) (ha : g.addr % 64 = 0) (hg : g.addr < 2 ^ 42) :
    peState (resident e g) = (if g.second then 2 else 1) ∧ peWr (resident e g) = peWr e ∧ peSk (resident e g) = peSk e ∧
      field (resident e g) 0 48 * 64 = g.addr := by
  refine ⟨mkEntry_state _ _ _ _ _ (by split <;> decide), mkEntry_wr .., mkEntry_sk .., ?_⟩
  rw [resident, reState, mkEntry_frame _ _ _ _ _ (by omega)]
  omega

end Sys2Proof.Machine
end

section
/-! SUPPORT. Firmware's work on frames and tables, one rule for each of its steps (R44, R48, R156 to R159, R175, R183, R187, R203, R258). -/

namespace Sys2Proof.Machine

/-! ### Allocation and page-in (R156, R157) -/

section
variable {s : State} {vf e sz : Nat} {va : Word} (he : s.entryOf vf va = some (e, sz)) (hw : s.entryWaits vf va = false)
include he

/-- An entry with SK gets no frame (R187). -/
theorem frameAllocate_shared (hk : peSk e = true) (f : Option FrameGrant) : execFrameAllocate vf va f s = .next s := by
  simp only [execFrameAllocate, he, hk, true_or, or_true, if_true]

theorem pageIn_shared (hk : peSk e = true) (f : Option FrameGrant) (data : List Byte) : execPageIn vf va f data s = .next s := by
  simp only [execPageIn, he, hk, true_or, or_true, if_true]

include hw

/-- A write parked on an ABSENT entry gets the frame firmware may take. -/
theorem frameAllocate_some (h0 : peState e = 0) (hk : peSk e = false) (hp : s.parkedOn vf va sz true = true) {g : FrameGrant}
    (hg : s.grantOk vf g ((s.planeDesc vf va).frameBytes sz) 64 (placeSecond (s.planeDesc vf va).place (vaPos va / 2 ^ sz)) = true) :
    execFrameAllocate vf va (some g) s = .next
      ((((s.takeFrame vf g ((s.planeDesc vf va).frameBytes sz)).zeroRange g.addr ((s.planeDesc vf va).frameBytes sz)).setEntry vf va
        (resident e g)).freeParks vf va sz) := by
  simp only [execFrameAllocate, he, h0, hk, hw, hp, hg, ne_eq, not_true, Bool.false_eq_true, Bool.not_true, or_self, if_false, if_true]

/-- Where there is no room, it is denied. -/
theorem frameAllocate_none (h0 : peState e = 0) (hk : peSk e = false) (hp : s.parkedOn vf va sz true = true)
    (hn : s.noRoom vf ((s.planeDesc vf va).frameBytes sz) = true) :
    execFrameAllocate vf va none s = .next (s.denyParks vf va sz) := by
  simp only [execFrameAllocate, he, h0, hk, hw, hp, hn, ne_eq, not_true, Bool.false_eq_true, Bool.not_true, or_self, if_false, if_true]

section
variable (h4 : peState e = 4) (hk : peSk e = false) (hp : s.parkedOn vf va sz false = true) (hm : s.moves = []) (data : List Byte)
include h4 hk hp hm

/-- A PAGED page comes in with the host's bytes. -/
theorem pageIn_some {g : FrameGrant}
    (hg : s.grantOk vf g ((s.planeDesc vf va).frameBytes sz) 64 (placeSecond (s.planeDesc vf va).place (vaPos va / 2 ^ sz)) = true) :
    execPageIn vf va (some g) data s = .next
      ((((s.takeFrame vf g ((s.planeDesc vf va).frameBytes sz)).fillFrame g.addr ((s.planeDesc vf va).frameBytes sz)
        (data.take ((s.planeDesc vf va).pageBytes sz))).setEntry vf va (resident e g)).freeParks vf va sz) := by
  have still : s.movingPage vf va sz = false := by rw [State.movingPage, hm, List.any_nil]
  simp only [execPageIn, he, h4, hk, hw, hp, hg, still, ne_eq, not_true, Bool.false_eq_true, Bool.not_true, or_self, if_false, if_true]

/-- Where there is no room, it is denied. -/
theorem pageIn_none (hn : s.noRoom vf ((s.planeDesc vf va).frameBytes sz) = true) :
    execPageIn vf va none data s = .next (s.denyParks vf va sz) := by
  have still : s.movingPage vf va sz = false := by rw [State.movingPage, hm, List.any_nil]
  simp only [execPageIn, he, h4, hk, hw, hp, hn, still, ne_eq, not_true, Bool.false_eq_true, Bool.not_true, or_self, if_false, if_true]

end

/-! ### Moves (R159) -/

/-- Steps 1 and 2: the entry becomes PAGED, unless its frame is lent in place. -/
theorem frameMove_begins (data : List Byte) (h : (peState e = 1 ∨ peState e = 2) ∧
      s.notLent (field e 0 48 * 64) ((s.planeDesc vf va).frameBytes sz) = true ∨ peState e = 3) :
    execFrameMove vf va none data s = .next
      (({ s with moves := s.moves ++ [⟨vf, va, BitVec.ofNat 64 e⟩] } : State).setEntry vf va (reState e 4 (peFrame e))) := by
  simp only [execFrameMove, he, hw, Bool.false_eq_true, if_false]
  exact if_pos h

/-- A frame that is lent in place stays. -/
theorem frameMove_stays (data : List Byte) (h : peState e = 1 ∨ peState e = 2)
    (hl : s.notLent (field e 0 48 * 64) ((s.planeDesc vf va).frameBytes sz) = false) :
    execFrameMove vf va none data s = .next s := by
  simp only [execFrameMove, he, hw, Bool.false_eq_true, if_false]
  refine if_neg fun hn => hn.elim (fun h' => ?_) fun h3 => ?_
  · rw [hl] at h'
    exact Bool.false_ne_true h'.2
  · omega

/-- Steps 3 to 5, once no access is on its way. -/
theorem frameMove_ends {m : Move} (hm : s.moves.find? (fun m => m.vf == vf && m.va == va) = some m) (h4 : peState e = 4)
    (hq : s.quietPage vf va sz = true) {g : FrameGrant} (hg : s.moveOk m g ((s.planeDesc vf va).frameBytes sz) = true)
    (data : List Byte) : execFrameMove vf va (some g) data s = .next (s.finishMove m sz g data) := by
  simp only [execFrameMove, he, hw, hm, h4, hq, hg, Bool.not_false, and_self, if_true]

/-! ### A plane entry that firmware writes (R157, R183, R187, R203) -/

/-- A write that keeps the FRAME field. -/
theorem entryChange {w : Word} (ha : s.entryAllowed vf e w.toNat ((s.planeDesc vf va).frameBytes sz) = true)
    (hm : s.movingPage vf va sz = false) (hf : field e 0 48 = field w.toNat 0 48) :
    execTenantTableChange vf (.entry va w) s = .next
      (((s.ownFrame vf w.toNat ((s.planeDesc vf va).frameBytes sz)).setEntry vf va w.toNat).freeParks vf va sz) := by
  simp only [execTenantTableChange, he, ha, hm, hw, Bool.not_false, and_self, if_true, if_pos hf]

omit hw in
/-- A write that is not allowed. -/
theorem entryChange_refused {w : Word} (ha : s.entryAllowed vf e w.toNat ((s.planeDesc vf va).frameBytes sz) = false) :
    execTenantTableChange vf (.entry va w) s = .next s := by
  simp only [execTenantTableChange, he, ha, Bool.false_eq_true, false_and, if_false]

end

/-- A range meets no lent range unless a lease that is not free holds some of it. -/
theorem notLent_iff {s : State} {a n : Nat} : s.notLent a n = true ↔
    ¬ ∃ l ∈ s.leases, l.2.st ≠ .free ∧ meets a n (4096 * l.2.base) (4096 * l.2.len) = true := by
  simp only [State.notLent, List.all_eq_true, Bool.or_eq_true, beq_iff_eq, Bool.not_eq_true', ne_eq, not_exists, not_and,
    Bool.not_eq_true, Decidable.or_iff_not_imp_left]

section
variable {s : State} {vf w n : Nat}

/-- Nothing is taken for an entry that names no frame, a shared one, or the tenant's own. -/
theorem ownFrame_kept (h : peState w = 0 ∨ 3 ≤ peState w ∨ peSk w = true ∨ s.ownRange vf (field w 0 48 * 64) n false = true) :
    s.ownFrame vf w n = s := by
  refine if_neg fun ⟨hst, hk, ho⟩ => ?_
  rcases h with h | h | h | h
  · omega
  · omega
  · rw [h] at hk
    exact absurd hk (by decide)
  · rw [h] at ho
    exact absurd ho (by decide)

/-- A free frame is taken, and is zero. -/
theorem ownFrame_taken (hst : peState w = 1 ∨ peState w = 2) (hk : peSk w = false)
    (ho : ¬ s.ownRange vf (field w 0 48 * 64) n false = true) :
    s.ownFrame vf w n = (s.takeFrame vf ⟨field w 0 48 * 64, peState w == 2⟩ n).zeroRange (field w 0 48 * 64) n := by
  refine if_pos ⟨hst, ?_, ?_⟩
  · rw [hk]
    rfl
  · rw [Bool.eq_false_iff.2 ho]
    rfl

/-- A POISONED entry becomes nothing but ABSENT, and one with SK is RESIDENT, with WR 0, in a frame of a domain the tenant holds. -/
theorem entryAllowed_refuses {e : Nat} (h : peState e = 5 ∧ peState w ≠ 0 ∨ peSk w = true ∧ (peWr w = true ∨
      (peState w ≠ 1 ∧ peState w ≠ 2) ∨ ∀ x ∈ s.shared, x.1 = field w 0 48 * 64 → bitAt (s.tenant vf).shmask x.2.2 = false)) :
    s.entryAllowed vf e w n = false := by
  rcases h with ⟨h5, h0⟩ | ⟨hk, h⟩
  · simp [State.entryAllowed, h5, h0]
  · rw [State.entryAllowed, if_pos hk]
    rcases h with hwr | ⟨h1, h2⟩ | hx
    · simp [hwr]
    · simp [h1, h2]
    · have none : s.shared.any (fun x => x.1 == field w 0 48 * 64 && decide (n ≤ x.2.1) && bitAt (s.tenant vf).shmask x.2.2)
          = false := by
        refine List.any_eq_false.2 fun x hm hn => ?_
        simp only [Bool.and_eq_true, beq_iff_eq] at hn
        rw [hx x hm hn.1.1] at hn
        exact Bool.false_ne_true hn.2
      simp [none]

end

/-! ### Tables and the other changes (R44, R48, R175) -/

section
variable {s : State} {vf a i : Nat} {va w : Word} {g : FrameGrant}

/-- A missing table is built with its PFR. -/
theorem tableBuild_pfr (hm : s.missingAt (vaPos va) 3 (s.descRoot vf va) = some (a, 0)) (hp : s.parkedOn vf va 12 true = true)
    (hg : s.grantOk vf g 128 128 false = true) (hw : s.mustWait a = false) (ht : (s.tenant vf).tableBase ≠ none) :
    execTableBuild vf va (some [g]) s = .next
      (((((s.takeTable vf g 128).zeroRange g.addr 128).writeTable a 8 (2 ^ 63 + g.addr / 128)).fillPfr vf va g.addr).freeUnder
        vf va 12) := by
  have grants : s.tableGrants vf [g] = true := hg
  have based : (s.tenant vf).tableBase.isNone = false :=
    Option.isNone_eq_false_iff.2 (Option.isSome_iff_ne_none.2 ht)
  simp only [execTableBuild, hm, hp, hw, based, Bool.not_true, Bool.or_self, Bool.false_eq_true, if_false, List.length_singleton,
    grants, and_self, if_true]
  rfl

theorem baseChange (hf : s.frameFree 0 g (2 ^ 20) 64 = true) (hr : s.deviceRoom (some g.second) (2 ^ 14) = true) :
    execTenantTableChange vf (.base g) s = .next ((s.zeroRange g.addr (2 ^ 20)).setTenant vf
      { s.tenant vf with tableBase := some g.addr, tableSecond := g.second }) :=
  if_pos ⟨hf, hr⟩

theorem descriptorChange {table : Nat} {bytes : List Byte} (ht : (s.tenant vf).tableBase = some table) (hi : i < 4096)
    (hl : bytes.length = 256) (ha : s.descAllowed vf bytes = true) (hw : s.rangeWaits (table + 256 * i) 256 = false) :
    execTenantTableChange vf (.descriptor i bytes) s = .next (s.writeDevice (cellsFrom (table + 256 * i) bytes)) := by
  simp only [execTenantTableChange, ht]
  exact if_pos ⟨hi, hl, ha, by rw [hw]; rfl⟩

/-- A function with no descriptor table has no descriptor to write, no plane and no entry. -/
theorem noTable (ht : (s.tenant vf).tableBase = none) (bytes : List Byte) :
    execTenantTableChange vf (.descriptor i bytes) s = .next s ∧ s.checkPlane vf va = some 1 ∧ s.entryOf vf va = none := by
  have noWalk : s.walk vf va = .missing := by
    rw [State.walk, ht]
    rfl
  have invalid : s.descValid vf va = false := by
    rw [State.descValid, ht]
    rfl
  refine ⟨?_, ?_, ?_⟩
  · simp only [execTenantTableChange, ht]
  · rw [State.checkPlane, invalid]
    rfl
  · rw [State.entryOf, noWalk]

theorem grantChange {pfr : Bool} (hg : s.grantOk vf g (if pfr then 128 else 4096) (if pfr then 128 else 4096) false = true) :
    execTenantTableChange vf (.grant g pfr) s = .next
      ((s.takeTable vf g (if pfr then 128 else 4096)).zeroRange g.addr (if pfr then 128 else 4096)) :=
  if_pos hg

theorem tableChange {level : Nat} (hs : s.tableSlot (vaPos va) level 3 (s.descRoot vf va) = some a) (hv : s.descValid vf va = true)
    (hl : s.linkAllowed vf w.toNat = true) (hw : s.mustWait a = false) :
    execTenantTableChange vf (.table va level w) s = .next ((s.writeTable a 8 w.toNat).freeUnder vf va (12 + 9 * level)) := by
  simp only [execTenantTableChange, hs, hv, hl, hw, Bool.not_false, and_self, if_true]

end

/-- Settles O47: each change by its rule, and what memory holds afterwards. -/
theorem framesAndTables : Obligations.FramesAndTables := by
  unfold Obligations.FramesAndTables
  intro vf e sz a b i level va w g pfr data bytes s ⟨hwf, hlog⟩ d n second gives change named
  refine ⟨fun he hw => ⟨fun h0 hk hp => ⟨frameAllocate_some he hw h0 hk hp, frameAllocate_none he hw h0 hk hp⟩,
      fun h4 hk hp hm => ⟨pageIn_some he hw h4 hk hp hm data, pageIn_none he hw h4 hk hp hm data⟩,
      fun hk f => ⟨frameAllocate_shared he hk f, pageIn_shared he hk f data⟩, ?moves,
      fun m hm h4 hq hg => frameMove_ends he hw hm h4 hq hg data, fun ha hm hf => ⟨fun h => ?kept, fun hst hk ho => ?taken⟩,
      fun h => entryChange_refused he (entryAllowed_refuses h)⟩,
    fun x => ⟨zeroRange_image_outside s, zeroRange_image_inside s⟩,
    fun hd => ⟨fun x => copyFrame_image_inside hwf hd, fun x => copyFrame_image_outside hwf⟩, resident_fields e g,
    tableBuild_pfr, baseChange, fun table ht hi hl ha hw => ⟨_, descriptorChange ht hi hl ha hw, ?descriptor⟩,
    fun ht => noTable ht bytes, grantChange, tableChange, writeTable_image hlog a w, fun hi hf hr => if_pos ⟨hi, hf, hr⟩, fun ho => if_pos ho⟩
  case moves =>
    refine ⟨fun h hl => frameMove_begins he hw data (.inl ⟨h, notLent_iff.2 hl⟩), fun h3 => frameMove_begins he hw data (.inr h3),
      fun h hl => frameMove_stays he hw data h ?_⟩
    exact Bool.eq_false_iff.2 fun hn => notLent_iff.1 hn hl
  case kept => exact (entryChange he hw ha hm hf).trans (by rw [ownFrame_kept h])
  case taken => exact (entryChange he hw ha hm hf).trans (by rw [ownFrame_taken hst hk ho])
  case descriptor =>
    have image := State.writeDevice_cellsFrom_image hlog (table + 256 * i) bytes
    rwa [hl] at image

end Sys2Proof.Machine
end

section
/-! SUPPORT. Words and parcels: the encoder and the decoder take each other back, field by field, form by form and word by word (R52 to
R62, R66, R70). -/

-- One proof after another: the whole text has little memory to spare.
set_option Elab.async false

namespace Sys2Proof

/-! ### Words and their parcels (R52) -/

@[simp] theorem splitWord_length (n w : Nat) : (splitWord n w).length = n := by
  induction n with
  | zero => rfl
  | succ n ih => rw [splitWord, List.length_cons, ih]

theorem wordOf_lt (ps : List Parcel) : wordOf ps < 2 ^ (16 * ps.length) := by
  induction ps with
  | nil => exact Nat.one_pos
  | cons p ps ih =>
    rw [wordOf, List.length_cons, show 16 * (ps.length + 1) = 16 + 16 * ps.length by omega, pow_add]
    nlinarith [p.isLt]

/-- A word is its parcels put one after another, as far as they hold it. -/
theorem wordOf_splitWord (n w : Nat) : wordOf (splitWord n w) = w % 2 ^ (16 * n) := by
  induction n with
  | zero => simp [splitWord, wordOf, Nat.mod_one]
  | succ n ih =>
    rw [splitWord, wordOf, ih, splitWord_length, bits, BitVec.toNat_ofNat, show 16 * (n + 1) = 16 * n + 16 by omega, pow_add,
      Nat.mod_mul, Nat.add_comm, Nat.mul_comm (2 ^ (16 * n))]

/-- The parcels of a word depend on what they hold of it alone. -/
theorem splitWord_add_mul (n w k : Nat) : splitWord n (w + k * 2 ^ (16 * n)) = splitWord n w := by
  induction n generalizing k with
  | zero => rfl
  | succ n ih =>
    have hk : k * 2 ^ (16 * (n + 1)) = k * 2 ^ 16 * 2 ^ (16 * n) := by ring
    have first : bits (w + k * 2 ^ 16 * 2 ^ (16 * n)) (16 * n) 16 = bits w (16 * n) 16 := by
      rw [bits, Nat.add_mul_div_right _ _ (by positivity)]
      apply BitVec.eq_of_toNat_eq
      rw [bits, BitVec.toNat_ofNat, BitVec.toNat_ofNat, Nat.add_mul_mod_self_right]
    rw [splitWord, splitWord, hk, ih, first]

/-- The parcels of a list's word are the list. -/
theorem splitWord_wordOf (ps : List Parcel) : splitWord ps.length (wordOf ps) = ps := by
  induction ps with
  | nil => rfl
  | cons p ps ih =>
    rw [List.length_cons, splitWord, wordOf, Nat.add_comm, splitWord_add_mul, ih, bits, Nat.add_mul_div_right _ _ (by positivity),
      Nat.div_eq_of_lt (wordOf_lt ps), Nat.zero_add, BitVec.ofNat_toNat, BitVec.setWidth_eq]

/-- A code image's parcels are those it was made of, and what follows them. -/
theorem parcels_codeBytes (ps : List Parcel) (rest : List Byte) : parcels (codeBytes ps ++ rest) = ps ++ parcels rest := by
  induction ps with
  | nil => rfl
  | cons p ps ih =>
    show BitVec.ofNat 16 ((bits p.toNat 8 8).toNat * 256 + (bits p.toNat 0 8).toNat) :: parcels (codeBytes ps ++ rest) = _
    rw [ih, List.cons_append]
    congr 1
    apply BitVec.eq_of_toNat_eq
    simp only [bits, BitVec.toNat_ofNat]
    omega

/-- `w` is a word of `n` parcels, whose first parcel announces as many (R52). -/
structure IsWord (n w : Nat) : Prop where
  lt    : w < 2 ^ (16 * n)
  count : parcelCount (w / 2 ^ (16 * (n - 1))) = n

theorem parcelCount_pos (p : Nat) : 0 < parcelCount p := by
  unfold parcelCount
  split_ifs <;> omega

/-- A word's parcels decode as the word, whatever follows them. -/
theorem decode_splitWord {n w : Nat} (h : IsWord n w) (rest : List Byte) :
    decode (codeBytes (splitWord n w) ++ rest) = decodeWord n w := by
  obtain ⟨hlt, hcount⟩ := h
  obtain ⟨m, rfl⟩ : ∃ m, n = m + 1 := Nat.exists_eq_add_one.2 (hcount ▸ parcelCount_pos _)
  have first : (bits w (16 * m) 16).toNat = w / 2 ^ (16 * m) := by
    rw [bits, BitVec.toNat_ofNat, Nat.mod_eq_of_lt]
    exact Nat.div_lt_of_lt_mul (by rwa [← pow_add])
  have whole : (splitWord (m + 1) w ++ parcels rest).take (m + 1) = splitWord (m + 1) w := by
    rw [List.take_append_of_le_length (by simp), List.take_of_length_le (by simp)]
  rw [Nat.add_sub_cancel] at hcount
  rw [decode, parcels_codeBytes]
  show (let k := parcelCount (bits w (16 * m) 16).toNat
    if (splitWord (m + 1) w ++ parcels rest).length < k then .error .truncated
    else decodeWord k (wordOf ((splitWord (m + 1) w ++ parcels rest).take k))) = _
  simp only [first, hcount]
  rw [whole, wordOf_splitWord, Nat.mod_eq_of_lt hlt, if_neg (by simp; omega)]

/-- What parcels decode to is what a word decodes to whose parcels they begin with. -/
theorem word_of_decode {ps : List Parcel} {i : Instr} (h : decode (codeBytes ps) = .ok i) :
    ∃ n w, IsWord n w ∧ decodeWord n w = .ok i ∧ splitWord n w <+: ps := by
  have hps : parcels (codeBytes ps) = ps := by simpa [parcels] using parcels_codeBytes ps []
  rw [decode, hps] at h
  cases ps with
  | nil => exact absurd h (by simp [decodeParcels])
  | cons p r =>
    set n := parcelCount p.toNat with hn
    simp only [decodeParcels, ← hn] at h
    split at h
    · exact absurd h (by simp)
    next hlen =>
      have hpos : 0 < n := parcelCount_pos _
      obtain ⟨m, hm⟩ : ∃ m, n = m + 1 := Nat.exists_eq_add_one.2 hpos
      have htake : (p :: r).take n = p :: r.take m := by rw [hm, List.take_succ_cons]
      have hl : ((p :: r).take n).length = n := List.length_take_of_le (not_lt.1 hlen)
      have hlm : (r.take m).length = m := by
        rw [htake, List.length_cons, hm] at hl
        omega
      refine ⟨n, wordOf ((p :: r).take n), ⟨?_, ?_⟩, h, ?_⟩
      · simpa only [hl] using wordOf_lt ((p :: r).take n)
      · rw [htake, wordOf, hlm, hm, Nat.add_sub_cancel, Nat.add_comm, Nat.add_mul_div_right _ _ (by positivity),
          Nat.div_eq_of_lt (by simpa only [hlm] using wordOf_lt (r.take m)), Nat.zero_add, ← hm, hn]
      · have := splitWord_wordOf ((p :: r).take n)
        rw [hl] at this
        rw [this]
        exact List.take_prefix n _

end Sys2Proof
end

section
/-! SUPPORT. A word as its fields, highest first: what each form puts in each, and that a word is what its fields make of it (R53 to R62,
R66, R70). -/

-- One proof after another: the whole text has little memory to spare.
set_option Elab.async false

namespace Sys2Proof

@[simp] theorem toNat_bits (w lo n : Nat) : (bits w lo n).toNat = field w lo n := by
  rw [bits, BitVec.toNat_ofNat, field]

theorem toNat_bitAt (w k : Nat) : (bitAt w k).toNat = field w k 1 := by
  rw [bitAt, field, pow_one]
  rcases Nat.mod_two_eq_zero_or_one (w / 2 ^ k) with h | h <;> simp [h]

theorem bits_eq {w lo n : Nat} {x : BitVec n} (h : field w lo n = x.toNat) : bits w lo n = x :=
  BitVec.eq_of_toNat_eq (by rw [toNat_bits, h])

theorem bitAt_eq {w k : Nat} {b : Bool} (h : field w k 1 = b.toNat) : bitAt w k = b := by
  rw [← toNat_bitAt] at h
  cases hw : bitAt w k <;> cases b <;> simp_all

/-! ### Fields and the word they make -/

/-- The word of fields of given widths and values, highest first. -/
def pack : List Nat → List Nat → Nat
  | _ :: ns, v :: vs => v * 2 ^ ns.sum + pack ns vs
  | _, _ => 0

/-- The values of a word's fields of given widths, highest first. -/
def unpack : List Nat → Nat → List Nat
  | [], _ => []
  | n :: ns, w => field w ns.sum n :: unpack ns w

/-- Each value fits its field. -/
def Fits (ns vs : List Nat) : Prop := List.Forall₂ (fun n v => v < 2 ^ n) ns vs

theorem pack_lt {ns vs : List Nat} (h : Fits ns vs) : pack ns vs < 2 ^ ns.sum := by
  induction h with
  | nil => exact Nat.one_pos
  | @cons n v ns vs hv hvs ih =>
    rw [pack, List.sum_cons, pow_add]
    calc v * 2 ^ ns.sum + pack ns vs < v * 2 ^ ns.sum + 2 ^ ns.sum := Nat.add_lt_add_left ih _
      _ = (v + 1) * 2 ^ ns.sum := (Nat.succ_mul ..).symm
      _ ≤ 2 ^ n * 2 ^ ns.sum := Nat.mul_le_mul_right _ hv

/-- Fields do not see what lies above them. -/
theorem unpack_add_mul (ns : List Nat) (w k : Nat) : unpack ns (w + k * 2 ^ ns.sum) = unpack ns w := by
  induction ns generalizing k with
  | nil => rfl
  | cons n ns ih =>
    have hk : k * 2 ^ (n :: ns).sum = k * 2 ^ n * 2 ^ ns.sum := by
      rw [List.sum_cons, pow_add, mul_assoc]
    rw [unpack, unpack, hk, ih, field, field, Nat.add_mul_div_right _ _ (by positivity), Nat.add_mul_mod_self_right]

/-- The fields of a word that fields make are they. -/
theorem unpack_pack {ns vs : List Nat} (h : Fits ns vs) : unpack ns (pack ns vs) = vs := by
  induction h with
  | nil => rfl
  | @cons n v ns vs hv hvs ih =>
    rw [unpack, pack, Nat.add_comm, unpack_add_mul, ih, field, Nat.add_mul_div_right _ _ (by positivity),
      Nat.div_eq_of_lt (pack_lt hvs), Nat.zero_add, Nat.mod_eq_of_lt hv]

/-- A word's fields make as much of it as they cover. -/
theorem pack_unpack (ns : List Nat) (w : Nat) : pack ns (unpack ns w) = w % 2 ^ ns.sum := by
  induction ns with
  | nil => rw [List.sum_nil, pow_zero, Nat.mod_one]; rfl
  | cons n ns ih =>
    rw [unpack, pack, ih, field, List.sum_cons, Nat.add_comm n, pow_add, Nat.mod_mul, Nat.add_comm, Nat.mul_comm (2 ^ ns.sum)]

/-- So a word that they cover is what they make. -/
theorem pack_of_unpack {ns vs : List Nat} {w : Nat} (hw : w < 2 ^ ns.sum) (h : unpack ns w = vs) : pack ns vs = w := by
  rw [← h, pack_unpack, Nat.mod_eq_of_lt hw]

/-- A field of two parts. -/
theorem field_add (w lo m n : Nat) : field w lo (m + n) = field w (lo + n) m * 2 ^ n + field w lo n := by
  rw [field, field, field, Nat.add_comm m, pow_add, Nat.mod_mul, pow_add, Nat.div_div_eq_div_mul, Nat.add_comm, Nat.mul_comm (2 ^ n)]

theorem field_zero_add (w m n : Nat) : field w 0 (m + n) = field w n m * 2 ^ n + field w 0 n := by
  rw [field_add, Nat.zero_add]

theorem field_lt (w lo n : Nat) : field w lo n < 2 ^ n := Nat.mod_lt _ (by positivity)

/-- A field of two parts is zero when both are. -/
theorem field_eq_zero (w lo m n : Nat) : field w lo (m + n) = 0 ↔ field w (lo + n) m = 0 ∧ field w lo n = 0 := by
  rw [field_add, Nat.add_eq_zero_iff, Nat.mul_eq_zero, or_iff_left (by positivity)]

/-! ### The forms: each adds its fields up, as `pack` does (R53, R55, R57, R60, R62, R66, R70) -/

theorem encC_eq (op : Nat) (d s : Reg) : encC op d s = pack [1, 5, 5, 5] [0, op, d.toNat, s.toNat] := by
  simp [encC, pack, Nat.add_assoc]

theorem encR_eq (op : Nat) (d a b : Reg) (fn : Nat) :
    encR op d a b fn = pack [2, 8, 5, 5, 5, 7] [2, op, d.toNat, a.toNat, b.toNat, fn] := by
  simp [encR, pack, Nat.add_assoc]

theorem encI_eq (op : Nat) (d a : Reg) (imm : Nat) : encI op d a imm = pack [2, 8, 5, 5, 12] [2, op, d.toNat, a.toNat, imm] := by
  simp [encI, pack, Nat.add_assoc]

theorem encS_eq (op : Nat) (d : Reg) (n : BitVec 17) : encS op d n = pack [2, 8, 5, 17] [2, op, d.toNat, n.toNat] := by
  simp [encS, pack, Nat.add_assoc]

theorem encH_eq (h : Header) :
    encH h = pack [4, 1, 1, 1, 2, 9, 14] [15, 0, h.rot.toNat, h.inter.toNat, h.csrc.toNat, h.count.toNat, h.len.toNat] := by
  simp [encH, pack, Nat.add_assoc]

theorem encV_eq (op : Nat) (f : VF) : encV op f = pack [4, 8, 7, 7, 8, 5, 1, 4, 4]
    [12, op, f.d.toNat, f.a.toNat, f.b.toNat, f.pred.toNat, f.inv.toNat, f.fmt.toNat, f.mod.toNat] := by
  simp [encV, pack, Nat.add_assoc]

theorem encL_eq (op : Nat) (f : LF) : encL op f = pack [4, 8, 5, 5, 10, 3, 8, 2, 1, 1, 1]
    [13, op, f.x.toNat, f.y.toNat, f.z.toNat, f.t.stream.toNat, f.t.mask.toNat, f.t.scope.toNat, f.t.acq.toNat, f.t.rel.toNat,
      f.t.hint.toNat] := by
  simp [encL, encTail, pack, Nat.add_assoc]

theorem encX_eq (op : Nat) (f : XF) : encX op f = pack [4, 8, 4, 2, 4, 2, 1, 1, 6, 8, 8, 4, 1, 1, 10]
    [14, op, f.c.toNat, f.cg.toNat, f.a.toNat, f.ag.toNat, f.tr.toNat, f.slot.toNat, f.m.toNat, f.k.toNat, f.n.toNat, f.fmt.toNat,
      f.neg.toNat, f.nacc.toNat, 0] := by
  simp [encX, pack, Nat.add_assoc]

/-! ### The words of each class (R52) -/

theorem isWord_one {w : Nat} (h : w < 2 ^ 15) : IsWord 1 w :=
  ⟨by omega, if_pos (by omega)⟩

theorem isWord_two {w : Nat} (h : w / 2 ^ 30 = 2 ∨ w / 2 ^ 28 = 15) : IsWord 2 w := by
  refine ⟨by omega, (if_neg (by omega)).trans ?_⟩
  rcases h with h | h
  · exact if_pos (by omega)
  · rw [if_neg (by omega), if_neg (by omega), if_neg (by omega)]

theorem isWord_three {w : Nat} (h : w / 2 ^ 44 = 12 ∨ w / 2 ^ 44 = 13) : IsWord 3 w := by
  refine ⟨by omega, (if_neg (by omega)).trans ?_⟩
  rw [if_neg (by omega), if_pos (by omega)]

theorem isWord_four {w : Nat} (h : w / 2 ^ 60 = 14) : IsWord 4 w := by
  refine ⟨by omega, (if_neg (by omega)).trans ?_⟩
  rw [if_neg (by omega), if_neg (by omega), if_pos (by omega)]

/-- A word is of one of the six classes of R52. -/
theorem isWord_cases {n w : Nat} (h : IsWord n w) :
    (n = 1 ∧ w < 2 ^ 15) ∨ (n = 2 ∧ w / 2 ^ 30 = 2) ∨ (n = 2 ∧ w / 2 ^ 28 = 15) ∨ (n = 3 ∧ w / 2 ^ 44 = 12) ∨
      (n = 3 ∧ w / 2 ^ 44 = 13) ∨ (n = 4 ∧ w / 2 ^ 60 = 14) := by
  obtain ⟨hlt, hcount⟩ := h
  unfold parcelCount at hcount
  split_ifs at hcount with h1 h2 h3 h4
  all_goals subst hcount
  · exact .inl ⟨rfl, by omega⟩
  · exact .inr (.inl ⟨rfl, by omega⟩)
  · rcases Nat.lt_or_ge (w / 2 ^ 44) 13 with h13 | h13
    · exact .inr (.inr (.inr (.inl ⟨rfl, by omega⟩)))
    · exact .inr (.inr (.inr (.inr (.inl ⟨rfl, by omega⟩))))
  · exact .inr (.inr (.inr (.inr (.inr ⟨rfl, by omega⟩))))
  · exact .inr (.inr (.inl ⟨rfl, by omega⟩))

end Sys2Proof
end

section
/-! SUPPORT. The fields of each word form: what the encoder puts in each, and that a word is what its fields make of it (R53 to R62, R66). -/

-- One proof after another: the whole text has little memory to spare.
set_option Elab.async false

namespace Sys2Proof

/-- The highest field is what the word holds above the others. -/
theorem pack_div {n v : Nat} {ns vs : List Nat} (h : Fits ns vs) : pack (n :: ns) (v :: vs) / 2 ^ ns.sum = v := by
  rw [pack, Nat.add_comm, Nat.add_mul_div_right _ _ (by positivity), Nat.div_eq_of_lt (pack_lt h), Nat.zero_add]

theorem unpack_pack_cons (n v : Nat) {ns vs : List Nat} (h : Fits ns vs) : unpack ns (pack (n :: ns) (v :: vs)) = vs := by
  rw [pack, Nat.add_comm, unpack_add_mul, unpack_pack h]

/-- A word that has the highest field, and the others of a list, is what they make. -/
theorem pack_of_div {n v : Nat} {ns vs : List Nat} {w : Nat} (hw : w / 2 ^ ns.sum = v) (h : unpack ns w = vs) :
    pack (n :: ns) (v :: vs) = w := by
  rw [← h, pack, pack_unpack, ← hw, Nat.mul_comm, Nat.div_add_mod]

theorem fits_bit (b : Bool) : b.toNat < 2 ^ 1 := Bool.toNat_lt b

/-! ### C16 (R53) -/

/-- A C16 word is what its fields make of it. -/
theorem encC_of_fields {w op : Nat} {d s : Reg} (hw : w < 2 ^ 15) (hop : field w 10 5 = op) (hd : field w 5 5 = d.toNat)
    (hs : field w 0 5 = s.toNat) : encC op d s = w := by
  rw [encC_eq]
  refine pack_of_div (Nat.div_eq_of_lt hw) ?_
  show [field w 10 5, field w 5 5, field w 0 5] = _
  rw [hop, hd, hs]

section
variable {op : Nat} (hop : op < 2 ^ 5) (d s : Reg)
include hop

theorem fitsC : Fits [5, 5, 5] [op, d.toNat, s.toNat] := .cons hop (.cons d.isLt (.cons s.isLt .nil))

theorem encC_fields : field (encC op d s) 10 5 = op ∧ bits (encC op d s) 5 5 = d ∧ bits (encC op d s) 0 5 = s := by
  have h : unpack [5, 5, 5] (encC op d s) = _ :=
    encC_eq op d s ▸ unpack_pack_cons 1 0 (fitsC hop d s)
  simp only [unpack, List.cons.injEq] at h
  obtain ⟨hop, hd, hs, -⟩ := h
  exact ⟨hop, bits_eq hd, bits_eq hs⟩

theorem isWord_encC : IsWord 1 (encC op d s) := by
  refine isWord_one ?_
  rw [encC_eq, pack, Nat.zero_mul, Nat.zero_add]
  exact pack_lt (fitsC hop d s)

end

/-! ### S32 (R55, R56) -/

section
variable {w op fn imm : Nat} {d a b : Reg} {n : BitVec 17} (hw : w / 2 ^ 30 = 2) (hop : field w 22 8 = op) (hd : field w 17 5 = d.toNat)
include hw hop hd

/-- An S32 word is what its fields make of it, in each form. -/
theorem encR_of_fields (ha : field w 12 5 = a.toNat) (hb : field w 7 5 = b.toNat) (hfn : field w 0 7 = fn) :
    encR op d a b fn = w := by
  rw [encR_eq]
  refine pack_of_div hw ?_
  show [field w 22 8, field w 17 5, field w 12 5, field w 7 5, field w 0 7] = _
  rw [hop, hd, ha, hb, hfn]

theorem encI_of_fields (ha : field w 12 5 = a.toNat) (himm : field w 0 12 = imm) : encI op d a imm = w := by
  rw [encI_eq]
  refine pack_of_div hw ?_
  show [field w 22 8, field w 17 5, field w 12 5, field w 0 12] = _
  rw [hop, hd, ha, himm]

theorem encS_of_fields (hn : field w 0 17 = n.toNat) : encS op d n = w := by
  rw [encS_eq]
  refine pack_of_div hw ?_
  show [field w 22 8, field w 17 5, field w 0 17] = _
  rw [hop, hd, hn]

end

section
variable {op : Nat} (hop : op < 2 ^ 8) (d a b : Reg)
include hop

section
variable {fn : Nat} (hfn : fn < 2 ^ 7)
include hfn

theorem fitsR : Fits [8, 5, 5, 5, 7] [op, d.toNat, a.toNat, b.toNat, fn] :=
  .cons hop (.cons d.isLt (.cons a.isLt (.cons b.isLt (.cons hfn .nil))))

theorem encR_class : encR op d a b fn / 2 ^ 30 = 2 := encR_eq op d a b fn ▸ pack_div (fitsR hop d a b hfn)

theorem encR_fields : field (encR op d a b fn) 22 8 = op ∧ field (encR op d a b fn) 17 5 = d.toNat ∧
    field (encR op d a b fn) 12 5 = a.toNat ∧ field (encR op d a b fn) 7 5 = b.toNat ∧ field (encR op d a b fn) 0 7 = fn := by
  have h : unpack [8, 5, 5, 5, 7] (encR op d a b fn) = _ := encR_eq op d a b fn ▸ unpack_pack_cons 2 2 (fitsR hop d a b hfn)
  simp only [unpack, List.cons.injEq, and_true] at h
  exact h

end

section
variable {imm : Nat} (himm : imm < 2 ^ 12)
include himm

theorem fitsI : Fits [8, 5, 5, 12] [op, d.toNat, a.toNat, imm] := .cons hop (.cons d.isLt (.cons a.isLt (.cons himm .nil)))

theorem encI_class : encI op d a imm / 2 ^ 30 = 2 := encI_eq op d a imm ▸ pack_div (fitsI hop d a himm)

theorem encI_fields : field (encI op d a imm) 22 8 = op ∧ field (encI op d a imm) 17 5 = d.toNat ∧
    field (encI op d a imm) 12 5 = a.toNat ∧ field (encI op d a imm) 0 12 = imm := by
  have h : unpack [8, 5, 5, 12] (encI op d a imm) = _ := encI_eq op d a imm ▸ unpack_pack_cons 2 2 (fitsI hop d a himm)
  simp only [unpack, List.cons.injEq, and_true] at h
  exact h

end

variable (n : BitVec 17)

theorem fitsS : Fits [8, 5, 17] [op, d.toNat, n.toNat] := .cons hop (.cons d.isLt (.cons n.isLt .nil))

theorem encS_class : encS op d n / 2 ^ 30 = 2 := encS_eq op d n ▸ pack_div (fitsS hop d n)

theorem encS_fields : field (encS op d n) 22 8 = op ∧ field (encS op d n) 17 5 = d.toNat ∧ field (encS op d n) 0 17 = n.toNat := by
  have h : unpack [8, 5, 17] (encS op d n) = _ := encS_eq op d n ▸ unpack_pack_cons 2 2 (fitsS hop d n)
  simp only [unpack, List.cons.injEq, and_true] at h
  exact h

end

/-! ### V48, L48 and X64 (R57, R60, R62) -/

section
variable {op : Nat} (hop : op < 2 ^ 8) (f : VF)
include hop

theorem fitsV : Fits [8, 7, 7, 8, 5, 1, 4, 4]
    [op, f.d.toNat, f.a.toNat, f.b.toNat, f.pred.toNat, f.inv.toNat, f.fmt.toNat, f.mod.toNat] :=
  .cons hop (.cons f.d.isLt (.cons f.a.isLt (.cons f.b.isLt (.cons f.pred.isLt (.cons (Bool.toNat_lt _) (.cons f.fmt.isLt
    (.cons f.mod.isLt .nil)))))))

theorem encV_class : encV op f / 2 ^ 44 = 12 := encV_eq op f ▸ pack_div (fitsV hop f)

theorem encV_fields : field (encV op f) 36 8 = op ∧ vecFields (encV op f) = f := by
  have h : unpack [8, 7, 7, 8, 5, 1, 4, 4] (encV op f) = _ := encV_eq op f ▸ unpack_pack_cons 4 12 (fitsV hop f)
  simp only [unpack, List.cons.injEq] at h
  obtain ⟨hop, hd, ha, hb, hpred, hinv, hfmt, hmod, -⟩ := h
  refine ⟨hop, ?_⟩
  show VF.mk .. = VF.mk ..
  exact VF.mk.injEq .. ▸ ⟨bits_eq hd, bits_eq ha, bits_eq hb, bits_eq hpred, bitAt_eq hinv, bits_eq hfmt, bits_eq hmod⟩

end

/-- A V48 word is what its fields make of it. -/
theorem encV_vecFields {w : Nat} (hw : w / 2 ^ 44 = 12) : encV (field w 36 8) (vecFields w) = w := by
  rw [encV_eq]
  refine pack_of_div hw ?_
  simp only [vecFields, toNat_bits, toNat_bitAt]
  rfl

section
variable {op : Nat} (hop : op < 2 ^ 8) (f : LF)
include hop

theorem fitsL : Fits [8, 5, 5, 10, 3, 8, 2, 1, 1, 1] [op, f.x.toNat, f.y.toNat, f.z.toNat, f.t.stream.toNat, f.t.mask.toNat,
    f.t.scope.toNat, f.t.acq.toNat, f.t.rel.toNat, f.t.hint.toNat] :=
  .cons hop (.cons f.x.isLt (.cons f.y.isLt (.cons f.z.isLt (.cons f.t.stream.isLt (.cons f.t.mask.isLt (.cons f.t.scope.isLt
    (.cons (Bool.toNat_lt _) (.cons (Bool.toNat_lt _) (.cons (Bool.toNat_lt _) .nil)))))))))

theorem encL_class : encL op f / 2 ^ 44 = 13 := encL_eq op f ▸ pack_div (fitsL hop f)

theorem encL_fields : field (encL op f) 36 8 = op ∧ accessFields (encL op f) = f := by
  have h : unpack [8, 5, 5, 10, 3, 8, 2, 1, 1, 1] (encL op f) = _ := encL_eq op f ▸ unpack_pack_cons 4 13 (fitsL hop f)
  simp only [unpack, List.cons.injEq] at h
  obtain ⟨hop, hx, hy, hz, hstream, hmask, hscope, hacq, hrel, hhint, -⟩ := h
  have ht : tailFields (encL op f) = f.t := by
    show Tail.mk .. = Tail.mk ..
    exact Tail.mk.injEq .. ▸ ⟨bits_eq hstream, bits_eq hmask, bits_eq hscope, bitAt_eq hacq, bitAt_eq hrel, bitAt_eq hhint⟩
  refine ⟨hop, ?_⟩
  show LF.mk .. = LF.mk ..
  exact LF.mk.injEq .. ▸ ⟨bits_eq hx, bits_eq hy, bits_eq hz, ht⟩

end

/-- An L48 word is what its fields make of it. -/
theorem encL_accessFields {w : Nat} (hw : w / 2 ^ 44 = 13) : encL (field w 36 8) (accessFields w) = w := by
  rw [encL_eq]
  refine pack_of_div hw ?_
  simp only [accessFields, tailFields, toNat_bits, toNat_bitAt]
  rfl

section
variable {op : Nat} (hop : op < 2 ^ 8) (f : XF)
include hop

theorem fitsX : Fits [8, 4, 2, 4, 2, 1, 1, 6, 8, 8, 4, 1, 1, 10] [op, f.c.toNat, f.cg.toNat, f.a.toNat, f.ag.toNat, f.tr.toNat,
    f.slot.toNat, f.m.toNat, f.k.toNat, f.n.toNat, f.fmt.toNat, f.neg.toNat, f.nacc.toNat, 0] :=
  .cons hop (.cons f.c.isLt (.cons f.cg.isLt (.cons f.a.isLt (.cons f.ag.isLt (.cons (Bool.toNat_lt _) (.cons (Bool.toNat_lt _)
    (.cons f.m.isLt (.cons f.k.isLt (.cons f.n.isLt (.cons f.fmt.isLt (.cons (Bool.toNat_lt _) (.cons (Bool.toNat_lt _)
      (.cons (by decide) .nil)))))))))))))

theorem encX_class : encX op f / 2 ^ 60 = 14 := encX_eq op f ▸ pack_div (fitsX hop f)

theorem encX_fields : field (encX op f) 52 8 = op ∧ field (encX op f) 0 10 = 0 ∧ matFields (encX op f) = f := by
  have h : unpack [8, 4, 2, 4, 2, 1, 1, 6, 8, 8, 4, 1, 1, 10] (encX op f) = _ := encX_eq op f ▸ unpack_pack_cons 4 14 (fitsX hop f)
  simp only [unpack, List.cons.injEq] at h
  obtain ⟨hop, hc, hcg, ha, hag, htr, hslot, hm, hk, hn, hfmt, hneg, hnacc, h0, -⟩ := h
  refine ⟨hop, h0, ?_⟩
  show XF.mk .. = XF.mk ..
  exact XF.mk.injEq .. ▸ ⟨bits_eq hc, bits_eq hcg, bits_eq ha, bits_eq hag, bitAt_eq htr, bitAt_eq hslot, bits_eq hm, bits_eq hk,
    bits_eq hn, bits_eq hfmt, bitAt_eq hneg, bitAt_eq hnacc⟩

end

/-- An X64 word whose low bits are zero is what its fields make of it. -/
theorem encX_matFields {w : Nat} (hw : w / 2 ^ 60 = 14) (h0 : field w 0 10 = 0) : encX (field w 52 8) (matFields w) = w := by
  rw [encX_eq]
  refine pack_of_div hw ?_
  simp [unpack, matFields, toNat_bitAt, h0]

end Sys2Proof
end

section
/-! SUPPORT. The decoder's rows and the encoder's are the same rows (R52 to R62, R66, R70). -/

-- One proof after another: the whole text has little memory to spare.
set_option Elab.async false

namespace Sys2Proof

/-! ### What decodes encodes back -/

/-- Whatever instruction a decoder answers, the encoder gives it the word `w` of `n` parcels. -/
def Encodes (n w : Nat) (r : Except Reject Instr) : Prop := ∀ i, r = .ok i → encodeWord i = some (n, w)

theorem encodes_error {n w : Nat} {e : Reject} : Encodes n w (.error e) := fun _ h => nomatch h

theorem encodes_ok {n w v : Nat} {i : Instr} (h : encodeWord i = some (n, v)) (hv : v = w) : Encodes n w (.ok i) := by
  intro _ hi
  cases hi
  rw [h, hv]

theorem encodes_ite {n w : Nat} {c : Prop} [Decidable c] {r : Except Reject Instr} {e : Reject} (h : c → Encodes n w r) :
    Encodes n w (if c then r else .error e) := by
  split
  · next hc => exact h hc
  · exact encodes_error

/-! ### C16 (R53): two registers, one of them, or none -/

section
variable {w op : Nat} (hw : w < 2 ^ 15) (hop : field w 10 5 = op)
include hw hop

theorem regsC_encodes {i : Reg → Reg → Instr} (hi : ∀ d s, encodeWord (i d s) = some (1, encC op d s)) :
    Encodes 1 w (.ok (i (bits w 5 5) (bits w 0 5))) :=
  encodes_ok (hi ..) (encC_of_fields hw hop (toNat_bits ..).symm (toNat_bits ..).symm)

theorem destC_encodes {i : Reg → Instr} (hi : ∀ d, encodeWord (i d) = some (1, encC op d 0)) :
    Encodes 1 w (if field w 0 5 = 0 then .ok (i (bits w 5 5)) else .error .field) :=
  encodes_ite fun h0 => encodes_ok (hi ..) (encC_of_fields hw hop (toNat_bits ..).symm h0)

theorem sourceC_encodes {i : Reg → Instr} (hi : ∀ s, encodeWord (i s) = some (1, encC op 0 s)) :
    Encodes 1 w (if field w 5 5 = 0 then .ok (i (bits w 0 5)) else .error .field) :=
  encodes_ite fun h0 => encodes_ok (hi ..) (encC_of_fields hw hop h0 (toNat_bits ..).symm)

theorem noneC_encodes {i : Instr} (hi : encodeWord i = some (1, encC op 0 0)) :
    Encodes 1 w (if field w 0 10 = 0 then .ok i else .error .field) := by
  refine encodes_ite fun h0 => encodes_ok (hi ..) ?_
  obtain ⟨hd, hs⟩ := (field_eq_zero w 0 5 5).1 h0
  exact encC_of_fields hw hop hd hs

end

/-- A C16 word decodes to what it encodes (R53). -/
theorem decodeC16_encodes {w : Nat} (hw : w < 2 ^ 15) : Encodes 1 w (decodeC16 w) := by
  unfold decodeC16
  generalize hop : field w 10 5 = op
  rcases Nat.lt_or_ge op 17 with h | h
  · interval_cases op
    · exact noneC_encodes hw hop rfl
    iterate 10 exact regsC_encodes hw hop fun _ _ => rfl
    iterate 2 exact noneC_encodes hw hop rfl
    iterate 2 exact destC_encodes hw hop fun _ => rfl
    · exact sourceC_encodes hw hop fun _ => rfl
    · exact destC_encodes hw hop fun _ => rfl
  · obtain ⟨n, rfl⟩ := Nat.exists_eq_add_of_le' h
    exact encodes_error

/-! ### S32 (R55): the forms, and the rows that leave fields of a form zero -/

section
variable {w op : Nat} (hw : w / 2 ^ 30 = 2) (hop : field w 22 8 = op)
include hw hop

theorem formR_encodes {i : Reg → Reg → Reg → Instr} (hi : ∀ d a b, encodeWord (i d a b) = some (2, encR op d a b 0)) :
    Encodes 2 w (formR i w) :=
  encodes_ite fun h0 => encodes_ok (hi ..) (encR_of_fields hw hop (toNat_bits ..).symm (toNat_bits ..).symm (toNat_bits ..).symm h0)

theorem formR2_encodes {i : Reg → Reg → Instr} (hi : ∀ d a, encodeWord (i d a) = some (2, encR op d a 0 0)) :
    Encodes 2 w (formR2 i w) := by
  refine encodes_ite fun h0 => encodes_ok (hi ..) ?_
  obtain ⟨hb, hfn⟩ := (field_eq_zero w 0 5 7).1 h0
  exact encR_of_fields hw hop (toNat_bits ..).symm (toNat_bits ..).symm hb hfn

theorem formX_encodes {i : Reg → Reg → BitVec 6 → BitVec 6 → Instr}
    (hi : ∀ d a wd lsb, encodeWord (i d a wd lsb) = some (2, encI op d a (wd.toNat * 64 + lsb.toNat))) : Encodes 2 w (formX i w) :=
  encodes_ok (hi ..) (encI_of_fields hw hop (toNat_bits ..).symm (toNat_bits ..).symm
    (by rw [toNat_bits, toNat_bits]; exact field_zero_add w 6 6))

theorem formI_encodes {i : Reg → Reg → BitVec 12 → Instr} (hi : ∀ d a n, encodeWord (i d a n) = some (2, encI op d a n.toNat)) :
    Encodes 2 w (formI i w) :=
  encodes_ok (hi ..) (encI_of_fields hw hop (toNat_bits ..).symm (toNat_bits ..).symm (toNat_bits ..).symm)

theorem formSh_encodes {i : Reg → Reg → BitVec 6 → Instr} (hi : ∀ d a n, encodeWord (i d a n) = some (2, encI op d a n.toNat)) :
    Encodes 2 w (formSh i w) := by
  refine encodes_ite fun h0 => encodes_ok (hi ..) ?_
  have himm : field w 0 12 = (bits w 0 6).toNat := by
    rw [toNat_bits, field_zero_add w 6 6, h0, Nat.zero_mul, Nat.zero_add]
  exact encI_of_fields hw hop (toNat_bits ..).symm (toNat_bits ..).symm himm

theorem formS_encodes {i : Reg → BitVec 17 → Instr} (hi : ∀ d n, encodeWord (i d n) = some (2, encS op d n)) :
    Encodes 2 w (formS i w) :=
  encodes_ok (hi ..) (encS_of_fields hw hop (toNat_bits ..).symm (toNat_bits ..).symm)

theorem lea_encodes {i : Reg → Reg → Reg → BitVec 3 → Instr}
    (hi : ∀ d a b sh, encodeWord (i d a b sh) = some (2, encR op d a b sh.toNat)) :
    Encodes 2 w (if field w 3 4 = 0 then .ok (i (bits w 17 5) (bits w 12 5) (bits w 7 5) (bits w 0 3)) else .error .field) := by
  refine encodes_ite fun h0 => encodes_ok (hi ..) ?_
  have hfn : field w 0 7 = (bits w 0 3).toNat := by
    rw [toNat_bits, field_zero_add w 4 3, h0, Nat.zero_mul, Nat.zero_add]
  exact encR_of_fields hw hop (toNat_bits ..).symm (toNat_bits ..).symm (toNat_bits ..).symm hfn

/-- `MOVI` in its two forms (R65). -/
theorem formMovi_encodes {i : Reg → BitVec 11 → Instr} {ic : Reg → BitVec 6 → Instr}
    (hi : ∀ d n, encodeWord (i d n) = some (2, encI op d 0 n.toNat))
    (hic : ∀ d n, encodeWord (ic d n) = some (2, encI op d 0 (2048 + n.toNat))) :
    Encodes 2 w (if field w 12 5 = 0 then
      if bitAt w 11 then if field w 6 5 = 0 then .ok (ic (bits w 17 5) (bits w 0 6)) else .error .field
      else .ok (i (bits w 17 5) (bits w 0 11)) else .error .field) := by
  have himm : field w 0 12 = (bitAt w 11).toNat * 2048 + field w 0 11 := by
    rw [toNat_bitAt]
    exact field_zero_add w 1 11
  refine encodes_ite fun ha => ?_
  split
  · next h11 =>
    refine encodes_ite fun h0 => encodes_ok (hic ..) (encI_of_fields hw hop (toNat_bits ..).symm ha ?_)
    have hlow : field w 0 11 = field w 6 5 * 64 + field w 0 6 := field_zero_add w 5 6
    rw [himm, h11, hlow, h0, toNat_bits, Nat.zero_mul, Nat.zero_add]
    rfl
  · next h11 =>
    rw [Bool.eq_false_iff.2 h11, Bool.toNat_false, Nat.zero_mul, Nat.zero_add, ← toNat_bits] at himm
    exact encodes_ok (hi ..) (encI_of_fields hw hop (toNat_bits ..).symm ha himm)

theorem br_encodes {i : BitVec 12 → Instr} (hi : ∀ n, encodeWord (i n) = some (2, encI op 0 0 n.toNat)) :
    Encodes 2 w (if field w 12 10 = 0 then .ok (i (bits w 0 12)) else .error .field) := by
  refine encodes_ite fun h0 => encodes_ok (hi ..) ?_
  obtain ⟨hd, ha⟩ := (field_eq_zero w 12 5 5).1 h0
  exact encI_of_fields hw hop hd ha (toNat_bits ..).symm

theorem brx_encodes {i : Reg → Instr} (hi : ∀ a, encodeWord (i a) = some (2, encI op 0 a 0)) :
    Encodes 2 w (if field w 17 5 = 0 ∧ field w 0 12 = 0 then .ok (i (bits w 12 5)) else .error .field) :=
  encodes_ite fun h => encodes_ok (hi ..) (encI_of_fields hw hop h.1 (toNat_bits ..).symm h.2)

theorem skip_encodes {i : Reg → BitVec 12 → Instr} (hi : ∀ a n, encodeWord (i a n) = some (2, encI op a 0 n.toNat)) :
    Encodes 2 w (if field w 12 5 = 0 then .ok (i (bits w 17 5) (bits w 0 12)) else .error .field) :=
  encodes_ite fun h0 => encodes_ok (hi ..) (encI_of_fields hw hop (toNat_bits ..).symm h0 (toNat_bits ..).symm)

theorem trap_encodes {i : BitVec 17 → Instr} (hi : ∀ n, encodeWord (i n) = some (2, encS op 0 n)) :
    Encodes 2 w (if field w 17 5 = 0 then .ok (i (bits w 0 17)) else .error .field) :=
  encodes_ite fun h0 => encodes_ok (hi ..) (encS_of_fields hw hop h0 (toNat_bits ..).symm)

theorem time_encodes {i : Reg → Instr} (hi : ∀ d, encodeWord (i d) = some (2, encS op d 0)) :
    Encodes 2 w (if field w 0 17 = 0 then .ok (i (bits w 17 5)) else .error .field) :=
  encodes_ite fun h0 => encodes_ok (hi ..) (encS_of_fields hw hop (toNat_bits ..).symm h0)

theorem noneS_encodes {i : Instr} (hi : encodeWord i = some (2, encS op 0 0)) :
    Encodes 2 w (if field w 0 22 = 0 then .ok i else .error .field) := by
  refine encodes_ite fun h0 => encodes_ok (hi ..) ?_
  obtain ⟨hd, hn⟩ := (field_eq_zero w 0 5 17).1 h0
  exact encS_of_fields hw hop hd hn

end

/-- An S32 word decodes to what it encodes (R56). -/
theorem decodeS32_encodes {w : Nat} (hw : w / 2 ^ 30 = 2) : Encodes 2 w (decodeS32 w) := by
  unfold decodeS32
  generalize hop : field w 22 8 = op
  rcases Nat.lt_or_ge op 0x68 with h | h
  · interval_cases op
    iterate 25 exact formR_encodes hw hop fun _ _ _ => rfl
    iterate 4 exact formR2_encodes hw hop fun _ _ => rfl
    iterate 3 exact formX_encodes hw hop fun _ _ _ _ => rfl
    · exact lea_encodes hw hop fun _ _ _ _ => rfl
    iterate 4 exact formI_encodes hw hop fun _ _ _ => rfl
    iterate 3 exact formSh_encodes hw hop fun _ _ _ => rfl
    · exact formMovi_encodes hw hop (fun _ _ => rfl) fun _ _ => rfl
    iterate 2 exact formI_encodes hw hop fun _ _ _ => rfl
    iterate 21 exact encodes_error
    iterate 6 exact formI_encodes hw hop fun _ _ _ => rfl
    iterate 2 exact br_encodes hw hop fun _ => rfl
    · exact brx_encodes hw hop fun _ => rfl
    iterate 2 exact skip_encodes hw hop fun _ _ => rfl
    iterate 21 exact encodes_error
    · exact trap_encodes hw hop fun _ => rfl
    · exact noneS_encodes hw hop rfl
    iterate 3 exact formS_encodes hw hop fun _ _ => rfl
    · exact time_encodes hw hop fun _ => rfl
    · exact noneS_encodes hw hop rfl
    · exact formS_encodes hw hop fun _ _ => rfl
  · obtain ⟨n, rfl⟩ := Nat.exists_eq_add_of_le' h
    exact encodes_error

/-- A header decodes to what it encodes (R66, R70). -/
theorem decodeHeader_encodes {w : Nat} (hw : w / 2 ^ 28 = 15) : Encodes 2 w (decodeHeader w) := by
  unfold decodeHeader
  split
  · next h27 =>
    refine encodes_ite fun ⟨h26, h0⟩ => encodes_ok rfl ?_
    have hpack : pack [4, 1, 1, 12, 14] [15, 1, 0, 0, (bits w 0 14).toNat] = w := by
      refine pack_of_div hw ?_
      show [field w 27 1, field w 26 1, field w 14 12, field w 0 14] = _
      rw [← toNat_bitAt, ← toNat_bitAt, h27, h26, h0, toNat_bits]
      rfl
    refine Eq.trans ?_ hpack
    simp [pack, ← Nat.add_assoc]
  · next h27 =>
    refine encodes_ok rfl ?_
    rw [encH_eq]
    refine pack_of_div hw ?_
    show [field w 27 1, field w 26 1, field w 25 1, field w 23 2, field w 14 9, field w 0 14] = _
    rw [← toNat_bitAt w 27, Bool.eq_false_iff.2 h27]
    simp only [toNat_bits, toNat_bitAt]
    rfl

/-! ### The rows of V48, L48 and X64 (R58, R61, R62) -/

theorem encodeWord_of_vecRow {op : Nat} {f : VF} {i : Instr} (h : vecRow op f = some i) : encodeWord i = some (3, encV op f) := by
  rcases Nat.lt_or_ge op 0x44 with hop | hop
  · interval_cases op <;> cases h <;> rfl
  · obtain ⟨n, rfl⟩ := Nat.exists_eq_add_of_le' hop
    cases h

theorem encodeWord_of_accessRow {op : Nat} {f : LF} {i : Instr} (h : accessRow op f = some i) : encodeWord i = some (3, encL op f) := by
  rcases Nat.lt_or_ge op 0x64 with hop | hop
  · interval_cases op <;> cases h <;> rfl
  · obtain ⟨n, rfl⟩ := Nat.exists_eq_add_of_le' hop
    cases h

theorem encodeWord_of_matRow {op : Nat} {f : XF} {i : Instr} (h : matRow op f = some i) : encodeWord i = some (4, encX op f) := by
  rcases Nat.lt_or_ge op 6 with hop | hop
  · interval_cases op <;> cases h <;> rfl
  · obtain ⟨n, rfl⟩ := Nat.exists_eq_add_of_le' hop
    cases h

theorem checked_encodes {n w : Nat} {i : Instr} (h : encodeWord i = some (n, w)) : Encodes n w (checked i) :=
  encodes_ite fun _ => encodes_ok h rfl

theorem decodeV48_encodes {w : Nat} (hw : w / 2 ^ 44 = 12) : Encodes 3 w (decodeV48 w) := by
  unfold decodeV48
  split
  · next hrow => exact checked_encodes (encV_vecFields hw ▸ encodeWord_of_vecRow hrow)
  · exact encodes_error

theorem decodeL48_encodes {w : Nat} (hw : w / 2 ^ 44 = 13) : Encodes 3 w (decodeL48 w) := by
  unfold decodeL48
  split
  · next hrow => exact checked_encodes (encL_accessFields hw ▸ encodeWord_of_accessRow hrow)
  · exact encodes_error

theorem decodeX64_encodes {w : Nat} (hw : w / 2 ^ 60 = 14) : Encodes 4 w (decodeX64 w) := by
  unfold decodeX64
  split
  · next hrow => exact encodes_ite fun h0 => checked_encodes (encX_matFields hw h0 ▸ encodeWord_of_matRow hrow)
  · exact encodes_error

/-! ### The decoder of each class (R52) -/

section
variable {w : Nat}

theorem decodeWord_s32 (hw : w / 2 ^ 30 = 2) : decodeWord 2 w = decodeS32 w :=
  if_neg (by unfold field; omega)

theorem decodeWord_header (hw : w / 2 ^ 28 = 15) : decodeWord 2 w = decodeHeader w :=
  if_pos (by unfold field; omega)

theorem decodeWord_v48 (hw : w / 2 ^ 44 = 12) : decodeWord 3 w = decodeV48 w :=
  if_pos (by unfold field; omega)

theorem decodeWord_l48 (hw : w / 2 ^ 44 = 13) : decodeWord 3 w = decodeL48 w :=
  if_neg (by unfold field; omega)

theorem decodeWord_x64 (w : Nat) : decodeWord 4 w = decodeX64 w := rfl

end

/-- A word of any class decodes to what it encodes. -/
theorem decodeWord_encodes {n w : Nat} (h : IsWord n w) : Encodes n w (decodeWord n w) := by
  rcases isWord_cases h with ⟨rfl, hw⟩ | ⟨rfl, hw⟩ | ⟨rfl, hw⟩ | ⟨rfl, hw⟩ | ⟨rfl, hw⟩ | ⟨rfl, hw⟩
  · exact decodeC16_encodes hw
  · exact decodeWord_s32 hw ▸ decodeS32_encodes hw
  · exact decodeWord_header hw ▸ decodeHeader_encodes hw
  · exact decodeWord_v48 hw ▸ decodeV48_encodes hw
  · exact decodeWord_l48 hw ▸ decodeL48_encodes hw
  · exact decodeX64_encodes hw

end Sys2Proof
end

section
/-! SUPPORT. What the encoder gives is read back, form by form; then the headline statement: decoding and encoding are each other's
inverses (R52 to R62, R66, R70). -/

-- One proof after another: the whole text has little memory to spare.
set_option Elab.async false

namespace Sys2Proof

/-- `w` is a word of `n` parcels, and decodes to the instruction. -/
def Decodes (i : Instr) (n w : Nat) : Prop := IsWord n w ∧ decodeWord n w = .ok i

/-- The encoder's answer in the shape of a form, for the lemma on that form. -/
theorem decodes_of_some {i : Instr} {n n' w w' : Nat} (h : some (n', w') = some (n, w)) (hd : w' = w → Decodes i n' w) :
    Decodes i n w := by
  cases h
  exact hd rfl

/-! ### C16 (R53) -/

section
variable {w op : Nat} {d s : Reg} (hop : op < 32) (hw : encC op d s = w)
include hop hw

theorem decodes_regsC {i : Reg → Reg → Instr} (row : field w 10 5 = op → decodeC16 w = .ok (i (bits w 5 5) (bits w 0 5))) :
    Decodes (i d s) 1 w := by
  subst hw
  obtain ⟨hop', hd, hs⟩ := encC_fields hop d s
  rw [hd, hs] at row
  exact ⟨isWord_encC hop d s, row hop'⟩

theorem decodes_destC (hs0 : s = 0) {i : Reg → Instr}
    (row : field w 10 5 = op → decodeC16 w = if field w 0 5 = 0 then .ok (i (bits w 5 5)) else .error .field) : Decodes (i d) 1 w := by
  subst hw hs0
  obtain ⟨hop', hd, hs⟩ := encC_fields hop d 0
  rw [hd, if_pos (by rw [← toNat_bits, hs]; rfl)] at row
  exact ⟨isWord_encC hop d 0, row hop'⟩

theorem decodes_sourceC (hd0 : d = 0) {i : Reg → Instr}
    (row : field w 10 5 = op → decodeC16 w = if field w 5 5 = 0 then .ok (i (bits w 0 5)) else .error .field) : Decodes (i s) 1 w := by
  subst hw hd0
  obtain ⟨hop', hd, hs⟩ := encC_fields hop 0 s
  rw [hs, if_pos (by rw [← toNat_bits, hd]; rfl)] at row
  exact ⟨isWord_encC hop 0 s, row hop'⟩

theorem decodes_noneC (hd0 : d = 0) (hs0 : s = 0) {i : Instr}
    (row : field w 10 5 = op → decodeC16 w = if field w 0 10 = 0 then .ok i else .error .field) : Decodes i 1 w := by
  subst hw hd0 hs0
  obtain ⟨hop', hd, hs⟩ := encC_fields hop 0 0
  rw [if_pos ((field_eq_zero _ 0 5 5).2 ⟨by rw [← toNat_bits, hd]; rfl, by rw [← toNat_bits, hs]; rfl⟩)] at row
  exact ⟨isWord_encC hop 0 0, row hop'⟩

end

/-! ### S32 (R55) -/

theorem decodes_s32 {i : Instr} {w : Nat} (hw : w / 2 ^ 30 = 2) (h : decodeS32 w = .ok i) : Decodes i 2 w :=
  ⟨isWord_two (.inl hw), (decodeWord_s32 hw).trans h⟩

section
variable {w op fn : Nat} {d a b : Reg} (hop : op < 256) (hw : encR op d a b fn = w)
include hop hw

theorem decodes_formR (hfn0 : fn = 0) {i : Reg → Reg → Reg → Instr} (row : field w 22 8 = op → decodeS32 w = formR i w) :
    Decodes (i d a b) 2 w := by
  subst hw hfn0
  obtain ⟨hop', hd, ha, hb, hfn⟩ := encR_fields hop d a b (fn := 0) (by decide)
  refine decodes_s32 (encR_class hop d a b (by decide)) ?_
  rw [row hop', formR, if_pos hfn, bits_eq hd, bits_eq ha, bits_eq hb]

theorem decodes_formR2 (hb0 : b = 0) (hfn0 : fn = 0) {i : Reg → Reg → Instr} (row : field w 22 8 = op → decodeS32 w = formR2 i w) :
    Decodes (i d a) 2 w := by
  subst hw hb0 hfn0
  obtain ⟨hop', hd, ha, hb, hfn⟩ := encR_fields hop d a 0 (fn := 0) (by decide)
  refine decodes_s32 (encR_class hop d a 0 (by decide)) ?_
  rw [row hop', formR2, if_pos ((field_eq_zero _ 0 5 7).2 ⟨hb, hfn⟩), bits_eq hd, bits_eq ha]

theorem decodes_lea {sh : BitVec 3} (hsh : fn = sh.toNat) {i : Reg → Reg → Reg → BitVec 3 → Instr}
    (row : field w 22 8 = op → decodeS32 w =
      if field w 3 4 = 0 then .ok (i (bits w 17 5) (bits w 12 5) (bits w 7 5) (bits w 0 3)) else .error .field) :
    Decodes (i d a b sh) 2 w := by
  subst hw hsh
  have hlt : sh.toNat < 2 ^ 7 := by omega
  obtain ⟨hop', hd, ha, hb, hfn⟩ := encR_fields hop d a b hlt
  have hparts := (field_zero_add _ 4 3).symm.trans hfn
  have hlow := field_lt (encR op d a b sh.toNat) 0 3
  refine decodes_s32 (encR_class hop d a b hlt) ?_
  rw [row hop', if_pos (by omega), bits_eq hd, bits_eq ha, bits_eq hb, bits_eq (x := sh) (by omega)]

end

section
variable {w op imm : Nat} {d a : Reg} (hop : op < 256) (hw : encI op d a imm = w)
include hop hw

theorem decodes_formX {wd lsb : BitVec 6} (himm : imm = wd.toNat * 64 + lsb.toNat) {i : Reg → Reg → BitVec 6 → BitVec 6 → Instr}
    (row : field w 22 8 = op → decodeS32 w = formX i w) : Decodes (i d a wd lsb) 2 w := by
  subst hw himm
  have hlt : wd.toNat * 64 + lsb.toNat < 2 ^ 12 := by omega
  obtain ⟨hop', hd, ha, himm⟩ := encI_fields hop d a hlt
  have hparts := (field_zero_add _ 6 6).symm.trans himm
  have hlow := field_lt (encI op d a (wd.toNat * 64 + lsb.toNat)) 0 6
  refine decodes_s32 (encI_class hop d a hlt) ?_
  rw [row hop', formX, bits_eq hd, bits_eq ha, bits_eq (x := wd) (by omega), bits_eq (x := lsb) (by omega)]

theorem decodes_formI {n : BitVec 12} (himm : imm = n.toNat) {i : Reg → Reg → BitVec 12 → Instr}
    (row : field w 22 8 = op → decodeS32 w = formI i w) : Decodes (i d a n) 2 w := by
  subst hw himm
  obtain ⟨hop', hd, ha, himm⟩ := encI_fields hop d a n.isLt
  refine decodes_s32 (encI_class hop d a n.isLt) ?_
  rw [row hop', formI, bits_eq hd, bits_eq ha, bits_eq himm]

theorem decodes_formSh {n : BitVec 6} (himm : imm = n.toNat) {i : Reg → Reg → BitVec 6 → Instr}
    (row : field w 22 8 = op → decodeS32 w = formSh i w) : Decodes (i d a n) 2 w := by
  subst hw himm
  have hlt : n.toNat < 2 ^ 12 := by omega
  obtain ⟨hop', hd, ha, himm⟩ := encI_fields hop d a hlt
  have hparts := (field_zero_add _ 6 6).symm.trans himm
  have hlow := field_lt (encI op d a n.toNat) 0 6
  refine decodes_s32 (encI_class hop d a hlt) ?_
  rw [row hop', formSh, if_pos (by omega), bits_eq hd, bits_eq ha, bits_eq (x := n) (by omega)]

theorem decodes_br (hd0 : d = 0) (ha0 : a = 0) {n : BitVec 12} (himm : imm = n.toNat) {i : BitVec 12 → Instr}
    (row : field w 22 8 = op → decodeS32 w = if field w 12 10 = 0 then .ok (i (bits w 0 12)) else .error .field) :
    Decodes (i n) 2 w := by
  subst hw hd0 ha0 himm
  obtain ⟨hop', hd, ha, himm⟩ := encI_fields hop 0 0 n.isLt
  refine decodes_s32 (encI_class hop 0 0 n.isLt) ?_
  rw [row hop', if_pos ((field_eq_zero _ 12 5 5).2 ⟨hd, ha⟩), bits_eq himm]

theorem decodes_brx (hd0 : d = 0) (himm0 : imm = 0) {i : Reg → Instr}
    (row : field w 22 8 = op → decodeS32 w = if field w 17 5 = 0 ∧ field w 0 12 = 0 then .ok (i (bits w 12 5)) else .error .field) :
    Decodes (i a) 2 w := by
  subst hw hd0 himm0
  obtain ⟨hop', hd, ha, himm⟩ := encI_fields hop 0 a (imm := 0) (by decide)
  refine decodes_s32 (encI_class hop 0 a (by decide)) ?_
  rw [row hop', if_pos ⟨hd, himm⟩, bits_eq ha]

theorem decodes_skip (ha0 : a = 0) {n : BitVec 12} (himm : imm = n.toNat) {i : Reg → BitVec 12 → Instr}
    (row : field w 22 8 = op → decodeS32 w = if field w 12 5 = 0 then .ok (i (bits w 17 5) (bits w 0 12)) else .error .field) :
    Decodes (i d n) 2 w := by
  subst hw ha0 himm
  obtain ⟨hop', hd, ha, himm⟩ := encI_fields hop d 0 n.isLt
  refine decodes_s32 (encI_class hop d 0 n.isLt) ?_
  rw [row hop', if_pos (show field _ 12 5 = 0 from ha), bits_eq hd, bits_eq himm]

theorem decodes_movi (ha0 : a = 0) {n : BitVec 11} (himm : imm = n.toNat) (row : field w 22 8 = op → decodeS32 w = formMovi w) :
    Decodes (.movi d n) 2 w := by
  subst hw ha0 himm
  have hlt : n.toNat < 2 ^ 12 := by omega
  obtain ⟨hop', hd, ha, himm⟩ := encI_fields hop d 0 hlt
  have hparts := (field_zero_add _ 1 11).symm.trans himm
  have hlow := field_lt (encI op d 0 n.toNat) 0 11
  have h11 : bitAt (encI op d 0 n.toNat) 11 = false := bitAt_eq (by rw [Bool.toNat_false]; omega)
  refine decodes_s32 (encI_class hop d 0 hlt) ?_
  rw [row hop', formMovi, if_pos (show field _ 12 5 = 0 from ha), if_neg (by rw [h11]; decide), bits_eq hd, bits_eq (x := n) (by omega)]

theorem decodes_moviIc (ha0 : a = 0) {n : BitVec 6} (himm : imm = 2048 + n.toNat) (row : field w 22 8 = op → decodeS32 w = formMovi w) :
    Decodes (.moviIc d n) 2 w := by
  subst hw ha0 himm
  have hlt : 2048 + n.toNat < 2 ^ 12 := by omega
  obtain ⟨hop', hd, ha, himm⟩ := encI_fields hop d 0 hlt
  have hparts := (field_zero_add _ 1 11).symm.trans himm
  have hparts' : field (encI op d 0 (2048 + n.toNat)) 0 11 = _ := field_zero_add _ 5 6
  have hlow := field_lt (encI op d 0 (2048 + n.toNat)) 0 11
  have hlow' := field_lt (encI op d 0 (2048 + n.toNat)) 0 6
  have h11 : bitAt (encI op d 0 (2048 + n.toNat)) 11 = true := bitAt_eq (by rw [Bool.toNat_true]; omega)
  refine decodes_s32 (encI_class hop d 0 hlt) ?_
  rw [row hop', formMovi, if_pos (show field _ 12 5 = 0 from ha), if_pos h11, if_pos (by omega), bits_eq hd, bits_eq (x := n) (by omega)]

end

section
variable {w op : Nat} {d : Reg} {n : BitVec 17} (hop : op < 256) (hw : encS op d n = w)
include hop hw

theorem decodes_formS {i : Reg → BitVec 17 → Instr} (row : field w 22 8 = op → decodeS32 w = formS i w) : Decodes (i d n) 2 w := by
  subst hw
  obtain ⟨hop', hd, hn⟩ := encS_fields hop d n
  refine decodes_s32 (encS_class hop d n) ?_
  rw [row hop', formS, bits_eq hd, bits_eq hn]

theorem decodes_trap (hd0 : d = 0) {i : BitVec 17 → Instr}
    (row : field w 22 8 = op → decodeS32 w = if field w 17 5 = 0 then .ok (i (bits w 0 17)) else .error .field) : Decodes (i n) 2 w := by
  subst hw hd0
  obtain ⟨hop', hd, hn⟩ := encS_fields hop 0 n
  refine decodes_s32 (encS_class hop 0 n) ?_
  rw [row hop', if_pos (show field _ 17 5 = 0 from hd), bits_eq hn]

theorem decodes_time (hn0 : n = 0) {i : Reg → Instr}
    (row : field w 22 8 = op → decodeS32 w = if field w 0 17 = 0 then .ok (i (bits w 17 5)) else .error .field) : Decodes (i d) 2 w := by
  subst hw hn0
  obtain ⟨hop', hd, hn⟩ := encS_fields hop d 0
  refine decodes_s32 (encS_class hop d 0) ?_
  rw [row hop', if_pos (show field _ 0 17 = 0 from hn), bits_eq hd]

theorem decodes_noneS (hd0 : d = 0) (hn0 : n = 0) {i : Instr}
    (row : field w 22 8 = op → decodeS32 w = if field w 0 22 = 0 then .ok i else .error .field) : Decodes i 2 w := by
  subst hw hd0 hn0
  obtain ⟨hop', hd, hn⟩ := encS_fields hop 0 0
  refine decodes_s32 (encS_class hop 0 0) ?_
  rw [row hop', if_pos ((field_eq_zero _ 0 5 17).2 ⟨hd, hn⟩)]

end

/-! ### Headers (R66, R70) -/

theorem decodes_header {i : Instr} {w : Nat} (hw : w / 2 ^ 28 = 15) (h : decodeHeader w = .ok i) : Decodes i 2 w :=
  ⟨isWord_two (.inr hw), (decodeWord_header hw).trans h⟩

theorem fitsH (h : Header) : Fits [1, 1, 1, 2, 9, 14] [0, h.rot.toNat, h.inter.toNat, h.csrc.toNat, h.count.toNat, h.len.toNat] :=
  .cons (by decide) (.cons (Bool.toNat_lt _) (.cons (Bool.toNat_lt _) (.cons h.csrc.isLt (.cons h.count.isLt (.cons h.len.isLt .nil)))))

theorem decodes_blockHeader (h : Header) : Decodes (.blockHeader h) 2 (encH h) := by
  refine decodes_header (encH_eq h ▸ pack_div (fitsH h)) ?_
  have hf : unpack [1, 1, 1, 2, 9, 14] (encH h) = _ := encH_eq h ▸ unpack_pack_cons 4 15 (fitsH h)
  simp only [unpack, List.cons.injEq] at hf
  obtain ⟨h27, hrot, hinter, hcsrc, hcount, hlen, -⟩ := hf
  have hkind : bitAt (encH h) 27 = false := bitAt_eq h27
  rw [decodeHeader, if_neg (by rw [hkind]; decide)]
  exact congrArg (fun h => Except.ok (Instr.blockHeader h))
    (Header.mk.injEq .. ▸ ⟨bitAt_eq hrot, bitAt_eq hinter, bits_eq hcsrc, bits_eq hcount, bits_eq hlen⟩)

theorem decodeHeader_data {w : Nat} {n : BitVec 14} (h27 : field w 27 1 = 1) (h26 : field w 26 1 = 0) (h0 : field w 14 12 = 0)
    (hn : field w 0 14 = n.toNat) : decodeHeader w = .ok (.dataHeader n) := by
  rw [decodeHeader, if_pos (bitAt_eq (b := true) h27), if_pos ⟨bitAt_eq (b := false) h26, h0⟩, bits_eq hn]

theorem decodes_dataHeader (n : BitVec 14) : Decodes (.dataHeader n) 2 (0xF8000000 + n.toNat) := by
  have fits : Fits [1, 1, 12, 14] [1, 0, 0, n.toNat] := .cons (by decide) (.cons (by decide) (.cons (by decide) (.cons n.isLt .nil)))
  have hpack : 0xF8000000 + n.toNat = pack [4, 1, 1, 12, 14] [15, 1, 0, 0, n.toNat] := by simp [pack, ← Nat.add_assoc]
  have hf := unpack_pack_cons 4 15 fits
  simp only [unpack, List.cons.injEq] at hf
  obtain ⟨h27, h26, h0, hn, -⟩ := hf
  exact hpack ▸ decodes_header (pack_div fits) (decodeHeader_data h27 h26 h0 hn)

/-! ### V48, L48 and X64 (R57, R60, R62) -/

section
variable {w op : Nat} {i : Instr} (hop : op < 256) (hwf : i.wf = true)
include hop hwf

theorem decodes_vector {f : VF} (hw : encV op f = w) (row : vecRow op f = some i) : Decodes i 3 w := by
  subst hw
  obtain ⟨hop', hf⟩ := encV_fields hop f
  refine ⟨isWord_three (.inl (encV_class hop f)), ?_⟩
  rw [decodeWord_v48 (encV_class hop f), decodeV48, hop', hf, row]
  exact if_pos hwf

theorem decodes_access {f : LF} (hw : encL op f = w) (row : accessRow op f = some i) : Decodes i 3 w := by
  subst hw
  obtain ⟨hop', hf⟩ := encL_fields hop f
  refine ⟨isWord_three (.inr (encL_class hop f)), ?_⟩
  rw [decodeWord_l48 (encL_class hop f), decodeL48, hop', hf, row]
  exact if_pos hwf

theorem decodes_matrix {f : XF} (hw : encX op f = w) (row : matRow op f = some i) : Decodes i 4 w := by
  subst hw
  obtain ⟨hop', h0, hf⟩ := encX_fields hop f
  refine ⟨isWord_four (encX_class hop f), ?_⟩
  rw [decodeWord_x64, decodeX64, hop', hf, row]
  exact (if_pos h0).trans (if_pos hwf)

end

/-! ### Every word is read back -/

/-- The encoder's word of a well-formed instruction decodes to it. -/
theorem decodes_encodeWord {i : Instr} {n w : Nat} (hwf : i.wf = true) (h : encodeWord i = some (n, w)) : Decodes i n w := by
  cases i
  case mov | addC | subC | andC | orC | xorC | movk | addk | shlk | shrk =>
    exact decodes_of_some h fun hw => decodes_regsC (by decide) hw fun hop => by rw [decodeC16, hop]; rfl
  case ypop | zpop | cget =>
    exact decodes_of_some h fun hw => decodes_destC (by decide) hw rfl fun hop => by rw [decodeC16, hop]; rfl
  case cput => exact decodes_of_some h fun hw => decodes_sourceC (by decide) hw rfl fun hop => by rw [decodeC16, hop]; rfl
  case nop | leave | ret =>
    exact decodes_of_some h fun hw => decodes_noneC (by decide) hw rfl rfl fun hop => by rw [decodeC16, hop]; rfl
  case add | sub | mul | mulhs | mulhu | divs | divu | rems | remu | and | or | xor | andn | shl | shr | sar | rot | min |
    max | minu | maxu | slt | sltu | seq | sel =>
    exact decodes_of_some h fun hw => decodes_formR (by decide) hw rfl fun hop => by rw [decodeS32, hop]; rfl
  case clz | ctz | popc | brev =>
    exact decodes_of_some h fun hw => decodes_formR2 (by decide) hw rfl rfl fun hop => by rw [decodeS32, hop]; rfl
  case lea => exact decodes_of_some h fun hw => decodes_lea (by decide) hw rfl fun hop => by rw [decodeS32, hop]; rfl
  case extu | exts | ins => exact decodes_of_some h fun hw => decodes_formX (by decide) hw rfl fun hop => by rw [decodeS32, hop]; rfl
  case addi | andi | ori | xori | movhi | slti | beq | bne | blt | bge | bltu | bgeu =>
    exact decodes_of_some h fun hw => decodes_formI (by decide) hw rfl fun hop => by rw [decodeS32, hop]; rfl
  case shli | shri | sari => exact decodes_of_some h fun hw => decodes_formSh (by decide) hw rfl fun hop => by rw [decodeS32, hop]; rfl
  case movi => exact decodes_of_some h fun hw => decodes_movi (by decide) hw rfl rfl fun hop => by rw [decodeS32, hop]; rfl
  case moviIc => exact decodes_of_some h fun hw => decodes_moviIc (by decide) hw rfl rfl fun hop => by rw [decodeS32, hop]; rfl
  case br | brl => exact decodes_of_some h fun hw => decodes_br (by decide) hw rfl rfl rfl fun hop => by rw [decodeS32, hop]; rfl
  case brx => exact decodes_of_some h fun hw => decodes_brx (by decide) hw rfl rfl fun hop => by rw [decodeS32, hop]; rfl
  case skipz | skipnz => exact decodes_of_some h fun hw => decodes_skip (by decide) hw rfl rfl fun hop => by rw [decodeS32, hop]; rfl
  case trap => exact decodes_of_some h fun hw => decodes_trap (by decide) hw rfl fun hop => by rw [decodeS32, hop]; rfl
  case time => exact decodes_of_some h fun hw => decodes_time (by decide) hw rfl fun hop => by rw [decodeS32, hop]; rfl
  case rte | endtask => exact decodes_of_some h fun hw => decodes_noneS (by decide) hw rfl rfl fun hop => by rw [decodeS32, hop]; rfl
  case mfs | mts | id | cfread => exact decodes_of_some h fun hw => decodes_formS (by decide) hw fun hop => by rw [decodeS32, hop]; rfl
  case blockHeader h' => exact decodes_of_some h fun hw => hw ▸ decodes_blockHeader h'
  case dataHeader len => exact decodes_of_some h fun hw => hw ▸ decodes_dataHeader len
  case vadd | vsub | vmul | vfma | vfms | vfnma | vmin | vmax | vabs | vneg | vdiv | vsqrt | vrsqrt | vrcp | vexp2 | vlog2 |
    viadd | visub | vimul | vimulh | vand | vor | vxor | vshl | vshr | vsar | vimin | vimax | vcmp | vicmp | pand | por |
    pxor | pandn | pnot | pset | vsum | vmov | vsel | vbcast | viota | vperm | vslide | vline | vputl | vreduce | vcvt |
    vpackbx | vunpkbx | vseed => exact decodes_of_some h fun hw => decodes_vector (by decide) hwf hw rfl
  case ldB | ldH | ldW | ldD | ldsB | ldsH | ldsW | stB | stH | stW | stD | ldq | ldqs | stq | stqs | ldx | ldtab | ldm | stm |
    ldb | xcopy | pref | probe | prels | pconv | plnew | plprot | pldrop | ksig | ktake | ktaket | aadd | afadd | amin | amax |
    aand | aor | axor | axchg | acas | ald | ast | abarm | abwait | evsig | evwait | evreset | launch | steal | tstate |
    bjoin | bwait | blog | msend | xgath | xscat | xnzs | xhot =>
    exact decodes_of_some h fun hw => decodes_access (by decide) hwf hw rfl
  case mma | mscale | mzero | mmov | mstat | mcheck => exact decodes_of_some h fun hw => decodes_matrix (by decide) hwf hw rfl
  all_goals cases h

/-- The instructions with a word are those the encoder gives one. -/
theorem hasWord_eq (i : Instr) : i.hasWord = (encodeWord i).isSome := by cases i <;> rfl

theorem encode_of_encodeWord {i : Instr} {n w : Nat} (h : encodeWord i = some (n, w)) : encode i = splitWord n w := by
  rw [encode, h]

/-- Settles O58: a word read back field by field, and the fields put together again. -/
theorem encodeDecode : Obligations.EncodeDecode := by
  unfold Obligations.EncodeDecode
  refine ⟨fun i rest hwf hword => ?_, fun ps i h => ?_⟩
  · rw [hasWord_eq, Option.isSome_iff_exists] at hword
    obtain ⟨⟨n, w⟩, hw⟩ := hword
    obtain ⟨hclass, hdec⟩ := decodes_encodeWord hwf hw
    rw [encode_of_encodeWord hw, decode_splitWord hclass, hdec]
  · obtain ⟨n, w, hclass, hdec, hprefix⟩ := word_of_decode h
    have hw : encodeWord i = some (n, w) := decodeWord_encodes hclass i hdec
    exact ⟨by rw [hasWord_eq, hw]; rfl, encode_of_encodeWord hw ▸ hprefix⟩

end Sys2Proof
end

section
/-! SUPPORT. Returns, the loop stack, skips and headers (R66 to R70, R219, R223, R224, R236, R237, R244). -/

-- One proof after another: the whole text has little memory to spare.
set_option Elab.async false

namespace Sys2Proof.Machine

/-- The register a header takes its count from, as a field of COUNT. -/
theorem countReg_eq (h : Header) : countReg h = h.count.extractLsb' 0 5 := by
  apply BitVec.eq_of_toNat_eq
  rw [countReg, toNat_bits, field_eq_extract]

/-! ### Returns (R68, R219, R224, R236) -/

section
variable {s : State}

/-- A primary context that returns to 0 has ended, its loop stack empty. -/
theorem return_ends (hx : s.ctx ≠ .biv) (len : Nat) :
    ∃ u, finish len 1 s (s.returnTo 0) = .next u ∧ Placed s u { s.cur with run := .ended } s.pc [] 1 ∧ u.cur.run = .ended := by
  have hend : s.returnTo 0 = .go (s.setCur { s.cur with run := .ended, loops := [], pc := s.pc }) := if_pos ⟨rfl, hx⟩
  rw [hend]
  exact placed s { s.cur with run := .ended } s.pc [] rfl nofun len 1

/-- `RET` is the return to the offset in `g15`. -/
theorem exec_ret_usable (h : Usable s [15]) : exec .ret s = finish 1 1 s (s.returnTo (s.G 15)) := by
  show execRet s = _
  rw [execRet, guardHazard_pass h]

/-- So is `BRX g15`, as a longer instruction. -/
theorem exec_brx_link (h : Usable s [15]) : exec (.brx 15) s = finish 2 1 s (s.returnTo (s.G 15)) := by
  show execBrx 15 s = _
  rw [execBrx, guardRegs_pass (rs := [(15, 1)]) h, guardHazard_pass h, if_pos rfl]

/-- `BRX` of another register is a branch to the offset in it. -/
theorem exec_brx_branch {a : Reg} (h : Usable s [a]) (ha : a ≠ 15) : exec (.brx a) s = finish 2 1 s (s.branch (s.G a) none) := by
  show execBrx a s = _
  rw [execBrx, guardRegs_pass (rs := [(a, 1)]) h, guardHazard_pass h, if_neg ha]

theorem exec_endtask_ctl (h : s.ctx = .ctl) :
    exec .endtask s = finish 2 1 s (.go (s.setCur { s.cur with run := .ended, loops := [], pc := s.pc })) := by
  show execEndtask s = _
  rw [execEndtask, h]
  rfl

end

/-- Settles O7: a return by its target and what the loop stack keeps of it, `BRX` of another register by the header it reaches. -/
theorem returns : Obligations.Returns := by
  unfold Obligations.Returns
  intro a h ps s hu t both
  have ha : Usable s [a] := hu.sub (by simp)
  have h15 : Usable s [15] := hu.sub (by simp)
  have both_of {P : State → Prop} (hP : ∀ len, ∃ u, finish len 1 s (s.returnTo t) = .next u ∧ P u) : both P := by
    refine ⟨?_, ?_⟩
    · rw [Completes, exec_ret_usable h15]
      exact hP 1
    · rw [Completes, exec_brx_link h15]
      exact hP 2
  refine ⟨fun h0 hx => ?ends, fun ht hk => both_of (return_placed ht hk), fun ht hk => ?traps, fun hne hf hw hc hcount hin => ?enters,
    fun hx => ?endtask⟩
  case ends =>
    rw [h0] at both_of
    exact both_of (return_ends hx)
  case traps =>
    rw [exec_ret_usable h15, exec_brx_link h15]
    exact ⟨congrArg (finish 1 1 s) (return_trap ht hk), congrArg (finish 2 1 s) (return_trap ht hk)⟩
  case enters =>
    obtain ⟨u, hu, hentered, -⟩ := branch_enters none hf hw hc (countOwed_of (by rwa [countReg_eq])) hin 2
    exact ⟨u, (exec_brx_branch ha hne).trans hu, hentered⟩
  case endtask =>
    rw [Completes, exec_endtask_ctl hx]
    exact placed s { s.cur with run := .ended } s.pc [] rfl nofun 2 1

/-! ### Body ends (R67) -/

/-- The events at the body end of the innermost entry, where no other body ends. -/
theorem endBodies_innermost {e : LoopEntry} {r : List LoopEntry} {pc : Word} (hpc : pc.toNat = e.bodyEnd) (hr : EndsAlone e r)
    (rb : BitVec 5) :
    endBodies (e :: r) pc rb =
      (let left := if e.leave then e.remain else e.remain - 1
       let rb' := if e.rot then rb + 1 else rb
       if e.leave ∨ left ≠ 0 then ({ e with remain := left } :: r, BitVec.ofNat 64 (e.header.toNat + 2), rb') else (r, pc, rb')) := by
  have houter (rb' : BitVec 5) : endBodies r pc rb' = (r, pc, rb') := by
    cases r with
    | nil => rfl
    | cons f q =>
      rw [endBodies, if_pos]
      rw [hpc]
      exact (hr f q rfl).symm
  rw [endBodies, if_neg (not_not.2 hpc)]
  simp only [houter]

/-- Fetch that reaches the body end of the innermost entry, where no other body ends, leaves what `BodyEnded` says. -/
theorem bodyEnded_of_arrive {s u : State} {pc : Word} {e : LoopEntry} {r : List LoopEntry} {slots : Nat} (ho : OnlyCore s u)
    (hcur : u.cur = { s.cur with pc := pc }.arrive) (hcore : u.curCore = coreAfter s s.curCore u.cur slots) (hl : s.cur.loops = e :: r)
    (hpc : pc.toNat = e.bodyEnd) (hr : EndsAlone e r) : BodyEnded s u s.cur e r slots := by
  have hends := endBodies_innermost hpc hr s.cur.rb
  rw [← hl] at hends
  have hloops : u.cur.loops = (endBodies s.cur.loops pc s.cur.rb).1 := by rw [hcur]; rfl
  have hupc : u.pc = (endBodies s.cur.loops pc s.cur.rb).2.1 := by rw [State.pc, hcur]; rfl
  have hrb : u.cur.rb = (endBodies s.cur.loops pc s.cur.rb).2.2 := by rw [hcur]; rfl
  rw [hends] at hloops hupc hrb
  refine ⟨ho, by rw [hcur, Ctx.arrive_rest], hcore, ?_, fun left hleft hagain => ?_, fun hleave hremain => ?_⟩
  · rw [hrb]
    dsimp only
    split_ifs <;> rfl
  · subst hleft
    rw [hupc, hloops, if_pos hagain]
    exact ⟨rfl, rfl⟩
  · have hlast : ¬ (e.leave = true ∨ (if e.leave then e.remain else e.remain - 1) ≠ 0) := by
      rw [hleave, hremain]
      decide
    rw [hupc, hloops, if_neg hlast, ← hpc, BitVec.ofNat_toNat, BitVec.setWidth_eq]
    exact ⟨rfl, rfl⟩

/-- Settles O11: the events at the pc, and the same after an instruction that goes on. -/
theorem bodyEnds : Obligations.BodyEnds := by
  unfold Obligations.BodyEnds
  intro e r s hl hr
  refine ⟨fun hpc => ?_, fun hpc => ?_⟩
  · obtain ⟨u, hu, ho, hcur, hcore⟩ := placed_go (OnlyCore.refl s) 0
    exact ⟨u, hu, bodyEnded_of_arrive ho hcur hcore hl hpc hr⟩
  · obtain ⟨u, hu, ho, hcur, hcore⟩ := go_setCur s { s.cur with pc := s.pc + 1 } 1 1
    exact ⟨u, hu, bodyEnded_of_arrive ho hcur hcore hl hpc hr⟩

/-! ### `LEAVE` and the skips (R69, R223, R237) -/

theorem exec_leave_empty {s : State} (hl : s.cur.loops = []) : exec .leave s = .next (s.takeTrap 1 0x2C00) := by
  show execLeave s = _
  rw [execLeave, hl]
  rfl

theorem exec_leave_cons {s : State} {e : LoopEntry} {r : List LoopEntry} (hl : s.cur.loops = e :: r) :
    exec .leave s = finish 1 1 s (.go (s.setCur { s.cur with loops := r, pc := BitVec.ofNat 64 e.bodyEnd })) := by
  show execLeave s = _
  rw [execLeave, hl]

section
variable {s : State} {a : Reg} (hu : Usable s [a]) (n : BitVec 12) {zero : Bool}
include hu

/-- A skip whose condition does not hold only goes on. -/
theorem skip_passes (hc : (s.G a == 0) ≠ zero) : ∃ u, skip zero a n s = .next u ∧ Passed s u 2 := by
  rw [skip, guardRegs_pass (rs := [(a, 0)]) hu, guardHazard_pass hu, if_neg hc]
  exact passed_ok s 2

variable (hc : (s.G a == 0) = zero)
include hc

/-- One whose condition holds is placed at its target, where that is not beyond the innermost body end. -/
theorem skip_goes (hin : ∀ e r, s.cur.loops = e :: r → (s.pc + 2 + n.zeroExtend 64).toNat ≤ e.bodyEnd) :
    skip zero a n s = finish 2 1 s (.go (s.setCur { s.cur with pc := s.pc + 2 + n.zeroExtend 64 })) := by
  rw [skip, guardRegs_pass (rs := [(a, 0)]) hu, guardHazard_pass hu, if_pos hc]
  cases hl : s.cur.loops with
  | nil => rfl
  | cons e r => exact congrArg (finish 2 1 s) (if_neg (Nat.not_lt.2 (hin e r hl)))

theorem skip_beyond {e : LoopEntry} {r : List LoopEntry} (hl : s.cur.loops = e :: r)
    (hout : e.bodyEnd < (s.pc + 2 + n.zeroExtend 64).toNat) : skip zero a n s = .next (s.takeTrap 4 (s.pc + 2 + n.zeroExtend 64)) := by
  rw [skip, guardRegs_pass (rs := [(a, 0)]) hu, guardHazard_pass hu, if_pos hc, hl]
  exact congrArg (finish 2 1 s) (if_pos hout)

/-- What a skip does whose condition holds: inside the body, at its end, and beyond it. -/
theorem skip_taken :
    ((∀ e r, s.cur.loops = e :: r → (s.pc + 2 + n.zeroExtend 64).toNat < e.bodyEnd) →
      ∃ u, skip zero a n s = .next u ∧ Placed s u s.cur (s.pc + 2 + n.zeroExtend 64) s.cur.loops 1) ∧
    (∀ e r, s.cur.loops = e :: r → (s.pc + 2 + n.zeroExtend 64).toNat = e.bodyEnd → EndsAlone e r →
      ∃ u, skip zero a n s = .next u ∧ BodyEnded s u s.cur e r 1) ∧
    (∀ e r, s.cur.loops = e :: r → e.bodyEnd < (s.pc + 2 + n.zeroExtend 64).toNat →
      skip zero a n s = .next (s.takeTrap 4 (s.pc + 2 + n.zeroExtend 64))) := by
  refine ⟨fun hin => ?_, fun e r hl hend hr => ?_, fun e r hl => skip_beyond hu n hc hl⟩
  · rw [skip_goes hu n hc fun e r hl => (hin e r hl).le]
    obtain ⟨u, hgo, hplaced, -⟩ := placed s s.cur (s.pc + 2 + n.zeroExtend 64) s.cur.loops rfl (fun e r hl => (hin e r hl).ne) 2 1
    exact ⟨u, hgo, hplaced⟩
  · rw [skip_goes hu n hc fun e' r' hl' => by cases hl.symm.trans hl'; exact hend.le]
    obtain ⟨u, hgo, ho, hcur, hcore⟩ := go_setCur s { s.cur with pc := s.pc + 2 + n.zeroExtend 64 } 2 1
    exact ⟨u, hgo, bodyEnded_of_arrive ho hcur hcore hl hend hr⟩

end

/-- Settles O8: `LEAVE` by whether there is an entry, a skip by its condition and by where it lands. -/
theorem leaveAndSkips : Obligations.LeaveAndSkips := by
  unfold Obligations.LeaveAndSkips
  refine ⟨fun s => ⟨fun e r hl hr => ?_, exec_leave_empty⟩, fun a n s hu => ⟨fun h0 => ?_, fun h0 => ?_⟩⟩
  · rw [Completes, exec_leave_cons hl]
    obtain ⟨u, hgo, hplaced, -⟩ := placed s s.cur (BitVec.ofNat 64 e.bodyEnd) r rfl (fun f q hf => by
      rw [BitVec.toNat_ofNat, Nat.mod_eq_of_lt (bodyEnd_lt e)]
      exact (hr f q hf).symm) 1 1
    exact ⟨u, hgo, hplaced⟩
  · have hz : (s.G a == 0) = true := beq_iff_eq.2 h0
    exact ⟨skip_taken hu n hz, skip_passes hu n (by rw [hz]; decide)⟩
  · have hz : (s.G a == 0) = false := beq_eq_false_iff_ne.2 h0
    exact ⟨skip_taken hu n hz, skip_passes hu n (by rw [hz]; decide)⟩

/-! ### Headers (R66, R67, R70) -/

/-- The registers a header waits for (R121). -/
theorem guardHazard_count_pass {s : State} {h : Header} (hcount : h.csrc = 1 → s.cur.pendingReg (h.count.extractLsb' 0 5).toNat = false)
    (a : Act) : guardHazard s (if h.csrc = 1 then [countReg h] else []) a = a := by
  rw [guardHazard, if_neg]
  split
  · next hc =>
    rw [countReg_eq, List.any_cons, hcount hc]
    exact Bool.false_ne_true
  · simp

theorem headerCount_eq {h : Header} (hwf : h.wf = true) (v : Ctx) :
    (if h.csrc = 1 then (v.reg (h.count.toNat % 32)).toNat else if h.csrc = 2 then 1 else if h.count = 0 then 512 else h.count.toNat) =
      headerCount v h := by
  have hreg : (h.count.extractLsb' 0 5).toNat = h.count.toNat % 32 := by simp
  have hc : h.csrc = 0 ∨ h.csrc = 1 ∨ h.csrc = 2 := by
    have h3 : h.csrc ≠ 3 := fun h3 => by simp [Header.wf, h3] at hwf
    generalize h.csrc = c at h3
    revert c
    decide
  unfold headerCount
  rcases hc with hc | hc | hc <;> simp [hc, hreg]

/-- The checks of a header in their order, each with what it passes before (R66, R67). -/
theorem enterHeader_traps {s : State} {h : Header} {o : Word} {ls : List LoopEntry} {word : Word} :
    let missing := h.csrc = 1 ∧ ¬ OnCtl s ∧ 16 ≤ (h.count.extractLsb' 0 5).toNat
    let second := h.rot = true ∧ s.ctx = .cmp ∧ ∃ e ∈ ls, e.rot = true
    let entered := enterHeader s.ctx h o ls s.cur.rb s.cur.reg word
    (h.wf = false → entered = .trap 1 word) ∧
    (h.wf = true → missing → entered = .trap 2 2) ∧
    (h.wf = true → ¬ missing → second → entered = .trap 1 word) ∧
    (h.wf = true → ¬ missing → ¬ second → 16777215 < headerCount s.cur h → entered = .trap 2 2) ∧
    (h.wf = true → ¬ missing → ¬ second → headerCount s.cur h ≤ 16777215 → headerCount s.cur h ≠ 0 → 4 ≤ ls.length →
      entered = .trap 6 o) := by
  intro missing second entered
  have htrunc : (h.count.truncate 5 : Reg) = h.count.extractLsb' 0 5 := by ext; simp
  have hmissing : (h.csrc = 1 ∧ badReg s.ctx (h.count.truncate 5) = true) ↔ missing := by
    rw [htrunc]
    simp only [missing, OnCtl, badReg, Bool.and_eq_true, bne_iff_ne, decide_eq_true_eq, not_or]
  have hsecond : (h.rot && s.ctx == .cmp && ls.any (·.rot)) = true ↔ second := by
    simp only [second, Bool.and_eq_true, beq_iff_eq, List.any_eq_true, and_assoc]
  have hstart (hwf : h.wf = true) : ¬ (!h.wf) = true := by rw [hwf]; decide
  have hcount (hwf : h.wf = true) := headerCount_eq hwf s.cur
  refine ⟨fun hwf => ?_, fun hwf hm => ?_, fun hwf hm hs => ?_, fun hwf hm hs hc => ?_, fun hwf hm hs hc h0 h4 => ?_⟩
  · exact if_pos (by rw [hwf]; rfl)
  · exact (if_neg (hstart hwf)).trans (if_pos (hmissing.2 hm))
  · exact (if_neg (hstart hwf)).trans ((if_neg (mt hmissing.1 hm)).trans (if_pos (hsecond.2 hs)))
  · exact (if_neg (hstart hwf)).trans ((if_neg (mt hmissing.1 hm)).trans ((if_neg (mt hsecond.1 hs)).trans
      (if_pos (by rw [hcount hwf]; exact hc))))
  · exact (if_neg (hstart hwf)).trans ((if_neg (mt hmissing.1 hm)).trans ((if_neg (mt hsecond.1 hs)).trans
      ((if_neg (by rw [hcount hwf]; exact Nat.not_lt.2 hc)).trans ((if_neg (by rw [hcount hwf]; exact h0)).trans (if_pos h4)))))

/-- A code header reached by fetch, once its count register is owed by no operation. -/
theorem exec_blockHeader {s : State} {h : Header} (hcount : h.csrc = 1 → s.cur.pendingReg (h.count.extractLsb' 0 5).toNat = false) :
    exec (.blockHeader h) s = finish 2 0 s
      (match enterHeader s.ctx h s.pc s.cur.loops s.cur.rb s.cur.reg (BitVec.ofNat 64 (encH h)) with
        | .trap c i => .trap c i
        | .run ls pc rb => .go (s.setCur { s.cur with loops := ls, pc := pc, rb := rb })) := by
  show execBlockHeader h s = _
  exact congrArg (finish 2 0 s) (guardHazard_count_pass hcount _)

theorem exec_blockHeader_trap {s : State} {h : Header} {c : Nat} {i : Word}
    (hcount : h.csrc = 1 → s.cur.pendingReg (h.count.extractLsb' 0 5).toNat = false)
    (ht : enterHeader s.ctx h s.pc s.cur.loops s.cur.rb s.cur.reg (BitVec.ofNat 64 (encH h)) = .trap c i) :
    exec (.blockHeader h) s = .next (s.takeTrap c i) := by
  rw [exec_blockHeader hcount, ht]
  rfl

/-- Settles O9: a header entered, waited for, stepped over, or with no body. -/
theorem headersReached : Obligations.HeadersReached := by
  unfold Obligations.HeadersReached
  intro h len s
  refine ⟨fun hu hc => ?_, fun hcsrc hp => ?_, fun hlen hpast => ?_, fun hlen => ?_⟩
  · rw [Completes, exec_blockHeader fun hcsrc => (hu hcsrc _ (by simp)).2, enter_ok s.pc hc]
    obtain ⟨u, hgo, hentered, -⟩ := entered (s := s) (v := s.cur) (t := s.pc) hc 2 0
    exact ⟨u, hgo, hentered⟩
  · show execBlockHeader h s = _
    rw [execBlockHeader, if_pos hcsrc, guardHazard_owed (List.mem_singleton.2 rfl) (by rw [countReg_eq]; exact hp)]
    rfl
  · obtain ⟨u, hgo, hplaced, -⟩ := placed s s.cur (s.pc + 2 + len.zeroExtend 64) s.cur.loops rfl hpast 2 0
    refine ⟨u, ?_, hplaced⟩
    show execDataHeader len s = _
    rw [execDataHeader, if_neg hlen]
    exact hgo
  · show execDataHeader len s = _
    rw [execDataHeader, if_pos hlen]
    rfl

/-- A branch whose target traps it has that effect alone, and so has one with a link. -/
theorem exec_br_trap {s : State} (hu : Usable s [15]) {off : BitVec 12} {c : Nat} {i : Word}
    (ht : ∀ link, s.branch (target s off) link = .trap c i) :
    exec (.br off) s = .next (s.takeTrap c i) ∧ exec (.brl off) s = .next (s.takeTrap c i) := by
  refine ⟨?_, ?_⟩
  · show execBr off s = _
    rw [execBr, ht]
    rfl
  · show execBrl off s = _
    rw [execBrl, guardHazard_pass hu, ht]
    rfl

/-- Settles O10: the target by what its word is, then the checks of a header in turn. -/
theorem targetAndHeaderTraps : Obligations.TargetAndHeaderTraps := by
  unfold Obligations.TargetAndHeaderTraps
  refine ⟨?targets, ?checks⟩
  case targets =>
    intro off ps s hu t w hf
    exact ⟨fun hno => exec_br_trap hu fun link => branch_trap4 hf hno link,
      fun hheader hdata => exec_br_trap hu fun link => branch_trap5 hf hheader hdata link⟩
  case checks =>
    intro h s hcount word missing second traps
    obtain ⟨hbad, hmissing, hsecond, hlarge, hfull⟩ := enterHeader_traps (s := s) (h := h) (o := s.pc) (ls := s.cur.loops) (word := word)
    exact ⟨fun hwf => exec_blockHeader_trap hcount (hbad hwf), fun hwf hm => exec_blockHeader_trap hcount (hmissing hwf hm),
      fun hwf hm hs => exec_blockHeader_trap hcount (hsecond hwf hm hs),
      fun hwf hm hs hc => exec_blockHeader_trap hcount (hlarge hwf hm hs hc),
      fun hwf hm hs hc h0 h4 => exec_blockHeader_trap hcount (hfull hwf hm hs hc h0 h4)⟩

end Sys2Proof.Machine
end

section
/-! SUPPORT. An instruction on a context that may not run it (R63), and words written out (R52 to R70). -/

-- One proof after another: the whole text has little memory to spare.
set_option Elab.async false

namespace Sys2Proof.Machine

section
variable {s : State}

theorem guardCtx_off {allowed : Bool} (h : allowed = false) (parcels slots w : Nat) (a : Act) :
    finish parcels slots s (guardCtx allowed w a) = .next (s.takeTrap 1 (BitVec.ofNat 64 w)) := by
  rw [h]
  rfl

theorem ordering_off {allowed : Bool} (h : allowed = false) (code : Nat) (f : LF) (rs : List (Reg × Nat)) (fs : List (Nat × Bool))
    (body : Act) : ordering allowed code f rs fs body s = .next (s.takeTrap 1 (BitVec.ofNat 64 (encL code f))) :=
  guardCtx_off h 3 1 _ _

theorem onControl_off (h : ¬ OnCtl s) : onControl s.ctx = false := by
  rw [onControl, Bool.or_eq_false_iff, beq_eq_false_iff_ne, beq_eq_false_iff_ne]
  exact not_or.1 h

theorem context_off {x : CtxId} (h : s.ctx ≠ x) : (s.ctx == x) = false := beq_eq_false_iff_ne.2 h

/-- What could be taken has been: another cause finds the bivouac context running. -/
theorem enter_enter (s : State) (c : Nat) : (s.enter c).enter c = s.enter c := by
  cases h : (s.coreAt c).pend.find? (s.takeable c) with
  | none =>
    have hs : s.enter c = s := by rw [State.enter, h]
    rw [hs, hs]
  | some p =>
    rw [State.enter_of_find h, State.enter, List.find?_eq_none.2]
    intro q _
    simp [State.takeable, State.enterWith]

theorem takeTrap_enter (h : s.ctx ≠ .biv) (cause : Nat) (info : Word) : (s.takeTrap cause info).enter s.core = s.takeTrap cause info := by
  rw [State.takeTrap, takeTrapAt_eq s h]
  exact enter_enter ..

theorem exec_trap_off (h : ¬ OnCtl s) (n : BitVec 17) : exec (.trap n) s = .next (s.takeTrap 1 (BitVec.ofNat 64 (encS 0x60 0 n))) := by
  show execTrap n s = _
  rw [execTrap, onControl_off h]
  rfl

theorem exec_rte_off (h : s.ctx ≠ .biv) : exec .rte s = .next (s.takeTrap 1 (BitVec.ofNat 64 (encS 0x61 0 0))) := if_pos h

theorem exec_mts_off (h : ¬ OnCtl s) (d : Reg) (n : BitVec 17) :
    exec (.mts d n) s = .next (s.takeTrap 1 (BitVec.ofNat 64 (encS 0x63 d n))) := by
  show execMts d n s = _
  rw [execMts, guardCtx_off (onControl_off h)]
  exact congrArg Host.Outcome.next (takeTrap_enter (fun hb => h (.inr hb)) ..)

end

/-- Settles O19: every such instruction asks for its context first. -/
theorem contextTraps : Obligations.ContextTraps := by
  unfold Obligations.ContextTraps
  intro d n v m f s
  refine ⟨fun h => ?system, exec_rte_off, fun h => guardCtx_off (context_off h) .., fun h => guardCtx_off (context_off h) ..,
    fun h => ?loads, fun h => ?stores, fun h => ?notCompute, fun h => ?control, fun h => ⟨?vector, ?matrix⟩⟩
  case system =>
    have hoff := onControl_off h
    exact ⟨exec_trap_off h n, exec_rte_off (fun hb => h (.inr hb)), guardCtx_off hoff .., exec_mts_off h d n, guardCtx_off hoff ..,
      guardCtx_off hoff .., guardCtx_off (context_off fun hc => h (.inl hc)) .., guardCtx_off hoff .., guardCtx_off hoff ..,
      guardCtx_off hoff .., guardCtx_off hoff ..⟩
  case loads =>
    iterate 13 refine List.forall_mem_cons.2 ⟨ordering_off (context_off h) .., ?_⟩
    exact List.forall_mem_nil _
  case stores =>
    iterate 7 refine List.forall_mem_cons.2 ⟨ordering_off (context_off h) .., ?_⟩
    exact List.forall_mem_nil _
  case notCompute =>
    iterate 14 refine List.forall_mem_cons.2 ⟨ordering_off (bne_eq_false_iff_eq.2 h) .., ?_⟩
    exact List.forall_mem_nil _
  case control =>
    iterate 21 refine List.forall_mem_cons.2 ⟨ordering_off (onControl_off h) .., ?_⟩
    exact List.forall_mem_nil _
  case vector =>
    iterate 50 refine List.forall_mem_cons.2 ⟨guardCtx_off (context_off h) .., ?_⟩
    exact List.forall_mem_nil _
  case matrix =>
    iterate 6 refine List.forall_mem_cons.2 ⟨guardCtx_off (context_off h) .., ?_⟩
    exact List.forall_mem_nil _

end Sys2Proof.Machine

namespace Sys2Proof

/-- Settles O57: each word is taken apart by evaluation. -/
theorem decodedWords : Obligations.DecodedWords :=
  ⟨rfl, rfl, rfl, rfl, rfl, rfl, rfl, rfl, rfl, rfl, rfl, rfl, rfl, rfl, rfl, rfl, rfl⟩

end Sys2Proof
end

section
/-! SUPPORT. What a source field supplies, code by code (R57, R64, R71, R270). -/

-- One proof after another: the whole text has little memory to spare.
set_option Elab.async false

namespace Sys2Proof.Machine

theorem at64_map_range (g : Nat → Nat) {i : Nat} (hi : i < 64) : at64 ((List.range 64).map g) i = g i := by
  rw [at64, List.getD_eq_getElem _ _ (by simpa using hi), List.getElem_map, List.getElem_range]

theorem at64_replicate (v : Nat) {i : Nat} (hi : i < 64) : at64 (List.replicate 64 v) i = v := by
  rw [at64, List.getD_eq_getElem _ _ (by simpa using hi), List.getElem_replicate]

section
variable (k : Core) (spec : VSpec) {i : Nat} (hi : i < 64)
include hi

theorem at64_srcLanes_reg {n : Nat} (hn : n ≤ 63) : at64 (srcLanes k spec .b false n) i = (k.lane (physReg k.cmp n) i).toNat := by
  have h : srcLanes k spec .b false n = (List.range 64).map _ := if_pos hn
  rw [h, at64_map_range _ hi]
  rfl

theorem at64_srcLanes_loadQ {n tag : Nat} {bs : List Byte} {q : List QEntry} (hn : n ≤ 3) (hq : k.loadQ n = ⟨tag, some bs⟩ :: q) :
    at64 (srcLanes k spec .b false (64 + n)) i = leAt bs (4 * i) 4 := by
  have h : srcLanes k spec .b false (64 + n) = _ := (if_neg (by omega)).trans (if_pos (by omega))
  rw [h, Nat.add_sub_cancel_left, hq]
  exact at64_map_range _ hi

theorem at64_srcLanes_cq {v : Word} {q : List Word} (hq : k.cq = v :: q) :
    at64 (srcLanes k spec .b false 70) i = v.toNat % 2 ^ 32 := by
  have h : srcLanes k spec .b false 70 = List.replicate 64 ((k.cq.headD 0).toNat % 2 ^ 32) := rfl
  rw [h, hq]
  exact at64_replicate _ hi

theorem at64_srcLanes_zero : at64 (srcLanes k spec .b false 71) i = 0 := at64_replicate 0 hi

theorem at64_srcLanes_const {n : Nat} (hn : n < 64) :
    at64 (srcLanes k spec .b false (128 + n)) i = (icOperand spec n).getD 0 := by
  have h : srcLanes k spec .b false (128 + n) = _ := (if_neg (by omega)).trans ((if_neg (by omega)).trans ((if_neg (by omega)).trans
    ((if_neg (by omega)).trans (if_pos (by omega)))))
  rw [h, Nat.add_sub_cancel_left]
  exact at64_replicate _ hi

theorem at64_srcLanes_general (n : Nat) :
    at64 (srcLanes k spec .b false (192 + n)) i = (k.cmp.reg n).toNat % 2 ^ 32 := by
  have h : srcLanes k spec .b false (192 + n) = _ := (if_neg (by omega)).trans ((if_neg (by omega)).trans ((if_neg (by omega)).trans
    ((if_neg (by omega)).trans (if_neg (by omega)))))
  rw [h, Nat.add_sub_cancel_left]
  exact at64_replicate _ hi

end

/-- The first inline constants are the small integers (R64). -/
theorem icOperand_small {spec : VSpec} {n : Nat} (hspec : spec.bInt = some (-2147483648, 2147483647)) (hn : n ≤ 16) :
    icOperand spec n = some n := by
  rw [icOperand, hspec]
  show (icInt (-2147483648) 2147483647 n).map (intBits 32) = some n
  have hratio : icRatio n = (false, n, 1, false) := if_pos hn
  have hint : icInt (-2147483648) 2147483647 n = some (n : Int) := by
    rw [icInt, hratio]
    exact if_pos ⟨rfl, by simp, by simp; omega⟩
  rw [hint, Option.map_some, intBits]
  congr 1
  omega

/-- Settles O20: the field's code picks the source. -/
theorem vectorOperandSources : Obligations.VectorOperandSources := by
  unfold Obligations.VectorOperandSources
  intro spec n i s hi hspec k lane
  refine ⟨fun hn => ?low, fun hlo hn hrot => ?still, fun hlo hn hrot => ?rotates, fun tag bs q hn hq => at64_srcLanes_loadQ k spec hi hn hq,
    fun v q hq => at64_srcLanes_cq k spec hi hq, at64_srcLanes_zero k spec hi, fun hn => ?const,
    fun _ => at64_srcLanes_general k spec hi n⟩
  case low =>
    have hphys : physReg k.cmp n = n := if_neg (by omega)
    exact (at64_srcLanes_reg k spec hi (by omega)).trans (by rw [hphys])
  case still =>
    have hphys : physReg k.cmp n = n := if_neg (by simpa [hlo] using hrot)
    exact (at64_srcLanes_reg k spec hi hn).trans (by rw [hphys])
  case rotates =>
    have hphys : physReg k.cmp n = 32 + (n - 32 + k.cmp.rb.toNat) % 32 := if_pos ⟨hlo, by simpa using hrot⟩
    exact (at64_srcLanes_reg k spec hi hn).trans (by rw [hphys])
  case const =>
    exact (at64_srcLanes_const k spec hi (by omega)).trans (by rw [icOperand_small hspec hn]; rfl)

end Sys2Proof.Machine
end

section
/-! SUPPORT. What a step runs (R52, R67, R68, R115, R217, log 2, log 92). -/

-- One proof after another: the whole text has little memory to spare.
set_option Elab.async false

namespace Sys2Proof.Machine

/-! ### What the schedulers hold back does not look at the agenda (R142) -/

/-- A state with another agenda, and another count of steps without one. -/
def State.withTurns (s : State) (n : Nat) (l : List Turn) : State := { s with idle := n, agenda := l }

theorem reserveIn_withTurns (s : State) (n : Nat) (l : List Turn) (part g : Nat) :
    (s.withTurns n l).reserveIn part g = (s.reserveIn part g).withTurns n l := by
  unfold State.reserveIn
  have hfind : ((s.withTurns n l).readyIn part).find? (fun t => (s.withTurns n l).isFirst t part g) =
    (s.readyIn part).find? (fun t => s.isFirst t part g) := rfl
  rw [hfind]
  cases (s.readyIn part).find? (fun t => s.isFirst t part g) with
  | none => rfl
  | some t =>
    dsimp only
    split
    · next h => exact Eq.symm ((congrArg (fun u : State => u.withTurns n l) (if_pos h)).trans rfl)
    · next h => exact Eq.symm ((congrArg (fun u : State => u.withTurns n l) (if_neg h)).trans rfl)

theorem reserve_withTurns (s : State) (n : Nat) (l : List Turn) : (s.withTurns n l).reserve = s.reserve.withTurns n l := by
  have groups (p : Nat) (gs : List Nat) (u : State) :
      gs.foldl (fun u g => u.reserveIn p g) (u.withTurns n l) = (gs.foldl (fun u g => u.reserveIn p g) u).withTurns n l := by
    induction gs generalizing u with
    | nil => rfl
    | cons g r ih => rw [List.foldl_cons, List.foldl_cons, reserveIn_withTurns, ih]
  have parts (ps : Tab Partition) (u : State) :
      ps.foldl (fun u e => (u.groupsOf e.2.desc).foldl (fun u g => u.reserveIn e.1 g) u) (u.withTurns n l) =
        (ps.foldl (fun u e => (u.groupsOf e.2.desc).foldl (fun u g => u.reserveIn e.1 g) u) u).withTurns n l := by
    induction ps generalizing u with
    | nil => rfl
    | cons e r ih =>
      rw [List.foldl_cons, List.foldl_cons]
      exact (congrArg (fun v => r.foldl _ v) (groups e.1 (u.groupsOf e.2.desc) u)).trans (ih _)
  exact (congrArg (fun v => if s.tasks.isEmpty then s.withTurns n l else v) (parts s.parts s)).trans
    (apply_ite (fun u : State => u.withTurns n l) _ _ _).symm

/-! ### The instruction of the parcels fetched (R52, R67, R68) -/

theorem wordOf_top {ps : List Parcel} (h : ps ≠ []) : wordOf ps / 2 ^ (16 * (ps.length - 1)) = (ps.headD 0).toNat := by
  cases ps with
  | nil => exact absurd rfl h
  | cons p r =>
    rw [wordOf, List.length_cons, Nat.add_sub_cancel, Nat.add_comm, Nat.add_mul_div_right _ _ (by positivity),
      Nat.div_eq_of_lt (wordOf_lt r), Nat.zero_add]
    rfl

/-- Parcels that decode to a code header begin with one (R66). -/
theorem head_of_decode_blockHeader {ps : List Parcel} {h : Header} (hdec : decode (codeBytes ps) = .ok (.blockHeader h)) :
    (ps.headD 0).toNat / 2 ^ 12 = 15 ∧ (ps.headD 0).toNat / 2 ^ 10 % 4 < 2 := by
  obtain ⟨r, rfl⟩ := (encodeDecode.2 ps _ hdec).2
  obtain ⟨-, -, -, -, -, hkind, hdata⟩ := encH_fields h
  have hhead : ((encode (.blockHeader h) ++ r).headD 0).toNat = field (encH h) 16 16 := toNat_bits ..
  have hrot : h.rot.toNat < 2 := Bool.toNat_lt _
  rw [hhead]
  unfold field at *
  omega

section
variable {s : State} {ps : List Parcel} (hps : ps ≠ [])

/-- The issuing context with its parcels taken. -/
def State.taken (s : State) : State := s.setCur { s.cur with fetched := none, atEntry := false }

/-- Away from an entry, what the parcels decode to is run where it fits in the body, and traps where it does not. -/
theorem runParcels_ordinary (h : s.cur.atEntry = false) :
    runParcels ps s = if crosses s.cur.loops s.cur.pc.toNat ps.length then .next (s.taken.takeTrap 1 (BitVec.ofNat 64 (wordOf ps)))
      else match decode (codeBytes ps) with
        | .ok i => exec i s.taken
        | .error _ => .next (s.taken.takeTrap 1 (BitVec.ofNat 64 (wordOf ps))) := by
  rw [runParcels, h]
  rfl

include hps

theorem runParcels_entry_bad (h : s.cur.atEntry = true)
    (hbad : (ps.headD 0).toNat / 2 ^ 12 ≠ 15 ∨ (ps.headD 0).toNat / 2 ^ 10 % 4 = 3) : runParcels ps s = .next (s.takeTrap 4 s.pc) := by
  rw [runParcels, wordOf_top hps, h, Bool.true_and]
  exact if_pos (by simpa using hbad)

theorem runParcels_entry_data (h : s.cur.atEntry = true) (hclass : (ps.headD 0).toNat / 2 ^ 12 = 15)
    (hdata : (ps.headD 0).toNat / 2 ^ 10 % 4 = 2) : runParcels ps s = .next (s.takeTrap 5 s.pc) := by
  rw [runParcels, wordOf_top hps, h, Bool.true_and, hclass, hdata]
  rfl

theorem runParcels_decoded {i : Instr} (hdec : decode (codeBytes ps) = .ok i)
    (hfits : crosses s.cur.loops s.cur.pc.toNat ps.length = false) (hentry : s.cur.atEntry = true → ∃ h, i = .blockHeader h) :
    runParcels ps s = exec i s.taken := by
  cases h : s.cur.atEntry with
  | false =>
    rw [runParcels_ordinary h, hfits, hdec]
    rfl
  | true =>
    obtain ⟨hd, rfl⟩ := hentry h
    obtain ⟨hclass, hkind⟩ := head_of_decode_blockHeader hdec
    rw [runParcels, wordOf_top hps]
    generalize (ps.headD 0).toNat = p at hclass hkind
    rw [h, Bool.true_and, hclass, if_neg (by simp; omega), if_neg (by simp; omega), hfits, hdec]
    rfl

end

/-! ### The parcels fetched (R217) -/

section
variable {s : State} {c : Nat} {x : CtxId}

/-- Two bytes are read as such, whatever units they lie in. -/
theorem readLocs_pair_length (s : State) (c : Nat) (x : CtxId) (scope : Nat) (cuts : List Nat) (a b : Nat) :
    (s.readLocs c x scope cuts [a, b]).length = 2 := by
  have hunits : ∃ u v, withUnits [a, b] = [(a, u), (b, v)] := ⟨_, _, rfl⟩
  obtain ⟨u, v, hunits⟩ := hunits
  rw [State.readLocs, hunits, State.readUnits]
  split
  · rfl
  · by_cases huv : u = v
    · rw [show unitRuns [(a, u), (b, v)] = [[a, b]] from if_pos huv]
      rfl
    · rw [show unitRuns [(a, u), (b, v)] = [[a], [b]] from if_neg huv]
      rfl

theorem readBack_pair (s : State) (c : Nat) (x : CtxId) (scope : Nat) (cuts : List Nat) (a b : Nat) (fs : List Fwd) :
    s.readBack c x scope cuts [.at a, .at b] fs = s.readLocs c x scope cuts [a, b] := by
  obtain ⟨p, q, hpq⟩ := List.length_eq_two.1 (readLocs_pair_length s c x scope cuts a b)
  rw [State.readBack, State.readOf]
  show List.zipWith _ _ (putBack _ (s.readLocs c x scope cuts [a, b])) = _
  rw [hpq]
  rfl

/-- The plane address of a team's code image. -/
def Team.codeAt (tm : Team) : Word := vaAt (BitVec.ofNat 64 (tm.code.toNat % 2 ^ 60)) (vaPos tm.code)

/-- A parcel of the code image that lies here. -/
theorem fetchParcel_here {o a b : Nat} (hplane : s.checkPlane (s.teamOf c).vf (s.teamOf c).codeAt = none)
    (hfind : s.findBytes (s.teamOf c).vf (s.teamOf c).codeAt .read
      ((s.planeDesc (s.teamOf c).vf (s.teamOf c).codeAt).byteOf (vaPos (s.teamOf c).codeAt) + 2 * o) 2 = .bytes [.at a, .at b]) :
    s.fetchParcel c x 0 o = .parcels [BitVec.ofNat 16 (leNat ((s.readLocs c x 0 [0] [a, b]).map (·.2)))] := by
  unfold Team.codeAt at hplane hfind
  rw [State.fetchParcel, hplane]
  dsimp only
  rw [hfind]
  dsimp only
  rw [readBack_pair]
  rfl

/-- Parcels that each lie here are fetched one after another. -/
theorem fetchMore_here {n o : Nat} {ps : List Parcel} (hlen : ps.length = n)
    (h : ∀ j, j < n → s.fetchParcel c x 0 (o + j) = .parcels [ps.getD j 0]) : s.fetchMore c x 0 o n = .parcels ps := by
  induction n generalizing o ps with
  | zero => rw [List.eq_nil_of_length_eq_zero hlen, State.fetchMore]
  | succ n ih =>
    obtain ⟨p, r, rfl⟩ := List.exists_cons_of_length_eq_add_one hlen
    have hrest := ih (o := o + 1) (Nat.succ.inj hlen) fun j hj => by
      rw [Nat.add_right_comm, Nat.add_assoc]
      exact h (j + 1) (Nat.succ_lt_succ hj)
    rw [State.fetchMore, show s.fetchParcel c x 0 o = .parcels [p] from h 0 (Nat.succ_pos n), hrest]
    rfl

theorem fetchAt_here {o : Nat} {ps : List Parcel} (hlen : ps.length = parcelCount (ps.headD 0).toNat)
    (h : ∀ j, j < ps.length → s.fetchParcel c x 0 (o + j) = .parcels [ps.getD j 0]) : s.fetchAt c x 0 o = .parcels ps := by
  cases ps with
  | nil => exact absurd hlen.symm (parcelCount_pos _).ne'
  | cons p r =>
    have hrest : s.fetchMore c x 0 (o + 1) (parcelCount p.toNat - 1) = .parcels r := by
      refine fetchMore_here (Nat.eq_sub_of_add_eq hlen) fun j hj => ?_
      rw [Nat.add_right_comm, Nat.add_assoc]
      have hlen' : r.length + 1 = parcelCount p.toNat := hlen
      exact h (j + 1) (by rw [List.length_cons]; omega)
    rw [State.fetchAt, show s.fetchParcel c x 0 o = .parcels [p] from h 0 (Nat.succ_pos _)]
    dsimp only
    rw [hrest]

end

/-! ### The turns (log 2, log 92, log 97) -/

section
variable {s : State} {t : Turn} {r : List Turn}

theorem step_turn (h : s.agenda = t :: r) : step s = watched (runTurn { s.reserve.tick with agenda := r } t) := by
  rw [step, h]
  rfl

theorem issueNext_stopped (h : s.canIssue s.core s.ctx = false) : issueNext s = .next s := by
  rw [issueNext, h]
  rfl

theorem issueNext_bodyEnd (h : s.canIssue s.core s.ctx = true) (hend : s.atBodyEnd = true) : issueNext s = exec .bodyEnd s := by
  rw [issueNext, h, hend]
  rfl

theorem issueNext_parcels {ps : List Parcel} (h : s.canIssue s.core s.ctx = true) (hend : s.atBodyEnd = false)
    (hps : s.fetchNow = .parcels ps) : issueNext s = runParcels ps s := by
  rw [issueNext, h, hend, hps]
  rfl

theorem fetchNow_of_none (h : s.cur.fetched = none) : s.fetchNow = s.fetchAt s.core s.ctx 0 s.pc.toNat := by
  rw [State.fetchNow, h]

theorem reserve_module (s : State) : s.reserve.module = s.module := by
  obtain ⟨r, hr⟩ := reserve_reserved s
  rw [hr]

theorem runTurn_event {i : Instr} (hi : i.hasWord = false) (h : s.module.stage ≠ 15 ∨ inRecovery i = true) :
    runTurn s (.event i) = exec i s := by
  rw [runTurn, hi, Bool.false_or]
  refine if_neg ?_
  rcases h with h | h <;> simp [h]

theorem runTurn_event_none {i : Instr} (h : i.hasWord = true ∨ (s.module.stage = 15 ∧ inRecovery i = false)) :
    runTurn s (.event i) = .next s := by
  rw [runTurn]
  refine if_pos ?_
  rcases h with h | ⟨h, hi⟩ <;> simp [*]

/-- The machine at a turn of its own: time has passed, and one more such turn is counted. -/
def State.ownTurn (s : State) : State := (s.withTurns (s.idle + 1) []).reserve.tick

/-- With no turn listed, the issuing context goes on, or the machine takes a turn of its background. -/
theorem step_none (h : s.agenda = []) :
    step s = watched (if s.idle % 2 = 0 then issueNext s.ownTurn else runTurn s.ownTurn (s.ownTurn.background (s.idle / 2))) := by
  have hs : s.withTurns s.idle [] = s := by rw [State.withTurns, ← h]
  obtain ⟨a, ha⟩ := reserve_reserved (s.withTurns s.idle [])
  have hown : s.ownTurn = { s.reserve.tick with idle := s.idle + 1 } := by
    rw [State.ownTurn, reserve_withTurns, ← hs, ha]
    rfl
  have hidle : s.reserve.tick.idle = s.idle := by
    rw [← hs, ha]
    rfl
  rw [step, h, hown, takeTurn, hidle]

/-- A turn that is the only one listed is taken as a turn of the machine's own would be. -/
theorem step_only (t : Turn) : step (s.withTurns (s.idle + 1) [t]) = watched (runTurn s.ownTurn t) := by
  have h := step_turn (s := s.withTurns (s.idle + 1) [t]) rfl
  rw [reserve_withTurns] at h
  rw [State.ownTurn, reserve_withTurns]
  exact h

theorem ownTurn_issue (s : State) : runTurn s.ownTurn (.issue s.core s.ctx) = issueNext s.ownTurn := by
  obtain ⟨a, ha⟩ := reserve_reserved (s.withTurns (s.idle + 1) [])
  rw [State.ownTurn, ha]
  rfl

end

/-- Settles O56: the turn is taken, and what it fetches is decoded and run. -/
theorem stepRunsDecoded : Obligations.StepRunsDecoded := by
  unfold Obligations.StepRunsDecoded
  intro c x r ps i loc a b s s0 s1 s2 word fits first leaves
  refine ⟨fun h => ?issue, fun h => ?event, fun h => ?idle, fun h => ?retire, fun h => ?hand, fun h => ⟨fun he => ?even, fun ho => ?odd⟩,
    ?fetched⟩
  case issue =>
    have hstep : step s = watched (issueNext s1) := step_turn h
    refine ⟨fun hc => ?_, fun hc hend => ?_, fun hc hend hps hne => ?_⟩
    · exact hstep.trans (congrArg watched (issueNext_stopped hc))
    · exact hstep.trans (congrArg watched (issueNext_bodyEnd hc hend))
    have hrun : step s = watched (runParcels ps s1) := hstep.trans (congrArg watched (issueNext_parcels hc hend hps))
    refine ⟨fun hdec hfits hentry => ?_, fun e hdec hentry => ?_, fun hfits hentry => ?_, fun hentry hbad => ?_, fun hentry hclass hdata => ?_⟩
    · exact hrun.trans (congrArg watched (runParcels_decoded hne hdec hfits hentry))
    · have htrap : runParcels ps s1 = .next (s2.takeTrap 1 word) := by
        rw [runParcels_ordinary hentry, hdec]
        exact ite_self _
      exact hrun.trans (congrArg watched htrap)
    · exact hrun.trans (congrArg watched ((runParcels_ordinary hentry).trans (if_pos (Bool.not_eq_false _ ▸ hfits))))
    · exact hrun.trans (congrArg watched (runParcels_entry_bad hne hentry hbad))
    · exact hrun.trans (congrArg watched (runParcels_entry_data hne hentry hclass hdata))
  case event =>
    have hstep : step s = watched (runTurn s0 (.event i)) := step_turn h
    have hmodule : s0.module = s.module := reserve_module s
    refine ⟨fun hi hstage => hstep.trans (congrArg watched (runTurn_event hi (hmodule ▸ hstage))),
      fun hi => hstep.trans (congrArg watched (runTurn_event_none (hmodule ▸ hi)))⟩
  case idle => exact step_turn h
  case retire => exact step_turn h
  case hand => exact step_turn h
  case even =>
    have hlisted := step_only (s := s) (.issue s.core s.ctx)
    rw [step_none h, if_pos he, ← ownTurn_issue, ← hlisted]
    rfl
  case odd =>
    have hown : s.ownTurn = ({ s with idle := s.idle + 1 } : State).reserve.tick := by
      rw [State.ownTurn, State.withTurns, ← h]
    have hlisted := step_only (s := s) (s.ownTurn.background (s.idle / 2))
    rw [step_none h, if_neg (by omega), ← hlisted, hown]
    rfl
  case fetched =>
    intro tm va hnone hlen hplane hread
    rw [fetchNow_of_none hnone]
    refine fetchAt_here hlen fun j hj => ?_
    obtain ⟨hfind, hparcel⟩ := hread j hj
    rw [hparcel]
    exact fetchParcel_here hplane hfind

end Sys2Proof.Machine
end

section
/-! SUPPORT. What the clearing of a plane's entries leaves (R49, R118, R157, R265). -/

-- One proof after another: the whole text has little memory to spare.
set_option Elab.async false

namespace Sys2Proof.Machine

/-! ### A device write keeps the coherence order (R118, R129) -/

/-- Each part of a write lies in one row or line. -/
theorem cutParts_row (us : List (Host.Cell × Nat)) : ∀ p ∈ cutParts us, p.Pairwise (fun a b => rowOf a.1 = rowOf b.1) := by
  induction us with
  | nil => simp [cutParts]
  | cons c r ih =>
    cases r with
    | nil => simp [cutParts]
    | cons d r =>
      obtain ⟨p, ps, h⟩ := cutParts_cons d r
      rw [h] at ih
      obtain ⟨hd, hps⟩ := List.forall_mem_cons.1 ih
      simp only [cutParts, h]
      split
      · next hc =>
        refine List.forall_mem_cons.2 ⟨List.pairwise_cons.2 ⟨fun e he => ?_, hd⟩, hps⟩
        rcases List.mem_cons.1 he with rfl | he
        · exact hc.2.2
        · exact hc.2.2.trans ((List.pairwise_cons.1 hd).1 e he)
      · exact List.forall_mem_cons.2 ⟨List.pairwise_singleton .., ih⟩

theorem writeDevice_logOk {s : State} (hs : LogOk s) (cells : List Host.Cell) : LogOk (s.writeDevice cells) := by
  obtain ⟨cs, ns, ds, hw⟩ := s.writeDevice_eq cells
  obtain ⟨horder, hold⟩ := hs
  rw [hw]
  have hsuffix := settleLog_suffix (s.log ++ (atomicParts cells).mapIdx (fun i p => ⟨s.nextSeq + i, p, 0, 2⟩)) s.mem
  refine ⟨.sublist hsuffix.sublist (List.pairwise_append.2 ⟨horder, ?_, fun a ha b hb => ?_⟩), fun e he => ?_⟩
  · refine List.pairwise_iff_getElem.2 fun i j hi hj hij => ?_
    rw [List.getElem_mapIdx, List.getElem_mapIdx]
    exact Nat.add_lt_add_left hij _
  · obtain ⟨i, hi, rfl⟩ := List.mem_mapIdx.1 hb
    exact (hold a ha).1.trans_le (Nat.le_add_right ..)
  · rcases List.mem_append.1 (hsuffix.subset he) with he | he
    · exact ⟨(hold e he).1.trans_le (Nat.le_add_right ..), (hold e he).2⟩
    · obtain ⟨i, hi, rfl⟩ := List.mem_mapIdx.1 he
      exact ⟨Nat.add_lt_add_left hi _, (atomicParts_rising cells _ (List.getElem_mem hi)).and (cutParts_row _ _ (List.getElem_mem hi))⟩

theorem writeTable_logOk {s : State} (hs : LogOk s) (a n v : Nat) : LogOk (s.writeTable a n v) := writeDevice_logOk hs _

/-! ### A word in a table -/

theorem leBytes_mod (v : Nat) : leBytes 8 v = leBytes 8 (BitVec.ofNat 64 v).toNat := by
  rw [leBytes_eq_map, leBytes_eq_map]
  refine List.map_congr_left fun i hi => BitVec.eq_of_toNat_eq ?_
  have h8 : i < 8 := List.mem_range.1 hi
  have hparts : 2 ^ 64 = 2 ^ (8 * i) * 2 ^ (64 - 8 * i) := by rw [← pow_add]; congr 1; omega
  rw [BitVec.toNat_ofNat, BitVec.toNat_ofNat, BitVec.toNat_ofNat, hparts, Nat.mod_mul_right_div_self,
    Nat.mod_mod_of_dvd _ (pow_dvd_pow 2 (by omega))]

/-- A number written at a place is there, as far as 8 bytes hold it, and nothing else changes. -/
theorem writeTable_number {s : State} (hs : LogOk s) (a v : Nat) :
    (s.writeTable a 8 v).imageNat a 8 = v % 2 ^ 64 ∧ ∀ b, (b < a ∨ a + 8 ≤ b) → (s.writeTable a 8 v).image b = s.image b := by
  have h := writeTable_image hs a (BitVec.ofNat 64 v)
  rwa [State.writeTable, ← leBytes_mod, BitVec.toNat_ofNat] at h

theorem imageNat_apart {s t : State} {a q : Nat} (h : ∀ b, (b < a ∨ a + 8 ≤ b) → t.image b = s.image b) (hq : q + 8 ≤ a ∨ a + 8 ≤ q) :
    t.imageNat q 8 = s.imageNat q 8 := by
  rw [State.imageNat, State.imageNat, State.imageBytes_eq_map, State.imageBytes_eq_map]
  refine congrArg _ (List.map_congr_left fun b hb => h b ?_)
  obtain ⟨i, hi, rfl⟩ := List.mem_map.1 hb
  have := List.mem_range.1 hi
  omega

/-! ### Frames given back (R157) -/

/-- The frame record is of the frame that a plane entry of the tenant holds and gives back. -/
def ReturnedBy (v e : Nat) (r : FrameRec) : Prop :=
  (peState e = 1 ∨ peState e = 2 ∨ peState e = 5) ∧ peSk e = false ∧ r.vf = v ∧ r.table = false ∧ r.addr = field e 0 48 * 64

theorem returnFrame_rest (s : State) (v e : Nat) : s.returnFrame v e = { s with frames := (s.returnFrame v e).frames } := by
  unfold State.returnFrame
  split <;> rfl

theorem mem_returnFrame {s : State} {v e : Nat} {r : FrameRec} :
    r ∈ (s.returnFrame v e).frames ↔ r ∈ s.frames ∧ ¬ ReturnedBy v e r := by
  unfold State.returnFrame ReturnedBy
  split
  · next h =>
    obtain ⟨hst, hsk⟩ := h
    have hsk : peSk e = false := by simpa using hsk
    simp only [List.mem_filter, hst, hsk, true_and]
    simp [imp_iff_not_or, or_assoc]
  · next h =>
    refine ⟨fun hr => ⟨hr, fun hret => h ⟨hret.1, by rw [hret.2.1]; rfl⟩⟩, fun hr => hr.1⟩

/-! ### The entries of a plane, one after another (R265) -/

/-- What `clearEntries` leaves for a list of PFRs: each entry is the new one, the frames of the old ones are given back, and but for
memory and what counts its lines nothing else changes. -/
structure EntriesCleared (s t : State) (v plane : Nat) (entry : Nat → Nat) (ps : List Nat) : Prop where
  rest : t = { s with mem := t.mem, log := t.log, nextSeq := t.nextSeq, counters := t.counters, nodes := t.nodes, domains := t.domains,
                      frames := t.frames }
  entries : ∀ p ∈ ps, t.imageNat (p + 8 * plane) 8 = entry (s.imageNat (p + 8 * plane) 8) % 2 ^ 64
  apart : ∀ b, (∀ p ∈ ps, b < p + 8 * plane ∨ p + 8 * plane + 8 ≤ b) → t.image b = s.image b
  frames : ∀ r, r ∈ t.frames ↔ r ∈ s.frames ∧ ¬ ∃ p ∈ ps, ReturnedBy v (s.imageNat (p + 8 * plane) 8) r

theorem EntriesCleared.refl (s : State) (v plane : Nat) (entry : Nat → Nat) : EntriesCleared s s v plane entry [] :=
  ⟨rfl, fun _ h => absurd h List.not_mem_nil, fun _ _ => rfl, fun _ => by simp⟩

/-- One entry. -/
theorem clearEntry_cleared {s : State} (hs : LogOk s) (v plane p : Nat) (entry : Nat → Nat) :
    EntriesCleared s ((s.returnFrame v (s.imageNat (p + 8 * plane) 8)).writeTable (p + 8 * plane) 8
      (entry (s.imageNat (p + 8 * plane) 8))) v plane entry [p] := by
  generalize he : s.imageNat (p + 8 * plane) 8 = e
  have hrest := returnFrame_rest s v e
  have hmem (r : FrameRec) := mem_returnFrame (s := s) (v := v) (e := e) (r := r)
  generalize s.returnFrame v e = q at hrest hmem
  have hq : LogOk q := by
    rw [hrest]
    exact hs
  have himage : q.image = s.image := by
    rw [hrest]
    rfl
  obtain ⟨hhere, haway⟩ := writeTable_number hq (p + 8 * plane) (entry e)
  have hu := State.writeDevice_rest q (cellsFrom (p + 8 * plane) (leBytes 8 (entry e)))
  rw [← State.writeTable] at hu
  generalize q.writeTable (p + 8 * plane) 8 (entry e) = u at hhere haway hu
  have hframes : u.frames = q.frames := by rw [hu]
  refine ⟨?_, ?_, fun b hb => ?_, fun r => ?_⟩
  · rw [hu, hrest]
  · intro r hr
    rw [List.mem_singleton.1 hr, he]
    exact hhere
  · rw [haway b (hb p List.mem_cons_self), himage]
  · rw [hframes, hmem]
    simp [he]

/-- Entries that lie apart are cleared one after another. -/
theorem EntriesCleared.cons {s u t : State} {v plane p : Nat} {entry : Nat → Nat} {ps : List Nat} (h : EntriesCleared s u v plane entry [p])
    (h' : EntriesCleared u t v plane entry ps) (hp : ∀ q ∈ ps, p + 8 ≤ q ∨ q + 8 ≤ p) : EntriesCleared s t v plane entry (p :: ps) := by
  have haway (b : Nat) (hb : b < p + 8 * plane ∨ p + 8 * plane + 8 ≤ b) : u.image b = s.image b :=
    h.apart b (by simpa using hb)
  have hsame {q : Nat} (hq : q ∈ ps) : u.imageNat (q + 8 * plane) 8 = s.imageNat (q + 8 * plane) 8 :=
    imageNat_apart haway (by have := hp q hq; omega)
  have hstays : t.imageNat (p + 8 * plane) 8 = u.imageNat (p + 8 * plane) 8 := by
    rw [State.imageNat, State.imageNat, State.imageBytes_eq_map, State.imageBytes_eq_map]
    refine congrArg _ (List.map_congr_left fun b hb => h'.apart b fun q hq => ?_)
    obtain ⟨i, hi, rfl⟩ := List.mem_map.1 hb
    have := List.mem_range.1 hi
    have := hp q hq
    omega
  refine ⟨?_, List.forall_mem_cons.2 ⟨?_, fun q hq => ?_⟩, fun b hb => ?_, fun r => ?_⟩
  · rw [h'.rest, h.rest]
  · exact hstays.trans (h.entries p List.mem_cons_self)
  · rw [← hsame hq]
    exact h'.entries q hq
  · obtain ⟨hbp, hb⟩ := List.forall_mem_cons.1 hb
    exact (h'.apart b hb).trans (haway b hbp)
  · have hex : (∃ q ∈ ps, ReturnedBy v (u.imageNat (q + 8 * plane) 8) r) ↔ ∃ q ∈ ps, ReturnedBy v (s.imageNat (q + 8 * plane) 8) r :=
      exists_congr fun q => and_congr_right fun hq => by rw [hsame hq]
    rw [h'.frames, h.frames, hex]
    simp [not_or, and_assoc]

theorem clearEntries_cons (s : State) (v plane : Nat) (entry : Nat → Nat) (p : Nat) (ps : List Nat) :
    s.clearEntries v plane entry (p :: ps) = ((s.returnFrame v (s.imageNat (p + 8 * plane) 8)).writeTable (p + 8 * plane) 8
      (entry (s.imageNat (p + 8 * plane) 8))).clearEntries v plane entry ps := (rfl)

theorem clearEntries_cleared {v plane : Nat} {entry : Nat → Nat} {ps : List Nat} (hps : ps.Pairwise (fun p q => p + 8 ≤ q ∨ q + 8 ≤ p))
    {s : State} (hs : LogOk s) : EntriesCleared s (s.clearEntries v plane entry ps) v plane entry ps := by
  induction ps generalizing s with
  | nil => exact .refl s v plane entry
  | cons p ps ih =>
    obtain ⟨hp, hps⟩ := List.pairwise_cons.1 hps
    have hr : LogOk (s.returnFrame v (s.imageNat (p + 8 * plane) 8)) := by
      rw [returnFrame_rest]
      exact hs
    rw [clearEntries_cons]
    exact (clearEntry_cleared hs v plane p entry).cons (ih hps (writeTable_logOk hr ..)) hp

/-! ### The PFRs of a constellation (R47) -/

/-- A PFR is 128 bytes, at a multiple of its size. -/
theorem pfrsUnder_aligned (s : State) (levels table p : Nat) (h : p ∈ s.pfrsUnder levels table) : p % 128 = 0 := by
  induction levels generalizing table with
  | zero =>
    obtain ⟨i, -, hi⟩ := List.mem_flatMap.1 (show p ∈ List.flatMap _ (List.range 512) from h)
    dsimp only at hi
    split_ifs at hi
    · rw [List.mem_singleton.1 hi, Nat.mul_mod_left]
    all_goals exact absurd hi List.not_mem_nil
  | succ levels ih =>
    obtain ⟨i, -, hi⟩ := List.mem_flatMap.1 (show p ∈ List.flatMap _ (List.range 512) from h)
    dsimp only at hi
    split_ifs at hi
    · rw [List.mem_singleton.1 hi, Nat.mul_mod_left]
    · exact ih _ hi
    · exact absurd hi List.not_mem_nil

theorem pfrs_apart (s : State) (v : Nat) (va : Word) : (s.pfrs v va).Pairwise (fun p q => p + 8 ≤ q ∨ q + 8 ≤ p) := by
  have haligned (p : Nat) (hp : p ∈ s.pfrs v va) : p % 128 = 0 := pfrsUnder_aligned s 3 _ p (List.mem_dedup.1 hp)
  refine (List.nodup_dedup _).imp_of_mem fun {p q} hp hq hne => ?_
  have := haligned p hp
  have := haligned q hq
  omega

end Sys2Proof.Machine
end

section
/-! SUPPORT. The performance of `PRELS` and the plane instructions (R263, R265, R266). -/

-- One proof after another: the whole text has little memory to spare.
set_option Elab.async false

namespace Sys2Proof.Machine

section
variable {c : Nat} {x : CtxId} {o : Op} {s : State}

/-- One of these operations that may perform does what `performOp` says. -/
theorem exec_perform_plane (h : MayPerform s c x o) (hcode : o.code = 0x23 ∨ isPlane o.code = true) (ch : Choice) :
    exec (.operationPerform c x o.id ch) s = (s.setOp c x o).settlePerf c x o (performOp (s.setOp c x o) c x o ch) := by
  have code : o.code = 0x23 ∨ o.code = 0x25 ∨ o.code = 0x26 ∨ o.code = 0x27 := by
    rcases hcode with h | h
    · exact .inl h
    · simp only [isPlane, Bool.and_eq_true, decide_eq_true_eq] at h
      omega
  have engine : isEngine o.code = false := by
    rcases code with h | h | h | h <;> rw [h] <;> rfl
  have scope : performScope s c o = o.scope := by
    rcases code with h | h | h | h <;> simp [performScope, h]
  have checks : o.checks = false := by
    rcases code with h | h | h | h <;> simp [Op.checks, h]
  have order : s.inOrder c x o = true := by
    rw [State.inOrder, checks]
    exact mayPerform_of h
  have going : (o.st == .done) = false := beq_eq_false_iff_ne.2 h.fresh
  show execOperationPerform c x o.id ch s = _
  simp only [execOperationPerform, h.here, going, engine, h.clear, scope, order, checks, Bool.or_self, Bool.false_eq_true,
    if_false, Bool.not_true]

/-- What such a performance leaves, where it leaves the context's operations for last. -/
theorem performs_plane (h : MayPerform s c x o) (hcode : o.code = 0x23 ∨ isPlane o.code = true) {ch : Choice} {u : State}
    (hp : performOp (s.setOp c x o) c x o ch = .done u none [] []) (hu : u.ctxAt c x = (s.setOp c x o).ctxAt c x) :
    ∃ t, exec (.operationPerform c x o.id ch) s = .next t ∧ PerformedAs u t c x o none := by
  have there : u.opAt c x o.id = some o := by
    rw [State.opAt, hu, setOp_eq, State.ctxAt_setCtx_self]
    exact find_put h.here
  have hdone : Finished (u.ctxAt c x) ((u.ctxAt c x).finish o none [] []) o none := finish_finished ..
  refine ⟨_, (exec_perform_plane h hcode ch).trans (by rw [hp]; rfl), ?_⟩
  rw [finishOp_eq there, sweep_setCtx]
  exact ⟨rfl, fun n hn => State.coreAt_setCore_ne u _ hn, (hdone.drop _).performedOp⟩

/-! ### `PRELS` (R263) -/

theorem slotAt_setCtx (n : Nat) (v : Ctx) : ((s.setCtx c x v).coreAt c).slotAt n = (s.coreAt c).slotAt n := by
  rw [coreAt_setCtx]
  cases x <;> rfl

theorem probeP_setCtx (v : Ctx) : ((s.setCtx c x v).coreAt c).probeP = (s.coreAt c).probeP := by
  rw [coreAt_setCtx]
  cases x <;> rfl

theorem prels_unpins (h : MayPerform s c x o) (hcode : o.code = 0x23) (ch : Choice) (hslot : o.x.toNat < (s.coreAt c).probeP)
    (hpin : ((s.coreAt c).slotAt o.x.toNat).pin = true) :
    ∃ t, exec (.operationPerform c x o.id ch) s = .next t ∧ PerformedAs ((s.setOp c x o).setCore c (((s.setOp c x o).coreAt c).setSlot
      o.x.toNat { (s.coreAt c).slotAt o.x.toNat with pin := false })) t c x o none := by
  refine performs_plane h (.inl hcode) ?_ ?_
  · rw [performOp, hcode]
    show performPrels _ c o = _
    rw [performPrels, setOp_eq]
    simp only [slotAt_setCtx, probeP_setCtx]
    rw [if_pos ⟨hslot, hpin⟩]
  · rw [State.ctxAt, State.coreAt_setCore_self]
    cases x <;> rfl

theorem prels_passes (h : MayPerform s c x o) (hcode : o.code = 0x23) (ch : Choice)
    (hslot : (s.coreAt c).probeP ≤ o.x.toNat ∨ ((s.coreAt c).slotAt o.x.toNat).pin = false) :
    ∃ t, exec (.operationPerform c x o.id ch) s = .next t ∧ PerformedAs (s.setOp c x o) t c x o none := by
  refine performs_plane h (.inl hcode) ?_ rfl
  rw [performOp, hcode]
  show performPrels _ c o = _
  rw [performPrels, setOp_eq]
  simp only [slotAt_setCtx, probeP_setCtx]
  rw [if_neg]
  rintro ⟨hlt, hpin⟩
  rcases hslot with h | h
  · omega
  · rw [h] at hpin
    exact Bool.false_ne_true hpin

/-! ### Plane instructions (R265, R266) -/

theorem performOp_plane (hcode : isPlane o.code = true) (ch : Choice) : performOp s c x o ch = performPlane s c o := by
  have code : o.code = 0x25 ∨ o.code = 0x26 ∨ o.code = 0x27 := by
    simp only [isPlane, Bool.and_eq_true, decide_eq_true_eq] at hcode
    omega
  rw [performOp]
  rcases code with h | h | h <;> rw [h] <;> rfl

/-- It waits while an access to its plane is under way. -/
theorem plane_waits (h : MayPerform s c x o) (hcode : isPlane o.code = true) (ch : Choice)
    (hq : (s.setOp c x o).quietPlane ((s.setOp c x o).vfOf c) o.y = false) :
    exec (.operationPerform c x o.id ch) s = .next (s.setOp c x o) := by
  rw [exec_perform_plane h (.inr hcode), performOp_plane hcode, performPlane, hq]
  rfl

end

section
variable (s : State) (c : Nat) (x : CtxId) (o : Op)

theorem vfOf_setOp : (s.setOp c x o).vfOf c = (s.teamOf c).vf := by
  rw [State.vfOf, State.teamOf, setOp_eq, coreAt_setCtx]
  cases x <;> rfl

theorem imageNat_setOp (a n : Nat) : (s.setOp c x o).imageNat a n = s.imageNat a n := by
  exact congrArg leNat (State.imageBytes_congr (s := s) (t := s.setOp c x o) (fun _ => rfl) a n)

theorem planeDescAddr_setOp (v : Nat) (va : Word) : (s.setOp c x o).planeDescAddr v va = s.descAddr v va + 32 + 8 * vaPlane va := rfl

end

/-- The machine with what is parked on a plane let go. -/
theorem freePlane_writeTable (s : State) (a n w v : Nat) (va : Word) : (s.writeTable a n w).freePlane v va =
    { s.writeTable a n w with parks := s.parks.filter (fun p => !(p.vf == v && samePlane p.va va)) } := by
  have hparks : (s.writeTable a n w).parks = s.parks := by rw [State.writeTable, State.writeDevice_rest]
  rw [State.freePlane, hparks]

/-- A plane's entries cleared, with no page of it on the move. -/
theorem clearPlane_cleared {u : State} (hu : LogOk u) (hmoves : u.moves = []) (v : Nat) (va : Word) (entry : Nat → Nat) :
    ∃ t, EntriesCleared u t v (vaPlane va) entry (u.pfrs v va) ∧ u.clearPlane v va entry = t.freePlane v va := by
  have hend : u.endMoves v va = u := by
    rw [State.endMoves, hmoves]
    show { u with moves := [] } = u
    rw [← hmoves]
  refine ⟨_, clearEntries_cleared (pfrs_apart u v va) hu, ?_⟩
  rw [State.clearPlane, hend]

section
variable {c : Nat} {x : CtxId} {o : Op} {s : State} {v w a : Nat}

theorem ctxAt_of_cores {t u : State} (h : t.cores = u.cores) : t.ctxAt c x = u.ctxAt c x := by
  rw [State.ctxAt, State.ctxAt, State.coreAt, State.coreAt, h]

/-- An instruction that writes the descriptor and lets go what is parked. -/
theorem plane_written (h : MayPerform s c x o) (hcode : isPlane o.code = true) {ch : Choice}
    (hp : performOp (s.setOp c x o) c x o ch = .done (((s.setOp c x o).writeTable a 8 w).freePlane v o.y) none [] []) :
    ∃ t, exec (.operationPerform c x o.id ch) s = .next t ∧ PerformedAs { (s.setOp c x o).writeTable a 8 w with
      parks := s.parks.filter (fun p => !(p.vf == v && samePlane p.va o.y)) } t c x o none := by
  rw [freePlane_writeTable] at hp
  exact performs_plane h (.inr hcode) hp (ctxAt_of_cores (State.writeDevice_cores ..))

/-- An instruction that clears the plane's entries besides. -/
theorem plane_cleared (h : MayPerform s c x o) (hcode : isPlane o.code = true) {ch : Choice} {entry : Nat → Nat} (hs : LogOk s)
    (hmoves : s.moves = []) (hp : performOp (s.setOp c x o) c x o ch =
      .done (((s.setOp c x o).writeTable a 8 w).clearPlane v o.y entry) none [] []) :
    let u := (s.setOp c x o).writeTable a 8 w
    let unparked (u : State) : State := { u with parks := s.parks.filter (fun p => !(p.vf == v && samePlane p.va o.y)) }
    ∃ z : State, (∃ t, exec (.operationPerform c x o.id ch) s = .next t ∧ PerformedAs z t c x o none) ∧
      z = { unparked u with mem := z.mem, log := z.log, nextSeq := z.nextSeq, counters := z.counters, nodes := z.nodes,
                            domains := z.domains, frames := z.frames } ∧
      (∀ p ∈ u.pfrs v o.y, z.imageNat (p + 8 * vaPlane o.y) 8 = entry (u.imageNat (p + 8 * vaPlane o.y) 8) % 2 ^ 64) ∧
      (∀ b, (∀ p ∈ u.pfrs v o.y, b < p + 8 * vaPlane o.y ∨ p + 8 * vaPlane o.y + 8 ≤ b) → z.image b = u.image b) ∧
      ∀ r, r ∈ z.frames ↔ r ∈ s.frames ∧ ¬ ∃ p ∈ u.pfrs v o.y, ReturnedBy v (u.imageNat (p + 8 * vaPlane o.y) 8) r := by
  intro u unparked
  have hu : u = { s.setOp c x o with mem := u.mem, log := u.log, nextSeq := u.nextSeq, counters := u.counters, nodes := u.nodes,
                                     domains := u.domains } := State.writeDevice_rest ..
  have hlog : LogOk u := writeTable_logOk (show LogOk (s.setOp c x o) from hs) ..
  have hcores : u.cores = (s.setOp c x o).cores := State.writeDevice_cores ..
  have hparks : u.parks = s.parks := by rw [hu]; rfl
  have hframes : u.frames = s.frames := by rw [hu]; rfl
  have hstill : u.moves = [] := by rw [hu]; exact hmoves
  change performOp (s.setOp c x o) c x o ch = .done (u.clearPlane v o.y entry) none [] [] at hp
  generalize u = u at *
  obtain ⟨t, ⟨hrest, hentries, hapart, hback⟩, ht⟩ := clearPlane_cleared hlog hstill v o.y entry
  have htparks : t.parks = u.parks := by rw [hrest]
  have htcores : t.cores = u.cores := by rw [hrest]
  rw [ht] at hp
  refine ⟨t.freePlane v o.y, performs_plane h (.inr hcode) hp (ctxAt_of_cores (htcores.trans hcores)), ?_, fun p hp => ?_, hapart, ?_⟩
  · rw [State.freePlane, htparks, hparks, hrest]
  · rw [← hentries p hp]
    exact congrArg leNat (State.imageBytes_congr (fun _ => rfl) _ _)
  · rw [← hframes]
    exact hback

end

/-! ### The words they write (R45, R49) -/

theorem absent_new : mkEntry 0 true false 0 0 = 2 ^ 60 := rfl

theorem absent_old (e : Nat) : mkEntry 0 false (peSk e) (field e 53 6) 0 = (if peSk e then 2 ^ 59 else 0) + e / 2 ^ 53 % 64 * 2 ^ 53 := by
  unfold mkEntry field
  cases peSk e <;> simp

section
variable {c : Nat} {x : CtxId} {o : Op} {s : State} {v a d plane : Nat} (ch : Choice) (hv : (s.teamOf c).vf = v)
  (hplane : (o.y.extractLsb' 60 4).toNat = plane) (ha : s.descAddr v o.y + 32 + 8 * plane = a) (hd : s.imageNat a 8 = d)
  (hq : (s.setOp c x o).quietPlane v o.y = true)
include hv hplane ha hd hq

/-- What a plane instruction finds: its plane's descriptor, and where it lies. -/
theorem performPlane_quiet (hcode : isPlane o.code = true) : performOp (s.setOp c x o) c x o ch =
    (let n := o.x.toNat
    if o.code = 0x25 then
      .done (((s.setOp c x o).writeTable a 8 (field n 0 7 + field d 7 2 * 2 ^ 7 + field n 9 2 * 2 ^ 9 + d / 2 ^ 12 * 2 ^ 12)).clearPlane v
        o.y (fun _ => mkEntry 0 true false 0 0)) none [] []
    else if o.code = 0x26 then
      .done (((s.setOp c x o).writeTable a 8 (d - field d 5 2 * 2 ^ 5 + ((bitAt o.f.x.toNat 1).toNat * 2 ^ 5
        + (bitAt o.f.x.toNat 0).toNat * 2 ^ 6))).freePlane v o.y) none [] []
    else
      .done (((s.setOp c x o).writeTable a 8 (d - field d 5 2 * 2 ^ 5)).clearPlane v o.y
        (fun e => mkEntry 0 false (peSk e) (field e 53 6) 0)) none [] []) := by
  have hplane' : vaPlane o.y = plane := (field_eq_extract ..).trans hplane
  have haddr : (s.setOp c x o).planeDescAddr v o.y = a := by rw [planeDescAddr_setOp, hplane', ha]
  have hraw : ((s.setOp c x o).planeDesc v o.y).raw = d := by
    show (s.setOp c x o).imageNat ((s.setOp c x o).planeDescAddr v o.y) 8 = d
    rw [haddr, imageNat_setOp, hd]
  rw [performOp_plane hcode, performPlane, vfOf_setOp, hv, hq]
  simp only [hraw, haddr, Bool.not_true, Bool.false_eq_true, if_false]

end

end Sys2Proof.Machine
end

section
/-! SUPPORT. Engine commands, hints, probes and plane instructions at issue (R61, R131, R167, R257, R260 to R265, R317). -/

-- One proof after another: the whole text has little memory to spare.
set_option Elab.async false

namespace Sys2Proof.Machine

section
variable {s : State} {f : LF}

theorem signal_named (hn : f.x.toNat ≤ 11 ∨ f.x.toNat = 31) : (!signalOk f.x.toNat) = false := by
  rcases hn with h | h <;> simp [signalOk, h]

/-- An engine command that names a signal issues. -/
theorem commandIssue_issues {allowed : Bool} {code : Nat} {i : Instr} (hi : exec i s = commandIssue allowed code f s)
    (ha : allowed = true) (hy : Usable s [f.y]) (hroom : StreamRoom s f) (hn : f.x.toNat ≤ 11 ∨ f.x.toNat = 31) :
    Completes i s (fun t => Issued s t { code := code, f := f, y := s.G f.y, scope := f.t.scope.toNat }) := by
  refine completes_issued (hi.trans ?_)
  rw [commandIssue, ordering_pass ha (rs := [(f.y, 1)]) hy (oneField (signal_named hn)), issueOp_room hroom _ rfl]

/-- One that names none traps. -/
theorem unnamed_traps {allowed : Bool} {code : Nat} {rs : List (Reg × Nat)} {body : Act} (ha : allowed = true)
    (hn : ¬ (f.x.toNat ≤ 11 ∨ f.x.toNat = 31)) :
    ordering allowed code f rs [(0, !signalOk f.x.toNat)] body s = .next (s.takeTrap 2 0) := by
  have hbad : signalOk f.x.toNat = false := by simpa [signalOk, not_or] using hn
  exact ordering_field ha (by rw [hbad]; rfl)

theorem exec_pconv_issues (hx : OnCtl s) (hy : Usable s [f.y]) (hroom : StreamRoom s f) (hn : f.x.toNat ≤ 11 ∨ f.x.toNat = 31)
    (hle : (s.G f.y).toNat ≤ 256) :
    Completes (.pconv f) s (fun t => Issued s t { code := 0x24, f := f, y := s.G f.y, scope := f.t.scope.toNat }) := by
  refine completes_issued ?_
  show execPconv f s = _
  rw [execPconv, ordering_pass (onControl_of hx) (rs := [(f.y, 1)]) hy (oneField (signal_named hn)),
    if_neg (Nat.not_lt.2 hle), issueOp_room hroom _ rfl]

theorem exec_prels_issues (hx : OnCtl s) (hr : Usable s [f.x]) (hroom : StreamRoom s f) (hlt : (s.G f.x).toNat < 256) :
    Completes (.prels f) s (fun t => Issued s t { code := 0x23, f := f, x := s.G f.x, scope := f.t.scope.toNat }) := by
  refine completes_issued ?_
  show execPrels f s = _
  rw [execPrels, ordering_pass (onControl_of hx) (rs := [(f.x, 0)]) hr noFields, if_neg (Nat.not_le.2 hlt), issueOp_room hroom _ rfl]

/-! ### Plane instructions (R265) -/

/-- The plane of an address is there. -/
def PlanePresent (s : State) (v : Nat) (va : Word) : Prop := s.descValid v va = true ∧ s.planeOn v va = true

theorem planeAbsent_eq_false {va : Word} (h : PlanePresent s (s.teamOf s.core).vf va) : planeAbsent s va = false := by
  obtain ⟨hvalid, hon⟩ := h
  rw [planeAbsent, State.vfOf, hvalid, hon]
  rfl

theorem planeAbsent_eq_true {va : Word} (h : ¬ PlanePresent s (s.teamOf s.core).vf va) : planeAbsent s va = true := by
  rw [PlanePresent, not_and_or, Bool.not_eq_true, Bool.not_eq_true] at h
  rw [planeAbsent, State.vfOf]
  rcases h with h | h <;> simp [h]

/-- A value that R265 allows for a plane. -/
theorem planeValueBad_eq_false {d : PlaneDesc} {n : Word} (hn : n.toNat < 2 ^ 11) (h78 : n.extractLsb' 7 2 = 0)
    (hw : (n.extractLsb' 0 4).toNat ≤ 9) (hg : n.getLsbD 4 = true → (n.extractLsb' 0 4).toNat < 7)
    (hr : n.getLsbD 5 = true → d.rmax = true) (hwr : n.getLsbD 6 = true → d.wmax = true) : planeValueBad d n.toNat = false := by
  have hwidth : PlaneDesc.width ⟨n.toNat⟩ = (n.extractLsb' 0 4).toNat := field_eq_extract ..
  have hgran : PlaneDesc.gran ⟨n.toNat⟩ = n.getLsbD 4 := bitAt_eq_getLsbD ..
  have hbit5 : PlaneDesc.r ⟨n.toNat⟩ = n.getLsbD 5 := bitAt_eq_getLsbD ..
  have hbit6 : PlaneDesc.w ⟨n.toNat⟩ = n.getLsbD 6 := bitAt_eq_getLsbD ..
  rw [planeValueBad, PlaneDesc.bx, hwidth, hgran, hbit5, hbit6, field_eq_extract, h78, Nat.div_eq_of_lt hn]
  generalize (n.extractLsb' 0 4).toNat = width at hw hg
  cases h4 : n.getLsbD 4 <;> cases h5 : n.getLsbD 5 <;> cases h6 : n.getLsbD 6 <;> simp_all <;> omega

theorem exec_plnew_issues (hx : OnCtl s) (hr : Usable s [f.x, f.y]) (hroom : StreamRoom s f)
    (hp : PlanePresent s (s.teamOf s.core).vf (s.G f.y))
    (hv : planeValueBad (s.planeDesc (s.teamOf s.core).vf (s.G f.y)) (s.G f.x).toNat = false) :
    Completes (.plnew f) s (fun t => Issued s t { code := 0x25, f := f, x := s.G f.x, y := s.G f.y, scope := f.t.scope.toNat }) := by
  refine completes_issued ?_
  show execPlnew f s = _
  rw [execPlnew, ordering_pass (onControl_of hx) (rs := [(f.x, 0), (f.y, 1)]) hr noFields]
  simp only [planeAbsent_eq_false hp, State.vfOf, hv, Bool.false_eq_true, if_false]
  rw [issueOp_room hroom _ rfl]

theorem exec_plprot_issues (hx : OnCtl s) (hy : Usable s [f.y]) (hroom : StreamRoom s f)
    (hp : PlanePresent s (s.teamOf s.core).vf (s.G f.y))
    (hr : f.x.getLsbD 1 = true → (s.planeDesc (s.teamOf s.core).vf (s.G f.y)).rmax = true)
    (hw : f.x.getLsbD 0 = true → (s.planeDesc (s.teamOf s.core).vf (s.G f.y)).wmax = true) :
    Completes (.plprot f) s (fun t => Issued s t { code := 0x26, f := f, y := s.G f.y, scope := f.t.scope.toNat }) := by
  refine completes_issued ?_
  show execPlprot f s = _
  rw [execPlprot, ordering_pass (onControl_of hx) (rs := [(f.y, 1)]) hy noFields]
  simp only [planeAbsent_eq_false hp, State.vfOf, bitAt_eq_getLsbD, Bool.false_eq_true, if_false]
  rw [if_neg (by simpa [imp_iff_not_or, or_comm] using And.intro hw hr), issueOp_room hroom _ rfl]

theorem exec_pldrop_issues (hx : OnCtl s) (hy : Usable s [f.y]) (hroom : StreamRoom s f)
    (hp : PlanePresent s (s.teamOf s.core).vf (s.G f.y)) :
    Completes (.pldrop f) s (fun t => Issued s t { code := 0x27, f := f, y := s.G f.y, scope := f.t.scope.toNat }) := by
  refine completes_issued ?_
  show execPldrop f s = _
  rw [execPldrop, ordering_pass (onControl_of hx) (rs := [(f.y, 1)]) hy noFields, planeAbsent_eq_false hp, issueOp_room hroom _ rfl]
  rfl

/-- A plane instruction of a plane that is not there. -/
theorem absent_traps (hx : OnCtl s) (hp : ¬ PlanePresent s (s.teamOf s.core).vf (s.G f.y)) {code : Nat} {rs : List (Reg × Nat)}
    (hr : Usable s (rs.map (·.1))) (a : Act) :
    ordering (onControl s.ctx) code f rs [] (if planeAbsent s (s.G f.y) then .trap 2 1 else a) s = .next (s.takeTrap 2 1) := by
  rw [ordering_pass (onControl_of hx) hr noFields, planeAbsent_eq_true hp]
  rfl

/-! ### Hints and probes (R167, R260, R262) -/

theorem hintDropped_iff (va : Word) : hintDropped s va = true ↔ ∃ c e, s.place (s.teamOf s.core).vf va .read = .fault c e := by
  rw [hintDropped, State.vfOf]
  split
  · next c e h => simp [h]
  · next h => simpa using fun c e he => h c e he

section
variable (hx : s.ctx ≠ .cmp) (hy : Usable s [f.y])
include hx hy

theorem exec_pref_eq : exec (.pref f) s = finish 3 1 s (if hintDropped s (scaledAddr (s.G f.y) f.z 64) then
      .ok (s.setCur { s.cur with hintDrop := if s.cur.hintDrop = BitVec.allOnes 64 then s.cur.hintDrop else s.cur.hintDrop + 1 })
    else .ok s) :=
  ordering_pass (bne_iff_ne.2 hx) (rs := [(f.y, 1)]) hy noFields ..

theorem exec_pref_passes (h : ∀ c e, s.place (s.teamOf s.core).vf (scaledAddr (s.G f.y) f.z 64) .read ≠ .fault c e) :
    Completes (.pref f) s (fun t => Passed s t 3) := by
  have hkept : ¬ hintDropped s (scaledAddr (s.G f.y) f.z 64) = true := by
    rw [hintDropped_iff]
    exact fun ⟨c, e, he⟩ => h c e he
  rw [Completes, exec_pref_eq hx hy, if_neg hkept]
  exact passed_ok s 3

theorem exec_pref_dropped (h : ∃ c e, s.place (s.teamOf s.core).vf (scaledAddr (s.G f.y) f.z 64) .read = .fault c e)
    (hmax : s.cur.hintDrop ≠ BitVec.allOnes 64) :
    Completes (.pref f) s (fun t => Ran s t s.curCore { s.cur with hintDrop := s.cur.hintDrop + 1 } 3) := by
  obtain ⟨t, ht, hran⟩ := ran_of_ok (s := s) (u := s.setCur { s.cur with hintDrop := s.cur.hintDrop + 1 }) (.setCur s _)
    (by rw [State.cur_setCur]) (by rw [State.cur_setCur]) (by rw [State.cur_setCur]) 3
  rw [State.curCore_setCur, State.cur_setCur] at hran
  refine ⟨t, ?_, hran.of_setCtx⟩
  rw [exec_pref_eq hx hy, if_pos ((hintDropped_iff _).2 h), if_neg hmax, ht]

end

/-- A resident block is found in the slot of lowest number that has its tag. -/
theorem lookup_resident {k : Core} {tag : BitVec 59} {n : Nat} (hn : n < k.probeLimit) (hv : (k.slotAt n).valid = true)
    (hf : (k.slotAt n).fill = false) (ht : (k.slotAt n).tag = tag)
    (hfirst : ∀ j, j < n → ¬ ((k.slotAt j).valid = true ∧ (k.slotAt j).tag = tag)) :
    lookup k tag = ⟨(k.setSlot n { k.slotAt n with pin := true }).touch n, BitVec.ofNat 64 n, false, none⟩ := by
  have hfind : (List.range k.probeLimit).find? (fun n => (k.slotAt n).valid && (k.slotAt n).tag == tag) = some n := by
    refine List.find?_range_eq_some.2 ⟨by simp [hv, ht], List.mem_range.2 hn, fun j hj => ?_⟩
    have hj := hfirst j hj
    cases hvj : (k.slotAt j).valid <;> simp_all
  rw [lookup, hfind]
  simp only [hf]
  rfl

theorem exec_probe_resident (hx : s.ctx ≠ .cmp) (hr : Usable s [f.x, f.y]) {n : Nat} (hn : n < s.curCore.probeLimit)
    (hv : (s.curCore.slotAt n).valid = true) (hf : (s.curCore.slotAt n).fill = false)
    (ht : (s.curCore.slotAt n).tag = probeTag s (s.G f.y))
    (hfirst : ∀ j, j < n → ¬ ((s.curCore.slotAt j).valid = true ∧ (s.curCore.slotAt j).tag = probeTag s (s.G f.y))) :
    Completes (.probe f) s (fun t => WroteRegIn s t ((s.curCore.setSlot n { s.curCore.slotAt n with pin := true }).touch n) f.x
      (BitVec.ofNat 64 n) 3) := by
  have hk : ((s.curCore.setSlot n { s.curCore.slotAt n with pin := true }).touch n).ctxOf s.ctx = s.cur := by
    rw [State.cur_eq]
    cases s.ctx <;> rfl
  obtain ⟨t, ht', hwrote⟩ := wroteRegIn_of_ok s _ hk f.x (BitVec.ofNat 64 n) 3
  refine ⟨t, ?_, hwrote⟩
  show execProbe f s = _
  rw [execProbe, ordering_pass (bne_iff_ne.2 hx) (rs := [(f.x, 0), (f.y, 1)]) hr noFields, ← ht']
  simp only [lookup_resident hn hv hf ht hfirst]
  rfl

end

end Sys2Proof.Machine
end

section
/-! SUPPORT. Engine commands and plane instructions (R61, R131, R167, R257, R260 to R266, R317): O36. -/

-- One proof after another: the whole text has little memory to spare.
set_option Elab.async false

namespace Sys2Proof.Machine

/-! ### The descriptors that the plane instructions write (R45) -/

/-- `PLNEW` writes width, granularity, R, W and PLACE. -/
theorem plnew_descriptor (n d : Nat) : field n 0 7 + field d 7 2 * 2 ^ 7 + field n 9 2 * 2 ^ 9 + d / 2 ^ 12 * 2 ^ 12 =
    d / 2 ^ 12 * 2 ^ 12 + n / 2 ^ 9 % 4 * 2 ^ 9 + d / 2 ^ 7 % 4 * 2 ^ 7 + n % 2 ^ 7 := by
  unfold field
  omega

/-- `PLDROP` clears R and W. -/
theorem pldrop_descriptor (d : Nat) : d - field d 5 2 * 2 ^ 5 = d / 2 ^ 7 * 2 ^ 7 + d % 2 ^ 5 := by
  unfold field
  omega

/-- `PLPROT` sets them. -/
theorem plprot_descriptor (d : Nat) (r w : Bool) : d - field d 5 2 * 2 ^ 5 + (r.toNat * 2 ^ 5 + w.toNat * 2 ^ 6) =
    d / 2 ^ 7 * 2 ^ 7 + (if w then 2 ^ 6 else 0) + (if r then 2 ^ 5 else 0) + d % 2 ^ 5 := by
  rw [pldrop_descriptor]
  cases r <;> cases w <;> simp <;> omega

theorem isPlane_of {code : Nat} (h : code = 0x25 ∨ code = 0x26 ∨ code = 0x27) : isPlane code = true := by
  rcases h with rfl | rfl | rfl <;> rfl

section
variable {c : Nat} {x : CtxId} {o : Op} {s : State} (ch : Choice) (h : MayPerform s c x o)
  (hq : (s.setOp c x o).quietPlane (s.teamOf c).vf o.y = true)
include h hq

/-- What `PLPROT` leaves. -/
theorem plprot_performs (hcode : o.code = 0x26) :
    let a := s.descAddr (s.teamOf c).vf o.y + 32 + 8 * (o.y.extractLsb' 60 4).toNat
    let d := s.imageNat a 8
    ∃ t, exec (.operationPerform c x o.id ch) s = .next t ∧ PerformedAs { (s.setOp c x o).writeTable a 8
      (d / 2 ^ 7 * 2 ^ 7 + (if o.f.x.getLsbD 0 then 2 ^ 6 else 0) + (if o.f.x.getLsbD 1 then 2 ^ 5 else 0) + d % 2 ^ 5) with
      parks := s.parks.filter (fun p => !(p.vf == (s.teamOf c).vf && samePlane p.va o.y)) } t c x o none := by
  intro a d
  have hp := performPlane_quiet ch rfl rfl (a := a) rfl (d := d) rfl hq (isPlane_of (.inr (.inl hcode)))
  rw [if_neg (by omega), if_pos hcode, plprot_descriptor, bitAt_eq_getLsbD, bitAt_eq_getLsbD] at hp
  exact plane_written h (isPlane_of (.inr (.inl hcode))) hp

end

/-- Settles O36: the issues and traps by the rule of each instruction, the performances by what `performOp` writes, the entries of a
plane being cleared one after the other, each apart from the others. -/
theorem engineAndPlaneIssues : Obligations.EngineAndPlaneIssues := by
  unfold Obligations.EngineAndPlaneIssues
  refine ⟨fun f s hy => ?issue, fun c x o ch s hs h _ => ?perform⟩
  case issue =>
    intro y v k o o' named issues field present d line limit
    have both (hr : Usable s [f.x]) : Usable s [f.x, f.y] := List.forall_mem_cons.2 ⟨hr _ List.mem_cons_self, hy⟩
    refine ⟨fun hroom hn hx => commandIssue_issues rfl (bne_iff_ne.2 hx) hy hroom hn, fun hroom hn hx => ?commands,
      fun hroom hx => ?planes, fun hx => ?hints, fun hx hn => ?unnamed, fun hx hp => ?absent⟩
    case commands =>
      have ha := onControl_of hx
      exact ⟨commandIssue_issues rfl ha hy hroom hn, commandIssue_issues rfl ha hy hroom hn, commandIssue_issues rfl ha hy hroom hn,
        commandIssue_issues rfl ha hy hroom hn, exec_pconv_issues hx hy hroom hn⟩
    case planes =>
      exact ⟨fun hr => exec_prels_issues hx hr hroom,
        fun hr hp hn h78 hw hg hrm hwm => exec_plnew_issues hx (both hr) hroom hp (planeValueBad_eq_false hn h78 hw hg hrm hwm),
        fun hp => exec_plprot_issues hx hy hroom hp, exec_pldrop_issues hx hy hroom⟩
    case hints =>
      exact ⟨exec_pref_passes hx hy, exec_pref_dropped hx hy, fun n hr => exec_probe_resident hx (both hr)⟩
    case unnamed =>
      have ha := onControl_of hx
      have hcmp : (s.ctx != .cmp) = true := by rcases hx with h | h <;> rw [h] <;> rfl
      exact ⟨unnamed_traps hcmp hn, unnamed_traps ha hn, unnamed_traps ha hn, unnamed_traps ha hn, unnamed_traps ha hn,
        unnamed_traps ha hn⟩
    case absent =>
      exact ⟨fun hr => absent_traps hx hp (rs := [(f.x, 0), (f.y, 1)]) (both hr) _, absent_traps hx hp (rs := [(f.y, 1)]) hy _,
        absent_traps hx hp (rs := [(f.y, 1)]) hy _⟩
  case perform =>
    intro k v s1 slot va plane a d n performs written unparked clears
    have hplane : vaPlane o.y = plane := field_eq_extract ..
    refine ⟨fun hcode => prels_unpins h hcode ch, fun hcode => prels_passes h hcode ch, fun hcode hq => ?waits,
      fun hq hmoves => ⟨plprot_performs ch h hq, fun hcode => ?new, fun hcode => ?drop⟩⟩
    case waits => exact plane_waits h (isPlane_of hcode) ch (by rw [vfOf_setOp]; exact hq)
    case new =>
      have hp := performPlane_quiet ch rfl rfl (a := a) rfl (d := d) rfl hq (isPlane_of (.inl hcode))
      rw [if_pos hcode, plnew_descriptor, absent_new] at hp
      have hz := plane_cleared h (isPlane_of (.inl hcode)) hs hmoves hp
      rw [hplane] at hz
      exact hz
    case drop =>
      have hp := performPlane_quiet ch rfl rfl (a := a) rfl (d := d) rfl hq (isPlane_of (.inr (.inr hcode)))
      rw [if_neg (by omega), if_neg (by omega), pldrop_descriptor] at hp
      simp only [absent_old] at hp
      have hz := plane_cleared h (isPlane_of (.inr (.inr hcode))) hs hmoves hp
      rw [hplane] at hz
      exact hz

end Sys2Proof.Machine
end

section
/-! SUPPORT. V48 instructions that write vector lanes: what each leaves where its conditions hold (R272); then the floating and the
integer instructions (R274, R275). -/

-- One proof after another: the whole text has little memory to spare.
set_option Elab.async false

namespace Sys2Proof.Machine

/-! ### An instruction whose result is vector lanes (R272, R273) -/

section
variable {i : Instr} {spec : VSpec} {f : VF} {s : State} {latency word : Nat}

/-- The body gives the lanes `ls` and the stochastic state `sr`: the one is in flight, the other stands. -/
theorem vec_completes (h : VecReady spec f s) {body : VIn → Core → List (Nat × Nat) × Core}
    (hi : exec i s = finish 3 1 s (vecRun spec latency word f body s)) {ls : List (Nat × Nat)} {sr : Tab Lane}
    (hb : body (vecInput spec f s) (poppedCore spec f s) = (ls, { poppedCore spec f s with sr := sr })) :
    Completes i s (fun t => Ran s t (vecLeaves spec latency f ls { poppedCore spec f s with sr := sr }) s.cur 3) := by
  obtain ⟨t, hrun, hran⟩ := vecRun_ran h latency word body ls sr hb
  exact ⟨t, hi.trans hrun, hran⟩

/-- The body gives each enabled lane a value and leaves the core alone. -/
theorem vecLanes_complete (h : VecReady spec f s) {g : VIn → Nat → Nat}
    (hi : exec i s = finish 3 1 s (vecRun spec latency word f (fun v k => (v.enabled (g v), k)) s)) {r : Nat → Nat}
    (hg : ∀ l ∈ lanesOn f s, g (vecInput spec f s) l = r l) :
    Completes i s (fun t => Ran s t (vecLeaves spec latency f ((lanesOn f s).map (fun l => (l, r l))) (poppedCore spec f s))
      s.cur 3) := by
  have hlanes : (lanesOn f s).map (fun l => (l, g (vecInput spec f s) l)) = (lanesOn f s).map (fun l => (l, r l)) :=
    List.map_congr_left fun l hl => by rw [hg l hl]
  exact vec_completes h hi (sr := (poppedCore spec f s).sr) (by rw [vecInput_enabled, hlanes])

end

/-! ### Floating instructions (R274) -/

/-- An enabled lane gets `g` of its operands' values, each read in the mode of the issuing context (R92). -/
theorem float_completes {i : Instr} {op latency : Nat} {unary : Bool} {f : VF} {s : State}
    {g : FpFmt → Bool → FVal → FVal → FVal → Rounded} (hi : exec i s = floatOp op latency unary f g s)
    (h : VecReady (floatSpec f unary) f s) :
    let ex := (readCore s.curCore).cmp.exposed
    let spec := floatSpec f unary
    Completes i s (fun t => Ran s t (launched (poppedCore spec f s) latency f.d.toNat false
      ((lanesOn f s).map (fun l => (l, (g (fpFmt f.fmt.toNat) ex (floatLane f ex (laneA spec f s l))
        (floatLane f ex (laneB spec f s l)) (floatLane f ex (laneC spec f s l))).bits)))) s.cur 3) := by
  intro ex spec
  refine vecLanes_complete h hi fun l hl => ?_
  rw [vecInput_c _ _ _ rfl (mem_lanesOn_lt hl)]
  rfl

/-- Settles O21: each instruction is one `floatOp`, of two operand fields or of one. -/
theorem floatVectorResults : Obligations.FloatVectorResults := by
  unfold Obligations.FloatVectorResults
  intro f s x ex two one val gives r
  have run : ∀ {i : Instr} {op latency : Nat} {g' : FpFmt → Bool → FVal → FVal → FVal → Rounded}
      {g : FVal → FVal → FVal → Rounded} (unary : Bool) (m : State → Out), exec i s = m s →
      m s = floatOp op latency unary f g' s → g' x ex = g → gives (floatSpec f unary) i latency g :=
    fun _ _ hi hm hg h => hg ▸ float_completes (hi.trans hm) h
  clear_value gives
  exact ⟨run false (execVadd f) rfl rfl rfl, run false (execVsub f) rfl rfl rfl, run false (execVmul f) rfl rfl rfl,
    run false (execVfma f) rfl rfl rfl, run false (execVfms f) rfl rfl rfl, run false (execVfnma f) rfl rfl rfl,
    run false (execVmin f) rfl rfl rfl, run false (execVmax f) rfl rfl rfl, run true (execVabs f) rfl rfl rfl,
    run true (execVneg f) rfl rfl rfl, run false (execVdiv f) rfl rfl rfl, run true (execVsqrt f) rfl rfl rfl,
    run true (execVrsqrt f) rfl rfl rfl, run true (execVrcp f) rfl rfl rfl, run true (execVexp2 f) rfl rfl rfl,
    run true (execVlog2 f) rfl rfl rfl⟩

/-! ### Integer instructions (R275) -/

/-- The widths of the integer formats (R84). -/
theorem fmtBits_int {n : BitVec 4} : intFmt n = true →
    fmtBits n.toNat = if pairFmt n then 64 else if n = 9 ∨ n = 10 then 8 else 32 := by
  revert n
  decide

theorem fmtBits_pos (n : BitVec 4) : 0 < fmtBits n.toNat := by
  revert n
  decide

/-- The signed formats are the I formats (R84). -/
theorem fmtSigned_iff (n : BitVec 4) : fmtSigned n.toNat = true ↔ n = 5 ∨ n = 7 ∨ n = 9 := by
  revert n
  decide

/-- The top bit of `w` bits is set from half their range on. -/
theorem bitAt_top {w n : Nat} (hw : 0 < w) (hn : n < 2 ^ w) : bitAt n (w - 1) = decide (2 ^ (w - 1) ≤ n) := by
  obtain ⟨k, rfl⟩ : ∃ k, w = k + 1 := ⟨w - 1, by omega⟩
  simp only [Nat.add_sub_cancel, bitAt]
  have hlt : n / 2 ^ k < 2 := Nat.div_lt_of_lt_mul (by rwa [Nat.pow_succ] at hn)
  have hle : 1 ≤ n / 2 ^ k ↔ 2 ^ k ≤ n := Nat.one_le_div_iff (by positivity)
  rw [Nat.mod_eq_of_lt hlt, beq_eq_decide, decide_eq_decide, ← hle]
  omega

theorem laneSigned_eq {w n : Nat} (hw : 0 < w) (hn : n < 2 ^ w) :
    laneSigned w n = if 2 ^ (w - 1) ≤ n then (n : Int) - 2 ^ w else n := by
  rw [laneSigned, bitAt_top hw hn]
  simp

theorem laneInt_eq {f : VF} {n : Nat} (hn : n < 2 ^ fmtBits f.fmt.toNat) :
    laneInt f n = if f.fmt = 5 ∨ f.fmt = 7 ∨ f.fmt = 9 then laneSigned (fmtBits f.fmt.toNat) n else n := by
  rw [laneSigned_eq (fmtBits_pos f.fmt) hn, laneInt, intOf]
  simp only [Nat.mod_eq_of_lt hn, fmtSigned_iff]
  split <;> simp_all

/-- An enabled lane gets, modulo 2^w, `r` of its operands' low w bits. -/
theorem int_completes {i : Instr} {op : Nat} {f : VF} {s : State} {g : Nat → Nat → Nat → Int} {r : Nat → Nat → Int} {w : Nat}
    (h : VecReady (intSpec f) f s) (hw : fmtBits f.fmt.toNat = w) (hi : exec i s = intOp op f g s)
    (hg : ∀ a b, a < 2 ^ w → b < 2 ^ w → g w a b = r a b) :
    Completes i s (fun t => Ran s t (launched (poppedCore (intSpec f) f s) 2 f.d.toNat (pairFmt f.fmt)
      ((lanesOn f s).map (fun l =>
        (l, (r (laneA (intSpec f) f s l % 2 ^ w) (laneB (intSpec f) f s l % 2 ^ w) % 2 ^ w).toNat)))) s.cur 3) := by
  subst hw
  refine vecLanes_complete h hi fun l _ => ?_
  rw [hg _ _ (Nat.mod_lt _ (by positivity)) (Nat.mod_lt _ (by positivity)), intBits, Nat.cast_pow]
  rfl

/-- Settles O22: each instruction is one `intOp`, whose function is the stated one on the low w bits. -/
theorem integerVectorResults : Obligations.IntegerVectorResults := by
  unfold Obligations.IntegerVectorResults
  intro f s hfmt pair spec w signed s2 v h gives
  have hw : fmtBits f.fmt.toNat = w := fmtBits_int hfmt
  have hpos : 0 < w := hw ▸ fmtBits_pos f.fmt
  have hs2 : ∀ {n}, n < 2 ^ w → laneSigned w n = s2 n := fun hn => laneSigned_eq hpos hn
  have hv : ∀ {n}, n < 2 ^ w → laneInt f n = v n := fun {n} hn => by
    rw [laneInt_eq (hw ▸ hn), hw, hs2 hn]
  have run : ∀ {i : Instr} {op : Nat} {g : Nat → Nat → Nat → Int} {r : Nat → Nat → Int} (m : State → Out),
      exec i s = m s → m s = intOp op f g s → (∀ a b, a < 2 ^ w → b < 2 ^ w → g w a b = r a b) → gives i r :=
    fun _ hi hm hg => int_completes h hw (hi.trans hm) hg
  clear_value gives
  refine ⟨run (execViadd f) rfl rfl fun a b _ _ => Nat.cast_add a b,
    run (execVisub f) rfl rfl fun a b _ _ => rfl,
    run (execVimul f) rfl rfl fun a b _ _ => Nat.cast_mul a b,
    run (execVimulh f) rfl rfl fun a b ha hb => ?mulh,
    run (execVand f) rfl rfl fun a b _ _ => rfl, run (execVor f) rfl rfl fun a b _ _ => rfl,
    run (execVxor f) rfl rfl fun a b _ _ => rfl,
    run (execVshl f) rfl rfl fun a b _ _ => ?shl,
    run (execVshr f) rfl rfl fun a b _ _ => ?shr,
    run (execVsar f) rfl rfl fun a b ha _ => ?sar,
    run (execVimin f) rfl rfl fun a b ha hb => ?least,
    run (execVimax f) rfl rfl fun a b ha hb => ?greatest⟩
  case mulh => rw [hv ha, hv hb, Nat.cast_pow]; rfl
  case shl => rw [Nat.cast_mul, Nat.cast_pow]; rfl
  case shr => rw [Int.natCast_ediv, Nat.cast_pow]; rfl
  case sar => rw [hs2 ha, Nat.cast_pow]; rfl
  case least => rw [hv ha, hv hb]
  case greatest => rw [hv ha, hv hb]

end Sys2Proof.Machine
end

section
/-! SUPPORT. Conversions, the stochastic state and BX packing (R94, R284 to R287). -/

-- One proof after another: the whole text has little memory to spare.
set_option Elab.async false

namespace Sys2Proof.Machine

/-! ### The lanes a body is given -/

theorem mem_lanesOn {f : VF} {s : State} {l : Nat} (hl : l < 64) :
    l ∈ lanesOn f s ↔ (enabledLanes (readCore s.curCore) f).getD l false = true := by
  rw [← enabledLanes_filter, List.mem_filter, List.mem_range]
  exact and_iff_right hl

/-- Whatever a source field names, it supplies 64 lanes (R270). -/
theorem length_srcLanes (k : Core) (spec : VSpec) (kd : SrcKind) (pair : Bool) (n : Nat) :
    (srcLanes k spec kd pair n).length = 64 := by
  unfold srcLanes
  repeat' split
  all_goals simp

theorem map_at64_range {l : List Nat} (h : l.length = 64) : (List.range 64).map (at64 l) = l := by
  refine List.ext_getElem (by simp [h]) fun i _ hi => ?_
  rw [List.getElem_map, List.getElem_range, at64, List.getD_eq_getElem _ _ hi]

/-! ### The stochastic state (R94) -/

/-- A table written at some keys by a function of the key. -/
theorem Tab.get_setAll_map {α : Type} (d : α) (g : Nat → α) {ks : List Nat} {x : Nat} (hx : x ∈ ks) (m : Tab α) :
    (m.setAll (ks.map (fun k => (k, g k)))).get d x = g x := by
  induction ks generalizing m with
  | nil => cases hx
  | cons k ks ih =>
    rw [List.map_cons, Tab.setAll]
    by_cases hmem : x ∈ ks
    · exact ih hmem _
    · obtain rfl : x = k := (List.mem_cons.1 hx).resolve_right hmem
      rw [Tab.get_setAll_of_not_mem _ _ _ _ (by simpa using fun k (hk : k ∈ ks) (hkx : k = x) => hmem (hkx ▸ hk)), Tab.get_set_self]

/-- A pop leaves the stochastic state. -/
theorem poppedCore_sr (spec : VSpec) (f : VF) (s : State) : (poppedCore spec f s).sr = (readCore s.curCore).sr := by
  obtain ⟨l, c, h⟩ := popCodes_eq (sourceCodes spec f.a.toNat f.b.toNat) (readCore s.curCore)
  rw [poppedCore, h]

/-- What the enabled lanes draw. -/
def draws (f : VF) (s : State) : List (Nat × Lane) :=
  (lanesOn f s).map (fun l => (l, nextDraw ((readCore s.curCore).sr.get 0 l)))

theorem draw_poppedCore (spec : VSpec) (f : VF) (s : State) :
    (poppedCore spec f s).draw (vecInput spec f s).en
      = { poppedCore spec f s with sr := (poppedCore spec f s).sr.setAll (draws f s) } := by
  simp only [Core.draw, vecInput, enabledLanes_filter, poppedCore_sr, draws]

/-! ### Conversion (R284) -/

/-- The operands of a conversion: both formats may be pairs (R271). -/
def cvtSpec (f : VF) : VSpec := { b := .unused, dPair := pairFmt f.fmt, aPair := pairFmt (f.b.extractLsb' 0 4) }

/-- A conversion's lanes, with `state` as the draws. -/
def converted (f : VF) (s : State) (state : Nat → Lane) : List (Nat × Nat) :=
  (lanesOn f s).map (fun l => (l, convert f.fmt.toNat f.b.toNat f.mod.toNat (state l).toNat (readCore s.curCore).cmp.exposed
    (laneA (cvtSpec f) f s l)))

/-- The source format of a conversion lies in the low bits of its b field. -/
theorem bits_source (f : VF) : bits f.b.toNat 0 4 = f.b.extractLsb' 0 4 := bits_eq (field_eq_extract ..)

/-- The lanes are converted with the states that stand once the draws, if any, are taken. -/
theorem vcvt_completes {f : VF} {s : State} (h : VecReady (cvtSpec f) f s) {sr : Tab Lane} {state : Nat → Lane}
    (hk : (if f.mod.toNat = 3 then (poppedCore (cvtSpec f) f s).draw (vecInput (cvtSpec f) f s).en
      else poppedCore (cvtSpec f) f s) = { poppedCore (cvtSpec f) f s with sr := sr })
    (hs : ∀ l ∈ lanesOn f s, sr.get 0 l = state l) :
    Completes (.vcvt f) s (fun t => Ran s t (launched { poppedCore (cvtSpec f) f s with sr := sr } 4 f.d.toNat (pairFmt f.fmt)
      (converted f s state)) s.cur 3) := by
  have hi : exec (.vcvt f) s = execVcvt f s := rfl
  rw [execVcvt, bits_source] at hi
  refine vec_completes h hi (Prod.ext ?_ hk)
  show VIn.enabled _ _ = _
  rw [vecInput_enabled]
  refine List.map_congr_left fun l hl => ?_
  rw [hk, hs l hl]
  rfl

/-! ### BX blocks (R286, R287) -/

/-- The lanes of two blocks packed from 64 values. -/
def packedLanes (f : VF) (vals : List FVal) : List (Nat × Nat) :=
  let packed := packBx (bxW f.fmt.toNat) (vals.take 32) + packBx (bxW f.fmt.toNat) (vals.drop 32) * 2 ^ (8 * bxLen f.fmt.toNat)
  everyLane (fun l => field packed (32 * l) 32)

/-- The values that are packed: zero for a lane that is not enabled. -/
theorem packed_values (spec : VSpec) (f : VF) (s : State) (val : Nat → FVal) :
    (List.range 64).map (fun i => if (vecInput spec f s).en.getD i false then val (at64 (vecInput spec f s).a i) else .fin false 0 0)
      = (List.range 64).map (fun l => if l ∈ lanesOn f s then val (laneA spec f s l) else .fin false 0 0) := by
  refine List.map_congr_left fun l hl => ?_
  have hon : l ∈ lanesOn f s ↔ (vecInput spec f s).en.getD l false = true := mem_lanesOn (List.mem_range.1 hl)
  simp only [hon]
  rfl

/-- The bytes that are unpacked are those of the source's 64 lanes. -/
theorem vecInput_a (spec : VSpec) (f : VF) (s : State) : (vecInput spec f s).a = (List.range 64).map (laneA spec f s) :=
  (map_at64_range (length_srcLanes ..)).symm

/-- Settles O26: `VCVT` with and without its draws, the packing, the unpacking, and `VSEED`. -/
theorem conversionResults : Obligations.ConversionResults := by
  unfold Obligations.ConversionResults
  intro f s k ex cSpec pSpec uSpec sSpec drawn cvt x vals packed src el
  refine ⟨fun h hm => ?convert, fun h hm => ?convertDrawn, fun h => ?pack, fun h => ?unpack, fun h => ?seed⟩
  case convert =>
    have hmod : f.mod.toNat ≠ 3 := fun e => hm (BitVec.eq_of_toNat_eq e)
    exact vcvt_completes h (sr := (poppedCore cSpec f s).sr) (if_neg hmod) fun l _ => by rw [poppedCore_sr]
  case convertDrawn =>
    have hmod : f.mod.toNat = 3 := by rw [hm]; rfl
    exact vcvt_completes h ((if_pos hmod).trans (draw_poppedCore ..)) fun l hl => Tab.get_setAll_map _ _ hl _
  case pack =>
    have hi : exec (.vpackbx f) s = execVpackbx f s := rfl
    have hvals : _ = vals := packed_values pSpec f s fun n => x.flushIn ex (x.decode n)
    exact vec_completes h hi (sr := (poppedCore pSpec f s).sr)
      (congrArg (fun vs => (packedLanes f vs, poppedCore pSpec f s)) hvals)
  case unpack =>
    have hi : exec (.vunpkbx f) s = execVunpkbx f s := rfl
    exact vecLanes_complete h hi fun l _ => by rw [vecInput_a]; rfl
  case seed =>
    have hi : exec (.vseed f) s = execVseed f s := rfl
    exact vec_completes h hi (ls := []) (by rw [vecInput_enabled, List.map_map]; rfl)

end Sys2Proof.Machine
end

section
/-! SUPPORT. V48 instructions on the lines of matrix registers, and the reduction (R113, R281 to R283). -/

-- One proof after another: the whole text has little memory to spare.
set_option Elab.async false

namespace Sys2Proof.Machine

/-! ### Lines of matrix registers (R281) -/

/-- The element of lane `i` of line `n`, by row, by column or by diagonal. -/
theorem lineElem_eq (f : VF) (n i : Nat) :
    lineElem f.mod.toNat n i = if f.mod = 0 then (n, i) else if f.mod = 1 then (i, n) else (i, (i + n) % 64) := by
  simp only [← BitVec.toNat_inj]
  show lineElem f.mod.toNat n i = if f.mod.toNat = 0 then _ else if f.mod.toNat = 1 then _ else _
  generalize f.mod.toNat = m
  match m with
  | 0 => rfl
  | 1 => rfl
  | m + 2 => exact ((if_neg (by omega)).trans (if_neg (by omega))).symm

/-- A pop leaves the matrix registers. -/
theorem poppedCore_elem (spec : VSpec) (f : VF) (s : State) : (poppedCore spec f s).elem = (readCore s.curCore).elem := by
  obtain ⟨l, c, h⟩ := popCodes_eq (sourceCodes spec f.a.toNat f.b.toNat) (readCore s.curCore)
  rw [poppedCore, h]
  rfl

/-! ### The tree of a reduction (R113) -/

/-- One level of the tree: place `i` adds the two below it, the lower-numbered first. -/
def treeLevel (g : Nat → Nat → Nat) (v : Nat → Nat) (i : Nat) : Nat := g (v (2 * i)) (v (2 * i + 1))

theorem pairUp_map_range (g : Nat → Nat → Nat) (n : Nat) (v : Nat → Nat) :
    pairUp g ((List.range (2 * n)).map v) = (List.range n).map (treeLevel g v) := by
  induction n generalizing v with
  | zero => rfl
  | succ n ih =>
    have hrange : (List.range (2 * (n + 1))).map v = v 0 :: v 1 :: (List.range (2 * n)).map (fun i => v (i + 2)) := by
      rw [Nat.mul_succ, List.range_succ_eq_map, List.map_cons, List.map_map, List.range_succ_eq_map, List.map_cons, List.map_map]
      rfl
    rw [hrange, pairUp, ih, List.range_succ_eq_map, List.map_cons, List.map_map]
    rfl

/-- The root of the tree over 64 values is at its sixth level. -/
theorem treeSum_map_range (g : Nat → Nat → Nat) (v : Nat → Nat) :
    treeSum g ((List.range 64).map v)
      = treeLevel g (treeLevel g (treeLevel g (treeLevel g (treeLevel g (treeLevel g v))))) 0 := by
  rw [treeSum, pairUp_map_range g 32, pairUp_map_range g 16, pairUp_map_range g 8, pairUp_map_range g 4,
    pairUp_map_range g 2, pairUp_map_range g 1]
  rfl

/-- The values a reduction adds: the enabled lanes' low bits, and what a disabled lane contributes. -/
theorem reduce_values (spec : VSpec) (f : VF) (s : State) (idle : Nat) :
    (List.range 64).map (fun i => if (vecInput spec f s).en.getD i false
        then at64 (vecInput spec f s).a i % 2 ^ fmtBits f.fmt.toNat else idle)
      = (List.range 64).map (fun l => if l ∈ lanesOn f s then laneA spec f s l % 2 ^ fmtBits f.fmt.toNat else idle) := by
  refine List.map_congr_left fun l hl => ?_
  have hon : l ∈ lanesOn f s ↔ (vecInput spec f s).en.getD l false = true := mem_lanesOn (List.mem_range.1 hl)
  simp only [hon]
  rfl

/-- Settles O25: `VLINE` reads the elements of its line, `VPUTL` writes them, and `VREDUCE` gives every lane the root of the tree. -/
theorem vectorMatrixResults : Obligations.VectorMatrixResults := by
  unfold Obligations.VectorMatrixResults
  intro f s k lSpec pSpec rSpec at_ lineL lineP idle addend plus level
  have hat (n l : Nat) : lineElem f.mod.toNat n l = at_ n l := lineElem_eq f n l
  refine ⟨fun h => ?line, fun h => ?putLine, fun h => ?reduce⟩
  case line =>
    have hi : exec (.vline f) s = execVline f s := rfl
    have hread (l : Nat) : ((poppedCore lSpec f s).elem f.a.toNat (lineElem f.mod.toNat lineL l).1
        (lineElem f.mod.toNat lineL l).2).toNat = (k.elem f.a.toNat (at_ lineL l).1 (at_ lineL l).2).toNat := by
      rw [poppedCore_elem, hat]
    refine vec_completes h hi (sr := (poppedCore lSpec f s).sr) (Prod.ext ?_ rfl)
    show VIn.enabled _ _ = _
    rw [vecInput_enabled]
    exact List.map_congr_left fun l _ => congrArg (Prod.mk l) (hread l)
  case putLine =>
    have hi : exec (.vputl f) s = execVputl f s := rfl
    obtain ⟨t, hrun, hran⟩ := vec_completes h hi (sr := (poppedCore pSpec f s).sr)
      (ls := (lanesOn f s).map (fun l => (64 * (at_ lineP l).1 + (at_ lineP l).2, laneA pSpec f s l)))
      (by
        rw [vecInput_enabled, List.map_map]
        refine Prod.ext (List.map_congr_left fun l _ => ?_) rfl
        rw [← hat]
        rfl)
    refine ⟨t, hrun, ?_⟩
    rw [vecLeaves, List.map_map] at hran
    have hkeys : (fun e => (4096 * f.d.toNat + e.1, BitVec.ofNat 32 e.2))
          ∘ (fun l => (64 * (at_ lineP l).1 + (at_ lineP l).2, laneA pSpec f s l))
        = fun l => (elemKey f.d.toNat (at_ lineP l).1 (at_ lineP l).2, BitVec.ofNat 32 (laneA pSpec f s l)) :=
      funext fun l => congrArg (·, _) (Nat.add_assoc ..).symm
    rwa [hkeys] at hran
  case reduce =>
    have hi : exec (.vreduce f) s = execVreduce f s := rfl
    have hroot : treeSum plus ((List.range 64).map (fun i => if (vecInput rSpec f s).en.getD i false
        then at64 (vecInput rSpec f s).a i % 2 ^ fmtBits f.fmt.toNat else idle))
        = level (level (level (level (level (level addend))))) 0 :=
      (congrArg _ (reduce_values rSpec f s idle)).trans (treeSum_map_range plus addend)
    exact vec_completes h hi (sr := (poppedCore rSpec f s).sr)
      (congrArg (fun r => (everyLane (fun _ => r), poppedCore rSpec f s)) hroot)

end Sys2Proof.Machine
end

section
/-! SUPPORT. The matrix engine: what an X64 instruction does that passes its checks (R289, R290), and `MMA` (R100 to R105, R111, R291,
R292). -/

-- One proof after another: the whole text has little memory to spare.
set_option Elab.async false

namespace Sys2Proof.Machine

/-! ### An X64 instruction that occupies the engine (R289, R290) -/

/-- The compute sequencer issues it, the engine is not fenced, and its operands and registers pass their checks. -/
structure MatReady (s : State) (fails : List (Nat × Bool)) (ranges : List (Option Nat)) : Prop where
  ctx    : s.ctx = .cmp
  sound  : s.curCore.fenced = false
  fields : ∀ p ∈ fails, p.2 = false
  groups : lowest ranges = none

section
variable {s : State} {fails : List (Nat × Bool)} {ranges : List (Option Nat)} (h : MatReady s fails ranges) {occ zq : Nat}
include h

/-- The checks passed, what is left are the two waits. -/
theorem matrixRun_ready (word : Nat) (body : Core → Core) :
    let k := readCore s.curCore
    matrixRun word fails ranges (some occ) zq body s =
      if k.slot < k.occEnd then .stay (s.setCurCore { k.tick 1 with frozen := false, waits := true })
      else if summaryDepth < k.zq.length + zq then .wait
      else .ok (s.setCurCore (body { k with occEnd := k.slot + occ })) := by
  intro k
  rw [matrixRun, h.ctx, h.sound, guardFields_pass h.fields, h.groups]
  simp only [beq_self_eq_true, guardCtx_true, Bool.false_eq_true, if_false, Option.isSome_some, Bool.true_and, decide_eq_true_eq]
  rfl

/-- While the engine is occupied a slot elapses and the instruction is not issued. -/
theorem matrixRun_occupied (hocc : (readCore s.curCore).slot < (readCore s.curCore).occEnd) (len word : Nat) (body : Core → Core) :
    finish len 1 s (matrixRun word fails ranges (some occ) zq body s)
      = .next (s.setCurCore { (readCore s.curCore).tick 1 with frozen := false, waits := true }) := by
  rw [matrixRun_ready h, if_pos hocc]
  rfl

/-- With the engine free and room for its summary entries, its body is its whole effect. -/
theorem matrixRun_ran (hfree : (readCore s.curCore).occEnd ≤ (readCore s.curCore).slot)
    (hroom : (readCore s.curCore).zq.length + zq ≤ summaryDepth) (len word : Nat) (body : Core → Core)
    (hbody : ∀ k, (body k).cmp = k.cmp) :
    ∃ t, finish len 1 s (matrixRun word fails ranges (some occ) zq body s) = .next t ∧
      Ran s t (body { readCore s.curCore with occEnd := (readCore s.curCore).slot + occ }) s.cur len := by
  rw [matrixRun_ready h, if_neg (by omega), if_neg (by omega)]
  exact ran_setCurCore h.ctx (body { readCore s.curCore with occEnd := (readCore s.curCore).slot + occ }) ((hbody _).trans (readCore_frame _).cmp) len

end

/-- Groups apart from each other do not overlap. -/
theorem overlap_apart {a sa b sb : Nat} (h : a + sa ≤ b ∨ b + sb ≤ a) : overlap a sa b sb = false := by
  simp only [overlap, Bool.and_eq_false_iff, decide_eq_false_iff_not]
  omega

/-! ### The occupancy is no part of what a landing reads or writes -/

theorem Core.applyWrite_occEnd (k : Core) (n : Nat) (w : LWrite) :
    Core.applyWrite { k with occEnd := n } w = { k.applyWrite w with occEnd := n } := by
  cases w with
  | pred r mask v =>
    simp only [Core.applyWrite, Core.setPred]
    split <;> rfl
  | _ => rfl

theorem Core.applyWrites_occEnd (n : Nat) (ws : List LWrite) (k : Core) :
    Core.applyWrites { k with occEnd := n } ws = { k.applyWrites ws with occEnd := n } := by
  induction ws generalizing k with
  | nil => rfl
  | cons w r ih => rw [Core.applyWrites, Core.applyWrite_occEnd, ih, Core.applyWrites]

theorem Core.land_occEnd (k : Core) (n : Nat) (l : Landing) :
    Core.land { k with occEnd := n } l = { k.land l with occEnd := n } := by
  simp only [Core.land, Core.applyWrites_occEnd]
  split <;> rfl

theorem Core.landList_occEnd (n : Nat) (ls : List Landing) (k : Core) :
    Core.landList { k with occEnd := n } ls = { k.landList ls with occEnd := n } := by
  induction ls generalizing k with
  | nil => rfl
  | cons l r ih => rw [Core.landList, Core.land_occEnd, ih, Core.landList]

theorem Core.landAll_occEnd (k : Core) (n : Nat) : Core.landAll { k with occEnd := n } = { k.landAll with occEnd := n } :=
  Core.landList_occEnd n (dueOrder k.flight) { k with flight := [], slot := lastDue k.slot k.flight }

theorem Core.leaves_occEnd (k : Core) (n acc group : Nat) (cells : List (Nat × Lane)) :
    Core.leaves { k with occEnd := n } acc group cells = k.leaves acc group cells := by
  rw [Core.leaves, Core.landAll_occEnd, Core.leaves]

/-! ### What an `MMA` puts in flight (R101 to R105, R292) -/

/-- The accumulator elements an `MMA` starts from: as the `MMA` it chains to leaves them, or as read at issue. -/
def mmaStart (f : XF) (k : Core) : Tab Lane :=
  match k.chain with
  | some h => if h.acc = f.c.toNat ∧ h.group = groupSize f.cg then h.cells else k.m
  | none => k.m

/-- Row `i` of A. -/
def mmaRow (f : XF) (k : Core) (i : Nat) : List Nat := (List.range (matK f)).map (k.aElem f.a.toNat f.tr i)

/-- Column `n` of B. -/
def mmaCol (f : XF) (k : Core) (n : Nat) : List Nat := (List.range (matK f)).map (fun q => k.bElem f.slot.toNat q n)

/-- C(i, n) and its status bits. -/
def mmaAt (f : XF) (k : Core) (p : Nat × Nat) : Nat × Nat :=
  mmaElem f k.cmp.exposed (mmaRow f k p.1) (mmaCol f k p.2) ((mmaStart f k).get 0 (accKey f.c.toNat p.1 p.2)).toNat

/-- The elements written. -/
def mmaCells (f : XF) (k : Core) : List (Nat × Lane) :=
  (shape (matM f) (matN f)).map (fun p => (accKey f.c.toNat p.1 p.2, BitVec.ofNat 32 (mmaAt f k p).1))

/-- The status bits of register `r` of the group. -/
def mmaStatus (f : XF) (k : Core) (r : Nat) : Lane :=
  BitVec.ofNat 32 (((shape (matM f) (matN f)).filter (fun p => accKey f.c.toNat p.1 p.2 / 4096 == f.c.toNat + r)).foldl
    (fun acc p => acc ||| (mmaAt f k p).2) 0)

/-- Whether a drain is checked. -/
def mmaChecked (f : XF) (k : Core) : Bool :=
  groupChecked f k.cmp.exposed ((List.range (matM f)).map (mmaRow f k)) ((List.range (matN f)).map (mmaCol f k))

theorem mem_shape {m n : Nat} {p : Nat × Nat} : p ∈ shape m n ↔ p.1 < m ∧ p.2 < n := by
  simp only [shape, List.mem_flatMap, List.mem_map, List.mem_range]
  constructor
  · rintro ⟨i, hi, j, hj, rfl⟩
    exact ⟨hi, hj⟩
  · exact fun ⟨hi, hj⟩ => ⟨p.1, hi, p.2, hj, rfl⟩

theorem getD_map_range {α : Type} (g : Nat → α) (d : α) {n i : Nat} (hi : i < n) : ((List.range n).map g).getD i d = g i := by
  rw [List.getD_eq_getElem _ _ (by simpa using hi), List.getElem_map, List.getElem_range]

/-- The status writes of elements listed by a function of their place. -/
theorem statusWrites_map (acc group : Nat) (key : Nat × Nat → Nat) (e : Nat × Nat → Nat × Nat) (ps : List (Nat × Nat)) :
    statusWrites acc group (ps.map (fun p => (key p, e p))) = (List.range group).map (fun r => .status (acc + r)
      (BitVec.ofNat 32 ((ps.filter (fun p => key p / 4096 == acc + r)).foldl (fun b p => b ||| (e p).2) 0))) := by
  simp only [statusWrites, List.filter_map, List.foldl_map, Function.comp_def]

/-- What an `MMA` leaves whose elements, with their keys and status bits, are `es`. -/
def mmaLeaves (f : XF) (k : Core) (es : List (Nat × Nat × Nat)) : Core :=
  { k.launchMat (16 + matM f * passes f.fmt.toNat) (some f.slot.toNat) true (mmaChecked f k) f.c.toNat (groupSize f.cg)
      (.elems (elemCells es) :: statusWrites f.c.toNat (groupSize f.cg) es) with
    chain := some ⟨f.c.toNat, groupSize f.cg, k.leaves f.c.toNat (groupSize f.cg) (elemCells es)⟩ }

/-- An `MMA` as issued: its drain in flight, and the chain it offers. -/
theorem mmaIssue_eq (f : XF) (k : Core) : mmaIssue f k = { k with
    flight := k.flight ++ [{ due := k.slot + (16 + matM f * passes f.fmt.toNat), slot := some f.slot.toNat, drain := true,
                             checked := mmaChecked f k, acc := f.c.toNat, group := groupSize f.cg,
                             writes := .elems (mmaCells f k) ::
                               (List.range (groupSize f.cg)).map (fun r => .status (f.c.toNat + r) (mmaStatus f k r)) }],
    chain := some ⟨f.c.toNat, groupSize f.cg, k.leaves f.c.toNat (groupSize f.cg) (mmaCells f k)⟩ } := by
  have hes : (shape (matM f) (matN f)).map (fun p => (accKey f.c.toNat p.1 p.2, mmaElem f k.cmp.exposed
        (((List.range (matM f)).map (mmaRow f k)).getD p.1 []) (((List.range (matN f)).map (mmaCol f k)).getD p.2 [])
        ((mmaStart f k).get 0 (accKey f.c.toNat p.1 p.2)).toNat))
      = (shape (matM f) (matN f)).map (fun p => (accKey f.c.toNat p.1 p.2, mmaAt f k p)) :=
    List.map_congr_left fun p hp => by
      rw [getD_map_range _ _ (mem_shape.1 hp).1, getD_map_range _ _ (mem_shape.1 hp).2, mmaAt]
  have hcells : elemCells ((shape (matM f) (matN f)).map (fun p => (accKey f.c.toNat p.1 p.2, mmaAt f k p))) = mmaCells f k :=
    List.map_map
  have hissue : mmaIssue f k = mmaLeaves f k _ := congrArg (mmaLeaves f k) hes
  rw [hissue, mmaLeaves, hcells, statusWrites_map]
  rfl

/-! ### Whether it is checked (R111) -/

/-- An element that is finite in the format of the word. -/
def FiniteElem (f : XF) (ex : Bool) (v : Nat) : Prop := f.fmt = 9 ∨ ∃ sg mm e, (matVal f.fmt.toNat ex v).1 = .fin sg mm e

/-- Some group of sixteen is finite in every row and every column. -/
theorem groupChecked_iff (f : XF) (ex : Bool) (rows cols : List (List Nat)) :
    groupChecked f ex rows cols = true ↔
      ∃ g, 16 * g < matK f ∧ ∀ l ∈ rows ++ cols, ∀ v ∈ (l.drop (16 * g)).take 16, FiniteElem f ex v := by
  simp only [groupChecked, List.any_eq_true, List.all_eq_true, List.mem_range, Bool.or_eq_true, beq_iff_eq]
  refine exists_congr fun g => and_congr (by omega) (forall₄_congr fun l _ v _ => or_congr Iff.rfl ?_)
  cases (matVal f.fmt.toNat ex v).1 <;> simp

/-- The places of group `g` among `n`. -/
theorem mem_group {n g j : Nat} :
    j ∈ ((List.range n).drop (16 * g)).take 16 ↔ 16 * g ≤ j ∧ j < 16 * g + 16 ∧ j < n := by
  simp only [List.mem_take_iff_getElem, List.getElem_drop, List.getElem_range, List.length_drop, List.length_range]
  constructor
  · rintro ⟨i, hi, rfl⟩
    omega
  · exact fun ⟨hlo, hhi, hn⟩ => ⟨j - 16 * g, by omega, by omega⟩

theorem forall_mem_group {v : Nat → Nat} {n g : Nat} {P : Nat → Prop} :
    (∀ x ∈ (((List.range n).map v).drop (16 * g)).take 16, P x) ↔ ∀ j, 16 * g ≤ j → j < 16 * g + 16 → j < n → P (v j) := by
  rw [← List.map_drop, ← List.map_take, List.forall_mem_map]
  simp only [mem_group, and_imp]

/-- Some group of A and B elements is all finite. -/
theorem mmaChecked_iff (f : XF) (k : Core) :
    mmaChecked f k = true ↔ ∃ g, 16 * g < matK f ∧ ∀ j, 16 * g ≤ j → j < 16 * g + 16 → j < matK f →
      (∀ i, i < matM f → FiniteElem f k.cmp.exposed (k.aElem f.a.toNat f.tr i j)) ∧
      ∀ i, i < matN f → FiniteElem f k.cmp.exposed (k.bElem f.slot.toNat j i) := by
  rw [mmaChecked, groupChecked_iff]
  refine exists_congr fun g => and_congr_right' ?_
  simp only [List.forall_mem_append, List.forall_mem_map, List.mem_range, mmaRow, mmaCol, forall_mem_group]
  exact ⟨fun ⟨hrows, hcols⟩ j hlo hhi hj => ⟨fun i hi => hrows i hi j hlo hhi hj, fun i hi => hcols i hi j hlo hhi hj⟩,
    fun hgroup => ⟨fun i hi j hlo hhi hj => (hgroup j hlo hhi hj).1 i hi, fun i hi j hlo hhi hj => (hgroup j hlo hhi hj).2 i hi⟩⟩

/-- Settles O28: the checks passed, `MMA` waits for the engine, or its drain is in flight with the chain it offers. -/
theorem matrixMultiplyResults : Obligations.MatrixMultiplyResults := by
  unfold Obligations.MatrixMultiplyResults
  intro f s malloc ga gc m kk n hx hsound hzq hcAligned hcRange haAligned haRange hapart hk hn
    occupied k a b key chained old elem pairs cells status finite group
  have hshape : (decide (64 * ga < kk) || decide (64 * gc < n)) = false := by
    rw [decide_eq_false (Nat.not_lt.2 hk), decide_eq_false (Nat.not_lt.2 hn)]
    rfl
  have hfields : ∀ p ∈ [(1, overlap f.a.toNat ga f.c.toNat gc), (2, decide (64 * ga < kk) || decide (64 * gc < n))], p.2 = false :=
    List.forall_mem_cons.2 ⟨overlap_apart hapart, List.forall_mem_cons.2 ⟨hshape, List.forall_mem_nil _⟩⟩
  have hgroups : lowest [groupFail malloc f.c.toNat gc, groupFail malloc f.a.toNat ga] = none := by
    rw [groupFail_none hcAligned (by omega) (by omega), groupFail_none haAligned (by omega) (by omega)]
    rfl
  have hready : MatReady s _ _ := ⟨hx, hsound, hfields, hgroups⟩
  have hi : exec (.mma f) s = execMma f s := rfl
  refine ⟨fun hfree => ?issues, fun hocc => hi.trans (matrixRun_occupied hready hocc ..)⟩
  case issues =>
    obtain ⟨t, hrun, hran⟩ := matrixRun_ran hready hfree (zq := 0) (occ := occupied) hzq 4 (encX 0x00 f) (mmaIssue f)
      fun c => by rw [mmaIssue_eq]
    rw [mmaIssue_eq, Core.leaves_occEnd] at hran
    exact ⟨t, hi.trans hrun, mmaChecked f k, mmaChecked_iff f k, hran⟩

end Sys2Proof.Machine
end

section
/-! SUPPORT. Token instructions at issue on the compute sequencer, where a full stream stalls and, in exposed mode, freezes the pipeline
(R73, R120). -/

namespace Sys2Proof.Machine

/-- A compute sequencer inside an exposed block, with its stream 0 full and its pipeline not frozen. -/
def fullExposedStream : State :=
  { ctx := .cmp, cores := [(0, { cmp := { loops := [{}], ops := List.replicate 32 {} } })] }

/-- `KSIG` finds no room there. -/
theorem fullExposedStream_full : ¬ StreamRoom fullExposedStream {} := by
  unfold StreamRoom
  decide

/-- Its stall freezes the pipeline (R73). -/
theorem fullExposedStream_freezes :
    ∃ t, exec (.ksig { z := 1 }) fullExposedStream = .next t ∧ (t.coreAt 0).frozen = true :=
  ⟨fullExposedStream.freeze, by rfl, by decide⟩

/-- Refutes O33: on the compute sequencer in exposed mode, a token instruction that finds its stream full freezes the pipeline (R73), where
the statement has the state unchanged. -/
theorem not_tokenAndBarrierIssues : ¬ Obligations.TokenAndBarrierIssues := by
  unfold Obligations.TokenAndBarrierIssues
  intro h
  obtain ⟨-, hfull, -⟩ := h { z := 1 } fullExposedStream
  obtain ⟨hksig, -⟩ := hfull fullExposedStream_full (by decide) (by decide)
  obtain ⟨t, ht, hfrozen⟩ := fullExposedStream_freezes
  obtain rfl : t = fullExposedStream := Host.Outcome.next.inj (ht.symm.trans hksig)
  exact absurd hfrozen (by decide)

end Sys2Proof.Machine
end

section
/-! SUPPORT. The order of performance and the propagation of writes: what an operation with an unperformed predecessor does, how an
operation leaves its stream, and what one step of propagation makes of the log (R119, R120). -/

namespace Sys2Proof.Machine

/-! ### Performance in an instance (R119) -/

/-- What is performed in an instance is performed in every narrower one; from the device on, all are one. -/
theorem performedIn_mono {e : WEntry} {c a b : Nat} (hab : a ≤ b ∨ 2 ≤ b) (h : e.performedIn c b = true) : e.performedIn c a = true := by
  simp only [WEntry.performedIn, Bool.or_eq_true, Bool.and_eq_true, decide_eq_true_eq, beq_iff_eq] at h ⊢
  omega

theorem seqPerformed_mono {s : State} {c a b n : Nat} (hab : a ≤ b ∨ 2 ≤ b) (h : s.seqPerformed c b n = true) :
    s.seqPerformed c a n = true := by
  unfold State.seqPerformed at h ⊢
  cases hf : s.log.find? (fun e => e.seq == n) with
  | none => rfl
  | some e =>
    rw [hf] at h
    exact performedIn_mono hab h

theorem performedAt_mono {s : State} {c a b : Nat} {o : Op} (hab : a ≤ b ∨ 2 ≤ b) (h : s.performedAt c o b = true) :
    s.performedAt c o a = true := by
  rw [State.performedAt, Bool.and_eq_true, List.all_eq_true] at h ⊢
  exact ⟨h.1, fun n hn => seqPerformed_mono hab (h.2 n hn)⟩

theorem performedAt_false {s : State} {c a b : Nat} {o : Op} (hab : a ≤ b ∨ 2 ≤ b) (h : s.performedAt c o a = false) :
    s.performedAt c o b = false :=
  Bool.eq_false_iff.2 fun hb => Bool.eq_false_iff.1 h (performedAt_mono hab hb)

/-! ### The scopes at which predecessors are awaited -/

theorem recordScope_ge (o : Op) : o.scope ≤ recordScope o := by
  unfold recordScope scratchScope
  split
  · split <;> omega
  · exact le_rfl

theorem barrierScope_ge (s : State) (c : Nat) (o : Op) : o.f.t.scope.toNat ≤ barrierScope s c o := by
  have := o.f.t.scope.isLt
  unfold barrierScope
  split
  · omega
  split
  · split
    · omega
    · exact le_max_left ..
  · exact le_rfl

/-- The scope of an operation at which its predecessors count: its tail's, for a barrier instruction (R312). -/
def awaitScope (o : Op) : Nat := if 0x58 ≤ o.code ∧ o.code ≤ 0x5A then o.f.t.scope.toNat else o.scope

theorem performScope_ge (s : State) (c : Nat) (o : Op) : awaitScope o ≤ performScope s c o ∨ 2 ≤ performScope s c o := by
  unfold awaitScope performScope
  split
  · exact .inl (barrierScope_ge s c o)
  split
  · split
    · exact .inr (by decide)
    split
    · exact .inr (by decide)
    · exact .inl le_rfl
  · exact .inl le_rfl

/-! ### An operation waits for its predecessors (R120) -/

/-- A predecessor that is not performed at a scope holds an operation back. -/
structure HeldBack (s : State) (c : Nat) (x : CtxId) (o : Op) (scope : Nat) (y : Op) : Prop where
  listed  : y ∈ (s.ctxAt c x).ops
  earlier : y.id < o.id
  before  : mustPrecede y o = true
  open_   : s.performedAt c y scope = false

section
variable {s : State} {c : Nat} {x : CtxId} {o y : Op} {scope : Nat}

theorem HeldBack.wider (h : HeldBack s c x o scope y) {b : Nat} (hb : scope ≤ b ∨ 2 ≤ b) : HeldBack s c x o b y :=
  ⟨h.listed, h.earlier, h.before, performedAt_false hb h.open_⟩

theorem HeldBack.mayPerform_false (h : HeldBack s c x o scope y) : s.mayPerform c x o scope = false := by
  refine Bool.eq_false_iff.2 fun hall => ?_
  have := List.all_eq_true.1 hall y (List.mem_filter.2 ⟨h.listed, decide_eq_true h.earlier⟩)
  simp [h.before, h.open_] at this

/-- Its next step is not in order, be it a check step or not. -/
theorem HeldBack.inOrder_false (h : HeldBack s c x o o.scope y) (hplane : o.checks = true → 0x40 ≤ o.code → isPlane y.code = true) :
    s.inOrder c x o = false := by
  unfold State.inOrder
  split
  · next hc =>
    rw [Bool.and_eq_true, decide_eq_true_eq] at hc
    refine Bool.eq_false_iff.2 fun hall => ?_
    have := List.all_eq_true.1 hall y (List.mem_filter.2 ⟨h.listed, by simp [h.earlier, hplane hc.1 hc.2]⟩)
    simp [h.before, h.open_] at this
  · refine (h.wider (.inl ?_)).mayPerform_false
    split
    · exact recordScope_ge o
    · exact le_rfl

/-- An operation whose next step is not in order goes on waiting. -/
theorem operationPerform_waits {ch : Choice} (ho : s.opAt c x o.id = some o) (hf : o.eng.fault = none)
    (hin : s.inOrder c x { o with scope := performScope s c o } = false) : exec (.operationPerform c x o.id ch) s = .next s := by
  show execOperationPerform c x o.id ch s = _
  simp [execOperationPerform, ho, hf, hin]

/-- A command that may not perform does not start. -/
theorem engineCommandStart_waits {ch : Choice} (ho : s.opAt c x o.id = some o) (hm : s.mayPerform c x o (startScope o) = false) :
    exec (.engineCommandStart c x o.id ch) s = .next s := by
  show execEngineCommandStart c x o.id ch s = _
  simp [execEngineCommandStart, ho, hm]

theorem engineCommandStart_other {ch : Choice} (ho : s.opAt c x o.id = some o) (he : isEngine o.code = false) :
    exec (.engineCommandStart c x o.id ch) s = .next s := by
  show execEngineCommandStart c x o.id ch s = _
  simp [execEngineCommandStart, ho, he]

theorem operationPerform_waits_of {ch : Choice} (ho : s.opAt c x o.id = some o) (hf : o.eng.fault = none)
    (h : HeldBack s c x o (awaitScope o) y) (hplane : o.checks = true → 0x40 ≤ o.code → isPlane y.code = true) :
    exec (.operationPerform c x o.id ch) s = .next s := by
  have hwide := h.wider (performScope_ge s c o)
  refine operationPerform_waits ho hf ?_
  exact HeldBack.inOrder_false (o := { o with scope := performScope s c o }) ⟨hwide.listed, hwide.earlier, hwide.before, hwide.open_⟩ hplane

theorem engineCommandStart_waits_of {ch : Choice} (ho : s.opAt c x o.id = some o) (h : HeldBack s c x o (awaitScope o) y) :
    exec (.engineCommandStart c x o.id ch) s = .next s := by
  cases he : isEngine o.code with
  | false => exact engineCommandStart_other ho he
  | true =>
    have hscope : awaitScope o = o.scope := by
      refine if_neg fun hb => ?_
      simp only [isEngine, Bool.or_eq_true, beq_iff_eq, Bool.and_eq_true, decide_eq_true_eq] at he
      omega
    refine engineCommandStart_waits ho (h.wider (.inl ?_)).mayPerform_false
    rw [hscope]
    unfold startScope
    split
    · exact le_rfl
    · exact recordScope_ge o

end

/-- The check step that waits for plane instructions alone, as `Op.checks` has it. -/
theorem checks_atomic {o : Op} (hc : o.checks = true) (h40 : 0x40 ≤ o.code) :
    0x40 ≤ o.code ∧ o.code ≤ 0x4A ∧ o.f.z.getLsbD 9 = false ∧ o.st = .issued := by
  rw [← bitAt_eq_getLsbD]
  simp only [Op.checks, atomicScratch, Bool.and_eq_true, Bool.or_eq_true, beq_iff_eq, decide_eq_true_eq, Bool.not_eq_true'] at hc
  obtain ⟨hst, hcode⟩ := hc
  rcases hcode with h | ⟨⟨-, hle⟩, hz⟩
  · omega
  · exact ⟨h40, hle, hz, hst⟩

/-! ### An operation leaves its stream (R120 step 4) -/

theorem retireOp_stays {s : State} {c : Nat} {x : CtxId} {o : Op} (ho : s.opAt c x o.id = some o) (hp : s.performedOwn c o = false) :
    s.retireOp c x o.id = s := by
  simp [State.retireOp, ho, hp]

theorem retireOp_leaves {s : State} {c : Nat} {x : CtxId} {o : Op} (ho : s.opAt c x o.id = some o) (hp : s.performedOwn c o = true) :
    ∀ p ∈ ((s.retireOp c x o.id).ctxAt c x).ops, p.id = o.id → p.retired = true := by
  intro p hmem hid
  rw [State.retireOp, ho] at hmem
  simp only [hp, if_true, State.setOp, sweep_setCtx, State.ctxAt_setCtx_self, List.mem_filter, List.mem_map] at hmem
  obtain ⟨⟨q, -, hq⟩, -⟩ := hmem
  split at hq
  · rw [← hq]
  · next hne => exact absurd (hq ▸ hid) hne

/-! ### Propagation (R120 step 3) -/

/-- A write is performed one instance wider. -/
def WEntry.widened (seq : Nat) (e : WEntry) : WEntry := if e.seq = seq then { e with level := e.level + 1 } else e

/-- The log after a step of propagation, before it settles. -/
def State.widened (s : State) (seq : Nat) : State := { s with log := s.log.map (WEntry.widened seq) }

theorem exec_writePropagate (s : State) (seq : Nat) : exec (.writePropagate seq) s = .next (s.widened seq).settle := rfl

section
variable {e : WEntry} {seq : Nat}

theorem WEntry.widened_seq : (e.widened seq).seq = e.seq := by
  unfold WEntry.widened
  split <;> rfl

theorem WEntry.widened_core : (e.widened seq).core = e.core := by
  unfold WEntry.widened
  split <;> rfl

theorem WEntry.widened_cells : (e.widened seq).cells = e.cells := by
  unfold WEntry.widened
  split <;> rfl

theorem WEntry.widened_level : (e.widened seq).level = if e.seq = seq then e.level + 1 else e.level := by
  unfold WEntry.widened
  split <;> rfl

theorem WEntry.widened_performedIn {c scope : Nat} (h : e.performedIn c scope = true) : (e.widened seq).performedIn c scope = true := by
  simp only [WEntry.performedIn, Bool.or_eq_true, Bool.and_eq_true, decide_eq_true_eq, beq_iff_eq, WEntry.widened_core,
    WEntry.widened_level] at h ⊢
  split <;> omega

end

/-- Where the numbers of a log rise, each finds its own entry. -/
theorem find_seq_of_mem {l : List WEntry} (hl : l.Pairwise (fun a b => a.seq < b.seq)) {e : WEntry} (he : e ∈ l) :
    l.find? (fun d => d.seq == e.seq) = some e := by
  induction l with
  | nil => exact absurd he List.not_mem_nil
  | cons d r ih =>
    obtain ⟨hd, hr⟩ := List.pairwise_cons.1 hl
    rcases List.mem_cons.1 he with rfl | her
    · exact List.find?_cons_of_pos (by simp)
    · rw [List.find?_cons_of_neg (by simpa using (hd e her).ne)]
      exact ih hr her

theorem seqPerformed_of {s : State} {c scope n : Nat} (h : ∀ e ∈ s.log, e.seq = n → e.performedIn c scope = true) :
    s.seqPerformed c scope n = true := by
  unfold State.seqPerformed
  cases hf : s.log.find? (fun e => e.seq == n) with
  | none => rfl
  | some e => exact h e (List.mem_of_find?_eq_some hf) (by simpa using List.find?_some hf)

/-- An entry still listed after propagation is one listed before, widened. -/
theorem propagated_mem {s : State} {seq : Nat} {e : WEntry} (he : e ∈ (s.widened seq).settle.log) : ∃ d ∈ s.log, d.widened seq = e :=
  List.mem_map.1 ((settleLog_suffix _ _).subset he)

/-- What a location reads as in an instance. -/
theorem imageIn_snd (s : State) (k scope a : Nat) : (s.imageIn k scope a).2 =
    ((latest (fun e => e.performedIn k scope) a s.log).map (·.2)).getD (s.mem.read a) := by
  unfold State.imageIn
  cases latest (fun e => e.performedIn k scope) a s.log <;> rfl

/-- Settling changes no instance, where each write's cells rise. -/
theorem settle_imageIn {s : State} (hs : ∀ e ∈ s.log, e.cells.Pairwise (fun a b => a.1 < b.1)) (k scope a : Nat) :
    (s.settle.imageIn k scope a).2 = (s.imageIn k scope a).2 := by
  have hread := settleLog_latest hs s.mem (fun e => e.performedIn k scope) (fun e _ hl => by simp [WEntry.performedIn, hl]) a
  rw [imageIn_snd, imageIn_snd]
  exact hread

section
variable {s : State} (hs : LogOk s) {seq : Nat}
include hs

theorem propagated_performed {k scope n : Nat} (h : s.seqPerformed k scope n = true) :
    (s.widened seq).settle.seqPerformed k scope n = true := by
  refine seqPerformed_of fun e he hn => ?_
  obtain ⟨d, hd, rfl⟩ := propagated_mem he
  rw [WEntry.widened_seq] at hn
  have hfind := find_seq_of_mem hs.1 hd
  rw [State.seqPerformed, ← hn, hfind] at h
  exact WEntry.widened_performedIn h

/-- Numbers rise, so only one entry has a write's number. -/
theorem entry_unique {d e : WEntry} (hd : d ∈ s.log) (he : e ∈ s.log) (h : d.seq = e.seq) : d = e :=
  Option.some.inj ((find_seq_of_mem hs.1 hd).symm.trans (h ▸ find_seq_of_mem hs.1 he))

/-- The write is performed in the group of its core, and where it was so already, everywhere. -/
theorem propagated_wider {e : WEntry} (he : e ∈ s.log) (hseq : e.seq = seq) :
    (∀ k, k / 8 = e.core / 8 → ∀ scope ≤ 1, (s.widened seq).settle.seqPerformed k scope seq = true) ∧
    (1 ≤ e.level → ∀ k scope, (s.widened seq).settle.seqPerformed k scope seq = true) := by
  have entry {d : WEntry} (hd : d ∈ (s.widened seq).settle.log) (hn : d.seq = seq) : d.core = e.core ∧ d.level = e.level + 1 := by
    obtain ⟨d', hd', rfl⟩ := propagated_mem hd
    rw [WEntry.widened_seq] at hn
    obtain rfl := entry_unique hs hd' he (hn.trans hseq.symm)
    exact ⟨WEntry.widened_core, by rw [WEntry.widened_level, if_pos hseq]⟩
  refine ⟨fun k hk scope hscope => seqPerformed_of fun d hd hn => ?_, fun hlevel k scope => seqPerformed_of fun d hd hn => ?_⟩
  · obtain ⟨hcore, hl⟩ := entry hd hn
    simp only [WEntry.performedIn, Config.groupCores, Bool.or_eq_true, Bool.and_eq_true, decide_eq_true_eq, beq_iff_eq, hcore, hl]
    omega
  · obtain ⟨hcore, hl⟩ := entry hd hn
    simp only [WEntry.performedIn, Bool.or_eq_true, Bool.and_eq_true, decide_eq_true_eq, beq_iff_eq, hl]
    omega

/-- A location that the write does not hold reads the same. -/
theorem propagated_imageIn {a : Nat} (ha : ∀ e ∈ s.log, e.seq = seq → e.byteAt a = none) (k scope : Nat) :
    ((s.widened seq).settle.imageIn k scope a).2 = (s.imageIn k scope a).2 := by
  have hwide : LogOk (s.widened seq) := by
    refine ⟨List.pairwise_map.2 (by simpa only [WEntry.widened_seq] using hs.1), fun e he => ?_⟩
    obtain ⟨d, hd, rfl⟩ := List.mem_map.1 he
    rw [WEntry.widened_seq, WEntry.widened_cells]
    exact hs.2 d hd
  have hlatest (l : List WEntry) (hl : ∀ e ∈ l, e.seq = seq → e.byteAt a = none) :
      latest (fun e => e.performedIn k scope) a (l.map (WEntry.widened seq)) = latest (fun e => e.performedIn k scope) a l := by
    induction l with
    | nil => rfl
    | cons e r ih =>
      have hbyte : (e.widened seq).byteAt a = e.byteAt a := by rw [WEntry.byteAt, WEntry.widened_cells, WEntry.byteAt]
      rw [List.map_cons, latest, latest, ih fun d hd => hl d (List.mem_cons_of_mem _ hd), WEntry.widened_seq, hbyte]
      by_cases he : e.seq = seq
      · rw [hl e List.mem_cons_self he]
        simp
      · rw [WEntry.widened, if_neg he]
  rw [settle_imageIn (fun e he => (hwide.2 e he).2.imp fun h => h.1), imageIn_snd, imageIn_snd]
  exact congrArg (fun p => (Option.map Prod.snd p).getD (s.mem.read a)) (hlatest s.log ha)

end

/-- Settles O39: an operation by the predecessor that holds it back, a retirement by whether it is performed, a propagation by the entry
it widens. -/
theorem orderAndPropagation : Obligations.OrderAndPropagation := by
  unfold Obligations.OrderAndPropagation
  intro c seq x o ch s hs
  refine ⟨fun hnone => ?_, fun ho hf => ?_, retireOp_stays, retireOp_leaves,
    (s.widened seq).settle, exec_writePropagate s seq, rfl, fun e he hseq => ?_, fun k scope n => propagated_performed hs,
    fun a ha k scope => propagated_imageIn hs ha k scope⟩
  · show execOperationPerform c x seq ch s = _
    rw [execOperationPerform, hnone]
  · rintro scope checks ⟨y, hy, hlt, hopen, hbefore, hplane⟩
    have held : HeldBack s c x o (awaitScope o) y := ⟨hy, hlt, by simpa [mustPrecede, or_assoc] using hbefore, hopen⟩
    refine ⟨operationPerform_waits_of ho hf held fun hc h40 => ?_, engineCommandStart_waits_of ho held⟩
    rcases hplane (checks_atomic hc h40) with h | h | h <;> rw [h] <;> rfl
  · obtain ⟨hgroup, hall⟩ := propagated_wider hs he hseq
    exact ⟨fun k hk => ⟨hgroup k hk 1 le_rfl, hgroup k hk 0 (Nat.zero_le 1)⟩, hall⟩

end Sys2Proof.Machine
end

section
/-! SUPPORT. What a read takes: the latest write up to a point of the coherence order, the points it can take, and how an access that is
one unit is read in one piece (R122, R129). -/

namespace Sys2Proof.Machine

/-! ### The latest write up to a point -/

/-- With no latest write, no accepted write holds the location. -/
theorem byteAt_of_latest_none {p : WEntry → Bool} {a : Nat} {l : List WEntry} (h : latest p a l = none) {e : WEntry} (he : e ∈ l)
    (hp : p e = true) : e.byteAt a = none := by
  induction l with
  | nil => exact absurd he List.not_mem_nil
  | cons d r ih =>
    rw [latest] at h
    cases hlr : latest p a r with
    | some q => simp [hlr] at h
    | none =>
      rw [hlr] at h
      rcases List.mem_cons.1 he with rfl | her
      · simpa [hp] using h
      · exact ih hlr her

/-- Where the numbers of a log rise, no accepted write to the location is later than the latest. -/
theorem seq_le_latest {p : WEntry → Bool} {a : Nat} {l : List WEntry} (hl : l.Pairwise (fun d e => d.seq < e.seq)) {n : Nat} {b : Byte}
    (h : latest p a l = some (n, b)) {e : WEntry} (he : e ∈ l) (hp : p e = true) (hb : e.byteAt a ≠ none) : e.seq ≤ n := by
  induction l with
  | nil => exact absurd he List.not_mem_nil
  | cons d r ih =>
    obtain ⟨hd, hr⟩ := List.pairwise_cons.1 hl
    rw [latest] at h
    cases hlr : latest p a r with
    | some q =>
      rw [hlr] at h
      obtain rfl : q = (n, b) := Option.some.inj h
      rcases List.mem_cons.1 he with rfl | her
      · obtain ⟨f, hf, -, rfl, -⟩ := latest_mem hlr
        exact (hd f hf).le
      · exact ih hr hlr her
    | none =>
      rw [hlr] at h
      rcases List.mem_cons.1 he with rfl | her
      · obtain ⟨v, hv⟩ := Option.ne_none_iff_exists'.1 hb
        simp only [hp, if_true, hv, Option.map_some, Option.some.injEq, Prod.mk.injEq] at h
        exact h.1.le
      · exact absurd (byteAt_of_latest_none hlr her hp) hb

/-- A location as of a point is as memory stands, no visible write up to the point holding it, or as the latest of those that do left it. -/
theorem byteUpTo_asOf {s : State} (hs : LogOk s) (c n a : Nat) :
    (s.byteUpTo c n a = (0, s.mem.read a) ∧ ∀ e ∈ s.log, e.visible c = true → e.byteAt a ≠ none → n < e.seq) ∨
    ∃ e ∈ s.log, e.seq = (s.byteUpTo c n a).1 ∧ e.visible c = true ∧ e.byteAt a = some (s.byteUpTo c n a).2 ∧ e.seq ≤ n ∧
      ∀ p ∈ s.log, p.visible c = true → p.byteAt a ≠ none → p.seq ≤ n → p.seq ≤ e.seq := by
  unfold State.byteUpTo
  cases hl : latest (fun e => e.visible c && decide (e.seq ≤ n)) a s.log with
  | none =>
    refine .inl ⟨rfl, fun e he hv hb => Nat.lt_of_not_le fun hle => hb ?_⟩
    exact byteAt_of_latest_none hl he (by simp [hv, hle])
  | some q =>
    obtain ⟨e, he, hp, hseq, hb⟩ := latest_mem hl
    rw [Bool.and_eq_true, decide_eq_true_eq] at hp
    refine .inr ⟨e, he, hseq, hp.1, hb, hp.2, fun p hpl hv hpb hle => ?_⟩
    exact hseq ▸ seq_le_latest hs.1 hl hpl (by simp [hv, hle]) hpb

/-! ### The point that a unit takes (R122) -/

/-- The point: the newest but for `cut` writes, no earlier than the floors. -/
def State.readPoint (s : State) (c : Nat) (x : CtxId) (scope cut : Nat) (ls : List Nat) : Nat :=
  ls.foldl (fun n a => max n (s.readFloor c x scope a)) (s.nextSeq - 1 - cut)

theorem readUnit_eq (s : State) (c : Nat) (x : CtxId) (scope cut : Nat) (ls : List Nat) :
    s.readUnit c x scope cut ls = ls.map (s.byteUpTo c (s.readPoint c x scope cut ls)) := rfl

theorem le_foldl_max (f : Nat → Nat) (ls : List Nat) (m : Nat) : m ≤ ls.foldl (fun n a => max n (f a)) m := by
  induction ls generalizing m with
  | nil => exact le_rfl
  | cons a r ih => exact (le_max_left m (f a)).trans (ih _)

theorem apply_le_foldl_max (f : Nat → Nat) {ls : List Nat} {a : Nat} (ha : a ∈ ls) (m : Nat) :
    f a ≤ ls.foldl (fun n a => max n (f a)) m := by
  induction ls generalizing m with
  | nil => exact absurd ha List.not_mem_nil
  | cons b r ih =>
    rcases List.mem_cons.1 ha with rfl | har
    · exact (le_max_right m (f a)).trans (le_foldl_max f r _)
    · exact ih har _

theorem foldl_max_eq {f : Nat → Nat} {ls : List Nat} {m : Nat} (h : ∀ a ∈ ls, f a ≤ m) : ls.foldl (fun n a => max n (f a)) m = m := by
  induction ls with
  | nil => rfl
  | cons a r ih =>
    rw [List.foldl_cons, max_eq_left (h a List.mem_cons_self)]
    exact ih fun b hb => h b (List.mem_cons_of_mem _ hb)

theorem readFloor_le_iff {s : State} {c : Nat} {x : CtxId} {scope a n : Nat} :
    s.readFloor c x scope a ≤ n ↔ (s.imageIn c scope a).1 ≤ n ∧ (s.ctxAt c x).seen.get 0 a ≤ n := max_le_iff

/-- The point is not before the floor of any location. -/
theorem readFloor_le_readPoint (s : State) (c : Nat) (x : CtxId) (scope cut : Nat) {ls : List Nat} {a : Nat} (ha : a ∈ ls) :
    s.readFloor c x scope a ≤ s.readPoint c x scope cut ls := apply_le_foldl_max _ ha _

/-- Every point that is not before a floor is that of some cut. -/
theorem readPoint_takes {s : State} {c : Nat} {x : CtxId} {scope n : Nat} {ls : List Nat} (h : ∀ a ∈ ls, s.readFloor c x scope a ≤ n)
    (hn : n < s.nextSeq) : s.readPoint c x scope (s.nextSeq - 1 - n) ls = n := by
  have hcut : s.nextSeq - 1 - (s.nextSeq - 1 - n) = n := by omega
  rw [State.readPoint, hcut]
  exact foldl_max_eq h

/-- A place of a list beside its image. -/
theorem mem_zip_map {α β : Type} {f : α → β} {l : List α} {e : α × β} (he : e ∈ l.zip (l.map f)) : e.2 = f e.1 := by
  rw [List.zip_map_right] at he
  obtain ⟨⟨a, b⟩, hab, rfl⟩ := List.mem_map.1 he
  obtain rfl : a = b := by
    have := List.mem_iff_getElem.1 hab
    obtain ⟨i, hi, hab⟩ := this
    rw [List.getElem_zip, Prod.mk.injEq] at hab
    exact hab.1.symm.trans hab.2
  rfl

/-! ### An access that is one unit (R129) -/

/-- The unit of a location after the last one read, if there is one, and its unit. -/
def unitAfter : Option (Nat × Nat) → Nat → Nat
  | some (b, u), a => if a = b + 1 ∧ rowOf a = rowOf b then u else a / 8
  | none, a => a / 8

theorem smallUnits_cons (p : Option (Nat × Nat)) (a : Nat) (r : List Nat) :
    smallUnits p (a :: r) = unitAfter p a :: smallUnits (some (a, unitAfter p a)) r := by
  cases p <;> rfl

theorem smallUnits_one {u : Nat} {ls : List Nat} (h : ∀ a ∈ ls, a / 8 = u) {p : Option (Nat × Nat)} (hp : ∀ b v, p = some (b, v) → v = u) :
    smallUnits p ls = ls.map (fun _ => u) := by
  induction ls generalizing p with
  | nil => rfl
  | cons a r ih =>
    have ha := h a List.mem_cons_self
    have hu : unitAfter p a = u := by
      cases p with
      | none => exact ha
      | some q =>
        rw [unitAfter, ha, hp q.1 q.2 rfl, ite_self]
    rw [smallUnits_cons, hu, List.map_cons, ih (fun b hb => h b (List.mem_cons_of_mem _ hb)) fun b v hq => by cases hq; rfl]

theorem unitKeys_one {u : Nat} {ls : List Nat} (h : ∀ a ∈ ls, a / 8 = u) : unitKeys ls = ls.map (fun _ => u) := by
  unfold unitKeys
  split
  · exact smallUnits_one h nofun
  · exact List.map_congr_left h

/-- Rows rise with the locations. -/
theorem rowOf_mono {a b : Nat} (h : a ≤ b) : rowOf a ≤ rowOf b := by
  simp only [rowOf, isDevice, decide_eq_true_eq]
  split <;> split <;> omega

/-- The locations after one of a row that go on in it stay in its unit. -/
theorem smallUnits_span {a u n : Nat} (h : ∀ i < n, rowOf (a + 1 + i) = rowOf a) :
    smallUnits (some (a, u)) (span (a + 1) n) = (span (a + 1) n).map (fun _ => u) := by
  induction n generalizing a with
  | zero => rfl
  | succ n ih =>
    have h0 : rowOf (a + 1) = rowOf a := h 0 (Nat.succ_pos n)
    have hu : unitAfter (some (a, u)) (a + 1) = u := if_pos ⟨rfl, h0⟩
    rw [span_succ, smallUnits_cons, hu, List.map_cons]
    refine congrArg (u :: ·) (ih fun i hi => ?_)
    rw [h0, ← h (i + 1) (Nat.succ_lt_succ hi), Nat.add_right_comm (a + 1) 1 i, Nat.add_assoc]

theorem unitKeys_span {a n : Nat} (h1 : 1 ≤ n) (h8 : n ≤ 8) (hrow : rowOf a = rowOf (a + n - 1)) :
    unitKeys (span a n) = (span a n).map (fun _ => a / 8) := by
  obtain ⟨m, rfl⟩ : ∃ m, n = m + 1 := ⟨n - 1, by omega⟩
  have hlen : (span a (m + 1)).length ≤ 8 := by
    rw [span, List.length_map, List.length_range]
    exact h8
  rw [unitKeys, if_pos hlen, span_succ, smallUnits_cons, List.map_cons]
  refine congrArg (a / 8 :: ·) (smallUnits_span fun i hi => le_antisymm ?_ (rowOf_mono (by omega)))
  rw [hrow]
  exact rowOf_mono (by omega)

theorem unitRuns_one {u : Nat} {ls : List Nat} (h : ls ≠ []) : unitRuns (ls.zip (ls.map (fun _ => u))) = [ls] := by
  induction ls with
  | nil => exact absurd rfl h
  | cons a r ih =>
    cases r with
    | nil => rfl
    | cons b r =>
      have hrest : unitRuns ((b, u) :: r.zip (r.map (fun _ => u))) = [b :: r] := ih (List.cons_ne_nil b r)
      rw [List.map_cons, List.map_cons, List.zip_cons_cons, List.zip_cons_cons, unitRuns, hrest]
      exact if_pos rfl

/-- An access whose locations are one unit is read at one point. -/
theorem readLocs_one {s : State} {c : Nat} {x : CtxId} {scope u : Nat} {cuts ls : List Nat} (h : ls ≠ [])
    (hk : unitKeys ls = ls.map (fun _ => u)) : s.readLocs c x scope cuts ls = s.readUnit c x scope (cuts.headD 0) ls := by
  rw [State.readLocs, State.readUnits, withUnits, hk]
  split
  · next hempty =>
    have hlog : s.log = [] := List.isEmpty_iff.1 hempty
    have hbyte (n a : Nat) : s.byteUpTo c n a = (0, s.mem.read a) := by rw [State.byteUpTo, hlog, latest_nil]
    rw [readUnit_eq, List.map_congr_left (g := fun a => (0, s.mem.read a)) fun a _ => hbyte _ a, ← Function.comp_def
      (fun a => (0, s.mem.read a)),
      ← List.map_map, List.map_fst_zip (by rw [List.length_map])]
  · rw [unitRuns_one h, State.readRuns, State.readRuns, List.append_nil]

/-! ### What a context has read or performed (R122) -/

theorem le_raiseFloors (t : Tab Nat) (es : List (Nat × Nat)) (a : Nat) : t.get 0 a ≤ (raiseFloors t es).get 0 a := by
  induction es generalizing t with
  | nil => exact le_rfl
  | cons e r ih =>
    refine le_trans ?_ (ih _)
    split
    · rw [Tab.get_set]
      split
      · next hlt ha => exact ha ▸ hlt.le
      · exact le_rfl
    · exact le_rfl

theorem raised_le_raiseFloors {t : Tab Nat} {es : List (Nat × Nat)} {a n : Nat} (h : (a, n) ∈ es) : n ≤ (raiseFloors t es).get 0 a := by
  induction es generalizing t with
  | nil => exact absurd h List.not_mem_nil
  | cons e r ih =>
    rcases List.mem_cons.1 h with rfl | hr
    · refine le_trans ?_ (le_raiseFloors _ r a)
      split
      · rw [Tab.get_set_self]
      · next hlt => exact Nat.not_lt.1 hlt
    · exact ih hr

/-- Settles O37: the point of a unit, the cut that takes a point, and accesses that are one unit. -/
theorem readsTakeAWrite : Obligations.ReadsTakeAWrite := by
  unfold Obligations.ReadsTakeAWrite
  intro c scope x ls s hs above asOf
  have takes (cut : Nat) : ∀ e ∈ ls.zip (s.readUnit c x scope cut ls), asOf (s.readPoint c x scope cut ls) e.1 e.2 := by
    rintro ⟨a, r⟩ he
    rw [readUnit_eq] at he
    have hr : r = s.byteUpTo c (s.readPoint c x scope cut ls) a := mem_zip_map he
    rw [hr]
    exact byteUpTo_asOf hs c _ a
  have length (cut : Nat) : (s.readUnit c x scope cut ls).length = ls.length := by rw [readUnit_eq, List.length_map]
  refine ⟨fun cut => ⟨s.readPoint c x scope cut ls, _, rfl, length cut, fun a ha => ?_, takes cut⟩, fun n habove hn => ?_,
    fun u cuts hne hu => readLocs_one hne (unitKeys_one hu), fun a n cuts h1 h8 hrow => readLocs_one ?_ (unitKeys_span h1 h8 hrow),
    fun es a hlog => ?_⟩
  · exact readFloor_le_iff.1 (readFloor_le_readPoint s c x scope cut ha)
  · have hpoint := readPoint_takes (fun a ha => readFloor_le_iff.2 (habove a ha)) hn
    have := takes (s.nextSeq - 1 - n)
    rw [hpoint] at this
    exact ⟨s.nextSeq - 1 - n, _, rfl, length _, this⟩
  · obtain ⟨m, rfl⟩ : ∃ m, n = m + 1 := ⟨n - 1, by omega⟩
    exact span_succ a m ▸ List.cons_ne_nil _ _
  · have hnote : ((s.note c x es).ctxAt c x).seen = raiseFloors (s.ctxAt c x).seen es := by
      rw [State.note, if_neg (by rwa [List.isEmpty_iff]), State.ctxAt_setCtx_self]
    dsimp only
    rw [hnote]
    exact ⟨le_raiseFloors _ es a, fun n hn => raised_le_raiseFloors hn⟩

end Sys2Proof.Machine
end

section
/-! SUPPORT. A store of cells that lie in scratchpads: the counters of device memory stay, each instance the write reaches has its bytes,
and nothing else reads otherwise (R117 to R120, R129). -/

namespace Sys2Proof.Machine

/-! ### Cells as a table -/

/-- Cells name one byte for each location they hold: the last of them there. -/
structure LastOf (cells m : List Host.Cell) : Prop where
  value : ∀ pre a b post, cells = pre ++ (a, b) :: post → (∀ e ∈ post, e.1 ≠ a) → m.lookup a = some b
  frame : ∀ a, (∀ e ∈ cells, e.1 ≠ a) → m.lookup a = none

/-- Rising cells are their own table. -/
theorem lastOf_rising {cells : List Host.Cell} (h : cells.Pairwise (fun a b => a.1 < b.1)) : LastOf cells cells := by
  refine ⟨fun pre a b post he _ => ?_, fun a ha => lookup_eq_none_of_not_mem ha⟩
  subst he
  obtain ⟨-, -, hpre⟩ := List.pairwise_append.1 h
  rw [List.lookup_append, lookup_eq_none_of_not_mem fun e hm => (hpre e hm (a, b) List.mem_cons_self).ne]
  simp

theorem lookup_set {α : Type} (m : Tab α) (k a : Nat) (v : α) : List.lookup a (m.set k v) = if a = k then some v else List.lookup a m := by
  induction m with
  | nil =>
    rw [Tab.set, List.lookup_cons, List.lookup_nil]
    by_cases h : a = k
    · simp [h]
    · simp [h, beq_false_of_ne h]
  | cons e r ih =>
    obtain ⟨k', v'⟩ := e
    rw [Tab.set]
    split
    · rw [List.lookup_cons]
      by_cases h : a = k
      · simp [h]
      · simp [h, beq_false_of_ne h]
    · split
      · next hk =>
        subst hk
        rw [List.lookup_cons, List.lookup_cons]
        by_cases h : a = k
        · simp [h]
        · simp [h, beq_false_of_ne h]
      · next hk =>
        rw [List.lookup_cons, List.lookup_cons, ih]
        by_cases h : a = k
        · simp [h, beq_false_of_ne hk]
        · simp [h]

theorem lookup_setAll_append {α : Type} (m : Tab α) (l r : List (Nat × α)) : m.setAll (l ++ r) = (m.setAll l).setAll r := by
  induction l generalizing m with
  | nil => rfl
  | cons e l ih => exact ih _

theorem lookup_setAll_of_not_mem {α : Type} {l : List (Nat × α)} {a : Nat} (h : ∀ e ∈ l, e.1 ≠ a) (m : Tab α) :
    List.lookup a (m.setAll l) = List.lookup a m := by
  induction l generalizing m with
  | nil => rfl
  | cons e r ih =>
    rw [Tab.setAll, ih fun d hd => h d (List.mem_cons_of_mem _ hd), lookup_set,
      if_neg fun ha => h e List.mem_cons_self ha.symm]

/-- The last pair of a key stands. -/
theorem lookup_setAll_last {α : Type} {pre post : List (Nat × α)} {a : Nat} {v : α} (h : ∀ e ∈ post, e.1 ≠ a) (m : Tab α) :
    List.lookup a (m.setAll (pre ++ (a, v) :: post)) = some v := by
  rw [lookup_setAll_append, Tab.setAll, lookup_setAll_of_not_mem h, lookup_set, if_pos rfl]

/-- A table whose keys rise stays one. -/
theorem set_ordered {α : Type} {m : Tab α} (h : Ordered m) (k : Nat) (v : α) : Ordered (m.set k v) := by
  induction m with
  | nil => exact List.pairwise_singleton ..
  | cons e r ih =>
    obtain ⟨k', v'⟩ := e
    obtain ⟨hhead, hr⟩ := List.pairwise_cons.1 h
    have keys : ∀ d ∈ Tab.set r k v, d.1 = k ∨ d ∈ r := by
      intro d hd
      clear ih h hhead hr
      induction r with
      | nil => exact .inl (by rw [List.mem_singleton.1 hd])
      | cons f r ih =>
        rw [Tab.set] at hd
        split at hd
        · rcases List.mem_cons.1 hd with rfl | hd
          · exact .inl rfl
          · exact .inr hd
        · split at hd
          · rcases List.mem_cons.1 hd with rfl | hd
            · exact .inl rfl
            · exact .inr (List.mem_cons_of_mem _ hd)
          · rcases List.mem_cons.1 hd with rfl | hd
            · exact .inr List.mem_cons_self
            · exact (ih hd).imp_right (List.mem_cons_of_mem _)
    rw [Tab.set]
    split
    · next hlt =>
      refine List.pairwise_cons.2 ⟨fun d hd => ?_, h⟩
      rcases List.mem_cons.1 hd with rfl | hd
      · exact hlt
      · exact hlt.trans (hhead d hd)
    · split
      · next heq => exact List.pairwise_cons.2 ⟨fun d hd => heq ▸ hhead d hd, hr⟩
      · next hlt hne =>
        refine List.pairwise_cons.2 ⟨fun d hd => ?_, ih hr⟩
        rcases keys d hd with hd | hd
        · rw [hd]
          exact Nat.lt_of_le_of_ne (Nat.not_lt.1 hlt) (Ne.symm hne)
        · exact hhead d hd

theorem setAll_ordered {α : Type} {m : Tab α} (h : Ordered m) (l : List (Nat × α)) : Ordered (m.setAll l) := by
  induction l generalizing m with
  | nil => exact h
  | cons e r ih => exact ih (set_ordered h ..)

theorem sortCells_rising (cells : List Host.Cell) : (sortCells cells).Pairwise (fun a b => a.1 < b.1) :=
  setAll_ordered List.Pairwise.nil cells

theorem sortCells_lastOf (cells : List Host.Cell) : LastOf cells (sortCells cells) :=
  ⟨fun _ _ _ _ he h => he ▸ lookup_setAll_last h [], fun _ h => lookup_setAll_of_not_mem h []⟩

/-! ### The write -/

/-- The log with the parts of a write after it. -/
def State.appended (s : State) (c scope : Nat) (us : List (Host.Cell × Nat)) : State :=
  { s with log := s.log ++ (cutParts us).mapIdx (fun i p => ⟨s.nextSeq + i, p, c, min scope 2⟩),
           nextSeq := s.nextSeq + (cutParts us).length }

theorem bumpLines_scratch {s : State} {ls : List Nat} (h : ∀ a ∈ ls, isDevice a = false) : s.bumpLines ls = s := by
  induction ls with
  | nil => rfl
  | cons a r ih =>
    have hbump : s.bumpLine a = s := by rw [State.bumpLine, h a List.mem_cons_self]; rfl
    rw [State.bumpLines, hbump, ih fun b hb => h b (List.mem_cons_of_mem _ hb)]

theorem linesOf_scratch {cells : List Host.Cell} (h : ∀ e ∈ cells, 2 ^ 56 ≤ e.1) : ∀ a ∈ linesOf cells, isDevice a = false := by
  intro a ha
  obtain ⟨e, he, rfl⟩ := List.mem_map.1 (List.mem_dedup.1 ha)
  have := h e he
  exact decide_eq_false (by omega)

/-- A write of scratchpad cells appends its parts, settles, and notes what the context has performed. -/
theorem writeUnits_scratch (s : State) (c : Nat) (x : CtxId) (scope : Nat) {us : List (Host.Cell × Nat)}
    (h : ∀ e ∈ us, 2 ^ 56 ≤ e.1.1) : s.writeUnits c x scope us =
      (s.appended c scope us).settle.note c x ((us.map (·.1)).map (fun e => (e.1, s.nextSeq + (cutParts us).length - 1))) := by
  have hlines := linesOf_scratch (cells := us.map (·.1)) fun e he => by
    obtain ⟨u, hu, rfl⟩ := List.mem_map.1 he
    exact h u hu
  rw [State.writeUnits, bumpLines_scratch hlines, State.putWrites_eq]
  rfl

section
variable {s : State} (hs : LogOk s) {c scope : Nat} {us : List (Host.Cell × Nat)}
include hs

theorem appended_rising : ∀ e ∈ (s.appended c scope us).log, e.cells.Pairwise (fun a b => a.1 < b.1) := by
  intro e he
  rcases List.mem_append.1 he with he | he
  · exact (hs.2 e he).2.imp fun h => h.1
  · obtain ⟨i, hi, rfl⟩ := List.mem_mapIdx.1 he
    exact cutParts_rising us _ (List.getElem_mem hi)

theorem appended_stored {cells : List Host.Cell} (hrise : (us.map (·.1)).Pairwise (fun a b => a.1 < b.1))
    (hlast : LastOf cells (us.map (·.1))) : Stored s (s.appended c scope us).settle c scope cells := by
  have value (k sc a : Nat) : ((s.appended c scope us).settle.imageIn k sc a).2 =
      (((latest (fun e => e.performedIn k sc) a ((cutParts us).mapIdx fun i p => ⟨s.nextSeq + i, p, c, min scope 2⟩)).or
        (latest (fun e => e.performedIn k sc) a s.log)).map (·.2)).getD (s.mem.read a) := by
    rw [settle_imageIn (appended_rising hs), imageIn_snd, State.appended, latest_append]
  have outside {a : Nat} (ha : ∀ e ∈ cells, e.1 ≠ a) (test : WEntry → Bool) :
      latest test a ((cutParts us).mapIdx fun i p => ⟨s.nextSeq + i, p, c, min scope 2⟩) = none := by
    refine latest_none fun e he _ => ?_
    obtain ⟨i, hi, rfl⟩ := List.mem_mapIdx.1 he
    refine lookup_eq_none_of_not_mem fun d hd hda => ?_
    have hmem : d ∈ us.map (·.1) := by
      rw [← cutParts_flatten]
      exact List.mem_flatten.2 ⟨_, List.getElem_mem hi, hd⟩
    have hsome := lastOf_rising hrise
    obtain ⟨pre, post, hsplit⟩ := List.append_of_mem hmem
    have := hsome.value pre d.1 d.2 post hsplit fun e hpost => by
      rw [hsplit] at hrise
      exact ((List.pairwise_cons.1 (List.pairwise_append.1 hrise).2.1).1 e hpost).ne'
    rw [hda, hlast.frame a ha] at this
    exact absurd this nofun
  refine ⟨fun pre a b post he hpost => ?_, fun a ha => ⟨?_, fun k sc => ?_⟩⟩
  · have hparts := latest_parts (test := fun e => e.performedIn c scope) (ps := cutParts us)
      (f := fun i p => ⟨s.nextSeq + i, p, c, min scope 2⟩) (fun _ _ => ⟨?_, rfl⟩) (by rwa [cutParts_flatten]) a
    · rw [cutParts_flatten, hlast.value pre a b post he hpost] at hparts
      rw [value]
      cases hl : latest (fun e => e.performedIn c scope) a ((cutParts us).mapIdx fun i p => ⟨s.nextSeq + i, p, c, min scope 2⟩) with
      | none => simp [hl] at hparts
      | some q => simpa [hl] using hparts
    · simp only [WEntry.performedIn, Bool.or_eq_true, Bool.and_eq_true, decide_eq_true_eq, beq_iff_eq, and_true]
      omega
  · have hread := settleLog_latest (appended_rising hs (c := c) (scope := scope) (us := us)) s.mem (fun e => decide (2 ≤ e.level))
      (fun _ _ => decide_eq_true) a
    rw [State.image_eq_latest, State.image_eq_latest s]
    refine hread.trans ?_
    rw [State.appended, latest_append, outside ha]
    rfl
  · rw [value, outside ha, imageIn_snd]
    rfl

end

end Sys2Proof.Machine
end

section
/-! SUPPORT. How a scratchpad operation performs: the step it takes once its predecessors let it, what its read or write leaves of its
context, and the state that its performance ends in (R119, R120, R249). -/

namespace Sys2Proof.Machine

section
variable {c : Nat} {x : CtxId} {o : Op} {s : State}

/-! ### The step (R120 step 2) -/

/-- An operation whose code gives no scope of its own, and which is no engine command, performs at its scope. -/
theorem performScope_scratch (hcode : o.code < 0x20) : performScope s c o = o.scope := by
  rw [performScope, if_neg (by omega), if_neg (by omega)]

theorem isEngine_scratch (hcode : o.code < 0x20) : isEngine o.code = false := by
  simp only [isEngine, Bool.or_eq_false_iff, beq_eq_false_iff_ne, Bool.and_eq_false_iff, decide_eq_false_iff_not]
  omega

/-- Such an operation that may perform does what `performOp` says. -/
theorem exec_scratchPerform (h : MayPerform s c x o) (hcode : o.code < 0x20) (hchecks : o.checks = false) (ch : Choice) :
    exec (.operationPerform c x o.id ch) s = (s.setOp c x o).settlePerf c x o (performOp (s.setOp c x o) c x o ch) := by
  have going : (o.st == .done) = false := beq_eq_false_iff_ne.2 h.fresh
  have order : s.inOrder c x o = true := by
    rw [State.inOrder, hchecks]
    exact mayPerform_of h
  show execOperationPerform c x o.id ch s = _
  simp only [execOperationPerform, h.here, going, isEngine_scratch hcode, h.clear, performScope_scratch hcode, order, hchecks,
    Bool.or_self, Bool.false_eq_true, if_false, Bool.not_true]

/-- Only loads and stores of matrices have a check step among them. -/
theorem checks_false (hcode : o.code < 0x20) (h : o.st ≠ .issued ∨ o.code ≠ 0x16 ∧ o.code ≠ 0x17 ∧ o.code ≠ 0x18) :
    o.checks = false := by
  rcases h with h | ⟨h16, h17, h18⟩
  · rw [Op.checks, beq_eq_false_iff_ne.2 h, Bool.false_and]
  · have hlow : decide (0x40 ≤ o.code) = false := decide_eq_false (by omega)
    simp [Op.checks, h16, h17, h18, hlow]

/-! ### The end of a performance -/

/-- The issuing context with the operation put, and what it has read or performed. -/
def Ctx.putSeen (v : Ctx) (o : Op) (seen : Tab Nat) : Ctx := { v.put o with seen := seen }

/-- What a performance is beyond its own context depends on the core it is compared with. -/
theorem PerformedOp.of_core {u u' t : State} {d : Option (Nat × Word)} (h : PerformedOp u t c x o d) (hc : u'.coreAt c = u.coreAt c) :
    PerformedOp u' t c x o d := by
  have hx : u'.ctxAt c x = u.ctxAt c x := by rw [State.ctxAt, hc, State.ctxAt]
  exact ⟨hc ▸ h.core, hx ▸ h.rest, h.value, fun n hn => (h.regs n hn).trans (by rw [hx]), h.st⟩

/-- What comes of a performance, where all else that changed is core `c` and memory, as `u` has them. -/
theorem performs_of_settled {u : State} (hu : OnlyCoreOf s u c) (hx : u.ctxAt c x = s.ctxAt c x) (h : MayPerform s c x o)
    (hcode : o.code < 0x20) (hchecks : o.checks = false) {ch : Choice} {seen : Tab Nat} {val : Option Word} {took wrote : List Nat}
    (hp : performOp (s.setOp c x o) c x o ch = .done (u.setCtx c x ((s.ctxAt c x).putSeen o seen)) val took wrote) :
    ∃ t, exec (.operationPerform c x o.id ch) s = .next t ∧ OnlyCoreOf s t c ∧ PerformedOp u t c x o (writtenReg o val) ∧
      ∃ ks, t = { u with cores := ks } := by
  have there : (u.setCtx c x ((s.ctxAt c x).putSeen o seen)).opAt c x o.id = some o := by
    rw [State.opAt, State.ctxAt_setCtx_self]
    exact find_put h.here
  have done : Finished (u.ctxAt c x) (((s.ctxAt c x).putSeen o seen).finish o val took wrote) o (writtenReg o val) := by
    rw [hx]
    have hf := finish_finished ((s.ctxAt c x).putSeen o seen) o val took wrote
    exact ⟨hf.rest, hf.value, hf.regs, hf.st⟩
  refine ⟨_, (exec_scratchPerform h hcode hchecks ch).trans (by rw [hp]; rfl), ?_, ?_, ?_⟩ <;>
    rw [finishOp_eq there, State.ctxAt_setCtx_self, setCtx_setCtx, sweep_setCtx]
  · exact hu.setCore _
  · exact (done.drop _).performedOp
  · exact ⟨_, rfl⟩

/-- Noting changes what a context has read or performed alone. -/
theorem note_setCtx (s : State) (c : Nat) (x : CtxId) (v : Ctx) (es : List (Nat × Nat)) :
    ∃ seen, (s.setCtx c x v).note c x es = s.setCtx c x { v with seen := seen } := by
  unfold State.note
  split
  · exact ⟨v.seen, rfl⟩
  · exact ⟨_, by rw [State.ctxAt_setCtx_self, setCtx_setCtx]⟩

/-! ### A read -/

/-- What `readUnits` takes hangs on memory, the log and the context's own reads and writes. -/
theorem readUnits_setOp (o : Op) (scope : Nat) (cuts : List Nat) (us : List (Nat × Nat)) :
    (s.setOp c x o).readUnits c x scope cuts us = s.readUnits c x scope cuts us := by
  have hfloor (a : Nat) : (s.setOp c x o).readFloor c x scope a = s.readFloor c x scope a := by
    rw [State.readFloor, setOp_eq, State.ctxAt_setCtx_self]
    rfl
  have hunit (cut : Nat) (ls : List Nat) : (s.setOp c x o).readUnit c x scope cut ls = s.readUnit c x scope cut ls := by
    rw [readUnit_eq, readUnit_eq, State.readPoint, State.readPoint]
    simp only [hfloor]
    rfl
  have hruns (rs : List (List Nat)) (cuts : List Nat) :
      (s.setOp c x o).readRuns c x scope cuts rs = s.readRuns c x scope cuts rs := by
    induction rs generalizing cuts with
    | nil => rfl
    | cons r rs ih => rw [State.readRuns, State.readRuns, hunit, ih]
  rw [State.readUnits, State.readUnits, hruns]
  rfl

/-- A core that is put once is put once. -/
theorem setCtx_setCore_coreAt (s : State) (v : Ctx) : (s.setCtx c x v).setCore c ((s.setCtx c x v).coreAt c) = s.setCtx c x v := by
  rw [State.setCtx, State.coreAt_setCore_self, State.setCore_setCore]

theorem PerformedOp.of_setCore_coreAt {t : State} {d : Option (Nat × Word)} (h : PerformedOp (s.setCore c (s.coreAt c)) t c x o d) :
    PerformedOp s t c x o d := h.of_core (State.coreAt_setCore_self ..).symm

/-- The core with its context put and then changed beside it is the core changed, with its context put. -/
theorem setCore_setCtx {F : Core → Core} (hF : ∀ k v, F (k.setCtx x v) = (F k).setCtx x v) (s : State) (v : Ctx) :
    (s.setCtx c x v).setCore c (F ((s.setCtx c x v).coreAt c)) = (s.setCore c (F (s.coreAt c))).setCtx c x v := by
  simp only [State.setCtx, State.coreAt_setCore_self, State.setCore_setCore, hF]

/-- A change of the core beside its context leaves the context. -/
theorem ctxOf_beside {F : Core → Core} (hF : ∀ k v, F (k.setCtx x v) = (F k).setCtx x v) (k : Core) : (F k).ctxOf x = k.ctxOf x := by
  have hself : k.setCtx x (k.ctxOf x) = k := by cases x <;> rfl
  have := congrArg (·.ctxOf x) (hF k (k.ctxOf x))
  simpa only [hself, Core.ctxOf_setCtx_self] using this

theorem ctxAt_setCore_beside {F : Core → Core} (hF : ∀ k v, F (k.setCtx x v) = (F k).setCtx x v) {u : State} {k : Core}
    (hk : k.ctxOf x = s.ctxAt c x) : (u.setCore c (F k)).ctxAt c x = s.ctxAt c x := by
  rw [State.ctxAt, State.coreAt_setCore_self, ctxOf_beside hF, hk]

/-- A read of all its units at once gives the context what it has read, and goes on with the bytes. -/
theorem opRead_all (hgot : o.got = []) {ch : Choice} (hpart : ch.part = none) (us : List (Nat × Nat)) :
    ∃ seen, ∀ body : State → List Byte → State × Option Word, (s.setOp c x o).opRead c x o ch us body =
      .done (body (s.setCtx c x ((s.ctxAt c x).putSeen o seen)) ((s.readUnits c x o.scope ch.cuts us).map (·.2))).1
        (body (s.setCtx c x ((s.ctxAt c x).putSeen o seen)) ((s.readUnits c x o.scope ch.cuts us).map (·.2))).2
        (tookOf (s.readUnits c x o.scope ch.cuts us)) [] := by
  have hrest : us.filter (fun a => (o.gotAt 0 a.1).isNone) = us :=
    List.filter_eq_self.2 fun a _ => by rw [Op.gotAt, hgot]; rfl
  obtain ⟨seen, hnote⟩ := note_setCtx s c x ((s.ctxAt c x).put o) ((us.map (·.1)).zip ((s.readUnits c x o.scope ch.cuts us).map (·.1)))
  refine ⟨seen, fun body => ?_⟩
  simp only [State.opRead, readParts, hpart, hrest, readUnits_setOp, State.noteRead]
  rw [setOp_eq, hnote]
  simp only [hgot, List.isEmpty_nil, if_true]
  rfl

/-- An operation that reads and then writes the core beside its context. -/
theorem performs_of_read (h : MayPerform s c x o) (hcode : o.code < 0x20) (hchecks : o.checks = false) (hgot : o.got = [])
    {ch : Choice} (hpart : ch.part = none) {us : List (Nat × Nat)} {F : List Byte → Core → Core} {val : List Byte → Option Word}
    (hF : ∀ bs k v, F bs (k.setCtx x v) = (F bs k).setCtx x v) {body : State → List Byte → State × Option Word}
    (hbody : ∀ v bs, body (s.setCtx c x v) bs = ((s.setCtx c x v).setCore c (F bs ((s.setCtx c x v).coreAt c)), val bs))
    (hp : performOp (s.setOp c x o) c x o ch = (s.setOp c x o).opRead c x o ch us body) :
    let bs := (s.readUnits c x o.scope ch.cuts us).map (·.2)
    ∃ t, exec (.operationPerform c x o.id ch) s = .next t ∧ OnlyCoreOf s t c ∧ SameMemory s t ∧
      PerformedOp (s.setCore c (F bs (s.coreAt c))) t c x o (writtenReg o (val bs)) := by
  intro bs
  obtain ⟨seen, hread⟩ := opRead_all hgot hpart us (s := s) (c := c) (x := x)
  have hx : (s.setCore c (F bs (s.coreAt c))).ctxAt c x = s.ctxAt c x := ctxAt_setCore_beside (hF bs) rfl
  rw [hread, hbody, setCore_setCtx (hF bs)] at hp
  obtain ⟨t, ht, hcore, hop, ks, rfl⟩ := performs_of_settled ((OnlyCoreOf.refl s c).setCore _) hx h hcode hchecks hp
  exact ⟨_, ht, hcore, ⟨rfl, rfl, rfl⟩, hop⟩

/-! ### A write -/

/-- A write of all its cells at once. -/
theorem opWrite_all {u : State} (hleft : o.left = []) {ch : Choice} (hpart : ch.part = none) (us : List (Host.Cell × Nat)) :
    u.opWrite c x o ch us = .done (u.writeUnits c x o.scope us) none [] (u.unitSeqs us) := by
  simp [State.opWrite, writeParts, hpart, hleft]

/-- An operation that stores cells in scratchpads, once it has changed its core beside its context. -/
theorem performs_of_write (hs : LogOk s) (h : MayPerform s c x o) (hcode : o.code < 0x20) (hchecks : o.checks = false)
    (hleft : o.left = []) {ch : Choice} (hpart : ch.part = none) {F : Core → Core}
    (hF : ∀ k v, F (k.setCtx x v) = (F k).setCtx x v) {us : List (Host.Cell × Nat)} (hscratch : ∀ e ∈ us, 2 ^ 56 ≤ e.1.1)
    (hrise : (us.map (·.1)).Pairwise (fun a b => a.1 < b.1)) {cells : List Host.Cell} (hlast : LastOf cells (us.map (·.1)))
    (hp : performOp (s.setOp c x o) c x o ch =
      ((s.setOp c x o).setCore c (F ((s.setOp c x o).coreAt c))).opWrite c x o ch us) :
    ∃ t, exec (.operationPerform c x o.id ch) s = .next t ∧ OnlyCoreOf s t c ∧
      PerformedOp (s.setCore c (F (s.coreAt c))) t c x o none ∧ Stored s t c o.scope cells := by
  let w : State := (s.appended c o.scope us).settle.setCore c (F (s.coreAt c))
  have hx : w.ctxAt c x = s.ctxAt c x := ctxAt_setCore_beside hF rfl
  have hcomm : (((s.setOp c x o).setCore c (F ((s.setOp c x o).coreAt c))).appended c o.scope us).settle =
      w.setCtx c x ((s.ctxAt c x).put o) := by
    rw [setOp_eq, setCore_setCtx hF]
    rfl
  obtain ⟨seen, hnote⟩ := note_setCtx w c x ((s.ctxAt c x).put o) ((us.map (·.1)).map
    (fun e => (e.1, s.nextSeq + (cutParts us).length - 1)))
  rw [opWrite_all hleft hpart, writeUnits_scratch _ c x o.scope hscratch, hcomm] at hp
  have hsettled : OnlyCoreOf s (s.appended c o.scope us).settle c := ⟨rfl, fun _ _ => rfl⟩
  have hw : OnlyCoreOf s w c := hsettled.setCore _
  obtain ⟨t, ht, hcore, hop, ks, rfl⟩ := performs_of_settled hw hx h hcode hchecks 
    (hp.trans (congrArg (fun u => Perf.done u none [] _) hnote))
  have hnone : writtenReg o (none : Option Word) = none := rfl
  have hstored := appended_stored hs (c := c) (scope := o.scope) hrise hlast
  exact ⟨_, ht, hcore, (hnone ▸ hop).of_core ((State.coreAt_setCore_self ..).trans (State.coreAt_setCore_self ..).symm),
    hstored.value, hstored.frame⟩

end

end Sys2Proof.Machine
end

section
/-! SUPPORT. What scalar loads and stores, queue transfers and the expander do when they perform (R249 to R251). -/

namespace Sys2Proof.Machine

/-! ### Numbers of bytes -/

theorem leNat_lt (bs : List Byte) : leNat bs < 256 ^ bs.length := by
  induction bs with
  | nil => exact Nat.one_pos
  | cons b r ih =>
    have := b.isLt
    rw [leNat, List.length_cons, Nat.pow_succ]
    omega

theorem leBytes_get {n v i : Nat} (hi : i < n) : (leBytes n v)[i]'(by simpa using hi) = BitVec.ofNat 8 (v / 2 ^ (8 * i)) := by
  simp only [leBytes_eq_map, List.getElem_map, List.getElem_range]

/-- The sign extension of a number of `n` bytes. -/
theorem sextBytes_eq {n v : Nat} (h1 : 1 ≤ n) (h8 : n < 8) (hv : v < 2 ^ (8 * n)) :
    sextBytes n v = (BitVec.ofNat (8 * n) v).signExtend 64 := by
  refine BitVec.eq_of_toNat_eq ?_
  have hmsb : (BitVec.ofNat (8 * n) v).msb = bitAt v (8 * n - 1) := by
    rw [BitVec.msb_eq_decide, bitAt_top (by omega) hv, BitVec.toNat_ofNat, Nat.mod_eq_of_lt hv]
  have hle : 2 ^ (8 * n) ≤ 2 ^ 64 := Nat.pow_le_pow_right (by norm_num) (by omega)
  rw [BitVec.toNat_signExtend, hmsb, BitVec.toNat_setWidth, BitVec.toNat_ofNat, Nat.mod_eq_of_lt hv,
    Nat.mod_eq_of_lt (hv.trans_le hle), sextBytes, BitVec.toNat_ofNat]
  cases bitAt v (8 * n - 1)
  · simp [Nat.mod_eq_of_lt, show v < 18446744073709551616 from hv.trans_le hle]
  · simp only [if_true]
    exact Nat.mod_eq_of_lt (by omega)

/-! ### Places -/

theorem le_scratchLoc (c a : Nat) : 2 ^ 56 ≤ scratchLoc c a := by
  rw [scratchLoc]
  omega

theorem scratch_ge {s : State} {c a n l : Nat} (h : s.scratch c a n = some l) : 2 ^ 56 ≤ l := by
  unfold State.scratch at h
  split at h
  · split at h
    · exact Option.some.inj h ▸ le_scratchLoc ..
    · exact absurd h nofun
  · dsimp only at h
    split at h
    · split at h
      · exact Option.some.inj h ▸ le_scratchLoc ..
      · exact absurd h nofun
    · exact absurd h nofun

theorem scratch_setOp (s : State) (c : Nat) (x : CtxId) (o : Op) (a n : Nat) : (s.setOp c x o).scratch c a n = s.scratch c a n := by
  have hteam : (s.setOp c x o).teamOf c = s.teamOf c := by
    rw [setOp_eq, State.teamOf, coreAt_setCtx, State.teamOf]
    cases x <;> rfl
  rw [State.scratch, State.scratch, hteam]

/-! ### How many bytes a read takes -/

theorem readRuns_length (s : State) (c : Nat) (x : CtxId) (scope : Nat) (rs : List (List Nat)) (cuts : List Nat) :
    (s.readRuns c x scope cuts rs).length = rs.flatten.length := by
  induction rs generalizing cuts with
  | nil => rfl
  | cons r rs ih => rw [State.readRuns, List.length_append, ih, readUnit_eq, List.length_map, List.flatten_cons, List.length_append]

theorem unitRuns_flatten (us : List (Nat × Nat)) : (unitRuns us).flatten = us.map (·.1) := by
  induction us with
  | nil => rfl
  | cons a r ih =>
    cases r with
    | nil => rfl
    | cons b r =>
      rw [unitRuns, List.map_cons, ← ih]
      cases unitRuns (b :: r) with
      | nil => rfl
      | cons p ps =>
        dsimp only
        split <;> rfl

theorem readUnits_length (s : State) (c : Nat) (x : CtxId) (scope : Nat) (cuts : List Nat) (us : List (Nat × Nat)) :
    (s.readUnits c x scope cuts us).length = us.length := by
  unfold State.readUnits
  split
  · exact List.length_map ..
  · rw [readRuns_length, unitRuns_flatten, List.length_map]

theorem withUnits_length (ls : List Nat) : (withUnits ls).length = ls.length := by
  rw [withUnits, List.length_zip, unitKeys_length, Nat.min_self]

theorem readLocs_length (s : State) (c : Nat) (x : CtxId) (scope : Nat) (cuts ls : List Nat) :
    (s.readLocs c x scope cuts ls).length = ls.length := by
  rw [State.readLocs, readUnits_length, withUnits_length]

@[simp] theorem span_length (a n : Nat) : (span a n).length = n := by rw [span, List.length_map, List.length_range]

/-! ### Scalar loads and stores (R249) -/

/-- The codes of the scalar loads, each with its bytes and whether it is signed. -/
theorem performOp_load {code size : Nat} {signed : Bool}
    (h : (code, size, signed) ∈ [(0x00, 1, false), (0x01, 2, false), (0x02, 4, false), (0x03, 8, false), (0x04, 1, true),
      (0x05, 2, true), (0x06, 4, true)]) {o : Op} (ho : o.code = code) (s : State) (c : Nat) (x : CtxId) (ch : Choice) :
    performOp s c x o ch = performLoad size signed s c x o ch := by
  simp only [List.mem_cons, Prod.mk.injEq, List.not_mem_nil, or_false] at h
  unfold performOp
  rcases h with ⟨rfl, rfl, rfl⟩ | ⟨rfl, rfl, rfl⟩ | ⟨rfl, rfl, rfl⟩ | ⟨rfl, rfl, rfl⟩ | ⟨rfl, rfl, rfl⟩ | ⟨rfl, rfl, rfl⟩ |
    ⟨rfl, rfl, rfl⟩ <;>
    rw [ho] <;> rfl

theorem performOp_store {code size : Nat} (h : (code, size) ∈ [(0x08, 1), (0x09, 2), (0x0A, 4), (0x0B, 8)]) {o : Op}
    (ho : o.code = code) (s : State) (c : Nat) (x : CtxId) (ch : Choice) : performOp s c x o ch = performStore size s c x o ch := by
  simp only [List.mem_cons, Prod.mk.injEq, List.not_mem_nil, or_false] at h
  unfold performOp
  rcases h with ⟨rfl, rfl⟩ | ⟨rfl, rfl⟩ | ⟨rfl, rfl⟩ | ⟨rfl, rfl⟩ <;> rw [ho] <;> rfl

/-- A load of `size` bytes writes the number they hold, or its sign extension. -/
theorem scalarLoad_performs {c a d size : Nat} {signed : Bool} {x : CtxId} {o : Op} {ch : Choice} {s : State} (h : MayPerform s c x o)
    (hpart : ch.part = none) (hgot : o.got = []) (hdst : o.dst = some d) (ha : s.scratch c o.y.toNat size = some a)
    (hcode : (o.code, size, signed) ∈ [(0x00, 1, false), (0x01, 2, false), (0x02, 4, false), (0x03, 8, false),
      (0x04, 1, true), (0x05, 2, true), (0x06, 4, true)]) :
    let n := leNat ((s.readLocs c x o.scope ch.cuts (span a size)).map (·.2))
    let v : Word := if signed then (BitVec.ofNat (8 * size) n).signExtend 64 else BitVec.ofNat 64 n
    ∃ t, exec (.operationPerform c x o.id ch) s = .next t ∧ OnlyCoreOf s t c ∧ PerformedOp s t c x o (some (d, v)) ∧ SameMemory s t := by
  intro n v
  have small : o.code < 7 ∧ (signed = true → 1 ≤ size ∧ size < 8) := by
    simp only [List.mem_cons, Prod.mk.injEq, List.not_mem_nil, or_false] at hcode
    rcases hcode with ⟨h, rfl, rfl⟩ | ⟨h, rfl, rfl⟩ | ⟨h, rfl, rfl⟩ | ⟨h, rfl, rfl⟩ | ⟨h, rfl, rfl⟩ | ⟨h, rfl, rfl⟩ | ⟨h, rfl, rfl⟩ <;>
      exact ⟨by omega, by decide⟩
  have hread : performOp (s.setOp c x o) c x o ch = (s.setOp c x o).opRead c x o ch (withUnits (span a size)) (fun u bs =>
      (u, some (if signed then sextBytes size (leNat bs) else BitVec.ofNat 64 (leNat bs)))) := by
    rw [performOp_load hcode rfl, performLoad, scratch_setOp, ha]
  obtain ⟨t, ht, hcore, hmem, hop⟩ := performs_of_read h (by omega) (checks_false (by omega) (.inr (by omega))) hgot hpart
    (F := fun _ k => k) (fun _ _ _ => rfl) (fun v _ => by rw [setCtx_setCore_coreAt]) hread
  have hn : n < 2 ^ (8 * size) := by
    have := leNat_lt ((s.readLocs c x o.scope ch.cuts (span a size)).map (·.2))
    rwa [List.length_map, readLocs_length, span_length, show (256 : Nat) = 2 ^ 8 from rfl, ← Nat.pow_mul] at this
  have hv : (if signed then sextBytes size n else BitVec.ofNat 64 n) = v := by
    cases signed with
    | false => rfl
    | true => exact sextBytes_eq (small.2 rfl).1 (small.2 rfl).2 hn
  rw [writtenReg, hdst] at hop
  exact ⟨t, ht, hcore, hv ▸ hop.of_setCore_coreAt, hmem⟩

/-! ### Cells of consecutive bytes -/

theorem cellsFrom_eq (bs : List Byte) (a : Nat) : cellsFrom a bs = (span a bs.length).zip bs := by
  induction bs generalizing a with
  | nil => rfl
  | cons b r ih => rw [cellsFrom, ih, List.length_cons, span_succ, List.zip_cons_cons]

theorem cellUnits_fst (cells : List Host.Cell) : (cellUnits cells).map (·.1) = cells := by
  rw [cellUnits, List.map_fst_zip]
  rw [unitKeys_length, List.length_map]

theorem cellsFrom_leBytes (a size : Nat) (v : Word) :
    cellsFrom a (leBytes size v.toNat) = (List.range size).map (fun i => (a + i, v.extractLsb' (8 * i) 8)) := by
  rw [cellsFrom_eq, leBytes_length, leBytes_eq_map, span, List.zip_map', List.map_congr_left]
  intro i _
  refine Prod.ext rfl (BitVec.eq_of_toNat_eq ?_)
  rw [BitVec.toNat_ofNat, BitVec.extractLsb'_toNat, Nat.shiftRight_eq_div_pow]

/-- A store of `size` bytes stores the low bytes of its value. -/
theorem scalarStore_performs {c a size : Nat} {x : CtxId} {o : Op} {ch : Choice} {s : State} (hs : LogOk s) (h : MayPerform s c x o)
    (hpart : ch.part = none) (hleft : o.left = []) (ha : s.scratch c o.y.toNat size = some a)
    (hcode : (o.code, size) ∈ [(0x08, 1), (0x09, 2), (0x0A, 4), (0x0B, 8)]) :
    ∃ t, exec (.operationPerform c x o.id ch) s = .next t ∧ OnlyCoreOf s t c ∧ PerformedOp s t c x o none ∧
      Stored s t c o.scope ((List.range size).map (fun i => (a + i, o.x.extractLsb' (8 * i) 8))) := by
  have small : o.code < 0x0C := by
    simp only [List.mem_cons, Prod.mk.injEq, List.not_mem_nil, or_false] at hcode
    omega
  have hcells := cellUnits_fst (cellsFrom a (leBytes size o.x.toNat))
  have hrise := cellsFrom_rising (leBytes size o.x.toNat) a
  have hscratch : ∀ e ∈ cellUnits (cellsFrom a (leBytes size o.x.toNat)), 2 ^ 56 ≤ e.1.1 := by
    intro e he
    have hmem : e.1 ∈ cellsFrom a (leBytes size o.x.toNat) := hcells ▸ List.mem_map_of_mem he
    exact (scratch_ge ha).trans (le_of_mem_cellsFrom hmem)
  obtain ⟨t, ht, hcore, hop, hstored⟩ := performs_of_write hs h (by omega) (checks_false (by omega) (.inr (by omega))) hleft hpart
    (F := fun k => k) (fun _ _ => rfl) hscratch (by rw [hcells]; exact hrise) (by rw [hcells]; exact lastOf_rising hrise) (by
      rw [performOp_store hcode rfl, performStore, scratch_setOp, ha, setOp_eq, setCtx_setCore_coreAt])
  exact ⟨t, ht, hcore, hop.of_setCore_coreAt, cellsFrom_leBytes a size o.x ▸ hstored⟩

end Sys2Proof.Machine
end

section
/-! SUPPORT. What queue transfers and the expander do when they perform (R250, R251). -/

namespace Sys2Proof.Machine

/-! ### Chunks (R250) -/

/-- The bytes of the eight chunks, each from its place. -/
def chunkBytes (l : Nat → Nat) : List Nat := (List.range 8).flatMap (fun j => span (l j) 32)

/-- Each chunk of a transfer has a place. -/
def ChunksAt (s : State) (c : Nat) (o : Op) (l : Nat → Nat) : Prop :=
  ∀ j, j < 8 → s.scratch c (o.y + o.z * BitVec.ofNat 64 j).toNat 32 = some (l j)

section
variable {s : State} {c : Nat} {x : CtxId} {o : Op} {l : Nat → Nat} (hl : ChunksAt s c o l)
include hl

theorem chunkLocs_eq : chunkLocs (s.setOp c x o) c (chunkAddrs o.y o.z) = chunkBytes l := by
  rw [chunkLocs, chunkAddrs, List.flatMap_map]
  exact List.flatMap_congr fun j hj => by rw [scratch_setOp, hl j (List.mem_range.1 hj)]

theorem chunkBytes_scratch : ∀ a ∈ chunkBytes l, 2 ^ 56 ≤ a := by
  intro a ha
  obtain ⟨j, hj, ha⟩ := List.mem_flatMap.1 ha
  obtain ⟨i, -, rfl⟩ := List.mem_map.1 ha
  exact (scratch_ge (hl j (List.mem_range.1 hj))).trans (Nat.le_add_right ..)

end

theorem mem_sortCells {cells : List Host.Cell} {e : Host.Cell} (he : e ∈ sortCells cells) : ∃ d ∈ cells, d.1 = e.1 := by
  by_contra hno
  push Not at hno
  obtain ⟨pre, post, hsplit⟩ := List.append_of_mem he
  have hrise := sortCells_rising cells
  have hsome := (lastOf_rising hrise).value pre e.1 e.2 post hsplit fun d hd => by
    rw [hsplit] at hrise
    exact ((List.pairwise_cons.1 (List.pairwise_append.1 hrise).2.1).1 d hd).ne'
  rw [(sortCells_lastOf cells).frame e.1 hno] at hsome
  exact absurd hsome nofun

/-- The entries of a load queue once the one of an operation's tag is filled. -/
def Core.filled (o : Op) (bs : List Byte) (k : Core) : Core :=
  k.setLoadQ o.f.x.toNat ((k.loadQ o.f.x.toNat).map (fun e => if e.tag = o.tag then { e with data := some bs } else e))

theorem filled_setCtx (o : Op) (bs : List Byte) (x : CtxId) (k : Core) (v : Ctx) : Core.filled o bs (k.setCtx x v) =
    (k.filled o bs).setCtx x v := by
  cases x <;> rfl

section
variable {s : State} {c : Nat} {x : CtxId} {o : Op} {ch : Choice} {l : Nat → Nat} (h : MayPerform s c x o) (hpart : ch.part = none)
include h hpart

/-- `LDQ` and `LDQS` fill the entry they reserved. -/
theorem queueLoad_performs (hl : ChunksAt s c o l) (hgot : o.got = []) (hcode : o.code = 0x10 ∨ o.code = 0x11) :
    ∃ t, exec (.operationPerform c x o.id ch) s = .next t ∧ OnlyCoreOf s t c ∧ SameMemory s t ∧
      PerformedOp (s.setCore c ((s.coreAt c).filled o ((s.readLocs c x o.scope ch.cuts (chunkBytes l)).map (·.2)))) t c x o none := by
  have hp : performOp (s.setOp c x o) c x o ch = performQueueLoad (s.setOp c x o) c x o ch := by
    unfold performOp
    rcases hcode with hcode | hcode <;> rw [hcode] <;> rfl
  rw [performQueueLoad, chunkLocs_eq hl] at hp
  obtain ⟨t, ht, hcore, hmem, hop⟩ := performs_of_read h (by omega) (checks_false (by omega) (.inr (by omega))) hgot hpart
    (F := fun bs k => k.filled o bs) (val := fun _ => none) (fun _ _ _ => filled_setCtx ..) (fun _ _ => rfl) hp
  exact ⟨t, ht, hcore, hmem, hop⟩

/-- `STQ` and `STQS` store the entry they took, the last of the chunks that hold a byte prevailing. -/
theorem queueStore_performs (hs : LogOk s) (hl : ChunksAt s c o l) (hleft : o.left = []) (hcode : o.code = 0x12 ∨ o.code = 0x13) :
    ∃ t, exec (.operationPerform c x o.id ch) s = .next t ∧ OnlyCoreOf s t c ∧ PerformedOp s t c x o none ∧
      Stored s t c o.scope ((chunkBytes l).zip o.data) := by
  have hp : performOp (s.setOp c x o) c x o ch = performQueueStore (s.setOp c x o) c x o ch := by
    unfold performOp
    rcases hcode with hcode | hcode <;> rw [hcode] <;> rfl
  rw [performQueueStore, chunkLocs_eq hl] at hp
  have hcells := cellUnits_fst (sortCells ((chunkBytes l).zip o.data))
  have hscratch : ∀ e ∈ cellUnits (sortCells ((chunkBytes l).zip o.data)), 2 ^ 56 ≤ e.1.1 := by
    intro e he
    have hmem : e.1 ∈ sortCells ((chunkBytes l).zip o.data) := hcells ▸ List.mem_map_of_mem he
    obtain ⟨d, hd, hde⟩ := mem_sortCells hmem
    exact hde ▸ chunkBytes_scratch hl d.1 (List.of_mem_zip hd).1
  obtain ⟨t, ht, hcore, hop, hstored⟩ := performs_of_write hs h (by omega) (checks_false (by omega) (.inr (by omega))) hleft hpart
    (F := fun k => k) (fun _ _ => rfl) hscratch (by rw [hcells]; exact sortCells_rising _) (by rw [hcells]; exact sortCells_lastOf _)
    (hp.trans (by rw [setOp_eq, setCtx_setCore_coreAt]))
  exact ⟨t, ht, hcore, hop.of_setCore_coreAt, hstored⟩

/-! ### The expander (R251) -/

/-- `LDTAB` writes the table. -/
theorem ldtab_performs {a : Nat} (ha : s.scratch c o.y.toNat 16 = some a) (hgot : o.got = []) (hcode : o.code = 0x15) :
    ∃ t, exec (.operationPerform c x o.id ch) s = .next t ∧ OnlyCoreOf s t c ∧ SameMemory s t ∧
      PerformedOp (s.setCore c { s.coreAt c with table := (s.readLocs c x o.scope ch.cuts (span a 16)).map (·.2) }) t c x o none := by
  have hp : performOp (s.setOp c x o) c x o ch = performLdtab (s.setOp c x o) c x o ch := by
    unfold performOp
    rw [hcode]
    rfl
  rw [performLdtab, scratch_setOp, ha] at hp
  obtain ⟨t, ht, hcore, hmem, hop⟩ := performs_of_read h (by omega) (checks_false (by omega) (.inr (by omega))) hgot hpart
    (F := fun bs k => { k with table := bs }) (val := fun _ => none) (fun _ k v => by cases x <;> rfl) (fun _ _ => rfl) hp
  exact ⟨t, ht, hcore, hmem, hop⟩

omit h hpart

theorem laneBytes_length (ls : List Nat) : (laneBytes ls).length = 4 * ls.length := by
  induction ls with
  | nil => rfl
  | cons a r ih =>
    rw [laneBytes, List.flatMap_cons, List.length_append, leBytes_length, List.length_cons]
    rw [laneBytes] at ih
    omega

/-- Lane `j` of the bytes of lanes. -/
theorem leAt_laneBytes {ls : List Nat} {j : Nat} (hj : j < ls.length) (h : ls[j] < 2 ^ 32) : leAt (laneBytes ls) (4 * j) 4 = ls[j] := by
  induction ls generalizing j with
  | nil => exact absurd hj (Nat.not_lt_zero j)
  | cons a r ih =>
    rw [laneBytes, List.flatMap_cons]
    cases j with
    | zero =>
      rw [leAt, Nat.mul_zero, List.drop_zero, List.take_left' (leBytes_length 4 a)]
      exact leNat_leBytes h
    | succ j =>
      have hdrop : (leBytes 4 a ++ laneBytes r).drop (4 * (j + 1)) = (laneBytes r).drop (4 * j) := by
        rw [List.drop_append, leBytes_length, List.drop_eq_nil_of_le (by rw [leBytes_length]; omega), List.nil_append]
        congr 1
      have hread := ih (Nat.lt_of_succ_lt_succ hj) h
      rw [leAt] at hread
      rw [leAt, ← laneBytes, hdrop, hread]
      rfl

theorem ldxLane_lt (table : List Byte) (n i j : Nat) : ldxLane table n i j < 2 ^ 32 := by
  have hlt := leNat_lt ((table.drop (2 * field n (3 * i % 8 + 3 * j) 3)).take 2)
  have hlen : ((table.drop (2 * field n (3 * i % 8 + 3 * j) 3)).take 2).length ≤ 2 := List.length_take_le ..
  exact hlt.trans_le ((Nat.pow_le_pow_right (by norm_num) hlen).trans (by norm_num))

include h hpart

/-- `LDX` fills the entry it reserved with the table's entries that its codes name. -/
theorem ldx_performs {a : Nat} (ha : s.scratch c (ldxSpan o.y.toNat o.z.toNat).1 (ldxSpan o.y.toNat o.z.toNat).2 = some a)
    (hgot : o.got = []) (hcode : o.code = 0x14) :
    let n := leNat ((s.readLocs c x o.scope ch.cuts (span a (ldxSpan o.y.toNat o.z.toNat).2)).map (·.2))
    ∃ bs, bs.length = 256 ∧
      (∃ t, exec (.operationPerform c x o.id ch) s = .next t ∧ OnlyCoreOf s t c ∧ SameMemory s t ∧
        PerformedOp (s.setCore c ((s.coreAt c).filled o bs)) t c x o none) ∧
      ∀ j, j < 64 → leAt bs (4 * j) 4 = ldxLane o.data n o.z.toNat j := by
  intro n
  have hp : performOp (s.setOp c x o) c x o ch = performLdx (s.setOp c x o) c x o ch := by
    unfold performOp
    rw [hcode]
    rfl
  rw [performLdx, scratch_setOp, ha] at hp
  obtain ⟨t, ht, hcore, hmem, hop⟩ := performs_of_read h (by omega) (checks_false (by omega) (.inr (by omega))) hgot hpart
    (F := fun bs k => k.filled o (laneBytes ((List.range 64).map (ldxLane o.data (leNat bs) o.z.toNat)))) (val := fun _ => none)
    (fun _ _ _ => filled_setCtx ..) (fun _ _ => rfl) hp
  refine ⟨_, by rw [laneBytes_length, List.length_map, List.length_range], ⟨t, ht, hcore, hmem, hop⟩, fun j hj => ?_⟩
  rw [leAt_laneBytes (by simpa using hj) (by simpa using ldxLane_lt ..), List.getElem_map, List.getElem_range]
  rfl

end

end Sys2Proof.Machine
end

section
/-! SUPPORT. The check step of a matrix load or store: its record is read, and judged (R248, R252, R253). -/

namespace Sys2Proof.Machine

/-! ### A read of places here -/

@[simp] theorem hereLocs_map_at (ls : List Nat) : hereLocs (ls.map .at) = ls := by
  induction ls with
  | nil => rfl
  | cons a r ih => rw [List.map_cons, hereLocs, ih]

theorem putBack_map_at {ls : List Nat} {vs : List (Nat × Byte)} (h : vs.length = ls.length) : putBack (ls.map .at) vs = vs := by
  induction ls generalizing vs with
  | nil => rw [List.length_eq_zero_iff.1 h]; rfl
  | cons a r ih =>
    cases vs with
    | nil => exact absurd h nofun
    | cons v vs =>
      rw [List.map_cons, putBack, List.headD_cons, List.tail_cons, ih (Nat.succ.inj h)]

theorem readOf_map_at (s : State) (c : Nat) (x : CtxId) (scope : Nat) (cuts ls : List Nat) :
    s.readOf c x scope cuts (ls.map .at) = s.readLocs c x scope cuts ls := by
  rw [State.readOf, hereLocs_map_at, putBack_map_at (readLocs_length ..)]

/-- An operation that has begun no access reads bytes that lie here. -/
theorem readFound_here {s : State} {c : Nat} {x : CtxId} {o : Op} (haway : o.away = []) (scope : Nat) (va : Word) (ls : List Nat)
    (side : Nat) (ch : Choice) (body : State → List (Nat × Byte) → Perf) :
    readFound s c x o scope va (.bytes (ls.map .at)) side ch body =
      body (s.noteRead c x ls (s.readLocs c x scope ch.cuts ls)) (s.readLocs c x scope ch.cuts ls) := by
  simp only [readFound, reach, haway, List.find?_nil, reachNew, foundOr, remoteOf_map_at, readOf_map_at, hereLocs_map_at]

/-! ### Windows -/

theorem scratch_setCtx (s : State) (c : Nat) (x : CtxId) (v : Ctx) (a n : Nat) : (s.setCtx c x v).scratch c a n = s.scratch c a n := by
  have hteam : (s.setCtx c x v).teamOf c = s.teamOf c := by
    rw [State.teamOf, coreAt_setCtx, State.teamOf]
    cases x <;> rfl
  rw [State.scratch, State.scratch, hteam]

theorem outside_setCtx (s : State) (c : Nat) (x : CtxId) (v : Ctx) (r : Shape) (w : Word) :
    Shape.outside (s.setCtx c x v) c r w = Shape.outside s c r w := by
  have hw : windowOf (s.setCtx c x v) c = windowOf s c := funext fun a => by
    simp only [windowOf, scratchInt, scratch_setCtx]
    rfl
  simp only [Shape.outside, hw]

/-- The scope of an access by its address, as the statement has it. -/
theorem windowScope_eq {a : Word} {scope : Nat} (h : scope < 4) : windowScope a (BitVec.ofNat 2 scope) = scratchScope a.toNat scope := by
  have hzero : BitVec.ofNat 2 scope = 0 ↔ scope = 0 := by
    rw [← BitVec.toNat_inj, BitVec.toNat_ofNat, Nat.mod_eq_of_lt h]
    rfl
  simp only [windowScope, scratchScope, isPeer, hzero, decide_eq_true_eq, BitVec.toNat_ofNat, Nat.mod_eq_of_lt (show scope < 2 ^ 2 from h)]

/-! ### The context goes on -/

/-- Fetch goes on in a context that is not the compute sequencer, and nothing else changes. -/
theorem advance_of_ne {u : State} (hx : u.ctx ≠ .cmp) (was : Bool) (len slots : Nat) :
    u.advance was len slots = u.setCur { u.cur with pc := u.cur.pc + BitVec.ofNat 64 len }.arrive := by
  have harrive (v : Ctx) : (u.setCur v).arrive was slots = (u.setCur v).setCur v.arrive := by
    unfold State.arrive
    rw [State.cur_setCur]
    dsimp only
    split
    · next hc => exact absurd hc hx
    · rfl
  rw [State.advance, harrive]
  exact setCtx_setCtx ..

/-- A context that is not the compute sequencer goes on after its check step as fetch has it. -/
theorem releaseCheck_eq {x : CtxId} (hx : x ≠ .cmp) (s : State) (c : Nat) : s.releaseCheck c x =
    s.setCtx c x { s.ctxAt c x with hold := none, pc := (s.ctxAt c x).pc + 3 }.arrive := by
  let u : State := { s.setCtx c x { s.ctxAt c x with hold := none } with core := c, ctx := x }
  have hcur : u.cur = { s.ctxAt c x with hold := none } := State.ctxAt_setCtx_self ..
  have hgo : u.advance u.cur.exposed 3 1 = u.setCur { u.cur with pc := u.cur.pc + 3 }.arrive := advance_of_ne hx ..
  show { u.advance u.cur.exposed 3 1 with core := s.core, ctx := s.ctx } = _
  rw [hgo, hcur]
  exact setCtx_setCtx s c x { s.ctxAt c x with hold := none } { s.ctxAt c x with hold := none, pc := (s.ctxAt c x).pc + 3 }.arrive

theorem checkedPast_releaseCheck {s t : State} {c : Nat} {x : CtxId} (hx : x ≠ .cmp) (hrun : (t.ctxAt c x).run = (s.ctxAt c x).run)
    (hg : (t.ctxAt c x).g = (s.ctxAt c x).g) (hpc : (t.ctxAt c x).pc = (s.ctxAt c x).pc)
    (hloops : (t.ctxAt c x).loops = (s.ctxAt c x).loops) : CheckedPast s (t.releaseCheck c x) c x := by
  rw [CheckedPast, releaseCheck_eq hx, State.ctxAt_setCtx_self]
  refine ⟨rfl, hrun, hg, fun h => ?_⟩
  rw [Ctx.arrive_past (by simpa only [hpc, hloops] using h)]
  exact ⟨congrArg (· + 3) hpc, hloops⟩

theorem filter_put (v : Ctx) (o : Op) : (v.put o).ops.filter (fun p => p.id != o.id) = v.ops.filter (fun p => p.id != o.id) := by
  rw [Ctx.put]
  induction v.ops with
  | nil => rfl
  | cons p r ih =>
    rw [List.map_cons, List.filter_cons, List.filter_cons, ih]
    by_cases hp : p.id = o.id
    · simp [hp]
    · simp [hp]

/-- A trap of the check step is the one of the statement. -/
theorem settleCheck_trap (s : State) (c : Nat) (x : CtxId) (o : Op) (cause : Nat) (info : Word) :
    (s.setOp c x o).settleCheck c x o (.trap cause info) = .next (CheckTraps s c x o cause info) := by
  have hstate (f : List Op → List Op) (hf : f ((s.ctxAt c x).put o).ops = f (s.ctxAt c x).ops) :
      (s.setOp c x o).setCtx c x { (s.setOp c x o).ctxAt c x with ops := f ((s.setOp c x o).ctxAt c x).ops, hold := none } =
        s.setCtx c x { s.ctxAt c x with ops := f (s.ctxAt c x).ops, hold := none } := by
    rw [setOp_eq, State.ctxAt_setCtx_self, setCtx_setCtx, hf]
    rfl
  exact congrArg (fun u => Host.Outcome.next (State.asCtx u c x (fun w => w.takeTrapAt cause info o.pc))) (hstate _ (filter_put ..))

/-! ### The check step -/

section
variable {c a : Nat} {x : CtxId} {o : Op} {ch : Choice} {s : State}

/-- A matrix operation that has not been checked. -/
structure ShapeUnchecked (s : State) (c : Nat) (x : CtxId) (o : Op) (a : Nat) : Prop where
  may    : MayPerform s c x o
  st     : o.st = .issued
  other  : x ≠ .cmp
  away   : o.away = []
  code   : o.code = 0x16 ∨ o.code = 0x17 ∨ o.code = 0x18
  space  : o.f.z.getLsbD 9 = true
  align  : o.y.toNat % 8 = 0
  place  : s.scratch c o.y.toNat 32 = some a
  scope  : o.scope < 4
  order  : ∀ y ∈ (s.ctxAt c x).ops, y.id < o.id →
    (o.f.t.mask.getLsbD y.f.t.stream.toNat = true ∨ o.f.t.rel = true ∨ y.f.t.acq = true) →
      s.performedAt c y (windowScope o.y (BitVec.ofNat 2 o.scope)) = true

variable (h : ShapeUnchecked s c x o a)
include h

theorem ShapeUnchecked.low : o.code < 0x20 := by
  have := h.code
  omega

theorem ShapeUnchecked.checks : o.checks = true := by
  rcases h.code with hcode | hcode | hcode <;> simp [Op.checks, h.st, hcode]

theorem ShapeUnchecked.recordScope_eq : recordScope o = windowScope o.y (BitVec.ofNat 2 o.scope) := by
  rw [windowScope_eq h.scope, recordScope, recordInScratch, bitAt_eq_getLsbD, h.space, if_pos rfl]

theorem ShapeUnchecked.inOrder : s.inOrder c x o = true := by
  have hlow : decide (0x40 ≤ o.code) = false := decide_eq_false (by have := h.low; omega)
  rw [State.inOrder, hlow, Bool.and_false, if_neg Bool.false_ne_true, h.checks, if_pos rfl, h.recordScope_eq]
  refine List.all_eq_true.2 fun y hy => ?_
  obtain ⟨hmem, hlt⟩ := List.mem_filter.1 hy
  by_cases hp : mustPrecede y o = true
  · rw [h.order y hmem (of_decide_eq_true hlt) (by simpa [mustPrecede, or_assoc] using hp), Bool.or_true]
  · rw [Bool.eq_false_iff.2 hp]
    rfl

/-- The bytes the check step takes for the record. -/
def recordTaken (s : State) (c : Nat) (x : CtxId) (o : Op) (ch : Choice) (a : Nat) : List (Nat × Byte) :=
  s.readLocs c x (windowScope o.y (BitVec.ofNat 2 o.scope)) ch.cuts (span a 32)

/-- The check step judges the bytes of its record, once it has noted what it read. -/
theorem ShapeUnchecked.exec_eq (ch : Choice) : ∃ seen,
    exec (.operationPerform c x o.id ch) s = (s.setOp c x o).settleCheck c x o
      (judgeShape (s.setCtx c x ((s.ctxAt c x).putSeen o seen)) c o ((recordTaken s c x o ch a).map (·.2))
        (tookOf (recordTaken s c x o ch a))) := by
  have going : (o.st == .done) = false := beq_eq_false_iff_ne.2 h.may.fresh
  have hexec : exec (.operationPerform c x o.id ch) s =
      (s.setOp c x o).settleCheck c x o (performOp (s.setOp c x o) c x o ch) := by
    show execOperationPerform c x o.id ch s = _
    simp only [execOperationPerform, h.may.here, going, isEngine_scratch h.low, h.may.clear, performScope_scratch h.low, h.inOrder,
      h.checks, Bool.or_self, Bool.false_eq_true, if_false, Bool.not_true, if_true]
  have hp : performOp (s.setOp c x o) c x o ch = checkShape (s.setOp c x o) c x o ch := by
    unfold performOp
    rcases h.code with hcode | hcode | hcode <;> rw [hcode] <;> exact if_pos h.st
  have hrecord : recordInScratch o.f = true := by rw [recordInScratch, bitAt_eq_getLsbD, h.space]
  have hread : (s.setOp c x o).readLocs c x (windowScope o.y (BitVec.ofNat 2 o.scope)) ch.cuts (span a 32) = recordTaken s c x o ch a :=
    readUnits_setOp ..
  obtain ⟨seen, hnote⟩ := note_setCtx s c x ((s.ctxAt c x).put o) ((span a 32).zip ((recordTaken s c x o ch a).map (·.1)))
  refine ⟨seen, hexec.trans (congrArg _ (hp.trans ?_))⟩
  have haligned : ¬ o.y.toNat % 8 ≠ 0 := fun hne => hne h.align
  simp only [checkShape, hrecord, if_true, scratch_setOp, h.place, if_neg haligned, readFound_here h.away,
    ← windowScope_eq h.scope, hread, State.noteRead]
  rw [setOp_eq, hnote]
  rfl

theorem ShapeUnchecked.traps_of_malformed
    (hbad : (shapeOf ((recordTaken s c x o ch a).map (·.2))).okFor o.code (matGroup o.f) = false) :
    exec (.operationPerform c x o.id ch) s = .next (CheckTraps s c x o 2 3) := by
  obtain ⟨seen, hexec⟩ := h.exec_eq ch
  rw [hexec, judgeShape, hbad]
  exact settleCheck_trap ..

theorem ShapeUnchecked.traps_of_outside
    (hok : (shapeOf ((recordTaken s c x o ch a).map (·.2))).okFor o.code (matGroup o.f) = true) {w : Word}
    (hout : Shape.outside s c (shapeOf ((recordTaken s c x o ch a).map (·.2))) o.x = some w) :
    exec (.operationPerform c x o.id ch) s = .next (CheckTraps s c x o 7 w) := by
  obtain ⟨seen, hexec⟩ := h.exec_eq ch
  rw [hexec, judgeShape]
  simp only [hok, outside_setCtx, hout]
  exact settleCheck_trap ..

theorem ShapeUnchecked.goes_on
    (hok : (shapeOf ((recordTaken s c x o ch a).map (·.2))).okFor o.code (matGroup o.f) = true)
    (hin : Shape.outside s c (shapeOf ((recordTaken s c x o ch a).map (·.2))) o.x = none) :
    ∃ t, exec (.operationPerform c x o.id ch) s = .next t ∧ OnlyCoreOf s t c ∧ SameMemory s t ∧ CheckedPast s t c x ∧
      ∃ p, t.opAt c x o.id = some p ∧ p.st = .started ∧ p.data = (recordTaken s c x o ch a).map (·.2) := by
  obtain ⟨seen, hexec⟩ := h.exec_eq ch
  let p := o.afterCheck ((recordTaken s c x o ch a).map (·.2)) (tookOf (recordTaken s c x o ch a))
  have hp : p = o.afterCheck ((recordTaken s c x o ch a).map (·.2)) (tookOf (recordTaken s c x o ch a)) := rfl
  have hlow : ¬ 0x40 ≤ o.code := by have := h.low; omega
  rw [Op.afterCheck, if_neg hlow] at hp
  have hid : p.id = o.id := by rw [hp]; rfl
  let w : Ctx := ((s.ctxAt c x).putSeen o seen).put p
  have hstep : exec (.operationPerform c x o.id ch) s = .next ((s.setCtx c x w).releaseCheck c x) := by
    rw [hexec, judgeShape]
    simp only [hok, outside_setCtx, hin, Bool.not_true, Bool.false_eq_true, if_false, State.settleCheck]
    rw [setOp_eq (s.setCtx c x _), State.ctxAt_setCtx_self, setCtx_setCtx]
  have hops : w.ops.find? (fun q => q.id == o.id) = some p := hid ▸ find_put (o := p) (by rw [hid]; exact find_put h.may.here)
  refine ⟨_, hstep, ?_, ?_, checkedPast_releaseCheck h.other ?_ ?_ ?_ ?_, p, ?_, by rw [hp], by rw [hp]⟩
  · rw [releaseCheck_eq h.other]
    exact ((OnlyCoreOf.refl s c).setCore _).setCore _
  · rw [releaseCheck_eq h.other]
    exact ⟨rfl, rfl, rfl⟩
  · rw [State.ctxAt_setCtx_self]
    rfl
  · rw [State.ctxAt_setCtx_self]
    rfl
  · rw [State.ctxAt_setCtx_self]
    rfl
  · rw [State.ctxAt_setCtx_self]
    rfl
  rw [releaseCheck_eq h.other, State.opAt, State.ctxAt_setCtx_self, State.ctxAt_setCtx_self]
  exact hops

end

end Sys2Proof.Machine
end

section
/-! SUPPORT. What matrix loads and stores do once their record is checked (R106, R110, R253 to R256). -/

namespace Sys2Proof.Machine

/-! ### Tables of pairs -/

/-- A key that some pair has, and each pair of it with one value. -/
theorem Tab.get_setAll_of_forall {α : Type} (d : α) {l : List (Nat × α)} {k : Nat} {v : α} (hv : ∀ e ∈ l, e.1 = k → e.2 = v)
    (hk : ∃ e ∈ l, e.1 = k) (m : Tab α) : (m.setAll l).get d k = v := by
  induction l generalizing m with
  | nil =>
    obtain ⟨e, he, -⟩ := hk
    exact absurd he List.not_mem_nil
  | cons a r ih =>
    rw [Tab.setAll]
    by_cases hr : ∃ e ∈ r, e.1 = k
    · exact ih (fun e he => hv e (List.mem_cons_of_mem _ he)) hr _
    · push Not at hr
      obtain ⟨e, he, hek⟩ := hk
      rcases List.mem_cons.1 he with rfl | he
      · rw [Tab.get_setAll_of_not_mem _ _ _ _ hr, hek, Tab.get_set_self]
        exact hv e List.mem_cons_self hek
      · exact absurd hek (hr e he)

theorem map_set {α β : Type} (f : α → β) (m : Tab α) (k : Nat) (v : α) :
    (m.set k v).map (fun e => (e.1, f e.2)) = Tab.set (m.map (fun e => (e.1, f e.2))) k (f v) := by
  induction m with
  | nil => rfl
  | cons e r ih =>
    rw [Tab.set, List.map_cons, Tab.set]
    split
    · rfl
    · split
      · rfl
      · rw [List.map_cons, ih]

theorem map_setAll {α β : Type} (f : α → β) (m : Tab α) (l : List (Nat × α)) :
    (m.setAll l).map (fun e => (e.1, f e.2)) = Tab.setAll (m.map (fun e => (e.1, f e.2))) (l.map (fun e => (e.1, f e.2))) := by
  induction l generalizing m with
  | nil => rfl
  | cons e r ih => rw [Tab.setAll, ih, map_set, List.map_cons, Tab.setAll]

/-- Sorted units are the cells sorted. -/
theorem sortUnits_fst (us : List (Host.Cell × Nat)) : (sortUnits us).map (·.1) = sortCells (us.map (·.1)) := by
  have h := map_setAll (fun b : Byte × Nat => b.1) [] (us.map (fun e => (e.1.1, (e.1.2, e.2))))
  rw [List.map_map] at h
  rw [sortUnits, List.map_map]
  exact h

/-! ### Elements in order -/

theorem shape_eq_map (m n : Nat) : shape m n = (List.range (m * n)).map (fun t => (t / n, t % n)) := by
  induction m with
  | zero => rw [Nat.zero_mul]; rfl
  | succ m ih =>
    rw [shape, List.range_succ, List.flatMap_append, ← shape, ih, Nat.succ_mul, List.range_add, List.map_append, List.map_map,
      List.flatMap_singleton, List.append_cancel_left_eq]
    refine List.map_congr_left fun t ht => ?_
    have ht := List.mem_range.1 ht
    have hn : 0 < n := by omega
    rw [Function.comp_apply, Nat.mul_comm, Nat.mul_add_div hn, Nat.mul_add_mod, Nat.div_eq_of_lt ht, Nat.mod_eq_of_lt ht, Nat.add_zero]

theorem runs_eq_map {α : Type} (n k : Nat) (l : List α) : runs n k l = (List.range k).map (fun t => (l.drop (t * n)).take n) := by
  induction k generalizing l with
  | zero => rfl
  | succ k ih =>
    rw [runs, ih, List.range_succ_eq_map, List.map_cons, List.map_map, Nat.zero_mul, List.drop_zero]
    refine congrArg _ (List.map_congr_left fun t _ => ?_)
    rw [List.drop_drop, Function.comp_apply, Nat.succ_mul, Nat.add_comm]

/-- The lane that an element of a shape has from the bytes read. -/
def Shape.laneOf (r : Shape) (bs : List Byte) (p : Nat × Nat) : Lane :=
  r.lay p.1 p.2 ((bs.drop ((p.1 * r.cols + p.2) * r.bytes)).take r.bytes)

theorem laid_eq_map (r : Shape) (bs : List Byte) : r.laid bs = r.elems.map (fun p => (p, r.laneOf bs p)) := by
  rw [Shape.laid, runs_eq_map, Shape.elems, shape_eq_map, List.length_map, List.length_range, List.zipWith_map, List.zipWith_self,
    List.map_map]
  refine List.map_congr_left fun t _ => ?_
  rw [Function.comp_apply, Shape.laneOf, Nat.div_add_mod']

/-! ### The places of a shape -/

/-- Each element of a shape has a place. -/
def ElementsAt (s : State) (c : Nat) (r : Shape) (w : Word) (l : Nat × Nat → Nat) : Prop :=
  ∀ p ∈ shape r.rows r.cols, 0 ≤ r.addr w p.1 p.2 ∧ s.scratch c (r.addr w p.1 p.2).toNat r.bytes = some (l p)

theorem scratchInt_of {s : State} {c n l : Nat} {a : Int} (h : 0 ≤ a ∧ s.scratch c a.toNat n = some l) : scratchInt s c a n = some l := by
  rw [scratchInt, if_neg (by omega), h.2]

/-- The bytes of the elements, each in its unit. -/
def Shape.places (r : Shape) (l : Nat × Nat → Nat) : List (Nat × Nat) :=
  (shape r.rows r.cols).flatMap (fun p => withUnits (span (l p) r.bytes))

/-- The state in which an operation performs has the scratchpads of the one before. -/
theorem locs_eq {s : State} {c : Nat} {x : CtxId} {o : Op} {r : Shape} {w : Word} {l : Nat × Nat → Nat} (hl : ElementsAt s c r w l) :
    Shape.locs (s.setOp c x o) c r w = r.places l := by
  rw [Shape.locs, Shape.elems, Shape.places]
  exact List.flatMap_congr fun p hp => by rw [scratchInt_of (by rw [scratch_setOp]; exact hl p hp)]

/-! ### Loads (R254, R256) -/

/-- A matrix file with the elements of a group written from bytes, and zero beyond the shape. -/
def loadedM (d g : Nat) (r : Shape) (bs : List Byte) (m : Tab Lane) : Tab Lane :=
  Tab.setAll (m.filter (fun e => e.1 / 4096 < d || d + g ≤ e.1 / 4096))
    ((r.laid bs).map (fun e => (elemKey (d + e.1.2 / 64) e.1.1 (e.1.2 % 64), e.2)))

/-- A quotient and a remainder are found again in the number that they make. -/
theorem mul_add_inj {b x y x' y' : Nat} (hy : y < b) (hy' : y' < b) (h : b * x + y = b * x' + y') : x = x' ∧ y = y' := by
  have hb : 0 < b := Nat.zero_lt_of_lt hy
  constructor
  · have hdiv := congrArg (· / b) h
    simpa only [Nat.mul_add_div hb, Nat.div_eq_of_lt hy, Nat.div_eq_of_lt hy', Nat.add_zero] using hdiv
  · have hmod := congrArg (· % b) h
    simpa only [Nat.mul_add_mod, Nat.mod_eq_of_lt hy, Nat.mod_eq_of_lt hy'] using hmod

theorem elemKey_inj {r i j r' i' j' : Nat} (hi : i < 64) (hj : j < 64) (hi' : i' < 64) (hj' : j' < 64)
    (h : elemKey r i j = elemKey r' i' j') : r = r' ∧ i = i' ∧ j = j' := by
  have hkey (r i j : Nat) : elemKey r i j = 64 * (64 * r + i) + j := by
    rw [elemKey]
    omega
  rw [hkey, hkey] at h
  obtain ⟨hrow, hcol⟩ := mul_add_inj hj hj' h
  obtain ⟨hreg, hrow⟩ := mul_add_inj hi hi' hrow
  exact ⟨hreg, hrow, hcol⟩

theorem slotKey_inj {r i j r' i' j' : Nat} (hi : i < 256) (hj : j < 256) (hi' : i' < 256) (hj' : j' < 256)
    (h : slotKey r i j = slotKey r' i' j') : r = r' ∧ i = i' ∧ j = j' := by
  have hkey (r i j : Nat) : slotKey r i j = 256 * (256 * r + i) + j := by
    rw [slotKey]
    omega
  rw [hkey, hkey] at h
  obtain ⟨hrow, hcol⟩ := mul_add_inj hj hj' h
  obtain ⟨hslot, hrow⟩ := mul_add_inj hi hi' hrow
  exact ⟨hslot, hrow, hcol⟩

theorem loadedM_get {d g : Nat} {r : Shape} (bs : List Byte) (m : Tab Lane) (hrows : r.rows ≤ 64) (hcols : r.cols ≤ 64 * g) {n i j : Nat}
    (hi : i < 64) (hj : j < 64) : (loadedM d g r bs m).get 0 (elemKey n i j) =
      if d ≤ n ∧ n < d + g then
        if i < r.rows ∧ 64 * (n - d) + j < r.cols then r.laneOf bs (i, 64 * (n - d) + j) else 0
      else m.get 0 (elemKey n i j) := by
  have hreg : elemKey n i j / 4096 = n := elemKey_reg hi hj
  have hkey : ∀ p ∈ shape r.rows r.cols, elemKey (d + p.2 / 64) p.1 (p.2 % 64) = elemKey n i j →
      p = (i, 64 * (n - d) + j) ∧ d ≤ n ∧ n < d + g := by
    intro p hp hkey
    obtain ⟨hrow, hcol⟩ := mem_shape.1 hp
    obtain ⟨rfl, rfl, rfl⟩ := elemKey_inj (hrow.trans_le hrows) (Nat.mod_lt _ (by decide)) hi hj hkey
    refine ⟨Prod.ext rfl ?_, Nat.le_add_right .., Nat.add_lt_add_left (Nat.div_lt_of_lt_mul (hcol.trans_le hcols)) d⟩
    rw [Nat.add_sub_cancel_left]
    exact (Nat.div_add_mod ..).symm
  rw [loadedM, laid_eq_map, List.map_map]
  by_cases hin : (d ≤ n ∧ n < d + g) ∧ i < r.rows ∧ 64 * (n - d) + j < r.cols
  · rw [if_pos hin.1, if_pos hin.2]
    refine Tab.get_setAll_of_forall _ (fun e he hek => ?_) ⟨_, List.mem_map_of_mem (mem_shape (p := (i, 64 * (n - d) + j)).2 hin.2), ?_⟩ _
    · obtain ⟨p, hp, rfl⟩ := List.mem_map.1 he
      rw [Function.comp_apply, (hkey p hp hek).1]
    · rw [Function.comp_apply, Nat.mul_add_div (by decide), Nat.div_eq_of_lt hj, Nat.add_zero, Nat.add_sub_cancel' hin.1.1,
        Nat.mul_add_mod, Nat.mod_eq_of_lt hj]
  · rw [Tab.get_setAll_of_not_mem, Tab.get_filter 0 (fun e => e / 4096 < d || d + g ≤ e / 4096), hreg]
    · by_cases hgroup : d ≤ n ∧ n < d + g
      · rw [if_neg (by simp only [Bool.or_eq_true, decide_eq_true_eq]; omega), if_pos hgroup, if_neg fun h => hin ⟨hgroup, h⟩]
      · rw [if_pos (by simp only [Bool.or_eq_true, decide_eq_true_eq]; omega), if_neg hgroup]
    · intro e he hek
      obtain ⟨p, hp, rfl⟩ := List.mem_map.1 he
      obtain ⟨rfl, hgroup⟩ := hkey p hp hek
      exact hin ⟨hgroup, mem_shape.1 hp⟩

/-- A weight file with one slot written from bytes, and zero beyond the shape. -/
def loadedW (slot : Nat) (r : Shape) (bs : List Byte) (w : Tab Lane) : Tab Lane :=
  Tab.setAll (w.filter (fun e => e.1 / 65536 != slot)) ((r.laid bs).map (fun e => (slotKey slot e.1.1 e.1.2, e.2)))

theorem loadedW_get {slot : Nat} {r : Shape} (bs : List Byte) (w : Tab Lane) (hrows : r.rows ≤ 256) (hcols : r.cols ≤ 256) {n i j : Nat}
    (hi : i < 256) (hj : j < 256) : (loadedW slot r bs w).get 0 (slotKey n i j) =
      if n = slot then if i < r.rows ∧ j < r.cols then r.laneOf bs (i, j) else 0 else w.get 0 (slotKey n i j) := by
  have hslot : slotKey n i j / 65536 = n := by
    rw [slotKey]
    omega
  have hkey : ∀ p ∈ shape r.rows r.cols, slotKey slot p.1 p.2 = slotKey n i j → p = (i, j) ∧ n = slot := by
    intro p hp hkey
    obtain ⟨hrow, hcol⟩ := mem_shape.1 hp
    obtain ⟨hslot, hi, hj⟩ := slotKey_inj (hrow.trans_le hrows) (hcol.trans_le hcols) hi hj hkey
    exact ⟨Prod.ext hi hj, hslot.symm⟩
  rw [loadedW, laid_eq_map, List.map_map]
  by_cases hin : n = slot ∧ i < r.rows ∧ j < r.cols
  · rw [if_pos hin.1, if_pos hin.2]
    refine Tab.get_setAll_of_forall _ (fun e he hek => ?_) ⟨_, List.mem_map_of_mem (mem_shape (p := (i, j)).2 hin.2), ?_⟩ _
    · obtain ⟨p, hp, rfl⟩ := List.mem_map.1 he
      rw [Function.comp_apply, (hkey p hp hek).1]
    · rw [Function.comp_apply, hin.1]
  · rw [Tab.get_setAll_of_not_mem, Tab.get_filter 0 (fun e => e / 65536 != slot), hslot]
    · by_cases hn : n = slot
      · rw [if_neg (by simp [hn]), if_pos hn, if_neg fun h => hin ⟨hn, h⟩]
      · rw [if_pos (by simpa using hn), if_neg hn]
    · intro e he hek
      obtain ⟨p, hp, rfl⟩ := List.mem_map.1 he
      obtain ⟨rfl, hn⟩ := hkey p hp hek
      exact hin ⟨hn, mem_shape.1 hp⟩

theorem flight_setOp (s : State) (c : Nat) (x : CtxId) (o : Op) : ((s.setOp c x o).coreAt c).flight = (s.coreAt c).flight := by
  rw [setOp_eq, coreAt_setCtx]
  cases x <;> rfl

theorem performOp_ldb {s : State} {c : Nat} {x : CtxId} {o : Op} {ch : Choice} (hst : o.st = .started) (hcode : o.code = 0x18) :
    performOp (s.setOp c x o) c x o ch = performLdb (s.setOp c x o) c x o ch := by
  unfold performOp
  rw [hcode]
  exact if_neg (by rw [hst]; nofun)

/-- The bytes that a matrix load takes. -/
def matrixTaken (s : State) (c : Nat) (x : CtxId) (o : Op) (ch : Choice) (l : Nat × Nat → Nat) : List Byte :=
  (s.readUnits c x o.scope ch.cuts ((shapeOf o.data).places l)).map (·.2)

section
variable {s : State} {c : Nat} {x : CtxId} {o : Op} {ch : Choice} {l : Nat × Nat → Nat} (h : MayPerform s c x o) (hpart : ch.part = none)
  (hst : o.st = .started) (hl : ElementsAt s c (shapeOf o.data) o.x l)
include h hpart hst hl

/-- A core once an `LDM` has written its group. -/
def Core.loadM (o : Op) (bs : List Byte) (k : Core) : Core :=
  { k with m := loadedM (matReg o.f) (matGroup o.f) (shapeOf o.data) bs k.m }

/-- A core once an `LDB` has written its slot. -/
def Core.loadW (o : Op) (bs : List Byte) (k : Core) : Core := { k with w := loadedW (ldbSlot o.f) (shapeOf o.data) bs k.w }

/-- `LDM` writes its group. -/
theorem ldm_performs (hgot : o.got = []) (hcode : o.code = 0x16) :
    ∃ t, exec (.operationPerform c x o.id ch) s = .next t ∧ OnlyCoreOf s t c ∧ SameMemory s t ∧
      PerformedOp (s.setCore c ((s.coreAt c).loadM o (matrixTaken s c x o ch l))) t c x o none := by
  have hp : performOp (s.setOp c x o) c x o ch = performLdm (s.setOp c x o) c x o ch := by
    unfold performOp
    rw [hcode]
    exact if_neg (by rw [hst]; nofun)
  rw [performLdm, locs_eq hl] at hp
  exact performs_of_read h (by omega) (checks_false (by omega) (.inl (by rw [hst]; nofun))) hgot hpart
    (F := fun bs k => k.loadM o bs) (val := fun _ => none)
    (fun _ k v => by cases x <;> rfl) (fun _ _ => rfl) hp

/-- `LDB` writes its slot, where nothing in flight reads it. -/
theorem ldb_performs (hgot : o.got = []) (hcode : o.code = 0x18) (hfree : ∀ e ∈ (s.coreAt c).flight, e.slot ≠ some (ldbSlot o.f)) :
    ∃ t, exec (.operationPerform c x o.id ch) s = .next t ∧ OnlyCoreOf s t c ∧ SameMemory s t ∧
      PerformedOp (s.setCore c ((s.coreAt c).loadW o (matrixTaken s c x o ch l))) t c x o none := by
  have hp := performOp_ldb (s := s) (c := c) (x := x) (ch := ch) hst hcode
  have hnone : ((s.coreAt c).flight.any fun e => e.slot == some (ldbSlot o.f)) = false :=
    List.any_eq_false.2 fun e he => by simpa using hfree e he
  simp only [performLdb, flight_setOp, hnone, Bool.false_eq_true, if_false, locs_eq hl] at hp
  exact performs_of_read h (by omega) (checks_false (by omega) (.inl (by rw [hst]; nofun))) hgot hpart
    (F := fun bs k => k.loadW o bs) (val := fun _ => none)
    (fun _ k v => by cases x <;> rfl) (fun _ _ => rfl) hp

omit hpart hl in
/-- `LDB` waits where something in flight reads its slot. -/
theorem ldb_waits (hcode : o.code = 0x18) (hbusy : ∃ e ∈ (s.coreAt c).flight, e.slot = some (ldbSlot o.f)) :
    exec (.operationPerform c x o.id ch) s = .next (s.setOp c x o) := by
  have hsome : ((s.coreAt c).flight.any fun e => e.slot == some (ldbSlot o.f)) = true :=
    List.any_eq_true.2 (hbusy.imp fun e he => ⟨he.1, beq_iff_eq.2 he.2⟩)
  rw [exec_scratchPerform h (by omega) (checks_false (by omega) (.inl (by rw [hst]; nofun))), performOp_ldb hst hcode, performLdb,
    flight_setOp]
  simp only [hsome]
  rfl

end

end Sys2Proof.Machine
end

section
/-! SUPPORT. What `STM` does once its record is checked (R110, R255). -/

namespace Sys2Proof.Machine

/-- A register of the group is suppressed (R110). -/
def SuppressedAt (k : Core) (f : LF) (n : Nat) : Prop :=
  f.z.getLsbD 1 = true ∧ matReg f ≤ n ∧ n < matReg f + matGroup f ∧ (k.tstat.get 0 n).getLsbD 1 = true

theorem mem_suppressed {k : Core} {f : LF} {n : Nat} : n ∈ suppressed k f ↔ SuppressedAt k f n := by
  rw [suppressed, SuppressedAt, bitAt_eq_getLsbD]
  cases f.z.getLsbD 1 with
  | false => simp
  | true =>
    simp only [if_true, List.mem_filter, List.mem_map, List.mem_range, bitAt_eq_getLsbD, true_and]
    constructor
    · rintro ⟨⟨i, hi, rfl⟩, hbit⟩
      exact ⟨by omega, by omega, hbit⟩
    · rintro ⟨hle, hlt, hbit⟩
      exact ⟨⟨n - matReg f, by omega, by omega⟩, hbit⟩

/-- Status of the registers once the suppressed ones have their NFSUP bit. -/
def suppressedStatus (f : LF) (k : Core) : Tab Lane :=
  k.tstat.setAll ((suppressed k f).map (fun n => (n, k.tstat.get 0 n ||| BitVec.ofNat 32 tNFSUP)))

theorem suppressedStatus_get (f : LF) (k : Core) (n : Nat) :
    (SuppressedAt k f n → (suppressedStatus f k).get 0 n = k.tstat.get 0 n ||| 128) ∧
      (¬ SuppressedAt k f n → (suppressedStatus f k).get 0 n = k.tstat.get 0 n) := by
  refine ⟨fun h => Tab.get_setAll_map 0 _ (mem_suppressed.2 h) _, fun h => Tab.get_setAll_of_not_mem _ _ _ _ fun e he hen => ?_⟩
  obtain ⟨m, hm, rfl⟩ := List.mem_map.1 he
  exact h (mem_suppressed.1 (hen ▸ hm))

/-- The cells an `STM` stores, as the statement lists them. -/
def storedCells (k : Core) (o : Op) (l : Nat × Nat → Nat) : List Host.Cell :=
  (shape (shapeOf o.data).rows (shapeOf o.data).cols).flatMap (fun p =>
    if o.f.z.getLsbD 1 && decide (p.2 / 64 < matGroup o.f) && (k.tstat.get 0 (matReg o.f + p.2 / 64)).getLsbD 1 then []
    else cellsFrom (l p) (leBytes (shapeOf o.data).bytes (k.elem (matReg o.f + p.2 / 64) p.1 (p.2 % 64)).toNat))

theorem suppressed_contains (k : Core) (f : LF) (i : Nat) :
    (suppressed k f).contains (matReg f + i) = (f.z.getLsbD 1 && decide (i < matGroup f) && (k.tstat.get 0 (matReg f + i)).getLsbD 1) := by
  rw [Bool.eq_iff_iff, List.contains_iff_mem, mem_suppressed, SuppressedAt]
  simp only [Bool.and_eq_true, decide_eq_true_eq, and_assoc]
  exact and_congr_right fun _ => ⟨fun h => ⟨by omega, h.2.2⟩, fun h => ⟨by omega, by omega, h.2⟩⟩

section
variable {s : State} {c : Nat} {x : CtxId} {o : Op} {l : Nat × Nat → Nat} (hl : ElementsAt s c (shapeOf o.data) o.x l)
include hl

theorem stmCells_fst : (stmCells (s.setOp c x o) c o).map (·.1) = sortCells (storedCells (s.coreAt c) o l) := by
  have hsup : suppressed ((s.setOp c x o).coreAt c) o.f = suppressed (s.coreAt c) o.f := by
    rw [setOp_eq, coreAt_setCtx]
    cases x <;> rfl
  have helem (r i j : Nat) : ((s.setOp c x o).coreAt c).elem r i j = (s.coreAt c).elem r i j := by
    rw [setOp_eq, coreAt_setCtx]
    cases x <;> rfl
  rw [stmCells, sortUnits_fst, List.map_flatMap, storedCells]
  refine congrArg sortCells (List.flatMap_congr fun p hp => ?_)
  rw [hsup, suppressed_contains]
  split
  · rfl
  · rw [scratchInt_of (by rw [scratch_setOp]; exact hl p hp)]
    simp only [helem]
    exact cellUnits_fst _

theorem storedCells_scratch (k : Core) : ∀ e ∈ storedCells k o l, 2 ^ 56 ≤ e.1 := by
  intro e he
  obtain ⟨p, hp, he⟩ := List.mem_flatMap.1 he
  split at he
  · exact absurd he List.not_mem_nil
  · exact (scratch_ge (hl p hp).2).trans (le_of_mem_cellsFrom he)

/-- `STM` stores its elements, but those of suppressed registers, whose status says so. -/
theorem stm_performs {ch : Choice} (hs : LogOk s) (h : MayPerform s c x o) (hpart : ch.part = none) (hst : o.st = .started)
    (hleft : o.left = []) (hcode : o.code = 0x17) :
    ∃ t, exec (.operationPerform c x o.id ch) s = .next t ∧ OnlyCoreOf s t c ∧
      PerformedOp (s.setCore c { s.coreAt c with tstat := suppressedStatus o.f (s.coreAt c) }) t c x o none ∧
      Stored s t c o.scope (storedCells (s.coreAt c) o l) := by
  have hp : performOp (s.setOp c x o) c x o ch = performStm (s.setOp c x o) c x o ch := by
    unfold performOp
    rw [hcode]
    exact if_neg (by rw [hst]; nofun)
  rw [performStm, if_pos (by rw [hleft]; rfl)] at hp
  have hcells := stmCells_fst hl (x := x)
  have hscratch : ∀ e ∈ stmCells (s.setOp c x o) c o, 2 ^ 56 ≤ e.1.1 := by
    intro e he
    have hmem : e.1 ∈ sortCells (storedCells (s.coreAt c) o l) := hcells ▸ List.mem_map_of_mem he
    obtain ⟨d, hd, hde⟩ := mem_sortCells hmem
    exact hde ▸ storedCells_scratch hl _ d hd
  exact performs_of_write hs h (by omega) (checks_false (by omega) (.inl (by rw [hst]; nofun))) hleft hpart
    (F := fun k => { k with tstat := suppressedStatus o.f k }) (fun k v => by cases x <;> rfl) hscratch
    (by rw [hcells]; exact sortCells_rising _) (by rw [hcells]; exact sortCells_lastOf _) hp

end

/-! ### The obligation -/

/-- Settles O38: a scratchpad operation that may perform makes its read or its write in one step, and each form does with it what its
lemma above says. -/
theorem scalarAccessesPerform : Obligations.ScalarAccessesPerform := by
  unfold Obligations.ScalarAccessesPerform
  refine ⟨?loads, ?stores, ?queues, ?checks, ?matrices⟩
  case loads =>
    intro c a d size signed x o ch s h hpart hgot hdst ha hcode
    exact scalarLoad_performs h hpart hgot hdst ha hcode
  case stores =>
    intro c a size x o ch s hs h hpart hleft _ ha hcode
    exact scalarStore_performs hs h hpart hleft ha hcode
  case queues =>
    intro c x o ch l s hs h hpart hgot hleft _
    refine ⟨fun hl => ⟨fun hcode => queueLoad_performs h hpart hl hgot hcode, fun hcode _ => queueStore_performs h hpart hs hl hleft hcode⟩,
      fun hcode ha => ldtab_performs h hpart ha hgot hcode, fun hcode ha => ?_⟩
    exact ldx_performs h hpart ha hgot hcode
  case checks =>
    intro c a x o ch s h _ hst hx haway hcode hspace halign hplace wide bs r hscope horder
    have hun : ShapeUnchecked s c x o a := ⟨h, hst, hx, haway, hcode, hspace, halign, hplace, hscope, horder⟩
    exact ⟨hun.traps_of_malformed, fun hok w hout => hun.traps_of_outside hok hout, hun.goes_on⟩
  case matrices =>
    intro c x o ch l s hs h hpart hgot hleft _ hst k r d g cells got element gives out hl
    refine ⟨fun hcode hrows hcols => ⟨_, ldm_performs h hpart hst hl hgot hcode, fun n i j hi hj => loadedM_get _ _ hrows hcols hi hj⟩,
      fun hcode hfree hrows hcols => ⟨_, ldb_performs h hpart hst hl hgot hcode hfree, fun n i j hi hj => loadedW_get _ _ hrows hcols hi
        hj⟩,
      fun hcode hbusy => ldb_waits h hst hcode hbusy, fun hcode => ?_⟩
    obtain ⟨t, ht, hcore, hop, hstored⟩ := stm_performs hl hs h hpart hst hleft hcode
    refine ⟨t, _, ht, hcore, hop, suppressedStatus_get o.f k, fun stored hcells => ?_⟩
    rw [hcells]
    exact hstored

end Sys2Proof.Machine
end

section
/-! SUPPORT. The end of a task whose record lies here, and the zeroing of a scratchpad (R125, R139, R144, R153, R180). -/

namespace Sys2Proof.Machine

section
variable {s s1 : State} {v loc w : Nat} {va : Word}

/-! ### State words (R137) -/

theorem swSetState_swState (w : Nat) : swSetState w (swState w) = w := by
  rw [swSetState, swState, field, Nat.pow_zero, Nat.div_one]
  omega

theorem swState_eq (w : Nat) : swState w = w % 16 := by
  rw [swState, field, Nat.pow_zero, Nat.div_one]
  rfl

/-- The swap of a record here that holds the word expected. -/
theorem LiesAt.swapState (h : LiesAt s v va .both 8 loc) (hw : s.imageNat loc 8 = w) (new : Nat) (ans : Answer) :
    s.swapWord v va w new ans = (swapped s loc new, .swapped) := hw ▸ h.swapWord new ans

theorem wordWith_eq (hw : s.imageNat loc 8 = w) (st : Nat) : swSetState w st = wordWith s loc st := by
  rw [wordWith, hw, swSetState]

/-- The failure cause is written first, and then the word is swapped. -/
theorem causeThenSwap_here {cause new : Nat} (hcause : LiesAt s v (s.recAt v va 72) .write 4 (loc + 72))
    (hs1 : s1 = s.writeDevice (cellsFrom (loc + 72) (leBytes 4 cause))) (hword : LiesAt s1 v va .both 8 loc)
    (hw : s1.imageNat loc 8 = w) (ans : List Answer) :
    s.causeThenSwap v va (some cause) w new ans = (swapped s1 loc new, .swapped) := by
  have hput (a : Answer) : s.recPut v (s.recAt v va 72) (leBytes 4 cause) a = (s1, .swapped) := by
    have hcells := cellsAt_span (leBytes 4 cause) (loc + 72)
    rw [leBytes_length] at hcells
    rw [recPut_here (ls := (span (loc + 72) 4).map .at) (by rw [leBytes_length]; exact hcause) (remoteOf_map_at _), hcells, hs1]
  rw [State.causeThenSwap, hput]
  exact hword.swapState hw new _

/-- A lost task that met no error counts as FAILED, and its events are signalled so. -/
theorem lostTk_eq (s : State) (v : Nat) (t : Tk) (bs : List Byte) : s.lostTk v t 0 (signalNames bs) =
    ((s.countTask t false).1, sigsOf v bs true ++ (s.countTask t false).2) := rfl

/-- The word of a record read here. -/
theorem leAt_record {bs : List Byte} (hbs : bs = s.imageBytes loc 128) : leAt bs 0 8 = s.imageNat loc 8 := by
  rw [hbs]
  exact leAt_imageBytes (by norm_num)

/-! ### A team ends (R139, R144, R153) -/

theorem members_over {cores : List Nat} {scope : Nat} (h : ∀ c ∈ cores, s.memberOver scope c = true) :
    (cores.all (s.memberOver scope)) = true := List.all_eq_true.2 h

theorem taskComplete_done {team : Nat} {t : Tk} {ch : Choice} (hown : (s.teamAt team).stolen = none) (hcores : (s.teamAt team).cores ≠ [])
    (hover : ∀ c ∈ (s.teamAt team).cores, s.memberOver 2 c = true) (hfind : s.findTk (s.teamAt team).launch (s.teamAt team).idx = some t)
    (hlies : LiesAt s (s.teamAt team).vf (s.teamAt team).addr .both 8 loc) (hword : s.imageNat loc 8 = leAt (s.teamAt team).bytes 0 8) :
    let tm := s.teamAt team
    let r := ((swapped s loc (wordWith s loc 3)).dropTeam team).countTask t true
    exec (.taskComplete team ch) s = .next (r.1.signals (sigsOf tm.vf tm.bytes false ++ r.2)) := by
  have hgo : ((s.teamAt team).stolen.isSome || (s.teamAt team).cores.isEmpty || !(s.teamAt team).cores.all (s.memberOver 2)) = false := by
    simp [hown, hcores, members_over hover]
  show execTaskComplete team ch s = _
  simp only [execTaskComplete, hfind, hgo, hlies.swapState hword, wordWith_eq hword, Bool.false_eq_true, if_false]

theorem ownerHears_iff (tm : Team) (owner : Nat) : s.ownerHears tm owner = true ↔
    owner = s.module.devId ∨ (leAt tm.bytes 48 2 = 0 ∧ leAt tm.bytes 50 2 = 0) ∨ s.canSend tm.vf owner = true := by
  simp [State.ownerHears, signalNames, or_assoc]

theorem stolenTaskEnd_waits {team : Nat} {ch : Choice} {st : Stolen} (hst : (s.teamAt team).stolen = some st)
    (hears : s.ownerHears (s.teamAt team) st.owner = false) : exec (.stolenTaskEnd team ch) s = .next s := by
  show execStolenTaskEnd team ch s = _
  simp only [execStolenTaskEnd, hst]
  cases s.findTk (s.teamAt team).launch (s.teamAt team).idx with
  | none => rfl
  | some t => simp only [hears, Bool.not_false, if_true, ite_self]

theorem stolenTaskEnd_done {team : Nat} {t : Tk} {ch : Choice} {st : Stolen} (hst : (s.teamAt team).stolen = some st)
    (hears : s.ownerHears (s.teamAt team) st.owner = true) (hfailed : (s.teamAt team).failed = none) (hcores : (s.teamAt team).cores ≠ [])
    (hover : ∀ c ∈ (s.teamAt team).cores, s.memberOver 3 c = true) (hfind : s.findTk (s.teamAt team).launch (s.teamAt team).idx = some t)
    (hlies : LiesAt s (s.teamAt team).vf (s.teamAt team).addr .both 8 loc) (hword : s.imageNat loc 8 = leAt (s.teamAt team).bytes 0 8) :
    let tm := s.teamAt team
    let r := (((swapped s loc (wordWith s loc 3)).dropTeam team).signalOwner tm st.owner false).countTask t true
    exec (.stolenTaskEnd team ch) s = .next (r.1.signals r.2) := by
  have hgo : ((s.teamAt team).cores.isEmpty || !(s.teamAt team).cores.all (s.memberOver 3)) = false := by
    simp [hcores, members_over hover]
  show execStolenTaskEnd team ch s = _
  simp only [execStolenTaskEnd, hst, hfind, hfailed, hgo, hears, Option.isNone_none, Option.isSome_none, Bool.and_false, Bool.not_true,
    Bool.false_eq_true, if_false, State.causeThenSwap, hlies.swapState hword, wordWith_eq hword]

theorem stolenTaskEnd_failed {team cause : Nat} {t : Tk} {ch : Choice} {st : Stolen} (hst : (s.teamAt team).stolen = some st)
    (hears : s.ownerHears (s.teamAt team) st.owner = true) (hfailed : (s.teamAt team).failed = some cause)
    (hfind : s.findTk (s.teamAt team).launch (s.teamAt team).idx = some t)
    (hcause : LiesAt s (s.teamAt team).vf (s.recAt (s.teamAt team).vf (s.teamAt team).addr 72) .write 4 (loc + 72))
    (hs1 : s1 = s.writeDevice (cellsFrom (loc + 72) (leBytes 4 cause)))
    (hlies : LiesAt s1 (s.teamAt team).vf (s.teamAt team).addr .both 8 loc) (hword : s1.imageNat loc 8 = leAt (s.teamAt team).bytes 0 8) :
    let tm := s.teamAt team
    let r := (((swapped s1 loc (wordWith s1 loc 5)).dropTeam team).signalOwner tm st.owner true).countTask t false
    exec (.stolenTaskEnd team ch) s = .next (r.1.signals r.2) := by
  show execStolenTaskEnd team ch s = _
  simp only [execStolenTaskEnd, hst, hfind, hfailed, hears, Option.isNone_some, Option.isSome_some, Bool.false_and, Bool.not_true,
    Bool.false_eq_true, if_false, if_true, causeThenSwap_here hcause hs1 hlies hword, wordWith_eq hword]

/-! ### A task ends away from its team (R139, R153) -/

theorem stealLost_failed {launch idx : Nat} {t : Tk} {bs : List Byte} {ch : Choice} (hfind : s.findTk launch idx = some t)
    (hst : t.st = .away) (hread : LiesAt s (s.tkVf t) t.addr .read 128 loc) (hbs : bs = s.imageBytes loc 128)
      (hstate : leAt bs 0 8 % 16 = 4)
    (hlate : t.since + 1000 * leAt bs 68 4 + s.module.fabricTimeout < s.time)
    (hcause : LiesAt s (s.tkVf t) (s.recAt (s.tkVf t) t.addr 72) .write 4 (loc + 72))
    (hs1 : s1 = s.writeDevice (cellsFrom (loc + 72) (leBytes 4 8))) (hlies : LiesAt s1 (s.tkVf t) t.addr .both 8 loc)
    (hword : s1.imageNat loc 8 = leAt bs 0 8) :
    let r := (swapped s1 loc (wordWith s1 loc 5)).countTask t false
    exec (.stealLost launch idx ch) s = .next (r.1.signals (sigsOf (s.tkVf t) bs true ++ r.2)) := by
  have hold : swSetState (leAt bs 0 8) 4 = leAt bs 0 8 := by
    rw [← hstate, ← swState_eq, swSetState_swState]
  have hfour : swState (leAt bs 0 8) = 4 := (swState_eq _).trans hstate
  have hend : s.failTk (s.tkVf t) t 4 8 ch.ans = (swapped s1 loc (wordWith s1 loc 5)).lostTk (s.tkVf t) t 0 (signalNames bs) := by
    rw [State.failTk, State.endTk, hread.recTake, ← hbs]
    simp only [if_true, hold, causeThenSwap_here hcause hs1 hlies hword, wordWith_eq hword]
    rfl
  show execStealLost launch idx ch s = _
  simp only [execStealLost, hfind, hst, hread.recTake, ← hbs, hlate, hfour, hend, lostTk_eq, if_true, ne_eq, not_true_eq_false, if_false]

theorem launchCancel_cancelled {launch old : Nat} {t : Tk} {l : Launch} {bs : List Byte} {ch : Choice}
    (hmine : s.tasks.filter (fun k => k.launch == launch) = [t]) (hfind : s.findTk t.launch t.idx = some t)
    (hlaunch : s.launch t.launch = some l) (hown : l.stolen = none) (hst : t.st.undispatched = some old)
    (hstate : swState (s.imageNat loc 8) = old) (hread : LiesAt s l.vf t.addr .read 128 loc) (hlies : LiesAt s l.vf t.addr .both 8 loc)
    (hbs : bs = s.imageBytes loc 128) :
    let r := (swapped s loc (swNextGen (wordWith s loc 6))).countTask t false
    exec (.launchCancel launch ch) s = .next (r.1.signals (sigsOf l.vf bs true ++ r.2)) := by
  have hword := leAt_record hbs
  have hold : swSetState (leAt bs 0 8) old = leAt bs 0 8 := by
    rw [← hstate, hword, swSetState_swState]
  have hend (ans : List Answer) : s.endTk l.vf t old 6 0 ans =
      (swapped s loc (swNextGen (wordWith s loc 6))).lostTk l.vf t 0 (signalNames bs) := by
    rw [State.endTk, hread.recTake, ← hbs]
    simp only [if_true, hold, State.causeThenSwap, hlies.swapState hword.symm, wordWith_eq hword.symm]
    rfl
  show execLaunchCancel launch ch s = _
  simp only [execLaunchCancel, hmine, State.cancelAll, hfind, State.cancelTask, hst, hlaunch, hown, hend, lostTk_eq, Option.isSome_none,
    Bool.false_eq_true, if_false]

/-! ### Zeroing (R180) -/

theorem read_filter_keys (test : Nat → Bool) (m : Memory) (a : Nat) :
    Memory.read (m.filter (fun e => test e.1)) a = if test a then Memory.read m a else 0 := by
  induction m with
  | nil => simp [Memory.read, Memory.unlisted]
  | cons e r ih =>
    obtain ⟨k, b⟩ := e
    rw [List.filter_cons]
    by_cases hk : a = k
    · subst hk
      by_cases ht : test a = true
      · simp [ht, Memory.read]
      · simp [ht, ih]
    · by_cases ht : test k = true
      · simp [ht, ih, Memory.read, hk]
      · simp [ht, ih, Memory.read, hk]

/-- A write without its cells at some places. -/
def WEntry.without (place : Nat → Bool) (e : WEntry) : WEntry := { e with cells := e.cells.filter (fun x => !place x.1) }

theorem latest_without (place : Nat → Bool) (log : List WEntry) (a : Nat) :
    latest (fun e => decide (2 ≤ e.level)) a (log.map (WEntry.without place)) =
      if place a then none else latest (fun e => decide (2 ≤ e.level)) a log := by
  induction log with
  | nil => simp [latest]
  | cons e r ih =>
    have hbyte : (e.without place).byteAt a = if place a then none else e.byteAt a := by
      rw [WEntry.byteAt, WEntry.without, lookup_filter (fun x => !place x)]
      cases place a <;> rfl
    rw [List.map_cons, latest, ih, hbyte, latest]
    cases place a with
    | true => simp
    | false => rfl

theorem zeroScratch_image (s : State) (c a : Nat) : (s.zeroScratch c).image a = if inScratch c a then 0 else s.image a := by
  rw [State.image_eq_latest, State.image_eq_latest s]
  show ((latest (fun e => decide (2 ≤ e.level)) a (s.log.map (WEntry.without (inScratch c)))).map (·.2)).getD
    (Memory.read (s.mem.filter (fun e => !inScratch c e.1)) a) = _
  rw [latest_without, read_filter_keys (fun x => !inScratch c x)]
  cases inScratch c a <;> rfl

theorem keepsScratch_false {c : Nat} (h : ∀ v, (s.coreAt c).lastVf = some v → (s.tenant v).slice = false) :
    s.keepsScratch c = false := by
  rw [State.keepsScratch]
  cases hv : (s.coreAt c).lastVf with
  | none => rfl
  | some v => simp [h v hv]

theorem scratchpadZeroing_zeroes {c : Nat} (hteam : (s.coreAt c).team = 0)
    (hslice : ∀ v, (s.coreAt c).lastVf = some v → (s.tenant v).slice = false) :
    ∃ u, exec (.scratchpadZeroing c) s = .next u ∧ u = { s with mem := u.mem, log := u.log, cores := u.cores } ∧
      (∀ a, a < 0x180000 → u.image (scratchLoc c a) = 0) ∧ (∀ a, inScratch c a = false → u.image a = s.image a) ∧
      u.coreAt c = { s.coreAt c with probe := [], probeP := 0, recent := [], clean := true } ∧
      ∀ d, d ≠ c → u.coreAt d = s.coreAt d := by
  refine ⟨s.zeroScratch c, ?_, rfl, fun a ha => ?_, fun a ha => ?_, State.coreAt_setCore_self .., fun d hd => State.coreAt_setCore_ne _ _
    hd⟩
  · show execScratchpadZeroing c s = _
    rw [execScratchpadZeroing, if_pos ⟨hteam, by rw [keepsScratch_false hslice]; rfl⟩]
  · have hin : inScratch c (scratchLoc c a) = true := by
      rw [inScratch, Bool.and_eq_true, decide_eq_true_eq, decide_eq_true_eq]
      exact ⟨Nat.add_le_add_left (Nat.zero_le a) _, Nat.add_lt_add_left ha _⟩
    rw [zeroScratch_image, if_pos hin]
  · rw [zeroScratch_image, if_neg (by rw [ha]; nofun)]

end

/-! ### The obligation -/

/-- Settles O46: each clause is one of the ends above. -/
theorem tasksEnd : Obligations.TasksEnd := by
  unfold Obligations.TasksEnd
  intro team launch idx loc c bs t ch s tm ended
  refine ⟨?complete, ?watchdog, ?_⟩
  case complete =>
    rintro hown ⟨hcores, hover, hfind, hlies, hword⟩
    exact taskComplete_done hown hcores hover hfind hlies hword
  case watchdog =>
    intro hcores hlate
    show execTaskWatchdog team ch s = _
    rw [execTaskWatchdog]
    exact if_pos ⟨hcores, hlate⟩
  intro hears
  refine ⟨?stolen, ?waits, ?failed, ?lost, ?cancel, scratchpadZeroing_zeroes⟩
  case stolen =>
    rintro st hst hh hfailed ⟨hcores, hover, hfind, hlies, hword⟩
    exact stolenTaskEnd_done hst ((ownerHears_iff tm st.owner).2 hh) hfailed hcores hover hfind hlies hword
  case waits =>
    intro st hst hh
    exact stolenTaskEnd_waits hst (Bool.eq_false_iff.2 fun h => hh ((ownerHears_iff tm st.owner).1 h))
  case failed =>
    intro st cause hst hh hfailed hfind s1 hcause hlies hword
    exact stolenTaskEnd_failed hst ((ownerHears_iff tm st.owner).2 hh) hfailed hfind hcause rfl hlies hword
  case lost =>
    intro v s1 hfind hst hread hbs hstate hlate hcause hlies hword
    exact stealLost_failed hfind hst hread hbs hstate hlate hcause rfl hlies hword
  case cancel =>
    rintro l hmine hfind hlaunch hown (⟨hst, hstate⟩ | ⟨hst, hstate⟩) hread hlies hbs
    · exact launchCancel_cancelled hmine hfind hlaunch hown (old := 0) (by rw [hst]; rfl) hstate hread hlies hbs
    · exact launchCancel_cancelled hmine hfind hlaunch hown (old := 1) (by rw [hst]; rfl) hstate hread hlies hbs

end Sys2Proof.Machine
end

section
/-! SUPPORT. Element accesses of engine commands: how one ends, what one reads and what one writes where its element lies here (R123,
R129, R170). -/

namespace Sys2Proof.Machine

/-! ### What an access leaves -/

/-- The core, memory and what counts memory's lines alone have changed, and of the context not its operations. -/
structure AccessedBy (s t : State) (c : Nat) (x : CtxId) : Prop where
  only : OnlyCoreOf { s with counters := t.counters, nodes := t.nodes, domains := t.domains } t c
  ops  : (t.ctxAt c x).ops = (s.ctxAt c x).ops

theorem AccessedBy.refl (s : State) (c : Nat) (x : CtxId) : AccessedBy s s c x := ⟨⟨rfl, fun _ _ => rfl⟩, rfl⟩

theorem AccessedBy.trans {s t u : State} {c : Nat} {x : CtxId} (h : AccessedBy s t c x) (h' : AccessedBy t u c x) : AccessedBy s u c x := by
  refine ⟨⟨?_, fun d hd => (h'.only.others d hd).trans (h.only.others d hd)⟩, h'.ops.trans h.ops⟩
  rw [h'.only.rest, h.only.rest]

theorem note_accessedBy (s : State) (c : Nat) (x : CtxId) (es : List (Nat × Nat)) : AccessedBy s (s.note c x es) c x := by
  unfold State.note
  split
  · exact .refl s c x
  · exact ⟨(OnlyCoreOf.refl s c).setCore _, by rw [State.ctxAt_setCtx_self]⟩

theorem note_sameMemory (s : State) (c : Nat) (x : CtxId) (es : List (Nat × Nat)) : SameMemory s (s.note c x es) := by
  unfold State.note
  split <;> exact ⟨rfl, rfl, rfl⟩

theorem setOp_onlyCoreOf {s t : State} {c : Nat} {x : CtxId} (h : AccessedBy s t c x) (p : Op) :
    OnlyCoreOf { s with counters := t.counters, nodes := t.nodes, domains := t.domains } (t.setOp c x p) c := h.only.setCore _

theorem opAt_setOp {s t : State} {c : Nat} {x : CtxId} {o p : Op} (h : AccessedBy s t c x) (here : s.opAt c x o.id = some o)
    (hid : p.id = o.id) : (t.setOp c x p).opAt c x o.id = some p := by
  rw [State.opAt, setOp_eq, State.ctxAt_setCtx_self, ← hid]
  exact find_put (p := o) (by rw [h.ops, hid]; exact here)

/-- An access has been made once its operation is put with its element. -/
theorem elementMade_setOp {s t : State} {c k : Nat} {x : CtxId} {o p : Op} {e : Elem} (h : AccessedBy s t c x) (hgo : EngineGoing s c x o)
    (hid : p.id = o.id) (hst : p.st = o.st) (hrecord : p.eng.record = o.eng.record) (htotal : p.eng.total = o.eng.total)
    (helems : p.eng.elems = o.eng.elems.set k e) : ElementMade s (t.setOp c x p) c x o k e := by
  refine ⟨setOp_onlyCoreOf h p, p, opAt_setOp h hgo.here hid, hst.trans hgo.st, hrecord, htotal, ?_, fun n hn => ?_⟩
  · rw [helems, Tab.get_set_self]
  · rw [helems, Tab.get_set_ne _ _ _ hn]

/-! ### The step -/

/-- The access that a command makes. -/
def engineStep (s : State) (c : Nat) (x : CtxId) (o : Op) (ch : Choice) : EngineAct → Got1 State
  | .check => engineCheck s c x o ch
  | .index k => engineIndex s c x o k ch
  | .read k => engineRead s c x o k ch
  | .write k => engineWrite s c x o k ch

section
variable {s : State} {c : Nat} {x : CtxId} {o : Op} {ch : Choice} {act : EngineAct} (h : EngineGoing s c x o)
include h

theorem goes_elementAccess :
    (!isEngine o.code || o.st != .started || o.eng.fault.isSome || (o.pageWait && s.parksFull c)) = false := by
  rw [h.engine, h.st, h.clear, h.page]
  rfl

/-- A command that can make an access makes the one chosen. -/
theorem exec_access_ok {t : State} (hr : engineStep s c x o ch act = .ok t) :
    exec (.engineElementAccess c x o.id act ch) s = .next t := by
  show execEngineElementAccess c x o.id act ch s = _
  simp only [execEngineElementAccess, h.here, goes_elementAccess h, Bool.false_eq_true, if_false]
  cases act <;> simp only [engineStep] at hr <;> simp only [hr]

theorem exec_access_no {p : Perf} (hr : engineStep s c x o ch act = .no p) :
    exec (.engineElementAccess c x o.id act ch) s = s.settlePerf c x o p := by
  show execEngineElementAccess c x o.id act ch s = _
  simp only [execEngineElementAccess, h.here, goes_elementAccess h, Bool.false_eq_true, if_false]
  cases act <;> simp only [engineStep] at hr <;> simp only [hr]

end

/-! ### Places here -/

@[simp] theorem localLocs_map_at (ls : List Nat) : localLocs (ls.map .at) = some ls := by
  induction ls with
  | nil => rfl
  | cons a r ih => rw [List.map_cons, localLocs, ih, Option.map_some]

/-- With no way of the cache named nothing is cached or counted. -/
theorem touch_none (p : Piece) (s : State) (v : Nat) (o : Op) (bs : List Byte1) (wr : Bool) : p.touch s v o bs none wr = s := by
  cases p <;> rfl

theorem counted_none (p : Piece) (o : Op) (bs : List Byte1) : p.counted o bs none = o := by
  cases p <;> rfl

section
variable {s : State} {c : Nat} {x : CtxId} {o : Op} {ch : Choice} {a : ElemAcc} {ls : List Nat}
  (hidle : o.away = [] ∧ o.got = [] ∧ o.left = []) (hway : ch.way = none)
include hidle hway

/-- The read of an element that lies here. -/
theorem readPiece_here (hpart : ch.part = none) (hfind : s.findPiece c (s.vfOf c) .read a.piece = .bytes (ls.map .at)) (ms : Mates) :
    let r := s.readLocs c x (a.piece.scope a.scope) ch.cuts ls
    readPiece s c x o a ms ch =
      .ok (s.noteRead c x ls r, o, field (leNat (r.map (·.2))) a.piece.shape.1 a.piece.shape.2, tookOf r) := by
  obtain ⟨haway, hgot, hleft⟩ := hidle
  have hrest : (withUnits ls).filter (fun u => (o.gotAt a.k u.1).isNone) = withUnits ls :=
    List.filter_eq_self.2 fun u _ => by rw [Op.gotAt, hgot]; rfl
  have hfst : (withUnits ls).map (·.1) = ls := by
    rw [withUnits, List.map_fst_zip]
    rw [unitKeys_length]
  have hparts : readParts s c x o a.k (a.piece.scope a.scope) ch (ls.map .at) (withUnits ls) =
      (s.noteRead c x ls (s.readLocs c x (a.piece.scope a.scope) ch.cuts ls), some (s.readLocs c x (a.piece.scope a.scope) ch.cuts ls)) :=
        by
    simp only [readParts, hpart, hrest, hfst, hgot, List.isEmpty_nil, if_true]
    rfl
  simp only [readPiece, reach, haway, List.find?_nil, hfind, reachNew, foundOr, remoteOf_map_at, hereLocs_map_at, hparts, hway, touch_none,
    counted_none, putBack_map_at (readLocs_length ..)]

/-- The write of an element that lies here. -/
theorem writePiece_here (hpart : ch.part = none) (hfind : s.findPiece c (s.vfOf c) .write a.piece = .bytes (ls.map .at)) (ms : Mates)
    (vals : Nat → Nat) :
    let us := cellUnits (bitCells s ls a.piece.shape.1 a.piece.shape.2 (vals a.k))
    writePiece s c x o a ms vals ch = .ok (s.writeUnits c x (a.piece.scope a.scope) us, o, s.unitSeqs us) := by
  obtain ⟨haway, hgot, hleft⟩ := hidle
  simp only [writePiece, reach, haway, List.find?_nil, hfind, reachNew, foundOr, remoteOf_map_at, localLocs_map_at, Option.getD_some,
    writeParts, hpart, hleft, hway, touch_none, counted_none]

/-- The update of an element that lies here. -/
theorem updatePiece_here (hfind : s.findPiece c (s.vfOf c) .both a.piece = .bytes (ls.map .at)) (req : Nat → Nat → FabricRequest)
    (g : Nat → Nat) :
    let r := ls.map (fun l => s.imageIn c a.scope l)
    let old := field (leNat (r.map (·.2))) a.piece.shape.1 a.piece.shape.2
    let cells := bitCells s ls a.piece.shape.1 a.piece.shape.2 (g old)
    updatePiece s c x o a ch req g = .ok ((s.noteRead c x ls r).writeCells c x a.scope cells, o, old, tookOf r,
      (s.noteRead c x ls r).writeSeqs cells) := by
  obtain ⟨haway, hgot, hleft⟩ := hidle
  simp only [updatePiece, reach, haway, List.find?_nil, hfind, reachNew, foundOr, remoteOf_map_at, localLocs_map_at, Option.getD_some,
    hway, touch_none, counted_none]

end

/-! ### What a write leaves -/

/-- A write's lines are counted, its parts are appended, and the context notes what it has performed. -/
theorem writeUnits_eq (s : State) (c : Nat) (x : CtxId) (scope : Nat) (us : List (Host.Cell × Nat)) : ∃ es,
    s.writeUnits c x scope us = ((s.bumpLines (linesOf (us.map (·.1)))).appended c scope us).settle.note c x es := by
  refine ⟨(us.map (·.1)).map (fun e => (e.1, s.nextSeq + (cutParts us).length - 1)), ?_⟩
  rw [State.writeUnits, State.putWrites_eq]
  rfl

theorem writeUnits_accessedBy (s : State) (c : Nat) (x : CtxId) (scope : Nat) (us : List (Host.Cell × Nat)) :
    AccessedBy s (s.writeUnits c x scope us) c x := by
  obtain ⟨es, hw⟩ := writeUnits_eq s c x scope us
  obtain ⟨cs, ns, ds, hb⟩ := State.bumpLines_only (linesOf (us.map (·.1))) s
  have hsettle : AccessedBy s ((s.bumpLines (linesOf (us.map (·.1)))).appended c scope us).settle c x := by
    rw [hb]
    exact ⟨⟨rfl, fun _ _ => rfl⟩, rfl⟩
  exact hw ▸ hsettle.trans (note_accessedBy ..)

/-- The same image in every instance gives the same stores. -/
theorem Stored.of_memory {s s' t t' : State} {c scope : Nat} {cells : List Host.Cell} (h : Stored s t c scope cells)
    (hs : s'.mem = s.mem ∧ s'.log = s.log) (ht : t'.mem = t.mem ∧ t'.log = t.log) : Stored s' t' c scope cells := by
  have himage {u u' : State} (hu : u'.mem = u.mem ∧ u'.log = u.log) (a : Nat) : u'.image a = u.image a := by
    rw [State.image, State.image, hu.1, hu.2]
  have hin {u u' : State} (hu : u'.mem = u.mem ∧ u'.log = u.log) (k sc a : Nat) : u'.imageIn k sc a = u.imageIn k sc a := by
    rw [State.imageIn, State.imageIn, hu.1, hu.2]
  refine ⟨fun pre a b post he hpost => ?_, fun a ha => ⟨?_, fun k sc => ?_⟩⟩
  · rw [hin ht]
    exact h.value pre a b post he hpost
  · rw [himage ht, himage hs]
    exact (h.frame a ha).1
  · rw [hin ht, hin hs]
    exact (h.frame a ha).2 k sc

/-- A write of rising cells stores them. -/
theorem writeUnits_stored {s : State} (hs : LogOk s) (c : Nat) (x : CtxId) (scope : Nat) {cells : List Host.Cell}
    (hrise : cells.Pairwise (fun a b => a.1 < b.1)) : Stored s (s.writeUnits c x scope (cellUnits cells)) c scope cells := by
  obtain ⟨es, hw⟩ := writeUnits_eq s c x scope (cellUnits cells)
  obtain ⟨cs, ns, ds, hb⟩ := State.bumpLines_only (linesOf ((cellUnits cells).map (·.1))) s
  have hcells := cellUnits_fst cells
  have hstored := appended_stored (s := { s with counters := cs, nodes := ns, domains := ds }) hs (c := c) (scope := scope)
    (us := cellUnits cells) (cells := cells) (by rwa [hcells]) (by rw [hcells]; exact lastOf_rising hrise)
  have hnote := note_sameMemory (({ s with counters := cs, nodes := ns, domains := ds } : State).appended c scope
      (cellUnits cells)).settle c x es
  rw [hw, hb]
  exact hstored.of_memory ⟨rfl, rfl⟩ ⟨hnote.1, hnote.2.1⟩

/-! ### Cells of an element -/

/-- The bytes of a number from a location. -/
def numberCells (l n w : Nat) : List Host.Cell := (List.range n).map (fun i => (l + i, BitVec.ofNat 8 (w / 256 ^ i)))

theorem numberCells_rising (l n w : Nat) : (numberCells l n w).Pairwise (fun a b => a.1 < b.1) :=
  List.Pairwise.map _ (fun _ _ h => Nat.add_lt_add_left h l) List.pairwise_lt_range

/-- An element of whole bytes is written as its number. -/
theorem bitCells_bytes (s : State) (l n v : Nat) : bitCells s (span l n) 0 (8 * n) v = numberCells l n v := by
  rw [bitCells, if_pos ⟨rfl, Nat.mul_mod_right 8 n⟩, Nat.mul_div_cancel_left n (by norm_num), leBytes_eq_map, span, List.zip_map']
  refine List.map_congr_left fun i _ => ?_
  rw [show (256 : Nat) = 2 ^ 8 from rfl, ← Nat.pow_mul]

/-- An element narrower than its byte leaves the byte's other bits as its latest write has them. -/
theorem bitCells_bits (s : State) (l v : Nat) {sh w : Nat} (h0 : 0 < w) (h8 : w < 8) : bitCells s [l] sh w v =
    [(l, BitVec.ofNat 8 ((s.newest l).toNat - (s.newest l).toNat / 2 ^ sh % 2 ^ w * 2 ^ sh + v % 2 ^ w * 2 ^ sh))] := by
  rw [bitCells, if_neg (by omega)]
  simp [leNat, leBytes, field]

theorem field_bytes {bs : List Byte} {n : Nat} (h : bs.length = n) : field (leNat bs) 0 (8 * n) = leNat bs := by
  rw [field, Nat.pow_zero, Nat.div_one]
  refine Nat.mod_eq_of_lt ?_
  have := leNat_lt bs
  rwa [h, show (256 : Nat) = 2 ^ 8 from rfl, ← Nat.pow_mul] at this

end Sys2Proof.Machine
end

section
/-! SUPPORT. The element accesses of a started engine command (R123, R169, R170, R318 to R320). -/

namespace Sys2Proof.Machine

section
variable {s : State} {c k l n : Nat} {x : CtxId} {o : Op} {ch : Choice} (h : EngineGoing s c x o)
include h

/-! ### The index of an element (R317) -/

/-- What an access takes, as a number. -/
def numberTaken (s : State) (c : Nat) (x : CtxId) (ch : Choice) (scope l n : Nat) : Nat :=
  leNat ((s.readLocs c x scope ch.cuts (span l n)).map (·.2))

omit h in
theorem field_taken (s : State) (c : Nat) (x : CtxId) (ch : Choice) (scope l n : Nat) :
    field (leNat ((s.readLocs c x scope ch.cuts (span l n)).map (·.2))) 0 (8 * n) = numberTaken s c x ch scope l n :=
  field_bytes (by rw [List.length_map, readLocs_length, span_length])

/-- The piece of plane or scratchpad that an index command's element reads first. -/
def sourcePiece (o : Op) (k : Nat) : Piece :=
  if o.code = 0x62 then nzPiece o.eng.record k
  else ixPiece o.eng.record (if o.code = 0x63 then k else k / ixL o.eng.record)

omit h in
theorem indexAcc_piece (o : Op) (k : Nat) : (indexAcc o k).piece = sourcePiece o k := by
  by_cases h62 : o.code = 0x62
  · simp [indexAcc, sourcePiece, h62]
  · by_cases h63 : o.code = 0x63
    · simp [indexAcc, sourcePiece, h63]
    · simp [indexAcc, sourcePiece, h62, h63, ixRow]

theorem index_made (hpart : ch.part = none) (hway : ch.way = none) (hcode : 0x60 ≤ o.code) (hk : k < o.eng.total)
    (hchecked : o.eng.checked ≤ k) (hstate : o.eng.elems.get .todo k = .todo) (hat : PieceAt s c .read (sourcePiece o k) l n) :
    ∃ t, exec (.engineElementAccess c x o.id (.index k) ch) s = .next t ∧
      ElementMade s t c x o k (.index (numberTaken s c x ch ((sourcePiece o k).scope o.scope) l n)) ∧ SameMemory s t := by
  obtain ⟨hshape, hfind⟩ := hat
  rw [← indexAcc_piece] at hshape hfind ⊢
  have hread := readPiece_here h.idle hway hpart hfind [] (x := x)
  rw [hshape] at hread
  have hgo : ¬ (o.code < 0x60 ∨ o.eng.total ≤ k ∨ k < o.eng.checked ∨ o.eng.elems.get .todo k ≠ .todo) := by
    rw [hstate]
    rintro (hlt | hle | hlt | hne)
    · omega
    · omega
    · omega
    · exact hne rfl
  refine ⟨_, exec_access_ok h (by rw [engineStep, engineIndex, if_neg hgo, hread]), ?_, ?_⟩
  · exact elementMade_setOp (note_accessedBy ..) h rfl rfl rfl rfl (by rw [field_taken]; rfl)
  · exact note_sameMemory ..

/-! ### The check of an element (R123) -/

/-- A checked element. -/
theorem check_made {e : Elem} {live : Nat} (hk : o.eng.checked = k) (hr : engineCheck s c x o ch = .ok
    (s.setOp c x (o.checkedElem e live))) :
    ∃ t, exec (.engineElementAccess c x o.id .check ch) s = .next t ∧ ElementMade s t c x o k e ∧ SameMemory s t ∧
      ∃ w, t.opAt c x o.id = some w ∧ w.eng.checked = k + 1 ∧ w.eng.live = o.eng.live + live :=
  ⟨_, exec_access_ok h hr, elementMade_setOp (.refl s c x) h rfl rfl rfl rfl (by rw [← hk]; rfl), ⟨rfl, rfl, rfl⟩, _,
    opAt_setOp (.refl s c x) h.here rfl, congrArg (· + 1) hk, rfl⟩

omit h in
/-- Both sides of an element pass their checks. -/
theorem checkSides_ok {p : Nat} (hsrc : o.code = 0x63 ∨ ∃ bs, s.findPiece c (s.vfOf c) .read (pieces s (s.vfOf c) o k p).1 = .bytes bs)
    (hdst : ∃ bs, s.findPiece c (s.vfOf c) (destNeed o) (pieces s (s.vfOf c) o k p).2 = .bytes bs) : checkSides s c o k p = .ok () := by
  obtain ⟨bs, hdst⟩ := hdst
  rcases hsrc with h63 | ⟨bs, hsrc⟩
  · simp only [checkSides, if_pos h63, hdst, checkOnly]
  · simp only [checkSides, hsrc, hdst, checkOnly, ite_self]

omit h in
theorem copyCheck_made {p : Nat} (hk : o.eng.checked = k) (hlt : k < o.eng.total) (hcode : o.code = 0x20) (hp : p = 0)
    (hsrc : o.code = 0x63 ∨ ∃ bs, s.findPiece c (s.vfOf c) .read (pieces s (s.vfOf c) o k p).1 = .bytes bs)
    (hdst : ∃ bs, s.findPiece c (s.vfOf c) (destNeed o) (pieces s (s.vfOf c) o k p).2 = .bytes bs) :
    engineCheck s c x o ch = .ok (s.setOp c x (o.checkedElem (.at 0) 0)) := by
  subst hk hp
  simp only [engineCheck, if_neg (Nat.not_le.2 hlt), if_pos (Or.inl hcode : o.code = 0x20 ∨ o.code = 0x22), checkSides_ok hsrc hdst]

theorem copyCheck_faults {p e : Nat} {a : Word} {cause : Nat} (hk : o.eng.checked = k) (hlt : k < o.eng.total) (hcode : o.code = 0x20)
    (hp : p = 0) (hfault : s.findPiece c (s.vfOf c) .read (pieces s (s.vfOf c) o k p).1 = .fault cause e a) :
    exec (.engineElementAccess c x o.id .check ch) s =
      .next (s.copyFault c x o.id ⟨cause, 0, a, nestIdx (patNest o.eng.record) k, BitVec.ofNat 64 e⟩) := by
  subst hk hp
  have hr : engineStep s c x o ch .check =
      .no (.fault ⟨cause, 0, a, nestIdx (patNest o.eng.record) o.eng.checked, BitVec.ofNat 64 e⟩) := by
    simp only [engineStep, engineCheck, if_neg (Nat.not_le.2 hlt), if_pos (Or.inl hcode : o.code = 0x20 ∨ o.code = 0x22), checkSides,
      if_neg (show ¬ o.code = 0x63 by omega), hfault, checkOnly, faultSide, if_neg (show ¬ o.code = 0x22 by omega), faultIdx, if_pos hcode,
      Bool.false_eq_true, if_false]
  exact exec_access_no h hr

omit h in
/-- The check of an element whose index is known is that of the index. -/
theorem engineCheck_index {m : Nat} (hk : o.eng.checked = k) (hlt : k < o.eng.total) (hcode : 0x60 ≤ o.code)
    (hstate : o.eng.elems.get .todo k = .index m) : engineCheck s c x o ch = indexCheck s c x o k m := by
  subst hk
  simp only [engineCheck, if_neg (Nat.not_le.2 hlt), if_neg (show ¬ (o.code = 0x20 ∨ o.code = 0x22) by omega), hstate]

omit h in
theorem indexCheck_table {m p : Nat} (h62 : o.code ≠ 0x62) (hin : ¬ (o.code = 0x63 ∧ ixL o.eng.record ≤ m))
    (hp : p = if o.code = 0x63 then vaPos (ixTable o.eng.record) + ixGran s (s.vfOf c) o.eng.record * m
      else vaPos (ixTable o.eng.record) + m * ixStride o.eng.record + (ixRow o.eng.record k).2)
    (hsrc : o.code = 0x63 ∨ ∃ bs, s.findPiece c (s.vfOf c) .read (pieces s (s.vfOf c) o k p).1 = .bytes bs)
    (hdst : ∃ bs, s.findPiece c (s.vfOf c) (destNeed o) (pieces s (s.vfOf c) o k p).2 = .bytes bs) :
    indexCheck s c x o k m = .ok (s.setOp c x (o.checkedElem (.at p) 0)) := by
  simp only [indexCheck, if_neg h62, if_neg hin, ← hp, checkSides_ok hsrc hdst]

omit h in
theorem indexCheck_beyond {m : Nat} (hcode : o.code = 0x63) (hout : ixL o.eng.record ≤ m) :
    indexCheck s c x o k m = .ok (s.setOp c x (o.checkedElem .done 0)) := by
  simp only [indexCheck, if_neg (show o.code ≠ 0x62 by omega), if_pos (And.intro hcode hout)]

omit h in
theorem indexCheck_zero {m : Nat} (hcode : o.code = 0x62) (hzero : nzLive (ixFmt o.eng.record) m = false) :
    indexCheck s c x o k m = .ok (s.setOp c x (o.checkedElem .done 0)) := by
  simp only [indexCheck, if_pos hcode, hzero, Bool.false_eq_true, if_false]

/-- `XNZS` with a live element checked: its value and its position are to be written. -/
def Op.checkedLive (o : Op) (k m : Nat) : Op :=
  { o.checkedElem (.got o.eng.live (leBytes 8 m)) 1 with
    eng := { (o.checkedElem (.got o.eng.live (leBytes 8 m)) 1).eng with
      elems := (o.checkedElem (.got o.eng.live (leBytes 8 m)) 1).eng.elems.set (o.eng.total + k) (.got o.eng.live (leBytes 8 k)) } }

omit h in
/-- The position of a live element of `XNZS` lies in the local window or a peer's. -/
theorem findPiece_nzPos (v : Nat) (r : List Byte) {p : Nat} (hplace : (s.scratch c (leAt r 0 4 + 4 * p) 4).isSome) :
    ∃ bs, s.findPiece c v .write (nzPos r p) = .bytes bs := by
  obtain ⟨a, ha⟩ := Option.isSome_iff_exists.1 hplace
  have hbyte : Int.fdiv (8 * ((leAt r 0 4 + 4 * p : Nat) : Int)) 8 = ((leAt r 0 4 + 4 * p : Nat) : Int) := by
    rw [Int.fdiv_eq_ediv_of_nonneg _ (by norm_num)]
    omega
  have hbit : (8 * ((leAt r 0 4 + 4 * p : Nat) : Int) % 8).toNat = 0 := by omega
  refine ⟨(span a 4).map .at, ?_⟩
  have hneg : ¬ (((leAt r 0 4 + 4 * p : Nat) : Int) < 0 ∨ (0 = 1 ∧ isPeer (leAt r 0 4 + 4 * p) = true) ∨
      (0 = 2 ∧ (!isPeer (leAt r 0 4 + 4 * p)) = true)) := by omega
  unfold nzPos State.findPiece
  dsimp only
  rw [hbyte, hbit]
  exact (if_neg hneg).trans (by rw [Int.toNat_natCast, ha])

omit h in
theorem indexCheck_live {m : Nat} (hcode : o.code = 0x62) (hlive : nzLive (ixFmt o.eng.record) m = true)
    (hval : ∃ bs, s.findPiece c (s.vfOf c) .write (nzVal o.eng.record o.eng.live) = .bytes bs)
    (hpos : (s.scratch c (leAt o.eng.record 0 4 + 4 * o.eng.live) 4).isSome) :
    indexCheck s c x o k m = .ok (s.setOp c x (o.checkedLive k m)) := by
  obtain ⟨bs, hval⟩ := hval
  obtain ⟨ps, hpos⟩ := findPiece_nzPos (s.vfOf c) o.eng.record hpos
  simp only [indexCheck, if_pos hcode, hlive, if_true, hval, hpos, checkOnly]
  rfl

theorem liveCheck_made {m p : Nat} (hk : o.eng.checked = k) (hlt : k < o.eng.total) (hstate : o.eng.elems.get .todo k = .index m)
    (hcode : o.code = 0x62) (hlive : nzLive (ixFmt o.eng.record) m = true) (hp : p = o.eng.live)
    (hval : ∃ bs, s.findPiece c (s.vfOf c) .write (pieces s (s.vfOf c) o k p).2 = .bytes bs)
    (hpos : (s.scratch c (leAt o.eng.record 0 4 + 4 * p) 4).isSome) :
    ∃ t w, exec (.engineElementAccess c x o.id .check ch) s = .next t ∧ OnlyCoreOf s t c ∧ SameMemory s t ∧
      t.opAt c x o.id = some w ∧ w.st = .started ∧ w.eng.record = o.eng.record ∧ w.eng.total = o.eng.total ∧ w.eng.checked = k + 1 ∧
      w.eng.live = p + 1 ∧ w.eng.elems.get .todo k = .got p (leBytes 8 m) ∧
      w.eng.elems.get .todo (o.eng.total + k) = .got p (leBytes 8 k) ∧
      ∀ i, i ≠ k → i ≠ o.eng.total + k → w.eng.elems.get .todo i = o.eng.elems.get .todo i := by
  subst hp
  have hpiece : (pieces s (s.vfOf c) o k o.eng.live).2 = nzVal o.eng.record o.eng.live := by
    simp only [pieces, hcode, if_pos hlt]
  rw [hpiece] at hval
  have hr : engineStep s c x o ch .check = .ok (s.setOp c x (o.checkedLive k m)) := by
    rw [engineStep, engineCheck_index hk hlt (by omega) hstate, indexCheck_live hcode hlive hval hpos]
  have helems : (o.checkedLive k m).eng.elems =
      (o.eng.elems.set k (.got o.eng.live (leBytes 8 m))).set (o.eng.total + k) (.got o.eng.live (leBytes 8 k)) := by
    rw [← hk]
    rfl
  refine ⟨_, _, exec_access_ok h hr, (OnlyCoreOf.refl s c).setCore _, ⟨rfl, rfl, rfl⟩, opAt_setOp (.refl s c x) h.here rfl, h.st, rfl, rfl,
    congrArg (· + 1) hk, rfl, ?_, ?_, fun i hi hit => ?_⟩
  · rw [helems, Tab.get_set_ne _ _ _ (by omega), Tab.get_set_self]
  · rw [helems, Tab.get_set_self]
  · rw [helems, Tab.get_set_ne _ _ _ hit, Tab.get_set_ne _ _ _ hi]

/-! ### The read of an element -/

theorem read_made {p : Nat} (hpart : ch.part = none) (hway : ch.way = none) (h63 : o.code ≠ 0x63)
    (hstate : o.eng.elems.get .todo k = .at p) (hat : PieceAt s c .read (pieces s (s.vfOf c) o k p).1 l n) :
    ∃ t, exec (.engineElementAccess c x o.id (.read k) ch) s = .next t ∧
      ElementMade s t c x o k
        (.got p (leBytes 32 (numberTaken s c x ch ((pieces s (s.vfOf c) o k p).1.scope o.scope) l n))) ∧ SameMemory s t := by
  obtain ⟨hshape, hfind⟩ := hat
  have hread := readPiece_here (a := ⟨k, (pieces s (s.vfOf c) o k p).1, faultSide o false, faultIdx o k, o.scope⟩) h.idle hway hpart hfind
    (matesOf s c o k false (pieces s (s.vfOf c) o k p).1) (x := x)
  dsimp only at hread
  rw [hshape] at hread
  refine ⟨_, exec_access_ok h (by
    rw [engineStep, engineRead, hstate]
    simp only [if_neg h63, hread]
    rfl), ?_, ?_⟩
  · exact elementMade_setOp (note_accessedBy ..) h rfl rfl rfl rfl (by rw [field_taken]; rfl)
  · exact note_sameMemory ..

/-! ### The write of an element -/

/-- The write of an element whose places lie here stores its cells. -/
theorem write_made {p : Nat} {b : List Byte} {ls : List Nat} {cells : List Host.Cell} (hs : LogOk s) (hpart : ch.part = none)
    (hway : ch.way = none) (hadd : ¬ (o.code = 0x61 ∧ ixAdd o.eng.record = true)) (hstate : o.eng.elems.get .todo k = .got p b)
    (hfirst : earlierWrite o k p = false) (hfind : s.findPiece c (s.vfOf c) .write (pieces s (s.vfOf c) o k p).2 = .bytes (ls.map .at))
    (hcells : bitCells s ls (pieces s (s.vfOf c) o k p).2.shape.1 (pieces s (s.vfOf c) o k p).2.shape.2 (leNat b) = cells)
    (hrise : cells.Pairwise (fun a b => a.1 < b.1)) :
    ∃ t, exec (.engineElementAccess c x o.id (.write k) ch) s = .next t ∧ ElementMade s t c x o k .done ∧
      Stored s t c ((pieces s (s.vfOf c) o k p).2.scope o.scope) cells := by
  have hheld : heldValue o k = leNat b := by rw [heldValue, hstate]
  have hwrite := writePiece_here (a := ⟨k, (pieces s (s.vfOf c) o k p).2, faultSide o true, faultIdx o k, o.scope⟩) h.idle hway hpart hfind
    (matesOf s c o k true (pieces s (s.vfOf c) o k p).2) (heldValue o) (x := x)
  dsimp only at hwrite
  rw [hheld, hcells] at hwrite
  refine ⟨_, exec_access_ok h (by
    rw [engineStep, engineWrite, hstate]
    simp only [hfirst, Bool.false_eq_true, if_false, if_neg hadd, hwrite]
    rfl), ?_, ?_⟩
  · exact elementMade_setOp (writeUnits_accessedBy ..) h rfl rfl rfl rfl rfl
  · exact (writeUnits_stored hs c x _ hrise).of_memory ⟨rfl, rfl⟩ ⟨rfl, rfl⟩

/-- The number that the locations of an update hold. -/
def numberBefore (s : State) (c scope l n : Nat) : Nat := leNat ((List.range n).map (fun i => (s.imageIn c scope (l + i)).2))

omit h in
theorem field_before (s : State) (c scope l n : Nat) :
    field (leNat (((span l n).map (fun a => s.imageIn c scope a)).map (·.2))) 0 (8 * n) = numberBefore s c scope l n := by
  rw [field_bytes (by rw [List.length_map, List.length_map, span_length]), span, List.map_map, List.map_map]
  rfl

omit h in
/-- An update that has noted what it read stores its number. -/
theorem update_stored (hs : LogOk s) (c : Nat) (x : CtxId) (scope : Nat) (es : List (Nat × Nat)) (l n w : Nat) :
    Stored s ((s.note c x es).writeCells c x scope (numberCells l n w)) c scope (numberCells l n w) := by
  obtain ⟨hmem, hlog, hseq⟩ := note_sameMemory s c x es
  have hok : LogOk (s.note c x es) := by
    rw [LogOk, hlog, hseq]
    exact hs
  exact (writeUnits_stored hok c x scope (numberCells_rising l n w)).of_memory ⟨hmem.symm, hlog.symm⟩ ⟨rfl, rfl⟩

/-- `XSCAT` with ADD reads and writes its element in one step. -/
theorem scatter_made {p : Nat} {b : List Byte} (hs : LogOk s) (hway : ch.way = none) (hcode : o.code = 0x61)
    (hadd : ixAdd o.eng.record = true) (hstate : o.eng.elems.get .todo k = .got p b) (hfirst : earlierWrite o k p = false)
    (hat : PieceAt s c .both (pieces s (s.vfOf c) o k p).2 l n) :
    ∃ t, exec (.engineElementAccess c x o.id (.write k) ch) s = .next t ∧ ElementMade s t c x o k .done ∧
      Stored s t c o.scope (numberCells l n (scatterAdd (ixFmt o.eng.record) (numberBefore s c o.scope l n) (leNat b))) := by
  obtain ⟨hshape, hfind⟩ := hat
  have hupdate (req : Nat → Nat → FabricRequest) (g : Nat → Nat) :=
    updatePiece_here (x := x) (a := ⟨k, (pieces s (s.vfOf c) o k p).2, faultSide o true, faultIdx o k, o.scope⟩) h.idle hway hfind req g
  simp only [hshape, field_before, bitCells_bytes] at hupdate
  refine ⟨_, exec_access_ok h (by
    rw [engineStep, engineWrite, hstate]
    simp only [hfirst, Bool.false_eq_true, if_false, if_pos (And.intro hcode hadd), hupdate]
    rfl), ?_, ?_⟩
  · exact elementMade_setOp ((note_accessedBy ..).trans (writeUnits_accessedBy ..)) h rfl rfl rfl rfl rfl
  · exact (update_stored hs c x o.scope _ l n _).of_memory ⟨rfl, rfl⟩ ⟨rfl, rfl⟩

/-- `XHOT` counts in one step, and keeps the position of a counter that reaches the threshold. -/
theorem count_made {p : Nat} (hs : LogOk s) (hway : ch.way = none) (hcode : o.code = 0x63) (hstate : o.eng.elems.get .todo k = .at p)
    (hfirst : earlierWrite o k p = false) (hat : PieceAt s c .both (pieces s (s.vfOf c) o k p).2 l n) :
    let old := numberBefore s c o.scope l n
    ∃ t, exec (.engineElementAccess c x o.id (.write k) ch) s = .next t ∧ ElementMade s t c x o k .done ∧
      Stored s t c o.scope (numberCells l n (min (old + 1) (2 ^ 32 - 1))) ∧
      ∃ w, t.opAt c x o.id = some w ∧ w.eng.hot =
        if old + 1 = ixStride o.eng.record ∧ old ≠ 2 ^ 32 - 1 then
          o.eng.hot ++ [BitVec.ofNat 64 ((p - vaPos (ixTable o.eng.record)) / ixGran s (s.vfOf c) o.eng.record)]
        else o.eng.hot := by
  intro old
  have hpiece : (pieces s (s.vfOf c) o k p).2 = tablePiece s (s.vfOf c) o.eng.record p := by
    simp only [pieces, hcode]
  rw [hpiece] at hat
  obtain ⟨hshape, hfind⟩ := hat
  have hupdate (req : Nat → Nat → FabricRequest) (g : Nat → Nat) :=
    updatePiece_here (x := x) (a := ⟨k, tablePiece s (s.vfOf c) o.eng.record p, 1, faultIdx o k, o.scope⟩) h.idle hway hfind req g
  simp only [hshape, field_before, bitCells_bytes] at hupdate
  have hgo : ¬ (o.code ≠ 0x63 ∨ earlierWrite o k p = true) := by
    rw [hfirst]
    rintro (hne | hno)
    · exact hne hcode
    · exact absurd hno nofun
  have hacc : AccessedBy s (((s.noteRead c x (span l n) ((span l n).map (fun a => s.imageIn c o.scope a)))).writeCells c x o.scope
      (numberCells l n (min (old + 1) (2 ^ 32 - 1)))) c x := (note_accessedBy ..).trans (writeUnits_accessedBy ..)
  refine ⟨_, exec_access_ok h (by
    rw [engineStep, engineWrite, hstate]
    simp only [if_neg hgo, hupdate]
    rfl), ?_, ?_, ?_⟩
  · exact elementMade_setOp hacc h rfl rfl rfl rfl rfl
  · exact (update_stored hs c x o.scope _ l n _).of_memory ⟨rfl, rfl⟩ ⟨rfl, rfl⟩
  · refine ⟨_, opAt_setOp hacc h.here rfl, ?_⟩
    simp [old]
    rfl

end

end Sys2Proof.Machine
end

section
/-! SUPPORT. How an engine command starts (R123, R248, R257, R317) and completes (R33, R123, R166, R264, R319, R320). -/

namespace Sys2Proof.Machine

/-! ### The start -/

/-- What plane data is found where does not hang on what a context has read. -/
theorem findsAlike_note (s : State) (v c : Nat) (x : CtxId) (es : List (Nat × Nat)) : FindsAlike v s (s.note c x es) := by
  unfold State.note
  split <;> exact ⟨rfl, fun _ => rfl, fun _ _ _ => rfl⟩

theorem patMalformed_alike {v : Nat} {s t : State} (h : FindsAlike v s t) (r : List Byte) : patMalformed t v r = patMalformed s v r := by
  have hside (va : Word) (es : Nat) : planeSideBad t v va es = planeSideBad s v va es := by
    simp only [planeSideBad, h.checkPlane, h.planeDesc]
  simp only [patMalformed, hside, h.checkPlane, h.planeDesc]

theorem ixMalformed_alike {v : Nat} {s t : State} (h : FindsAlike v s t) (code : Nat) (r : List Byte) :
    ixMalformed t v code r = ixMalformed s v code r := by
  simp only [ixMalformed, h.checkPlane, h.planeDesc]

theorem vfOf_note (s : State) (c : Nat) (x : CtxId) (es : List (Nat × Nat)) : (s.note c x es).vfOf c = s.vfOf c := by
  unfold State.note
  split
  · rfl
  · rw [State.vfOf, State.teamOf, coreAt_setCtx, State.vfOf, State.teamOf]
    cases x <;> rfl

theorem nestTotal_eq (ls : List Level) : nestTotal ls = (ls.map (·.count)).prod := by
  induction ls with
  | nil => rfl
  | cons l r ih => rw [nestTotal, ih, List.map_cons, List.prod_cons]

/-- Codes of the commands that name a record. -/
def recordCodes : List Nat := [0x20, 0x60, 0x61, 0x62, 0x63]

/-- Bytes of a command's record. -/
def recordLength (o : Op) : Nat := if o.code = 0x20 then 96 else 32

/-- A record breaks its rules. -/
def recordBad (s : State) (v : Nat) (o : Op) (r : List Byte) : Bool :=
  if o.code = 0x20 then patMalformed s v r else ixMalformed s v o.code r

/-- A command that can be started, whose record lies in scratchpad. -/
structure CommandReady (s : State) (c : Nat) (x : CtxId) (o : Op) : Prop where
  may   : MayPerform s c x o
  st    : o.st = .issued
  away  : o.away = []
  code  : o.code ∈ recordCodes
  takes : (s.coreAt c).engineTakes o = true
  parks : s.parkWaits c o = false
  space : o.f.z.getLsbD 9 = true
  scope : o.scope < 4
  order : ∀ y ∈ (s.ctxAt c x).ops, y.id < o.id →
    (o.f.t.mask.getLsbD y.f.t.stream.toNat = true ∨ o.f.t.rel = true ∨ y.f.t.acq = true) →
      s.performedAt c y (windowScope o.y (BitVec.ofNat 2 o.scope)) = true

section
variable {s : State} {c a : Nat} {x : CtxId} {o : Op} {ch : Choice} (h : CommandReady s c x o)
include h

theorem CommandReady.code_cases : o.code = 0x20 ∨ o.code = 0x60 ∨ o.code = 0x61 ∨ o.code = 0x62 ∨ o.code = 0x63 := by
  simpa [recordCodes] using h.code

theorem CommandReady.engine : isEngine o.code = true := by
  rcases h.code_cases with hc | hc | hc | hc | hc <;> rw [hc] <;> rfl

theorem CommandReady.startScope_eq : startScope o = windowScope o.y (BitVec.ofNat 2 o.scope) := by
  have hcode := h.code_cases
  rw [windowScope_eq h.scope, startScope, if_neg (by omega), recordScope, recordInScratch, bitAt_eq_getLsbD, h.space, if_pos rfl]

theorem CommandReady.mayStart : s.mayPerform c x o (startScope o) = true := by
  rw [h.startScope_eq]
  refine List.all_eq_true.2 fun y hy => ?_
  obtain ⟨hmem, hlt⟩ := List.mem_filter.1 hy
  by_cases hp : mustPrecede y o = true
  · rw [h.order y hmem (of_decide_eq_true hlt) (by simpa [mustPrecede, or_assoc] using hp), Bool.or_true]
  · rw [Bool.eq_false_iff.2 hp]
    rfl

/-- A command that can be started is malformed, where its record is misaligned, or reads it. -/
theorem CommandReady.exec_start : exec (.engineCommandStart c x o.id ch) s =
    if o.y.toNat % 8 ≠ 0 then .next (s.copyFault c x o.id ⟨0x0A, 2, o.y, [], 0⟩)
    else s.settlePerf c x o (readFound s c x o (recordScope o) o.y (findRecord s c o (recordLength o)) 2 ch
      (fun s r => judgeRecord s c x o (r.map (·.2)))) := by
  have hcode := h.code_cases
  have hgo : (!isEngine o.code || o.st != .issued || !s.mayPerform c x o (startScope o)) = false := by
    rw [h.engine, h.st, h.mayStart]
    rfl
  have htakes : (!(s.coreAt c).engineTakes o || s.parkWaits c o) = false := by
    rw [h.takes, h.parks]
    rfl
  show execEngineCommandStart c x o.id ch s = _
  simp only [execEngineCommandStart, h.may.here, hgo, h.may.clear, htakes, Option.isSome_none, Bool.false_eq_true, if_false]
  rw [if_neg (show ¬ (o.code = 0x24 ∧ _) by omega), if_neg (show ¬ (o.code = 0x22 ∨ o.code = 0x24) by omega)]
  rfl

/-- The bytes that the start of a command takes for its record. -/
def recordBytes (s : State) (c : Nat) (x : CtxId) (o : Op) (ch : Choice) (a : Nat) : List Byte :=
  (s.readLocs c x (windowScope o.y (BitVec.ofNat 2 o.scope)) ch.cuts (span a (recordLength o))).map (·.2)

theorem CommandReady.exec_record (halign : o.y.toNat % 8 = 0) (hplace : s.scratch c o.y.toNat (recordLength o) = some a) : ∃ es,
    exec (.engineCommandStart c x o.id ch) s = s.settlePerf c x o (judgeRecord (s.note c x es) c x o (recordBytes s c x o ch a)) := by
  have hcode := h.code_cases
  have hscope : recordScope o = windowScope o.y (BitVec.ofNat 2 o.scope) := by
    rw [← h.startScope_eq, startScope, if_neg (by omega)]
  have hfind : findRecord s c o (recordLength o) = .bytes ((span a (recordLength o)).map .at) := by
    simp only [findRecord, recordInScratch, bitAt_eq_getLsbD, h.space, if_true, hplace]
  refine ⟨(span a (recordLength o)).zip
    ((s.readLocs c x (windowScope o.y (BitVec.ofNat 2 o.scope)) ch.cuts (span a (recordLength o))).map (·.1)), ?_⟩
  rw [h.exec_start, if_neg (fun hne => hne halign), hfind, readFound_here h.away, hscope]
  rfl

omit h in
theorem judgeRecord_note (es : List (Nat × Nat)) (r : List Byte) : judgeRecord (s.note c x es) c x o r =
    if recordBad s (s.vfOf c) o r then .fault ⟨0x0A, 2, o.y, [], 0⟩ else .held (startWith (s.note c x es) c x o r) := by
  rw [judgeRecord, recordBad, vfOf_note, patMalformed_alike (findsAlike_note ..), ixMalformed_alike (findsAlike_note ..)]

theorem CommandReady.faults_of_malformed (halign : o.y.toNat % 8 = 0) (hplace : s.scratch c o.y.toNat (recordLength o) = some a)
    (hbad : recordBad s (s.vfOf c) o (recordBytes s c x o ch a) = true) :
    exec (.engineCommandStart c x o.id ch) s = .next (s.copyFault c x o.id ⟨0x0A, 2, o.y, [], 0⟩) := by
  obtain ⟨es, hexec⟩ := h.exec_record halign hplace (ch := ch)
  rw [hexec, judgeRecord_note, hbad]
  rfl

theorem CommandReady.starts (halign : o.y.toNat % 8 = 0) (hplace : s.scratch c o.y.toNat (recordLength o) = some a)
    (hgood : recordBad s (s.vfOf c) o (recordBytes s c x o ch a) = false) :
    ∃ t p, exec (.engineCommandStart c x o.id ch) s = .next t ∧ OnlyCoreOf s t c ∧ SameMemory s t ∧ t.opAt c x o.id = some p ∧
      p.st = .started ∧ p.eng = { record := recordBytes s c x o ch a, total := commandTotal o (recordBytes s c x o ch a) } := by
  obtain ⟨es, hexec⟩ := h.exec_record halign hplace (ch := ch)
  have hnote := note_accessedBy s c x es
  refine ⟨startWith (s.note c x es) c x o (recordBytes s c x o ch a), _, ?_, ?_, note_sameMemory s c x es,
    opAt_setOp hnote h.may.here rfl, rfl, rfl⟩
  · rw [hexec, judgeRecord_note, hgood]
    rfl
  · have hcounters : { s with
        counters := (s.note c x es).counters, nodes := (s.note c x es).nodes, domains := (s.note c x es).domains } = s := by
      unfold State.note
      split <;> rfl
    have := setOp_onlyCoreOf hnote { o.settled [0] with
      st := .started, pageWait := false,
      eng := { record := recordBytes s c x o ch a, total := commandTotal o (recordBytes s c x o ch a) } }
    rwa [hcounters] at this

theorem CommandReady.total_eq (r : List Byte) : commandTotal o r =
    if o.code = 0x20 then ((patNest r).map (·.count)).prod
    else if o.code = 0x60 ∨ o.code = 0x61 then leAt r 16 4 * leAt r 20 4 else leAt r 16 4 := by
  rw [← nestTotal_eq]
  rcases h.code_cases with hc | hc | hc | hc | hc <;> simp [commandTotal, hc, ixN, ixL]

end

/-! ### The end -/

theorem engineSignal_setCtx (k : Core) (x : CtxId) (v : Ctx) (index : Bool) (code : Nat) :
    (k.setCtx x v).engineSignal index code = (k.engineSignal index code).setCtx x v := by
  have htokens : (k.setCtx x v).tokens code = k.tokens code := by cases x <;> rfl
  have habar : (k.setCtx x v).abar (code - 8) = k.abar (code - 8) := by cases x <;> rfl
  simp only [Core.engineSignal, htokens, habar]
  split
  · split <;> cases x <;> rfl
  · split
    · cases x <;> rfl
    · rfl

/-- A command's signal, by its code. -/
theorem signalled_of {P : Core → Prop} {k : Core} {index : Bool} {code : Nat} (h : P (k.engineSignal index code)) :
    (code ≤ 7 → (k.tokens code).waiting = [] → (k.tokens code).count < 63 →
      P (k.setTokens code { k.tokens code with count := (k.tokens code).count + 1 })) ∧
    (code ≤ 7 → ((k.tokens code).waiting ≠ [] ∨ 63 ≤ (k.tokens code).count) →
      P (k.setTokens code { k.tokens code with waiting := (k.tokens code).waiting ++ [.engine index] })) ∧
    (8 ≤ code → code ≤ 11 → P (k.setAbar (code - 8) (k.abar (code - 8)).arrive)) ∧ (code = 31 → P k) := by
  refine ⟨fun hc hempty hroom => ?_, fun hc hfull => ?_, fun h8 h11 => ?_, fun h31 => ?_⟩
  · have hfits : ((k.tokens code).waiting.isEmpty && decide ((k.tokens code).count < tokenDepth)) = true := by
      rw [hempty, Bool.and_eq_true]
      exact ⟨rfl, decide_eq_true hroom⟩
    simpa only [Core.engineSignal, if_pos hc, hfits, if_true] using h
  · have hno : ((k.tokens code).waiting.isEmpty && decide ((k.tokens code).count < tokenDepth)) = false := by
      rw [Bool.and_eq_false_iff, List.isEmpty_eq_false_iff, decide_eq_false_iff_not, tokenDepth]
      exact hfull.imp_right fun hle => Nat.not_lt.2 hle
    simpa only [Core.engineSignal, if_pos hc, hno, Bool.false_eq_true, if_false] using h
  · simpa only [Core.engineSignal, if_neg (show ¬ code ≤ 7 by omega), if_pos h11] using h
  · simpa only [Core.engineSignal, if_neg (show ¬ code ≤ 7 by omega), if_neg (show ¬ code ≤ 11 by omega)] using h

section
variable {s : State} {c : Nat} {x : CtxId} {o : Op} {ch : Choice}

/-- A command that ends is performed, and its core gives the signal. -/
theorem endCommand_performs {k : Core} (hk : k.ctxOf x = s.ctxAt c x) (here : s.opAt c x o.id = some o) (hcode : o.code ≠ 0x22) :
    OnlyCoreOf s (endCommand (s.setCore c k) c x o) c ∧ SameMemory s (endCommand (s.setCore c k) c x o) ∧
      PerformedOp (s.setCore c (k.engineSignal (isIndex o.code) (signalOf o))) (endCommand (s.setCore c k) c x o) c x o none := by
  let p : Op := { o with retired := true }
  let v : Ctx := ((s.ctxAt c x).put p).finish p none [] []
  have hctx : (s.setCore c k).ctxAt c x = s.ctxAt c x := by rw [State.ctxAt, State.coreAt_setCore_self, hk]
  have there : ((s.setCore c k).setOp c x p).opAt c x p.id = some p := by
    rw [State.opAt, setOp_eq, State.ctxAt_setCtx_self, hctx]
    exact find_put (o := p) here
  have hfinish : ((s.setCore c k).setOp c x { o with retired := true }).finishOp c x o.id none [] [] = s.setCore c (k.setCtx x v) := by
    refine (finishOp_eq there none [] []).trans ?_
    rw [setOp_eq, State.ctxAt_setCtx_self, setCtx_setCtx, hctx, State.setCtx,
      State.coreAt_setCore_self, State.setCore_setCore]
  have hcore : (s.setCore c (k.engineSignal (isIndex o.code) (signalOf o))).ctxAt c x = s.ctxAt c x := by
    have := engineSignal_setCtx k x (k.ctxOf x) (isIndex o.code) (signalOf o)
    rw [show k.setCtx x (k.ctxOf x) = k by cases x <;> rfl] at this
    rw [State.ctxAt, State.coreAt_setCore_self, this, Core.ctxOf_setCtx_self, hk]
  have hend : endCommand (s.setCore c k) c x o =
      ((s.setCore c (k.engineSignal (isIndex o.code) (signalOf o))).setCtx c x v).sweep c x := by
    simp only [endCommand, hfinish, State.coreAt_setCore_self, if_neg hcode, engineSignal_setCtx, State.setCore_setCore]
    rw [State.setCtx, State.coreAt_setCore_self, State.setCore_setCore]
  have done : Finished ((s.setCore c (k.engineSignal (isIndex o.code) (signalOf o))).ctxAt c x) v o none := by
    rw [hcore]
    have hf := (finish_finished ((s.ctxAt c x).put p) p none [] []).of_put
    exact ⟨hf.rest, nofun, fun n _ => hf.regs n nofun, hf.st⟩
  rw [hend, sweep_setCtx]
  exact ⟨((OnlyCoreOf.refl s c).setCore _).setCore _, ⟨rfl, rfl, rfl⟩, (done.drop _).performedOp⟩

/-- The end of a command where nothing of its core has been changed before. -/
theorem endCommand_coreAt : endCommand (s.setCore c (s.coreAt c)) c x o = endCommand s c x o := by
  have hput : (s.setCore c (s.coreAt c)).setOp c x { o with retired := true } = s.setOp c x { o with retired := true } := by
    rw [setOp_eq, setOp_eq, State.ctxAt, State.coreAt_setCore_self, State.setCtx, State.coreAt_setCore_self, State.setCore_setCore]
    rfl
  rw [endCommand, hput]
  rfl

variable (h : EngineGoing s c x o)
include h

/-- Every element of a command is made, and every access performed at its scope. -/
def CommandMade (s : State) (c : Nat) (o : Op) : Prop :=
  o.eng.checked = o.eng.total ∧ (∀ e ∈ o.eng.elems, e.2 = .done) ∧ o.eng.hot = [] ∧ ∀ n ∈ o.took ++ o.wrote, s.seqPerformed c o.scope n =
    true

theorem exec_complete (hhot : o.eng.hot = []) : exec (.engineCommandComplete c x o.id ch) s =
    .next (if o.code = 0x24 then endPconv s c x o else lastSteps s c x o) := by
  have hgo : (!isEngine o.code || o.st != .started) = false := by
    rw [h.engine, h.st]
    rfl
  show execEngineCommandComplete c x o.id ch s = _
  simp only [execEngineCommandComplete, h.here, hgo, hhot, h.clear, Bool.false_eq_true, if_false]

theorem exec_lastSteps (hcode : o.code ≠ 0x24) (hmade : CommandMade s c o) : exec (.engineCommandComplete c x o.id ch) s =
    .next (if o.code = 0x62 ∧ !o.eng.pushed then
      if (s.coreAt c).yq.length < 16 then
        (s.setCore c { s.coreAt c with yq := (s.coreAt c).yq ++ [BitVec.ofNat 64 o.eng.live] }).setOp c x
          { o with eng := { o.eng with pushed := true } }
      else s
    else endCommand s c x o) := by
  obtain ⟨hchecked, hdone, hhot, hperf⟩ := hmade
  have hall : o.eng.elems.all (fun e => e.2 == .done) = true := List.all_eq_true.2 fun e he => beq_iff_eq.2 (hdone e he)
  have hseqs : (o.took ++ o.wrote).all (fun n => s.seqPerformed c o.scope n) = true := List.all_eq_true.2 hperf
  have hgo : ¬ (o.eng.checked < o.eng.total ∨ (!o.eng.elems.all (fun e => e.2 == .done)) = true) := by
    rw [hall, hchecked]
    simp
  rw [exec_complete h hhot, if_neg hcode, lastSteps]
  simp only [if_neg hgo, hseqs, Bool.not_true, Bool.false_eq_true, if_false]

/-- A command whose last steps are done performs, and gives its signal. -/
theorem command_ends (hcode : o.code ∈ recordCodes) (hpushed : o.code = 0x62 → o.eng.pushed = true)
    (hmade : CommandMade s c o) :
    ∃ t, exec (.engineCommandComplete c x o.id ch) s = .next t ∧ OnlyCoreOf s t c ∧ SameMemory s t ∧
      PerformedOp (s.setCore c ((s.coreAt c).engineSignal (isIndex o.code) (signalOf o))) t c x o none := by
  have hne : o.code ≠ 0x24 ∧ o.code ≠ 0x22 := by
    simp only [recordCodes, List.mem_cons, List.not_mem_nil, or_false] at hcode
    omega
  have hno : ¬ (o.code = 0x62 ∧ (!o.eng.pushed) = true) := fun hp => by
    rw [hpushed hp.1] at hp
    exact absurd hp.2 nofun
  refine ⟨_, (exec_lastSteps h hne.1 hmade).trans (congrArg _ (if_neg hno)), ?_⟩
  rw [← endCommand_coreAt]
  exact endCommand_performs rfl h.here hne.2

theorem count_pushed (hcode : o.code = 0x62) (hpushed : o.eng.pushed = false) (hmade : CommandMade s c o) :
    ((s.coreAt c).yq.length < 16 → ∃ t p, exec (.engineCommandComplete c x o.id ch) s = .next t ∧ OnlyCoreOf s t c ∧
      (t.coreAt c).yq = (s.coreAt c).yq ++ [BitVec.ofNat 64 o.eng.live] ∧ t.opAt c x o.id = some p ∧ p.eng.pushed = true) ∧
    (16 ≤ (s.coreAt c).yq.length → exec (.engineCommandComplete c x o.id ch) s = .next s) := by
  have hstep := exec_lastSteps h (ch := ch) (by omega) hmade
  rw [if_pos ⟨hcode, by rw [hpushed]; rfl⟩] at hstep
  refine ⟨fun hroom => ?_, fun hfull => by rw [hstep, if_neg (Nat.not_lt.2 hfull)]⟩
  rw [if_pos hroom] at hstep
  let k : Core := { s.coreAt c with yq := (s.coreAt c).yq ++ [BitVec.ofNat 64 o.eng.live] }
  have hctx : (s.setCore c k).ctxAt c x = s.ctxAt c x := by
    rw [State.ctxAt, State.coreAt_setCore_self]
    cases x <;> rfl
  have hacc : AccessedBy s (s.setCore c k) c x := ⟨(OnlyCoreOf.refl s c).setCore _, by rw [hctx]⟩
  refine ⟨_, _, hstep, setOp_onlyCoreOf hacc _, ?_, opAt_setOp hacc h.here rfl, rfl⟩
  rw [setOp_eq, coreAt_setCtx, State.coreAt_setCore_self]
  cases x <;> rfl

/-- `XHOT` places its oldest cause while the bivouac context runs. -/
theorem hot_placed {a : Word} {rest : List Word} (hhot : o.eng.hot = a :: rest) (hhold : (s.coreAt c).hotHold = false)
    (hbiv : (s.coreAt c).biv.run = .running) (hevents : ((s.coreAt c).pend.filter (fun q => 9 < q.cause)).length < 5)
    (hpend : (s.coreAt c).pend.length < 8) :
    ∃ t p, exec (.engineCommandComplete c x o.id ch) s = .next t ∧ OnlyCoreOf s t c ∧
      (t.coreAt c).pend = (s.coreAt c).pend ++ [{ cause := 0x13, info := a }] ∧ t.opAt c x o.id = some p ∧ p.eng.hot = rest := by
  have hgo : (!isEngine o.code || o.st != .started) = false := by
    rw [h.engine, h.st]
    rfl
  let p : Op := { o with eng := { o.eng with hot := rest } }
  let u : State := s.setOp c x p
  have hbivouac : (u.coreAt c).biv.run = .running := by
    show ((s.setOp c x p).coreAt c).biv.run = _
    rw [setOp_eq, coreAt_setCtx]
    cases x
    case biv => exact hbiv
    all_goals exact hbiv
  have hqueue : (u.coreAt c).pend = (s.coreAt c).pend := by
    show ((s.setOp c x p).coreAt c).pend = _
    rw [setOp_eq, coreAt_setCtx]
    cases x <;> rfl
  let k : Core := { u.coreAt c with pend := (u.coreAt c).pend ++ [{ cause := 0x13, info := a }] }
  have hnone : (u.setCore c k).enter c = u.setCore c k := by
    have hno : ((u.setCore c k).coreAt c).pend.find? ((u.setCore c k).takeable c) = none := by
      refine List.find?_eq_none.2 fun q _ => ?_
      rw [State.takeable, State.coreAt_setCore_self, show k.biv.run = .running from hbivouac]
      nofun
    rw [State.enter, hno]
  have hraise : u.raise c { cause := 0x13, info := a } = some (u.setCore c k) := by
    rw [State.raise]
    simp only [hqueue]
    rw [if_pos ⟨hevents, hpend⟩, ← hqueue, hnone]
  have hstep : exec (.engineCommandComplete c x o.id ch) s = .next (u.setCore c k) := by
    show execEngineCommandComplete c x o.id ch s = _
    simp only [execEngineCommandComplete, h.here, hgo, hhot, hhold, Bool.false_eq_true, if_false]
    exact congrArg (fun r : Option State => Host.Outcome.next (r.getD s)) hraise
  have hop : (u.setCore c k).opAt c x o.id = some p := by
    have hu : u.opAt c x o.id = some p := opAt_setOp (.refl s c x) h.here rfl
    rw [State.opAt, State.ctxAt, State.coreAt_setCore_self]
    rw [State.opAt, State.ctxAt] at hu
    cases x <;> exact hu
  refine ⟨_, p, hstep, ((OnlyCoreOf.refl s c).setCore _).setCore _, ?_, hop, rfl⟩
  rw [State.coreAt_setCore_self, ← hqueue]

/-- `PCONV` sets P, once no fill at or above it is outstanding. -/
theorem pconv_ends (hcode : o.code = 0x24) (hhot : o.eng.hot = [])
    (hfills : ∀ p ∈ (s.coreAt c).allOps, p.code = 0x22 → p.st ≠ .done → p.z.toNat < o.y.toNat) :
    ∃ (ps : Tab ProbeSlot) (rs : List Nat),
      (∃ t, exec (.engineCommandComplete c x o.id ch) s = .next t ∧ OnlyCoreOf s t c ∧ SameMemory s t ∧
        PerformedOp (s.setCore c (Core.engineSignal { s.coreAt c with probeP := o.y.toNat, probe := ps, recent := rs }
          (isIndex o.code) (signalOf o))) t c x o none) ∧
      (∀ n, ps.get {} n = if n < o.y.toNat ∧ n < (s.coreAt c).probeP then (s.coreAt c).probe.get {} n else {}) ∧
      ∀ n, n ∈ rs ↔ n ∈ (s.coreAt c).recent ∧ n < o.y.toNat ∧ n < (s.coreAt c).probeP := by
  have hnone : ((s.coreAt c).allOps.any fun q => q.code == 0x22 && q.st != .done && decide (o.y.toNat ≤ q.z.toNat)) = false := by
    refine List.any_eq_false.2 fun q hq hbusy => ?_
    simp only [Bool.and_eq_true, beq_iff_eq, bne_iff_ne, decide_eq_true_eq] at hbusy
    have := hfills q hq hbusy.1.1 hbusy.1.2
    omega
  refine ⟨(s.coreAt c).probe.filter (fun e => decide (e.1 < min o.y.toNat (s.coreAt c).probeP)),
    (s.coreAt c).recent.filter (fun n => decide (n < min o.y.toNat (s.coreAt c).probeP)), ?_, fun n => ?_, fun n => ?_⟩
  · refine ⟨_, (exec_complete h hhot).trans (congrArg _ (if_pos hcode)), ?_⟩
    simp only [endPconv, hnone, Bool.false_eq_true, if_false]
    exact endCommand_performs (by cases x <;> rfl) h.here (by omega)
  · refine (Tab.get_filter ({} : ProbeSlot) (fun e => decide (e < min o.y.toNat (s.coreAt c).probeP)) _ n).trans ?_
    simp only [decide_eq_true_eq, Nat.lt_min]
  · rw [List.mem_filter, decide_eq_true_eq, Nat.lt_min]

end

end Sys2Proof.Machine
end

section
/-! SUPPORT. The obligation on engine commands (R123, R257, R317 to R320). -/

namespace Sys2Proof.Machine

/-- Of the engine commands those from 0x60 on are the index engine's. -/
theorem isIndex_of_engine {code : Nat} (h : isEngine code = true) : isIndex code = decide (0x60 ≤ code) := by
  simp only [isEngine, Bool.or_eq_true, beq_iff_eq, Bool.and_eq_true, decide_eq_true_eq] at h
  rw [isIndex, Bool.and_eq_left_iff_imp, decide_eq_true_eq, decide_eq_true_eq]
  omega

/-- A command that names a record names its signal beside it (R61). -/
theorem signalOf_record {o : Op} (h : o.code ∈ recordCodes) : signalOf o = o.f.x.toNat := by
  simp only [recordCodes, List.mem_cons, List.not_mem_nil, or_false] at h
  rw [signalOf, if_pos (by omega)]

/-- Settles O42: the start, each access and the completion of a command are the steps above. -/
theorem engineCommands : Obligations.EngineCommands := by
  unfold Obligations.EngineCommands
  refine ⟨?starts, ?accesses, ?completes⟩
  case starts =>
    intro c a x o ch s hmay hst haway hcode htakes hparks hspace hscope wide horder n v r bad total
    have h : CommandReady s c x o := ⟨hmay, hst, haway, hcode, htakes, hparks, hspace, hscope, horder⟩
    refine ⟨fun halign => by rw [h.exec_start, if_pos halign], fun halign hplace hbad => h.faults_of_malformed halign hplace hbad,
      fun halign hplace hgood => ?_⟩
    obtain ⟨t, p, ht, hcore, hmem, hop, hpst, heng⟩ := h.starts halign hplace hgood
    exact ⟨t, p, ht, hcore, hmem, hop, hpst, heng.trans (by rw [h.total_eq]; rfl)⟩
  case accesses =>
    intro c k p n l m x o ch s hs h hpart hway v r q pos step state taken old cells makes checks sides source
    have hgran : step = ixGran s v r := rfl
    have hpos : pos = vaPos (ixTable r) := by
      show (ixTable r).toNat % 2 ^ 48 = field (ixTable r).toNat 0 48
      rw [field, Nat.pow_zero, Nat.div_one]
    refine ⟨?index, ?check, ?read, ?write, ?scatter, ?count, ?places⟩
    case index =>
      intro hcode _ hk hchecked hstate hat
      exact index_made h hpart hway hcode hk hchecked hstate hat
    case check =>
      intro hk hlt
      refine ⟨fun hcode hp hsides => ?_, fun e a cause hcode hp hfault => copyCheck_faults h hk hlt hcode hp hfault, fun hstate => ?_⟩
      · exact check_made h hk (copyCheck_made hk hlt hcode hp hsides.1 hsides.2)
      have hindex (hcode : 0x60 ≤ o.code) : engineCheck s c x o ch = indexCheck s c x o k m := engineCheck_index hk hlt hcode hstate
      refine ⟨fun hcode hp hsides => ?_, fun hcode hm hp hsides => ?_, fun hcode hout => ?_, fun hcode hzero => ?_,
        fun hcode hlive hp hval hplace => liveCheck_made h hk hlt hstate hcode hlive hp hval hplace⟩
      · refine check_made h hk ((hindex (by omega)).trans (indexCheck_table (by omega) (by omega) ?_ hsides.1 hsides.2))
        rw [if_neg (by omega), hp, hpos]
        rfl
      · refine check_made h hk ((hindex (by omega)).trans (indexCheck_table (by omega) (fun hout => ?_) ?_ hsides.1 hsides.2))
        · exact absurd hm (Nat.not_lt.2 hout.2)
        · rw [if_pos hcode, hp, hpos, hgran]
      · exact check_made h hk ((hindex (by omega)).trans (indexCheck_beyond hcode hout))
      · exact check_made h hk ((hindex (by omega)).trans (indexCheck_zero hcode hzero))
    case read =>
      intro hcode _ hstate hat
      exact read_made h hpart hway (by omega) hstate hat
    case write =>
      intro b hcode hstate hfirst
      have hadd : ¬ (o.code = 0x61 ∧ ixAdd o.eng.record = true) := by
        rintro ⟨h61, hyes⟩
        rcases hcode with h20 | h60 | h62 | ⟨-, hno⟩
        · omega
        · omega
        · omega
        · exact absurd (hyes.symm.trans hno) nofun
      refine ⟨fun hat => ?_, fun sh w hshape h0 h8 _ hfind => ?_⟩
      · obtain ⟨hshape, hfind⟩ := hat
        exact write_made h hs hpart hway hadd hstate hfirst hfind (by rw [hshape]; exact bitCells_bytes ..) (numberCells_rising ..)
      · exact write_made h hs hpart hway hadd hstate hfirst (ls := [l]) hfind (by rw [hshape]; exact bitCells_bits s l _ h0 h8)
          (List.pairwise_singleton ..)
    case scatter =>
      intro b hcode hadd hstate hfirst hat
      exact scatter_made h hs hway hcode hadd hstate hfirst hat
    case count =>
      intro hcode hstate hfirst hat hn
      subst hn
      obtain ⟨t, ht, hmade, hstored, w, hw, hhot⟩ := count_made h hs hway hcode hstate hfirst hat
      exact ⟨t, ht, hmade, hstored, w, hw, by rw [hpos, hgran]; exact hhot⟩
    case places =>
      intro hcode
      refine ⟨fun hlt => ?_, fun hle => ?_⟩
      · simp only [q, pieces, hcode, if_pos hlt]
        rfl
      · simp only [q, pieces, hcode, if_neg (Nat.not_lt.2 hle)]
        rfl
  case completes =>
    intro c x o ch s h k code index made ends signalled
    have hindex : isIndex o.code = index := isIndex_of_engine h.engine
    refine ⟨fun hcode hpushed _ hmade => ?_, fun hcode hpushed hmade => count_pushed h hcode hpushed hmade,
      fun a rest _ hhot hhold hbiv hevents hpend => hot_placed h hhot hhold hbiv hevents hpend, fun hcode hhot _ hfills => ?_⟩
    · have hsignal : signalOf o = code := signalOf_record hcode
      have hends := command_ends h hcode hpushed hmade (ch := ch)
      rw [hindex, hsignal] at hends
      exact signalled_of (P := ends) hends
    · obtain ⟨ps, rs, hends, hps, hrs⟩ := pconv_ends h hcode hhot hfills (ch := ch)
      have hsignal : signalOf o = code := by rw [signalOf, if_pos (by omega)]
      rw [hindex, hsignal] at hends
      exact ⟨ps, rs, signalled_of (P := ends) hends, hps, hrs⟩

end Sys2Proof.Machine
end
